-- ==== Sys2Proof/Word.lean ====
section
/-! DEFINITION. The word types of the machine (R6) and their plainest arithmetic. -/

namespace Sys2Proof

/-- A dword of the machine: 64 bits (R6). -/
abbrev Word := BitVec 64

/-- A byte of memory. -/
abbrev Byte := BitVec 8

/-- A register number x0 to x31, f0 to f31 or v0 to v31 (R202). -/
abbrev Reg := BitVec 5

/-- A tile handle t0 to t255 (R47). -/
abbrev Handle := BitVec 8

/-- A timeline handle tl0 to tl15 (R120). -/
abbrev Tl := BitVec 4

/-- The field NAME[hi:lo] of a number (R6): `len` bits from bit `lo`. -/
def bitsAt (w lo len : Nat) : Nat := w / 2 ^ lo % 2 ^ len

end Sys2Proof
end

