-- ==== Sys2Proof/Names.lean ====
section
/-! DEFINITION. The names the specification gives: classes, scopes, formats, system registers, region-10 registers, and the parties and
requests that the events of the opcode table name. -/

namespace Sys2Proof

/-- A scope of the consistency model, codes 0 to 5 (R96). -/
inductive Scope where
  | lane | core | quad | die | pkg | pod
  deriving DecidableEq, Repr

/-- The scope code of R96. -/
def Scope.code : Scope → Nat
  | .lane => 0 | .core => 1 | .quad => 2 | .die => 3 | .pkg => 4 | .pod => 5

/-- The ordering field of an atomic: 00 none, 01 rl, 10 aq, 11 aqrl (R193). -/
inductive MemOrd where
  | none | rl | aq | aqrl
  deriving DecidableEq, Repr

/-- The ordering field of FENCE: 01 rel, 10 acq, 11 ar (R193). -/
inductive FenceOrd where
  | rel | acq | ar
  deriving DecidableEq, Repr

/-- The rounding field (R171). -/
inductive Rm where
  | dyn | rne | rtz | rdn | rup | rna | rod | dsr
  deriving DecidableEq, Repr

/-- The rounding code of R171. -/
def Rm.code : Rm → Nat
  | .dyn => 0 | .rne => 1 | .rtz => 2 | .rdn => 3 | .rup => 4 | .rna => 5 | .rod => 6 | .dsr => 7

/-- The rounding field of a code, taken modulo 8 (R171). -/
def Rm.ofCode (n : Nat) : Rm :=
  match n % 8 with
  | 1 => .rne | 2 => .rtz | 3 => .rdn | 4 => .rup | 5 => .rna | 6 => .rod | 7 => .dsr | _ => .dyn

/-- fmt of the FF and FQ words: 00 FP32, 01 FP64 (R193). -/
inductive FpFmt where
  | f32 | f64
  deriving DecidableEq, Repr

/-- The integer types of fcvti and fcvtx (R221). -/
inductive IntTy where
  | s32 | u32 | s64 | u64
  deriving DecidableEq, Repr

/-- The format codes 0x0 to 0xC of R163. -/
inductive Fmt where
  | int8 | uint8 | int16 | int32 | fp64 | fp32 | fp16 | bf16 | e4m3 | e5m2 | mxfp4 | lns6 | int4
  deriving DecidableEq, Repr

/-- The format code of R163. -/
def Fmt.code : Fmt → Nat
  | .int8 => 0 | .uint8 => 1 | .int16 => 2 | .int32 => 3 | .fp64 => 4 | .fp32 => 5 | .fp16 => 6 | .bf16 => 7
  | .e4m3 => 8 | .e5m2 => 9 | .mxfp4 => 10 | .lns6 => 11 | .int4 => 12

/-- The format of a code; 0xD to 0xF are reserved (R163). -/
def Fmt.ofCode : Nat → Option Fmt
  | 0 => some .int8 | 1 => some .uint8 | 2 => some .int16 | 3 => some .int32 | 4 => some .fp64 | 5 => some .fp32
  | 6 => some .fp16 | 7 => some .bf16 | 8 => some .e4m3 | 9 => some .e5m2 | 10 => some .mxfp4 | 11 => some .lns6
  | 12 => some .int4 | _ => none

/-- The element width in bits of a format (R54, R163). -/
def Fmt.width : Fmt → Nat
  | .mxfp4 | .int4 => 4
  | .int8 | .uint8 | .e4m3 | .e5m2 | .lns6 => 8
  | .int16 | .fp16 | .bf16 => 16
  | .int32 | .fp32 => 32
  | .fp64 => 64

/-- The lanes field of packed SIMD: 8 × 8, 4 × 16, 2 × 32 bits (R244). -/
inductive Lanes where
  | b | h | w
  deriving DecidableEq, Repr

/-- The element widths 8, 16, 32, 64 bits of vector memory forms and of VCFG.SEW (R192, R268). -/
inductive Ew where
  | e8 | e16 | e32 | e64
  deriving DecidableEq, Repr

/-- The width code of R192 and R268. -/
def Ew.code : Ew → Nat
  | .e8 => 0 | .e16 => 1 | .e32 => 2 | .e64 => 3

/-- The width of a code, taken modulo 4. -/
def Ew.ofCode (n : Nat) : Ew :=
  match n % 4 with
  | 0 => .e8 | 1 => .e16 | 2 => .e32 | _ => .e64

/-- The width in bits. -/
def Ew.bits : Ew → Nat
  | .e8 => 8 | .e16 => 16 | .e32 => 32 | .e64 => 64

/-- src1 of an integer vector form: kinds 000, 001, 010 (R280). -/
inductive VSrc where
  | vec (v : Reg) | xreg (x : Reg) | imm (i : BitVec 5)
  deriving DecidableEq, Repr

/-- src1 of an FP vector form: kinds 000 and 011 (R283). -/
inductive FSrc where
  | vec (v : Reg) | freg (f : Reg)
  deriving DecidableEq, Repr

/-- The classes of core (R154), numbered as CLASSID.CLASS (R142). -/
inductive CoreClass where
  | c | v | t
  deriving DecidableEq, Repr

/-- The class code of R142. -/
def CoreClass.code : CoreClass → Nat
  | .c => 0 | .v => 1 | .t => 2

/-- The class of a code; 3 names none (R240). -/
def CoreClass.ofCode : Nat → Option CoreClass
  | 0 => some .c | 1 => some .v | 2 => some .t | _ => none

/-- The blends of R1. -/
inductive Blend where
  | j10 | j14 | j18
  deriving DecidableEq, Repr

/-- The system registers of R195. -/
inductive SReg where
  | status | thandler | tscratch | tcause | tepc | tval | tmicro
  | rndmode | fflags | dsrseed | fmta | fmtb | scla | sclb
  | vcfg | vl | veidx | lease | mshape | stripbase
  | tileshape | h (n : BitVec 3)
  | time | cycle | threadid | classid | diefeat | profctl
  deriving DecidableEq, Repr

/-- The number of a system register (R195). -/
def SReg.number : SReg → Nat
  | .status => 0x000 | .thandler => 0x001 | .tscratch => 0x002 | .tcause => 0x003 | .tepc => 0x004 | .tval => 0x005
  | .tmicro => 0x006 | .rndmode => 0x010 | .fflags => 0x011 | .dsrseed => 0x012 | .fmta => 0x013 | .fmtb => 0x014
  | .scla => 0x015 | .sclb => 0x016 | .vcfg => 0x020 | .vl => 0x021 | .veidx => 0x022 | .lease => 0x023
  | .mshape => 0x024 | .stripbase => 0x025 | .tileshape => 0x030 | .time => 0x040 | .cycle => 0x041
  | .threadid => 0x042 | .classid => 0x043 | .diefeat => 0x044 | .profctl => 0x045 | .h n => 0x050 + n.toNat

/-- The system register of a number; every other number is unassigned (R195, R196). -/
def SReg.ofNumber (n : Nat) : Option SReg :=
  match n with
  | 0x000 => some .status | 0x001 => some .thandler | 0x002 => some .tscratch | 0x003 => some .tcause
  | 0x004 => some .tepc | 0x005 => some .tval | 0x006 => some .tmicro | 0x010 => some .rndmode
  | 0x011 => some .fflags | 0x012 => some .dsrseed | 0x013 => some .fmta | 0x014 => some .fmtb
  | 0x015 => some .scla | 0x016 => some .sclb | 0x020 => some .vcfg | 0x021 => some .vl
  | 0x022 => some .veidx | 0x023 => some .lease | 0x024 => some .mshape | 0x025 => some .stripbase
  | 0x030 => some .tileshape | 0x040 => some .time | 0x041 => some .cycle | 0x042 => some .threadid
  | 0x043 => some .classid | 0x044 => some .diefeat | 0x045 => some .profctl
  | 0x050 => some (.h 0) | 0x051 => some (.h 1) | 0x052 => some (.h 2) | 0x053 => some (.h 3)
  | 0x054 => some (.h 4) | 0x055 => some (.h 5) | 0x056 => some (.h 6) | 0x057 => some (.h 7)
  | _ => none

/-- A thread's name: the stand id and the index within the stand (R142). -/
structure Tid where
  stand : Nat
  index : Nat
  deriving DecidableEq, Repr

/-- THREADID as a word: STAND in [31:16], INDEX in [5:0] (R142). -/
def Tid.word (t : Tid) : Nat := t.stand % 65536 * 65536 + t.index % 64

/-- A core: die number, quad within the die, core or V-front within the quad (R142). -/
structure CoreId where
  die : Nat
  quad : Nat
  core : Nat
  deriving DecidableEq, Repr

/-- A thread context: a core and a slot, context or thread number (R142). -/
structure Place where
  at_ : CoreId
  slot : Nat
  deriving DecidableEq, Repr

/-- A namespace instance of tiles, timelines and barriers (R47, R120, R228). -/
inductive Space where
  | thread (t : Tid)
  | core (stand : Nat) (c : CoreId)
  | quad (stand : Nat)
  | die (ctx : Nat) (die : Nat)
  | pkg (ctx : Nat)
  | pod (job : Nat)
  deriving DecidableEq, Repr

/-- A tile: its namespace instance and its handle (R49). -/
structure TileKey where
  space : Space
  handle : Nat
  deriving DecidableEq, Repr

/-- A timeline counter: its namespace instance and its number (R120). -/
structure TlKey where
  space : Space
  num : Nat
  deriving DecidableEq, Repr

/-- A barrier: its namespace instance, its scope code and its number (R228). -/
structure BarKey where
  space : Space
  scope : Scope
  num : Nat
  deriving DecidableEq, Repr

/-- The region-10 registers, each named by its block's chapter and index. The manual gives them no addresses (R18). -/
inductive Reg10 where
  | defkey (part : Nat)               -- R33
  | keyslot (slot : Nat)              -- R33, read only
  | pinq (die part : Nat)             -- R53
  | rasbase | rasidx                  -- R91
  | qbase (q : Nat) | qctl (q : Nat) | qptr (q : Nat)          -- R310
  | qown (die quad : Nat)             -- R328
  | vquota (die quad part : Nat)      -- R328
  | svhnd (part : Nat) | svring (part : Nat) | svidx (part : Nat)   -- R339
  | svcmd (part : Nat)                -- R342
  | dbgring (part : Nat)              -- R358
  | hwin (n : Nat)                    -- R375
  | hport (n : Nat)                   -- R377
  | timestat                          -- R381
  | diehlth (die : Nat)               -- R385
  deriving DecidableEq, Repr

/-- What a dword of region 10 is (R18): a register; a dword of a translation-context record (R21), of a capability entry (R356), of a tile entry (R57),
of a timeline counter (R121) or of a packet in a dispatcher queue (R320). -/
inductive DevReg where
  | reg (r : Reg10)
  | context (ctx dword : Nat)
  | cap (part index dword : Nat)
  | tile (key : TileKey) (dword : Nat)
  | timeline (key : TlKey) (dword : Nat)
  | packet (die place dword : Nat)
  deriving DecidableEq, Repr

/-- What one package asks of another: the kinds of a pod-window access (R133), the translation of a load or a store alone (R44), the kinds of LINEOP
(R243: `line` 0 icinv, 1 zero, 2 clean), a TLBINV at pod scope with its KIND and PART (R41) and an arrival at a barrier at pod scope (R228). -/
inductive PodOp where
  | load (size : Nat)
  | store (size : Nat) (value : Nat)
  | amo (op : Nat) (size : Nat) (src cmp : Nat)
  | probe (size : Nat) (write : Bool)
  | line (kind : Nat)
  | tlbinv (kind part : Nat)
  | arrive (bar n : Nat)
  deriving DecidableEq, Repr

/-- How an access is made: at which scope (R96), in supervisor mode (R30), by a vector or a tile-copy instruction (R31), and as an acquire or a release
(R98). -/
structure AccessHow where
  scope : Scope
  sup : Bool
  vec : Bool
  aq : Bool
  rl : Bool
  deriving DecidableEq, Repr

/-- A request of another package (R38, R41, R132, R134): its package and number, the JOBID, the offset in the job's region, how it is made, and the thread
that makes it with its core. -/
structure PodReq where
  src : Nat
  id : Nat
  jobid : Nat
  offset : Nat
  op : PodOp
  how : AccessHow
  tid : Tid
  core : CoreId
  deriving DecidableEq, Repr

/-- The answer to a request of another package (R133): a value; a fault class and level, or poison, at the byte `off` of the access. -/
inductive PodAns where
  | value (v : Nat)
  | fault (cls level off : Nat)
  | poison (off : Nat)
  deriving DecidableEq, Repr

/-- The operations of VCOLL (R305). -/
inductive CollOp where
  | sum | max | min | smerge | gather | scatter | bcast
  deriving DecidableEq, Repr

/-- What a member contributes to a collective instance (R307): its elements with its op, SEW, F, VL, D and root, and the group it names (R303): the member
count, the tree, whether it has a buddy and its timeout in nanoseconds. -/
structure Contribution where
  rank : Nat
  pkg : Nat
  op : CollOp
  sew : Ew
  f : Bool
  vl : Nat
  d : Nat
  root : Nat
  elems : List Nat
  count : Nat
  tree : Nat
  useBuddy : Bool
  tmoNs : Nat
  deriving DecidableEq, Repr

/-- A collective instance: job, GID and SEQ (R307). -/
structure CollKey where
  job : Nat
  gid : Nat
  seq : Nat
  deriving DecidableEq, Repr

/-- A copy that goes to a buddy (R307): its instance, and, for the copy of a member of another package that has come as far as the switch tier, what that
member sent; the copies of this package's members are there since their issue. -/
structure CopySent where
  inst : CollKey
  sent : Option Contribution
  deriving DecidableEq, Repr

/-- A unit that a boot step or a capacity failure names (R382, R384). -/
inductive Unit_ where
  | package
  | die (die : Nat)
  | link (die side : Nat)
  | stack (die n : Nat)
  | quad (die quad : Nat)
  | cluster (die quad n : Nat)
  | port (die n : Nat)
  | core (c : CoreId)
  deriving DecidableEq, Repr

/-- What a boot step came to (R382). -/
inductive BootOut where
  | passed | failed | skipped
  deriving DecidableEq, Repr

/-- A request to the security root (R388). -/
inductive SpdmOp where
  | loadKey (slot part : Nat)
  | unloadKey (slot : Nat)
  | attest
  deriving DecidableEq, Repr

end Sys2Proof
end

