-- ==== Sys2Proof/Config.lean ====
section
/-! DEFINITION. The free values: what the specification leaves open. Each is an opaque constant: nothing can be proved of its values. -/

namespace Sys2Proof.Config

/-- The n-th free dword (log 4): a value that the specification does not fix and that a step has to take. -/
opaque freeWord : Nat → Word

/-- The 16-byte block `block` of memory as a reader sees it when it was written as `old` under key generation `was` and is decrypted under generation
`now` (R34, log 6). -/
opaque wrongKey (was now block : Nat) (old : BitVec 128) : BitVec 128

/-- What the dword at physical address 8 a of region 10 is, if anything: the manual lists the register blocks and gives them no addresses (R18, log 12). -/
opaque devAt (a : Nat) : Option DevReg

/-- The place, in a list of `n` entries, of the TLB or walk-cache entry that is replaced (R36 names no policy, log 13). -/
opaque victim (n : Nat) : Nat

/-- The nonce of the n-th capability entry made (R356, log 9). -/
opaque nonce : Nat → BitVec 32

/-- The failure code that a boot step leaves (R382, log 10). -/
opaque bootCode (step start : Nat) : Word

/-- The strip counters ABUSY and MBUSY for a strip of `cyc` cycles (R362, log 14). -/
opaque stripBusy (n cyc : Nat) : BitVec 32 × BitVec 32

/-- The measurement of the image that a start runs (R387, log 15). -/
opaque measurement (start : Nat) : BitVec 256

/-- The attestation report that the security root signs (R388, log 15). -/
opaque attestation : Nat → Word

end Sys2Proof.Config
end

