-- ==== Sys2Proof/Syntax.lean ====
section
/-! DEFINITION. The instructions and events of the package: one constructor for each row of the opcode table. An event's operands name what it acts
on. -/

namespace Sys2Proof

/-- An instruction word or an event. Register fields keep the names of the formats of R193 and R194; `off` of a jump or branch is its offset
without bit 0; `m` is the mask bit M. -/
inductive Instr where
  /-- R215. Writes sext(imm20 << 12, 32) to x[rd]. -/
  | lui (rd : Reg) (imm : BitVec 20)
  /-- R215. Writes PC + sext(imm20 << 12, 32) to x[rd]. -/
  | auipc (rd : Reg) (imm : BitVec 20)
  /-- R215. Links PC + 4 in x[rd] and jumps PC-relative; a misaligned target traps under R188. -/
  | jal (rd : Reg) (off : BitVec 20)
  /-- R215. Jumps to x[rs1] + imm with bit 0 cleared and links PC + 4 in x[rd]. -/
  | jalr (rd rs1 : Reg) (imm : BitVec 12)
  /-- R215. Branches PC-relative when x[rs1] equals x[rs2]. -/
  | beq (rs1 rs2 : Reg) (off : BitVec 12)
  /-- R215. Branches when x[rs1] differs from x[rs2]. -/
  | bne (rs1 rs2 : Reg) (off : BitVec 12)
  /-- R215. Branches when x[rs1] is less than x[rs2], signed. -/
  | blt (rs1 rs2 : Reg) (off : BitVec 12)
  /-- R215. Branches when x[rs1] is at least x[rs2], signed. -/
  | bge (rs1 rs2 : Reg) (off : BitVec 12)
  /-- R215. Branches when x[rs1] is less than x[rs2], unsigned. -/
  | bltu (rs1 rs2 : Reg) (off : BitVec 12)
  /-- R215. Branches when x[rs1] is at least x[rs2], unsigned. -/
  | bgeu (rs1 rs2 : Reg) (off : BitVec 12)
  /-- R215. Loads a sign-extended byte. -/
  | lb (rd rs1 : Reg) (imm : BitVec 12)
  /-- R215. Loads a sign-extended halfword. -/
  | lh (rd rs1 : Reg) (imm : BitVec 12)
  /-- R215. Loads a sign-extended word. -/
  | lw (rd rs1 : Reg) (imm : BitVec 12)
  /-- R215. Loads a dword. -/
  | ld (rd rs1 : Reg) (imm : BitVec 12)
  /-- R215. Loads a zero-extended byte. -/
  | lbu (rd rs1 : Reg) (imm : BitVec 12)
  /-- R215. Loads a zero-extended halfword. -/
  | lhu (rd rs1 : Reg) (imm : BitVec 12)
  /-- R215. Loads a zero-extended word. -/
  | lwu (rd rs1 : Reg) (imm : BitVec 12)
  /-- R215. Stores the low byte of x[rs2]; posted on T-cores. -/
  | sb (rs2 rs1 : Reg) (imm : BitVec 12)
  /-- R215. Stores the low halfword of x[rs2]. -/
  | sh (rs2 rs1 : Reg) (imm : BitVec 12)
  /-- R215. Stores the low word of x[rs2]. -/
  | sw (rs2 rs1 : Reg) (imm : BitVec 12)
  /-- R215. Stores x[rs2] as a dword. -/
  | sd (rs2 rs1 : Reg) (imm : BitVec 12)
  /-- R215. Adds a sign-extended 12-bit immediate. -/
  | addi (rd rs1 : Reg) (imm : BitVec 12)
  /-- R215. Sets rd to 1 when x[rs1] is less than the immediate, signed. -/
  | slti (rd rs1 : Reg) (imm : BitVec 12)
  /-- R215. Sets rd to 1 when x[rs1] is less than the immediate, unsigned. -/
  | sltiu (rd rs1 : Reg) (imm : BitVec 12)
  /-- R215. XORs with the immediate. -/
  | xori (rd rs1 : Reg) (imm : BitVec 12)
  /-- R215. ORs with the immediate. -/
  | ori (rd rs1 : Reg) (imm : BitVec 12)
  /-- R215. ANDs with the immediate. -/
  | andi (rd rs1 : Reg) (imm : BitVec 12)
  /-- R215. Shifts left logically by a 6-bit amount. -/
  | slli (rd rs1 : Reg) (sh : BitVec 6)
  /-- R215. Shifts right logically by a 6-bit amount. -/
  | srli (rd rs1 : Reg) (sh : BitVec 6)
  /-- R215. Shifts right arithmetically by a 6-bit amount. -/
  | srai (rd rs1 : Reg) (sh : BitVec 6)
  /-- R215. Adds two registers, 64-bit. -/
  | add (rd rs1 rs2 : Reg)
  /-- R215. Shifts left by x[rs2] mod 64. -/
  | sll (rd rs1 rs2 : Reg)
  /-- R215. Signed less-than compare. -/
  | slt (rd rs1 rs2 : Reg)
  /-- R215. Unsigned less-than compare. -/
  | sltu (rd rs1 rs2 : Reg)
  /-- R215. Bitwise XOR. -/
  | xor (rd rs1 rs2 : Reg)
  /-- R215. Logical right shift by x[rs2] mod 64. -/
  | srl (rd rs1 rs2 : Reg)
  /-- R215. Bitwise OR. -/
  | or (rd rs1 rs2 : Reg)
  /-- R215. Bitwise AND. -/
  | and (rd rs1 rs2 : Reg)
  /-- R215. Subtracts, 64-bit. -/
  | sub (rd rs1 rs2 : Reg)
  /-- R215. Arithmetic right shift by x[rs2] mod 64. -/
  | sra (rd rs1 rs2 : Reg)
  /-- R215. Low 64 bits of the product. -/
  | mul (rd rs1 rs2 : Reg)
  /-- R215. High 64 bits of the signed product. -/
  | mulh (rd rs1 rs2 : Reg)
  /-- R215. High 64 bits of the signed-by-unsigned product. -/
  | mulhsu (rd rs1 rs2 : Reg)
  /-- R215. High 64 bits of the unsigned product. -/
  | mulhu (rd rs1 rs2 : Reg)
  /-- R216. Signed division with the fixed results of R216 for zero and overflow. -/
  | div (rd rs1 rs2 : Reg)
  /-- R216. Unsigned division. -/
  | divu (rd rs1 rs2 : Reg)
  /-- R216. Signed remainder. -/
  | rem (rd rs1 rs2 : Reg)
  /-- R216. Unsigned remainder. -/
  | remu (rd rs1 rs2 : Reg)
  /-- R215. 32-bit add with an immediate, result sign-extended. -/
  | addiw (rd rs1 : Reg) (imm : BitVec 12)
  /-- R215. 32-bit left shift by a 5-bit immediate. -/
  | slliw (rd rs1 : Reg) (sh : BitVec 5)
  /-- R215. 32-bit logical right shift by an immediate. -/
  | srliw (rd rs1 : Reg) (sh : BitVec 5)
  /-- R215. 32-bit arithmetic right shift by an immediate. -/
  | sraiw (rd rs1 : Reg) (sh : BitVec 5)
  /-- R215. 32-bit add, sign-extended. -/
  | addw (rd rs1 rs2 : Reg)
  /-- R215. 32-bit left shift. -/
  | sllw (rd rs1 rs2 : Reg)
  /-- R215. 32-bit logical right shift. -/
  | srlw (rd rs1 rs2 : Reg)
  /-- R215. 32-bit subtract. -/
  | subw (rd rs1 rs2 : Reg)
  /-- R215. 32-bit arithmetic right shift. -/
  | sraw (rd rs1 rs2 : Reg)
  /-- R215. 32-bit multiply. -/
  | mulw (rd rs1 rs2 : Reg)
  /-- R216. 32-bit signed division. -/
  | divw (rd rs1 rs2 : Reg)
  /-- R216. 32-bit unsigned division. -/
  | divuw (rd rs1 rs2 : Reg)
  /-- R216. 32-bit signed remainder. -/
  | remw (rd rs1 rs2 : Reg)
  /-- R216. 32-bit unsigned remainder. -/
  | remuw (rd rs1 rs2 : Reg)
  /-- R217. x[rs1] AND NOT x[rs2]. -/
  | andn (rd rs1 rs2 : Reg)
  /-- R217. Rotates left by x[rs2] mod 64. -/
  | rol (rd rs1 rs2 : Reg)
  /-- R217. Counts leading zeros. -/
  | clz (rd rs1 : Reg)
  /-- R217. Counts trailing zeros. -/
  | ctz (rd rs1 : Reg)
  /-- R217. Counts 1 bits. -/
  | cpop (rd rs1 : Reg)
  /-- R217. Rotates right by x[rs2] mod 64. -/
  | ror (rd rs1 rs2 : Reg)
  /-- R217. Reverses the byte order. -/
  | rev8 (rd rs1 : Reg)
  /-- R217. Extracts bit x[rs2] mod 64 of x[rs1]. -/
  | bext (rd rs1 rs2 : Reg)
  /-- R217. Extracts bit n of x[rs1]. -/
  | bexti (rd rs1 : Reg) (sh : BitVec 6)
  /-- R217. Rotates right by an immediate. -/
  | rori (rd rs1 : Reg) (sh : BitVec 6)
  /-- R218. 64-bit word that sets x[rd] to a sign-extended 49-bit immediate. -/
  | liw (rd : Reg) (imm : BitVec 49)
  /-- R220. Loads 4 bytes into an FP register as an FP32 write. -/
  | flw (rd rs1 : Reg) (imm : BitVec 12)
  /-- R220. Loads 8 bytes into an FP register. -/
  | fld (rd rs1 : Reg) (imm : BitVec 12)
  /-- R220. Stores bits [31:0] of an FP register. -/
  | fsw (rs2 rs1 : Reg) (imm : BitVec 12)
  /-- R220. Stores an FP register as a dword. -/
  | fsd (rs2 rs1 : Reg) (imm : BitVec 12)
  /-- R221. Rounded FP addition with flag accrual. -/
  | fadd (fmt : FpFmt) (rm : Rm) (rd rs1 rs2 : Reg)
  /-- R221. Rounded FP subtraction. -/
  | fsub (fmt : FpFmt) (rm : Rm) (rd rs1 rs2 : Reg)
  /-- R221. Rounded FP multiplication. -/
  | fmul (fmt : FpFmt) (rm : Rm) (rd rs1 rs2 : Reg)
  /-- R221. Rounded FP division. -/
  | fdiv (fmt : FpFmt) (rm : Rm) (rd rs1 rs2 : Reg)
  /-- R221. Rounded FP square root. -/
  | fsqrt (fmt : FpFmt) (rm : Rm) (rd rs1 : Reg)
  /-- R221. a's magnitude with b's sign, no flags. -/
  | fsgnj (fmt : FpFmt) (rd rs1 rs2 : Reg)
  /-- R221. a's magnitude with the inverse of b's sign. -/
  | fsgnjN (fmt : FpFmt) (rd rs1 rs2 : Reg)
  /-- R221. a's magnitude with the XOR of both signs. -/
  | fsgnjX (fmt : FpFmt) (rd rs1 rs2 : Reg)
  /-- R221. minimumNumber of a and b. -/
  | fmin (fmt : FpFmt) (rd rs1 rs2 : Reg)
  /-- R221. maximumNumber of a and b. -/
  | fmax (fmt : FpFmt) (rd rs1 rs2 : Reg)
  /-- R221. Sets x[rd] to 1 when a <= b; NV for any NaN. -/
  | fcmpLe (fmt : FpFmt) (rd rs1 rs2 : Reg)
  /-- R221. Sets x[rd] to 1 when a < b; NV for any NaN. -/
  | fcmpLt (fmt : FpFmt) (rd rs1 rs2 : Reg)
  /-- R221. Sets x[rd] to 1 when a = b; NV only for a signalling NaN. -/
  | fcmpEq (fmt : FpFmt) (rd rs1 rs2 : Reg)
  /-- R222. Writes a one-hot class mask to x[rd]. -/
  | fclass (fmt : FpFmt) (rd rs1 : Reg)
  /-- R221. Converts between FP32 and FP64. -/
  | fcvtf (fmt : FpFmt) (rm : Rm) (rd rs1 : Reg)
  /-- R221. Converts an FP value to an integer of the given type. -/
  | fcvti (fmt : FpFmt) (ty : IntTy) (rm : Rm) (rd rs1 : Reg)
  /-- R221. Converts an integer of the given type to FP. -/
  | fcvtx (fmt : FpFmt) (ty : IntTy) (rm : Rm) (rd rs1 : Reg)
  /-- R181. Writes exp2cr(a), always RNE. -/
  | fexp2 (rd rs1 : Reg)
  /-- R221. Moves FP register bits to an integer register. -/
  | fmvx (fmt : FpFmt) (rd rs1 : Reg)
  /-- R221. Moves integer register bits to an FP register. -/
  | fmvf (fmt : FpFmt) (rd rs1 : Reg)
  /-- R221. Rounds to an integral value in its own format. -/
  | fround (fmt : FpFmt) (rm : Rm) (rd rs1 : Reg)
  /-- R223. FP32 a × b + c with one rounding. -/
  | fmaddF32 (rm : Rm) (rd rs1 rs2 rs3 : Reg)
  /-- R223. FP64 a × b + c with one rounding. -/
  | fmaddF64 (rm : Rm) (rd rs1 rs2 rs3 : Reg)
  /-- R223. FP32 c − a × b with one rounding. -/
  | fnmaddF32 (rm : Rm) (rd rs1 rs2 rs3 : Reg)
  /-- R223. FP64 c − a × b with one rounding. -/
  | fnmaddF64 (rm : Rm) (rd rs1 rs2 rs3 : Reg)
  /-- R226. Load-acquire at the given scope. -/
  | lda (dw : Bool) (scope : Scope) (rd rs1 : Reg)
  /-- R226. Store-release at the given scope; at die scope or wider triggers early publication. -/
  | stl (dw : Bool) (scope : Scope) (rs2 rs1 : Reg)
  /-- R226. Atomic swap at the line's home. -/
  | amoswap (dw : Bool) (ord : MemOrd) (scope : Scope) (rd rs2 rs1 : Reg)
  /-- R226. Atomic add. -/
  | amoadd (dw : Bool) (ord : MemOrd) (scope : Scope) (rd rs2 rs1 : Reg)
  /-- R226. Atomic AND. -/
  | amoand (dw : Bool) (ord : MemOrd) (scope : Scope) (rd rs2 rs1 : Reg)
  /-- R226. Atomic OR. -/
  | amoor (dw : Bool) (ord : MemOrd) (scope : Scope) (rd rs2 rs1 : Reg)
  /-- R226. Atomic XOR. -/
  | amoxor (dw : Bool) (ord : MemOrd) (scope : Scope) (rd rs2 rs1 : Reg)
  /-- R226. Atomic signed minimum. -/
  | amomin (dw : Bool) (ord : MemOrd) (scope : Scope) (rd rs2 rs1 : Reg)
  /-- R226. Atomic signed maximum. -/
  | amomax (dw : Bool) (ord : MemOrd) (scope : Scope) (rd rs2 rs1 : Reg)
  /-- R226. Atomic unsigned minimum. -/
  | amominu (dw : Bool) (ord : MemOrd) (scope : Scope) (rd rs2 rs1 : Reg)
  /-- R226. Atomic unsigned maximum. -/
  | amomaxu (dw : Bool) (ord : MemOrd) (scope : Scope) (rd rs2 rs1 : Reg)
  /-- R226. Atomic compare-and-swap, bitwise comparison; a failed one is a read. -/
  | amocas (dw : Bool) (ord : MemOrd) (scope : Scope) (rd rs2 rs1 : Reg)
  /-- R226. Atomic FP add rounded RNE with no flags. -/
  | amofadd (dw : Bool) (ord : MemOrd) (scope : Scope) (rd rs2 rs1 : Reg)
  /-- R227. Release, acquire or both at the given scope. -/
  | fence (ord : FenceOrd) (scope : Scope)
  /-- R229. Arrives at barrier b after earlier stores are performed and returns the episode token. -/
  | barrive (scope : Scope) (rd : Reg) (b : BitVec 6) (rs1 : Reg)
  /-- R230. Waits until the named episode of barrier b completes; the return is a departure. -/
  | barwait (scope : Scope) (b : BitVec 6) (rs1 : Reg)
  /-- R231. Waits until every earlier store is accepted by the die's L2 or has faulted. -/
  | sdrain
  /-- R232. Waits until the counter's VAL reaches x[rs1], returns VAL, and acquires. -/
  | tlwait (rd : Reg) (tl : Tl) (rs1 : Reg)
  /-- R232. Returns the counter's VAL without ordering. -/
  | tlread (rd : Reg) (tl : Tl)
  /-- R232. Returns the counter's STAMP. -/
  | tlreadT (rd : Reg) (tl : Tl)
  /-- R233. Sends a payload to a thread or spawns a thread and writes a status; a release at package scope. -/
  | msend (rd rs1 rs2 : Reg)
  /-- R234. Pops the oldest queued message or times out. -/
  | mwaitf (rd rt rs1 : Reg)
  /-- R236. Makes a delegated capability entry with reduced rights. -/
  | capdeleg (rd : Reg) (k : BitVec 4) (rs1 : Reg)
  /-- R236. Revokes a capability entry and its delegations, completing when in force package-wide. -/
  | caprevoke (rs1 : Reg)
  /-- R236. Reports whether kN is valid and holds the requested rights. -/
  | capcheck (rd : Reg) (k : BitVec 4) (rs1 : Reg)
  /-- R237. Takes cause 0x20 to the supervisor. -/
  | syscall
  /-- R238. Returns from a handler, clearing HND and PRIV, and restarts held commands. -/
  | tret
  /-- R237. Takes cause 0x06. -/
  | brk
  /-- R237. Waits for a queued message or a cycle limit. -/
  | wfe (rd rs1 : Reg)
  /-- R237. Takes a pending pre-emption or budget request here. -/
  | yield
  /-- R239. Drains stores as SDRAIN does and ends the thread. -/
  | texit
  /-- R240. Migrates the thread to the named class. -/
  | migrate (rs1 : Reg)
  /-- R241. Reads a system register. -/
  | srrd (rd : Reg) (r : SReg)
  /-- R241. Writes a system register under its map, returning the old value. -/
  | srwr (rd : Reg) (r : SReg) (rs1 : Reg)
  /-- R241. Sets bits of a system register. -/
  | srset (rd : Reg) (r : SReg) (rs1 : Reg)
  /-- R241. Clears bits of a system register. -/
  | srclr (rd : Reg) (r : SReg) (rs1 : Reg)
  /-- R40. Removes translation entries of a page, context or partition within the scope. -/
  | tlbinv (scope : Scope) (rs1 rs2 : Reg)
  /-- R243. Drops the line from every L1I that the scope covers. -/
  | lineopIcinv (scope : Scope) (rs1 : Reg)
  /-- R243. Writes 128 zero bytes as a store, clearing poison when committed. -/
  | lineopZero (rs1 : Reg)
  /-- R243. Writes the line's committed dirty copy back to HBM4E. -/
  | lineopClean (rs1 : Reg)
  /-- R197. Prefix that overrides rounding, saturation and flags of its successor, executing with it as one instruction. -/
  | pfx (nf sat : Bool) (rm : Rm)
  /-- R245. Packed wrapping add. -/
  | padd (lanes : Lanes) (rd rs1 rs2 : Reg)
  /-- R245. Packed wrapping subtract. -/
  | psub (lanes : Lanes) (rd rs1 rs2 : Reg)
  /-- R245. Packed signed saturating add. -/
  | padds (lanes : Lanes) (rd rs1 rs2 : Reg)
  /-- R245. Packed signed saturating subtract. -/
  | psubs (lanes : Lanes) (rd rs1 rs2 : Reg)
  /-- R245. Packed unsigned saturating add. -/
  | paddus (lanes : Lanes) (rd rs1 rs2 : Reg)
  /-- R245. Packed unsigned saturating subtract. -/
  | psubus (lanes : Lanes) (rd rs1 rs2 : Reg)
  /-- R245. Packed wrapping multiply. -/
  | pmul (lanes : Lanes) (rd rs1 rs2 : Reg)
  /-- R246. Packed rounded Q-format multiply. -/
  | pmulq (lanes : Lanes) (rd rs1 rs2 : Reg)
  /-- R245. Packed signed minimum. -/
  | pmin (lanes : Lanes) (rd rs1 rs2 : Reg)
  /-- R245. Packed signed maximum. -/
  | pmax (lanes : Lanes) (rd rs1 rs2 : Reg)
  /-- R247. Packed left shift. -/
  | psll (lanes : Lanes) (rd rs1 rs2 : Reg)
  /-- R247. Packed logical right shift. -/
  | psrl (lanes : Lanes) (rd rs1 rs2 : Reg)
  /-- R247. Packed arithmetic right shift. -/
  | psra (lanes : Lanes) (rd rs1 rs2 : Reg)
  /-- R247. Packed signed saturating left shift. -/
  | pssl (lanes : Lanes) (rd rs1 rs2 : Reg)
  /-- R246. Packed rounded average. -/
  | pavg (lanes : Lanes) (rd rs1 rs2 : Reg)
  /-- R248. Packed format conversion at scale 127. -/
  | pcvt (src dst : Fmt) (rd rs1 : Reg)
  /-- R58. Allocates and zeroes a tile under the handle and returns a status. -/
  | talloc (rd : Reg) (t : Handle) (rs1 : Reg)
  /-- R60. Frees a tile once PEND is 0 and the lock state allows. -/
  | tfree (t : Handle)
  /-- R62. Requests a read lock on a tile. -/
  | tlockR (t : Handle)
  /-- R62. Requests the write lock on a tile. -/
  | tlockW (t : Handle)
  /-- R62. Releases a lock the thread holds. -/
  | tunlock (t : Handle)
  /-- R254. Zeroes every byte of a tile. -/
  | tzero (t : Handle)
  /-- R255. Reads one tile element into x[rd]. -/
  | trdx (rd : Reg) (t : Handle) (rs1 : Reg)
  /-- R255. Writes one tile element from a register. -/
  | twrx (t : Handle) (rs1 rv : Reg)
  /-- R256. Returns dword 0 of the tile-table entry. -/
  | tqueryLo (rd : Reg) (t : Handle)
  /-- R256. Returns dword 1 of the tile-table entry. -/
  | tqueryHi (rd : Reg) (t : Handle)
  /-- R257. Copy command from memory into a tile on a timeline. -/
  | tload (rd : Reg) (ta : Handle) (rs1 rs2 : Reg) (tl : Tl)
  /-- R257. Copy command from a tile to memory. -/
  | tstore (rd : Reg) (ta : Handle) (rs1 rs2 : Reg) (tl : Tl)
  /-- R257. Copy command from tile to tile. -/
  | tcopyT (rd : Reg) (tb ta : Handle) (rs2 : Reg) (tl : Tl)
  /-- R257. Copy command from memory to memory. -/
  | tcopyM (rd rdst rs1 rs2 : Reg) (tl : Tl)
  /-- R264. Matrix-array multiply-accumulate command into a bank, checked and locked at acceptance. -/
  | tmma (bank sh za : Bool) (rd : Reg) (ta tb : Handle) (rs1 rs2 : Reg) (tl : Tl)
  /-- R266. Converts an accumulator bank into a tile. -/
  | taccrd (bank : Bool) (rm : Rm) (sat clr : Bool) (rd : Reg) (tb : Handle) (tl : Tl)
  /-- R267. Deprecated three-pass FP32 multiply in microcode. -/
  | tmma32 (bank : Bool) (rd : Reg) (ta tb : Handle) (rs1 : Reg) (tl : Tl)
  /-- R273. Makes the lease decision and sets VL. -/
  | setvl (rd rs1 : Reg)
  /-- R273. SETVL with an immediate AVL. -/
  | setvli (rd : Reg) (imm : BitVec 10)
  /-- R294. Obtains a shape, pins the grant and sets VL. -/
  | setshape (rd rs1 rs2 : Reg)
  /-- R304. Writes a group register with SEQ 0. -/
  | grpset (g : BitVec 3) (rs1 rs2 : Reg)
  /-- R277. Unit-stride vector load. -/
  | vle (m : Bool) (w : Ew) (vd rs1 : Reg)
  /-- R277. Unit-stride vector store. -/
  | vse (m : Bool) (w : Ew) (vs3 rs1 : Reg)
  /-- R277. Strided vector load, allocating gathered lines where R68 applies. -/
  | vlse (m : Bool) (w : Ew) (vd rs1 rs2 : Reg)
  /-- R277. Strided vector store. -/
  | vsse (m : Bool) (w : Ew) (vs3 rs1 rs2 : Reg)
  /-- R277. Indexed vector load. -/
  | vlxe (m : Bool) (w : Ew) (vd rs1 vs2 : Reg)
  /-- R277. Indexed vector store. -/
  | vsxe (m : Bool) (w : Ew) (vs3 rs1 vs2 : Reg)
  /-- R279. Fault-only-first load that trims VL at a later faulting element. -/
  | vleff (m : Bool) (w : Ew) (vd rs1 : Reg)
  /-- R280. Vector integer add. -/
  | vadd (m : Bool) (vd vs2 : Reg) (src : VSrc)
  /-- R280. Vector integer subtract. -/
  | vsub (m : Bool) (vd vs2 : Reg) (src : VSrc)
  /-- R280. Vector reverse subtract. -/
  | vrsub (m : Bool) (vd vs2 : Reg) (src : VSrc)
  /-- R280. Vector signed saturating add. -/
  | vsadd (m : Bool) (vd vs2 : Reg) (src : VSrc)
  /-- R280. Vector signed saturating subtract. -/
  | vssub (m : Bool) (vd vs2 : Reg) (src : VSrc)
  /-- R280. Vector unsigned saturating add. -/
  | vsaddu (m : Bool) (vd vs2 : Reg) (src : VSrc)
  /-- R280. Vector unsigned saturating subtract. -/
  | vssubu (m : Bool) (vd vs2 : Reg) (src : VSrc)
  /-- R280. Vector multiply, low bits. -/
  | vmul (m : Bool) (vd vs2 : Reg) (src : VSrc)
  /-- R280. Vector signed multiply, high bits. -/
  | vmulh (m : Bool) (vd vs2 : Reg) (src : VSrc)
  /-- R280. Vector unsigned multiply, high bits. -/
  | vmulhu (m : Bool) (vd vs2 : Reg) (src : VSrc)
  /-- R281. Vector signed division. -/
  | vdiv (m : Bool) (vd vs2 : Reg) (src : VSrc)
  /-- R281. Vector unsigned division. -/
  | vdivu (m : Bool) (vd vs2 : Reg) (src : VSrc)
  /-- R281. Vector signed remainder. -/
  | vrem (m : Bool) (vd vs2 : Reg) (src : VSrc)
  /-- R281. Vector unsigned remainder. -/
  | vremu (m : Bool) (vd vs2 : Reg) (src : VSrc)
  /-- R280. Vector signed minimum. -/
  | vmin (m : Bool) (vd vs2 : Reg) (src : VSrc)
  /-- R280. Vector signed maximum. -/
  | vmax (m : Bool) (vd vs2 : Reg) (src : VSrc)
  /-- R280. Vector unsigned minimum. -/
  | vminu (m : Bool) (vd vs2 : Reg) (src : VSrc)
  /-- R280. Vector unsigned maximum. -/
  | vmaxu (m : Bool) (vd vs2 : Reg) (src : VSrc)
  /-- R280. Vector bitwise AND. -/
  | vand (m : Bool) (vd vs2 : Reg) (src : VSrc)
  /-- R280. Vector bitwise OR. -/
  | vor (m : Bool) (vd vs2 : Reg) (src : VSrc)
  /-- R280. Vector bitwise XOR. -/
  | vxor (m : Bool) (vd vs2 : Reg) (src : VSrc)
  /-- R281. Vector left shift. -/
  | vsll (m : Bool) (vd vs2 : Reg) (src : VSrc)
  /-- R281. Vector logical right shift. -/
  | vsrl (m : Bool) (vd vs2 : Reg) (src : VSrc)
  /-- R281. Vector arithmetic right shift. -/
  | vsra (m : Bool) (vd vs2 : Reg) (src : VSrc)
  /-- R281. Vector signed saturating left shift. -/
  | vssl (m : Bool) (vd vs2 : Reg) (src : VSrc)
  /-- R282. Vector compare equal. -/
  | vmseq (m : Bool) (vd vs2 : Reg) (src : VSrc)
  /-- R282. Vector compare not equal. -/
  | vmsne (m : Bool) (vd vs2 : Reg) (src : VSrc)
  /-- R282. Vector signed less-than. -/
  | vmslt (m : Bool) (vd vs2 : Reg) (src : VSrc)
  /-- R282. Vector unsigned less-than. -/
  | vmsltu (m : Bool) (vd vs2 : Reg) (src : VSrc)
  /-- R282. Vector signed less-or-equal. -/
  | vmsle (m : Bool) (vd vs2 : Reg) (src : VSrc)
  /-- R282. Selects src1 or vs2 per element by v0. -/
  | vmerge (vd vs2 : Reg) (src : VSrc)
  /-- R282. Copies or splats into active elements. -/
  | vmv (m : Bool) (vd : Reg) (src : VSrc)
  /-- R284. Vector FP add. -/
  | vfadd (m : Bool) (vd vs2 : Reg) (src : FSrc)
  /-- R284. Vector FP subtract. -/
  | vfsub (m : Bool) (vd vs2 : Reg) (src : FSrc)
  /-- R284. Vector FP multiply. -/
  | vfmul (m : Bool) (vd vs2 : Reg) (src : FSrc)
  /-- R284. Vector FP divide. -/
  | vfdiv (m : Bool) (vd vs2 : Reg) (src : FSrc)
  /-- R284. Vector FP square root. -/
  | vfsqrt (m : Bool) (vd vs2 : Reg)
  /-- R284. Vector minimumNumber. -/
  | vfmin (m : Bool) (vd vs2 : Reg) (src : FSrc)
  /-- R284. Vector maximumNumber. -/
  | vfmax (m : Bool) (vd vs2 : Reg) (src : FSrc)
  /-- R284. Vector fused a × b + c. -/
  | vfma (m : Bool) (vd vs2 : Reg) (src : FSrc)
  /-- R284. Vector fused c − a × b. -/
  | vfnma (m : Bool) (vd vs2 : Reg) (src : FSrc)
  /-- R284. Vector exp2cr at SEW 32. -/
  | vfexp2 (m : Bool) (vd vs2 : Reg)
  /-- R284. Vector FP compare equal. -/
  | vmfeq (m : Bool) (vd vs2 : Reg) (src : FSrc)
  /-- R284. Vector FP less-than. -/
  | vmflt (m : Bool) (vd vs2 : Reg) (src : FSrc)
  /-- R284. Vector FP less-or-equal. -/
  | vmfle (m : Bool) (vd vs2 : Reg) (src : FSrc)
  /-- R285. Converts each native element into format F. -/
  | vfcvtd (m : Bool) (fmt : Fmt) (vd vs2 : Reg)
  /-- R285. Converts format-F bits of each element to the native format. -/
  | vfcvts (m : Bool) (fmt : Fmt) (vd vs2 : Reg)
  /-- R287. Integer sum reduction in the element tree. -/
  | vredsum (m : Bool) (vd vs2 vs1 : Reg)
  /-- R287. Signed maximum reduction. -/
  | vredmax (m : Bool) (vd vs2 vs1 : Reg)
  /-- R287. Signed minimum reduction. -/
  | vredmin (m : Bool) (vd vs2 vs1 : Reg)
  /-- R287. FP sum reduction in the element tree. -/
  | vfredsum (m : Bool) (vd vs2 vs1 : Reg)
  /-- R287. FP maximumNumber reduction. -/
  | vfredmax (m : Bool) (vd vs2 vs1 : Reg)
  /-- R287. Inclusive integer prefix sum. -/
  | vscan (m : Bool) (vd vs2 vs1 : Reg)
  /-- R288. Slides elements up by OFF. -/
  | vslideup (m : Bool) (vd vs2 rs1 : Reg)
  /-- R288. Slides elements down by OFF. -/
  | vslidedown (m : Bool) (vd vs2 rs1 : Reg)
  /-- R288. Gathers elements by index. -/
  | vrgather (m : Bool) (vd vs2 vs1 : Reg)
  /-- R288. Packs active elements to the front. -/
  | vcompress (vd vs2 : Reg)
  /-- R288. Extracts one element into x[rd]. -/
  | vextx (rd vs2 rs1 : Reg)
  /-- R288. Inserts x[rs1] into element 0. -/
  | vinsx (vd rs1 : Reg)
  /-- R289. Mask AND. -/
  | vmand (m : Bool) (vd vs2 vs1 : Reg)
  /-- R289. Mask AND NOT. -/
  | vmandn (m : Bool) (vd vs2 vs1 : Reg)
  /-- R289. Mask OR. -/
  | vmor (m : Bool) (vd vs2 vs1 : Reg)
  /-- R289. Mask XOR. -/
  | vmxor (m : Bool) (vd vs2 vs1 : Reg)
  /-- R289. Counts set mask elements. -/
  | vmpopc (m : Bool) (rd vs2 : Reg)
  /-- R289. Finds the lowest set mask element. -/
  | vmfirst (m : Bool) (rd vs2 : Reg)
  /-- R291. Deprecated microcode 4-way INT8 dot product. -/
  | vdot4 (m : Bool) (vd vs2 vs1 : Reg)
  /-- R292. Deprecated microcode load of even and odd words into a register pair. -/
  | ldpairw (vd rs1 : Reg)
  /-- R297. Enters matrix mode when a shape is held. -/
  | mmodeOn
  /-- R297. Leaves matrix mode and clears the pin. -/
  | mmodeOff
  /-- R300. BF16 outer-product step into the accumulator. -/
  | vopaBf16 (m : Bool) (va vb : Reg)
  /-- R300. FP16 outer-product step. -/
  | vopaF16 (m : Bool) (va vb : Reg)
  /-- R300. E4M3 outer-product step. -/
  | vopaE4m3 (m : Bool) (va vb : Reg)
  /-- R300. E5M2 outer-product step. -/
  | vopaE5m2 (m : Bool) (va vb : Reg)
  /-- R301. Zeroes v16–v31 in matrix mode. -/
  | vaccz
  /-- R302. Strip softmax step updating the running max and sum in f registers. -/
  | vsmx (m : Bool) (vd vs2 fa : Reg)
  /-- R308. Collective sum over a group. -/
  | vcollSum (f : Bool) (vd vs : Reg) (g : BitVec 3)
  /-- R308. Collective maximum. -/
  | vcollMax (f : Bool) (vd vs : Reg) (g : BitVec 3)
  /-- R308. Collective minimum. -/
  | vcollMin (f : Bool) (vd vs : Reg) (g : BitVec 3)
  /-- R308. Collective softmax-merge of records. -/
  | vcollSmerge (vd vs : Reg) (g : BitVec 3) (xd : Reg)
  /-- R308. Collective concatenation by rank. -/
  | vcollGather (vd vs : Reg) (g : BitVec 3)
  /-- R308. Collective split of the root's vector. -/
  | vcollScatter (vd vs : Reg) (g : BitVec 3) (xr : Reg)
  /-- R308. Collective broadcast of the root's vector. -/
  | vcollBcast (vd vs : Reg) (g : BitVec 3) (xr : Reg)
  /-- R37. A queued last-level TLB miss starts its walk when a walker frees. -/
  | missQueueServe (die : Nat)
  /-- R21. Supervisor write of a translation-context record, storing EN 0 on a JOBID clash. -/
  | contextRecordWrite (ctx : BitVec 12) (dword : BitVec 2) (v : Word)
  /-- R42. TLBINV completes once removed entries are dropped and accesses through them performed. -/
  | tlbinvComplete (n : Nat)
  /-- R42. A package not acknowledging TLBINV .pod in 200 µs yields cause 0x24. -/
  | tlbinvPodTimeout (n pkg : Nat)
  /-- R132. An incoming pod-window request is translated and performed at the target. -/
  | podWindowRequest (req : PodReq)
  /-- R133. A pod-window response or acknowledgement returns to the issuer. -/
  | podWindowResponse (id : Nat) (ans : PodAns)
  /-- R133. A request without response in 200 µs faults as class 0x6. -/
  | podWindowTimeout (id : Nat)
  /-- R34. Security root loads or reloads a key slot after writing back lines tagged with it. -/
  | keySlotLoad (slot part : Nat)
  /-- R34. Security root unloads a key slot after flushing its lines. -/
  | keySlotUnload (slot : Nat)
  /-- R388. A secured SPDM request from the host to the security root. -/
  | spdmRequest (secured : Bool) (op : SpdmOp)
  /-- R63. A queued tile lock request is granted in arrival order. -/
  | tileLockGrant (key : TileKey)
  /-- R147. A parked thread issues again when its condition clears. -/
  | parkResume (t : Tid)
  /-- R74. An L1D line is dropped 65,536 cycles after its fill. -/
  | l1dLineExpiry (core : CoreId) (line : Nat)
  /-- R73. The write-through queue delivers a store to the L2. -/
  | writeThroughDelivery (core : CoreId)
  /-- R77. A line request is served at its home directory in arrival order. -/
  | homeRequest (line : Nat)
  /-- R144. A task retires once its threads ended, commands completed and publication done. -/
  | taskRetirement (stand : Nat)
  /-- R87. The M-die scrubber reads every HBM line every 24 hours. -/
  | patrolScrub (line : Nat)
  /-- R90. The scrubber re-reads a latent poisoned code line within 65,536 cycles. -/
  | latentCodeRescrub (line : Nat)
  /-- R91. A RASBASE write changing PPN or SIZE resets RIDX and WIDX. -/
  | rasbaseWrite (v : Word)
  /-- R91. Supervisor writes RIDX modulo the ring size or clears LOST. -/
  | rasidxWrite (v : Word)
  /-- R119. The DAU performs a run-ahead vector load or collective step. -/
  | dauLoad (t : Tid)
  /-- R127. A copy engine translates and performs one row of a command. -/
  | copyRow (cmd : Nat)
  /-- R65. The matrix array reads a TMMA operand and releases its read lock. -/
  | arrayOperandRead (cmd k : Nat)
  /-- R123. An engine command completes, stamped, possibly advancing VAL. -/
  | engineCommandComplete (cmd : Nat)
  /-- R130. A held copy fault is delivered to its issuing thread at a boundary. -/
  | heldFaultDelivery (t : Tid)
  /-- R381. Loss or gain of a 1588 source moves mastership or enters holdover. -/
  | podTimeSourceChange (lock hold : Bool) (master : Nat) (err : BitVec 16)
  /-- R155. The streamed thread arrives, restores class state, acquires and resumes. -/
  | migrationArrival (t : Tid)
  /-- R161. A queued thread is streamed to a context that freed. -/
  | streamerQueueServe (t : Tid)
  /-- R152. At arrival or resumption the thread is re-granted its cluster count when free. -/
  | leaseRegrant (t : Tid)
  /-- R330. A parked SETVL or SETSHAPE is granted from reserved clusters. -/
  | leaseParkedGrant (die quad : Nat)
  /-- R331. A 65,536-cycle window ends and the mix counts are sampled. -/
  | mixWindowEnd (t : Tid)
  /-- R331. The scheduler migrates a thread at its next boundary on its measured mix. -/
  | mixMigration (t : Tid)
  /-- R230. A package or pod episode is abandoned after 200 µs and waiters take 0x24. -/
  | barrierEpisodeAbandon (key : BarKey)
  /-- R233. A message is queued at its receiver. -/
  | messageArrival (t : Tid)
  /-- R233. A SPAWN message starts a new thread in the stand. -/
  | spawnStart (t : Tid)
  /-- R234. An MWAITF or WFE cycle limit expires. -/
  | waitLimitExpiry (t : Tid)
  /-- R379. A router or switch combines collective contributions in the canonical tree. -/
  | collectiveCombine (key : CollKey) (reached : List Contribution)
  /-- R307. A held buddy copy is delivered once the buddy's package is known. -/
  | buddyCopyDelivery (copy : CopySent) (rank : Nat)
  /-- R307. The collective result is written to vd from the DAU buffer. -/
  | collectiveResult (t : Tid)
  /-- R309. The instance timer expires, substituting buddy copies or failing. -/
  | collectiveTimerExpiry (key : CollKey)
  /-- R309. A member with no result in T + 100 µs takes 0x24 reason 0x02. -/
  | collectiveResultTimeout (t : Tid)
  /-- R311. A QPTR TAIL write submits records or is ignored with ERR. -/
  | tailWrite (q : Nat) (v : Word)
  /-- R311. Glade reads and expands the launch record at HEAD. -/
  | launchRecordRead (q : Nat)
  /-- R315. Glade chooses the next task by priority and deficit round-robin and hands its packet over. -/
  | dispatch (half : Nat)
  /-- R316. A starving queue rises one level after 2^20 cycles. -/
  | priorityLift (q : Nat)
  /-- R324. A packet becomes eligible when TIME reaches NOTBEFORE. -/
  | notbeforeReached (q : Nat)
  /-- R322. A die's dispatcher places a packet on a quad, allocating all contexts or refusing. -/
  | dispatcherPlace (die : Nat)
  /-- R323. A freed context notifies the dispatcher, streamer and refused SPAWN senders. -/
  | contextFreeNotice (core : CoreId)
  /-- R319. Glade copies C bytes for a ready copy node. -/
  | copyNode (q : Nat)
  /-- R319. Glade store-releases the value of a ready signal node. -/
  | signalNode (q : Nat)
  /-- R313. A job ends and its completion record is written. -/
  | jobEnd (job : Nat)
  /-- R325. A stand's budget count reaches BUDGET and it is pre-empted. -/
  | budgetExpiry (stand : Nat)
  /-- R326. The dispatcher preloads code and a tile for a packet in a core's preload slot. -/
  | preload (core : CoreId)
  /-- R328. An OWNER write starts a quad's pass to a new partition. -/
  | qownWrite (die quad : Nat) (v : Word)
  /-- R328. A core passes to the new owner once no old stand holds a place on it. -/
  | coreOwnerPass (core : CoreId)
  /-- R332. Glade returns a 0x1C stand's packets and places them only on capable dies. -/
  | missingFeatureReplace (stand : Nat)
  /-- R340. A held delivery or report is written once RIDX moves. -/
  | supervisorRingResume (part : Nat)
  /-- R341. Cause 0x23 is taken by thread SVIDX.THR. -/
  | supervisorInterrupt (part : Nat)
  /-- R354. SVCMD OP 1 ends one thread. -/
  | threadReset (part : Nat)
  /-- R354. SVCMD OP 2 ends a stand and discards its state. -/
  | standReset (part : Nat)
  /-- R342. SVCMD OP 3 reruns a stopped or Saved stand. -/
  | rerunStand (part : Nat)
  /-- R351. SVCMD OP 4 resumes a Saved or escalated stand in its places. -/
  | resumeStand (part : Nat)
  /-- R350. SVCMD OP 5 pre-empts and saves a stand. -/
  | preemptStand (part : Nat)
  /-- R352. SVCMD OP 6 stops a job's dispatch and parks its senders. -/
  | gangSwitch (part : Nat)
  /-- R352. When in-flight MSENDs reach zero every thread of the job is pre-empted. -/
  | gangPreempt (job : Nat)
  /-- R352. SVCMD OP 7 resumes every stand of a job together. -/
  | gangResume (part : Nat)
  /-- R354. SVCMD OP 8 ends a queue's stands and resets it. -/
  | queueReset (part : Nat)
  /-- R354. SVCMD OP 9 or the host ends every stand of a partition. -/
  | partitionReset (part : Nat) (byHost : Bool)
  /-- R354. Host or security root resets the whole package and restarts Coppice. -/
  | packageReset
  /-- R343. A posted T-core store's translation returns, making an entry if it faulted. -/
  | postedStoreResolve (t : Tid)
  /-- R344. A faulted posted store is taken as 0x0D at its due point. -/
  | impreciseStoreFault (t : Tid)
  /-- R346. A core hardware error removes the core and acts on its tasks. -/
  | coreHardwareError (core : CoreId)
  /-- R333. A core unanswered for 2^20 cycles is treated as failed. -/
  | watchdogExpiry (core : CoreId)
  /-- R361. A stop point fires as cause 0x07 and leaves the thread Stopped. -/
  | stopPointFire (t : Tid)
  /-- R359. Debug command opening a thread's session. -/
  | attach (part : Nat)
  /-- R359. Debug command ending a session. -/
  | detach (part : Nat)
  /-- R360. Debug command stopping the thread at its next boundary. -/
  | stop (part : Nat)
  /-- R359. Debug command continuing a Stopped thread. -/
  | cont (part : Nat)
  /-- R360. Debug command reading a register of a Stopped or Saved thread. -/
  | rdreg (part : Nat)
  /-- R360. Debug command writing a register of a Stopped or Saved thread. -/
  | wrreg (part : Nat)
  /-- R359. Debug command loading memory as the thread would. -/
  | rdmem (part : Nat)
  /-- R359. Debug command storing memory as the thread would. -/
  | wrmem (part : Nat)
  /-- R361. Debug command setting a stop point. -/
  | setsp (part : Nat)
  /-- R359. Debug command clearing a stop point. -/
  | clrsp (part : Nat)
  /-- R364. Debug command starting tracing into a buffer. -/
  | trace (part : Nat)
  /-- R367. Debug command starting record mode. -/
  | record (part : Nat)
  /-- R369. Debug command starting replay mode. -/
  | replay (part : Nat)
  /-- R364. A sample period elapses and a sample trace record is written. -/
  | samplePeriodExpiry (t : Tid)
  /-- R376. A host CXL.mem access is performed at the line's home under the partition key. -/
  | hostMemAccess (pa n part : Nat) (write : Option Nat)
  /-- R378. A link replays a flit whose CRC failed. -/
  | flitReplay (port : Nat)
  /-- R384. A failing port, link or lane cluster leaves its pool and is logged. -/
  | capacityFailure (unit : Unit_)
  /-- R383. Coppice runs a boot step, retrying and falling back, and logs it. -/
  | bootStep (n : Nat) (unit : Unit_) (out : BootOut) (code : Nat)
  /-- R385. DIEHLTH is updated once per hour of pod time. -/
  | healthUpdate (die : Nat) (v : Word)
  /-- R386. At the power cap or 105 °C a die stops its arithmetic clock. -/
  | thermalThrottle (die cycles : Nat)
  /-- R386. At 115 °C the security root resets the package. -/
  | overtempReset
  /-- R7. Supervisor write of a region-10 register with no row of its own. -/
  | registerWrite (r : Reg10) (v : Word)
  /-- R375. A C-die's CXL host link goes down or comes back, so that every access in a window on that link becomes class 0xD or is served again. -/
  | hostLinkDown (link : Nat) (down : Bool)
  deriving DecidableEq, Repr

end Sys2Proof
end

