-- ==== Sys2Proof/WellFormed.lean ====
section
/-! DEFINITION. Which terms of `Instr` some word encodes: the limits on operands that their fields alone do not give. Every word that breaks one of
them is an illegal instruction at decoding (R189 step 4). -/

namespace Sys2Proof

/-- The barrier numbers allowed at a scope: 0 to 63 at die and package scope, 0 to 15 at the others (R228). -/
def barrierNumberOk (scope : Scope) (b : BitVec 6) : Bool :=
  match scope with
  | .die | .pkg => true
  | _ => decide (b.toNat < 16)

/-- A word with M = 1 may not have v0 as its vector destination (R272). -/
def maskedDestOk (m : Bool) (vd : Reg) : Bool := !m || decide (vd ≠ 0)

/-- The formats of pcvt: every code but FP64 and MXFP4 (R248). -/
def pcvtFmtOk (f : Fmt) : Bool := decide (f ≠ .fp64) && decide (f ≠ .mxfp4)

/-- A vector destination that no source field may name (R276, R288). -/
def apart (vd vs : Reg) : Bool := decide (vd ≠ vs)

/-- Whether an instruction's operands keep the limits that their descriptions set. An event has no word and no such limit. -/
def Instr.wf : Instr → Bool
  | .barrive scope _ b _ => barrierNumberOk scope b
  | .barwait scope b _ => barrierNumberOk scope b
  | .mwaitf rd rt _ => decide (rd = 0) || decide (rt ≠ rd)
  | .pcvt src dst _ _ => pcvtFmtOk src && pcvtFmtOk dst
  | .tmma _ shadow _ _ _ _ _ rs2 _ => !shadow || decide (rs2 = 0)
  | .vle m _ vd _ | .vleff m _ vd _ => maskedDestOk m vd
  | .vlse m _ vd _ _ => maskedDestOk m vd
  | .vlxe m _ vd _ vs2 => maskedDestOk m vd && apart vd vs2
  | .vadd m vd _ _ | .vsub m vd _ _ | .vrsub m vd _ _ | .vsadd m vd _ _ | .vssub m vd _ _ | .vsaddu m vd _ _ | .vssubu m vd _ _
  | .vmul m vd _ _ | .vmulh m vd _ _ | .vmulhu m vd _ _ | .vdiv m vd _ _ | .vdivu m vd _ _ | .vrem m vd _ _ | .vremu m vd _ _
  | .vmin m vd _ _ | .vmax m vd _ _ | .vminu m vd _ _ | .vmaxu m vd _ _ | .vand m vd _ _ | .vor m vd _ _ | .vxor m vd _ _
  | .vsll m vd _ _ | .vsrl m vd _ _ | .vsra m vd _ _ | .vssl m vd _ _ | .vmseq m vd _ _ | .vmsne m vd _ _ | .vmslt m vd _ _
  | .vmsltu m vd _ _ | .vmsle m vd _ _ => maskedDestOk m vd
  | .vmerge vd _ _ => maskedDestOk true vd
  | .vmv m vd _ => maskedDestOk m vd
  | .vfadd m vd _ _ | .vfsub m vd _ _ | .vfmul m vd _ _ | .vfdiv m vd _ _ | .vfmin m vd _ _ | .vfmax m vd _ _ | .vfma m vd _ _
  | .vfnma m vd _ _ | .vmfeq m vd _ _ | .vmflt m vd _ _ | .vmfle m vd _ _ => maskedDestOk m vd
  | .vfsqrt m vd _ | .vfexp2 m vd _ => maskedDestOk m vd
  | .vfcvtd m fmt vd _ | .vfcvts m fmt vd _ => maskedDestOk m vd && decide (fmt ≠ .mxfp4)
  | .vredsum m vd _ _ | .vredmax m vd _ _ | .vredmin m vd _ _ | .vfredsum m vd _ _ | .vfredmax m vd _ _ | .vscan m vd _ _ => maskedDestOk m vd
  | .vslideup m vd vs2 _ | .vslidedown m vd vs2 _ => maskedDestOk m vd && apart vd vs2
  | .vrgather m vd vs2 vs1 => maskedDestOk m vd && apart vd vs2 && apart vd vs1
  | .vcompress vd vs2 => maskedDestOk true vd && apart vd vs2
  | .vmand m vd _ _ | .vmandn m vd _ _ | .vmor m vd _ _ | .vmxor m vd _ _ | .vdot4 m vd _ _ => maskedDestOk m vd
  | .ldpairw vd _ => decide (vd.toNat % 2 = 0) && decide (vd ≠ 0)
  | .vopaBf16 _ va vb | .vopaF16 _ va vb | .vopaE4m3 _ va vb | .vopaE5m2 _ va vb => decide (va.toNat < 16) && decide (vb.toNat < 16)
  | .vsmx m vd _ fa => maskedDestOk m vd && decide (fa.toNat < 30)
  | _ => true

end Sys2Proof
end

