-- ==== Sys2Proof/Decode.lean ====
section
/-! DEFINITION. Decoding of instruction words (R186 to R198), total on every string of bytes and rejecting by name; and the encoder, written from the
same tables. `Instr` has more constructors with operands than Lean's code generator has tags (245), so a definition that builds a late
constructor is marked noncomputable; the kernel evaluates it as any other. -/

namespace Sys2Proof

/-- Why a word is an illegal instruction (R189). -/
inductive DecodeErr where
  /-- Fewer bytes than the word has. -/
  | tooShort
  /-- A 16-bit code (R186). -/
  | length16
  /-- A 48-bit code (R186). -/
  | length48
  /-- A code of 80 bits or more (R186). -/
  | length80
  /-- A reserved major opcode (R191). -/
  | major
  /-- A reserved group of 64-bit words (R194). -/
  | group
  /-- A reserved sub-operation or a nonzero must-be-zero field (R189, R192). -/
  | reserved
  /-- A system-register number that no register has (R196). -/
  | unassigned
  /-- Operands that `Instr.wf` refuses. -/
  | illFormed
  deriving DecidableEq, Repr

/-- The fields of a 32-bit word, and of the low half of a 64-bit word: every format is made of these (R190, R193, R194). -/
structure Fields where
  f7 : BitVec 7
  rs2 : Reg
  rs1 : Reg
  f3 : BitVec 3
  rd : Reg
  op : BitVec 7
  deriving DecidableEq, Repr

/-- The fields of a 64-bit word of format W (R194); a WL word's immediate lies across them. -/
structure LongFields where
  sub : BitVec 4
  tl : Tl
  tc : Handle
  tb : Handle
  ta : Handle
  lo : Fields
  deriving DecidableEq, Repr

/-- A word that decodes by its fields. -/
inductive Code where
  | word (f : Fields)
  | long (f : LongFields)
  deriving DecidableEq, Repr

/-- The fields of a 32-bit word. -/
def Fields.ofWord (w : BitVec 32) : Fields :=
  { f7 := w.extractLsb' 25 7, rs2 := w.extractLsb' 20 5, rs1 := w.extractLsb' 15 5, f3 := w.extractLsb' 12 3
    rd := w.extractLsb' 7 5, op := w.extractLsb' 0 7 }

/-- The 32-bit word of the fields. -/
def Fields.toWord (f : Fields) : BitVec 32 := f.f7 ++ f.rs2 ++ f.rs1 ++ f.f3 ++ f.rd ++ f.op

/-- The fields of a 64-bit word. -/
def LongFields.ofWord (w : BitVec 64) : LongFields :=
  { sub := w.extractLsb' 60 4, tl := w.extractLsb' 56 4, tc := w.extractLsb' 48 8, tb := w.extractLsb' 40 8
    ta := w.extractLsb' 32 8, lo := Fields.ofWord (w.extractLsb' 0 32) }

/-- The 64-bit word of the fields. -/
def LongFields.toWord (f : LongFields) : BitVec 64 := f.sub ++ f.tl ++ f.tc ++ f.tb ++ f.ta ++ f.lo.toWord

/-- The bytes of a number, little-endian (R187). -/
def leBytes (n w : Nat) : List Byte :=
  match n with
  | 0 => []
  | n + 1 => BitVec.ofNat 8 w :: leBytes n (w / 256)

/-- The number of a list of bytes, little-endian. -/
def leNat : List Byte → Nat
  | [] => 0
  | b :: bs => b.toNat + 256 * leNat bs

/-- The bytes of a word as stored: the low half of a 64-bit word first (R187). -/
def Code.bytes : Code → List Byte
  | .word f => leBytes 4 f.toWord.toNat
  | .long f => leBytes 8 f.toWord.toNat

/-- The number of bytes of a word. -/
def Code.size : Code → Nat
  | .word _ => 4
  | .long _ => 8

/-- What the low bits of the first 32 bits say of a word's length (R186). -/
inductive Length where
  | word | long | illegal (e : DecodeErr)
  deriving DecidableEq, Repr

/-- The length code (R186). -/
def lengthCode (w : BitVec 32) : Length :=
  if w.extractLsb' 0 2 ≠ 3#2 then .illegal .length16
  else if w.extractLsb' 2 3 ≠ 7#3 then .word
  else if w.extractLsb' 5 1 = 0#1 then .illegal .length48
  else if w.extractLsb' 6 1 = 0#1 then .long
  else .illegal .length80

/-! Fields of the formats. -/

/-- The I immediate. -/
def Fields.immI (f : Fields) : BitVec 12 := f.f7 ++ f.rs2
/-- The S immediate. -/
def Fields.immS (f : Fields) : BitVec 12 := f.f7 ++ f.rd
/-- The B offset without its bit 0. -/
def Fields.immB (f : Fields) : BitVec 12 :=
  f.f7.extractLsb' 6 1 ++ f.rd.extractLsb' 0 1 ++ f.f7.extractLsb' 0 6 ++ f.rd.extractLsb' 1 4
/-- The J offset without its bit 0. -/
def Fields.immJ (f : Fields) : BitVec 20 :=
  f.f7.extractLsb' 6 1 ++ (f.rs1 ++ f.f3) ++ f.rs2.extractLsb' 0 1 ++ (f.f7.extractLsb' 0 6 ++ f.rs2.extractLsb' 1 4)
/-- The U immediate. -/
def Fields.immU (f : Fields) : BitVec 20 := f.f7 ++ f.rs2 ++ f.rs1 ++ f.f3
/-- Bits [31:26]. -/
def Fields.f6 (f : Fields) : BitVec 6 := f.f7.extractLsb' 1 6
/-- Bit 25: the mask bit M. -/
def Fields.m (f : Fields) : Bool := f.f7.getLsbD 0
/-- The six-bit shift amount [25:20]. -/
def Fields.sh (f : Fields) : BitVec 6 := f.f7.extractLsb' 0 1 ++ f.rs2
/-- The system-register number [31:20]. -/
def Fields.sr (f : Fields) : BitVec 12 := f.f7 ++ f.rs2
/-- The tile handle [27:20]. -/
def Fields.handle (f : Fields) : Handle := f.f7.extractLsb' 0 3 ++ f.rs2
/-- Bits [31:28]. -/
def Fields.top4 (f : Fields) : BitVec 4 := f.f7.extractLsb' 3 4
/-- Bits [27:25]. -/
def Fields.low3 (f : Fields) : BitVec 3 := f.f7.extractLsb' 0 3
/-- Bits [31:27]. -/
def Fields.f5 (f : Fields) : BitVec 5 := f.f7.extractLsb' 2 5
/-- Bits [26:25]. -/
def Fields.fmt2 (f : Fields) : BitVec 2 := f.f7.extractLsb' 0 2

/-- The scope of a three-bit field; 6 and 7 are reserved (R189). -/
def scopeOf (b : BitVec 3) : Option Scope :=
  match b with
  | 0#3 => some .lane | 1#3 => some .core | 2#3 => some .quad | 3#3 => some .die | 4#3 => some .pkg | 5#3 => some .pod | _ => none

/-- The three-bit field of a scope. -/
def scopeBits (s : Scope) : BitVec 3 := BitVec.ofNat 3 s.code

/-- The rounding field (R171). -/
def rmOf (b : BitVec 3) : Rm :=
  match b with
  | 1#3 => .rne | 2#3 => .rtz | 3#3 => .rdn | 4#3 => .rup | 5#3 => .rna | 6#3 => .rod | 7#3 => .dsr | _ => .dyn

/-- The three-bit field of a rounding (R171). -/
def rmBits (r : Rm) : BitVec 3 := BitVec.ofNat 3 r.code

/-- The fmt field of FF; 10 and 11 are reserved (R193). -/
def fpFmtOf (b : BitVec 2) : Option FpFmt :=
  match b with
  | 0#2 => some .f32 | 1#2 => some .f64 | _ => none

/-- The two-bit field of a format. -/
def fpFmtBits : FpFmt → BitVec 2
  | .f32 => 0 | .f64 => 1

/-- The type codes of fcvti and fcvtx (R221). -/
def intTyOf (b : Reg) : Option IntTy :=
  match b with
  | 0#5 => some .s32 | 1#5 => some .u32 | 2#5 => some .s64 | 3#5 => some .u64 | _ => none

/-- The field of an integer type (R221). -/
def intTyBits : IntTy → Reg
  | .s32 => 0 | .u32 => 1 | .s64 => 2 | .u64 => 3

/-- The ordering field of an atomic (R193). -/
def ordOf (b : BitVec 2) : MemOrd :=
  match b with
  | 0#2 => .none | 1#2 => .rl | 2#2 => .aq | _ => .aqrl

/-- The bits of an ordering. -/
def ordBits : MemOrd → BitVec 2
  | .none => 0 | .rl => 1 | .aq => 2 | .aqrl => 3

/-- The ordering field of FENCE; 00 is reserved (R193). -/
def fenceOrdOf (b : BitVec 2) : Option FenceOrd :=
  match b with
  | 1#2 => some .rel | 2#2 => some .acq | 3#2 => some .ar | _ => none

/-- The bits of a fence's ordering. -/
def fenceOrdBits : FenceOrd → BitVec 2
  | .rel => 1 | .acq => 2 | .ar => 3

/-- The lanes field (R244). -/
def lanesOf (b : BitVec 3) : Option Lanes :=
  match b with
  | 0#3 => some .b | 1#3 => some .h | 2#3 => some .w | _ => none

/-- The bits of a lanes field. -/
def lanesBits : Lanes → BitVec 3
  | .b => 0 | .h => 1 | .w => 2

/-- The width field of vector memory forms (R276). -/
def ewOf (b : BitVec 3) : Option Ew :=
  match b with
  | 0#3 => some .e8 | 1#3 => some .e16 | 2#3 => some .e32 | 3#3 => some .e64 | _ => none

/-- The bits of a width field. -/
def ewBits : Ew → BitVec 3
  | .e8 => 0 | .e16 => 1 | .e32 => 2 | .e64 => 3

/-- src1 of an integer vector form by its kind (R280). -/
def vsrcOf (f : Fields) : Option VSrc :=
  match f.f3 with
  | 0#3 => some (.vec f.rs1) | 1#3 => some (.xreg f.rs1) | 2#3 => some (.imm f.rs1) | _ => none

/-- The kind of an integer vector source. -/
def vsrcKind : VSrc → BitVec 3
  | .vec _ => 0 | .xreg _ => 1 | .imm _ => 2

/-- The src1 field of an integer vector source. -/
def vsrcField : VSrc → Reg
  | .vec v => v | .xreg x => x | .imm i => i

/-- src1 of an FP vector form by its kind (R283). -/
def fsrcOf (f : Fields) : Option FSrc :=
  match f.f3 with
  | 0#3 => some (.vec f.rs1) | 3#3 => some (.freg f.rs1) | _ => none

/-- The kind of an FP vector source. -/
def fsrcKind : FSrc → BitVec 3
  | .vec _ => 0 | .freg _ => 3

/-- The src1 field of an FP vector source. -/
def fsrcField : FSrc → Reg
  | .vec v => v | .freg x => x

/-- One bit of a field. -/
def bit (b : Bool) : BitVec 1 := BitVec.ofBool b

/-- An instruction when a field has a meaning, else the word is reserved. -/
def withField {α : Type} (o : Option α) (k : α → Except DecodeErr Instr) : Except DecodeErr Instr :=
  match o with
  | some a => k a
  | none => .error .reserved

/-- An instruction when must-be-zero fields are zero (R189). -/
def mbz (ok : Bool) (k : Except DecodeErr Instr) : Except DecodeErr Instr := if ok then k else .error .reserved

/-! The major opcodes. -/

/-- LOAD (R215). -/
def decLoad (f : Fields) : Except DecodeErr Instr :=
  match f.f3 with
  | 0#3 => .ok (.lb f.rd f.rs1 f.immI)
  | 1#3 => .ok (.lh f.rd f.rs1 f.immI)
  | 2#3 => .ok (.lw f.rd f.rs1 f.immI)
  | 3#3 => .ok (.ld f.rd f.rs1 f.immI)
  | 4#3 => .ok (.lbu f.rd f.rs1 f.immI)
  | 5#3 => .ok (.lhu f.rd f.rs1 f.immI)
  | 6#3 => .ok (.lwu f.rd f.rs1 f.immI)
  | _ => .error .reserved

/-- Scalar FP loads (R220). -/
def decFpLoad (f : Fields) : Except DecodeErr Instr :=
  match f.f3 with
  | 2#3 => .ok (.flw f.rd f.rs1 f.immI)
  | 3#3 => .ok (.fld f.rd f.rs1 f.immI)
  | _ => .error .reserved

/-- STORE (R215). -/
def decStore (f : Fields) : Except DecodeErr Instr :=
  match f.f3 with
  | 0#3 => .ok (.sb f.rs2 f.rs1 f.immS)
  | 1#3 => .ok (.sh f.rs2 f.rs1 f.immS)
  | 2#3 => .ok (.sw f.rs2 f.rs1 f.immS)
  | 3#3 => .ok (.sd f.rs2 f.rs1 f.immS)
  | _ => .error .reserved

/-- Scalar FP stores (R220). -/
def decFpStore (f : Fields) : Except DecodeErr Instr :=
  match f.f3 with
  | 2#3 => .ok (.fsw f.rs2 f.rs1 f.immS)
  | 3#3 => .ok (.fsd f.rs2 f.rs1 f.immS)
  | _ => .error .reserved

/-- BRANCH (R215). -/
def decBranch (f : Fields) : Except DecodeErr Instr :=
  match f.f3 with
  | 0#3 => .ok (.beq f.rs1 f.rs2 f.immB)
  | 1#3 => .ok (.bne f.rs1 f.rs2 f.immB)
  | 4#3 => .ok (.blt f.rs1 f.rs2 f.immB)
  | 5#3 => .ok (.bge f.rs1 f.rs2 f.immB)
  | 6#3 => .ok (.bltu f.rs1 f.rs2 f.immB)
  | 7#3 => .ok (.bgeu f.rs1 f.rs2 f.immB)
  | _ => .error .reserved

/-- OP-IMM, with the bit operations of R217. -/
def decOpImm (f : Fields) : Except DecodeErr Instr :=
  match f.f3 with
  | 0#3 => .ok (.addi f.rd f.rs1 f.immI)
  | 2#3 => .ok (.slti f.rd f.rs1 f.immI)
  | 3#3 => .ok (.sltiu f.rd f.rs1 f.immI)
  | 4#3 => .ok (.xori f.rd f.rs1 f.immI)
  | 6#3 => .ok (.ori f.rd f.rs1 f.immI)
  | 7#3 => .ok (.andi f.rd f.rs1 f.immI)
  | 1#3 => (match f.f6 with | 0#6 => .ok (.slli f.rd f.rs1 f.sh) | 6#6 => .ok (.bexti f.rd f.rs1 f.sh) | _ => .error .reserved)
  | 5#3 => (match f.f6 with | 0#6 => .ok (.srli f.rd f.rs1 f.sh) | 16#6 => .ok (.srai f.rd f.rs1 f.sh) | 6#6 => .ok (.rori f.rd f.rs1 f.sh) | _ => .error .reserved)
  | _ => .error .reserved

/-- OP-IMM-32 (R215). -/
def decOpImm32 (f : Fields) : Except DecodeErr Instr :=
  match f.f3 with
  | 0#3 => .ok (.addiw f.rd f.rs1 f.immI)
  | 1#3 => (match f.f7 with | 0#7 => .ok (.slliw f.rd f.rs1 f.rs2) | _ => .error .reserved)
  | 5#3 => (match f.f7 with | 0#7 => .ok (.srliw f.rd f.rs1 f.rs2) | 32#7 => .ok (.sraiw f.rd f.rs1 f.rs2) | _ => .error .reserved)
  | _ => .error .reserved

/-- OP, with the M extension and the bit operations of R217. -/
def decOp (f : Fields) : Except DecodeErr Instr :=
  match f.f7 with
  | 0#7 => (
    match f.f3 with
    | 0#3 => .ok (.add f.rd f.rs1 f.rs2)
    | 1#3 => .ok (.sll f.rd f.rs1 f.rs2)
    | 2#3 => .ok (.slt f.rd f.rs1 f.rs2)
    | 3#3 => .ok (.sltu f.rd f.rs1 f.rs2)
    | 4#3 => .ok (.xor f.rd f.rs1 f.rs2)
    | 5#3 => .ok (.srl f.rd f.rs1 f.rs2)
    | 6#3 => .ok (.or f.rd f.rs1 f.rs2)
    | 7#3 => .ok (.and f.rd f.rs1 f.rs2)
    | _ => .error .reserved)
  | 32#7 => (
    match f.f3 with
    | 0#3 => .ok (.sub f.rd f.rs1 f.rs2)
    | 5#3 => .ok (.sra f.rd f.rs1 f.rs2)
    | _ => .error .reserved)
  | 1#7 => (
    match f.f3 with
    | 0#3 => .ok (.mul f.rd f.rs1 f.rs2)
    | 1#3 => .ok (.mulh f.rd f.rs1 f.rs2)
    | 2#3 => .ok (.mulhsu f.rd f.rs1 f.rs2)
    | 3#3 => .ok (.mulhu f.rd f.rs1 f.rs2)
    | 4#3 => .ok (.div f.rd f.rs1 f.rs2)
    | 5#3 => .ok (.divu f.rd f.rs1 f.rs2)
    | 6#3 => .ok (.rem f.rd f.rs1 f.rs2)
    | 7#3 => .ok (.remu f.rd f.rs1 f.rs2)
    | _ => .error .reserved)
  | 12#7 => (
    match f.f3 with
    | 0#3 => .ok (.andn f.rd f.rs1 f.rs2)
    | 1#3 => .ok (.rol f.rd f.rs1 f.rs2)
    | 2#3 => mbz (f.rs2 == 0) (.ok (.clz f.rd f.rs1))
    | 3#3 => mbz (f.rs2 == 0) (.ok (.ctz f.rd f.rs1))
    | 4#3 => mbz (f.rs2 == 0) (.ok (.cpop f.rd f.rs1))
    | 5#3 => .ok (.ror f.rd f.rs1 f.rs2)
    | 6#3 => mbz (f.rs2 == 0) (.ok (.rev8 f.rd f.rs1))
    | 7#3 => .ok (.bext f.rd f.rs1 f.rs2)
    | _ => .error .reserved)
  | _ => .error .reserved

/-- OP-32 (R215). -/
def decOp32 (f : Fields) : Except DecodeErr Instr :=
  match f.f7 with
  | 0#7 => (
    match f.f3 with
    | 0#3 => .ok (.addw f.rd f.rs1 f.rs2)
    | 1#3 => .ok (.sllw f.rd f.rs1 f.rs2)
    | 5#3 => .ok (.srlw f.rd f.rs1 f.rs2)
    | _ => .error .reserved)
  | 32#7 => (
    match f.f3 with
    | 0#3 => .ok (.subw f.rd f.rs1 f.rs2)
    | 5#3 => .ok (.sraw f.rd f.rs1 f.rs2)
    | _ => .error .reserved)
  | 1#7 => (
    match f.f3 with
    | 0#3 => .ok (.mulw f.rd f.rs1 f.rs2)
    | 4#3 => .ok (.divw f.rd f.rs1 f.rs2)
    | 5#3 => .ok (.divuw f.rd f.rs1 f.rs2)
    | 6#3 => .ok (.remw f.rd f.rs1 f.rs2)
    | 7#3 => .ok (.remuw f.rd f.rs1 f.rs2)
    | _ => .error .reserved)
  | _ => .error .reserved

/-- Scalar FP, format FF (R221). -/
def decFp (f : Fields) : Except DecodeErr Instr :=
  withField (fpFmtOf f.fmt2) fun fmt =>
  match f.f5 with
  | 0#5 => .ok (.fadd fmt (rmOf f.f3) f.rd f.rs1 f.rs2)
  | 1#5 => .ok (.fsub fmt (rmOf f.f3) f.rd f.rs1 f.rs2)
  | 2#5 => .ok (.fmul fmt (rmOf f.f3) f.rd f.rs1 f.rs2)
  | 3#5 => .ok (.fdiv fmt (rmOf f.f3) f.rd f.rs1 f.rs2)
  | 4#5 => mbz (f.rs2 == 0) (.ok (.fsqrt fmt (rmOf f.f3) f.rd f.rs1))
  | 5#5 => (
    match f.f3 with
    | 0#3 => .ok (.fsgnj fmt f.rd f.rs1 f.rs2)
    | 1#3 => .ok (.fsgnjN fmt f.rd f.rs1 f.rs2)
    | 2#3 => .ok (.fsgnjX fmt f.rd f.rs1 f.rs2)
    | _ => .error .reserved)
  | 6#5 => mbz (f.f3 == 0) (.ok (.fmin fmt f.rd f.rs1 f.rs2))
  | 7#5 => mbz (f.f3 == 0) (.ok (.fmax fmt f.rd f.rs1 f.rs2))
  | 8#5 => (
    match f.f3 with
    | 0#3 => .ok (.fcmpLe fmt f.rd f.rs1 f.rs2)
    | 1#3 => .ok (.fcmpLt fmt f.rd f.rs1 f.rs2)
    | 2#3 => .ok (.fcmpEq fmt f.rd f.rs1 f.rs2)
    | _ => .error .reserved)
  | 9#5 => mbz (f.rs2 == 0 && f.f3 == 0) (.ok (.fclass fmt f.rd f.rs1))
  | 10#5 => mbz (f.rs2 == 0) (.ok (.fcvtf fmt (rmOf f.f3) f.rd f.rs1))
  | 11#5 => withField (intTyOf f.rs2) fun ty => .ok (.fcvti fmt ty (rmOf f.f3) f.rd f.rs1)
  | 12#5 => withField (intTyOf f.rs2) fun ty => .ok (.fcvtx fmt ty (rmOf f.f3) f.rd f.rs1)
  | 13#5 => mbz (fmt == .f32 && f.rs2 == 0 && f.f3 == 0) (.ok (.fexp2 f.rd f.rs1))
  | 14#5 => mbz (f.rs2 == 0 && f.f3 == 0) (.ok (.fmvx fmt f.rd f.rs1))
  | 15#5 => mbz (f.rs2 == 0 && f.f3 == 0) (.ok (.fmvf fmt f.rd f.rs1))
  | 16#5 => mbz (f.rs2 == 0) (.ok (.fround fmt (rmOf f.f3) f.rd f.rs1))
  | _ => .error .reserved

/-- Scalar FP fused, format FQ (R223). -/
def decFpFused (f : Fields) : Except DecodeErr Instr :=
  match f.fmt2 with
  | 0#2 => .ok (.fmaddF32 (rmOf f.f3) f.rd f.rs1 f.rs2 f.f5)
  | 1#2 => .ok (.fmaddF64 (rmOf f.f3) f.rd f.rs1 f.rs2 f.f5)
  | 2#2 => .ok (.fnmaddF32 (rmOf f.f3) f.rd f.rs1 f.rs2 f.f5)
  | 3#2 => .ok (.fnmaddF64 (rmOf f.f3) f.rd f.rs1 f.rs2 f.f5)
  | _ => .error .reserved

/-- Atomics, format AT (R225). -/
def decAtomic (f : Fields) : Except DecodeErr Instr :=
  withField (scopeOf f.f3) fun sc =>
  let dw := f.f7.getLsbD 2
  match f.top4 with
  | 0#4 => mbz (f.fmt2 == 0 && f.rs2 == 0) (.ok (.lda dw sc f.rd f.rs1))
  | 1#4 => mbz (f.fmt2 == 0 && f.rd == 0) (.ok (.stl dw sc f.rs2 f.rs1))
  | 2#4 => .ok (.amoswap dw (ordOf f.fmt2) sc f.rd f.rs2 f.rs1)
  | 3#4 => .ok (.amoadd dw (ordOf f.fmt2) sc f.rd f.rs2 f.rs1)
  | 4#4 => .ok (.amoand dw (ordOf f.fmt2) sc f.rd f.rs2 f.rs1)
  | 5#4 => .ok (.amoor dw (ordOf f.fmt2) sc f.rd f.rs2 f.rs1)
  | 6#4 => .ok (.amoxor dw (ordOf f.fmt2) sc f.rd f.rs2 f.rs1)
  | 7#4 => .ok (.amomin dw (ordOf f.fmt2) sc f.rd f.rs2 f.rs1)
  | 8#4 => .ok (.amomax dw (ordOf f.fmt2) sc f.rd f.rs2 f.rs1)
  | 9#4 => .ok (.amominu dw (ordOf f.fmt2) sc f.rd f.rs2 f.rs1)
  | 10#4 => .ok (.amomaxu dw (ordOf f.fmt2) sc f.rd f.rs2 f.rs1)
  | 11#4 => .ok (.amocas dw (ordOf f.fmt2) sc f.rd f.rs2 f.rs1)
  | 12#4 => .ok (.amofadd dw (ordOf f.fmt2) sc f.rd f.rs2 f.rs1)
  | _ => .error .reserved

/-- Fences, barriers and SDRAIN, format FB: ord [31:30], bar [29:24], bit 23 zero, scope [22:20] (R192, R193). -/
def decSync (f : Fields) : Except DecodeErr Instr :=
  let ord : BitVec 2 := f.f7.extractLsb' 5 2
  let bar : BitVec 6 := f.f7.extractLsb' 0 5 ++ f.rs2.extractLsb' 4 1
  mbz (f.rs2.extractLsb' 3 1 == 0) <|
  match f.f3 with
  | 4#3 => withField (fenceOrdOf ord) fun o => withField (scopeOf (f.rs2.extractLsb' 0 3)) fun sc => mbz (bar == 0 && f.rs1 == 0 && f.rd == 0) (.ok (.fence o sc))
  | 5#3 => withField (scopeOf (f.rs2.extractLsb' 0 3)) fun sc => mbz (ord == 0) (.ok (.barrive sc f.rd bar f.rs1))
  | 6#3 => withField (scopeOf (f.rs2.extractLsb' 0 3)) fun sc => mbz (ord == 0 && f.rd == 0) (.ok (.barwait sc bar f.rs1))
  | 7#3 => mbz (ord == 0 && bar == 0 && f.rs2 == 0 && f.rs1 == 0 && f.rd == 0) (.ok .sdrain)
  | _ => .error .reserved

/-- Control instructions: SY with funct3 000 (R237). -/
def decControl (f : Fields) : Except DecodeErr Instr :=
  match f.f7 with
  | 1#7 => mbz (f.rs2 == 0 && f.rs1 == 0 && f.rd == 0) (.ok .syscall)
  | 2#7 => mbz (f.rs2 == 0 && f.rs1 == 0 && f.rd == 0) (.ok .tret)
  | 3#7 => mbz (f.rs2 == 0 && f.rs1 == 0 && f.rd == 0) (.ok .brk)
  | 5#7 => mbz (f.rs2 == 0 && f.rs1 == 0 && f.rd == 0) (.ok .yield)
  | 6#7 => mbz (f.rs2 == 0 && f.rs1 == 0 && f.rd == 0) (.ok .texit)
  | 4#7 => mbz (f.rs2 == 0) (.ok (.wfe f.rd f.rs1))
  | 7#7 => mbz (f.rs2 == 0 && f.rd == 0) (.ok (.migrate f.rs1))
  | _ => .error .reserved

/-- TLBINV and LINEOP: SY with funct3 101 (R242). -/
def decLine (f : Fields) : Except DecodeErr Instr :=
  withField (scopeOf f.low3) fun sc =>
  match f.top4 with
  | 0#4 => mbz (f.rd == 0) (.ok (.tlbinv sc f.rs1 f.rs2))
  | 1#4 =>
    mbz (f.rd == 0) <|
    match f.rs2 with
    | 0#5 => .ok (.lineopIcinv sc f.rs1)
    | 1#5 => mbz (f.low3 == 0) (.ok (.lineopZero f.rs1))
    | 2#5 => mbz (f.low3 == 0) (.ok (.lineopClean f.rs1))
    | _ => .error .reserved
  | _ => .error .reserved

/-- Timelines, messages and capabilities: SY with funct3 110 (R232 to R236). -/
def decMsg (f : Fields) : Except DecodeErr Instr :=
  match f.f7 with
  | 0#7 => mbz (f.rs2.getLsbD 4 == false) (.ok (.tlwait f.rd (f.rs2.extractLsb' 0 4) f.rs1))
  | 1#7 => mbz (f.rs2.getLsbD 4 == false) (mbz (f.rs1 == 0) (.ok (.tlread f.rd (f.rs2.extractLsb' 0 4))))
  | 2#7 => mbz (f.rs2.getLsbD 4 == false) (mbz (f.rs1 == 0) (.ok (.tlreadT f.rd (f.rs2.extractLsb' 0 4))))
  | 8#7 => .ok (.msend f.rd f.rs1 f.rs2)
  | 9#7 => .ok (.mwaitf f.rd f.rs2 f.rs1)
  | 16#7 => mbz (f.rs2.getLsbD 4 == false) (.ok (.capdeleg f.rd (f.rs2.extractLsb' 0 4) f.rs1))
  | 17#7 => mbz (f.rs2 == 0 && f.rd == 0) (.ok (.caprevoke f.rs1))
  | 18#7 => mbz (f.rs2.getLsbD 4 == false) (.ok (.capcheck f.rd (f.rs2.extractLsb' 0 4) f.rs1))
  | _ => .error .reserved

/-- Tile-handle instructions, format TH (R252). -/
def decTile (f : Fields) : Except DecodeErr Instr :=
  match f.top4 with
  | 0#4 => .ok (.talloc f.rd f.handle f.rs1)
  | 1#4 => mbz (f.rs1 == 0 && f.rd == 0) (.ok (.tfree f.handle))
  | 2#4 => mbz (f.rs1 == 0 && f.rd == 0) (.ok (.tlockR f.handle))
  | 3#4 => mbz (f.rs1 == 0 && f.rd == 0) (.ok (.tlockW f.handle))
  | 4#4 => mbz (f.rs1 == 0 && f.rd == 0) (.ok (.tunlock f.handle))
  | 5#4 => mbz (f.rs1 == 0 && f.rd == 0) (.ok (.tzero f.handle))
  | 6#4 => .ok (.trdx f.rd f.handle f.rs1)
  | 7#4 => .ok (.twrx f.handle f.rs1 f.rd)
  | 8#4 => mbz (f.rs1 == 0) (.ok (.tqueryLo f.rd f.handle))
  | 9#4 => mbz (f.rs1 == 0) (.ok (.tqueryHi f.rd f.handle))
  | _ => .error .reserved

/-- A system-register instruction, format SR (R241). -/
def decSr (f : Fields) : Except DecodeErr Instr :=
  match SReg.ofNumber f.sr.toNat with
  | none => .error .unassigned
  | some r =>
    match f.f3 with
    | 1#3 => mbz (f.rs1 == 0) (.ok (.srrd f.rd r))
    | 2#3 => .ok (.srwr f.rd r f.rs1)
    | 3#3 => .ok (.srset f.rd r f.rs1)
    | 4#3 => .ok (.srclr f.rd r f.rs1)
    | _ => .error .reserved

/-- Major 0x73 (R192). -/
def decSystem (f : Fields) : Except DecodeErr Instr :=
  match f.f3 with
  | 0#3 => decControl f
  | 1#3 => decSr f
  | 2#3 => decSr f
  | 3#3 => decSr f
  | 4#3 => decSr f
  | 5#3 => decLine f
  | 6#3 => decMsg f
  | 7#3 => decTile f

/-- PFX (R197). -/
def decPfx (f : Fields) : Except DecodeErr Instr :=
  mbz (f.rd == 0 && f.f7 == 0 && f.rs2 == 0 && f.rs1.extractLsb' 2 3 == 0)
    (.ok (.pfx (f.rs1.getLsbD 1) (f.rs1.getLsbD 0) (rmOf f.f3)))

/-- Packed SIMD, format PK (R245, R248). -/
def decPacked (f : Fields) : Except DecodeErr Instr :=
  if f.f7.extractLsb' 4 3 = 1#3 then
    withField (Fmt.ofCode (f.f7.extractLsb' 0 4).toNat) fun s => withField (Fmt.ofCode (f.rs2.extractLsb' 0 4).toNat) fun d =>
      mbz (f.rs2.getLsbD 4 == false && f.f3 == 0) (.ok (.pcvt s d f.rd f.rs1))
  else
    withField (lanesOf f.f3) fun l =>
    match f.f7 with
    | 0#7 => .ok (.padd l f.rd f.rs1 f.rs2)
    | 1#7 => .ok (.psub l f.rd f.rs1 f.rs2)
    | 2#7 => .ok (.padds l f.rd f.rs1 f.rs2)
    | 3#7 => .ok (.psubs l f.rd f.rs1 f.rs2)
    | 4#7 => .ok (.paddus l f.rd f.rs1 f.rs2)
    | 5#7 => .ok (.psubus l f.rd f.rs1 f.rs2)
    | 6#7 => .ok (.pmul l f.rd f.rs1 f.rs2)
    | 7#7 => .ok (.pmulq l f.rd f.rs1 f.rs2)
    | 8#7 => .ok (.pmin l f.rd f.rs1 f.rs2)
    | 9#7 => .ok (.pmax l f.rd f.rs1 f.rs2)
    | 10#7 => .ok (.psll l f.rd f.rs1 f.rs2)
    | 11#7 => .ok (.psrl l f.rd f.rs1 f.rs2)
    | 12#7 => .ok (.psra l f.rd f.rs1 f.rs2)
    | 13#7 => .ok (.pssl l f.rd f.rs1 f.rs2)
    | 14#7 => .ok (.pavg l f.rd f.rs1 f.rs2)
    | _ => .error .reserved

/-- Vector memory and configuration, format VM (R273, R276). -/
def decVmem (f : Fields) : Except DecodeErr Instr :=
  if f.f3 = 7#3 then
    mbz (f.m == false) <|
    match f.f6 with
    | 0#6 => mbz (f.rs2 == 0) (.ok (.setvl f.rd f.rs1))
    | 1#6 => .ok (.setvli f.rd (f.rs2 ++ f.rs1))
    | 2#6 => .ok (.setshape f.rd f.rs1 f.rs2)
    | 3#6 => mbz (f.rd.extractLsb' 3 2 == 0) (.ok (.grpset (f.rd.extractLsb' 0 3) f.rs1 f.rs2))
    | _ => .error .reserved
  else
    withField (ewOf f.f3) fun w =>
    match f.f6 with
    | 0#6 => mbz (f.rs2 == 0) (.ok (.vle f.m w f.rd f.rs1))
    | 1#6 => mbz (f.rs2 == 0) (.ok (.vse f.m w f.rd f.rs1))
    | 2#6 => .ok (.vlse f.m w f.rd f.rs1 f.rs2)
    | 3#6 => .ok (.vsse f.m w f.rd f.rs1 f.rs2)
    | 4#6 => .ok (.vlxe f.m w f.rd f.rs1 f.rs2)
    | 5#6 => .ok (.vsxe f.m w f.rd f.rs1 f.rs2)
    | 6#6 => mbz (f.rs2 == 0) (.ok (.vleff f.m w f.rd f.rs1))
    | _ => .error .reserved

/-- Integer vector forms: funct6 0x00 to 0x1F (R280, R282). -/
def decVint (f : Fields) : Except DecodeErr Instr :=
  withField (vsrcOf f) fun s =>
  match f.f6 with
  | 0#6 => .ok (.vadd f.m f.rd f.rs2 s)
  | 1#6 => .ok (.vsub f.m f.rd f.rs2 s)
  | 2#6 => .ok (.vrsub f.m f.rd f.rs2 s)
  | 3#6 => .ok (.vsadd f.m f.rd f.rs2 s)
  | 4#6 => .ok (.vssub f.m f.rd f.rs2 s)
  | 5#6 => .ok (.vsaddu f.m f.rd f.rs2 s)
  | 6#6 => .ok (.vssubu f.m f.rd f.rs2 s)
  | 7#6 => .ok (.vmul f.m f.rd f.rs2 s)
  | 8#6 => .ok (.vmulh f.m f.rd f.rs2 s)
  | 9#6 => .ok (.vmulhu f.m f.rd f.rs2 s)
  | 10#6 => .ok (.vdiv f.m f.rd f.rs2 s)
  | 11#6 => .ok (.vdivu f.m f.rd f.rs2 s)
  | 12#6 => .ok (.vrem f.m f.rd f.rs2 s)
  | 13#6 => .ok (.vremu f.m f.rd f.rs2 s)
  | 14#6 => .ok (.vmin f.m f.rd f.rs2 s)
  | 15#6 => .ok (.vmax f.m f.rd f.rs2 s)
  | 16#6 => .ok (.vminu f.m f.rd f.rs2 s)
  | 17#6 => .ok (.vmaxu f.m f.rd f.rs2 s)
  | 18#6 => .ok (.vand f.m f.rd f.rs2 s)
  | 19#6 => .ok (.vor f.m f.rd f.rs2 s)
  | 20#6 => .ok (.vxor f.m f.rd f.rs2 s)
  | 21#6 => .ok (.vsll f.m f.rd f.rs2 s)
  | 22#6 => .ok (.vsrl f.m f.rd f.rs2 s)
  | 23#6 => .ok (.vsra f.m f.rd f.rs2 s)
  | 24#6 => .ok (.vssl f.m f.rd f.rs2 s)
  | 25#6 => .ok (.vmseq f.m f.rd f.rs2 s)
  | 26#6 => .ok (.vmsne f.m f.rd f.rs2 s)
  | 27#6 => .ok (.vmslt f.m f.rd f.rs2 s)
  | 28#6 => .ok (.vmsltu f.m f.rd f.rs2 s)
  | 29#6 => .ok (.vmsle f.m f.rd f.rs2 s)
  | 30#6 => mbz f.m (.ok (.vmerge f.rd f.rs2 s))
  | 31#6 => mbz (f.rs2 == 0) (.ok (.vmv f.m f.rd s))
  | _ => .error .reserved

/-- FP vector forms: funct6 0x20 to 0x2E (R284, R285); those of kind 000 alone are refused under kind 011. -/
noncomputable def decVfp (f : Fields) : Except DecodeErr Instr :=
  match f.f6 with
  | 32#6 => withField (fsrcOf f) fun s => .ok (.vfadd f.m f.rd f.rs2 s)
  | 33#6 => withField (fsrcOf f) fun s => .ok (.vfsub f.m f.rd f.rs2 s)
  | 34#6 => withField (fsrcOf f) fun s => .ok (.vfmul f.m f.rd f.rs2 s)
  | 35#6 => withField (fsrcOf f) fun s => .ok (.vfdiv f.m f.rd f.rs2 s)
  | 37#6 => withField (fsrcOf f) fun s => .ok (.vfmin f.m f.rd f.rs2 s)
  | 38#6 => withField (fsrcOf f) fun s => .ok (.vfmax f.m f.rd f.rs2 s)
  | 39#6 => withField (fsrcOf f) fun s => .ok (.vfma f.m f.rd f.rs2 s)
  | 40#6 => withField (fsrcOf f) fun s => .ok (.vfnma f.m f.rd f.rs2 s)
  | 42#6 => withField (fsrcOf f) fun s => .ok (.vmfeq f.m f.rd f.rs2 s)
  | 43#6 => withField (fsrcOf f) fun s => .ok (.vmflt f.m f.rd f.rs2 s)
  | 44#6 => withField (fsrcOf f) fun s => .ok (.vmfle f.m f.rd f.rs2 s)
  | 36#6 => mbz (f.f3 == 0 && f.rs1 == 0) (.ok (.vfsqrt f.m f.rd f.rs2))
  | 41#6 => mbz (f.f3 == 0 && f.rs1 == 0) (.ok (.vfexp2 f.m f.rd f.rs2))
  | 45#6 => withField (Fmt.ofCode f.rs1.toNat) fun t => mbz (f.f3 == 0) (.ok (.vfcvtd f.m t f.rd f.rs2))
  | 46#6 => withField (Fmt.ofCode f.rs1.toNat) fun t => mbz (f.f3 == 0) (.ok (.vfcvts f.m t f.rd f.rs2))
  | 48#6 => mbz (f.f3 == 0) (.ok (.vdot4 f.m f.rd f.rs2 f.rs1))
  | _ => .error .reserved

/-- Matrix mode and strip softmax: kind 100 (R297, R300 to R302). -/
noncomputable def decVmat (f : Fields) : Except DecodeErr Instr :=
  match f.f6 with
  | 0#6 => mbz (f.m == false && f.rs2 == 0 && f.rs1 == 0 && f.rd == 0) (.ok .mmodeOn)
  | 1#6 => mbz (f.m == false && f.rs2 == 0 && f.rs1 == 0 && f.rd == 0) (.ok .mmodeOff)
  | 2#6 => mbz (f.rd == 0) (.ok (.vopaBf16 f.m f.rs2 f.rs1))
  | 3#6 => mbz (f.rd == 0) (.ok (.vopaF16 f.m f.rs2 f.rs1))
  | 4#6 => mbz (f.rd == 0) (.ok (.vopaE4m3 f.m f.rs2 f.rs1))
  | 5#6 => mbz (f.rd == 0) (.ok (.vopaE5m2 f.m f.rs2 f.rs1))
  | 6#6 => mbz (f.m == false && f.rs2 == 0 && f.rs1 == 0 && f.rd == 0) (.ok .vaccz)
  | 8#6 => .ok (.vsmx f.m f.rd f.rs2 f.rs1)
  | _ => .error .reserved

/-- Reductions, scans and permutes: kind 101 (R287, R288). -/
noncomputable def decVperm (f : Fields) : Except DecodeErr Instr :=
  match f.f6 with
  | 0#6 => .ok (.vredsum f.m f.rd f.rs2 f.rs1)
  | 1#6 => .ok (.vredmax f.m f.rd f.rs2 f.rs1)
  | 2#6 => .ok (.vredmin f.m f.rd f.rs2 f.rs1)
  | 3#6 => .ok (.vfredsum f.m f.rd f.rs2 f.rs1)
  | 4#6 => .ok (.vfredmax f.m f.rd f.rs2 f.rs1)
  | 5#6 => .ok (.vscan f.m f.rd f.rs2 f.rs1)
  | 8#6 => .ok (.vslideup f.m f.rd f.rs2 f.rs1)
  | 9#6 => .ok (.vslidedown f.m f.rd f.rs2 f.rs1)
  | 10#6 => .ok (.vrgather f.m f.rd f.rs2 f.rs1)
  | 11#6 => mbz (f.m && f.rs1 == 0) (.ok (.vcompress f.rd f.rs2))
  | 12#6 => mbz (f.m == false) (.ok (.vextx f.rd f.rs2 f.rs1))
  | 13#6 => mbz (f.m == false && f.rs2 == 0) (.ok (.vinsx f.rd f.rs1))
  | _ => .error .reserved

/-- Mask forms: kind 110 (R289). -/
noncomputable def decVmask (f : Fields) : Except DecodeErr Instr :=
  match f.f6 with
  | 0#6 => .ok (.vmand f.m f.rd f.rs2 f.rs1)
  | 1#6 => .ok (.vmandn f.m f.rd f.rs2 f.rs1)
  | 2#6 => .ok (.vmor f.m f.rd f.rs2 f.rs1)
  | 3#6 => .ok (.vmxor f.m f.rd f.rs2 f.rs1)
  | 4#6 => mbz (f.rs1 == 0) (.ok (.vmpopc f.m f.rd f.rs2))
  | 5#6 => mbz (f.rs1 == 0) (.ok (.vmfirst f.m f.rd f.rs2))
  | _ => .error .reserved

/-- Vector arithmetic, format VA, by its kind (R192). -/
noncomputable def decVarith (f : Fields) : Except DecodeErr Instr :=
  match f.f3 with
  | 0#3 => if f.f6.getLsbD 5 then decVfp f else decVint f
  | 1#3 => decVint f
  | 2#3 => decVint f
  | 3#3 => decVfp f
  | 4#3 => decVmat f
  | 5#3 => decVperm f
  | 6#3 => decVmask f
  | _ => .error .reserved

/-- A 32-bit word by its major opcode (R191). -/
noncomputable def decodeFields (f : Fields) : Except DecodeErr Instr :=
  match f.op with
  | 0x03#7 => decLoad f
  | 0x07#7 => decFpLoad f
  | 0x0B#7 => decPfx f
  | 0x0F#7 => decSync f
  | 0x13#7 => decOpImm f
  | 0x17#7 => .ok (.auipc f.rd f.immU)
  | 0x1B#7 => decOpImm32 f
  | 0x23#7 => decStore f
  | 0x27#7 => decFpStore f
  | 0x2F#7 => decAtomic f
  | 0x33#7 => decOp f
  | 0x37#7 => .ok (.lui f.rd f.immU)
  | 0x3B#7 => decOp32 f
  | 0x43#7 => decFpFused f
  | 0x53#7 => decFp f
  | 0x57#7 => decVarith f
  | 0x5B#7 => decVmem f
  | 0x63#7 => decBranch f
  | 0x67#7 => mbz (f.f3 == 0) (.ok (.jalr f.rd f.rs1 f.immI))
  | 0x6F#7 => .ok (.jal f.rd f.immJ)
  | 0x73#7 => decSystem f
  | 0x7B#7 => decPacked f
  | _ => .error .major

/-- The 49-bit immediate of a WL word: bits [63:15] (R194). -/
def LongFields.imm49 (f : LongFields) : BitVec 49 := f.sub ++ f.tl ++ f.tc ++ f.tb ++ f.ta ++ f.lo.f7 ++ f.lo.rs2 ++ f.lo.rs1

/-- The copy commands: group 000 (R257). -/
def decCopy (f : LongFields) : Except DecodeErr Instr :=
  mbz (f.lo.f7 == 0) <|
  match f.sub with
  | 0#4 => mbz (f.tb == 0 && f.tc == 0) (.ok (.tload f.lo.rd f.ta f.lo.rs1 f.lo.rs2 f.tl))
  | 1#4 => mbz (f.tb == 0 && f.tc == 0) (.ok (.tstore f.lo.rd f.ta f.lo.rs1 f.lo.rs2 f.tl))
  | 2#4 => mbz (f.tc == 0 && f.lo.rs1 == 0) (.ok (.tcopyT f.lo.rd f.tb f.ta f.lo.rs2 f.tl))
  | 3#4 => mbz (f.ta == 0 && f.tb == 0 && f.tc.extractLsb' 5 3 == 0) (.ok (.tcopyM f.lo.rd (f.tc.extractLsb' 0 5) f.lo.rs1 f.lo.rs2 f.tl))
  | _ => .error .reserved

/-- The collectives: group 001 with sub 1000 to 1110 (R305). -/
noncomputable def decColl (f : LongFields) : Except DecodeErr Instr :=
  mbz (f.ta.extractLsb' 3 5 == 0 && f.tb == 0 && f.tc == 0 && f.tl == 0 && f.lo.f7.extractLsb' 1 6 == 0) <|
  let g : BitVec 3 := f.ta.extractLsb' 0 3
  match f.sub with
  | 8#4 => mbz (f.lo.rs2 == 0) (.ok (.vcollSum f.lo.m f.lo.rd f.lo.rs1 g))
  | 9#4 => mbz (f.lo.rs2 == 0) (.ok (.vcollMax f.lo.m f.lo.rd f.lo.rs1 g))
  | 10#4 => mbz (f.lo.rs2 == 0) (.ok (.vcollMin f.lo.m f.lo.rd f.lo.rs1 g))
  | 11#4 => mbz (f.lo.m == false) (.ok (.vcollSmerge f.lo.rd f.lo.rs1 g f.lo.rs2))
  | 12#4 => mbz (f.lo.m == false && f.lo.rs2 == 0) (.ok (.vcollGather f.lo.rd f.lo.rs1 g))
  | 13#4 => mbz (f.lo.m == false) (.ok (.vcollScatter f.lo.rd f.lo.rs1 g f.lo.rs2))
  | 14#4 => mbz (f.lo.m == false) (.ok (.vcollBcast f.lo.rd f.lo.rs1 g f.lo.rs2))
  | _ => .error .reserved

/-- The matrix-array instructions and the collectives: group 001 (R263). -/
noncomputable def decMatrix (f : LongFields) : Except DecodeErr Instr :=
  match f.sub with
  | 0#4 => mbz (f.tc == 0 && f.lo.f7.extractLsb' 0 4 == 0)
      (.ok (.tmma (f.lo.f7.getLsbD 6) (f.lo.f7.getLsbD 5) (f.lo.f7.getLsbD 4) f.lo.rd f.ta f.tb f.lo.rs1 f.lo.rs2 f.tl))
  | 1#4 => mbz (f.ta == 0 && f.tc == 0 && f.lo.rs1 == 0 && f.lo.rs2 == 0 && f.lo.f7.getLsbD 0 == false)
      (.ok (.taccrd (f.lo.f7.getLsbD 6) (rmOf (f.lo.f7.extractLsb' 3 3)) (f.lo.f7.getLsbD 2) (f.lo.f7.getLsbD 1) f.lo.rd f.tb f.tl))
  | 2#4 => mbz (f.tc == 0 && f.lo.f7.extractLsb' 0 6 == 0 && f.lo.rs2 == 0)
      (.ok (.tmma32 (f.lo.f7.getLsbD 6) f.lo.rd f.ta f.tb f.lo.rs1 f.tl))
  | _ => decColl f

/-- A 64-bit word by its group (R194). -/
noncomputable def decodeLong (f : LongFields) : Except DecodeErr Instr :=
  match f.lo.f3 with
  | 0#3 => decCopy f
  | 1#3 => decMatrix f
  | 2#3 => .ok (.liw f.lo.rd f.imm49)
  | 3#3 => mbz (f.sub == 0 && f.tl == 0 && f.tc == 0 && f.tb == 0 && f.ta == 0 && f.lo.f7 == 0 && f.lo.rs2 == 0) (.ok (.ldpairw f.lo.rd f.lo.rs1))
  | _ => .error .group

/-- The instruction of a word, well-formed by construction. -/
noncomputable def decodeCode (c : Code) : Except DecodeErr Instr :=
  match (match c with | .word f => decodeFields f | .long f => decodeLong f) with
  | .error e => .error e
  | .ok i => if i.wf then .ok i else .error .illFormed

/-- The word at the start of a string of bytes, by its length code (R186). -/
def readCode (bs : List Byte) : Except DecodeErr Code :=
  if bs.length < 4 then .error .tooShort
  else
    let w := BitVec.ofNat 32 (leNat (bs.take 4))
    match lengthCode w with
    | .illegal e => .error e
    | .word => .ok (.word (Fields.ofWord w))
    | .long => if bs.length < 8 then .error .tooShort else .ok (.long (LongFields.ofWord (BitVec.ofNat 64 (leNat (bs.take 8)))))

/-- The instruction at the start of a string of bytes. -/
noncomputable def decode (bs : List Byte) : Except DecodeErr Instr :=
  match readCode bs with
  | .error e => .error e
  | .ok c => decodeCode c

/-- The instruction that the decoder reads from the bits `w`, of which the opcode table names the low `nbits`; the others are zero. -/
noncomputable def decodeTableWord (nbits w : Nat) : Option Instr :=
  match decode (leBytes 8 (w % 2 ^ nbits)) with
  | .ok i => some i
  | .error _ => none

/-! The encoder. -/

/-- A word of format R. -/
def encR (op : BitVec 7) (f3 : BitVec 3) (f7 : BitVec 7) (rd rs1 rs2 : Reg) : Option Code := some (.word ⟨f7, rs2, rs1, f3, rd, op⟩)
/-- A word of format I. -/
def encI (op : BitVec 7) (f3 : BitVec 3) (rd rs1 : Reg) (imm : BitVec 12) : Option Code :=
  some (.word ⟨imm.extractLsb' 5 7, imm.extractLsb' 0 5, rs1, f3, rd, op⟩)
/-- A word of format S. -/
def encS (op : BitVec 7) (f3 : BitVec 3) (rs2 rs1 : Reg) (imm : BitVec 12) : Option Code :=
  some (.word ⟨imm.extractLsb' 5 7, rs2, rs1, f3, imm.extractLsb' 0 5, op⟩)
/-- A word of format B. -/
def encB (f3 : BitVec 3) (rs1 rs2 : Reg) (off : BitVec 12) : Option Code :=
  some (.word ⟨off.extractLsb' 11 1 ++ off.extractLsb' 4 6, rs2, rs1, f3, off.extractLsb' 0 4 ++ off.extractLsb' 10 1, 0x63⟩)
/-- A word of format U. -/
def encU (op : BitVec 7) (rd : Reg) (imm : BitVec 20) : Option Code :=
  some (.word ⟨imm.extractLsb' 13 7, imm.extractLsb' 8 5, imm.extractLsb' 3 5, imm.extractLsb' 0 3, rd, op⟩)
/-- A word of format J. -/
def encJ (rd : Reg) (off : BitVec 20) : Option Code :=
  some (.word ⟨off.extractLsb' 19 1 ++ off.extractLsb' 4 6, off.extractLsb' 0 4 ++ off.extractLsb' 10 1, off.extractLsb' 14 5, off.extractLsb' 11 3, rd, 0x6F⟩)
/-- A word whose [31:26] selects and whose [25:20] is a shift amount. -/
def encSh (f3 : BitVec 3) (f6 : BitVec 6) (rd rs1 : Reg) (sh : BitVec 6) : Option Code :=
  some (.word ⟨f6 ++ sh.extractLsb' 5 1, sh.extractLsb' 0 5, rs1, f3, rd, 0x13⟩)
/-- A word of format FF. -/
def encFF (f5 : BitVec 5) (fmt : FpFmt) (rm : BitVec 3) (rd rs1 rs2 : Reg) : Option Code :=
  some (.word ⟨f5 ++ fpFmtBits fmt, rs2, rs1, rm, rd, 0x53⟩)
/-- A word of format FQ. -/
def encFQ (fsub : BitVec 2) (rm : Rm) (rd rs1 rs2 rs3 : Reg) : Option Code := some (.word ⟨rs3 ++ fsub, rs2, rs1, rmBits rm, rd, 0x43⟩)
/-- A word of format AT. -/
def encAT (op : BitVec 4) (dw : Bool) (ord : BitVec 2) (sc : Scope) (rd rs1 rs2 : Reg) : Option Code :=
  some (.word ⟨op ++ bit dw ++ ord, rs2, rs1, scopeBits sc, rd, 0x2F⟩)
/-- A word of format FB. -/
def encFB (f3 : BitVec 3) (ord : BitVec 2) (bar : BitVec 6) (sc : BitVec 3) (rd rs1 : Reg) : Option Code :=
  some (.word ⟨ord ++ bar.extractLsb' 1 5, bar.extractLsb' 0 1 ++ 0#1 ++ sc, rs1, f3, rd, 0x0F⟩)
/-- A word of format SY. -/
def encSY (f3 : BitVec 3) (sub : BitVec 7) (rd rs1 rs2 : Reg) : Option Code := some (.word ⟨sub, rs2, rs1, f3, rd, 0x73⟩)
/-- A word of format SR. -/
def encSR (f3 : BitVec 3) (r : SReg) (rd rs1 : Reg) : Option Code :=
  some (.word ⟨(BitVec.ofNat 12 r.number).extractLsb' 5 7, (BitVec.ofNat 12 r.number).extractLsb' 0 5, rs1, f3, rd, 0x73⟩)
/-- A word of format TH. -/
def encTH (sub : BitVec 4) (t : Handle) (rs1 rd : Reg) : Option Code :=
  some (.word ⟨sub ++ t.extractLsb' 5 3, t.extractLsb' 0 5, rs1, 7, rd, 0x73⟩)
/-- A word of format PK. -/
def encPK (f7 : BitVec 7) (l : Lanes) (rd rs1 rs2 : Reg) : Option Code := some (.word ⟨f7, rs2, rs1, lanesBits l, rd, 0x7B⟩)
/-- A word of format VA. -/
def encVA (f6 : BitVec 6) (kind : BitVec 3) (m : Bool) (vd vs2 s1 : Reg) : Option Code := some (.word ⟨f6 ++ bit m, vs2, s1, kind, vd, 0x57⟩)
/-- An integer vector form. -/
def encVI (f6 : BitVec 6) (m : Bool) (vd vs2 : Reg) (s : VSrc) : Option Code := encVA f6 (vsrcKind s) m vd vs2 (vsrcField s)
/-- An FP vector form. -/
def encVF (f6 : BitVec 6) (m : Bool) (vd vs2 : Reg) (s : FSrc) : Option Code := encVA f6 (fsrcKind s) m vd vs2 (fsrcField s)
/-- A word of format VM. -/
def encVM (f6 : BitVec 6) (w : BitVec 3) (m : Bool) (vd rs1 rs2 : Reg) : Option Code := some (.word ⟨f6 ++ bit m, rs2, rs1, w, vd, 0x5B⟩)
/-- A word of format W. -/
def encW (group : BitVec 3) (sub : BitVec 4) (tl : Tl) (tc tb ta : Handle) (f7 : BitVec 7) (rd rs1 rs2 : Reg) : Option Code :=
  some (.long ⟨sub, tl, tc, tb, ta, ⟨f7, rs2, rs1, group, rd, 0x3F⟩⟩)
/-- A collective. -/
def encColl (sub : BitVec 4) (f : Bool) (g : BitVec 3) (vd vs rs2 : Reg) : Option Code := encW 1 sub 0 0 0 (0#5 ++ g) (0#6 ++ bit f) vd vs rs2

/-- The word of an instruction; an event has none. -/
def encode : Instr → Option Code
  | .lui rd imm => encU 0x37 rd imm
  | .auipc rd imm => encU 0x17 rd imm
  | .jal rd off => encJ rd off
  | .jalr rd rs1 imm => encI 0x67 0 rd rs1 imm
  | .beq rs1 rs2 off => encB 0 rs1 rs2 off
  | .bne rs1 rs2 off => encB 1 rs1 rs2 off
  | .blt rs1 rs2 off => encB 4 rs1 rs2 off
  | .bge rs1 rs2 off => encB 5 rs1 rs2 off
  | .bltu rs1 rs2 off => encB 6 rs1 rs2 off
  | .bgeu rs1 rs2 off => encB 7 rs1 rs2 off
  | .lb rd rs1 imm => encI 0x03 0 rd rs1 imm
  | .lh rd rs1 imm => encI 0x03 1 rd rs1 imm
  | .lw rd rs1 imm => encI 0x03 2 rd rs1 imm
  | .ld rd rs1 imm => encI 0x03 3 rd rs1 imm
  | .lbu rd rs1 imm => encI 0x03 4 rd rs1 imm
  | .lhu rd rs1 imm => encI 0x03 5 rd rs1 imm
  | .lwu rd rs1 imm => encI 0x03 6 rd rs1 imm
  | .addi rd rs1 imm => encI 0x13 0 rd rs1 imm
  | .slti rd rs1 imm => encI 0x13 2 rd rs1 imm
  | .sltiu rd rs1 imm => encI 0x13 3 rd rs1 imm
  | .xori rd rs1 imm => encI 0x13 4 rd rs1 imm
  | .ori rd rs1 imm => encI 0x13 6 rd rs1 imm
  | .andi rd rs1 imm => encI 0x13 7 rd rs1 imm
  | .addiw rd rs1 imm => encI 0x1B 0 rd rs1 imm
  | .flw rd rs1 imm => encI 0x07 2 rd rs1 imm
  | .fld rd rs1 imm => encI 0x07 3 rd rs1 imm
  | .sb rs2 rs1 imm => encS 0x23 0 rs2 rs1 imm
  | .sh rs2 rs1 imm => encS 0x23 1 rs2 rs1 imm
  | .sw rs2 rs1 imm => encS 0x23 2 rs2 rs1 imm
  | .sd rs2 rs1 imm => encS 0x23 3 rs2 rs1 imm
  | .fsw rs2 rs1 imm => encS 0x27 2 rs2 rs1 imm
  | .fsd rs2 rs1 imm => encS 0x27 3 rs2 rs1 imm
  | .slli rd rs1 sh => encSh 1 0 rd rs1 sh
  | .srli rd rs1 sh => encSh 5 0 rd rs1 sh
  | .srai rd rs1 sh => encSh 5 16 rd rs1 sh
  | .bexti rd rs1 sh => encSh 1 6 rd rs1 sh
  | .rori rd rs1 sh => encSh 5 6 rd rs1 sh
  | .slliw rd rs1 sh => encR 0x1B 1 0 rd rs1 sh
  | .srliw rd rs1 sh => encR 0x1B 5 0 rd rs1 sh
  | .sraiw rd rs1 sh => encR 0x1B 5 32 rd rs1 sh
  | .add rd rs1 rs2 => encR 0x33 0 0 rd rs1 rs2
  | .sll rd rs1 rs2 => encR 0x33 1 0 rd rs1 rs2
  | .slt rd rs1 rs2 => encR 0x33 2 0 rd rs1 rs2
  | .sltu rd rs1 rs2 => encR 0x33 3 0 rd rs1 rs2
  | .xor rd rs1 rs2 => encR 0x33 4 0 rd rs1 rs2
  | .srl rd rs1 rs2 => encR 0x33 5 0 rd rs1 rs2
  | .or rd rs1 rs2 => encR 0x33 6 0 rd rs1 rs2
  | .and rd rs1 rs2 => encR 0x33 7 0 rd rs1 rs2
  | .sub rd rs1 rs2 => encR 0x33 0 32 rd rs1 rs2
  | .sra rd rs1 rs2 => encR 0x33 5 32 rd rs1 rs2
  | .mul rd rs1 rs2 => encR 0x33 0 1 rd rs1 rs2
  | .mulh rd rs1 rs2 => encR 0x33 1 1 rd rs1 rs2
  | .mulhsu rd rs1 rs2 => encR 0x33 2 1 rd rs1 rs2
  | .mulhu rd rs1 rs2 => encR 0x33 3 1 rd rs1 rs2
  | .div rd rs1 rs2 => encR 0x33 4 1 rd rs1 rs2
  | .divu rd rs1 rs2 => encR 0x33 5 1 rd rs1 rs2
  | .rem rd rs1 rs2 => encR 0x33 6 1 rd rs1 rs2
  | .remu rd rs1 rs2 => encR 0x33 7 1 rd rs1 rs2
  | .addw rd rs1 rs2 => encR 0x3B 0 0 rd rs1 rs2
  | .sllw rd rs1 rs2 => encR 0x3B 1 0 rd rs1 rs2
  | .srlw rd rs1 rs2 => encR 0x3B 5 0 rd rs1 rs2
  | .subw rd rs1 rs2 => encR 0x3B 0 32 rd rs1 rs2
  | .sraw rd rs1 rs2 => encR 0x3B 5 32 rd rs1 rs2
  | .mulw rd rs1 rs2 => encR 0x3B 0 1 rd rs1 rs2
  | .divw rd rs1 rs2 => encR 0x3B 4 1 rd rs1 rs2
  | .divuw rd rs1 rs2 => encR 0x3B 5 1 rd rs1 rs2
  | .remw rd rs1 rs2 => encR 0x3B 6 1 rd rs1 rs2
  | .remuw rd rs1 rs2 => encR 0x3B 7 1 rd rs1 rs2
  | .andn rd rs1 rs2 => encR 0x33 0 12 rd rs1 rs2
  | .rol rd rs1 rs2 => encR 0x33 1 12 rd rs1 rs2
  | .ror rd rs1 rs2 => encR 0x33 5 12 rd rs1 rs2
  | .bext rd rs1 rs2 => encR 0x33 7 12 rd rs1 rs2
  | .clz rd rs1 => encR 0x33 2 12 rd rs1 0
  | .ctz rd rs1 => encR 0x33 3 12 rd rs1 0
  | .cpop rd rs1 => encR 0x33 4 12 rd rs1 0
  | .rev8 rd rs1 => encR 0x33 6 12 rd rs1 0
  | .liw rd imm => some (.long ⟨imm.extractLsb' 45 4, imm.extractLsb' 41 4, imm.extractLsb' 33 8, imm.extractLsb' 25 8, imm.extractLsb' 17 8, ⟨imm.extractLsb' 10 7, imm.extractLsb' 5 5, imm.extractLsb' 0 5, 2, rd, 0x3F⟩⟩)
  | .fadd fmt rm rd rs1 rs2 => encFF 0 fmt (rmBits rm) rd rs1 rs2
  | .fsub fmt rm rd rs1 rs2 => encFF 1 fmt (rmBits rm) rd rs1 rs2
  | .fmul fmt rm rd rs1 rs2 => encFF 2 fmt (rmBits rm) rd rs1 rs2
  | .fdiv fmt rm rd rs1 rs2 => encFF 3 fmt (rmBits rm) rd rs1 rs2
  | .fsqrt fmt rm rd rs1 => encFF 4 fmt (rmBits rm) rd rs1 0
  | .fcvtf fmt rm rd rs1 => encFF 10 fmt (rmBits rm) rd rs1 0
  | .fround fmt rm rd rs1 => encFF 16 fmt (rmBits rm) rd rs1 0
  | .fsgnj fmt rd rs1 rs2 => encFF 5 fmt 0 rd rs1 rs2
  | .fsgnjN fmt rd rs1 rs2 => encFF 5 fmt 1 rd rs1 rs2
  | .fsgnjX fmt rd rs1 rs2 => encFF 5 fmt 2 rd rs1 rs2
  | .fmin fmt rd rs1 rs2 => encFF 6 fmt 0 rd rs1 rs2
  | .fmax fmt rd rs1 rs2 => encFF 7 fmt 0 rd rs1 rs2
  | .fcmpLe fmt rd rs1 rs2 => encFF 8 fmt 0 rd rs1 rs2
  | .fcmpLt fmt rd rs1 rs2 => encFF 8 fmt 1 rd rs1 rs2
  | .fcmpEq fmt rd rs1 rs2 => encFF 8 fmt 2 rd rs1 rs2
  | .fclass fmt rd rs1 => encFF 9 fmt 0 rd rs1 0
  | .fmvx fmt rd rs1 => encFF 14 fmt 0 rd rs1 0
  | .fmvf fmt rd rs1 => encFF 15 fmt 0 rd rs1 0
  | .fcvti fmt ty rm rd rs1 => encFF 11 fmt (rmBits rm) rd rs1 (intTyBits ty)
  | .fcvtx fmt ty rm rd rs1 => encFF 12 fmt (rmBits rm) rd rs1 (intTyBits ty)
  | .fexp2 rd rs1 => encFF 13 .f32 0 rd rs1 0
  | .fmaddF32 rm rd rs1 rs2 rs3 => encFQ 0 rm rd rs1 rs2 rs3
  | .fmaddF64 rm rd rs1 rs2 rs3 => encFQ 1 rm rd rs1 rs2 rs3
  | .fnmaddF32 rm rd rs1 rs2 rs3 => encFQ 2 rm rd rs1 rs2 rs3
  | .fnmaddF64 rm rd rs1 rs2 rs3 => encFQ 3 rm rd rs1 rs2 rs3
  | .lda dw sc rd rs1 => encAT 0 dw 0 sc rd rs1 0
  | .stl dw sc rs2 rs1 => encAT 1 dw 0 sc 0 rs1 rs2
  | .amoswap dw ord sc rd rs2 rs1 => encAT 2 dw (ordBits ord) sc rd rs1 rs2
  | .amoadd dw ord sc rd rs2 rs1 => encAT 3 dw (ordBits ord) sc rd rs1 rs2
  | .amoand dw ord sc rd rs2 rs1 => encAT 4 dw (ordBits ord) sc rd rs1 rs2
  | .amoor dw ord sc rd rs2 rs1 => encAT 5 dw (ordBits ord) sc rd rs1 rs2
  | .amoxor dw ord sc rd rs2 rs1 => encAT 6 dw (ordBits ord) sc rd rs1 rs2
  | .amomin dw ord sc rd rs2 rs1 => encAT 7 dw (ordBits ord) sc rd rs1 rs2
  | .amomax dw ord sc rd rs2 rs1 => encAT 8 dw (ordBits ord) sc rd rs1 rs2
  | .amominu dw ord sc rd rs2 rs1 => encAT 9 dw (ordBits ord) sc rd rs1 rs2
  | .amomaxu dw ord sc rd rs2 rs1 => encAT 10 dw (ordBits ord) sc rd rs1 rs2
  | .amocas dw ord sc rd rs2 rs1 => encAT 11 dw (ordBits ord) sc rd rs1 rs2
  | .amofadd dw ord sc rd rs2 rs1 => encAT 12 dw (ordBits ord) sc rd rs1 rs2
  | .fence o sc => encFB 4 (fenceOrdBits o) 0 (scopeBits sc) 0 0
  | .barrive sc rd b rs1 => encFB 5 0 b (scopeBits sc) rd rs1
  | .barwait sc b rs1 => encFB 6 0 b (scopeBits sc) 0 rs1
  | .sdrain => encFB 7 0 0 0 0 0
  | .tlwait rd tl rs1 => encSY 6 0 rd rs1 (0#1 ++ tl)
  | .tlread rd tl => encSY 6 1 rd 0 (0#1 ++ tl)
  | .tlreadT rd tl => encSY 6 2 rd 0 (0#1 ++ tl)
  | .msend rd rs1 rs2 => encSY 6 8 rd rs1 rs2
  | .mwaitf rd rt rs1 => encSY 6 9 rd rs1 rt
  | .capdeleg rd k rs1 => encSY 6 16 rd rs1 (0#1 ++ k)
  | .caprevoke rs1 => encSY 6 17 0 rs1 0
  | .capcheck rd k rs1 => encSY 6 18 rd rs1 (0#1 ++ k)
  | .syscall => encSY 0 1 0 0 0
  | .tret => encSY 0 2 0 0 0
  | .brk => encSY 0 3 0 0 0
  | .yield => encSY 0 5 0 0 0
  | .texit => encSY 0 6 0 0 0
  | .wfe rd rs1 => encSY 0 4 rd rs1 0
  | .migrate rs1 => encSY 0 7 0 rs1 0
  | .srrd rd r => encSR 1 r rd 0
  | .srwr rd r rs1 => encSR 2 r rd rs1
  | .srset rd r rs1 => encSR 3 r rd rs1
  | .srclr rd r rs1 => encSR 4 r rd rs1
  | .tlbinv sc rs1 rs2 => encSY 5 (0#4 ++ scopeBits sc) 0 rs1 rs2
  | .lineopIcinv sc rs1 => encSY 5 (1#4 ++ scopeBits sc) 0 rs1 0
  | .lineopZero rs1 => encSY 5 (1#4 ++ 0#3) 0 rs1 1
  | .lineopClean rs1 => encSY 5 (1#4 ++ 0#3) 0 rs1 2
  | .pfx nf sat rm => some (.word ⟨0, 0, 0#3 ++ bit nf ++ bit sat, rmBits rm, 0, 0x0B⟩)
  | .padd l rd rs1 rs2 => encPK 0 l rd rs1 rs2
  | .psub l rd rs1 rs2 => encPK 1 l rd rs1 rs2
  | .padds l rd rs1 rs2 => encPK 2 l rd rs1 rs2
  | .psubs l rd rs1 rs2 => encPK 3 l rd rs1 rs2
  | .paddus l rd rs1 rs2 => encPK 4 l rd rs1 rs2
  | .psubus l rd rs1 rs2 => encPK 5 l rd rs1 rs2
  | .pmul l rd rs1 rs2 => encPK 6 l rd rs1 rs2
  | .pmulq l rd rs1 rs2 => encPK 7 l rd rs1 rs2
  | .pmin l rd rs1 rs2 => encPK 8 l rd rs1 rs2
  | .pmax l rd rs1 rs2 => encPK 9 l rd rs1 rs2
  | .psll l rd rs1 rs2 => encPK 10 l rd rs1 rs2
  | .psrl l rd rs1 rs2 => encPK 11 l rd rs1 rs2
  | .psra l rd rs1 rs2 => encPK 12 l rd rs1 rs2
  | .pssl l rd rs1 rs2 => encPK 13 l rd rs1 rs2
  | .pavg l rd rs1 rs2 => encPK 14 l rd rs1 rs2
  | .pcvt s d rd rs1 => some (.word ⟨1#3 ++ BitVec.ofNat 4 s.code, BitVec.ofNat 5 d.code, rs1, 0, rd, 0x7B⟩)
  | .talloc rd t rs1 => encTH 0 t rs1 rd
  | .tfree t => encTH 1 t 0 0
  | .tlockR t => encTH 2 t 0 0
  | .tlockW t => encTH 3 t 0 0
  | .tunlock t => encTH 4 t 0 0
  | .tzero t => encTH 5 t 0 0
  | .trdx rd t rs1 => encTH 6 t rs1 rd
  | .twrx t rs1 rv => encTH 7 t rs1 rv
  | .tqueryLo rd t => encTH 8 t 0 rd
  | .tqueryHi rd t => encTH 9 t 0 rd
  | .tload rd ta rs1 rs2 tl => encW 0 0 tl 0 0 ta 0 rd rs1 rs2
  | .tstore rd ta rs1 rs2 tl => encW 0 1 tl 0 0 ta 0 rd rs1 rs2
  | .tcopyT rd tb ta rs2 tl => encW 0 2 tl 0 tb ta 0 rd 0 rs2
  | .tcopyM rd rdst rs1 rs2 tl => encW 0 3 tl (0#3 ++ rdst) 0 0 0 rd rs1 rs2
  | .tmma bank sh za rd ta tb rs1 rs2 tl => encW 1 0 tl 0 tb ta (bit bank ++ bit sh ++ bit za ++ 0#4) rd rs1 rs2
  | .taccrd bank rm sat clr rd tb tl => encW 1 1 tl 0 tb 0 (bit bank ++ rmBits rm ++ bit sat ++ bit clr ++ 0#1) rd 0 0
  | .tmma32 bank rd ta tb rs1 tl => encW 1 2 tl 0 tb ta (bit bank ++ 0#6) rd rs1 0
  | .setvl rd rs1 => encVM 0 7 false rd rs1 0
  | .setvli rd imm => encVM 1 7 false rd (imm.extractLsb' 0 5) (imm.extractLsb' 5 5)
  | .setshape rd rs1 rs2 => encVM 2 7 false rd rs1 rs2
  | .grpset g rs1 rs2 => encVM 3 7 false (0#2 ++ g) rs1 rs2
  | .vle m w vd rs1 => encVM 0 (ewBits w) m vd rs1 0
  | .vse m w vd rs1 => encVM 1 (ewBits w) m vd rs1 0
  | .vleff m w vd rs1 => encVM 6 (ewBits w) m vd rs1 0
  | .vlse m w vd rs1 r2 => encVM 2 (ewBits w) m vd rs1 r2
  | .vsse m w vd rs1 r2 => encVM 3 (ewBits w) m vd rs1 r2
  | .vlxe m w vd rs1 r2 => encVM 4 (ewBits w) m vd rs1 r2
  | .vsxe m w vd rs1 r2 => encVM 5 (ewBits w) m vd rs1 r2
  | .vadd m vd vs2 s => encVI 0 m vd vs2 s
  | .vsub m vd vs2 s => encVI 1 m vd vs2 s
  | .vrsub m vd vs2 s => encVI 2 m vd vs2 s
  | .vsadd m vd vs2 s => encVI 3 m vd vs2 s
  | .vssub m vd vs2 s => encVI 4 m vd vs2 s
  | .vsaddu m vd vs2 s => encVI 5 m vd vs2 s
  | .vssubu m vd vs2 s => encVI 6 m vd vs2 s
  | .vmul m vd vs2 s => encVI 7 m vd vs2 s
  | .vmulh m vd vs2 s => encVI 8 m vd vs2 s
  | .vmulhu m vd vs2 s => encVI 9 m vd vs2 s
  | .vdiv m vd vs2 s => encVI 10 m vd vs2 s
  | .vdivu m vd vs2 s => encVI 11 m vd vs2 s
  | .vrem m vd vs2 s => encVI 12 m vd vs2 s
  | .vremu m vd vs2 s => encVI 13 m vd vs2 s
  | .vmin m vd vs2 s => encVI 14 m vd vs2 s
  | .vmax m vd vs2 s => encVI 15 m vd vs2 s
  | .vminu m vd vs2 s => encVI 16 m vd vs2 s
  | .vmaxu m vd vs2 s => encVI 17 m vd vs2 s
  | .vand m vd vs2 s => encVI 18 m vd vs2 s
  | .vor m vd vs2 s => encVI 19 m vd vs2 s
  | .vxor m vd vs2 s => encVI 20 m vd vs2 s
  | .vsll m vd vs2 s => encVI 21 m vd vs2 s
  | .vsrl m vd vs2 s => encVI 22 m vd vs2 s
  | .vsra m vd vs2 s => encVI 23 m vd vs2 s
  | .vssl m vd vs2 s => encVI 24 m vd vs2 s
  | .vmseq m vd vs2 s => encVI 25 m vd vs2 s
  | .vmsne m vd vs2 s => encVI 26 m vd vs2 s
  | .vmslt m vd vs2 s => encVI 27 m vd vs2 s
  | .vmsltu m vd vs2 s => encVI 28 m vd vs2 s
  | .vmsle m vd vs2 s => encVI 29 m vd vs2 s
  | .vmerge vd vs2 s => encVI 30 true vd vs2 s
  | .vmv m vd s => encVI 31 m vd 0 s
  | .vfadd m vd vs2 s => encVF 32 m vd vs2 s
  | .vfsub m vd vs2 s => encVF 33 m vd vs2 s
  | .vfmul m vd vs2 s => encVF 34 m vd vs2 s
  | .vfdiv m vd vs2 s => encVF 35 m vd vs2 s
  | .vfmin m vd vs2 s => encVF 37 m vd vs2 s
  | .vfmax m vd vs2 s => encVF 38 m vd vs2 s
  | .vfma m vd vs2 s => encVF 39 m vd vs2 s
  | .vfnma m vd vs2 s => encVF 40 m vd vs2 s
  | .vmfeq m vd vs2 s => encVF 42 m vd vs2 s
  | .vmflt m vd vs2 s => encVF 43 m vd vs2 s
  | .vmfle m vd vs2 s => encVF 44 m vd vs2 s
  | .vfsqrt m vd vs2 => encVA 0x24 0 m vd vs2 0
  | .vfexp2 m vd vs2 => encVA 0x29 0 m vd vs2 0
  | .vfcvtd m t vd vs2 => encVA 0x2D 0 m vd vs2 (BitVec.ofNat 5 t.code)
  | .vfcvts m t vd vs2 => encVA 0x2E 0 m vd vs2 (BitVec.ofNat 5 t.code)
  | .vredsum m vd vs2 s1 => encVA 0 5 m vd vs2 s1
  | .vredmax m vd vs2 s1 => encVA 1 5 m vd vs2 s1
  | .vredmin m vd vs2 s1 => encVA 2 5 m vd vs2 s1
  | .vfredsum m vd vs2 s1 => encVA 3 5 m vd vs2 s1
  | .vfredmax m vd vs2 s1 => encVA 4 5 m vd vs2 s1
  | .vscan m vd vs2 s1 => encVA 5 5 m vd vs2 s1
  | .vslideup m vd vs2 s1 => encVA 8 5 m vd vs2 s1
  | .vslidedown m vd vs2 s1 => encVA 9 5 m vd vs2 s1
  | .vrgather m vd vs2 s1 => encVA 10 5 m vd vs2 s1
  | .vcompress vd vs2 => encVA 11 5 true vd vs2 0
  | .vextx rd vs2 rs1 => encVA 12 5 false rd vs2 rs1
  | .vinsx vd rs1 => encVA 13 5 false vd 0 rs1
  | .vmand m vd vs2 vs1 => encVA 0 6 m vd vs2 vs1
  | .vmandn m vd vs2 vs1 => encVA 1 6 m vd vs2 vs1
  | .vmor m vd vs2 vs1 => encVA 2 6 m vd vs2 vs1
  | .vmxor m vd vs2 vs1 => encVA 3 6 m vd vs2 vs1
  | .vmpopc m rd vs2 => encVA 4 6 m rd vs2 0
  | .vmfirst m rd vs2 => encVA 5 6 m rd vs2 0
  | .vdot4 m vd vs2 vs1 => encVA 0x30 0 m vd vs2 vs1
  | .ldpairw vd rs1 => encW 3 0 0 0 0 0 0 vd rs1 0
  | .mmodeOn => encVA 0 4 false 0 0 0
  | .mmodeOff => encVA 1 4 false 0 0 0
  | .vopaBf16 m va vb => encVA 2 4 m 0 va vb
  | .vopaF16 m va vb => encVA 3 4 m 0 va vb
  | .vopaE4m3 m va vb => encVA 4 4 m 0 va vb
  | .vopaE5m2 m va vb => encVA 5 4 m 0 va vb
  | .vaccz => encVA 6 4 false 0 0 0
  | .vsmx m vd vs2 fa => encVA 8 4 m vd vs2 fa
  | .vcollSum f vd vs g => encColl 8 f g vd vs 0
  | .vcollMax f vd vs g => encColl 9 f g vd vs 0
  | .vcollMin f vd vs g => encColl 10 f g vd vs 0
  | .vcollSmerge vd vs g xd => encColl 11 false g vd vs xd
  | .vcollGather vd vs g => encColl 12 false g vd vs 0
  | .vcollScatter vd vs g xr => encColl 13 false g vd vs xr
  | .vcollBcast vd vs g xr => encColl 14 false g vd vs xr
  | _ => none

end Sys2Proof
end

