-- ==== Sys2Proof/Machine/Formats.lean ====
section
/-! DEFINITION. Number formats: the exact values that the bits of each format stand for (R163 to R170). -/

namespace Sys2Proof.Machine

/-- The exact value of an operand or of an operation (R8): a NaN, quiet or signalling, an infinity, or ± m × 2^e. -/
inductive Val where
  | nan (signalling : Bool)
  | inf (neg : Bool)
  | num (neg : Bool) (m : Nat) (e : Int)
  deriving DecidableEq, Repr

/-- Zero with a sign. -/
def Val.zero (neg : Bool) : Val := .num neg 0 0

/-- An integer, exactly; zero is +0. -/
def Val.ofInt (i : Int) : Val := .num (decide (i < 0)) i.natAbs 0

/-- The value with the other sign; a NaN stays. -/
def Val.negate : Val → Val
  | .nan s => .nan s
  | .inf n => .inf (!n)
  | .num n m e => .num (!n) m e

/-- Whether the value is a NaN. -/
def Val.isNan : Val → Bool
  | .nan _ => true
  | _ => false

/-- Whether the value is a signalling NaN. -/
def Val.isSnan : Val → Bool
  | .nan s => s
  | _ => false

/-- A binary floating-point format: exponent bits, fraction bits, and whether it has infinities (R165, R166). E4M3 has none, and only its
all-ones pattern is a NaN. -/
structure BinFmt where
  eb : Nat
  fb : Nat
  hasInf : Bool
  deriving DecidableEq, Repr

/-- FP64 (R165). -/
def fp64 : BinFmt := ⟨11, 52, true⟩
/-- FP32 (R165). -/
def fp32 : BinFmt := ⟨8, 23, true⟩
/-- FP16 (R165). -/
def fp16 : BinFmt := ⟨5, 10, true⟩
/-- BF16 (R165). -/
def bf16 : BinFmt := ⟨8, 7, true⟩
/-- E4M3 (R166). -/
def e4m3 : BinFmt := ⟨4, 3, false⟩
/-- E5M2 (R166). -/
def e5m2 : BinFmt := ⟨5, 2, true⟩

/-- The bias. -/
def BinFmt.bias (f : BinFmt) : Int := 2 ^ (f.eb - 1) - 1
/-- The exponent of the smallest normal. -/
def BinFmt.emin (f : BinFmt) : Int := 1 - f.bias
/-- The exponent of the largest finite value: E4M3 uses its all-ones exponent too. -/
def BinFmt.emax (f : BinFmt) : Int := if f.hasInf then f.bias else f.bias + 1
/-- The significand of the largest finite value, as an integer of fb + 1 bits. -/
def BinFmt.maxSig (f : BinFmt) : Nat := if f.hasInf then 2 ^ (f.fb + 1) - 1 else 2 ^ (f.fb + 1) - 2
/-- The width in bits. -/
def BinFmt.width (f : BinFmt) : Nat := f.eb + f.fb + 1

/-- The canonical NaN: a set quiet bit alone, or 0x7F for E4M3 (R165, R166). -/
def BinFmt.canonicalNan (f : BinFmt) : Nat :=
  if f.hasInf then (2 ^ f.eb - 1) * 2 ^ f.fb + 2 ^ (f.fb - 1) else 2 ^ (f.eb + f.fb) - 1

/-- A magnitude with a sign bit. -/
def BinFmt.signed (f : BinFmt) (neg : Bool) (mag : Nat) : Nat := (if neg then 2 ^ (f.eb + f.fb) else 0) + mag

/-- The pattern of an infinity. -/
def BinFmt.infBits (f : BinFmt) (neg : Bool) : Nat := f.signed neg ((2 ^ f.eb - 1) * 2 ^ f.fb)

/-- The pattern of the largest finite value. -/
def BinFmt.maxBits (f : BinFmt) (neg : Bool) : Nat :=
  f.signed neg (if f.hasInf then (2 ^ f.eb - 1) * 2 ^ f.fb - 1 else 2 ^ (f.eb + f.fb) - 2)

/-- The exact value of a pattern. A NaN whose top fraction bit is clear is signalling; E4M3's is quiet (log 16). -/
def BinFmt.value (f : BinFmt) (bits : Nat) : Val :=
  let s := bits / 2 ^ (f.eb + f.fb) % 2 = 1
  let ex := bits / 2 ^ f.fb % 2 ^ f.eb
  let fr := bits % 2 ^ f.fb
  if ex = 2 ^ f.eb - 1 then
    if f.hasInf then
      if fr = 0 then .inf s else .nan (decide (fr / 2 ^ (f.fb - 1) = 0))
    else if fr = 2 ^ f.fb - 1 then .nan false
    else .num s (2 ^ f.fb + fr) (ex - f.bias - f.fb)
  else if ex = 0 then .num s fr (f.emin - f.fb)
  else .num s (2 ^ f.fb + fr) (ex - f.bias - f.fb)

/-- The magnitude codes of E2M1 in halves (R167). -/
def e2m1Halves (c : Nat) : Nat :=
  match c % 8 with
  | 0 => 0 | 1 => 1 | 2 => 2 | 3 => 3 | 4 => 4 | 5 => 6 | 6 => 8 | _ => 12

/-- An n-bit number read as two's complement. -/
def toSigned (n bits : Nat) : Int :=
  let b := bits % 2 ^ n
  if 2 ^ n ≤ 2 * b then (b : Int) - 2 ^ n else b

/-- An integer as n bits of two's complement. -/
def ofSigned (n : Nat) (i : Int) : Nat := (i % 2 ^ n).toNat

/-- The exponent L of an LNS6 byte in quarters, from −16 to 15; −16 is the reserved code (R170). -/
def lnsExp (byte : Nat) : Int := toSigned 5 byte

/-- The sign of an LNS6 byte. -/
def lnsNeg (byte : Nat) : Bool := decide (byte / 32 % 2 = 1)

/-- The 2^(f/4) for f = 0 to 3, as integers over 2^128 with a sticky last bit: 2^(f/4) is irrational for f ≠ 0, so the bits below are nonzero. -/
def quarterRoot (f : Nat) : Nat :=
  match f with
  | 0 => 2 ^ 129
  | 1 => 2 * 404666211852346594250993303657235475948 + 1
  | 2 => 2 * 481231938336009023090067544955250113854 + 1
  | _ => 2 * 572284445035732655173711722608636624828 + 1

/-- The value of an LNS6 byte at scale 127 (R170): zero, NaR as a quiet NaN, or (−1)^S × 2^L. -/
def lnsValue (byte : Nat) : Val :=
  let l := lnsExp byte
  if l = -16 then (if lnsNeg byte then .nan false else .zero false)
  else .num (lnsNeg byte) (quarterRoot (l % 4).toNat) (l / 4 - 129)

/-- The value of an element of a format at scale 127 (R163 to R170). -/
def fmtValue (f : Fmt) (bits : Nat) : Val :=
  match f with
  | .int8 => .ofInt (toSigned 8 bits)
  | .uint8 => .ofInt (bits % 256)
  | .int16 => .ofInt (toSigned 16 bits)
  | .int32 => .ofInt (toSigned 32 bits)
  | .int4 => .ofInt (toSigned 4 bits)
  | .fp64 => fp64.value bits
  | .fp32 => fp32.value bits
  | .fp16 => fp16.value bits
  | .bf16 => bf16.value bits
  | .e4m3 => e4m3.value bits
  | .e5m2 => e5m2.value bits
  | .mxfp4 => .num (decide (bits / 8 % 2 = 1)) (e2m1Halves bits) (-1)
  | .lns6 => lnsValue bits

end Sys2Proof.Machine
end

