-- ==== Sys2Proof/Machine/Flags.lean ====
section
/-! DEFINITION. Rounding and the flags it raises (R164, R170 to R176, R408), and the conversions between formats. -/

namespace Sys2Proof.Machine

/-- The accrued exception flags NV, DZ, OF, UF, NX in bits 4 to 0, as FFLAGS holds them (R173). -/
abbrev FpFlags := BitVec 5

/-- Invalid operation. -/
def flagNV : FpFlags := 16
/-- Division by zero. -/
def flagDZ : FpFlags := 8
/-- Overflow. -/
def flagOF : FpFlags := 4
/-- Underflow. -/
def flagUF : FpFlags := 2
/-- Inexact. -/
def flagNX : FpFlags := 1

/-- A flag raised on a condition. -/
def flagIf (c : Bool) (f : FpFlags) : FpFlags := if c then f else 0

/-- A rounding in force: the effective mode, the effective saturation bit (R171), and the seed and element index that DSR hashes (R176). -/
structure Rounding where
  mode : Rm
  sat : Bool
  seed : BitVec 32
  idx : Nat
  deriving DecidableEq, Repr

/-- Round to nearest, ties to even, without saturation. -/
def rne : Rounding := ⟨.rne, false, 0, 0⟩

/-- The hash of R176, its upper half. -/
def dsrHash (seed : BitVec 32) (idx : Nat) : Nat :=
  let h := seed ^^^ BitVec.ofNat 32 idx
  let h := h * 0x2C1B3C6D#32
  let h := h ^^^ (h >>> 15)
  let h := h * 0x297A2D39#32
  let h := h ^^^ (h >>> 12)
  h.toNat / 2 ^ 16

/-- Whether a magnitude with low neighbour `lo` and discarded fraction `rem` / 2^d, which is not zero, rounds to the higher neighbour (R171,
R176). -/
def roundsAway (r : Rounding) (neg : Bool) (lo rem d : Nat) : Bool :=
  match r.mode with
  | .rne | .dyn => decide (2 ^ d < 2 * rem) || (decide (2 ^ d = 2 * rem) && decide (lo % 2 = 1))
  | .rtz => false
  | .rdn => neg
  | .rup => !neg
  | .rna => decide (2 ^ d ≤ 2 * rem)
  | .rod => decide (lo % 2 = 0)
  | .dsr => decide (dsrHash r.seed r.idx < rem * 2 ^ 16 / 2 ^ d)

/-- A magnitude m × 2^e rounded to a multiple of 2^q: the multiple, whether it is inexact, and whether it was rounded away from zero. -/
def roundMag (r : Rounding) (neg : Bool) (m : Nat) (e q : Int) : Nat × Bool × Bool :=
  if q ≤ e then (m * 2 ^ (e - q).toNat, false, false)
  else
    let d := (q - e).toNat
    let lo := m / 2 ^ d
    let rem := m % 2 ^ d
    if rem = 0 then (lo, false, false)
    else if roundsAway r neg lo rem d then (lo + 1, true, true)
    else (lo, true, false)

/-- The number of bits of a number; 0 for 0. -/
def bitLen (m : Nat) : Nat := if m = 0 then 0 else m.log2 + 1

/-- What an overflow gives (R175): whether the result is ± largest finite. -/
def overflowFinite (r : Rounding) (neg away : Bool) : Bool :=
  r.sat ||
  match r.mode with
  | .rne | .rna | .dyn => false
  | .dsr => !away
  | .rtz | .rod => true
  | .rdn => !neg
  | .rup => neg

/-- A value rounded to a binary format (R174, R175, R408): its bits and the flags raised. An infinity converts to E4M3 as R408 gives. UF is raised
when the result is inexact and, rounded with an unbounded exponent range, is below the smallest normal (R173, log 17). -/
def roundTo (f : BinFmt) (r : Rounding) (v : Val) : Nat × FpFlags :=
  match v with
  | .nan s => (f.canonicalNan, flagIf s flagNV)
  | .inf neg =>
    if f.hasInf then (f.infBits neg, 0)
    else if r.sat then (f.maxBits neg, flagOF ||| flagNX)
    else (f.canonicalNan, flagNV)
  | .num neg m e =>
    if m = 0 then (f.signed neg 0, 0)
    else
      let ex : Int := e + bitLen m - 1
      let q := max ex f.emin - f.fb
      let (sig, inexact, away) := roundMag r neg m e q
      let top : Int := q + bitLen sig - 1
      let above := sig ≠ 0 ∧ (f.emax < top ∨ (top = f.emax ∧ f.maxSig < sig ∧ bitLen sig = f.fb + 1))
      if above then
        (if overflowFinite r neg away then f.maxBits neg else if f.hasInf then f.infBits neg else f.canonicalNan,
          flagOF ||| flagNX)
      else
        let (sig', _, _) := roundMag r neg m e (ex - f.fb)
        let tiny := ex - f.fb + bitLen sig' - 1 < f.emin
        let mag := if sig < 2 ^ f.fb then sig else if bitLen sig = f.fb + 2
          then ((q + 1 + f.fb + f.bias).toNat) * 2 ^ f.fb
          else ((q + f.fb + f.bias).toNat) * 2 ^ f.fb + (sig - 2 ^ f.fb)
        (f.signed neg mag, flagIf inexact flagNX ||| flagIf (inexact && decide tiny) flagUF)

/-- A value rounded to an integer: none for a NaN or an infinity; else the integer and whether it is inexact (R174). -/
def roundInt (r : Rounding) (v : Val) : Option (Int × Bool) :=
  match v with
  | .num neg m e =>
    let (mag, inexact, _) := roundMag r neg m e 0
    some (if neg then -(mag : Int) else mag, inexact)
  | _ => none

/-- A value converted to an integer type of the range lo to hi (R164): the integer and the flags. -/
def toIntRange (r : Rounding) (lo hi : Int) (v : Val) : Int × FpFlags :=
  match v with
  | .nan _ => (0, flagNV)
  | .inf neg => (if neg then lo else hi, flagNV)
  | .num .. =>
    match roundInt r v with
    | none => (0, flagNV)
    | some (i, inexact) => if i < lo then (lo, flagNV) else if hi < i then (hi, flagNV) else (i, flagIf inexact flagNX)

/-- The binary logarithm of x / 2^p, for 2^p ≤ x < 2^(p+1), to `n` bits, by repeated squaring to p bits: the fraction that DSR takes (log 18). -/
def log2Bits (p : Nat) : Nat → Nat → Nat
  | 0, _ => 0
  | n + 1, x =>
    let y := x * x / 2 ^ p
    if 2 ^ (p + 1) ≤ y then 2 ^ n + log2Bits p n (y / 2) else log2Bits p n y

/-- A magnitude m × 2^e rounded as λ in quarters (R170): the rounded 4λ and whether it is inexact. -/
def roundLns (r : Rounding) (neg : Bool) (m : Nat) (e : Int) : Int × Bool :=
  let l := bitLen m
  let k : Int := bitLen (m ^ 4) - 1 + 4 * e
  if 2 ^ (l - 1) = m then (4 * (e + l - 1), false)
  else
    let above := decide (2 ^ (2 * (bitLen (m ^ 4) - 1) + 1) < m ^ 8)
    let away :=
      match r.mode with
      | .rne | .dyn | .rna => above
      | .rtz => false
      | .rdn => neg
      | .rup => !neg
      | .rod => decide (k % 2 = 0)
      | .dsr => decide (dsrHash r.seed r.idx < log2Bits 256 18 (m * 2 ^ 256 / 2 ^ (l - 1)) % 2 ^ 16)
    (if away then k + 1 else k, true)

/-- A value converted to LNS6 at scale 127 (R170, R408): the byte and the flags. -/
def toLns (r : Rounding) (v : Val) : Nat × FpFlags :=
  let sign := fun (neg : Bool) => if neg then 0x20 else 0
  match v with
  | .nan s => (0x30, flagIf s flagNV)
  | .inf neg => if r.sat then (sign neg + 15, flagOF ||| flagNX) else (0x30, flagNV)
  | .num neg m e =>
    if m = 0 then (0x10, 0)
    else
      let (k, inexact) := roundLns r neg m e
      if k < -15 then (0x10, flagUF ||| flagNX)
      else if 15 < k then (if r.sat then sign neg + 15 else 0x30, flagOF ||| flagNX)
      else (sign neg + ofSigned 5 k, flagIf inexact flagNX)

/-- A value written in a format at scale 127: its bits and the flags. MXFP4 is written by no instruction; its elements round as E2M1 magnitudes. -/
def fmtRound (f : Fmt) (r : Rounding) (v : Val) : Nat × FpFlags :=
  let ints := fun (w : Nat) (lo hi : Int) => let (i, fl) := toIntRange r lo hi v; (ofSigned w i, fl)
  match f with
  | .int8 => ints 8 (-128) 127
  | .uint8 => ints 8 0 255
  | .int16 => ints 16 (-32768) 32767
  | .int32 => ints 32 (-2147483648) 2147483647
  | .int4 => ints 4 (-8) 7
  | .fp64 => roundTo fp64 r v
  | .fp32 => roundTo fp32 r v
  | .fp16 => roundTo fp16 r v
  | .bf16 => roundTo bf16 r v
  | .e4m3 => roundTo e4m3 r v
  | .e5m2 => roundTo e5m2 r v
  | .lns6 => toLns r v
  | .mxfp4 => roundTo ⟨2, 1, false⟩ r v

/-- An element converted from one format to another at scale 127 (R248, R285). An LNS6 element converted to LNS6 keeps its exponent exactly. -/
def convertFmt (src dst : Fmt) (r : Rounding) (bits : Nat) : Nat × FpFlags :=
  if src = .lns6 ∧ dst = .lns6 then (bits % 64, 0) else fmtRound dst r (fmtValue src bits)

end Sys2Proof.Machine
end

