-- ==== Sys2Proof/Machine/Float.lean ====
section
/-! DEFINITION. The exact floating-point operations (R8, R221 to R224, R284), the exponential (R181), the element tree (R286) and the
softmax merge (R182, R183). -/

namespace Sys2Proof.Machine

/-- An exact result and the flags NV and DZ that the operation itself raises. -/
abbrev Exact := Val × FpFlags

/-- The NaN that an operation with a NaN operand gives: NV when some operand is signalling. -/
def nanOf (xs : List Val) : Exact := (.nan false, flagIf (xs.any Val.isSnan) flagNV)

/-- An invalid operation. -/
def invalid : Exact := (.nan false, flagNV)

/-- The sum of two finite values; an exact zero sum of unlike signs is +0, or −0 under RDN. -/
def addFinite (mode : Rm) (n1 : Bool) (m1 : Nat) (e1 : Int) (n2 : Bool) (m2 : Nat) (e2 : Int) : Val :=
  let e := min e1 e2
  let s : Nat → Bool → Int := fun m n => if n then -(m : Int) else m
  let a := s (m1 * 2 ^ (e1 - e).toNat) n1
  let b := s (m2 * 2 ^ (e2 - e).toNat) n2
  if m1 = 0 ∧ m2 = 0 then .zero (if n1 = n2 then n1 else decide (mode = .rdn))
  else if m1 = 0 then .num n2 m2 e2
  else if m2 = 0 then .num n1 m1 e1
  else if a + b = 0 then .zero (decide (mode = .rdn))
  else .num (decide (a + b < 0)) (a + b).natAbs e

/-- a + b. -/
def fpAdd (mode : Rm) (a b : Val) : Exact :=
  match a, b with
  | .nan _, _ | _, .nan _ => nanOf [a, b]
  | .inf x, .inf y => if x = y then (.inf x, 0) else invalid
  | .inf x, _ => (.inf x, 0)
  | _, .inf y => (.inf y, 0)
  | .num n1 m1 e1, .num n2 m2 e2 => (addFinite mode n1 m1 e1 n2 m2 e2, 0)

/-- a − b. -/
def fpSub (mode : Rm) (a b : Val) : Exact := fpAdd mode a b.negate

/-- Whether a value is a zero. -/
def Val.isZero : Val → Bool
  | .num _ m _ => m == 0
  | _ => false

/-- The sign of a value; a NaN counts as positive. -/
def Val.isNeg : Val → Bool
  | .nan _ => false
  | .inf n => n
  | .num n _ _ => n

/-- a × b. -/
def fpMul (a b : Val) : Exact :=
  match a, b with
  | .nan _, _ | _, .nan _ => nanOf [a, b]
  | .inf x, y => if y.isZero then invalid else (.inf (x != y.isNeg), 0)
  | x, .inf y => if x.isZero then invalid else (.inf (x.isNeg != y), 0)
  | .num n1 m1 e1, .num n2 m2 e2 => (.num (n1 != n2) (m1 * m2) (e1 + e2), 0)

/-- The bits below a quotient or root that are kept, with a sticky last bit: past every bit that rounding to 53 bits and the 16 bits of DSR
look at. -/
def guardBits : Nat := 160

/-- a ÷ b, with DZ for a finite nonzero a over zero. -/
def fpDiv (a b : Val) : Exact :=
  match a, b with
  | .nan _, _ | _, .nan _ => nanOf [a, b]
  | .inf x, .inf _ => let _ := x; invalid
  | .inf x, y => (.inf (x != y.isNeg), 0)
  | x, .inf y => (.zero (x.isNeg != y), 0)
  | .num n1 m1 e1, .num n2 m2 e2 =>
    let n := n1 != n2
    if m2 = 0 then (if m1 = 0 then invalid else (.inf n, flagDZ))
    else
      let q := m1 * 2 ^ guardBits / m2
      let sticky := if m1 * 2 ^ guardBits % m2 = 0 then 0 else 1
      (.num n (2 * q + sticky) (e1 - e2 - guardBits - 1), 0)

/-- The integer square root, one bit of the root from each unit of fuel: `r` is the root so far and `b` the next bit's weight. -/
def isqrtLoop (n : Nat) : Nat → Nat → Nat
  | 0, r => r
  | k + 1, r => if (r + 2 ^ k) * (r + 2 ^ k) ≤ n then isqrtLoop n k (r + 2 ^ k) else isqrtLoop n k r

/-- The integer square root. -/
def isqrt (n : Nat) : Nat := isqrtLoop n (bitLen n / 2 + 1) 0

/-- √a. -/
def fpSqrt (a : Val) : Exact :=
  match a with
  | .nan _ => nanOf [a]
  | .inf n => if n then invalid else (.inf false, 0)
  | .num n m e =>
    if m = 0 then (.zero n, 0)
    else if n then invalid
    else
      let odd := e % 2 ≠ 0
      let m' := (if odd then 2 * m else m) * 2 ^ (2 * guardBits)
      let e' := if odd then (e - 1) / 2 else e / 2
      let r := isqrt m'
      (.num false (2 * r + (if r * r = m' then 0 else 1)) (e' - guardBits - 1), 0)

/-- a × b + c, one rounding to come; an infinity times a zero is invalid even when c is a quiet NaN (R223). -/
def fpFma (mode : Rm) (a b c : Val) : Exact :=
  let p := fpMul a b
  if !a.isNan && !b.isNan && p.1.isNan then invalid
  else if a.isNan || b.isNan || c.isNan then nanOf [a, b, c]
  else fpAdd mode p.1 c

/-- c − a × b (R223). -/
def fpFnma (mode : Rm) (a b c : Val) : Exact := fpFma mode a.negate b c

/-- The order of two values that are not NaNs. −0 equals +0. -/
def fpLess (a b : Val) : Bool :=
  match a, b with
  | .nan _, _ | _, .nan _ => false
  | .inf x, .inf y => x && !y
  | .inf x, _ => x
  | _, .inf y => !y
  | .num n1 m1 e1, .num n2 m2 e2 =>
    let e := min e1 e2
    let a : Int := m1 * 2 ^ (e1 - e).toNat
    let b : Int := m2 * 2 ^ (e2 - e).toNat
    decide ((if n1 then -a else a) < (if n2 then -b else b))

/-- Equality of values. -/
def fpEq (a b : Val) : Bool := !a.isNan && !b.isNan && !fpLess a b && !fpLess b a

/-- The order that minimumNumber and maximumNumber use: −0 is below +0 (R221). -/
def fpLessSigned (a b : Val) : Bool := fpLess a b || (a.isZero && b.isZero && a.isNeg && !b.isNeg)

/-- minimumNumber (R221). -/
def fpMin (a b : Val) : Exact :=
  let fl := flagIf (a.isSnan || b.isSnan) flagNV
  if a.isNan then ((if b.isNan then .nan false else b), fl)
  else if b.isNan then (a, fl)
  else ((if fpLessSigned b a then b else a), 0)

/-- maximumNumber (R221). -/
def fpMax (a b : Val) : Exact :=
  let fl := flagIf (a.isSnan || b.isSnan) flagNV
  if a.isNan then ((if b.isNan then .nan false else b), fl)
  else if b.isNan then (a, fl)
  else ((if fpLessSigned a b then b else a), 0)

/-- The comparisons of fcmp and of the vector forms (R221, R284): the relation, with NV for a signalling NaN under eq and for any NaN under lt
and le. -/
inductive FpRel where
  | eq | lt | le
  deriving DecidableEq, Repr

/-- A comparison: whether it holds, and its flags. -/
def fpCompare (r : FpRel) (a b : Val) : Bool × FpFlags :=
  let anyNan := a.isNan || b.isNan
  match r with
  | .eq => (fpEq a b, flagIf (a.isSnan || b.isSnan) flagNV)
  | .lt => (fpLess a b, flagIf anyNan flagNV)
  | .le => (fpLess a b || fpEq a b, flagIf anyNan flagNV)

/-- An exact result rounded to a format. -/
def finish (f : BinFmt) (r : Rounding) (x : Exact) : Nat × FpFlags :=
  let (bits, fl) := roundTo f r x.1
  (bits, fl ||| x.2)

/-- A value rounded to an integral value, with NX when it changes (R221 fround). -/
def fpRoundIntegral (f : BinFmt) (r : Rounding) (v : Val) : Nat × FpFlags :=
  match v with
  | .num neg m e =>
    let (mag, inexact, _) := roundMag r neg m e 0
    let (bits, _) := roundTo f rne (.num neg mag 0)
    (bits, flagIf inexact flagNX)
  | .inf neg => (f.infBits neg, 0)
  | .nan s => (f.canonicalNan, flagIf s flagNV)

/-- The class mask of R222. -/
def fpClass (f : BinFmt) (bits : Nat) : Nat :=
  match f.value bits with
  | .nan s => if s then 2 ^ 8 else 2 ^ 9
  | .inf neg => if neg then 2 ^ 0 else 2 ^ 7
  | .num neg m _ =>
    if m = 0 then (if neg then 2 ^ 3 else 2 ^ 4)
    else if m < 2 ^ f.fb then (if neg then 2 ^ 2 else 2 ^ 5)
    else (if neg then 2 ^ 1 else 2 ^ 6)

/-- The range of an integer type (R221). -/
def intTyRange : IntTy → Int × Int
  | .s32 => (-2 ^ 31, 2 ^ 31 - 1)
  | .u32 => (0, 2 ^ 32 - 1)
  | .s64 => (-2 ^ 63, 2 ^ 63 - 1)
  | .u64 => (0, 2 ^ 64 - 1)

/-! The exponential (R181). -/

/-- ln 2 × 2^256, rounded down. -/
def ln2Fixed : Nat := 80260960185991308862233904206310070533990667611589946606122867505419956976171

/-- The sum of t × y^j / j! in fixed point of 256 bits for the terms from k on. -/
def expTerms (y : Nat) : Nat → Nat → Nat → Nat
  | 0, _, _ => 0
  | n + 1, k, t => t + expTerms y n (k + 1) (t * y / 2 ^ 256 / (k + 1))

/-- 2^f × 2^256 for the fraction f = fr / 2^256, rounded down (log 18). -/
def exp2Fixed (fr : Nat) : Nat :=
  let y := fr * ln2Fixed / 2 ^ 256
  expTerms y 64 0 (2 ^ 256)

/-- exp2cr(x) for the bits of an FP32 number (R181): its bits and flags. -/
def exp2cr (x : Nat) : Nat × FpFlags :=
  match fp32.value x with
  | .nan s => (fp32.canonicalNan, flagIf s flagNV)
  | .inf neg => if neg then (0, 0) else (fp32.infBits false, 0)
  | .num neg m e =>
    let v : Int := if neg then -(m : Int) else m
    if m = 0 then (0x3F800000, 0)
    else if 0 ≤ e then
      -- an integer; one of 2^10 or more is far outside the range
      let k := v * 2 ^ (min e.toNat 10)
      roundTo fp32 rne (.num false 1 (max (-1000) (min 1000 k)))
    else
      let d := (-e).toNat
      let n := v / 2 ^ d
      let fr := (v % 2 ^ d).toNat
      if fr = 0 then roundTo fp32 rne (.num false 1 (max (-1000) (min 1000 n)))
      else roundTo fp32 rne (.num false (2 * exp2Fixed (fr * 2 ^ 256 / 2 ^ d) + 1) (max (-1000) (min 1000 n) - 257))

/-- rne(x + y) in FP32, bits to bits. -/
def radd32 (x y : Nat) : Nat := (finish fp32 rne (fpAdd .rne (fp32.value x) (fp32.value y))).1

/-- rne(x − y) in FP32. -/
def rsub32 (x y : Nat) : Nat := (finish fp32 rne (fpSub .rne (fp32.value x) (fp32.value y))).1

/-- fma(x, y, z) in FP32. -/
def fma32 (x y z : Nat) : Nat := (finish fp32 rne (fpFma .rne (fp32.value x) (fp32.value y) (fp32.value z))).1

/-- maximumNumber in FP32. -/
def maxnum32 (x y : Nat) : Nat := (finish fp32 rne (fpMax (fp32.value x) (fp32.value y))).1

/-- −∞ in FP32. -/
def negInf32 : Nat := 0xFF800000

/-- The softmax merge of two triples (R182); `o1` and `o2` have the same length. -/
def smerge (l r : Nat × Nat × List Nat) : Nat × Nat × List Nat :=
  let (m1, s1, o1) := l
  let (m2, s2, o2) := r
  let isNan := fun x => (fp32.value x).isNan
  let qnan := fp32.canonicalNan
  if (m1 :: s1 :: m2 :: s2 :: (o1 ++ o2)).any isNan then (qnan, qnan, o1.map fun _ => qnan)
  else if m1 = negInf32 ∧ m2 = negInf32 then (negInf32, radd32 s1 s2, List.zipWith radd32 o1 o2)
  else
    let ge := !fpLess (fp32.value m1) (fp32.value m2)
    let (mh, sh, oh, ml, sl, ol) := if ge then (m1, s1, o1, m2, s2, o2) else (m2, s2, o2, m1, s1, o1)
    let a := (exp2cr (rsub32 ml mh)).1
    (mh, fma32 sl a sh, List.zipWith (fun x y => fma32 x a y) ol oh)

/-! Trees over lists (R183, R286). -/

/-- One level of the pairwise tree. -/
def treeLevel {α : Type} (op : α → α → α) : List α → List α
  | a :: b :: rest => op a b :: treeLevel op rest
  | [a] => [a]
  | [] => []

/-- The pairwise tree over a list, a level for each unit of fuel; none for the empty list. -/
def treeLoop {α : Type} (op : α → α → α) : Nat → List α → Option α
  | _, [] => none
  | _, [a] => some a
  | 0, a :: _ => some a
  | n + 1, l => treeLoop op n (treeLevel op l)

/-- The element tree of R286 and the canonical tree of R183: a list of n members has at most n levels. -/
def tree {α : Type} (op : α → α → α) (l : List α) : Option α := treeLoop op l.length l

/-- The rank-order fold of a collective with TREE = 1 (R308). -/
def fold1 {α : Type} (op : α → α → α) : List α → Option α
  | [] => none
  | a :: rest => some (rest.foldl op a)

end Sys2Proof.Machine
end

