-- ==== Sys2Proof/Machine/Cells.lean ====
section
/-! DEFINITION. Sparse bytes: lists of cells with strictly rising addresses and no cell equal to the default byte. Memory, register images and
tiles are held so. -/

namespace Sys2Proof.Machine

/-- Sparse bytes. -/
abbrev Cells := List Host.Cell

/-- The byte at an address: `d` where none is listed. -/
def cellGet (d : Byte) : Cells → Nat → Byte
  | [], _ => d
  | (k, b) :: rest, a => if k = a then b else cellGet d rest a

/-- The cells with one byte written; writing the default removes the cell. -/
def cellPut (d : Byte) : Cells → Nat → Byte → Cells
  | [], a, b => if b = d then [] else [(a, b)]
  | (k, c) :: rest, a, b =>
    if a < k then (if b = d then (k, c) :: rest else (a, b) :: (k, c) :: rest)
    else if a = k then (if b = d then rest else (a, b) :: rest)
    else (k, c) :: cellPut d rest a b

/-- Bytes written from an address on. -/
def cellPutList (d : Byte) (m : Cells) (a : Nat) : List Byte → Cells
  | [] => m
  | b :: bs => cellPutList d (cellPut d m a b) (a + 1) bs

/-- The n bytes from an address on. -/
def cellGetList (d : Byte) (m : Cells) (a : Nat) : Nat → List Byte
  | 0 => []
  | n + 1 => cellGet d m a :: cellGetList d m (a + 1) n

/-- The little-endian number of the n bytes at an address. -/
def cellRead (m : Cells) (a n : Nat) : Nat := leNat (cellGetList 0 m a n)

/-- A number written as n bytes, little-endian. -/
def cellWrite (m : Cells) (a n v : Nat) : Cells := cellPutList 0 m a (leBytes n v)

/-- Whether the addresses rise strictly from above a bound, and no cell holds the default. -/
def cellsAbove (d : Byte) : Option Nat → Cells → Bool
  | _, [] => true
  | lo, (k, b) :: rest => (match lo with | none => true | some l => decide (l < k)) && decide (b ≠ d) && cellsAbove d (some k) rest

/-- The canonical form: strictly rising addresses, no cell equal to the default. -/
def Cells.wf (d : Byte) (m : Cells) : Bool := cellsAbove d none m

/-- Sparse bytes in which an unlisted address holds none: the masked bytes of a provisional line, a store's bytes. -/
def maskGet : Cells → Nat → Option Byte
  | [], _ => none
  | (k, b) :: rest, a => if k = a then some b else maskGet rest a

/-- Whether the addresses rise strictly from above a bound. -/
def risingAbove : Option Nat → Cells → Bool
  | _, [] => true
  | lo, (k, _) :: rest => (match lo with | none => true | some l => decide (l < k)) && risingAbove (some k) rest

/-- The canonical form of masked bytes: strictly rising addresses. -/
def Cells.rising (m : Cells) : Bool := risingAbove none m

/-- A byte put under the mask. -/
def maskPut : Cells → Nat → Byte → Cells
  | [], a, b => [(a, b)]
  | (k, c) :: rest, a, b =>
    if a < k then (a, b) :: (k, c) :: rest
    else if a = k then (a, b) :: rest
    else (k, c) :: maskPut rest a b

/-- Cells put under the mask, in order. -/
def maskPutAll (m : Cells) (cs : Cells) : Cells := cs.foldl (fun m c => maskPut m c.1 c.2) m

/-- The cells outside a range of addresses. -/
def cellsDrop (m : Cells) (lo n : Nat) : Cells := m.filter fun c => decide (c.1 < lo) || decide (lo + n ≤ c.1)

/-- The cells inside a range of addresses. -/
def cellsIn (m : Cells) (lo n : Nat) : Cells := m.filter fun c => decide (lo ≤ c.1) && decide (c.1 < lo + n)

/-- A list with each value once. -/
def uniq {α : Type} [DecidableEq α] : List α → List α
  | [] => []
  | a :: l => if l.contains a then uniq l else a :: uniq l

/-- The entries of an association list: the value of a key. -/
def look {κ α : Type} [DecidableEq κ] (l : List (κ × α)) (k : κ) : Option α :=
  match l with
  | [] => none
  | (k', v) :: rest => if k' = k then some v else look rest k

/-- An association list with a key's value set; a new key goes to the end. -/
def assoc {κ α : Type} [DecidableEq κ] (l : List (κ × α)) (k : κ) (v : α) : List (κ × α) :=
  match l with
  | [] => [(k, v)]
  | (k', w) :: rest => if k' = k then (k, v) :: rest else (k', w) :: assoc rest k v

/-- An association list without a key. -/
def unassoc {κ α : Type} [DecidableEq κ] (l : List (κ × α)) (k : κ) : List (κ × α) := l.filter fun e => decide (e.1 ≠ k)

end Sys2Proof.Machine
end

