-- ==== Sys2Proof/Machine/Package.lean ====
section
/-! DEFINITION. The package's dies, links, quads and cores (R1 to R3), the class and the places of a core (R138, R142), and the distances of R160. -/

namespace Sys2Proof.Machine

/-- The dies of a blend, in order of die number (R1, R2). -/
def dies : Blend → List Nat
  | .j10 => [0, 1, 2, 3, 4, 5, 6, 7, 8, 9, 14, 15, 16, 17, 18, 19, 20, 21]
  | .j14 => [0, 1, 2, 3, 4, 5, 6, 7, 8, 9, 10, 11, 12, 13, 14, 15, 16, 17, 18, 19, 20, 21]
  | .j18 => [0, 1, 2, 3, 4, 5, 6, 7, 8, 9, 10, 11, 12, 13, 14, 15, 16, 17, 18, 19, 20, 21, 22, 23, 24, 25]

/-- Whether a die number is that of an M-die: M0 to M7 are 14 to 21 (R2). -/
def isMDie (die : Nat) : Bool := decide (14 ≤ die) && decide (die ≤ 21)

/-- The compute dies of a blend. -/
def computeDies (b : Blend) : List Nat := (dies b).filter fun d => !isMDie d

/-- The class of the cores of a compute die: C0 and C1 are 0 and 1, V0 to V3 are 2 to 5, the T-dies are the others (R2). -/
def classOfDie (die : Nat) : CoreClass := if die < 2 then .c else if die < 6 then .v else .t

/-- The width and height of a die's quad mesh (R160). -/
def meshOf : CoreClass → Nat × Nat
  | .t => (16, 8)
  | .v => (4, 4)
  | .c => (2, 2)

/-- The number of quads of a die of a class: 16 C-cores, 16 V-quads and 512 T-cores make 4, 16 and 128 quads of four (R3). -/
def quadsOf (c : CoreClass) : Nat := (meshOf c).1 * (meshOf c).2

/-- The number of cores or V-fronts of a quad. -/
def coresPerQuad : Nat := 4

/-- The slots, contexts or threads of a core (R3, R142). -/
def slotsOf : CoreClass → Nat
  | .c => 2
  | .v => 4
  | .t => 16

/-- The class of a core. -/
def coreClass (c : CoreId) : CoreClass := classOfDie c.die

/-- Whether a core exists in a blend. -/
def coreExists (b : Blend) (c : CoreId) : Bool :=
  (computeDies b).contains c.die && decide (c.quad < quadsOf (classOfDie c.die)) && decide (c.core < coresPerQuad)

/-- The cores of a quad, in order. -/
def quadCores (die quad : Nat) : List CoreId := (List.range coresPerQuad).map fun k => ⟨die, quad, k⟩

/-- CLASSID of a place (R142). -/
def classIdWord (p : Place) : Word :=
  BitVec.ofNat 64 ((classOfDie p.at_.die).code * 2 ^ 22 + p.at_.die % 32 * 2 ^ 17 + p.at_.quad % 128 * 2 ^ 10 + p.at_.core % 4 * 2 ^ 8
    + p.slot % 16 * 2 ^ 4)

/-- The site of a die on the grid, row and column (R1, R2). -/
def dieSite (die : Nat) : Nat × Nat :=
  match die with
  | 0 => (1, 2) | 1 => (1, 3) | 2 => (1, 1) | 3 => (1, 4) | 4 => (2, 1) | 5 => (2, 4)
  | 6 => (0, 1) | 7 => (0, 2) | 8 => (0, 3) | 9 => (0, 4) | 10 => (2, 2) | 11 => (2, 3) | 12 => (3, 1) | 13 => (3, 4)
  | 14 => (0, 0) | 15 => (0, 5) | 16 => (1, 0) | 17 => (1, 5) | 18 => (2, 0) | 19 => (2, 5) | 20 => (3, 0) | 21 => (3, 5)
  | 22 => (4, 1) | 23 => (4, 2) | 24 => (4, 3) | 25 => (4, 4)
  | _ => (99, 99)

/-- The distance of two numbers. -/
def absDiff (a b : Nat) : Nat := (a - b) + (b - a)

/-- Whether two dies are orthogonal neighbours, and so linked (R1, R3). -/
def linked (a b : Nat) : Bool :=
  decide (absDiff (dieSite a).1 (dieSite b).1 + absDiff (dieSite a).2 (dieSite b).2 = 1)

/-- The dies reached from a list of dies by one link more. -/
def spread (b : Blend) (ds : List Nat) : List Nat := (dies b).filter fun d => ds.contains d || ds.any fun e => linked d e

/-- The number of links to a die, within `fuel` links of the dies `ds`. -/
def hopsFrom (b : Blend) (dst : Nat) : Nat → List Nat → Nat
  | 0, _ => 0
  | n + 1, ds => if ds.contains dst then 0 else 1 + hopsFrom b dst n (spread b ds)

/-- The die-hop distance (R3). -/
def dieHops (b : Blend) (src dst : Nat) : Nat := hopsFrom b dst 26 [src]

/-- The row and column of a quad on its mesh. -/
def quadSite (c : CoreClass) (quad : Nat) : Nat × Nat := (quad / (meshOf c).1, quad % (meshOf c).1)

/-- The entry quad, as row and column, of the link by which die `dst` is entered from its neighbour `nb` (R160). -/
def entrySite (nb dst : Nat) : Nat × Nat :=
  let (w, h) := meshOf (classOfDie dst)
  let (r1, c1) := dieSite nb
  let (r2, c2) := dieSite dst
  if r1 < r2 then (0, (w - 1) / 2)
  else if r2 < r1 then (h - 1, (w - 1) / 2)
  else if c1 < c2 then ((h - 1) / 2, 0)
  else ((h - 1) / 2, w - 1)

/-- The quad-mesh distance of two sites. -/
def siteHops (a b : Nat × Nat) : Nat := absDiff a.1 b.1 + absDiff a.2 b.2

/-- The mesh hops of R160 step 3 from a source core to a quad. -/
def meshHops (b : Blend) (src : CoreId) (dst : CoreId) : Nat :=
  let site := quadSite (classOfDie dst.die) dst.quad
  if src.die = dst.die then siteHops (quadSite (classOfDie src.die) src.quad) site
  else
    let d := dieHops b src.die dst.die
    let entries := (dies b).filter fun n => linked n dst.die && decide (dieHops b src.die n + 1 = d)
    (entries.map fun n => siteHops (entrySite n dst.die) site).foldl min 1000

/-- The rank by which R160 chooses among candidates: die hops, mesh hops, die number, core number within the die; smaller is nearer. -/
def nearness (b : Blend) (src dst : CoreId) : Nat :=
  ((dieHops b src.die dst.die * 1000 + meshHops b src dst) * 32 + dst.die) * 512 + dst.quad * 4 + dst.core

/-- The place of least rank in a list: the lowest free one of the core chosen (R160, log 79). -/
def nearest (b : Blend) (src : CoreId) : List Place → Option Place
  | [] => none
  | p :: rest => some (rest.foldl (fun best q => if nearness b src q.at_ < nearness b src best.at_ then q else best) p)

end Sys2Proof.Machine
end

