-- ==== Sys2Proof/Machine/Thread.lean ====
section
/-! DEFINITION. The state of a thread: its registers (R140 to R142, R172, R173, R262, R268, R269, R293, R303, R335, R364), what it waits for
(R143, R147), and what it holds. -/

namespace Sys2Proof.Machine

/-- STATUS (R141). -/
structure Status where
  nomig : Bool
  mm : Bool
  fpv : Bool
  chain : Bool
  hnd : Bool
  priv : Bool
  deriving DecidableEq, Repr

/-- STATUS at thread start: every bit 0. -/
def Status.zero : Status := ⟨false, false, false, false, false, false⟩

/-- A 0 or 1. -/
def b2n (b : Bool) : Nat := if b then 1 else 0

/-- STATUS as a word (R141). -/
def Status.word (s : Status) : Word :=
  BitVec.ofNat 64 (b2n s.nomig * 32 + b2n s.mm * 16 + b2n s.fpv * 8 + b2n s.chain * 4 + b2n s.hnd * 2 + b2n s.priv)

/-- SCLA or SCLB (R262). -/
structure ScaleShadow where
  en : Bool
  handle : Handle
  deriving DecidableEq, Repr

/-- A vector register: its image of up to 4,096 dwords in element order at SEW = 64 (R158), and its tag D and VD. -/
structure VReg where
  bytes : Cells
  d : Bool
  vd : Nat
  deriving DecidableEq, Repr

/-- A vector register that reads as zero, with tag zero. -/
def VReg.zero : VReg := ⟨[], false, 0⟩

/-- A group register (R303): its two dwords without SEQ, and SEQ. -/
structure GroupReg where
  gid : BitVec 32
  rank : BitVec 16
  countM1 : BitVec 16
  seq : BitVec 32
  cap : BitVec 4
  tmo : BitVec 4
  podScope : Bool
  buddy : BitVec 4
  tree : BitVec 4
  deriving DecidableEq, Repr

/-- A one-member group at package scope, under k0 (R304). -/
def GroupReg.reset : GroupReg := ⟨0, 0, 0, 0, 0, 0, false, 0, 0⟩

/-- The vector state of a thread (R268 to R270, R275, R293). `lmin`, `lpref`, `scope`, `sew` are VCFG; `poolAt` is the grant's quad. -/
structure VecState where
  sew : Ew
  scope : Scope
  lmin : Nat
  lpref : Nat
  vl : Nat
  veidx : Nat
  grant : Nat
  pin : Bool
  rows : Nat
  cols : Nat
  stripBase : BitVec 52
  stripIdx : BitVec 7
  stripEn : Bool
  /-- CYC of the strip in progress: cycles on a V-front since the last close (R275). -/
  stripCyc : Nat
  v : Vector VReg 32
  g : Vector GroupReg 8
  deriving DecidableEq, Repr

/-- The vector state at thread start (R140): no clusters, every register zero. -/
def VecState.reset : VecState :=
  { sew := .e8, scope := .lane, lmin := 0, lpref := 0, vl := 0, veidx := 0, grant := 0, pin := false, rows := 0, cols := 0
    stripBase := 0, stripIdx := 0, stripEn := false, stripCyc := 0, v := Vector.replicate 32 VReg.zero, g := Vector.replicate 8 GroupReg.reset }

/-- What a parked thread waits for (R147, R150). -/
inductive Wait where
  /-- An entry in the chain queue it reads (R249). -/
  | chainPop
  /-- Room in the chain queue it writes (R249). -/
  | chainPush
  /-- A lock on a tile, in its queue (R63). -/
  | lock (key : TileKey)
  /-- The end of locks that forbid a read use or a write use of a tile (R62). -/
  | tile (key : TileKey) (write : Bool)
  /-- Fewer than 255 commands on a tile (R57), or none for its freeing (R60). -/
  | pend (key : TileKey) (below : Nat)
  /-- A matrix command whose operands the array has not read (R65). -/
  | arrayRead (cmd : Nat)
  /-- Room in the queue of the core's matrix array or copy engine (R117). -/
  | engine (matrix : Bool)
  /-- Its miss in a full miss queue (R37). -/
  | missQueue
  /-- A timeline to reach a value (R232). -/
  | timeline (key : TlKey) (v : Nat)
  /-- A barrier's episode to complete (R230). -/
  | barrier (key : BarKey) (episode : Nat)
  /-- The open episode of a barrier at which it has already arrived (R229). -/
  | rearrive (key : BarKey) (episode : Nat)
  /-- A message, until the cycle given, if any (R234). -/
  | mwaitf (deadline : Option Nat)
  /-- A message, until the cycle given, if any (R237). -/
  | wfe (deadline : Option Nat)
  /-- A grant of clusters (R273). -/
  | lease
  /-- The clusters it gave up (R152). -/
  | regrant
  /-- Its posted stores to be resolved (R343), or its earlier stores to be accepted (R99, R231). -/
  | stores
  /-- Room in a supervisor ring, or its key (R340, R409). -/
  | ring
  /-- Its TLBINV to complete (R42). -/
  | tlbinv (n : Nat)
  /-- The answer to a pod-window request (R133). -/
  | pod (id : Nat)
  /-- A collective's result (R307). -/
  | collective (key : CollKey) (vd : Reg) (g : Nat)
  /-- A gang switch of its job that stops its sends (R352). -/
  | gang
  deriving DecidableEq, Repr

/-- The run states of R143. "In handler" is Running with STATUS.HND = 1. -/
inductive Run where
  | running
  | parked (w : Wait)
  /-- Streamed to a reserved place (R155), or in the streamer queue when no place is reserved (R161). -/
  | transit (cause : Nat) (src : Place) (dst : Option Place)
  | stopped
  | saved (at_ : Place)
  | ended
  deriving DecidableEq, Repr

/-- A prefix that awaits its successor's completion (R199): NF, SAT, RM and the successor. -/
structure Pfx where
  nf : Bool
  sat : Bool
  rm : Rm
  deriving DecidableEq, Repr

/-- A message (R233): its payload and its sender, and the tracked writes that its sending came after (R101 case 9). -/
structure Message where
  payload : Word
  sender : Tid
  know : List Nat
  deriving DecidableEq, Repr

/-- How a thread ended (R144, R349): by TEXIT in user code, by TEXIT in a handler, by a fault's cause, or by a reset. -/
inductive EndKind where
  | texit
  | inHandler (cause : Nat)
  | fault (cause : Nat)
  | reset
  deriving DecidableEq, Repr

/-- A pod-window access of the instruction in progress: its request and what it has come to (R133). -/
structure PodPending where
  id : Nat
  va : Nat
  op : PodOp
  answer : Option PodAns
  deriving DecidableEq, Repr

/-- A supervisor delivery that waits for a C-core or for the ring (R340): whether the thread ends with it, the held command whose fault it is, the stamp
that is its time (R137), and the record but for a time of delivery (R336). -/
structure SupRecord where
  ends : Bool
  heldId : Option Nat
  stamp : Option Nat
  words : List Word
  deriving DecidableEq, Repr

/-- A requested stop that a thread takes at its next boundary (R334 items 1 and 4, R360). -/
structure Requests where
  /-- A pre-emption, gang or budget request of its stand. -/
  preempt : Bool
  /-- A debug stop. -/
  stop : Bool
  /-- A supervisor interrupt. -/
  supInt : Bool
  /-- A sampled migration to a class (R331). -/
  mixTo : Option CoreClass
  deriving DecidableEq, Repr

/-- No request. -/
def Requests.none : Requests := ⟨false, false, false, Option.none⟩

/-- A thread. -/
structure Thread where
  /-- THREADID (R142). -/
  tid : Tid
  /-- The translation context (R20). -/
  ctx : Nat
  /-- The class-state area (R156, R158). -/
  csa : Word
  /-- The context it holds, if any (R142, R143). -/
  place : Option Place
  run : Run
  pc : Word
  x : Vector Word 32
  f : Vector Word 32
  status : Status
  fflags : BitVec 5
  rndmode : Rm
  dsrseed : BitVec 32
  fmta : Fmt
  fmtb : Fmt
  scla : ScaleShadow
  sclb : ScaleShadow
  /-- THANDLER[63:2] and EN (R335). -/
  thandler : BitVec 62
  thandlerEn : Bool
  /-- TSCRATCH[63:6] (R335). -/
  tscratch : BitVec 58
  tcause : Word
  tepc : Word
  tval : Word
  tmicro : Word
  /-- PROFCTL (R364). -/
  profctl : Word
  vec : VecState
  /-- Traps delivered since it started (R336 SEQ). -/
  traps : Nat
  /-- Instructions issued since it started (R343). -/
  issues : Nat
  /-- The receive queue, oldest first (R233). -/
  rxq : List Message
  /-- Messages held while it is in transit or saved (R159, R351). -/
  held : List Message
  /-- A prefix latched for the instruction in progress (R199). -/
  pfx : Option Pfx
  /-- The instruction that follows a latched prefix. -/
  succ : Option Instr
  /-- The bits of the instruction in progress, zero-extended (R186). -/
  ibits : Word
  /-- The word popped from the chain queue by the instruction in progress (R249). -/
  chainIn : Option Word
  /-- The word that the instruction in progress pushes onto its downstream queue (R249). -/
  chainOut : Option Word
  /-- The pod-window accesses of the instruction in progress (R133). -/
  pod : List PodPending
  /-- The limit of the wait in progress has run out (R234, R237). -/
  expired : Bool
  /-- Loads that the DAU has performed early for the next vector load: the pc, the element and its bytes (R119). -/
  dauAhead : List (Nat × Nat)
  /-- The pc that the loads in `dauAhead` belong to. -/
  dauPc : Word
  /-- f0 to f31 lie in the class-state area (R157). -/
  tspill : Bool
  /-- The class-state area holds a V record not yet restored (R156). -/
  vspill : Bool
  /-- The cluster count that it gave up at departure (R152). -/
  owed : Option Nat
  /-- The number of stores discarded since a posted store faulted (R345). -/
  ndisc : Nat
  /-- The checksum of its stores since its last checksum entry (R368). -/
  sum : BitVec 32
  req : Requests
  /-- The instructions of each group that it issued in the mix window in progress, and how many in all (R331). -/
  mixN : Nat
  mixC : Nat
  mixV : Nat
  mixT : Nat
  /-- The number of the window that the counts belong to, on the CYCLE of the die that it runs on (R331). -/
  mixWin : Nat
  /-- The migration cause whose refusal entered the handler that runs, for the count of R331; 0 for none. -/
  mixHnd : Nat
  /-- How it ended, once it has. -/
  endKind : Option EndKind
  /-- MSENDs issued and not resolved (R352). -/
  sendsOut : Nat
  /-- Pod time of its last collective issue, for the result timeout (R309). -/
  collIssued : Nat
  /-- A supervisor delivery that waits for a C-core or for the ring (R340). -/
  supPending : Option SupRecord
  /-- The stamp of the completion that ended its wait in the instruction in progress (R137). -/
  waitStamp : Option Nat
  /-- The micro-step in which the instruction in progress waits; 0 for none (R353). -/
  micro : Nat
  deriving DecidableEq, Repr

/-- A thread with nothing in it, ended: the current thread of a package in which none has started. Its registers hold the values that a thread
starts with (R140); x10 to x13 and the pc are 0 (log 7). -/
def Thread.reset : Thread :=
  { tid := ⟨0, 0⟩, ctx := 0, csa := 0, place := none, run := .ended, pc := 0, x := Vector.replicate 32 0, f := Vector.replicate 32 0
    status := Status.zero, fflags := 0, rndmode := .rne, dsrseed := 0, fmta := .int8, fmtb := .int8, scla := ⟨false, 0⟩, sclb := ⟨false, 0⟩
    thandler := 0, thandlerEn := false, tscratch := 0, tcause := 0, tepc := 0, tval := 0, tmicro := 0, profctl := 0
    vec := VecState.reset, traps := 0, issues := 0, rxq := [], held := [], pfx := none, succ := none, ibits := 0, chainIn := none, chainOut := none
    pod := [], expired := false, dauAhead := [], dauPc := 0, tspill := false, vspill := false, owed := none, ndisc := 0, sum := 0, req := Requests.none
    mixN := 0, mixC := 0, mixV := 0, mixT := 0, mixWin := 0, mixHnd := 0, endKind := none, sendsOut := 0, collIssued := 0, supPending := none, waitStamp := none, micro := 0 }

end Sys2Proof.Machine
end

