-- ==== Sys2Proof/Machine/MemState.lean ====
section
/-! DEFINITION. The state of the memory system and of translation: caches, queues and errors (R72 to R92, R343), contexts, keys and TLBs (R20 to
R42). -/

namespace Sys2Proof.Machine

/-- The key that a line's bytes are held under: a slot and the generation of its load; none in regions 01 and 10 (R33, R34). -/
structure KeyTag where
  slot : Nat
  gen : Nat
  deriving DecidableEq, Repr

/-- The states of an L2 copy (R77); I is the absence of an entry. -/
inductive L2St where
  | s | e | m
  deriving DecidableEq, Repr

/-- A line that a die's L2 holds committed. The directory's sharers and owner of a line are the dies that these entries name (R77). -/
structure L2Line where
  die : Nat
  line : Nat
  st : L2St
  deriving DecidableEq, Repr

/-- The provisional lines of a stand's task: the bytes written, by physical address, and the lines that a whole-line write covers (R80, R88). -/
structure ProvTask where
  stand : Nat
  die : Nat
  bytes : Cells
  keys : List (Nat × KeyTag)
  whole : List Nat
  deriving DecidableEq, Repr

/-- A store in a core's write-through queue (R73): its bytes by physical address. `prov` is the stand whose task holds it provisional. -/
structure WtStore where
  core : CoreId
  tid : Tid
  bytes : Cells
  key : Option KeyTag
  prov : Option Nat
  whole : Bool
  cycle : Nat
  deriving DecidableEq, Repr

/-- A posted T-core store that is neither accepted nor faulted (R343). -/
structure Posted where
  tid : Tid
  core : CoreId
  ctx : Nat
  va : Nat
  bytes : List Byte
  pc : Word
  issue : Nat
  priv : Bool
  whole : Bool
  /-- Its requests to other packages, made and not all answered (R133). -/
  pods : List PodPending
  /-- The tracked writes that its thread came after when it issued (R100), and the number of the engine command to come. -/
  know : List Nat
  cmdNext : Nat
  deriving DecidableEq, Repr

/-- An entry of a store-fault record queue (R343). -/
structure StoreFault where
  tid : Tid
  core : CoreId
  slot : Nat
  pc : Word
  ssz : Nat
  tval : Word
  fclass : Nat
  flevel : Nat
  issue : Nat
  /-- The queue was full: the fault is taken at the thread's next turn (R344). -/
  now : Bool
  deriving DecidableEq, Repr

/-- A first-level data-cache line: the copy's 128 bytes, for the committed view or for the merged view of a task (R80), the cycle of its fill and
that of its last use. -/
structure L1dLine where
  core : CoreId
  line : Nat
  key : Option KeyTag
  view : Option Nat
  bytes : List Byte
  filled : Nat
  used : Nat
  poisoned : Bool
  deriving DecidableEq, Repr

/-- A gathered line of a V-front's data cache (R68): elements of one strided load. -/
structure GathLine where
  core : CoreId
  key : Option KeyTag
  ctx : Nat
  va : Nat
  stride : Int
  size : Nat
  /-- The valid elements: the virtual address, and the committed bytes by physical address. -/
  elems : List (Nat × Cells)
  filled : Nat
  used : Nat
  deriving DecidableEq, Repr

/-- An L1I line: the copy's bytes, and the page that it was fetched through: the context, the virtual page of 2^sbits bytes and G (R75). -/
structure L1iLine where
  core : CoreId
  line : Nat
  key : Option KeyTag
  ctx : Nat
  page : Nat
  sbits : Nat
  global : Bool
  bytes : List Byte
  poisoned : Bool
  deriving DecidableEq, Repr

/-- The stores that can hold an error (R87, R92 LEVEL). -/
inductive EccLevel where
  | l1i | l1d | l2 | llc | hbm | directory | tile
  deriving DecidableEq, Repr

/-- LEVEL of a RAS record (R92). -/
def EccLevel.code : EccLevel → Nat
  | .l1i => 0 | .l1d => 1 | .l2 => 2 | .llc => 3 | .hbm => 4 | .directory => 5 | .tile => 6

/-- A physical error that an error-correcting code has yet to detect (R87): where, with the core of a first-level copy, and whether the code corrects
it. -/
structure EccError where
  level : EccLevel
  die : Nat
  core : Option CoreId
  line : Nat
  corrects : Bool
  /-- The stand whose provisional line it lies in, if any (R88). -/
  prov : Option Nat
  deriving DecidableEq, Repr

/-- A poisoned code line held in a fetch path, until the scrubber re-reads it (R90). -/
structure LatentLine where
  core : CoreId
  line : Nat
  since : Nat
  deriving DecidableEq, Repr

/-- Where a copy of a line's data is held below the first level (R72): a die's L2, the LLC slice of its home, or memory. -/
inductive Held where
  | l2 (die : Nat)
  | llc
  | hbm
  deriving DecidableEq, Repr

/-- A thread that makes an access (R96): its package, itself, the core that it is on and the scope that it names. -/
structure RmwBy where
  pkg : Nat
  tid : Tid
  core : CoreId
  scope : Scope
  deriving DecidableEq, Repr

/-- A write of one byte in the order of R100, kept for the bytes that read-modify-writes have touched. `id` names the access that made it, and `base` and
`size` the single-copy-atomic access that it is part of (R94). -/
structure ByteWrite where
  id : Nat
  pa : Nat
  byte : Byte
  by_ : RmwBy
  /-- A read-modify-write, which joins an atomic chain (R108). -/
  chain : Bool
  base : Nat
  size : Nat
  /-- The writes of the byte that come before it in the order. -/
  before : List Nat
  /-- The threads for whose next event it has happened before (R104). -/
  known : List Tid
  /-- The threads that have read it or made it (R107). -/
  met : List Tid
  /-- The stand whose task holds it provisional (R111). -/
  prov : Option Nat
  /-- A vector store at package or pod scope made it (R110). -/
  early : Bool
  /-- Its thread has since completed a release at package or pod scope (R109). -/
  shown : Bool
  /-- It was published after its bound had come, which then holds for its own task alone (R109). -/
  task : Bool
  /-- The cycle of its issue, or of such a publication (R109). -/
  cycle : Nat
  deriving DecidableEq, Repr

/-- What carries a release to an acquire (R101, R104): bytes that a release wrote, or that a read-modify-write continued; a release fence; the completion of
command n of a counter; the arrivals of a barrier's episode; a retirement, to the start of a node's tasks. -/
inductive SyncAt where
  | loc (cells : Cells)
  | fence
  | timeline (key : TlKey) (n : Nat)
  | barrier (key : BarKey) (episode : Nat)
  | start (job node : Nat)
  deriving DecidableEq, Repr

/-- A release side (R101): who made it, the stand of a task in provisional mode whose release it is below die scope (R104), the tracked writes that happen
before it, and the threads that have read from it with no acquire. -/
structure Carrier where
  at_ : SyncAt
  by_ : RmwBy
  prov : Option Nat
  writes : List Nat
  heard : List Tid
  deriving DecidableEq, Repr

/-- A line that a thread has written since its last release at package or pod scope (R109); `early` when a vector store at package or pod scope wrote it
(R110). -/
structure Written where
  tid : Tid
  line : Nat
  early : Bool
  deriving DecidableEq, Repr

/-- The newest record of a line, or of a tile's row, with corrected errors (R91): its index in the RAS ring, and its time. -/
structure RasRecent where
  tile : Option TileKey
  line : Nat
  index : Nat
  time : Nat
  deriving DecidableEq, Repr

/-- The memory system. -/
structure MemSys where
  /-- Bytes in HBM4E and in host memory, by physical address. -/
  mem : Cells
  /-- Bytes of dirty LLC lines, under the mask of the bytes held. -/
  llc : Cells
  /-- Bytes of L2 lines in state M, under the mask of the bytes held. -/
  l2d : Cells
  l2 : List L2Line
  /-- The lines that an LLC slice holds, the most recently used first (R72). -/
  llcl : List Nat
  /-- The runs of stripes pinned in a die's L2: the die, the base and the length (R53). -/
  pins : List (Nat × Nat × Nat)
  prov : List ProvTask
  wtq : List WtStore
  posted : List Posted
  sfq : List StoreFault
  l1d : List L1dLine
  gath : List GathLine
  l1i : List L1iLine
  /-- The poisoned copies, each with its line (R88). -/
  poison : List (Held × Nat)
  /-- The key under which each 16-byte block was last written (R34). -/
  lineKey : List (Nat × KeyTag)
  ecc : List EccError
  latent : List LatentLine
  rasRecent : List RasRecent
  /-- The writes of the bytes that read-modify-writes have touched, the newest first, and the number of the next access (R100, R108). -/
  track : List ByteWrite
  trackNext : Nat
  carriers : List Carrier
  wrote : List Written
  deriving DecidableEq, Repr

/-- Memory after a package reset, with nothing listed. -/
def MemSys.reset : MemSys :=
  { mem := [], llc := [], l2d := [], l2 := [], llcl := [], pins := [], prov := [], wtq := [], posted := [], sfq := [], l1d := [], gath := [], l1i := [], poison := []
    lineKey := [], ecc := [], latent := [], rasRecent := []
    track := [], trackNext := 0, carriers := [], wrote := [] }

/-- A translation-context record (R21). -/
structure CtxRec where
  en : Bool
  part : BitVec 4
  root : BitVec 40
  jobid : BitVec 32
  deriving DecidableEq, Repr

/-- A record at reset. -/
def CtxRec.zero : CtxRec := ⟨false, 0, 0, 0⟩

/-- A page-table entry's fields that a translation keeps (R24). -/
structure Leaf where
  key : Nat
  ppn : Nat
  mt : Nat
  dirty : Bool
  global : Bool
  user : Bool
  exec : Bool
  write : Bool
  read : Bool
  deriving DecidableEq, Repr

/-- Where a TLB entry is held: a core's first-level TLB, a die's last-level TLB, or an M-die's remote-translation TLB (R36). -/
inductive TlbAt where
  | core (c : CoreId)
  | die (d : Nat)
  | remote (d : Nat)
  deriving DecidableEq, Repr

/-- A TLB entry (R36): a page of 2^sbits bytes at virtual page `vpage`, the entry it came from, and its level. -/
structure TlbEntry where
  at_ : TlbAt
  ctx : Nat
  part : Nat
  vpage : Nat
  sbits : Nat
  level : Nat
  leaf : Leaf
  deriving DecidableEq, Repr

/-- A walk-cache entry (R36): the table that a pointer of a level names. -/
structure WalkEntry where
  die : Nat
  ctx : Nat
  part : Nat
  level : Nat
  prefix_ : Nat
  base : Nat
  deriving DecidableEq, Repr

/-- A miss in a die's miss queue (R37), of a thread or of a row of a command; `served` once a walker has been given to it. -/
structure Miss where
  die : Nat
  tid : Tid
  cmd : Option Nat
  ctx : Nat
  va : Nat
  served : Bool
  deriving DecidableEq, Repr

/-- A loaded key slot (R33): OWNER and the generation of its load. -/
structure KeySlot where
  owner : Nat
  gen : Nat
  deriving DecidableEq, Repr

/-- What a TLBINV or a LINEOP icinv at pod scope asks of every package that holds a context with a JOBID (R41, R243): the JOBID, the request and its
address. -/
structure InvAsk where
  jobid : Nat
  op : PodOp
  va : Nat
  deriving DecidableEq, Repr

/-- A TLBINV in progress (R42): its thread, what it asks of other packages, when it began, the package that failed to acknowledge it, and whether it
is complete. -/
structure Inval where
  id : Nat
  tid : Tid
  ask : Option InvAsk
  sinceNs : Nat
  failed : Option Nat
  done : Bool
  deriving DecidableEq, Repr

/-- Translation. -/
structure Xlate where
  ctxs : List (Nat × CtxRec)
  tlb : List TlbEntry
  wcache : List WalkEntry
  missQ : List Miss
  keys : List (Nat × KeySlot)
  keyGen : Nat
  inv : List Inval
  deriving DecidableEq, Repr

/-- Translation after a package reset: no context, no key, empty TLBs. -/
def Xlate.reset : Xlate := { ctxs := [], tlb := [], wcache := [], missQ := [], keys := [], keyGen := 0, inv := [] }

end Sys2Proof.Machine
end

