-- ==== Sys2Proof/Machine/UnitState.lean ====
section
/-! DEFINITION. The state of tiles (R47 to R67), engines and timelines (R117 to R131), barriers (R228 to R230), and of the cores and quads
themselves (R148, R249, R261, R328 to R330). -/

namespace Sys2Proof.Machine

/-- The store behind a tile (R50): a T-core's tile store, a V-quad's local store, or a die's pinned L2. -/
inductive Store where
  | tcore (c : CoreId)
  | vquad (die quad : Nat)
  | pinned (die : Nat)
  deriving DecidableEq, Repr

/-- Who holds a read lock: a thread (TLOCK.r), or the array for a command (R65). -/
inductive LockHolder where
  | thread (t : Tid)
  | array (cmd : Nat)
  deriving DecidableEq, Repr

/-- A tile: its table entry (R57), its lock state with the queue of waiting requests (R62, R63), and its bytes, by row × PITCH × 64 + byte. PEND
is computed from the engine commands. `bad` are the rows with an error that its code has yet to detect (R87), and whether the code corrects it. -/
structure Tile where
  key : TileKey
  fmt : Fmt
  rows : Nat
  cols : Nat
  othr : Nat
  ostand : Nat
  store : Store
  part : Nat
  base : Nat
  hcore : Nat
  readers : List LockHolder
  writer : Option Tid
  queue : List (Tid × Bool)
  bytes : Cells
  bad : List (Nat × Bool)
  deriving DecidableEq, Repr

/-- A timeline counter (R121): `ahead` are the commands above VAL that have completed. F and FSEQ are computed from the held commands. -/
structure Timeline where
  key : TlKey
  val : Nat
  iss : Nat
  stamp : Nat
  ahead : List Nat
  deriving DecidableEq, Repr

/-- The abandoned episode that a barrier remembers (R230). -/
structure Abandoned where
  episode : Nat
  arrived : List Tid
  lack : Nat
  deriving DecidableEq, Repr

/-- A barrier (R228): its episode EP, the member count that the first arrival fixed, the number of arrivals and the threads that made them and have not
ended, and when the latest one was made. -/
structure Barrier where
  key : BarKey
  ep : Nat
  n : Option Nat
  count : Nat
  arrived : List Tid
  lastNs : Nat
  abandoned : Option Abandoned
  deriving DecidableEq, Repr

/-- The window of a copy command (R258): rows, elements (or bytes) per row, first tile row, stride. -/
structure CopyWin where
  nr : Nat
  nc : Nat
  row0 : Nat
  stride : Int
  deriving DecidableEq, Repr

/-- An operand that the array has read (R65): its format, pitch and bytes. -/
structure Captured where
  key : TileKey
  fmt : Fmt
  cols : Nat
  bytes : Cells
  deriving DecidableEq, Repr

/-- The commands of the engines (R117, R257, R263). -/
inductive CmdOp where
  | tload (tile : TileKey) (base : Nat) (w : CopyWin)
  | tstore (tile : TileKey) (base : Nat) (w : CopyWin)
  | tcopyT (src dst : TileKey) (w : CopyWin)
  | tcopyM (src dst : Nat) (w : CopyWin)
  | tmma (bank : Bool) (a b : TileKey) (fa fb : Fmt) (sa sb : Option TileKey) (k : Nat) (za : Bool)
  | taccrd (bank : Bool) (dst : TileKey) (r : Rm) (sat : Bool) (seed : BitVec 32) (clr : Bool)
  | tmma32 (bank : Bool) (a b : TileKey) (k : Nat)
  deriving DecidableEq, Repr

/-- A held fault (R129): its cause 0x0F or 0x10, TVAL, class and level, and whether it was read from a tile (R89). -/
structure HeldFault where
  cause : Nat
  tval : Word
  fclass : Nat
  flevel : Nat
  tsrc : Bool
  /-- The cores that a rerun leaves out (R327). -/
  exclude : List CoreId
  /-- Whether it has been delivered and not yet restarted (R130, R131). -/
  delivered : Bool
  deriving DecidableEq, Repr

/-- An engine command in flight (R122): its thread, the context and the privilege that it was issued under, its core, its counter and sequence
number, PROG, a held fault, and the operands read. -/
structure Cmd where
  id : Nat
  tid : Tid
  ctx : Nat
  priv : Bool
  core : CoreId
  key : TlKey
  tln : Nat
  seq : Nat
  op : CmdOp
  pc : Word
  prog : Nat
  held : Option HeldFault
  /-- Operands still to be read by the array, in order: those of a TMMA32 once for each micro-step (R267). -/
  toRead : List TileKey
  captured : List Captured
  /-- A TMMA whose operand read consumed poison: it completes without changing the bank (R265). -/
  poisoned : Bool
  /-- The pod-window requests of the row in progress (R133), and its source once read, while its write is awaited (R127). -/
  pod : List PodPending
  row : Option (List Byte)
  accepted : Nat
  /-- Its stand has ended, in direct mode or not: it completes into discarded state (R61, R120, R354), or never when it is held (R131). -/
  orphan : Option Bool
  /-- The tiles that it names and that have been freed: their discarded stripes (R61). -/
  ghosts : List Tile
  /-- The tracked writes that its accesses come after (R105), its own among them. -/
  know : List Nat
  deriving DecidableEq, Repr

/-- The KIND of an accumulator bank (R261). -/
inductive AccKind where
  | fp32 | int32 | lns
  deriving DecidableEq, Repr

/-- An accumulator entry: FP32 or INT32 bits, or the 48-bit Q, and the NaR bit (R180). -/
structure AccEntry where
  v : Int
  nar : Bool
  deriving DecidableEq, Repr

/-- A bank of a T-core's array (R261); an entry that is not listed is +0. -/
structure AccBank where
  core : CoreId
  bank : Bool
  kind : AccKind
  entries : List (Nat × AccEntry)
  deriving DecidableEq, Repr

/-- A write of an h register (R148): the core, the register, the cycle of issue, the value. -/
structure HWrite where
  core : CoreId
  reg : BitVec 3
  cycle : Nat
  value : Word
  deriving DecidableEq, Repr

/-- A chain queue (R249), named by its upstream slot: from slot s of a core to slot s of the next core. -/
structure ChainQ where
  core : CoreId
  slot : Nat
  items : List Word
  deriving DecidableEq, Repr

/-- A request of the lease arbiter that waits (R329, R330): the thread, the count that it needs and the most that it may have, the grant that it gave up
at this decision (R273), the clusters reserved for it, which once they reach what it needs are its grant, and whether it is a re-grant (R152). -/
structure LeaseReq where
  die : Nat
  quad : Nat
  tid : Tid
  lmin : Nat
  most : Nat
  old : Nat
  reserved : Nat
  regrant : Bool
  deriving DecidableEq, Repr

/-- A command that found its engine's queue full and has not been accepted since (R117, R162). -/
structure EngineWait where
  tid : Tid
  matrix : Bool
  core : CoreId
  deriving DecidableEq, Repr

/-- The tiles, engines and cores. -/
structure Units where
  tiles : List Tile
  timelines : List Timeline
  barriers : List Barrier
  cmds : List Cmd
  cmdNext : Nat
  /-- The commands that wait at full engine queues, in arrival order (R162). -/
  engineQ : List EngineWait
  acc : List AccBank
  hregs : List HWrite
  chains : List ChainQ
  /-- The slots in which a thread in chain mode has ended, each with its stand, which has not (R251). -/
  chainLeft : List (Place × Nat)
  leaseQ : List LeaseReq
  /-- The partition that a core belongs to (R328). -/
  owner : List (CoreId × Nat)
  /-- Cores out of the pool (R346, R384). -/
  out : List CoreId
  /-- The clusters removed from their pools, by die, quad and number (R384). -/
  removed : List (Nat × Nat × Nat)
  /-- FEAT bits that a die lacks (R371). -/
  lacks : List (Nat × Nat)
  /-- The slot or context of a core that had the last turn, and the CYCLE of that turn (R146, R150, R61). -/
  turns : List (CoreId × Nat × Nat)
  deriving DecidableEq, Repr

/-- The units after a package reset. -/
def Units.reset : Units :=
  { tiles := [], timelines := [], barriers := [], cmds := [], cmdNext := 0, engineQ := [], acc := [], hregs := [], chains := [], chainLeft := [], leaseQ := [], owner := []
    out := [], removed := [], lacks := [], turns := [] }

end Sys2Proof.Machine
end

