-- ==== Sys2Proof/Machine/GladeState.lean ====
section
/-! DEFINITION. The state of Glade, its dispatchers, jobs and stands (R138 to R144, R310 to R332), and of the supervisor's rings and commands
(R339 to R342, R351, R352). -/

namespace Sys2Proof.Machine

/-- A task packet (R320). -/
structure Packet where
  entry : Word
  args : Word
  csa : Word
  scla : ScaleShadow
  sclb : ScaleShadow
  budget : Nat
  notbefore : Nat
  seed : BitVec 32
  standix : Nat
  ctx : Nat
  cls : CoreClass
  threads : Nat
  prio : Nat
  retries : Nat
  rnd : Rm
  lmin : Nat
  lpref : Nat
  fmta : Fmt
  fmtb : Fmt
  queue : Nat
  node : Nat
  /-- The job of the packet, and the stand's number s in it once dispatched (R314). -/
  job : Nat
  serial : Option Nat
  /-- The preload that the packet's record describes, if PEN = 1 (R326): base, descriptor, handle, shape. -/
  preload : Option (Word × Word × Nat × Word)
  /-- Cores that a rerun leaves out (R327), and the die whose task released its node (R321). -/
  exclude : List CoreId
  near : Option Nat
  /-- The die that its stands were placed on when its node was released (R319). -/
  die : Option Nat
  deriving DecidableEq, Repr

/-- A task that is ready (R315): the next of `count` stands of a batch, as the packet of the first of them, or a copy or signal node. -/
inductive Ready where
  | stands (p : Packet) (count : Nat)
  | copy (job : Nat) (node src dst n : Nat)
  | signal (job : Nat) (node dst : Nat) (v : Word)
  deriving DecidableEq, Repr

/-- A feature that a job's stand lacked (R332): a FEAT bit, or clusters. -/
inductive Missing where
  | feat (bit : Nat)
  | clusters (n : Nat)
  deriving DecidableEq, Repr

/-- A job (R138, R312, R319). -/
structure Job where
  id : Nat
  queue : Nat
  part : Nat
  ctx : Nat
  done : Word
  csabase : Word
  slots : Nat
  graph : Bool
  /-- Stands or nodes that must finish, and those that have. -/
  total : Nat
  finished : Nat
  /-- The number of the next stand in order of first dispatch. -/
  nextSerial : Nat
  /-- Stands of each node that have not retired, for the batch nodes begun. -/
  nodeLeft : List (Nat × Nat)
  /-- Nodes of which some predecessor has finished (R321). -/
  touched : List Nat
  /-- NOTBEFORE of the job's record. -/
  notbefore : Nat
  /-- The status and reason that end it, once decided (R313, R319). -/
  failed : Option (Nat × Nat)
  missing : List Missing
  /-- Stopped by a gang switch (R352), and whether its report has been written. -/
  gang : Bool
  gangSaved : Bool
  gangResume : Bool
  ended : Bool
  deriving DecidableEq, Repr

/-- A queue's ready list and its turn in the round robin (R315, R316). -/
structure QueueSt where
  queue : Nat
  ready : List Ready
  deficit : Nat
  /-- The cycle of its last dispatch, or since when it has held an eligible task. -/
  since : Nat
  lift : Nat
  /-- Packets that wait for NOTBEFORE (R324). -/
  deferred : List Ready
  deriving DecidableEq, Repr

/-- What a stand is doing (R143, R348, R350, R351). -/
inductive StandSt where
  | live
  /-- Its threads stop at their next boundaries; the cause reported when all are saved. -/
  | preempting (cause : Nat)
  | saved
  /-- Resumption has been asked for (R351). -/
  | resuming
  /-- Stopped with its state kept by an escalation (R347). -/
  | escalated
  deriving DecidableEq, Repr

/-- A stand (R138): its packet and placement, its task's write mode (R79), and its accounts. -/
structure Stand where
  id : Nat
  /-- Which of the stands begun so far it is: ids are used again. -/
  born : Nat
  packet : Packet
  part : Nat
  die : Nat
  quad : Nat
  /-- Threads that have started in it, spawned ones included. -/
  started : Nat
  direct : Bool
  st : StandSt
  /-- Cycles since its start, or since its resumption, while not Saved (R325). -/
  used : Nat
  reports : Nat
  lastCause : Nat
  /-- The REASON of the first thread that ended otherwise than by TEXIT in user code (R349). -/
  bad : Option Nat
  /-- That thread. -/
  badTid : Option Tid
  /-- The feature whose lack stopped it (R332). -/
  lack : Option Missing
  /-- The lines that its retirement has published (R84). -/
  pub : List Nat
  deriving DecidableEq, Repr

/-- A packet in a die's dispatcher queue (R322), and whether it waits after a refusal. -/
structure Placed where
  die : Nat
  packet : Packet
  waiting : Bool
  deriving DecidableEq, Repr

/-- A packet held in a core's preload slot (R326): the stand id reserved for it, whether its tile was made, and the contexts that the current task will
free, which are kept for it. -/
structure PreloadSlot where
  core : CoreId
  packet : Packet
  stand : Nat
  tile : Option TileKey
  waits : List Place
  deriving DecidableEq, Repr

/-- A message on its way to its receiver (R233). -/
structure Flight where
  to_ : Tid
  msg : Message
  deriving DecidableEq, Repr

/-- A SPAWN accepted and not yet started (R233). -/
structure SpawnReq where
  tid : Tid
  place : Place
  entry : Word
  sender : Tid
  count : Nat
  csa : Word
  /-- The tracked writes that it came after (R101 case 9). -/
  know : List Nat
  deriving DecidableEq, Repr

/-- A thread in a partition's streamer queue (R161): it waits for a context of one of the classes, for a migration of a cause. -/
structure Queued where
  tid : Tid
  part : Nat
  classes : List CoreClass
  src : Place
  cause : Nat
  deriving DecidableEq, Repr

/-- A stand report that waits for its ring (R341): its stand, by its id and which one it is, none for the report of a gang switch (R352); and the stand's
reports written before it, which its SEQ follows (R336). -/
structure Report where
  part : Nat
  stand : Option (Nat × Nat)
  before : Nat
  words : List Word
  deriving DecidableEq, Repr

/-- An action that makes accesses which no thread makes: Glade's, under a job's context (R313, R318, R319), which are the expansion of a queue's record, a
node's end and a job's completion record; or a partition's debug command (R359). -/
inductive GladeKey where
  | record (q : Nat)
  | node (job node : Nat)
  | done (job : Nat)
  | debug (part : Nat)
  deriving DecidableEq, Repr

/-- The requests to other packages of the action in progress, and whether one of them has no answer yet. -/
structure Acting where
  pods : List PodPending
  waits : Bool
  deriving DecidableEq, Repr

/-- The scheduler's state. -/
structure Glade where
  queues : List QueueSt
  jobs : List Job
  stands : List Stand
  placed : List Placed
  preloads : List PreloadSlot
  flights : List Flight
  spawns : List SpawnReq
  streamQ : List Queued
  reports : List Report
  /-- Partitions on whose thread SVIDX.THR cause 0x23 is raised, with the ring index (R341). -/
  raised : List (Nat × Nat)
  /-- SPAWN senders refused with status 1 since a core's last notice (R323), and notices that wait for a full receive queue. -/
  refused : List (CoreId × Tid)
  notices : List (Tid × Word)
  /-- Cores of which a context was freed and no notice has been sent (R323). -/
  freed : List CoreId
  /-- The queue that each half visits at each level, by 4 × half + level (R315). -/
  turn : List (Nat × Nat)
  jobNext : Nat
  standNext : Nat
  /-- Contexts freed in the cycle in progress while threads wait in a streamer queue (R161). -/
  freedNow : List Place
  /-- The command of SVCMD that a partition has begun, as it was written (R342). -/
  svCmd : List (Nat × Word)
  /-- The requests to other packages that each such action has made so far (R133), and those of the action in progress; none between events. -/
  asks : List (GladeKey × List PodPending)
  acting : Option Acting
  deriving DecidableEq, Repr

/-- The scheduler after a package reset. -/
def Glade.reset : Glade :=
  { queues := [], jobs := [], stands := [], placed := [], preloads := [], flights := [], spawns := [], streamQ := [], reports := [], raised := []
    refused := [], notices := [], freed := [], turn := [], jobNext := 0, standNext := 0, freedNow := [], svCmd := [], asks := [], acting := none }

end Sys2Proof.Machine
end

