-- ==== Sys2Proof/Machine/PodState.lean ====
section
/-! DEFINITION. The state of debug (R356 to R370), of the pod window and the collectives (R133, R307 to R309), and of host, boot and health (R375 to
R388). -/

namespace Sys2Proof.Machine

/-- A capability-table entry (R356); an entry that is not listed is not in use, and holds its nonce still (log 9). -/
structure CapEntry where
  part : Nat
  index : Nat
  nonce : BitVec 32
  used : Bool
  parent : Nat
  rights : BitVec 8
  set : Bool
  ctx : Nat
  stand : Nat
  deriving DecidableEq, Repr

/-- A k register of a translation context that is not zero (R235). -/
structure KReg where
  ctx : Nat
  k : Nat
  token : Word
  deriving DecidableEq, Repr

/-- A stop point (R361): its slot, PC and element; the entry of the capability that set it; whether it has fired in the issue in progress. -/
structure StopPoint where
  slot : Nat
  pc : Word
  element : Nat
  cap : Nat
  passed : Bool
  deriving DecidableEq, Repr

/-- A trace ring, or a log (R364, R367): its base, its records, the tool's context, and the records written and lost. -/
structure TraceBuf where
  base : Nat
  records : Nat
  ctx : Nat
  widx : Nat
  lost : Nat
  deriving DecidableEq, Repr

/-- Replay (R369): the log, its entries, the next one, and whether the thread runs on free. -/
structure Replaying where
  base : Nat
  entries : Nat
  ctx : Nat
  next : Nat
  free : Bool
  goOn : Bool
  deriving DecidableEq, Repr

/-- A debug session on a thread (R359): the capability entry it was opened under, its trace, record and replay, and the checksum (R368). -/
structure Session where
  tid : Tid
  part : Nat
  cap : Nat
  profile : Bool
  points : List StopPoint
  trace : Option TraceBuf
  record : Option TraceBuf
  replay : Option Replaying
  /-- The cycle at which the sample period began (R364). -/
  sampleAt : Nat
  /-- Its entry has been revoked in this cycle (R357): it ends with the cycle, or in a reset that reaches it before (R366). -/
  revoked : Bool
  deriving DecidableEq, Repr

/-- A debug command that the engine has started and not finished: STOP waits for the boundary (R360). `reached`: its thread was Stopped, and continued
with the end of its session (R357). -/
structure DbgBusy where
  part : Nat
  tid : Tid
  slot : Nat
  reached : Bool
  deriving DecidableEq, Repr

/-- Debug. -/
structure Debug where
  caps : List CapEntry
  nonceNext : Nat
  /-- The serial of the nonce that an entry was last given, by partition and index, and that of a partition's other entries (R356). -/
  nonces : List ((Nat × Nat) × Nat)
  nonceBase : List (Nat × Nat)
  kregs : List KReg
  sessions : List Session
  busy : List DbgBusy
  /-- Divergence records made (R370): the thread and the four dwords. -/
  diverged : List (Tid × List Word)
  deriving DecidableEq, Repr

/-- Debug after a package reset. -/
def Debug.reset : Debug := { caps := [], nonceNext := 0, nonces := [], nonceBase := [], kregs := [], sessions := [], busy := [], diverged := [] }

/-- A request of this package to another that has no answer yet (R133): its issuer, or the copy command whose row it carries. -/
structure PodOut where
  id : Nat
  dst : Nat
  tid : Tid
  cmd : Option Nat
  va : Nat
  offset : Nat
  jobid : Nat
  op : PodOp
  how : AccessHow
  sentNs : Nat
  /-- A posted T-core store, with its pc and issue count (R343). -/
  posted : Option (Word × Nat)
  /-- A strip record's store (R275), which nothing waits for. -/
  strip : Bool
  deriving DecidableEq, Repr

/-- An answer of this package to another's request (R38, R133). -/
structure PodReply where
  to_ : Nat
  id : Nat
  answer : PodAns
  deriving DecidableEq, Repr

/-- A buddy copy on its way (R307): the rank it copies, its holder's package once known. -/
structure BuddyCopy where
  rank : Nat
  buddy : Nat
  contribution : Contribution
  at_ : Option Nat
  deriving DecidableEq, Repr

/-- What a collective instance has come to: a result for each member by rank, or a failure reason and silent rank (R308, R309). -/
inductive CollEnd where
  | result (p : List Contribution)
  | failed (reason : Nat) (rank : Nat)
  deriving DecidableEq, Repr

/-- A collective instance (R307). -/
structure Instance where
  key : CollKey
  count : Nat
  tree : Nat
  useBuddy : Bool
  tmoNs : Nat
  startNs : Nat
  /-- Contributions of this package that have not reached the tree. -/
  sent : List Contribution
  got : List Contribution
  copies : List BuddyCopy
  fin : Option CollEnd
  /-- The contributions that copies have stood in for, and that have not come since (R309). -/
  late : List Contribution
  /-- Members of this package that wait for the result: their thread, rank, vd and group register. -/
  waiting : List (Tid × Nat × Reg × Nat)
  deriving DecidableEq, Repr

/-- The pod. -/
structure Pod where
  out : List PodOut
  outNext : Nat
  replies : List PodReply
  colls : List Instance
  /-- The packages of group members that some contribution has shown (R307): job, GID, rank and package. -/
  known : List (Nat × Nat × Nat × Nat)
  deriving DecidableEq, Repr

/-- The pod after a package reset. -/
def Pod.reset : Pod := { out := [], outNext := 0, replies := [], colls := [], known := [] }

/-- A boot-log record (R382). -/
structure BootRec where
  start : Nat
  step : Nat
  unit : Unit_
  var : Nat
  out : Nat
  code : Word
  time : Word
  deriving DecidableEq, Repr

/-- What has become of a die-to-die link (R383, R384). -/
inductive LinkSt where
  | half | down
  deriving DecidableEq, Repr

/-- Host, boot and health. -/
structure Platform where
  /-- The boot log in flash, newest first, at most 4,096 records (R382). -/
  bootLog : List BootRec
  startCount : Nat
  bootStopped : Bool
  /-- What the host interface reports of a boot that has stopped: the step and its unit (R383). -/
  bootReport : Option (Nat × Unit_)
  /-- The step whose first attempt of this start has failed, with its unit and whether it was the fallback (R383). -/
  retrying : List (Nat × Unit_)
  /-- C-die host links that are down: links 0, 1 on C0, 2, 3 on C1 (R375). -/
  linksDown : List Nat
  /-- The die-to-die links that run at half lane rate or have left their pool, by a die and a side of it (R383, R384). -/
  links : List ((Nat × Nat) × LinkSt)
  /-- The measurement registers: the SHA-256 hash of each image that the security root has measured before it ran (R387, log 15). -/
  measures : List (BitVec 256)
  /-- The hour of pod time in which a die's health register was last updated, by die (R385). -/
  healthHour : List (Nat × Nat)
  /-- The measurement reports signed for the host (R388). -/
  reports : List Word
  /-- Key requests accepted and not carried out. -/
  keyReqs : List SpdmOp
  /-- The results of host accesses: the value read, or none for an unsuccessful completion (R376). -/
  hostData : List (Option Nat)
  deriving DecidableEq, Repr

/-- The platform after a package reset: the boot log is the one part that a reset leaves, and it is empty in a package that has never started
(log 10). -/
def Platform.reset : Platform :=
  { bootLog := [], startCount := 0, bootStopped := false, bootReport := none, retrying := [], linksDown := [], links := [], measures := [], healthHour := [], reports := [], keyReqs := [], hostData := [] }

/-- Time (R135, R136, R381, R386) and the package's own constants (R1, R14, R18). -/
structure Clock where
  blend : Blend
  pkg : Nat
  /-- Cycles that every die has run since reset, but for those it stopped. -/
  cycle : Nat
  /-- Cycles that a die has stopped in all (R386), by die. -/
  stopped : List (Nat × Nat)
  time : Nat
  lock : Bool
  hold : Bool
  master : Bool
  err : BitVec 16
  /-- Whether the package has been locked to pod time since its reset (R382). -/
  synced : Bool
  /-- Region 00 is populated below 512 GiB only (R18, R383). -/
  half : Bool
  /-- Free values taken (log 4). -/
  free : Nat
  deriving DecidableEq, Repr

/-- The clock after a package reset (log 1, log 2). -/
def Clock.reset : Clock :=
  { blend := .j14, pkg := 0, cycle := 0, stopped := [], time := 0, lock := false, hold := false, master := false, err := 0xFFFF, synced := false, half := false, free := 0 }

end Sys2Proof.Machine
end

