-- ==== Sys2Proof/Machine/State.lean ====
section
/-! DEFINITION. The state of the package, its faults and refusals, and the state after a package reset (R354). -/

namespace Sys2Proof.Machine

/-- Who makes the next step. -/
inductive Who where
  /-- A thread that issues an instruction. -/
  | thread (t : Tid)
  /-- An event of the opcode table. -/
  | event (e : Instr)
  deriving DecidableEq, Repr

/-- A turn of the schedule (log 3): the cycles and nanoseconds that pass before it, and who moves. -/
structure Turn where
  cycles : Nat
  ns : Nat
  who : Who
  deriving DecidableEq, Repr

/-- The package. `th` is the current thread, the one whose instruction `exec` runs; every other thread is in `others`. -/
structure State where
  th : Thread
  others : List Thread
  turns : List Turn
  clk : Clock
  ms : MemSys
  xl : Xlate
  regs10 : List (Reg10 × Word)
  un : Units
  gl : Glade
  db : Debug
  pod : Pod
  pf : Platform
  deriving DecidableEq, Repr

/-- Why a step stops with a fault. -/
inductive Fault where
  /-- A step of the schedule names a thread that does not exist: raised by `step`. Safe: the hardware has no such turn. -/
  | noSuchThread
  deriving DecidableEq, Repr

/-- Why a step is refused. -/
inductive Refusal where
  /-- An instruction that has no meaning yet: raised by `exec`. Safe. -/
  | notModelled (mnemonic : String)
  deriving DecidableEq, Repr

/-- The package right after a package reset: nothing runs, no key is loaded, no context is enabled, every cache and queue is empty (R354). -/
def State.reset : State :=
  { th := Thread.reset, others := [], turns := [], clk := Clock.reset, ms := MemSys.reset, xl := Xlate.reset, regs10 := [], un := Units.reset
    gl := Glade.reset, db := Debug.reset, pod := Pod.reset, pf := Platform.reset }

end Sys2Proof.Machine
end

