-- ==== Sys2Proof/Machine/Base.lean ====
section
/-! DEFINITION. What a meaning can come to, and access to threads, registers and region-10 registers. -/

namespace Sys2Proof.Machine

/-- A trap that an instruction raises (R11): the cause, TVAL and the fields of its record (R336). `tepc` is none for the instruction's own
address. -/
structure TrapReq where
  cause : Nat
  tval : Word := 0
  vkind : Nat := 0
  fclass : Nat := 0
  flevel : Nat := 0
  ssz : Nat := 0
  ndisc : Nat := 0
  tmicro : Word := 0
  mic : Bool := false
  held : Bool := false
  imp : Bool := false
  veidx : Option Nat := none
  tsrc : Bool := false
  tepc : Option Word := none
  /-- Cause 0x10 on an instruction fetch (R347). -/
  onFetch : Bool := false
  /-- The cores that a rerun leaves out (R327). -/
  exclude : List CoreId := []
  /-- The held command whose fault it is (R130). -/
  heldId : Option Nat := none
  /-- The stamp of a completion that ended the wait which it cuts short (R137). -/
  stamp : Option Nat := none
  deriving DecidableEq, Repr

/-- What an instruction comes to: it completes, it traps, the thread parks before it, or it is refused. -/
inductive Eff where
  | done (s : State)
  | trap (t : TrapReq) (s : State)
  | park (w : Wait) (s : State)
  | refuse (r : Refusal)

/-- A trap with a TVAL. -/
def trapOf (cause : Nat) (tval : Word) (s : State) : Eff := .trap { cause := cause, tval := tval } s

/-- The rest of an instruction after a part that completed. -/
def Eff.bind (e : Eff) (k : State → Eff) : Eff :=
  match e with
  | .done s => k s
  | .trap t s => .trap t s
  | .park w s => .park w s
  | .refuse r => .refuse r

/-- The result of a part of an instruction that gives a value: the value with the state, or the end of the instruction. -/
inductive Res (α : Type) where
  | ok (a : α) (s : State)
  | stop (e : Eff)

/-- The rest of an instruction after a part that gave a value. -/
def Res.andThen {α : Type} (r : Res α) (k : α → State → Eff) : Eff :=
  match r with
  | .ok a s => k a s
  | .stop e => e

/-- A further part after a part that gave a value. -/
def Res.bind {α β : Type} (r : Res α) (k : α → State → Res β) : Res β :=
  match r with
  | .ok a s => k a s
  | .stop e => .stop e

/-- The current thread changed. -/
def State.onTh (s : State) (f : Thread → Thread) : State := { s with th := f s.th }

/-! Registers. -/

/-- x[r]: x0 reads zero (R10), and in chain mode x26 is the word popped (R249). -/
def readX (t : Thread) (r : Reg) : Word :=
  if r = 0 then 0
  else if t.status.chain && decide (r = 26) then t.chainIn.getD 0
  else t.x.get ⟨r.toNat, r.isLt⟩

/-- x[r] := v: a write to x0 is discarded (R10), and in chain mode a write to x27 is pushed (R249). -/
def writeX (t : Thread) (r : Reg) (v : Word) : Thread :=
  if r = 0 then t
  else if t.status.chain && decide (r = 27) then { t with chainOut := some v }
  else { t with x := t.x.set r.toNat v r.isLt }

/-- f[r]. -/
def readF (t : Thread) (r : Reg) : Word := t.f.get ⟨r.toNat, r.isLt⟩

/-- f[r] := v, which sets STATUS.FPV (R141, R219). -/
def writeF (t : Thread) (r : Reg) (v : Word) : Thread :=
  { t with f := t.f.set r.toNat v r.isLt, status := { t.status with fpv := true } }

/-- Flags accrued: an OR into FFLAGS; FPV is set when a flag is among them (R173). -/
def accrue (t : Thread) (fl : FpFlags) : Thread :=
  if fl = 0 then t else { t with fflags := t.fflags ||| fl, status := { t.status with fpv := true } }

/-- v[r]. -/
def readV (t : Thread) (r : Reg) : VReg := t.vec.v.get ⟨r.toNat, r.isLt⟩

/-- v[r] := a register image. -/
def writeV (t : Thread) (r : Reg) (v : VReg) : Thread := { t with vec := { t.vec with v := t.vec.v.set r.toNat v r.isLt } }

/-- The current thread's x[r]. -/
def State.rx (s : State) (r : Reg) : Word := readX s.th r

/-- The current thread's x[r] := v. -/
def State.wx (s : State) (r : Reg) (v : Word) : State := s.onTh fun t => writeX t r v

/-- The bytes that the instruction at the pc takes, 8 when a prefix is latched (R199), else those of its word. -/
def instrBytes (t : Thread) (size : Nat) : Nat := if t.pfx.isSome then 8 else size

/-- What an instruction that ends leaves behind: its prefix, its pod-window answers and its early loads are spent. -/
def clearLatches (t : Thread) : Thread := { t with pfx := none, succ := none, pod := [], expired := false, dauAhead := [], waitStamp := none, micro := 0 }

/-- The pc moved past the instruction and its prefix, the prefix spent. -/
def State.advance (s : State) (size : Nat) : State :=
  s.onTh fun t => clearLatches { t with pc := t.pc + BitVec.ofNat 64 (instrBytes t size) }

/-- An instruction of `size` bytes that completes. -/
def finishOp (size : Nat) (s : State) : Eff := .done (s.advance size)

/-! Threads. -/

/-- Every thread of the package. -/
def State.threads (s : State) : List Thread := s.th :: s.others

/-- A thread that has not ended, by its name. -/
def findIn (l : List Thread) (t : Tid) : Option Thread := l.find? fun th => decide (th.tid = t) && decide (th.run ≠ .ended)

/-- The live thread of a name. -/
def State.getThread (s : State) (t : Tid) : Option Thread := findIn s.threads t

/-- A live thread of a list changed. -/
def setIn (l : List Thread) (t : Tid) (f : Thread → Thread) : List Thread :=
  l.map fun th => if decide (th.tid = t) && decide (th.run ≠ .ended) then f th else th

/-- A live thread changed. -/
def State.modThread (s : State) (t : Tid) (f : Thread → Thread) : State :=
  { s with th := (if decide (s.th.tid = t) && decide (s.th.run ≠ .ended) then f s.th else s.th), others := setIn s.others t f }

/-- Every live thread that satisfies a test changed. -/
def State.modThreads (s : State) (p : Thread → Bool) (f : Thread → Thread) : State :=
  let g := fun th => if p th && decide (th.run ≠ .ended) then f th else th
  { s with th := g s.th, others := s.others.map g }

/-- The live thread of a name made the current one, if there is one. -/
def State.switchTo (s : State) (t : Tid) : Option State :=
  if decide (s.th.tid = t) && decide (s.th.run ≠ .ended) then some s
  else
    match findIn s.others t with
    | none => none
    | some th =>
      let rest := s.others.filter fun u => !(decide (u.tid = t) && decide (u.run ≠ .ended))
      some { s with th := th, others := if s.th.run = .ended ∧ s.th.tid = ⟨0, 0⟩ then rest else s.th :: rest }

/-- Something done for a thread as if it were the current one; the current thread is the same afterwards. -/
def State.asThread (s : State) (t : Tid) (f : State → State) : State :=
  let cur := s.th.tid
  match s.switchTo t with
  | none => s
  | some s1 =>
    let s2 := f s1
    match s2.switchTo cur with
    | some s3 => s3
    | none => s2

/-! Cycles and free values. -/

/-- The cycle count of a die: CYCLE (R136). -/
def State.dieCycle (s : State) (die : Nat) : Nat := s.clk.cycle - (look s.clk.stopped die).getD 0

/-- The next free dword (log 4). -/
def State.takeFree (s : State) : Word × State := (Config.freeWord s.clk.free, { s with clk := { s.clk with free := s.clk.free + 1 } })

/-! Region-10 registers. -/

/-- The value that a region-10 register holds at reset (R33, R53, R91, R310, R328, R339, R342, R358, R375, R377, R385); TIMESTAT lies in the clock. -/
def reg10Reset : Reg10 → Word
  | .qctl _ => BitVec.ofNat 64 (3 * 2 ^ 60 + 1 * 2 ^ 32)
  | .diehlth _ => 0xFFFFFFFF00000000
  | _ => 0

/-- The stored bits of a region-10 register. -/
def State.reg10 (s : State) (r : Reg10) : Word := (look s.regs10 r).getD (reg10Reset r)

/-- A region-10 register's stored bits set; a register at its reset value is not listed. -/
def State.setReg10 (s : State) (r : Reg10) (v : Word) : State :=
  { s with regs10 := if v = reg10Reset r then unassoc s.regs10 r else assoc s.regs10 r v }

/-- The field [hi:lo] of a word. -/
def fld (w : Word) (hi lo : Nat) : Nat := bitsAt w.toNat lo (hi + 1 - lo)

/-- A word with the field [hi:lo] replaced. -/
def setFld (w : Word) (hi lo v : Nat) : Word :=
  BitVec.ofNat 64 (w.toNat - bitsAt w.toNat lo (hi + 1 - lo) * 2 ^ lo + v % 2 ^ (hi + 1 - lo) * 2 ^ lo)

/-- A single bit of a word. -/
def bitOf (w : Word) (n : Nat) : Bool := w.getLsbD n

/-- Whether a register is one of the package's. -/
def regExists (s : State) : Reg10 → Bool
  | .defkey p | .svhnd p | .svring p | .svidx p | .svcmd p | .dbgring p => decide (p < 16)
  | .keyslot n => decide (n < 2048)
  | .pinq die p => (computeDies s.clk.blend).contains die && decide (p < 16)
  | .qbase q | .qctl q | .qptr q => decide (q < 256)
  | .qown die quad => (computeDies s.clk.blend).contains die && classOfDie die != .v && decide (quad < quadsOf (classOfDie die))
  | .vquota die quad p => (computeDies s.clk.blend).contains die && classOfDie die == .v && decide (quad < quadsOf .v) && decide (p < 16)
  | .hwin n => decide (n < 16)
  | .hport n => decide (n < 48)
  | .diehlth die => (dies s.clk.blend).contains die
  | .rasbase | .rasidx | .timestat => true

/-- Whether a dword of region 10 is one that the package has (R18, R19). -/
def devExists (s : State) : DevReg → Bool
  | .reg r => regExists s r
  | .context c d => decide (c < 4096) && decide (d < 4)
  | .cap p i d => decide (p < 16) && decide (i < 4096) && decide (d < 2)
  | .tile k d => decide (k.handle < 256) && decide (d < 2)
  | .timeline k d => decide (k.num < 16) && decide (d < 4)
  | .packet die n d => (computeDies s.clk.blend).contains die && decide (n < 64) && decide (d < 8)

/-- The dword of region 10 that an address lies in, if the package has one there (R18, R19, log 12). -/
def devOf (s : State) (pa : Nat) : Option DevReg := (Config.devAt (pa / 8)).filter (devExists s)

/-! Stands, jobs and partitions. -/

/-- The stand of an id. -/
def State.stand? (s : State) (id : Nat) : Option Stand := s.gl.stands.find? fun st => decide (st.id = id)

/-- A stand changed. -/
def State.modStand (s : State) (id : Nat) (f : Stand → Stand) : State :=
  { s with gl := { s.gl with stands := s.gl.stands.map fun st => if st.id = id then f st else st } }

/-- The job of an id. -/
def State.job? (s : State) (id : Nat) : Option Job := s.gl.jobs.find? fun j => decide (j.id = id)

/-- A job changed. -/
def State.modJob (s : State) (id : Nat) (f : Job → Job) : State :=
  { s with gl := { s.gl with jobs := s.gl.jobs.map fun j => if j.id = id then f j else j } }

/-- The record of a translation context (R21). -/
def State.ctxRec (s : State) (ctx : Nat) : CtxRec := (look s.xl.ctxs ctx).getD CtxRec.zero

/-- The partition of a thread: that of its translation context. -/
def State.partOf (s : State) (ctx : Nat) : Nat := (s.ctxRec ctx).part.toNat

/-- The core that a thread runs on; a thread with no context is taken at core 0 of quad 0 of die 0. -/
def coreOf (t : Thread) : CoreId :=
  match t.place with
  | some p => p.at_
  | none => ⟨0, 0, 0⟩

/-- The class a thread runs on now. -/
def clsOf (t : Thread) : CoreClass := coreClass (coreOf t)

/-- Whether a FEAT bit is set on a die (R371, R410). -/
def State.hasFeat (s : State) (die bit : Nat) : Bool :=
  let base := match classOfDie die with | .c => 0x401 | .v => 0x70F | .t => 0x6F0
  Nat.testBit base bit && !(s.un.lacks.any fun e => decide (e = (die, bit)))

/-- DIEFEAT of a compute die (R371, R410). -/
def State.dieFeat (s : State) (die : Nat) : Word :=
  let feat := ((List.range 11).map fun k => if s.hasFeat die k then 2 ^ k else 0).foldl (· + ·) 0
  let blend := match s.clk.blend with | .j10 => 10 | .j14 => 14 | .j18 => 18
  BitVec.ofNat 64 ((classOfDie die).code * 2 ^ 53 + blend * 2 ^ 40 + die % 32 * 2 ^ 32 + feat)

/-- The canonical feature description of the chip (R372, R410): 32 dwords. -/
def State.featureDescription (s : State) : List Word :=
  let blend := match s.clk.blend with | .j10 => 10 | .j14 => 14 | .j18 => 18
  let die := fun (d : Nat) =>
    if (computeDies s.clk.blend).contains d then s.dieFeat d
    else if (dies s.clk.blend).contains d then BitVec.ofNat 64 (3 * 2 ^ 53 + blend * 2 ^ 40 + d % 32 * 2 ^ 32)
    else 0
  BitVec.ofNat 64 (blend * 2 ^ 32 + 1 * 2 ^ 16 + 0x4644) :: (List.range 26).map die ++ List.replicate 5 0

/-- The name 0xFFFF_FFFF, which no thread has: the sender of a context-free notice (R323), and the issuer of accesses that no thread makes. -/
def noSender : Tid := ⟨65535, 65535⟩

end Sys2Proof.Machine
end

