-- ==== Sys2Proof/Machine/Order.lean ====
section
/-! DEFINITION. The order of the writes of a byte, kept from its first read-modify-write on, and what happens before what over those writes (R93 to R97,
R100 to R111, R134). -/

namespace Sys2Proof.Machine

/-! Scope instances. -/

/-- Whether the scope instance that one thread names holds another (R96). -/
def inInstance (a b : RmwBy) : Bool :=
  match a.scope with
  | .pod => true
  | .pkg => decide (a.pkg = b.pkg)
  | .die => decide (a.pkg = b.pkg) && decide (a.core.die = b.core.die)
  | .quad => decide (a.pkg = b.pkg) && decide (a.core.die = b.core.die) && decide (a.core.quad = b.core.quad)
  | .core => decide (a.pkg = b.pkg) && decide (a.core = b.core)
  | .lane => decide (a.pkg = b.pkg) && decide (a.tid = b.tid)

/-- Whether one of two scope instances contains the other (R108). -/
def nestedScopes (a b : RmwBy) : Bool :=
  if b.scope.code ≤ a.scope.code then inInstance a b else inInstance b a

/-- Whether two sides of a synchronisation lie in each other's instances (R102). -/
def bothIn (a b : RmwBy) : Bool := inInstance a b && inInstance b a

/-! The order. -/

/-- Whether the order of a byte is kept. -/
def isTracked (m : MemSys) (pa : Nat) : Bool := m.track.any fun w => decide (w.pa = pa)

/-- The tracked writes that happen before a thread's next event. -/
def knownTo (m : MemSys) (t : Tid) : List Nat := uniq ((m.track.filter fun w => w.known.contains t).map (·.id))

/-- The tracked writes that happen before the next event of some thread of a stand. -/
def knownToStand (m : MemSys) (stand : Nat) : List Nat :=
  uniq ((m.track.filter fun w => w.known.any fun t => decide (t.stand = stand)).map (·.id))

/-- Some writes of a byte, with those that come before them. -/
def upTo (ws : List ByteWrite) (ids : List Nat) : List Nat := uniq (ws.flatMap fun w => if ids.contains w.id then w.id :: w.before else [])

/-- Writes noted as happening before a thread's next event. -/
def learn (m : MemSys) (t : Tid) (ids : List Nat) : MemSys :=
  if ids.isEmpty then m
  else { m with track := m.track.map fun w => if ids.contains w.id && !w.known.contains t then { w with known := t :: w.known } else w }

/-- Whether a write is past its bound for every thread (R109): 2^17 cycles after its issue, in the cycles of its thread's die, or since its thread's
release. `now` gives a die's cycle count (R386). -/
def ByteWrite.past (w : ByteWrite) (now : Nat → Nat) : Bool := w.shown || decide (w.cycle + 2 ^ 17 ≤ now w.by_.core.die)

/-- Whether no later read of a thread may return a write that comes before this one (R109): it is past its bound, or was when its own task published it. -/
def ByteWrite.due (w : ByteWrite) (t : Tid) (now : Nat → Nat) : Bool := w.past now || (w.task && decide (w.by_.tid.stand = t.stand))

/-- Whether a thread can see a write at all (R111). -/
def ByteWrite.seenBy (w : ByteWrite) (t : Tid) : Bool := w.prov.all fun st => decide (st = t.stand)

/-- Whether a thread's read may return a write of the byte (R107, R109). -/
def mayReturn (ws : List ByteWrite) (t : Tid) (now : Nat → Nat) (w : ByteWrite) : Bool :=
  ws.all fun v => !v.before.contains w.id || !(v.known.contains t || v.met.contains t || v.due t now)

/-- The writes of a byte that a read-modify-write may return, the newest first (R107, R108): of its chain, the predecessor, or a plain write that comes after
it; outside every chain, any that R107 allows. -/
def rmwFrom (m : MemSys) (by_ : RmwBy) (now : Nat → Nat) (pa : Nat) : List ByteWrite :=
  let ws := m.track.filter fun w => decide (w.pa = pa) && w.seenBy by_.tid
  let ok := ws.filter (mayReturn ws by_.tid now)
  match ws.find? fun w => w.chain && nestedScopes w.by_ by_ with
  | none => ok
  | some p =>
    let next := ok.filter fun w => decide (w.id = p.id) || (!w.chain && w.before.contains p.id)
    if next.isEmpty then ok else next

/-- One of some writes of a byte, by a number. -/
def pickOf (ws : List ByteWrite) (k : Nat) : Option ByteWrite := ws[k % ws.length]?

/-- Whether every write of some bytes covers an access of n bytes as one (R94). -/
def oneAccess (opts : List (List ByteWrite)) (pa n : Nat) : Bool :=
  opts.all fun l => l.all fun w => decide (w.base ≤ pa) && decide (pa + n ≤ w.base + w.size)

/-- The write that each byte of a read-modify-write returns (R94): one for all where every choice covers it, else each byte's own; a number chooses where
more than one is left. -/
def pickAll (opts : List (List ByteWrite)) (pa n k : Nat) : List (Option ByteWrite) :=
  let each := (List.range opts.length).map fun i => pickOf (opts.getD i []) (k / 2 ^ (8 * i))
  if !oneAccess opts pa n then each
  else
    match pickOf ((opts.headD []).filter fun w => opts.all fun l => l.any fun v => decide (v.id = w.id)) k with
    | some w => opts.map fun l => l.find? fun v => decide (v.id = w.id)
    | none => each

/-- Whether a read-modify-write has one choice. -/
def oneChoice (opts : List (List ByteWrite)) : Bool := opts.all fun l => decide (l.length ≤ 1)

/-! Keeping the order. -/

/-- The single-copy-atomic access that the bytes of a store make at one of them (R94): the store, when it is a naturally aligned one of 1, 2, 4 or 8
bytes, else the byte. -/
def atomOf (cs : Cells) (pa : Nat) : Nat × Nat :=
  match cs with
  | [] => (pa, 1)
  | c :: _ => if [1, 2, 4, 8].contains cs.length ∧ c.1 % cs.length = 0 then (c.1, cs.length) else (pa, 1)

/-- A write added to the order of each of its bytes that is tracked, after the writes given and those before them; `w` is the write but for its bytes. -/
def addWrite (m : MemSys) (w : ByteWrite) (after : Nat → List Nat) (cs : Cells) : MemSys :=
  let here := cs.filter fun c => isTracked m c.1
  if here.isEmpty then m
  else
    let new := here.map fun c =>
      { w with id := m.trackNext, pa := c.1, byte := c.2, base := (atomOf cs c.1).1, size := (atomOf cs c.1).2
               before := upTo (m.track.filter fun v => decide (v.pa = c.1)) (after c.1) }
    { m with track := new ++ m.track, trackNext := m.trackNext + 1 }

/-- A write that a thread makes, but for its bytes. -/
def writeBy (by_ : RmwBy) (chain early : Bool) (prov : Option Nat) (now : Nat → Nat) : ByteWrite :=
  { id := 0, pa := 0, byte := 0, by_ := by_, chain := chain, base := 0, size := 0, before := [], known := [by_.tid], met := [by_.tid], prov := prov, early := early
    shown := false, task := false, cycle := now by_.core.die }

/-- The order of some bytes of an access kept from now on: what the home holds comes before every write that a queue or a task still holds. -/
def startTrack (m : MemSys) (by_ : RmwBy) (now : Nat → Nat) (home : Nat → Byte) (pa n : Nat) : MemSys :=
  let new := ((List.range n).map (pa + ·)).filter fun a => !isTracked m a
  if new.isEmpty then m
  else
    let first := new.map fun a =>
      { writeBy by_ false false none now with id := m.trackNext, pa := a, byte := home a, base := new.headD pa, size := new.length, known := [], met := [] }
    let m0 := { m with track := first ++ m.track, trackNext := m.trackNext + 1 }
    let m1 := m0.prov.foldl (fun mm p =>
      addWrite mm { writeBy { by_ with tid := ⟨p.stand, 0⟩ } false false (some p.stand) now with known := [], met := (List.range 64).map fun k => ⟨p.stand, k⟩ }
        (fun _ => [m.trackNext]) (p.bytes.filter fun c => new.contains c.1)) m0
    m1.wtq.foldl (fun mm e =>
      addWrite mm (writeBy ⟨by_.pkg, e.tid, e.core, .pod⟩ false false e.prov now) (fun _ => m.trackNext :: knownTo mm e.tid)
        (e.bytes.filter fun c => new.contains c.1)) m1

/-- Writes that no later read can return forgotten (R109): those before one that is due, but for the last of a chain. -/
def pruneTrack (m : MemSys) (now : Nat → Nat) : MemSys :=
  let gone := fun (w : ByteWrite) => m.track.any fun v =>
    decide (v.pa = w.pa) && v.before.contains w.id && v.past now && v.prov.isNone && (!w.chain || (v.chain && nestedScopes w.by_ v.by_))
  let kept := m.track.filter fun w => !gone w
  { m with track := kept, carriers := m.carriers.filter fun c => c.writes.any fun id => kept.any fun w => decide (w.id = id) }

/-- The order of some bytes, and what was read from them, forgotten: the device has written them (log 75). -/
def forgetTrack (m : MemSys) (pa n : Nat) : MemSys :=
  if m.track.isEmpty then m else { m with track := m.track.filter fun w => decide (w.pa < pa) || decide (pa + n ≤ w.pa) }

/-- What some threads have read, made and learned forgotten: their names go to other threads. -/
def forgetThreads (m : MemSys) (p : Tid → Bool) : MemSys :=
  if m.track.isEmpty && m.carriers.isEmpty then m
  else
    let rest := fun (l : List Tid) => l.filter fun t => !p t
    { m with track := m.track.map fun w => { w with known := rest w.known, met := rest w.met }
             carriers := (m.carriers.filter fun c => !(decide (c.at_ = .fence) && p c.by_.tid)).map fun c => { c with heard := rest c.heard } }

/-- A task's provisional writes published: from now on they are candidates for other threads, and the bound of one that is past it starts anew for them
(R109, R111). -/
def publishTrack (m : MemSys) (stand : Nat) (now : Nat → Nat) : MemSys :=
  let out := fun (w : ByteWrite) =>
    if w.past now then { w with prov := none, shown := false, task := true, cycle := now w.by_.core.die } else { w with prov := none }
  { m with track := m.track.map fun w => if w.prov = some stand then out w else w }

/-- A task's provisional writes removed from every order, as if they had never been made (R111). -/
def discardTrack (m : MemSys) (stand : Nat) : MemSys := { m with track := m.track.filter fun w => decide (w.prov ≠ some stand) }

/-! Releases and acquires. -/

/-- A release side noted, unless nothing tracked happens before it or the same one is there. -/
def addCarrier (m : MemSys) (c : Carrier) : MemSys :=
  if c.writes.isEmpty || m.carriers.any fun d => decide ({ d with heard := [] } = c) then m else { m with carriers := m.carriers ++ [c] }

/-- Whether an acquire of a thread takes what a release side carries (R102, R104). -/
def Carrier.reaches (c : Carrier) (by_ : RmwBy) : Bool := bothIn c.by_ by_ && c.prov.all fun st => decide (st = by_.tid.stand)

/-- An acquire of a thread that takes what some release sides carry. -/
def acquireFrom (m : MemSys) (by_ : RmwBy) (p : Carrier → Bool) : MemSys :=
  learn m by_.tid ((m.carriers.filter fun c => p c && c.reaches by_).flatMap (·.writes))

/-- Whether bytes that were read come from the continuation of a release side: all that they have in common with it (R101). -/
def Carrier.readIn (c : Carrier) (cs : Cells) : Bool :=
  match c.at_ with
  | .loc bs => (bs.any fun b => (maskGet cs b.1).isSome) && bs.all fun b => (maskGet cs b.1).all fun v => decide (v = b.2)
  | _ => false

/-- Whether a release side is the completion of a command of a counter, up to a number (R101 case 6). -/
def Carrier.counted (c : Carrier) (key : TlKey) (n : Nat) : Bool :=
  match c.at_ with
  | .timeline k m => decide (k = key) && decide (m ≤ n)
  | _ => false

/-- Whether a release side is an arrival at a barrier's episode (R101 case 8). -/
def Carrier.arrived (c : Carrier) (key : BarKey) (e : Nat) : Bool :=
  match c.at_ with
  | .barrier k n => decide (k = key) && decide (n = e)
  | _ => false

/-- A release side heard by a thread with no acquire (R101 cases 3, 4 and 7). -/
def hear (m : MemSys) (t : Tid) (p : Carrier → Bool) : MemSys :=
  { m with carriers := m.carriers.map fun c => if p c && !c.heard.contains t then { c with heard := t :: c.heard } else c }

/-- Bytes that a thread has read, or read and acquired, met with the release sides that they come from. -/
def hearRead (m : MemSys) (by_ : RmwBy) (acquire : Bool) (cs : Cells) : MemSys :=
  hear (if acquire then acquireFrom m by_ fun c => c.readIn cs else m) by_.tid fun c => c.readIn cs

/-- A thread noted as having read some writes, each by its byte and its access (R107). -/
def meet (m : MemSys) (t : Tid) (ids : List (Nat × Nat)) : MemSys :=
  { m with track := m.track.map fun w => if ids.contains (w.pa, w.id) && !w.met.contains t then { w with met := t :: w.met } else w }

/-- Bytes that a thread has read, or read and acquired: of the writes that each may be, the oldest is taken to be the one (log 75). -/
def readTrack (m : MemSys) (by_ : RmwBy) (acquire : Bool) (now : Nat → Nat) (cs : Cells) : MemSys :=
  if m.track.isEmpty && m.carriers.isEmpty then m
  else
    let source := fun (c : Nat × Byte) =>
      let ws := m.track.filter fun w => decide (w.pa = c.1) && w.seenBy by_.tid
      (ws.filter fun w => decide (w.byte = c.2) && mayReturn ws by_.tid now w).getLast?.map fun w => (c.1, w.id)
    hearRead (meet m by_.tid (cs.filterMap source)) by_ acquire cs

/-- A plain write of a thread to some bytes (R100), after the writes that it came after when it issued. One that follows a release fence of the thread carries
that release (R101 cases 2 and 4). -/
def plainWrite (m : MemSys) (by_ : RmwBy) (know : List Nat) (early : Bool) (prov : Option Nat) (now : Nat → Nat) (cs : Cells) : MemSys :=
  let m1 := if m.track.isEmpty then m else addWrite m (writeBy by_ false early prov now) (fun _ => know) cs
  (m1.carriers.filter fun c => decide (c.at_ = .fence) && decide (c.by_.tid = by_.tid)).foldl
    (fun m c => addCarrier m { c with at_ := .loc cs, heard := [] }) m1

/-- A write of an engine's command (R95, R105): no thread has made it, and what happens before the command happens before it. -/
def engineTrack (m : MemSys) (by_ : RmwBy) (know : List Nat) (prov : Option Nat) (now : Nat → Nat) (cs : Cells) : MemSys :=
  if m.track.isEmpty then m else addWrite m { writeBy by_ false false prov now with known := [], met := [] } (fun _ => know) cs

/-- The writes of a thread, or of its task, that a release at package or pod scope shows (R109). -/
def showTrack (m : MemSys) (p : ByteWrite → Bool) : MemSys :=
  { m with track := m.track.map fun w => if p w then { w with shown := true } else w }

/-- An acquire fence of a thread (R101 cases 3, 4, 5 and 7): what it has heard, and the release fences of its instance that came before. -/
def fenceAcquire (m : MemSys) (by_ : RmwBy) : MemSys :=
  acquireFrom m by_ fun c => c.heard.contains by_.tid || (decide (c.at_ = .fence) && decide (c.by_.scope = by_.scope))

/-- A release side of a thread. -/
def releaseTrack (m : MemSys) (by_ : RmwBy) (prov : Option Nat) (at_ : SyncAt) : MemSys :=
  if m.track.isEmpty then m else addCarrier m ⟨at_, by_, prov, knownTo m by_.tid, []⟩

/-! Read-modify-writes. -/

/-- What a read-modify-write finds of n bytes at an address: their order, and the writes that each of them may return. -/
def rmwFinds (m : MemSys) (by_ : RmwBy) (now : Nat → Nat) (home : Nat → Byte) (pa n : Nat) : MemSys × List (List ByteWrite) :=
  let m1 := startTrack (pruneTrack m now) by_ now home pa n
  (m1, (List.range n).map fun i => rmwFrom m1 by_ now (pa + i))

/-- Consecutive bytes, in order. -/
def bytesAt (pa : Nat) (bs : List Byte) : Cells := (List.range bs.length).map fun i => (pa + i, bs.getD i 0)

/-- A read-modify-write of n bytes at an address (R93, R94, R107, R108), among what it finds: the value that it returns, and the order with what it writes. A
release side that it reads from goes on in what it writes (R101). `k` chooses where more than one value is left. -/
def rmwTrack (m : MemSys) (by_ : RmwBy) (acquire : Bool) (now : Nat → Nat) (home : Nat → Byte) (pa n k : Nat) (opts : List (List ByteWrite)) (new : Nat → Option Nat) :
    Nat × MemSys :=
  let got := pickAll opts pa n k
  let bytes := (List.range n).map fun i => ((got.getD i none).map (·.byte)).getD (home (pa + i))
  let ids := (List.range n).filterMap fun i => (got.getD i none).map fun w => (pa + i, w.id)
  let m1 := hearRead (meet m by_.tid ids) by_ acquire (bytesAt pa bytes)
  match new (leNat bytes) with
  | none => (leNat bytes, m1)
  | some v =>
    let cs := bytesAt pa (leBytes n v)
    let goOn := (m1.carriers.filter fun c => c.readIn (bytesAt pa bytes)).map fun c => { c with at_ := .loc cs, heard := [] }
    let after := fun (a : Nat) => (ids.filter fun i => decide (i.1 = a)).map (·.2) ++ knownTo m1 by_.tid
    (leNat bytes, goOn.foldl addCarrier (addWrite m1 (writeBy by_ true false none now) after cs))

end Sys2Proof.Machine
end

