-- ==== Sys2Proof/Machine/Lines.lean ====
section
/-! DEFINITION. Committed memory by physical address: regions and homes (R18, R19, R76, R375), keys (R33, R34), the L2 copies and their write-backs
(R72, R77), poison and errors (R87, R88), and the RAS log (R91, R92). -/

namespace Sys2Proof.Machine

/-- The region of a physical address: PA[51:50] (R18). -/
def regionOf (pa : Nat) : Nat := bitsAt pa 50 2

/-- The line of a physical address. -/
def lineOf (pa : Nat) : Nat := pa / 128

/-- The canonical form of memory: its bytes, and those that the LLC and the L2 hold, each in one form, so that equal memories are equal data; the LLC
holds lines of region 00 only (R72). -/
def Memory.wf (m : MemSys) : Bool :=
  Cells.wf 0 m.mem && Cells.rising m.llc && Cells.rising m.l2d && m.llc.all fun c => decide (regionOf c.1 = 0)

/-- The C-die host link of a window: windows 0 to 7 are on C0, 8 to 15 on C1. A window names no link of the two of its C-die; it is down when either
is (log 19). -/
def windowDown (s : State) (n : Nat) : Bool :=
  s.pf.linksDown.contains (if n < 8 then 0 else 2) || s.pf.linksDown.contains (if n < 8 then 1 else 3)

/-- Whether a host window is enabled and covers a physical address of region 01 (R375). -/
def windowCovers (s : State) (pa n : Nat) : Bool :=
  let w := s.reg10 (.hwin n)
  bitOf w 63 && decide (fld w 49 30 ≤ bitsAt pa 30 20) && decide (bitsAt pa 30 20 ≤ fld w 29 10)

/-- The window of an address: the enabled one of lowest number that covers it (R375). -/
def windowOf (s : State) (pa : Nat) : Option Nat := (List.range 16).find? fun n => windowCovers s pa n

/-- Whether a physical address lies in a populated range (R18, R19, R375). -/
def populated (s : State) (pa : Nat) : Bool :=
  match regionOf pa with
  | 0 => decide (bitsAt pa 0 50 < if s.clk.half then 2 ^ 39 else 2 ^ 40)
  | 1 => match windowOf s pa with | some n => !windowDown s n | none => false
  | 2 => (devOf s pa).isSome
  | _ => false

/-- The home M-die index of a line of region 00: PA[9:7] xor PA[18:16] xor PA[27:25] (R76). -/
def homeIndex (pa : Nat) : Nat := Nat.xor (Nat.xor (bitsAt pa 7 3) (bitsAt pa 16 3)) (bitsAt pa 25 3)

/-- The HBM4E stack of the home M-die that holds a line: PA[10] xor PA[19] (R76). -/
def hbmStack (pa : Nat) : Nat := Nat.xor (bitsAt pa 10 1) (bitsAt pa 19 1)

/-- The home die of a line (R76), or the C-die of its host window (R375). -/
def homeDie (s : State) (pa : Nat) : Nat :=
  if regionOf pa = 1 then (match windowOf s pa with | some n => if n < 8 then 0 else 1 | none => 0)
  else 14 + homeIndex pa

/-- The key slot record of a loaded slot that a partition owns (R33). -/
def usableSlot (s : State) (slot part : Nat) : Option KeyTag :=
  match look s.xl.keys slot with
  | some k => if k.owner = part then some ⟨slot, k.gen⟩ else none
  | none => none

/-- The partition's default key, when it is usable (R23, R33). -/
def defaultKey (s : State) (part : Nat) : Option KeyTag :=
  let w := s.reg10 (.defkey part)
  if bitOf w 15 then usableSlot s (fld w 10 0) part else none

/-- A byte of the committed line as held: in an L2 line in state M, in a dirty LLC line, or in memory. -/
def heldByte (m : MemSys) (pa : Nat) : Byte :=
  match maskGet m.l2d pa with
  | some b => b
  | none =>
    match maskGet m.llc pa with
    | some b => b
    | none => cellGet 0 m.mem pa

/-- The 16-byte block of a physical address: the unit that the XTS cipher of R34 encrypts. -/
def blockOf (pa : Nat) : Nat := pa / 16

/-- The 16 bytes of a block as held. -/
def heldBlock (m : MemSys) (block : Nat) : BitVec 128 :=
  BitVec.ofNat 128 (leNat ((List.range 16).map fun k => heldByte m (block * 16 + k)))

/-- The committed byte at a physical address as a reader under a key sees it: under another key than its block was written with, the block decrypted
under the reader's key (R34). -/
def commByte (m : MemSys) (key : Option KeyTag) (pa : Nat) : Byte :=
  match key, look m.lineKey (blockOf pa) with
  | some k, some was =>
    if was = k then heldByte m pa else (Config.wrongKey was.gen k.gen (blockOf pa) (heldBlock m (blockOf pa))).extractLsb' (pa % 16 * 8) 8
  | _, _ => heldByte m pa

/-- The n committed bytes at a physical address. -/
def commBytes (m : MemSys) (key : Option KeyTag) (pa : Nat) : Nat → List Byte
  | 0 => []
  | n + 1 => commByte m key pa :: commBytes m key (pa + 1) n

/-! Copies of a line and their poison (R72, R88). -/

/-- Whether a copy is poisoned. -/
def flagged (m : MemSys) (h : Held) (line : Nat) : Bool := m.poison.contains (h, line)

/-- A copy poisoned, or cleared of poison. -/
def setFlag (m : MemSys) (h : Held) (line : Nat) (bad : Bool) : MemSys :=
  let rest := m.poison.filter fun e => decide (e ≠ (h, line))
  { m with poison := if bad then (h, line) :: rest else rest }

/-- The poison of a line's L2 copies forgotten, with the copies. -/
def dropFlagsL2 (m : MemSys) (line : Nat) : MemSys :=
  { m with poison := m.poison.filter fun e => decide (e.2 ≠ line) || (match e.1 with | .l2 _ => false | _ => true) }

/-- Whether a die's L2 holds a line. -/
def inL2 (m : MemSys) (die line : Nat) : Bool := m.l2.any fun e => decide (e.die = die) && decide (e.line = line)

/-- The die whose L2 holds a line in state M. -/
def ownerOfLine (m : MemSys) (line : Nat) : Option Nat := (m.l2.find? fun e => decide (e.line = line) && decide (e.st = .m)).map (·.die)

/-- The copy that a reader is served from: its die's L2, if the line is there, else the copy in state M, the LLC or memory. -/
def copyAt (m : MemSys) (die : Option Nat) (line : Nat) : Held :=
  match die.filter fun d => inL2 m d line with
  | some d => .l2 d
  | none =>
    match ownerOfLine m line with
    | some d => .l2 d
    | none => if m.llcl.contains line then .llc else .hbm

/-- Whether a reader at a die, or at the home, finds a line poisoned. -/
def isPoisoned (m : MemSys) (die : Option Nat) (line : Nat) : Bool := flagged m (copyAt m die line) line

/-- LEVEL and DIE of a copy (R92). -/
def heldLevel (s : State) (h : Held) (line : Nat) : Nat × Nat :=
  match h with
  | .l2 d => (2, d)
  | .llc => (3, homeDie s (line * 128))
  | .hbm => (4, homeDie s (line * 128))

/-! The LLC (R72). -/

/-- The LLC slice and set of a line: PA[27:10] chooses one of 262,144 sets (log 56). -/
def llcSet (line : Nat) : Nat × Nat := (homeIndex (line * 128), bitsAt line 3 18)

/-- A line's dirty bytes moved from the LLC to memory. -/
def moveLlc (m : MemSys) (line : Nat) : MemSys :=
  { m with llc := cellsDrop m.llc (line * 128) 128, mem := (cellsIn m.llc (line * 128) 128).foldl (fun mm c => cellPut 0 mm c.1 c.2) m.mem }

/-- A line's bytes moved from the LLC to memory, and the poison of dirty ones with them (R88). -/
def llcClean (m : MemSys) (line : Nat) : MemSys :=
  if (cellsIn m.llc (line * 128) 128).isEmpty then m else moveLlc (setFlag m .hbm line (flagged m .llc line)) line

/-- A line replaced in the LLC: its dirty bytes go to memory (R72, R88). -/
def llcEvict (m : MemSys) (line : Nat) : MemSys :=
  let m1 := setFlag (llcClean m line) .llc line false
  { m1 with llcl := m1.llcl.filter fun l => decide (l ≠ line) }

/-- The LLC holds a line of region 00, as its most recently used: the least recently used line of a full set goes (R72). -/
def llcTouch (m : MemSys) (line : Nat) : MemSys :=
  if regionOf (line * 128) ≠ 0 then m
  else if m.llcl.contains line then { m with llcl := line :: m.llcl.filter fun l => decide (l ≠ line) }
  else
    let m1 := ((m.llcl.filter fun l => decide (llcSet l = llcSet line)).drop 11).foldl llcEvict m
    { m1 with llcl := line :: m1.llcl }

/-- The LLC holds a line that a read at the home has fetched from memory, with its poison (R72, R88). -/
def llcRead (m : MemSys) (line : Nat) : MemSys :=
  if regionOf (line * 128) ≠ 0 ∨ m.llcl.contains line then llcTouch m line
  else setFlag (llcTouch m line) .llc line (flagged m .hbm line)

/-! Write-backs. -/

/-- A line's bytes moved from an L2 in state M: to the LLC, or to host memory for region 01. -/
def moveL2 (m : MemSys) (line : Nat) : MemSys :=
  let cs := cellsIn m.l2d (line * 128) 128
  if regionOf (line * 128) = 0 then { m with l2d := cellsDrop m.l2d (line * 128) 128, llc := maskPutAll m.llc cs }
  else { m with l2d := cellsDrop m.l2d (line * 128) 128, mem := cs.foldl (fun mm c => cellPut 0 mm c.1 c.2) m.mem }

/-- The bytes of a line in L2 state M written back with the copy's poison: to the LLC, or to host memory for region 01 (R72, R77, R88). -/
def writeBackL2 (m : MemSys) (line : Nat) : MemSys :=
  moveL2 (match ownerOfLine m line with
    | none => m
    | some d =>
      let bad := flagged m (.l2 d) line
      if regionOf (line * 128) = 0 then setFlag (llcTouch m line) .llc line bad else setFlag m .hbm line bad) line

/-- A line written back through its home to memory, from the L2 and the LLC, which keep clean copies (R243 clean). -/
def cleanLine (m : MemSys) (line : Nat) : MemSys :=
  let m2 := llcClean (writeBackL2 m line) line
  { m2 with l2 := m2.l2.map fun e => if e.line = line ∧ e.st = .m then { e with st := .e } else e }

/-- Every L2 copy of a line invalidated, an M copy written back first; the line is kept in the LLC (R77). -/
def homeInval (m : MemSys) (line : Nat) : MemSys :=
  let m1 := dropFlagsL2 (llcRead (writeBackL2 m line) line) line
  { m1 with l2 := m1.l2.filter fun e => decide (e.line ≠ line) }

/-! The directory (R77). -/

/-- The home and the set of a line's directory entry: PA[29:10] chooses one of 1,048,576 sets (log 56). -/
def dirSet (line : Nat) : Nat × Nat := (homeIndex (line * 128), bitsAt line 3 20)

/-- The lines of region 00 that the directory tracks, those whose copies were used most recently first. -/
def trackedLines (m : MemSys) : List Nat := (uniq ((m.l2.map (·.line)).filter fun l => decide (regionOf (l * 128) = 0)).reverse).reverse

/-- A directory entry made for a line that has none: with the sixteen ways of its set taken, the least recently used entry is replaced (R72, R77). -/
def dirRoom (m : MemSys) (line : Nat) : MemSys :=
  if regionOf (line * 128) ≠ 0 || m.l2.any fun e => decide (e.line = line) then m
  else (((trackedLines m).filter fun l => decide (dirSet l = dirSet line)).drop 15).foldl homeInval m

/-! The L2 (R53, R72, R77). -/

/-- The L2 of a die without a line: an M copy is written back first. -/
def dropL2 (m : MemSys) (die line : Nat) : MemSys :=
  let isM := m.l2.any fun e => decide (e.die = die) && decide (e.line = line) && decide (e.st = .m)
  let m1 := setFlag (if isM then writeBackL2 m line else m) (.l2 die) line false
  { m1 with l2 := m1.l2.filter fun e => !(decide (e.die = die) && decide (e.line = line)) }

/-- The L2 set of a line: PA[25:7] (R72). -/
def l2Set (line : Nat) : Nat := line % 524288

/-- The ways of an L2 set that pinned stripes take: stripe b takes the place of the lines 16 b to 16 b + 15 (R53, log 56). -/
def pinnedWays (m : MemSys) (die set : Nat) : Nat :=
  ((List.range 4).filter fun k => m.pins.any fun p =>
    decide (p.1 = die) && decide (p.2.1 ≤ set / 16 + 32768 * k) && decide (set / 16 + 32768 * k < p.2.1 + p.2.2)).length

/-- The ways of an L2 set that provisional lines take (R80, R82). -/
def provWays (m : MemSys) (die set : Nat) : Nat :=
  ((m.prov.filter fun p => decide (p.die = die)).map fun p => (p.keys.filter fun k => decide (l2Set k.1 = set)).length).foldl (· + ·) 0

/-- The ways of an L2 set that committed lines can take: sixteen less those of pinned stripes and of provisional lines, at least one (R53, R72, log 56). -/
def l2Ways (m : MemSys) (die set : Nat) : Nat := max 1 (16 - pinnedWays m die set - provWays m die set)

/-- The lines of a die's L2 past the ways of their sets, the list being in order of last use. -/
def overL2 (m : MemSys) (die : Nat) : List L2Line → List Nat → List Nat
  | [], _ => []
  | e :: rest, before =>
    if e.die ≠ die then overL2 m die rest before
    else
      let n := (before.filter fun l => decide (l2Set l = l2Set e.line)).length
      if n < l2Ways m die (l2Set e.line) then overL2 m die rest (e.line :: before) else e.line :: overL2 m die rest before

/-- A die's L2 brought to the ways that pinned stripes and provisional lines leave: the least recently used lines go, written back first (R53, R72). -/
def trimL2 (m : MemSys) (die : Nat) : MemSys := (overL2 m die m.l2 []).foldl (fun m l => dropL2 m die l) m

/-- Room made for a line in a die's L2: the least recently used lines of its set go when its ways are taken (R72). -/
def roomL2 (m : MemSys) (die line : Nat) : MemSys :=
  let same := m.l2.filter fun e => decide (e.die = die) && decide (l2Set e.line = l2Set line) && decide (e.line ≠ line)
  (same.drop (l2Ways m die (l2Set line) - 1)).foldl (fun m e => dropL2 m die e.line) m

/-- A line fetched at its home for an L2: an M copy elsewhere is written back, the directory tracks the line, and a read of memory fills the LLC. -/
def homeFetch (m : MemSys) (line : Nat) : MemSys := llcRead (dirRoom (writeBackL2 m line) line) line

/-- Whether the copy at the home that an L2 is filled from is poisoned (R88). -/
def fetchFlag (m : MemSys) (line : Nat) : Bool := flagged m (if regionOf (line * 128) = 0 then .llc else .hbm) line

/-- A die's L2 obtains a line to read: an M copy elsewhere is written back, and the copies become S; alone, it is E (R77). The list keeps the most
recently used line first. -/
def l2Share (m : MemSys) (die line : Nat) : MemSys :=
  match m.l2.find? fun e => decide (e.die = die) && decide (e.line = line) with
  | some e => { m with l2 := e :: m.l2.filter fun x => decide (x ≠ e) }
  | none =>
    let others := m.l2.any fun e => decide (e.line = line)
    let m1 := homeFetch m line
    let m2 := roomL2 { m1 with l2 := m1.l2.map fun e => if e.line = line then { e with st := .s } else e } die line
    setFlag { m2 with l2 := ⟨die, line, if others then .s else .e⟩ :: m2.l2 } (.l2 die) line (fetchFlag m1 line)

/-- A die's L2 obtains M: every other copy is invalidated, an M copy written back first (R77). -/
def l2Own (m : MemSys) (die line : Nat) : MemSys :=
  if m.l2.any fun e => decide (e.die = die) && decide (e.line = line) && decide (e.st = .m) then
    { m with l2 := ⟨die, line, .m⟩ :: m.l2.filter fun e => decide (e.line ≠ line) }
  else
    let here := inL2 m die line
    let m1 := if here then m else homeFetch m line
    let bad := if here then flagged m (.l2 die) line else fetchFlag m1 line
    let m2 := dropFlagsL2 { m1 with l2 := m1.l2.filter fun e => decide (e.line ≠ line) } line
    let m3 := roomL2 m2 die line
    setFlag { m3 with l2 := ⟨die, line, .m⟩ :: m3.l2 } (.l2 die) line bad

/-! Writes. -/

/-- A block's bytes turned to those that a writer under another key merges with, and the block tagged with the writer's key (R34). `put` writes a
byte where the line is held. -/
def rekeyBlock (m : MemSys) (key : Option KeyTag) (block : Nat) (put : MemSys → Nat → Byte → MemSys) : MemSys :=
  match key with
  | none => m
  | some k =>
    let retag := { m with lineKey := assoc m.lineKey block k }
    match look m.lineKey block with
    | none => retag
    | some was =>
      if was = k then m
      else (List.range 16).foldl (fun mm o => put mm (block * 16 + o) (commByte m key (block * 16 + o))) retag

/-- A byte written in an L2 line in state M. -/
def putL2d (m : MemSys) (pa : Nat) (b : Byte) : MemSys := { m with l2d := maskPut m.l2d pa b }

/-- A byte written in memory. -/
def putMem (m : MemSys) (pa : Nat) (b : Byte) : MemSys := { m with mem := cellPut 0 m.mem pa b }

/-- A byte written in a dirty LLC line. -/
def putLlc (m : MemSys) (pa : Nat) (b : Byte) : MemSys := { m with llc := maskPut m.llc pa b }

/-- Committed bytes written by a die through its L2 (R77, R78). -/
def commWrite (m : MemSys) (die : Nat) (key : Option KeyTag) (cs : Cells) : MemSys :=
  cs.foldl (fun mm c => putL2d (rekeyBlock (l2Own mm die (lineOf c.1)) key (blockOf c.1) putL2d) c.1 c.2) m

/-- A line held in memory alone: every cached copy is written back and dropped. -/
def homeOnly (m : MemSys) (line : Nat) : MemSys :=
  let m1 := cleanLine m line
  { m1 with l2 := m1.l2.filter fun e => decide (e.line ≠ line), llcl := m1.llcl.filter fun l => decide (l ≠ line)
            poison := m1.poison.filter fun e => decide (e.2 ≠ line) || decide (e.1 = .hbm) }

/-- Committed bytes written at the home, in no cache level (R32): every cached copy is written back and dropped first. -/
def homeWrite (m : MemSys) (key : Option KeyTag) (cs : Cells) : MemSys :=
  cs.foldl (fun mm c => putMem (rekeyBlock (homeOnly mm (lineOf c.1)) key (blockOf c.1) putMem) c.1 c.2) m

/-- Committed bytes of region 00 written at the home into the LLC, as a request of another package under MT 00 makes them (R77, R132). -/
def llcWrite (m : MemSys) (key : Option KeyTag) (cs : Cells) : MemSys :=
  cs.foldl (fun mm c => putLlc (rekeyBlock (homeInval mm (lineOf c.1)) key (blockOf c.1) putLlc) c.1 c.2) m

/-- Committed bytes written at the home as their memory type gives: into the LLC under MT 00 in region 00, else in no cache level (R32, R132). -/
def homePut (m : MemSys) (mt pa : Nat) (key : Option KeyTag) (cs : Cells) : MemSys :=
  if mt = 0 ∧ regionOf pa = 0 then llcWrite m key cs else homeWrite m key cs

/-- Bytes written at the home as one of the two writes of R88 that clear poison, when they cover their line. -/
def homeWriteWhole (m : MemSys) (key : Option KeyTag) (cs : Cells) : MemSys :=
  (uniq (cs.map fun c => lineOf c.1)).foldl (fun m l => setFlag m .hbm l false) (homeWrite m key cs)

/-- Cells of consecutive bytes. -/
def cellsAt (pa : Nat) : List Byte → Cells
  | [] => []
  | b :: bs => (pa, b) :: cellsAt (pa + 1) bs

/-- A dword of committed memory, as the device reads it at the home under a key (R35, R409). -/
def homeRead (s : State) (key : Option KeyTag) (pa n : Nat) : Nat := leNat (commBytes s.ms key pa n)

/-- A number of n bytes that the device writes at the home under a key, as an MT 01 store (R92, R409). -/
def homeStore (s : State) (key : Option KeyTag) (pa n v : Nat) : State :=
  { s with ms := forgetTrack (homeWrite s.ms key (cellsAt pa (leBytes n v))) pa n }

/-! The RAS log. -/

/-- What a RAS record says (R92). -/
structure RasRec where
  kind : Nat
  level : Nat
  die : Nat
  line : Nat
  ctx : Nat
  tid : Nat
  addr : Nat
  /-- The tile of a row (LEVEL 6), whose place is its handle and row. -/
  tile : Option TileKey
  deriving DecidableEq, Repr

/-- Whether a record is of the place of an earlier one: the line, or the tile's row (R91, log 72). -/
def RasRec.same (r : RasRec) (e : RasRecent) : Bool := decide (e.tile = r.tile) && decide (e.line = r.line)

/-- The number of records of the RAS ring (R91). -/
def rasSize (s : State) : Nat := 2 ^ (fld (s.reg10 .rasbase) 3 0 + 7)

/-- The address of a record of the RAS ring. -/
def rasAddr (s : State) (i : Nat) : Nat := fld (s.reg10 .rasbase) 51 12 * 4096 + i * 32

/-- One more record lost, saturating (R91). -/
def rasLost (s : State) : State :=
  let w := s.reg10 .rasidx
  s.setReg10 .rasidx (setFld w 59 46 (min 16383 (fld w 59 46 + 1)))

/-- A RAS record made (R91): none with EN = 0; LOST counts when the ring is full or partition 0's default key is unusable (R409). A corrected error
on a line within 1 ms of the making of its newest record adds to that record's COUNT (log 72); a record written over is no line's newest. -/
def rasLog (s : State) (r : RasRec) : State :=
  if !bitOf (s.reg10 .rasbase) 63 then s
  else
    match defaultKey s 0 with
    | none => rasLost s
    | some key =>
      let w := s.reg10 .rasidx
      let widx := fld w 21 0
      match (if r.kind = 1 then s.ms.rasRecent.find? fun e => r.same e && decide (s.clk.time < e.time + 1000000) else none) with
      | some e =>
        let a := rasAddr s e.index + 16
        let d := homeRead s (some key) a 8
        let c := min 65535 (bitsAt d 48 16 + 1)
        homeStore s (some key) a 8 (d % 2 ^ 48 + c * 2 ^ 48)
      | none =>
        if (widx + 1) % rasSize s = fld w 43 22 % rasSize s then rasLost s
        else
          let a := rasAddr s widx
          let d1 := r.kind % 16 * 2 ^ 60 + r.level % 16 * 2 ^ 56 + r.die % 32 * 2 ^ 51 + r.line % 2 ^ 45
          let d2 := 1 * 2 ^ 48 + r.ctx % 4096 * 2 ^ 32 + r.tid % 2 ^ 32
          let s1 := homeStore s (some key) a 8 s.clk.time
          let s2 := homeStore s1 (some key) (a + 8) 8 d1
          let s3 := homeStore s2 (some key) (a + 16) 8 d2
          let s4 := homeStore s3 (some key) (a + 24) 8 r.addr
          let s5 := s4.setReg10 .rasidx (setFld w 21 0 ((widx + 1) % rasSize s))
          let others := s5.ms.rasRecent.filter fun e => !(r.same e && decide (r.kind = 1)) && decide (e.index ≠ widx)
          { s5 with ms := { s5.ms with rasRecent := if r.kind = 1 then ⟨r.tile, r.line, widx, s.clk.time⟩ :: others else others } }

/-! Errors. -/

/-- Whether a gathered line has an element in a line of memory. -/
def gathTouches (g : GathLine) (line : Nat) : Bool := g.elems.any fun e => e.2.any fun c => decide (lineOf c.1 = line)

/-- Instruction lines dropped, with what is latent in them (R75, R90). -/
def MemSys.dropCode (m : MemSys) (gone : CoreId → Nat → Bool) : MemSys :=
  { m with l1i := m.l1i.filter fun l => !gone l.core l.line, latent := m.latent.filter fun l => !gone l.core l.line }

/-- The first-level copies of a line in a core's data cache dropped. -/
def dropL1d (m : MemSys) (c : Option CoreId) (line : Nat) : MemSys :=
  { m with l1d := m.l1d.filter fun l => decide (l.line ≠ line) || decide (some l.core ≠ c)
           gath := m.gath.filter fun g => !gathTouches g line || decide (some g.core ≠ c) }

/-- An error found by an access or by the scrubber (R87, R88): a correctable one is repaired and logged; a clean copy with a good copy below it is
dropped, to be fetched again; a provisional line is lost, which its task's access logs; any other copy is poisoned. One in the directory is logged as
corrected (log 71). -/
def eccFound (s : State) (e : EccError) : State :=
  let s1 := { s with ms := { s.ms with ecc := s.ms.ecc.filter fun x => decide (x ≠ e) } }
  let rec0 : RasRec := ⟨1, e.level.code, e.die, e.line, 0, 0, 0, none⟩
  let poisoned := fun (h : Held) => rasLog { s1 with ms := setFlag s1.ms h e.line true } { rec0 with kind := 2 }
  let belowBad := if s1.ms.llcl.contains e.line then flagged s1.ms .llc e.line else flagged s1.ms .hbm e.line
  if e.corrects then rasLog s1 rec0
  else
    match e.level, e.prov with
    | .l1i, _ => rasLog { s1 with ms := { s1.ms with l1i := s1.ms.l1i.filter fun l => decide (l.line ≠ e.line) || decide (some l.core ≠ e.core) } } rec0
    | .l1d, _ => rasLog { s1 with ms := dropL1d s1.ms e.core e.line } rec0
    | .tile, _ => s1
    | .directory, _ => rasLog s1 rec0
    | .l2, some _ => s1
    | .l2, none =>
      if !inL2 s1.ms e.die e.line then s1
      else if ownerOfLine s1.ms e.line = some e.die ∨ belowBad then poisoned (.l2 e.die)
      else rasLog { s1 with ms := dropL2 s1.ms e.die e.line } rec0
    | .llc, _ =>
      if !s1.ms.llcl.contains e.line then s1
      else if !(cellsIn s1.ms.llc (e.line * 128) 128).isEmpty || flagged s1.ms .hbm e.line then poisoned .llc
      else rasLog { s1 with ms := llcEvict s1.ms e.line } rec0
    | .hbm, _ => poisoned .hbm

/-- Whether an error lies in a copy. -/
def EccError.inCopy (e : EccError) (h : Held) (line : Nat) : Bool :=
  decide (e.line = line) && decide (e.prov = none) &&
    (match h with | .l2 d => decide (e.level = .l2) && decide (e.die = d) | .llc => decide (e.level = .llc) | .hbm => decide (e.level = .hbm))

/-- The errors of a copy found by an access to it. -/
def eccAt (s : State) (h : Held) (line : Nat) : State := (s.ms.ecc.filter fun e => e.inCopy h line).foldl eccFound s

/-- The errors that an access to a line meets at a die's L2, or at its home: those of the copy that serves it, those of the copy below when that one is
dropped, and those of the directory when the line's home is asked. -/
def eccTouch (s : State) (die : Option Nat) (line : Nat) : State :=
  let own := match die with | some d => inL2 s.ms d line | none => false
  let s0 := if own then s else (s.ms.ecc.filter fun e => decide (e.line = line) && decide (e.level = .directory)).foldl eccFound s
  let go := fun (s : State) (old : Option Held) =>
    let h := copyAt s.ms die line
    if old = some h then s else eccAt s h line
  let h1 := copyAt s0.ms die line
  let s1 := go s0 none
  let h2 := copyAt s1.ms die line
  let s2 := go s1 (some h1)
  go s2 (some h2)

/-- The errors of a first-level data cache that a hit on some lines meets (R87). -/
def eccL1d (s : State) (c : CoreId) (lines : List Nat) : State :=
  (s.ms.ecc.filter fun e => decide (e.level = .l1d) && decide (e.core = some c) && lines.contains e.line).foldl eccFound s

/-- The errors of an instruction cache that a hit on a line meets (R87). -/
def eccL1i (s : State) (c : CoreId) (line : Nat) : State :=
  (s.ms.ecc.filter fun e => decide (e.level = .l1i) && decide (e.core = some c) && decide (e.line = line)).foldl eccFound s

/-- A poisoned byte of a line consumed by a thread (R89): the record of kind 0x3, of the copy that served it. -/
def poisonConsumed (s : State) (die : Option Nat) (line ctx tid addr : Nat) : State :=
  let (lv, d) := heldLevel s (copyAt s.ms die line) line
  rasLog s ⟨3, lv, d, line, ctx, tid, addr, none⟩

end Sys2Proof.Machine
end

