-- ==== Sys2Proof/Machine/Layouts.lean ====
section
/-! DEFINITION. The layouts in which supervisor and debug reads see the state: tiles (R54 to R57), timeline counters (R121), capability entries (R356),
packets (R320), and the region-10 registers with their computed fields (R33, R53, R328, R342, R381). -/

namespace Sys2Proof.Machine

/-! Tiles. -/

/-- The level of a handle: 1 core, 2 quad, 3 die (R47). -/
def handleLevel (h : Nat) : Nat := if h < 128 then 1 else if h < 224 then 2 else 3

/-- The tile of a key. -/
def State.tile? (s : State) (k : TileKey) : Option Tile := s.un.tiles.find? fun t => decide (t.key = k)

/-- Bytes of a row of `cols` elements. -/
def rowBytes (f : Fmt) (cols : Nat) : Nat := (cols * f.width + 7) / 8

/-- PITCH: the words of a row. -/
def pitchOf (f : Fmt) (cols : Nat) : Nat := (rowBytes f cols + 63) / 64

/-- NSTR: the stripes of a tile. -/
def stripesOf (f : Fmt) (rows cols : Nat) : Nat := (rows * pitchOf f cols + 31) / 32

/-- The stripes of a tile. -/
def Tile.nstr (t : Tile) : Nat := stripesOf t.fmt t.rows t.cols

/-- The tiles in a store. -/
def tilesIn (s : State) (st : Store) : List Tile := s.un.tiles.filter fun t => decide (t.store = st)

/-- The pinned stripes of a die that a partition holds: PINQ.USED (R53). -/
def pinnedUsed (s : State) (die part : Nat) : Nat :=
  (((tilesIn s (.pinned die)).filter fun t => decide (t.part = part)).map Tile.nstr).foldl (· + ·) 0

/-- The tiles that a copy or TACCRD command names. -/
def CmdOp.pendTiles : CmdOp → List TileKey
  | .tload t .. | .tstore t .. => [t]
  | .tcopyT a b _ => if a = b then [a] else [a, b]
  | .taccrd _ d .. => [d]
  | _ => []

/-- PEND (R57). -/
def pendOf (s : State) (k : TileKey) : Nat :=
  (s.un.cmds.filter fun c => c.op.pendTiles.contains k && !c.ghosts.any fun t => decide (t.key = k)).length

/-- Dword 0 of a table entry (R57). -/
def entryLo (k : Tile) : Word :=
  BitVec.ofNat 64 (2 ^ 63 + handleLevel k.key.handle * 2 ^ 61 + k.fmt.code * 2 ^ 57 + (k.rows - 1) * 2 ^ 45 + (k.cols - 1) * 2 ^ 34
    + pitchOf k.fmt k.cols * 2 ^ 28 + k.othr * 2 ^ 22 + k.ostand % 65536)

/-- Dword 1 of a table entry (R57). -/
def entryHi (s : State) (k : Tile) : Word :=
  let lk := match k.writer with | some _ => 2 | none => if k.readers.isEmpty then 0 else 1
  let whld := match k.writer with | some t => t.index % 64 | none => 0
  BitVec.ofNat 64 (lk * 2 ^ 62 + k.readers.length % 64 * 2 ^ 56 + whld * 2 ^ 50 + k.hcore % 4 * 2 ^ 48 + pendOf s k.key % 256 * 2 ^ 40 + k.nstr * 2 ^ 17 + k.base)

/-! Timeline counters. -/

/-- A counter with nothing in it. -/
def Timeline.zero (k : TlKey) : Timeline := ⟨k, 0, 0, 0, []⟩

/-- The counter of a key. -/
def State.tl (s : State) (k : TlKey) : Timeline := (s.un.timelines.find? fun t => decide (t.key = k)).getD (Timeline.zero k)

/-- The four dwords of a counter (R121): F and FSEQ are those of the lowest command of the counter that a fault holds. -/
def timelineWords (s : State) (k : TlKey) : List Word :=
  let t := s.tl k
  let held := (s.un.cmds.filter fun c => decide (c.key = k) && c.held.isSome).map (·.seq)
  let f := match held with
    | [] => 0
    | n :: rest => 2 ^ 63 + rest.foldl min n % 2 ^ 60
  [BitVec.ofNat 64 t.val, BitVec.ofNat 64 t.iss, BitVec.ofNat 64 t.stamp, BitVec.ofNat 64 f]

/-! Capability entries. -/

/-- The entry in use of a partition's capability table at an index. -/
def capAt (s : State) (part index : Nat) : Option CapEntry :=
  s.db.caps.find? fun e => decide (e.part = part) && decide (e.index = index) && e.used

/-- The nonce that an entry of a partition's table holds, in use or not (R356, log 9). -/
def nonceAt (s : State) (part index : Nat) : BitVec 32 :=
  Config.nonce (((look s.db.nonces (part, index)).getD ((look s.db.nonceBase part).getD 0) * 65536) + part * 4096 + index)

/-- The two dwords of a capability entry (R356). -/
def capWords (s : State) (part index : Nat) : List Word :=
  match capAt s part index with
  | some e =>
    [ BitVec.ofNat 64 (e.nonce.toNat * 2 ^ 32 + 2 ^ 31 + e.parent % 4096 * 2 ^ 8 + e.rights.toNat)
    , BitVec.ofNat 64 (b2n e.set * 2 ^ 44 + e.ctx % 4096 * 2 ^ 32 + (if e.set then e.stand % 65536 else 0)) ]
  | none => [BitVec.ofNat 64 ((nonceAt s part index).toNat * 2 ^ 32), 0]

/-! Packets. -/

/-- The bits of a scale shadow as a field (R262, R320). -/
def scaleField (s : ScaleShadow) : Nat := b2n s.en * 256 + s.handle.toNat

/-- The eight dwords of a packet (R320). -/
def Packet.words (p : Packet) : List Word :=
  [ p.entry, p.args, p.csa
  , BitVec.ofNat 64 (scaleField p.scla * 2 ^ 55 + scaleField p.sclb * 2 ^ 46 + p.budget % 2 ^ 46)
  , BitVec.ofNat 64 p.notbefore
  , BitVec.ofNat 64 (p.seed.toNat * 2 ^ 32 + p.standix % 2 ^ 32)
  , BitVec.ofNat 64 (p.ctx % 4096 * 2 ^ 52 + p.cls.code * 2 ^ 50 + p.threads % 128 * 2 ^ 43 + p.prio % 4 * 2 ^ 41 + p.retries % 256 * 2 ^ 33
      + p.rnd.code * 2 ^ 30 + p.lmin % 64 * 2 ^ 24 + p.lpref % 64 * 2 ^ 18 + p.fmta.code * 2 ^ 14 + p.fmtb.code * 2 ^ 10 + p.queue % 256 * 2 ^ 2)
  , BitVec.ofNat 64 p.node ]

/-! The boot log. -/

/-- UKIND of a unit (R382). -/
def Unit_.kind : Unit_ → Nat
  | .package => 0
  | .die _ => 1
  | .link .. => 2
  | .stack .. => 3
  | .quad .. => 4
  | .cluster .. => 5
  | .port .. => 6
  | .core _ => 7

/-- Dword 3 of a boot record: the fields that name a unit (R382). -/
def unitWord (u : Unit_) : Word :=
  let w := fun (die quad core cluster index : Nat) => BitVec.ofNat 64 (die * 2 ^ 32 + quad * 2 ^ 18 + core * 2 ^ 16 + cluster * 2 ^ 8 + index)
  match u with
  | .package => 0
  | .die d => w d 0 0 0 0
  | .link d side => w d 0 0 0 side
  | .stack d k => w d 0 0 0 k
  | .quad d q => w d q 0 0 0
  | .cluster d q k => w d q 0 k 0
  | .port d k => w d 0 0 0 k
  | .core c => w c.die c.quad c.core 0 0

/-- The four dwords of a boot record (R382). -/
def BootRec.words (r : BootRec) : List Word :=
  [BitVec.ofNat 64 (r.start % 2 ^ 32 * 2 ^ 32 + r.step % 2 ^ 16 * 2 ^ 16 + Unit_.kind r.unit * 2 ^ 8 + r.var % 16 * 2 ^ 4 + r.out % 16), r.code, r.time, unitWord r.unit]

/-! Contexts. -/

/-- The dwords of a translation-context record (R21). -/
def CtxRec.words (r : CtxRec) : List Word :=
  [BitVec.ofNat 64 (b2n r.en * 2 ^ 63 + r.part.toNat * 2 ^ 52 + r.root.toNat * 2 ^ 12), BitVec.ofNat 64 r.jobid.toNat, 0, 0]

/-! Registers. -/

/-- LEASE.POOL of a V-quad (R269). -/
def poolOf (s : State) (die quad : Nat) : Nat := 32 - (s.un.removed.filter fun e => decide (e.1 = die) && decide (e.2.1 = quad)).length

/-- QUOTA of a partition on a V-quad (R328). -/
def quotaOf (s : State) (die quad part : Nat) : Nat := min 32 (fld (s.reg10 (.vquota die quad part)) 5 0)

/-- Whether a thread lies on a quad. -/
def onQuad (t : Thread) (die quad : Nat) : Bool :=
  match t.place with
  | some p => decide (p.at_.die = die) && decide (p.at_.quad = quad) && decide (t.run ≠ .ended)
  | none => false

/-- The clusters that a thread holds: none while it waits for those it gave up (R152). -/
def grantOf (t : Thread) : Nat := if t.owed.isSome then 0 else t.vec.grant

/-- The clusters that a partition's threads hold on a V-quad: HELD (R328). -/
def heldClusters (s : State) (die quad part : Nat) : Nat :=
  ((s.threads.filter fun t => onQuad t die quad && decide (s.partOf t.ctx = part)).map grantOf).foldl (· + ·) 0

/-- The partition that a core belongs to (R328). -/
def ownerOf (s : State) (c : CoreId) : Nat := (look s.un.owner c).getD 0

/-- The fields of SVCMD (R342). -/
def svOp (w : Word) : Nat := fld w 63 60
def svStat (w : Word) : Nat := fld w 59 56
def svCtx (w : Word) : Nat := fld w 55 44
def svQueue (w : Word) : Nat := fld w 43 36
def svStand (w : Word) : Nat := fld w 31 16
def svIndex (w : Word) : Nat := fld w 5 0

/-- Bits of a write-1-to-clear field of a register, from bit `lo`, left after a write. -/
def clearOnes (old new : Word) (hi lo : Nat) : Nat :=
  (BitVec.ofNat 64 (fld old hi lo) &&& ~~~BitVec.ofNat 64 (fld new hi lo)).toNat

/-- What a write stores in a register (R33, R53, R310, R328, R339, R358, R375, R377); none for a register that a write does not change. SVCMD is apart. -/
def regStored (old v : Word) : Reg10 → Option Word
  | .defkey _ => some (BitVec.ofNat 64 (fld v 15 15 * 2 ^ 15 + fld v 10 0))
  | .pinq _ _ => some (BitVec.ofNat 64 (min 131072 (fld v 17 0)))
  | .qbase _ => some (BitVec.ofNat 64 (fld v 51 12 * 2 ^ 12 + min 12 (fld v 3 0)))
  | .qctl _ =>
    some (BitVec.ofNat 64 (fld v 63 63 * 2 ^ 63 + clearOnes old v 62 62 * 2 ^ 62 + fld v 61 60 * 2 ^ 60 + clearOnes old v 59 59 * 2 ^ 59
      + clearOnes old v 58 58 * 2 ^ 58 + max 1 (fld v 47 32) * 2 ^ 32))
  | .vquota _ _ _ => some (BitVec.ofNat 64 (min 32 (fld v 5 0)))
  | .svhnd _ => some (BitVec.ofNat 64 (fld v 63 2 * 4 + fld v 0 0))
  | .svring _ => some (BitVec.ofNat 64 (fld v 63 63 * 2 ^ 63 + fld v 51 12 * 2 ^ 12 + min 4 (fld v 2 0)))
  | .svidx _ => some (BitVec.ofNat 64 (fld v 63 10 * 2 ^ 10 + fld old 9 0))
  | .dbgring _ => some (BitVec.ofNat 64 (fld v 63 63 * 2 ^ 63 + fld v 51 12 * 2 ^ 12 + min 10 (fld v 3 0)))
  | .hwin _ => some (BitVec.ofNat 64 (fld v 63 62 * 2 ^ 62 + fld v 49 10 * 2 ^ 10))
  | .hport _ => some (setFld (setFld old 62 61 (min 2 (fld v 62 61))) 47 32 (clearOnes old v 47 32))
  | .keyslot _ | .rasbase | .rasidx | .qptr _ | .qown .. | .svcmd _ | .timestat | .diehlth _ => none

/-- SVCMD written (R342): a write with an OP is ignored while a command is busy; OP 1 to 9 begins a command, and a reserved OP is refused. A write with
OP 0 stores the other fields; the command that is busy goes on as it was written. -/
def writeSvcmd (s : State) (part : Nat) (v : Word) : State :=
  let old := s.reg10 (.svcmd part)
  if svOp v ≠ 0 ∧ svStat old = 1 then s
  else
    let stat := if svOp v = 0 then svStat old else if svOp v ≤ 9 then 1 else 2
    let w := BitVec.ofNat 64 (svOp v * 2 ^ 60 + stat * 2 ^ 56 + svCtx v * 2 ^ 44 + svQueue v * 2 ^ 36 + svStand v * 2 ^ 16 + svIndex v)
    let s1 := s.setReg10 (.svcmd part) w
    if svOp v ≠ 0 ∧ svOp v ≤ 9 then { s1 with gl := { s1.gl with svCmd := assoc s1.gl.svCmd part w } } else s1

/-- A region-10 register as a reader sees it, with its computed fields: LOADED and OWNER (R33), USED (R53), PEND and HELD (R328), TIMESTAT (R381). -/
def registerValue (s : State) (r : Reg10) : Word :=
  match r with
  | .keyslot n => (match look s.xl.keys n with | some k => BitVec.ofNat 64 (2 ^ 15 + k.owner % 16 * 2 ^ 8) | none => 0)
  | .pinq die p => BitVec.ofNat 64 ((s.reg10 r).toNat + pinnedUsed s die p % 2 ^ 18 * 2 ^ 32)
  | .qown die quad =>
    let owner := fld (s.reg10 r) 3 0
    BitVec.ofNat 64 (owner + if (quadCores die quad).all fun c => decide (ownerOf s c = owner) then 0 else 16)
  | .vquota die quad p => BitVec.ofNat 64 ((s.reg10 r).toNat + heldClusters s die quad p % 64 * 2 ^ 8)
  | .timestat => BitVec.ofNat 64 (b2n s.clk.lock * 2 ^ 63 + b2n s.clk.hold * 2 ^ 62 + b2n s.clk.master * 2 ^ 61 + s.clk.err.toNat)
  | _ => s.reg10 r

end Sys2Proof.Machine
end

