-- ==== Sys2Proof/Machine/Device.lean ====
section
/-! DEFINITION. Region 10 (R7, R18): what a write of each register does (R21, R33, R53, R91, R310, R328, R339, R342, R358, R375, R377), and the loads and
stores of supervisor code under MT 10. -/

namespace Sys2Proof.Machine

/-- RASBASE written (R91): a change of PPN or SIZE empties the ring. -/
def rasbaseWrite (s : State) (v : Word) : State :=
  let old := s.reg10 .rasbase
  let new := BitVec.ofNat 64 (b2n (bitOf v 63) * 2 ^ 63 + fld v 51 12 * 2 ^ 12 + fld v 3 0)
  let s1 := s.setReg10 .rasbase new
  if fld old 51 12 = fld new 51 12 ∧ fld old 3 0 = fld new 3 0 then s1
  else
    let s2 := s1.setReg10 .rasidx (setFld (setFld (s1.reg10 .rasidx) 43 22 0) 21 0 0)
    { s2 with ms := { s2.ms with rasRecent := [] } }

/-- RASIDX written (R91): RIDX is taken modulo the size of the ring; a 1 in LOST clears its bit. -/
def rasidxWrite (s : State) (v : Word) : State :=
  let old := s.reg10 .rasidx
  let lost := (BitVec.ofNat 14 (fld old 59 46) &&& ~~~BitVec.ofNat 14 (fld v 59 46)).toNat
  s.setReg10 .rasidx (setFld (setFld old 59 46 lost) 43 22 (fld v 43 22 % rasSize s))

/-- A context record with a dword written (R21). -/
def CtxRec.put (r : CtxRec) (dword : Nat) (v : Word) : CtxRec :=
  match dword with
  | 0 => { r with en := bitOf v 63, part := v.extractLsb' 52 4, root := v.extractLsb' 12 40 }
  | 1 => { r with jobid := v.extractLsb' 0 32 }
  | _ => r

/-- A dword of a context record written (R21): EN is stored as 0 when another enabled context has the JOBID. -/
def contextWrite (s : State) (ctx dword : Nat) (v : Word) : State :=
  let r := (s.ctxRec ctx).put dword v
  let clash := s.xl.ctxs.any fun e => decide (e.1 ≠ ctx) && e.2.en && decide (e.2.jobid = r.jobid)
  let r1 := if clash then { r with en := false } else r
  { s with xl := { s.xl with ctxs := if r1 = CtxRec.zero then unassoc s.xl.ctxs ctx else assoc s.xl.ctxs ctx r1 } }

/-- The number of records of a queue's ring (R310). -/
def ringSize (s : State) (q : Nat) : Nat := 2 ^ (fld (s.reg10 (.qbase q)) 3 0 + 4)

/-- The records pending between two indices of a ring. -/
def pendingBetween (size head tail : Nat) : Nat := (tail % size + size - head % size) % size

/-- HEAD and TAIL of a queue. -/
def headOf (s : State) (q : Nat) : Nat := fld (s.reg10 (.qptr q)) 31 16
def tailOf (s : State) (q : Nat) : Nat := fld (s.reg10 (.qptr q)) 15 0

/-- TAIL written (R310, R311): a write that would make fewer records pending is ignored, and sets ERR. -/
def tailWrite (s : State) (q : Nat) (v : Word) : State :=
  let size := ringSize s q
  let new := fld v 15 0 % size
  if pendingBetween size (headOf s q) new < pendingBetween size (headOf s q) (tailOf s q) then
    s.setReg10 (.qctl q) (setFld (s.reg10 (.qctl q)) 62 62 1)
  else s.setReg10 (.qptr q) (setFld (s.reg10 (.qptr q)) 15 0 new)

/-- QOWN written (R328): OWNER of a C- or T-quad. Its cores pass one by one. -/
def qownWrite (s : State) (die quad : Nat) (v : Word) : State :=
  if classOfDie die = .v ∨ !(computeDies s.clk.blend).contains die ∨ quadsOf (classOfDie die) ≤ quad then s
  else s.setReg10 (.qown die quad) (BitVec.ofNat 64 (fld v 3 0))

/-- A register without an operation of its own written. -/
def registerWrite (s : State) (r : Reg10) (v : Word) : State :=
  if !regExists s r then s
  else
    match r with
    | .svcmd part => writeSvcmd s part v
    | _ => (match regStored (s.reg10 r) v r with | some w => s.setReg10 r w | none => s)

/-! Accesses. -/

/-- A dword of region 10 as supervisor code reads it. -/
def devWord (s : State) : DevReg → Word
  | .reg r => registerValue s r
  | .context c d => ((s.ctxRec c).words).getD d 0
  | .cap p i d => (capWords s p i).getD d 0
  | .tile k d => (match s.tile? k with | some t => if d = 0 then entryLo t else entryHi s t | none => 0)
  | .timeline k d => (timelineWords s k).getD d 0
  | .packet die n d => (match (s.gl.placed.filter fun e => decide (e.die = die))[n]? with | some e => e.packet.words.getD d 0 | none => 0)

/-- A dword of region 10 written by supervisor code; the layouts that only hardware changes ignore it (R57, R121, R320, R356). -/
def devPut (s : State) (r : DevReg) (v : Word) : State :=
  match r with
  | .reg .rasbase => rasbaseWrite s v
  | .reg .rasidx => rasidxWrite s v
  | .reg (.qptr q) => tailWrite s q v
  | .reg (.qown die quad) => qownWrite s die quad v
  | .reg r => registerWrite s r v
  | .context c d => contextWrite s c d v
  | .cap .. | .tile .. | .timeline .. | .packet .. => s

/-- The n bytes of region 10 at an address: one that lies in no register reads as 0 (log 90). -/
def devLoad (s : State) (pa n : Nat) : List Byte :=
  (List.range n).map fun k => match devOf s (pa + k) with | some r => (devWord s r).extractLsb' ((pa + k) % 8 * 8) 8 | none => 0

/-- Bytes stored in region 10: each dword that they touch is written once, in order, with its other bytes as they read (log 12); those that lie in no
register are dropped (log 90). -/
def devStore (s : State) (pa : Nat) (bs : List Byte) : State :=
  (uniq ((List.range bs.length).map fun k => (pa + k) / 8)).foldl (fun s a =>
    match devOf s (a * 8) with
    | none => s
    | some r =>
      let old := devLoad s (a * 8) 8
      let new := (List.range 8).map fun j => if pa ≤ a * 8 + j ∧ a * 8 + j < pa + bs.length then bs.getD (a * 8 + j - pa) 0 else old.getD j 0
      devPut s r (BitVec.ofNat 64 (leNat new))) s

end Sys2Proof.Machine
end

