-- ==== Sys2Proof/Machine/Translate.lean ====
section
/-! DEFINITION. Translation (R13 to R46): the checks, the walk with its contiguous groups and its updates of A and D, the TLBs and the walk cache. -/

namespace Sys2Proof.Machine

/-- The kinds of access that a leaf permits or refuses (R29). A tile copy is a load or a store; `code` is the load of LINEOP icinv, which X permits
too (R243). -/
inductive Acc where
  | fetch | load | store | atomic | code
  deriving DecidableEq, Repr

/-- An access: its kind, whether it is made in supervisor mode (R30), and whether a vector or a tile-copy access makes it (R31). -/
structure Access where
  acc : Acc
  sup : Bool
  vec : Bool
  deriving DecidableEq, Repr

/-- Whether an access writes. -/
def Access.writes (k : Access) : Bool := k.acc == .store || k.acc == .atomic

/-- Who translates: the context, the TLBs looked in, the die whose walk cache serves (R36), and the THREADID that poison in the tables is logged
under (R89). -/
structure Walker where
  ctx : Nat
  first : Option TlbAt
  second : Option TlbAt
  die : Option Nat
  who : Nat := 0
  deriving DecidableEq, Repr

/-- The translation hardware that serves a core (R36), for a thread. -/
def coreWalker (ctx : Nat) (c : CoreId) (t : Tid) : Walker := ⟨ctx, some (.core c), some (.die c.die), some c.die, t.word⟩

/-- A translation: the physical address, the memory type and the key that the bytes are held under. -/
structure Xlated where
  pa : Nat
  mt : Nat
  key : Option KeyTag
  deriving DecidableEq, Repr

/-- Why an access is not made: a fault class and level (R43), or poison in the tables (R89). -/
inductive XFault where
  | cls (c level : Nat)
  | poison
  deriving DecidableEq, Repr

/-- The bits of a page-table entry as a leaf (R24). -/
def leafOf (pte : Nat) : Leaf :=
  { key := bitsAt pte 52 11, ppn := bitsAt pte 12 40, mt := bitsAt pte 8 2, dirty := pte.testBit 7, global := pte.testBit 5
    user := pte.testBit 4, exec := pte.testBit 3, write := pte.testBit 2, read := pte.testBit 1 }

/-- R30. -/
def privilegeOk (l : Leaf) (k : Access) : Bool :=
  if k.sup then !(l.user && k.acc == .fetch) else l.user

/-- R29: the class of a refusal. -/
def permissionFault (l : Leaf) (k : Access) : Option Nat :=
  match k.acc with
  | .fetch => if l.exec then none else some 0x9
  | .load => if l.read then none else some 0x7
  | .code => if l.read || l.exec then none else some 0x7
  | .store => if l.write then none else some 0x8
  | .atomic => if l.read && l.write then none else some 0x8

/-- R33: the key of a page at a physical address; none for class 0xC. -/
def keyFor (s : State) (part : Nat) (l : Leaf) (pa : Nat) : Option (Option KeyTag) :=
  if l.key ≠ 0 then
    (if regionOf pa = 1 ∨ regionOf pa = 2 then none else (usableSlot s l.key part).map some)
  else if regionOf pa = 0 then (defaultKey s part).map some
  else some none

/-- R31. -/
def typeOk (pa mt : Nat) (k : Access) : Bool :=
  (k.acc != .fetch || mt == 0) && (regionOf pa != 2 || (mt == 2 && k.sup)) && (!(k.acc == .atomic || k.vec) || mt != 2)

/-- The checks of a leaf, in the order of R28: the class of the first that fails, or the translation. -/
def checkLeaf (s : State) (part : Nat) (l : Leaf) (k : Access) (pa : Nat) : Except Nat Xlated :=
  if !privilegeOk l k then .error 0xA
  else
    match permissionFault l k with
    | some c => .error c
    | none =>
      match keyFor s part l pa with
      | none => .error 0xC
      | some key =>
        if !typeOk pa l.mt k then .error 0xE
        else if !populated s pa then .error 0xD
        else .ok ⟨pa, l.mt, key⟩

/-- A page-table entry read at its home (R35), on the way to a virtual address: class 0xD where no memory is (log 20). Poison is consumed by the access
(R89). -/
def readPte (s : State) (w : Walker) (key : KeyTag) (va pa level : Nat) : Except XFault Nat × State :=
  if regionOf pa ≠ 0 ∨ !populated s pa then (.error (.cls 0xD level), s)
  else
    let s1 := eccTouch s none (lineOf pa)
    if isPoisoned s1.ms none (lineOf pa) then (.error .poison, poisonConsumed s1 none (lineOf pa) w.ctx w.who va)
    else (.ok (homeRead s1 (some key) pa 8), s1)

/-- A table entry that a walk ends in: the leaf, the size of its page in bits, its level, its address and its bits. -/
structure Found where
  leaf : Leaf
  sbits : Nat
  level : Nat
  at_ : Nat
  pte : Nat
  deriving DecidableEq, Repr

/-- Whether an entry is a pointer: R = W = X = 0 (R24). -/
def pteIsPointer (pte : Nat) : Bool := bitsAt pte 1 3 == 0

/-- What an entry other than a pointer comes to, once its group base is read: the last part of a leaf's decoding (R25). -/
def leafEntry (pte sbits level pa : Nat) : Except XFault Found :=
  if pte.testBit 63 || pte.testBit 11 then .error (.cls 0x3 level)
  else if bitsAt pte 1 2 = 2 then .error (.cls 0x3 level)
  else if bitsAt pte 12 40 % 2 ^ (sbits - 12) ≠ 0 then .error (.cls 0x3 level)
  else if bitsAt pte 8 2 = 3 then .error (.cls 0xB level)
  else .ok ⟨leafOf pte, sbits, level, pa, pte⟩

/-- The walk from a table of level n − 1 on (R23 to R26), with the pointers met: their levels and the tables they name. -/
def walkFrom (s : State) (w : Walker) (key : KeyTag) (va : Nat) : Nat → Nat → List (Nat × Nat) → Except XFault Found × List (Nat × Nat) × State
  | 0, _, ptrs => (.error (.cls 0x3 0), ptrs, s)
  | level + 1, base, ptrs =>
    let idx := bitsAt va (12 + 9 * level) 9
    match readPte s w key va (base + 8 * idx) level with
    | (.error e, s1) => (.error e, ptrs, s1)
    | (.ok pte, s1) =>
      if !pte.testBit 0 then (.error (.cls 0x2 level), ptrs, s1)
      else if pte.testBit 63 || pte.testBit 11 then (.error (.cls 0x3 level), ptrs, s1)
      else if pteIsPointer pte then
        if level = 0 ∨ bitsAt pte 52 11 ≠ 0 ∨ bitsAt pte 4 7 ≠ 0 then (.error (.cls 0x3 level), ptrs, s1)
        else walkFrom s1 w key va level (bitsAt pte 12 40 * 4096) ((level, bitsAt pte 12 40 * 4096) :: ptrs)
      else if 2 < level then (.error (.cls 0x3 level), ptrs, s1)
      else if !pte.testBit 10 then (leafEntry pte (12 + 9 * level) level (base + 8 * idx), ptrs, s1)
      else if level = 2 then (.error (.cls 0x3 level), ptrs, s1)
      else
        let g := if level = 1 then 5 else 4
        let gb := idx - idx % 2 ^ g
        match readPte s1 w key va (base + 8 * gb) level with
        | (.error e, s2) => (.error e, ptrs, s2)
        | (.ok b, s2) =>
          if !b.testBit 0 || !b.testBit 10 || pteIsPointer b then (.error (.cls 0x4 level), ptrs, s2)
          else if bitsAt b 12 40 % 2 ^ (9 * level + g) ≠ 0 then (.error (.cls 0x4 level), ptrs, s2)
          else (leafEntry b (12 + 9 * level + g) level (base + 8 * gb), ptrs, s2)

/-! TLBs. -/

/-- The capacity of a TLB (R36). -/
def tlbSize : TlbAt → Nat
  | .core c => match coreClass c with | .c => 256 | .v => 128 | .t => 32
  | .die _ => 16384
  | .remote _ => 4096

/-- Whether a TLB entry translates an address for a context of a partition. -/
def TlbEntry.covers (e : TlbEntry) (at_ : TlbAt) (ctx part va : Nat) : Bool :=
  decide (e.at_ = at_) && decide (e.part = part) && (e.leaf.global || decide (e.ctx = ctx)) && decide (va / 2 ^ e.sbits = e.vpage)

/-- A list without the entry at a place. -/
def dropAt {α : Type} (l : List α) (n : Nat) : List α := l.take n ++ l.drop (n + 1)

/-- A TLB entry made; one of the full TLB goes (log 13). -/
def tlbAdd (x : Xlate) (e : TlbEntry) : Xlate :=
  let old := x.tlb.filter fun f => !(decide (f.at_ = e.at_) && decide (f.part = e.part) && decide (f.ctx = e.ctx) && decide (f.vpage = e.vpage)
    && decide (f.sbits = e.sbits))
  let mine := old.filter fun f => decide (f.at_ = e.at_)
  if mine.length < tlbSize e.at_ then { x with tlb := e :: old }
  else
    match mine[Config.victim mine.length % mine.length]? with
    | some v => { x with tlb := e :: old.filter fun f => decide (f ≠ v) }
    | none => { x with tlb := e :: old }

/-- A walk-cache entry made (R36). -/
def walkAdd (x : Xlate) (e : WalkEntry) : Xlate :=
  let old := x.wcache.filter fun f => !(decide (f.die = e.die) && decide (f.part = e.part) && decide (f.ctx = e.ctx) && decide (f.level = e.level)
    && decide (f.prefix_ = e.prefix_))
  let mine := old.filter fun f => decide (f.die = e.die)
  if mine.length < 1024 then { x with wcache := e :: old }
  else
    match mine[Config.victim mine.length % mine.length]? with
    | some v => { x with wcache := e :: old.filter fun f => decide (f ≠ v) }
    | none => { x with wcache := e :: old }

/-- The deepest cached table on the way to an address: the number of levels left to walk, and its address. -/
def walkStart (s : State) (w : Walker) (part va : Nat) : Nat × Nat :=
  let root := (5, (s.ctxRec w.ctx).root.toNat * 4096)
  match w.die with
  | none => root
  | some d =>
    let here := fun lvl => s.xl.wcache.find? fun e =>
      decide (e.die = d) && decide (e.ctx = w.ctx) && decide (e.part = part) && decide (e.level = lvl) && decide (e.prefix_ = va / 2 ^ (12 + 9 * lvl))
    match here 1, here 2, here 3, here 4 with
    | some e, _, _, _ => (1, e.base)
    | none, some e, _, _ => (2, e.base)
    | none, none, some e, _ => (3, e.base)
    | none, none, none, some e => (4, e.base)
    | none, none, none, none => root

/-- The entry's A and D set at its home when they are clear and the access sets them (R27). -/
def setAccessed (s : State) (key : KeyTag) (f : Found) (k : Access) : State :=
  let new := (if f.pte.testBit 6 then 0 else 2 ^ 6) + (if k.writes && !f.pte.testBit 7 then 2 ^ 7 else 0)
  if new = 0 then s else homeStore s (some key) f.at_ 8 (f.pte + new)

/-- A walk of a local address (R28): the translation, with the TLBs and the walk cache filled, or the fault. -/
def walk (s : State) (w : Walker) (k : Access) (va : Nat) : Except XFault Xlated × State :=
  let r := s.ctxRec w.ctx
  let part := r.part.toNat
  if !r.en then (.error (.cls 0x2 4), s)
  else
    match defaultKey s part with
    | none => (.error (.cls 0xC 4), s)
    | some key =>
      let st := walkStart s w part va
      match walkFrom s w key va st.1 st.2 [] with
      | (.error e, _, s1) => (.error e, s1)
      | (.ok f, ptrs, s1) =>
        match checkLeaf s1 part f.leaf k (f.leaf.ppn * 4096 + va % 2 ^ f.sbits) with
        | .error c => (.error (.cls c f.level), s1)
        | .ok x =>
          let s2 := setAccessed s1 key f k
          let leaf := { f.leaf with dirty := f.leaf.dirty || k.writes }
          let ents := ([w.first, w.second].filterMap id).map fun a => (⟨a, w.ctx, part, va / 2 ^ f.sbits, f.sbits, f.level, leaf⟩ : TlbEntry)
          let x1 := ents.foldl tlbAdd s2.xl
          let x2 := match w.die with
            | none => x1
            | some d => ptrs.foldl (fun xx p => walkAdd xx ⟨d, w.ctx, part, p.1, va / 2 ^ (12 + 9 * p.1), p.2⟩) x1
          (.ok x, { s2 with xl := x2 })

/-- What a TLB gives for an access: an entry that covers it and permits it, and that is dirty for a write (R27, R36). -/
def tlbHit (s : State) (at_ : TlbAt) (ctx : Nat) (k : Access) (va : Nat) : Option (TlbEntry × Xlated) :=
  let part := s.partOf ctx
  match s.xl.tlb.find? fun e => e.covers at_ ctx part va with
  | none => none
  | some e =>
    if k.writes && !e.leaf.dirty then none
    else
      match checkLeaf s part e.leaf k (e.leaf.ppn * 4096 + va % 2 ^ e.sbits) with
      | .ok x => some (e, x)
      | .error _ => none

/-- Whether a local address needs a walk. -/
def needsWalk (s : State) (w : Walker) (k : Access) (va : Nat) : Bool :=
  ([w.first, w.second].filterMap id).all fun a => (tlbHit s a w.ctx k va).isNone

/-- A local address translated: by a first-level hit, by a last-level hit that fills the first level, or by a walk. -/
def translateLocal (s : State) (w : Walker) (k : Access) (va : Nat) : Except XFault Xlated × State :=
  match w.first.bind fun a => tlbHit s a w.ctx k va with
  | some (_, x) => (.ok x, s)
  | none =>
    match w.second.bind fun a => tlbHit s a w.ctx k va with
    | some (e, x) =>
      (.ok x, match w.first with | some a => { s with xl := tlbAdd s.xl { e with at_ := a } } | none => s)
    | none => walk s w k va

/-! Addresses. -/

/-- What a virtual address names (R13 to R17): a local address, or an offset in another package's job region. -/
inductive VaTo where
  | localTo (va : Nat)
  | remote (pkg offset : Nat)
  deriving DecidableEq, Repr

/-- A 64-bit virtual address resolved before translation: class 0x1 when it is not canonical, and class 0x9 for a fetch from the pod window. -/
def resolveVa (s : State) (k : Access) (va : Nat) : Except XFault VaTo :=
  if bitsAt va 56 8 = 0 then .ok (.localTo va)
  else if bitsAt va 56 8 ≠ 255 then .error (.cls 0x1 0)
  else if k.acc = .fetch then .error (.cls 0x9 0)
  else if bitsAt va 46 10 = s.clk.pkg then .ok (.localTo (bitsAt va 0 46))
  else .ok (.remote (bitsAt va 46 10) (bitsAt va 0 46))

/-- The cause that an access takes for a fault class (R43). -/
def causeOfClass (a : Acc) (c : Nat) : Nat :=
  let perm := c = 0x7 ∨ c = 0x8 ∨ c = 0xA ∨ c = 0xE
  match a with
  | .fetch => if perm ∨ c = 0x9 then 0x02 else 0x01
  | .load | .code => if perm then 0x09 else 0x08
  | .store | .atomic => if perm then 0x0B else 0x0A

/-- The trap of a failed access with a TVAL (R43, R89). -/
def faultTrap (a : Acc) (f : XFault) (tval : Nat) : TrapReq :=
  match f with
  | .cls c l => { cause := causeOfClass a c, tval := BitVec.ofNat 64 tval, fclass := c, flevel := l }
  | .poison => { cause := 0x10, tval := BitVec.ofNat 64 tval, onFetch := a == .fetch }

/-- Whether some Huapo port is up, so that a request finds a way to its destination (R378). -/
def routeUp (s : State) : Bool := (List.range 48).any fun p => bitOf (s.reg10 (.hport p)) 63

/-- The package's JOBID for a context (R21). -/
def jobidOf (s : State) (ctx : Nat) : Nat := (s.ctxRec ctx).jobid.toNat

/-- The context of a partition's thread: its own, or the supervisor's while PRIV = 1 (R339, R340). -/
def activeCtx (s : State) (t : Thread) : Nat :=
  if t.status.priv then fld (s.reg10 (.svidx (s.partOf t.ctx))) 31 20 else t.ctx

/-- An access of the current thread. -/
def threadAcc (t : Thread) (a : Acc) (vec : Bool) : Access := ⟨a, t.status.priv, vec⟩

/-- The translation hardware of a thread. -/
def threadWalker (s : State) (t : Thread) : Walker := coreWalker (activeCtx s t) (coreOf t) t.tid

end Sys2Proof.Machine
end

