-- ==== Sys2Proof/Machine/Provisional.lean ====
section
/-! DEFINITION. Provisional lines, their publication and their loss (R79 to R86), and the write-through queues that stores pass through (R73). -/

namespace Sys2Proof.Machine

/-- The provisional lines of a stand's task. -/
def State.provOf (s : State) (stand : Nat) : Option ProvTask := s.ms.prov.find? fun p => decide (p.stand = stand)

/-- The stand of a task in provisional mode (R79). -/
def State.provStand (s : State) (stand : Nat) : Option Stand :=
  match s.stand? stand with
  | some st => if st.direct then none else some st
  | none => none

/-- The view that a stand's threads have of memory: merged with their task's lines while it is in provisional mode (R80). -/
def State.viewOf (s : State) (stand : Nat) : Option Nat := (s.provStand stand).map fun st => st.id

/-- The die whose L2 serves a stand's thread on a die: the provisional home die while its task is in provisional mode (R81). -/
def State.l2DieOf (s : State) (stand die : Nat) : Nat :=
  match s.provStand stand with
  | some st => st.die
  | none => die

/-- The task's own byte at a physical address (R80). -/
def provByte (m : MemSys) (view : Option Nat) (pa : Nat) : Option Byte :=
  match view with
  | none => none
  | some st => (m.prov.find? fun p => decide (p.stand = st)).bind fun p => maskGet p.bytes pa

/-- The byte at a physical address in a view (R80). -/
def viewByte (m : MemSys) (view : Option Nat) (key : Option KeyTag) (pa : Nat) : Byte := (provByte m view pa).getD (commByte m key pa)

/-- The n bytes at a physical address in a view. -/
def viewBytes (m : MemSys) (view : Option Nat) (key : Option KeyTag) (pa : Nat) : Nat → List Byte
  | 0 => []
  | n + 1 => viewByte m view key pa :: viewBytes m view key (pa + 1) n

/-- The poison of a line's copy in a die's L2 cleared, once a whole-line write is committed there (R88). -/
def clearPoison (die : Nat) (m : MemSys) (line : Nat) : MemSys := setFlag m (.l2 die) line false

/-- A provisional write merged into its task's lines (R80), for which the L2 makes room; a write of the whole line is remembered for its publication
(R88). -/
def provMerge (m : MemSys) (stand die : Nat) (key : KeyTag) (cs : Cells) (whole : Bool) : MemSys :=
  let p := (m.prov.find? fun p => decide (p.stand = stand)).getD ⟨stand, die, [], [], []⟩
  let lines := uniq (cs.map fun c => lineOf c.1)
  let p' := { p with bytes := maskPutAll p.bytes cs, keys := lines.foldl (fun k l => assoc k l key) p.keys
                     whole := if whole then uniq (lines ++ p.whole) else p.whole }
  trimL2 { m with prov := p' :: m.prov.filter fun q => decide (q.stand ≠ stand) } p.die

/-- A committed write by a die, which clears poison when it covers the line. -/
def commitCells (m : MemSys) (die : Nat) (key : Option KeyTag) (cs : Cells) (whole : Bool) : MemSys :=
  let m1 := commWrite m die key cs
  if whole then (uniq (cs.map fun c => lineOf c.1)).foldl (clearPoison die) m1 else m1

/-- A store of a write-through queue delivered to the L2 (R73): into its task's provisional lines, or committed. A store of a task that has been
discarded is dropped (R86). -/
def deliverStore (s : State) (e : WtStore) : State :=
  let s1 := { s with ms := { s.ms with wtq := s.ms.wtq.erase e } }
  match e.prov, e.key with
  | some st, some k =>
    match s.stand? st with
    | none => s1
    | some sd =>
      if sd.direct then { s1 with ms := commitCells s1.ms sd.die e.key e.bytes e.whole }
      else { s1 with ms := provMerge s1.ms st sd.die k e.bytes e.whole }
  | _, _ => { s1 with ms := commitCells s1.ms e.core.die e.key e.bytes e.whole }

/-- Every store of a core's write-through queue delivered, oldest first. -/
def drainCore (s : State) (c : CoreId) : State := (s.ms.wtq.filter fun e => decide (e.core = c)).foldl deliverStore s

/-- Every store of a task still in a write-through queue delivered. -/
def drainTask (s : State) (stand : Nat) : State := (s.ms.wtq.filter fun e => decide (e.prov = some stand)).foldl deliverStore s

/-- Cached copies of a task's merged view dropped. A gathered line holds committed bytes (log 53). -/
def dropView (m : MemSys) (stand : Nat) : MemSys := { m with l1d := m.l1d.filter fun l => decide (l.view ≠ some stand) }

/-- First-level copies of some lines dropped, in every view: a thread whose task has published them must not meet a copy older than its own stores. -/
def dropCopies (m : MemSys) (lines : List Nat) : MemSys :=
  { m with l1d := m.l1d.filter fun l => !lines.contains l.line
           gath := m.gath.filter fun g => !lines.any (gathTouches g) }

/-- The correctable errors of a task's provisional lines that an access to some lines meets, repaired and logged (R87). -/
def provRepair (s : State) (stand : Nat) (p : Nat → Bool) : State :=
  (s.ms.ecc.filter fun e => decide (e.prov = some stand) && e.corrects && p e.line).foldl eccFound s

/-- The uncorrectable error of a provisional line of a thread's own task, among some lines (R88): the line is lost and logged. -/
def provLost (s : State) (t : Thread) (p : Nat → Bool) : Option State :=
  match s.ms.ecc.find? fun e => decide (e.prov = some t.tid.stand) && !e.corrects && p e.line with
  | none => none
  | some e => some (rasLog { s with ms := { s.ms with ecc := s.ms.ecc.erase e } } ⟨7, 2, e.die, e.line, t.ctx, t.tid.word, 0, none⟩)

/-- A task's provisional lines published (R84): merged into the committed lines in the producer's L2, which owns them. -/
def publishLines (s : State) (stand : Nat) : State :=
  let s1 := provRepair (drainTask s stand) stand fun _ => true
  match s1.provOf stand with
  | none => s1
  | some p =>
    let m := p.keys.foldl (fun m k => commitCells m p.die (some k.2) (cellsIn p.bytes (k.1 * 128) 128) (p.whole.contains k.1)) s1.ms
    let m1 := dropView (dropCopies { m with prov := m.prov.filter fun q => decide (q.stand ≠ stand) } (p.keys.map (·.1))) stand
    { s1 with ms := publishTrack m1 stand s1.dieCycle }

/-- A published line written back to its home's LLC, for a consumer elsewhere: the producer's L2 keeps an S copy (R84). -/
def shareLine (m : MemSys) (line : Nat) : MemSys :=
  let m1 := writeBackL2 m line
  { m1 with l2 := m1.l2.map fun e => if e.line = line then { e with st := .s } else e }

/-- Early publication of a task (R83): its lines are published with no consumer, and it enters direct mode. -/
def publishEarly (s : State) (stand : Nat) : State :=
  match s.provStand stand with
  | none => s
  | some _ => (publishLines s stand).modStand stand fun st => { st with direct := true }

/-- A task's provisional lines discarded (R86), with the stores of it not yet accepted. -/
def discardLines (s : State) (stand : Nat) : State :=
  let m := discardTrack (dropView s.ms stand) stand
  { s with ms := { m with prov := m.prov.filter fun q => decide (q.stand ≠ stand), wtq := m.wtq.filter fun e => decide (e.prov ≠ some stand)
                          posted := m.posted.filter fun p => decide (p.tid.stand ≠ stand)
                          ecc := m.ecc.filter fun e => decide (e.prov ≠ some stand) } }

/-- The lines of a task that its provisional lines and its queued stores touch. -/
def taskLines (m : MemSys) (stand : Nat) : List Nat :=
  let held := match m.prov.find? fun p => decide (p.stand = stand) with | some p => p.keys.map (·.1) | none => []
  uniq (held ++ (m.wtq.filter fun e => decide (e.prov = some stand)).flatMap fun e => e.bytes.map fun c => lineOf c.1)

/-- Whether provisional stores to some lines keep to the limits of R82. -/
def provRooms (s : State) (st : Stand) (lines : List Nat) : Bool :=
  let mine := taskLines s.ms st.id
  let new := uniq (lines.filter fun l => !mine.contains l)
  if new.isEmpty then true
  else
    let onDie := (s.gl.stands.filter fun q => decide (q.die = st.die)).flatMap fun q => taskLines s.ms q.id
    decide (mine.length + new.length ≤ 131072) && decide (onDie.length + new.length ≤ 2097152) &&
      new.all fun line => decide (((onDie ++ new).filter fun l => decide (l2Set l = l2Set line)).length ≤ 12)

/-- Whether a provisional store to a line keeps to the limits of R82. -/
def provRoom (s : State) (st : Stand) (line : Nat) : Bool := provRooms s st [line]

end Sys2Proof.Machine
end

