-- ==== Sys2Proof/Machine/Memory.lean ====
section
/-! DEFINITION. The accesses of a thread (R43 to R46, R68 to R75, R78, R79, R89, R94, R133, R343 to R345): loads, stores, posted stores, atomics,
releases and acquires; and the accesses of the engines and of the device under a context. -/

namespace Sys2Proof.Machine

/-! Write-through queues. -/

/-- The newest byte of a core's write-through queue at a physical address, among the stores of a task, or the committed ones. -/
def queuedByte (m : MemSys) (c : CoreId) (prov : Option Nat) (pa : Nat) : Option Byte :=
  m.wtq.foldl (fun acc e => if e.core = c ∧ e.prov = prov then (match maskGet e.bytes pa with | some b => some b | none => acc) else acc) none

/-- The byte of a core's write-through queue that a view sees at a physical address (R73, R80): the task's own, and where the task has written none, the
newest committed one. -/
def wtByte (m : MemSys) (c : CoreId) (view : Option Nat) (pa : Nat) : Option Byte :=
  match view with
  | none => queuedByte m c none pa
  | some _ => (queuedByte m c view pa).or (if (provByte m view pa).isSome then none else queuedByte m c none pa)

/-- The byte that a core fills a copy with: that of its die's L2, under its own queued stores (R73, R95). -/
def seenByte (m : MemSys) (c : CoreId) (view : Option Nat) (key : Option KeyTag) (pa : Nat) : Byte := (wtByte m c view pa).getD (viewByte m view key pa)

/-! First-level data caches. -/

/-- Ways and sets of a core's L1D (R72). -/
def l1dShape : CoreClass → Nat × Nat
  | .c => (8, 64)
  | .v => (16, 128)
  | .t => (4, 32)

/-- The L1D set of a line (log 21). -/
def l1dSet (c : CoreId) (line : Nat) : Nat := line % (l1dShape (coreClass c)).2

/-- The set of a gathered line: G0[13:7] (R68). -/
def gathSet (g : GathLine) : Nat := bitsAt g.va 7 7

/-- The smallest of a list of numbers. -/
def leastOf : List Nat → Nat
  | [] => 0
  | a :: l => l.foldl min a

/-- Room made in a set: the least recently used frame goes when every way is taken (R72). -/
def l1dRoom (m : MemSys) (c : CoreId) (set : Nat) : MemSys :=
  let ls := m.l1d.filter fun l => decide (l.core = c) && decide (l1dSet c l.line = set)
  let gs := m.gath.filter fun g => decide (g.core = c) && decide (gathSet g = set)
  if ls.length + gs.length < (l1dShape (coreClass c)).1 then m
  else
    let oldest := leastOf (ls.map (·.used) ++ gs.map (·.used))
    match ls.find? fun l => decide (l.used = oldest) with
    | some l => { m with l1d := m.l1d.erase l }
    | none =>
      match gs.find? fun g => decide (g.used = oldest) with
      | some g => { m with gath := m.gath.erase g }
      | none => m

/-- Whether a first-level copy of a core filled at a cycle of its die is still there (R74, R386): every copy is dropped 65,536 cycles after its fill. -/
def freshCopy (s : State) (c : CoreId) (filled : Nat) : Bool := decide (s.dieCycle c.die < filled + 65536)

/-- An L1D line filled in a view: errors of the line are found, the L2 of the die obtains it, and every other copy that the core holds of it, ordinary or
gathered, is dropped (R80, R112). -/
def fillL1d (s : State) (c : CoreId) (l2die : Nat) (view : Option Nat) (key : Option KeyTag) (line : Nat) : State × L1dLine :=
  let s1 := eccTouch s (some l2die) line
  let m1 := l2Share s1.ms l2die line
  let cyc := s.dieCycle c.die
  let l : L1dLine := { core := c, line := line, key := key, view := view, bytes := (List.range 128).map fun k => seenByte m1 c view key (line * 128 + k)
                       filled := cyc, used := cyc, poisoned := isPoisoned m1 (some l2die) line }
  let m2 := { m1 with gath := m1.gath.filter fun g => !(decide (g.core = c) && gathTouches g line)
                      l1d := m1.l1d.filter fun x => !(decide (x.core = c) && decide (x.line = line)) }
  let m3 := l1dRoom m2 c (l1dSet c line)
  ({ s1 with ms := { m3 with l1d := l :: m3.l1d } }, l)

/-- The L1D copy of a line for a core in a view under a key. -/
def l1dCopy (s : State) (c : CoreId) (view : Option Nat) (key : Option KeyTag) (line : Nat) : Option L1dLine :=
  s.ms.l1d.find? fun l => decide (l.core = c) && decide (l.line = line) && decide (l.view = view) && decide (l.key = key) && freshCopy s c l.filled

/-- The L1D copy of a line for a core in a view under a key, filled if there is none. -/
def l1dGet (s0 : State) (c : CoreId) (l2die : Nat) (view : Option Nat) (key : Option KeyTag) (line : Nat) : State × L1dLine :=
  let s := eccL1d s0 c [line]
  match l1dCopy s c view key line with
  | some l =>
    let l' := { l with used := s.dieCycle c.die }
    ({ s with ms := { s.ms with l1d := s.ms.l1d.map fun x => if x = l then l' else x } }, l')
  | none => fillL1d s c l2die view key line

/-! Gathered lines. -/

/-- The elements of a gathered line's group (R68). -/
def gathSize (g : GathLine) : Nat := min 16 (128 / g.size)

/-- The virtual address of element k of a gathered line. -/
def gathAddr (g : GathLine) (k : Nat) : Nat := (((g.va : Int) + (k : Int) * g.stride) % 2 ^ 64).toNat

/-- The gathered line and its valid element that a load of n bytes at an address hits (R69, R112). -/
def gathFind (s : State) (c : CoreId) (ctx : Nat) (key : Option KeyTag) (va n : Nat) : Option (GathLine × Cells) :=
  let hit := fun (g : GathLine) => decide (g.core = c) && decide (g.ctx = ctx) && decide (g.key = key) && decide (g.size = n) && freshCopy s c g.filled
  (s.ms.gath.filter hit).findSome? fun g => (look g.elems va).map fun e => (g, e)

/-- The committed bytes of a load that hits a gathered line, which is then its set's most recently used; its errors are found first (R69, R72, R87). -/
def gathHit (s0 : State) (c : CoreId) (ctx : Nat) (key : Option KeyTag) (va n : Nat) (lines : List Nat) : Option (List Byte) × State :=
  let s := if s0.ms.gath.isEmpty then s0 else eccL1d s0 c lines
  match gathFind s c ctx key va n with
  | none => (none, s)
  | some (g, e) =>
    (some (e.map (·.2)), { s with ms := { s.ms with gath := s.ms.gath.map fun x => if x = g then { x with used := s.dieCycle c.die } else x } })

/-- A store of some bytes met by a gathered line (R70): whether its addresses, virtual or physical, meet an element without matching it exactly. -/
def gathClash (g : GathLine) (ctx va : Nat) (cs : Cells) : Bool :=
  let n := cs.length
  let byVa := decide (g.ctx = ctx) && (List.range (gathSize g)).any fun k =>
    let a := gathAddr g k
    decide (a < va + n) && decide (va < a + g.size) && !(decide (a = va) && decide (g.size = n))
  let byPa := g.elems.any fun e => (e.2.any fun c => cs.any fun d => decide (d.1 = c.1)) && decide (e.2.map (·.1) ≠ cs.map (·.1))
  byVa || byPa

/-- What a store of a V-front does to its gathered lines (R70): one that it clashes with goes, and a valid element that it covers exactly takes its bytes.
The bytes of a provisional store stand above the element for the threads of its task, and in no element (R80, log 53). -/
def gathStore (m : MemSys) (c : CoreId) (ctx va : Nat) (view : Option Nat) (cs : Cells) : MemSys :=
  let meets := fun (e : Nat × Cells) => view.isNone && decide (e.2.map (·.1) = cs.map (·.1))
  { m with gath := m.gath.filterMap fun g =>
      if g.core ≠ c then some g
      else if gathClash g ctx va cs then none
      else some { g with elems := g.elems.map fun e => if meets e then (e.1, cs) else e } }

/-- What a store does to its core's L1D copies of the line: the view's copy is updated, others of the line are dropped. -/
def l1dStore (m : MemSys) (c : CoreId) (view : Option Nat) (key : Option KeyTag) (pa : Nat) (bs : List Byte) : MemSys :=
  let put := fun (l : L1dLine) => { l with bytes := cellGetList 0 (cellPutList 0 (cellPutList 0 [] (l.line * 128) l.bytes) pa bs) (l.line * 128) 128 }
  { m with l1d := m.l1d.filterMap fun l =>
      if l.core = c ∧ l.line = lineOf pa then (if l.view = view ∧ l.key = key then some (put l) else none) else some l }

/-- A line noted as written by a thread (R109). -/
def noteWritten (m : MemSys) (t : Tid) (early : Bool) (lines : List Nat) : MemSys :=
  { m with wrote := uniq (lines.map fun l => ⟨t, l, early⟩) ++ m.wrote.filter fun w => !(decide (w.tid = t) && lines.contains w.line && (early || !w.early)) }

/-- Other cores' first-level copies of the lines that a thread has written, among those that a test chooses, dropped: no later read returns an older
write (R109, R110). -/
def showWritten (m : MemSys) (c : CoreId) (p : Written → Bool) : MemSys :=
  let lines := (m.wrote.filter p).map (·.line)
  if lines.isEmpty then m
  else { m with wrote := m.wrote.filter fun w => !p w
                l1d := m.l1d.filter fun l => decide (l.core = c) || !lines.contains l.line
                gath := m.gath.filter fun g => decide (g.core = c) || !lines.any (gathTouches g) }

/-! Poison. -/

/-- A poisoned byte consumed by a thread (R89): the record of kind 0x3. -/
def consumePoison (s : State) (die : Option Nat) (t : Thread) (line addr : Nat) : State := poisonConsumed s die line t.ctx t.tid.word addr

/-- The trap of consumed poison. -/
def poisonTrap (va : Nat) : TrapReq := { cause := 0x10, tval := BitVec.ofNat 64 va }

/-- The errors of the current thread's task's provisional lines that an access to some lines meets (R87, R88): repaired, or its lines are lost and the
access takes cause 0x10 at an address. -/
def provChecked (s : State) (lines : List Nat) (va : Nat) : Res Unit :=
  let s1 := provRepair s s.th.tid.stand fun l => lines.contains l
  match provLost s1 s1.th fun l => lines.contains l with
  | some s2 => .stop (.trap (poisonTrap va) s2)
  | none => .ok () s1

/-- An early publication that reads a lost line of the task takes cause 0x10 (R88): TVAL is not stated, and is a free value (log 73). -/
def pubChecked (s : State) : Eff :=
  match s.provStand s.th.tid.stand with
  | none => .done s
  | some _ =>
    let s1 := provRepair s s.th.tid.stand fun _ => true
    match provLost s1 s1.th fun _ => true with
    | some s2 => let (w, s3) := s2.takeFree; .trap { cause := 0x10, tval := w } s3
    | none => .done s1

/-! Read-modify-writes (R93, R108, R134). -/

/-- The thread of this package that makes an access, with the scope that it names. -/
def rmwBy (s : State) (t : Thread) (scope : Scope) : RmwBy := ⟨s.clk.pkg, t.tid, coreOf t, scope⟩

/-- A read-modify-write of n bytes at a physical address: the old value, and the write that `new` gives, made by `write`. Where R107 and R108 leave more
than one value, a free value chooses (log 75). -/
def rmwAt (s : State) (key : Option KeyTag) (pa n : Nat) (by_ : RmwBy) (acquire : Bool) (new : Nat → Option Nat) (write : State → List Byte → State) :
    Nat × State :=
  let home := commByte s.ms key
  let (m, opts) := rmwFinds s.ms by_ s.dieCycle home pa n
  let (w, s1) := if oneChoice opts then (0, s) else s.takeFree
  let (old, m1) := rmwTrack m by_ acquire s.dieCycle home pa n w.toNat opts new
  let s2 := { s1 with ms := m1 }
  (old, match new old with | none => s2 | some v => write s2 (leBytes n v))

/-- A release side of the current thread at a scope (R101); while its task is in provisional mode, its own task alone can meet it (R104). -/
def releaseNote (s : State) (scope : Scope) (at_ : SyncAt) : State :=
  { s with ms := releaseTrack s.ms (rmwBy s s.th scope) (s.viewOf s.th.tid.stand) at_ }

/-! Parts of an access. -/

/-- A part of an access within one page: translated, or an offset in another package. -/
inductive Part where
  | here (x : Xlated) (va len : Nat)
  | there (pkg offset va len : Nat)
  deriving DecidableEq, Repr

/-- The parts that page boundaries cut an access of at most a page into. -/
def pagesOf (va n : Nat) : List (Nat × Nat) :=
  let room := 4096 - va % 4096
  if n ≤ room then [(va, n)] else [(va, room), ((va + room) % 2 ^ 64, n - room)]

/-- Parts of an access that lie one after the other in another package joined: it makes one request for them, translated there in full (R44). -/
def joinParts : List Part → List Part
  | .there p o v n :: rest =>
    match joinParts rest with
    | .there q o2 v2 n2 :: r => if p = q ∧ o2 = o + n then .there p o v (n + n2) :: r else .there p o v n :: .there q o2 v2 n2 :: r
    | r => .there p o v n :: r
  | p :: rest => p :: joinParts rest
  | [] => []

/-- The bytes of an access that lie in this package, by physical address. -/
def partPas : List Part → List Nat
  | [] => []
  | .here x _ n :: rest => (List.range n).map (fun k => x.pa + k) ++ partPas rest
  | .there .. :: rest => partPas rest

/-- The bytes of a store that its parts in this package take, by physical address. -/
def partCells : List Part → List Byte → Cells
  | [], _ => []
  | .here x _ n :: rest, bs => cellsAt x.pa (bs.take n) ++ partCells rest (bs.drop n)
  | .there _ _ _ n :: rest, bs => partCells rest (bs.drop n)

/-- Whether a part lies in another package. -/
def Part.far : Part → Bool
  | .here .. => false
  | .there .. => true

/-- The bytes of an access that lie in this package, each with the key of its page. -/
def partKeys : List Part → List (Nat × Option KeyTag)
  | [] => []
  | .here x _ n :: rest => (List.range n).map (fun k => (x.pa + k, x.key)) ++ partKeys rest
  | .there .. :: rest => partKeys rest

/-- The key in the tag of a gathered line for an access whose every part is cached memory of this package: that of its first byte's page (R68, log 53). -/
def tagKey : List Part → Option (Option KeyTag)
  | .here x va n :: rest =>
    if (Part.here x va n :: rest).all (fun p => match p with | .here y _ _ => decide (y.mt = 0) | .there .. => false) then some x.key else none
  | _ => none

/-! Misses (R37). -/

/-- The local address that a posted store has still to translate, if it does. -/
def postedWalk (s : State) (p : Posted) : Option Nat :=
  match resolveVa s ⟨.store, p.priv, false⟩ p.va with
  | .ok (.localTo a) => if needsWalk s (coreWalker p.ctx p.core p.tid) ⟨.store, p.priv, false⟩ a then some a else none
  | _ => none

/-- The walks in flight on a die, by context and region of 2 MiB (R37): those of posted stores, and those of the misses that a walker serves. -/
def walksOn (s : State) (die : Nat) : List (Nat × Nat) :=
  uniq (((s.ms.posted.filter fun p => decide (p.core.die = die)).filterMap fun p => (postedWalk s p).map fun a => (p.ctx, a / 2 ^ 21)) ++
    (s.xl.missQ.filter fun q => decide (q.die = die) && q.served).map fun q => (q.ctx, q.va / 2 ^ 21))

/-- The number of walks in flight on a die. -/
def walksInFlight (s : State) (die : Nat) : Nat := (walksOn s die).length

/-- A miss that joins a walk in flight (R37): the walk of a posted store ends, and the miss goes on with what it has filled. -/
def joinWalk (s : State) (die ctx va : Nat) : State :=
  match s.ms.posted.find? fun p => decide (p.core.die = die) && decide (p.ctx = ctx) && (match postedWalk s p with | some a => decide (a / 2 ^ 21 = va / 2 ^ 21) | none => false) with
  | none => s
  | some p => (translateLocal s (coreWalker p.ctx p.core p.tid) ⟨.store, p.priv, false⟩ ((postedWalk s p).getD 0)).2

/-- Whether a miss is of some thread's instruction, or of some command's row. -/
def Miss.of (q : Miss) (t : Tid) (cmd : Option Nat) : Bool := decide (q.tid = t) && decide (q.cmd = cmd)

/-- Whether a miss has to wait for a walker (R37): all 256 of the die are busy or earlier misses wait, and none has been given to it. -/
def missWaits (s : State) (die : Nat) (t : Tid) (cmd : Option Nat) : Bool :=
  let queued := s.xl.missQ.filter fun q => decide (q.die = die) && !q.served
  !(s.xl.missQ.any fun q => q.of t cmd && q.served) && (decide (256 ≤ walksInFlight s die) || !queued.isEmpty)

/-- A miss joins the misses of its die that wait, unless it is among them (R37). The first 4,096 are in the miss queue, and the threads of the others wait
for room in it, in the same order (R162). -/
def joinMissQueue (s : State) (die : Nat) (t : Tid) (cmd : Option Nat) (ctx va : Nat) : State :=
  if s.xl.missQ.any fun q => q.of t cmd then s else { s with xl := { s.xl with missQ := s.xl.missQ ++ [⟨die, t, cmd, ctx, va, false⟩] } }

/-- A miss at an address served, by its own walk or by another's: it leaves its die's miss queue. -/
def leaveMissQueue (s : State) (t : Tid) (cmd : Option Nat) (va : Nat) : State :=
  { s with xl := { s.xl with missQ := s.xl.missQ.filter fun q => !q.of t cmd || decide (q.va ≠ va) } }

/-- A local address translated by the hardware of a die (R37): a last-level miss joins a walk in flight, or walks; none when it has to wait. -/
def translateOn (s : State) (die : Nat) (t : Tid) (cmd : Option Nat) (w : Walker) (k : Access) (a : Nat) : Option (Except XFault Xlated × State) :=
  let needs := needsWalk s w k a
  let joins := needs && (walksOn s die).contains (w.ctx, a / 2 ^ 21)
  if needs && !joins && missWaits s die t cmd then none
  else
    let r := translateLocal (if joins then joinWalk s die w.ctx a else s) w k a
    some (r.1, leaveMissQueue r.2 t cmd a)

/-- A local address translated for the current thread, which waits for a walker where it must (R37). -/
def translateNow (s : State) (w : Walker) (k : Access) (a : Nat) : Except Eff (Except XFault Xlated × State) :=
  match translateOn s (coreOf s.th).die s.th.tid none w k a with
  | some r => .ok r
  | none => .error (.park .missQueue (joinMissQueue s (coreOf s.th).die s.th.tid none w.ctx a))

/-- Whether an access in some pieces uses the pod window of a die that lacks it: the missing feature 10 (R371, log 67). -/
def lacksWindow (s : State) (die : Nat) (cuts : List (Nat × Nat)) : Bool := !s.hasFeat die 10 && cuts.any fun p => decide (bitsAt p.1 56 8 = 255)

/-- What the translation of an access comes to: its parts; a trap at one of its pages, with the parts before it; or a stop. -/
inductive Cut where
  | ok (ps : List Part) (s : State)
  | trap (r : TrapReq) (front : List Part) (s : State)
  | stop (e : Eff)

/-- The parts, or the stop. -/
def Cut.res : Cut → Res (List Part)
  | .ok ps s => .ok ps s
  | .trap r _ s => .stop (.trap r s)
  | .stop e => .stop e

/-- The parts of an access translated in turn (R44). -/
def translateParts (s : State) (w : Walker) (k : Access) : List (Nat × Nat) → List Part → Cut
  | [], acc => .ok (joinParts acc.reverse) s
  | (va, n) :: rest, acc =>
    let fails := fun (r : TrapReq) (s : State) => Cut.trap r (joinParts acc.reverse) s
    if k.acc != .fetch && lacksWindow s (coreOf s.th).die [(va, n)] then fails { cause := 0x1C, tval := 10 } s
    else
    match resolveVa s k va with
    | .error f => fails (faultTrap k.acc f va) s
    | .ok (.remote pkg off) =>
      if routeUp s then translateParts s w k rest (.there pkg off va n :: acc) else fails (faultTrap k.acc (.cls 0x6 0) va) s
    | .ok (.localTo a) =>
      match translateNow s w k a with
      | .error e => .stop e
      | .ok (.error f, s1) => fails (faultTrap k.acc f va) s1
      | .ok (.ok x, s1) => translateParts s1 w k rest (.here x va n :: acc)

/-- The requests that translate an access's parts in other packages (R44). -/
def probes (write : Bool) (ps : List Part) : List (Nat × Nat × Nat × PodOp) :=
  ps.filterMap fun p => match p with | .there pkg off va n => some (pkg, off, va, PodOp.probe n write) | .here .. => none

/-! The pod window. -/

/-- A request to another package (R132, R133): answered; failed, at a byte of its access; or awaited, with the state and the requests made so far. -/
inductive Asked where
  | value (v : Nat)
  | fault (f : XFault) (off : Nat)
  | wait (pods : List PodPending) (s : State)

/-- The request of an issuer at an address, among those that it has made: one not yet made is made. `o` is the request but for its number. -/
def askPod (s : State) (pods : List PodPending) (o : PodOut) : Asked :=
  match pods.find? fun p => decide (p.va = o.va) && decide (p.op = o.op) with
  | some p =>
    match p.answer with
    | none => .wait pods s
    | some (.value v) => .value v
    | some (.fault c l off) => .fault (.cls c l) off
    | some (.poison off) => .fault .poison off
  | none =>
    let id := s.pod.outNext
    .wait (pods ++ [⟨id, o.va, o.op, none⟩]) { s with pod := { s.pod with out := s.pod.out ++ [{ o with id := id, sentNs := s.clk.time }], outNext := id + 1 } }

/-- A plain access at a scope. -/
def plainAt (scope : Scope) : AccessHow := ⟨scope, false, false, false, false⟩

/-- A request of the current thread, made in its mode (R30). -/
def podOutOf (s : State) (pkg offset va : Nat) (op : PodOp) (how : AccessHow) : PodOut :=
  { id := 0, dst := pkg, tid := s.th.tid, cmd := none, va := va, offset := offset, jobid := jobidOf s (activeCtx s s.th), op := op
    how := { how with sup := s.th.status.priv }, sentNs := 0, posted := none, strip := false }

/-- The number of a request that has no answer. -/
def openPod (pods : List PodPending) : Nat := ((pods.find? fun p => p.answer.isNone).map (·.id)).getD 0

/-- The pod-window request of the current thread's access at an address: answered, or awaited. -/
def podAsk (s : State) (pkg offset va : Nat) (op : PodOp) (how : AccessHow) (acc : Acc) : Res Nat :=
  match askPod s s.th.pod (podOutOf s pkg offset va op how) with
  | .value v => .ok v s
  | .fault f off => .stop (.trap (faultTrap acc f (va + off)) s)
  | .wait pods s1 => .stop (.park (.pod (openPod pods)) (s1.onTh fun t => { t with pod := pods }))

/-- Requests of the current thread made one after the other. -/
def podAskAll (s : State) (how : AccessHow) (acc : Acc) : List (Nat × Nat × Nat × PodOp) → Res Unit
  | [] => .ok () s
  | (pkg, off, va, op) :: rest => (podAsk s pkg off va op how acc).bind fun _ s1 => podAskAll s1 how acc rest

/-- A trap of cause 0x10 with the access's address as TVAL (R43, R89). -/
def poisonAt {α : Type} (va : Nat) (r : Res α) : Res α :=
  match r with
  | .stop (.trap q s) => .stop (.trap (if q.cause = 0x10 then { q with tval := BitVec.ofNat 64 va } else q) s)
  | r => r

/-- An access of the current thread translated (R44): a fault of its second page comes after one of a first page in another package, so that TVAL is the lowest
faulting byte address. -/
def threadParts (s : State) (a : Acc) (vec : Bool) (va n : Nat) : Res (List Part) :=
  poisonAt va (match translateParts s (threadWalker s s.th) (threadAcc s.th a vec) (pagesOf va n) [] with
  | .ok ps s1 => .ok ps s1
  | .trap r front s1 => (podAskAll s1 { plainAt .pkg with vec := vec } a (probes (a == .store) front)).bind fun _ s2 => .stop (.trap r s2)
  | .stop e => .stop e)

/-! Loads. -/

/-- The lines of some bytes, each with the key of its page. -/
def keyedLines (pks : List (Nat × Option KeyTag)) : List (Nat × Option KeyTag) := uniq (pks.map fun p => (lineOf p.1, p.2))

/-- A core's queue delivered when it holds a store to one of some lines under another key: such a store is not a loaded line's (R34, R73). -/
def settleKeys (s : State) (c : CoreId) (lines : List (Nat × Option KeyTag)) : State :=
  if s.ms.wtq.any fun e => decide (e.core = c) && e.bytes.any fun b => lines.any fun l => decide (l.1 = lineOf b.1) && decide (l.2 ≠ e.key) then drainCore s c else s

/-- The bytes read from a copy under those of the core's queue (R73). -/
def underQueue (queued : List (Option Byte)) (bs : List Byte) : List Byte := List.zipWith (fun o b => o.getD b) queued bs

/-- The bytes of a cached load within a line: from the write-through queue and the L1D (R69, R73). -/
def loadCached (s0 : State) (x : Xlated) (va n : Nat) : Res (List Byte) :=
  let c := coreOf s0.th
  let view := s0.viewOf s0.th.tid.stand
  let line := lineOf x.pa
  (provChecked (settleKeys s0 c [(line, x.key)]) [line] va).bind fun _ s =>
    let die := s.l2DieOf s.th.tid.stand c.die
    let queued := (List.range n).map fun k => wtByte s.ms c view (x.pa + k)
    let (s1, l) := l1dGet s c die view x.key line
    let bad := (List.range n).find? fun k => l.poisoned && (queued.getD k none).isNone && (provByte s1.ms view (x.pa + k)).isNone
    match bad with
    | some k => .stop (.trap (poisonTrap (va + k)) (consumePoison s1 (some die) s1.th line (va + k)))
    | none => .ok (underQueue queued ((l.bytes.drop (x.pa % 128)).take n)) s1

/-- The bytes of an access performed at the home (R32), with the bytes that the thread's own task has written (R80, R113), or in region 10. -/
def loadHome (s0 : State) (x : Xlated) (va n : Nat) : Res (List Byte) :=
  if regionOf x.pa = 2 then .ok (devLoad s0 x.pa n) s0
  else
    (provChecked (eccTouch (drainCore s0 (coreOf s0.th)) none (lineOf x.pa)) [lineOf x.pa] va).bind fun _ s =>
      let view := s.viewOf s.th.tid.stand
      let bad := (List.range n).find? fun k => isPoisoned s.ms none (lineOf x.pa) && (provByte s.ms view (x.pa + k)).isNone
      match bad with
      | some k => .stop (.trap (poisonTrap (va + k)) (consumePoison s none s.th (lineOf x.pa) (va + k)))
      | none => .ok (viewBytes s.ms view x.key x.pa n) s

/-- The pieces of a part within lines. -/
def linesOf : Nat → Nat → Nat → List (Nat × Nat)
  | 0, _, _ => []
  | f + 1, pa, n => if pa % 128 + n ≤ 128 then [(pa, n)] else (pa, 128 - pa % 128) :: linesOf f (pa + (128 - pa % 128)) (n - (128 - pa % 128))

/-- A translated part loaded, line by line. -/
def loadLines (s : State) (x : Xlated) (va : Nat) : List (Nat × Nat) → List Byte → Res (List Byte)
  | [], acc => .ok acc s
  | (pa, n) :: rest, acc =>
    let v := va + (pa - x.pa)
    let r := if x.mt = 0 then loadCached s { x with pa := pa } v n else loadHome s { x with pa := pa } v n
    match r with
    | .ok bs s1 => loadLines s1 x va rest (acc ++ bs)
    | .stop e => .stop e

/-- The parts of a load performed. -/
def loadParts (s : State) (how : AccessHow) : List Part → List Byte → Res (List Byte)
  | [], acc => .ok acc s
  | .here x va n :: rest, acc =>
    match loadLines s x va (linesOf 3 x.pa n) [] with
    | .ok bs s1 => loadParts s1 how rest (acc ++ bs)
    | .stop e => .stop e
  | .there pkg off va n :: rest, acc =>
    match podAsk s pkg off va (.load n) how .load with
    | .ok v s1 => loadParts s1 how rest (acc ++ leBytes n v)
    | .stop e => .stop e

/-- A load in several parts performed once those in other packages are translated (R44). -/
def loadAll (s : State) (how : AccessHow) (ps : List Part) (va : Nat) : Res (List Byte) :=
  (poisonAt va (podAskAll s how .load (if ps.length ≤ 1 then [] else probes false ps))).bind fun _ s1 => loadParts s1 how ps []

/-- The bytes of an access, as a core holds them committed, under those of the core's queue and of the view's task (R73, R80). -/
def mergedBytes (m : MemSys) (c : CoreId) (view : Option Nat) (pas : List Nat) (bs : List Byte) : List Byte :=
  List.zipWith (fun pa b => ((wtByte m c view pa).or (provByte m view pa)).getD b) pas bs

/-- The bytes that the current thread has read of this package, with their writes (R107) and, for an acquire, the releases that they come from (R101). -/
def readNote (s : State) (how : AccessHow) (ps : List Part) (bs : List Byte) : State :=
  { s with ms := readTrack s.ms (rmwBy s s.th how.scope) how.aq s.dieCycle (partCells ps bs) }

/-- A load at an address: from a gathered element that it hits (R69, R112), else from its parts. -/
def loadAccess (s0 : State) (how : AccessHow) (ps : List Part) (va n : Nat) : Res (List Byte) :=
  match tagKey ps with
  | none => loadAll s0 how ps va
  | some key =>
    let c := coreOf s0.th
    let pas := partPas ps
    let s := settleKeys s0 c (keyedLines (partKeys ps))
    match gathHit s c (activeCtx s s.th) key va n (uniq (pas.map lineOf)) with
    | (some bs, s1) => .ok (mergedBytes s1.ms c (s1.viewOf s1.th.tid.stand) pas bs) s1
    | (none, s1) => loadAll s1 how ps va

/-- The gathered line that an element goes into, with the element added (R68): one of its tag that is still there, or one that is made. An older one of its
tag is gone, and no other line keeps a copy of the element's bytes (R112). -/
def gathPut (s : State) (g : GathLine) (e : Nat × Cells) : MemSys :=
  let shares := fun (x : Nat × Cells) => x.2.any fun d => e.2.any fun b => decide (b.1 = d.1)
  let same := fun (x : GathLine) => decide ({ x with elems := [], filled := 0, used := 0 } = { g with elems := [], filled := 0, used := 0 })
  let lines := uniq (e.2.map fun b => lineOf b.1)
  let m := { s.ms with l1d := s.ms.l1d.filter fun l => !(decide (l.core = g.core) && lines.contains l.line)
                       gath := s.ms.gath.filter fun x =>
                         decide (x.core ≠ g.core) || (if same x then freshCopy s g.core x.filled else !x.elems.any shares) }
  if m.gath.any same then
    { m with gath := m.gath.map fun x => if same x then { x with elems := e :: x.elems.filter fun y => !shares y && decide (y.1 ≠ e.1), used := g.used } else x }
  else
    let r := l1dRoom m g.core (gathSet g)
    { r with gath := { g with elems := [e] } :: r.gath }

/-- The bytes of an element of a strided load of a V-front that makes gathered lines (R68): from an existing copy, or read at L2 into the gathered line
of its group, whose base is `g0`; no other copy of its bytes stays in the front (R112). Of a poisoned line, none is made. -/
def loadGathered (s0 : State) (how : AccessHow) (ps : List Part) (key : Option KeyTag) (g0 : Nat) (stride : Int) (va n : Nat) : Res (List Byte) :=
  let c := coreOf s0.th
  let ctx := activeCtx s0 s0.th
  let view := s0.viewOf s0.th.tid.stand
  let pks := partKeys ps
  let pas := partPas ps
  let lines := uniq (pas.map lineOf)
  let s := settleKeys s0 c (keyedLines pks)
  let die := s.l2DieOf s.th.tid.stand c.die
  let ordinary := (keyedLines pks).all fun l => (l1dCopy s c view l.2 l.1).isSome
  if ordinary || (gathFind s c ctx key va n).isSome then loadAccess s how ps va n
  else
    (provChecked s lines va).bind fun _ s1 =>
      let own := fun (m : MemSys) (pa : Nat) => (wtByte s1.ms c view pa).or (provByte m view pa)
      let s2 := lines.foldl (fun s l => eccTouch s (some die) l) s1
      let m1 := lines.foldl (fun m l => l2Share m die l) s2.ms
      let bad := (List.range n).find? fun k => isPoisoned m1 (some die) (lineOf (pas.getD k 0)) && (own m1 (pas.getD k 0)).isNone
      match bad with
      | some k => .stop (.trap (poisonTrap (va + k)) (consumePoison s2 (some die) s2.th (lineOf (pas.getD k 0)) (va + k)))
      | none =>
        let bs := pks.map fun p => seenByte m1 c none p.2 p.1
        let s3 := { s2 with ms := m1 }
        let cyc := s3.dieCycle c.die
        let g : GathLine := { core := c, key := key, ctx := ctx, va := g0, stride := stride, size := n, elems := [], filled := cyc, used := cyc }
        let m2 := if lines.any fun l => isPoisoned m1 (some die) l then m1 else gathPut s3 g (va, pas.zip bs)
        .ok (List.zipWith (fun pa b => (own m1 pa).getD b) pas bs) { s3 with ms := m2 }

/-! Stores. -/

/-- The checksum of R368 with the bytes of a store at a virtual address. -/
def sumBytes (sum : BitVec 32) (va : Nat) : List Byte → BitVec 32
  | [] => sum
  | b :: bs => sumBytes (sum + BitVec.ofNat 32 (va % 2 ^ 32) * 0x9E3779B1#32 + BitVec.ofNat 32 b.toNat) (va + 1) bs

/-- Whether a store of the current thread publishes its task first (R79, R82, R83): a direct write, or one beyond the limits on provisional lines. -/
def storePublishes (s : State) (priv : Bool) (ps : List Part) : Bool :=
  match s.provStand s.th.tid.stand with
  | none => false
  | some st =>
    !priv && (ps.any (fun p => match p with | .here x _ _ => decide (regionOf x.pa ≠ 0) || decide (x.mt ≠ 0) | .there .. => true)
      || !provRooms s st (uniq ((partPas ps).map lineOf)))

/-- The publication that comes before a thread's direct write, or before its release (R83). -/
def publishFirst (s : State) : Eff := (pubChecked s).bind fun s1 => .done (publishEarly s1 s1.th.tid.stand)

/-- The bytes of a store within a line under MT 00 put in the core's queue (R73, R79): provisional for a user thread of a task in provisional mode, else
committed. The core's copies take them. -/
def storeCached (s : State) (x : Xlated) (view : Option Nat) (whole : Bool) (bs : List Byte) : State :=
  let c := coreOf s.th
  let prov := if regionOf x.pa = 0 then view else none
  let m := l1dStore s.ms c view x.key x.pa bs
  { s with ms := { m with wtq := m.wtq ++ [⟨c, s.th.tid, cellsAt x.pa bs, x.key, prov, whole, s.dieCycle c.die⟩] } }

/-- The bytes of a store within a line performed at the home (R32), or in region 10. A whole-line write clears the line's poison (R88). -/
def storeHome (s : State) (x : Xlated) (whole : Bool) (bs : List Byte) : State :=
  if regionOf x.pa = 2 then devStore s x.pa bs
  else
    let c := coreOf s.th
    let s1 := drainCore s c
    let m := l1dStore s1.ms c none x.key x.pa bs
    { s1 with ms := if whole then homeWriteWhole m x.key (cellsAt x.pa bs) else homeWrite m x.key (cellsAt x.pa bs) }

/-- A translated part stored, line by line. -/
def storeLines (s : State) (x : Xlated) (view : Option Nat) (whole : Bool) : List (Nat × Nat) → List Byte → State
  | [], _ => s
  | (pa, n) :: rest, bs =>
    let x' := { x with pa := pa }
    let s1 := if x.mt = 0 then storeCached s x' view whole (bs.take n) else storeHome s x' whole (bs.take n)
    storeLines s1 x view whole rest (bs.drop n)

/-- The parts of a store that lie in this package performed. -/
def storeLocal (s : State) (view : Option Nat) (whole : Bool) : List Part → List Byte → State
  | [], _ => s
  | .here x _ n :: rest, bs => storeLocal (storeLines s x view whole (linesOf 3 x.pa n) (bs.take n)) view whole rest (bs.drop n)
  | .there _ _ _ n :: rest, bs => storeLocal s view whole rest (bs.drop n)

/-- The current thread's store to bytes of this package, once any publication has been made: the gathered lines of its front, its place in the order after the
writes that it knew when it issued, and the parts (R70, R100, R109). -/
def storeHere (s : State) (know : List Nat) (ctx va : Nat) (priv whole early : Bool) (ps : List Part) (bs : List Byte) : State :=
  let t := s.th
  let view := if priv then none else s.viewOf t.tid.stand
  let cs := partCells ps bs
  let m := plainWrite (gathStore s.ms (coreOf t) ctx va view cs) (rmwBy s t .pod) know early view s.dieCycle cs
  storeLocal { s with ms := noteWritten m t.tid early (uniq (cs.map fun c => lineOf c.1)) } view whole ps bs

/-- The request that stores a part in another package. -/
def storeOp (whole : Bool) (n : Nat) (bs : List Byte) : PodOp := if whole ∧ n = 128 then .line 1 else .store n (leNat bs)

/-- The requests of a store to other packages, in order (R44, R133): with more than one, each is first translated there, so that a store that faults has
written nothing. -/
def farOps (whole : Bool) (ps : List Part) (bs : List Byte) : List (Nat × Nat × Nat × PodOp) :=
  let rec go : List Part → List Byte → List (Nat × Nat × Nat × PodOp)
    | [], _ => []
    | .here _ _ n :: rest, bs => go rest (bs.drop n)
    | .there pkg off va n :: rest, bs => (pkg, off, va, storeOp whole n (bs.take n)) :: go rest (bs.drop n)
  let stores := go ps bs
  if stores.length ≤ 1 then stores
  else probes true ps ++ stores

/-- A store that waits for another package's acceptance (R133), after any publication that it makes (R83). -/
def storeParts (s : State) (how : AccessHow) (whole early : Bool) (va : Nat) (ps : List Part) (bs : List Byte) : Res Unit :=
  match (if storePublishes s s.th.status.priv ps then publishFirst s else .done s) with
  | .done s0 =>
    (poisonAt va (podAskAll s0 how .store (farOps whole ps bs))).bind fun _ s1 =>
      let s2 := s1.onTh fun t => { t with dauAhead := [], sum := sumBytes t.sum va bs }
      .ok () (storeHere s2 (knownTo s2.ms s2.th.tid) (activeCtx s1 s1.th) va s1.th.status.priv whole early ps bs)
  | e => .stop e

/-! Posted stores (R343 to R345). -/

/-- The entry that a thread's faulted posted store holds. -/
def storeFaultOf (s : State) (t : Tid) : Option StoreFault := s.ms.sfq.find? fun f => decide (f.tid = t)

/-- A faulted posted store taken as cause 0x0D: its entry is freed, and later stores are discarded no more (R344, R345). -/
def storeFaultTrap (s : State) (f : StoreFault) : Eff :=
  .trap { cause := 0x0D, tval := f.tval, fclass := f.fclass, flevel := f.flevel, ssz := f.ssz, ndisc := min 255 s.th.ndisc, tmicro := f.pc, imp := true }
    { s with ms := { s.ms with sfq := s.ms.sfq.erase f }, th := { s.th with ndisc := 0 } }

/-- A store posted (R343): discarded and counted while an earlier one has faulted (R345). -/
def postStore (s : State) (va : Nat) (bs : List Byte) (whole : Bool) : State :=
  let t := s.th
  if (storeFaultOf s t.tid).isSome then s.onTh fun t => { t with ndisc := t.ndisc + 1 }
  else { s with ms := { s.ms with posted := s.ms.posted ++ [⟨t.tid, coreOf t, activeCtx s t, va, bs, t.pc, t.issues, t.status.priv, whole, [], knownTo s.ms t.tid, s.un.cmdNext⟩] } }

/-- An entry of the store-fault record queue made (R343); with the queue full, the fault is taken at the thread's next turn. SSZ of a whole line
does not fit its field, and is a free value (log 4). The thread's later stores are discarded (R345). -/
def faultPosted (s : State) (p : Posted) (r : TrapReq) : State :=
  let (w, s1) := if p.bytes.length ≤ 8 then (BitVec.ofNat 64 p.bytes.length.log2, s) else s.takeFree
  let full := decide (8 ≤ (s1.ms.sfq.filter fun f => decide (f.core = p.core) && !f.now).length)
  let slot := match s1.th.place with | some pl => pl.slot | none => 0
  let later := s1.ms.posted.filter fun q => decide (q.tid = p.tid) && decide (q ≠ p)
  { s1 with ms := { s1.ms with sfq := s1.ms.sfq ++ [⟨p.tid, p.core, slot, p.pc, fld w 1 0, r.tval, r.fclass, r.flevel, p.issue, full⟩]
                               posted := s1.ms.posted.filter fun q => decide (q.tid ≠ p.tid) }
            th := { s1.th with ndisc := s1.th.ndisc + later.length } }

/-- The requests of a posted store to other packages (R114, R133): all answered, failed, or one awaited, with the requests made. -/
def postedAsks (s : State) (p : Posted) : List (Nat × Nat × Nat × PodOp) → Asked
  | [] => .value 0
  | (pkg, off, va, op) :: rest =>
    match askPod s p.pods { id := 0, dst := pkg, tid := p.tid, cmd := none, va := va, offset := off, jobid := jobidOf s p.ctx, op := op, how := { plainAt .pkg with sup := p.priv }
                            sentNs := 0, posted := some (p.pc, p.issue), strip := false } with
    | .value _ => postedAsks s p rest
    | .fault f k => .fault f (va - p.va + k)
    | .wait pods s1 => .wait pods s1

/-- A posted store's access comes to a fault (R43): an entry of the record queue; poison in the tables is a retryable event at once. -/
def postedFails (s : State) (p : Posted) (r : TrapReq) : Eff :=
  if r.cause = 0x10 then
    .trap { r with imp := true, tmicro := p.pc, tval := BitVec.ofNat 64 p.va, tepc := some s.th.pc }
      { s with ms := { s.ms with posted := s.ms.posted.erase p } }
  else .done (faultPosted s p r)

/-- A posted store of the current thread that another package has to answer for first: it goes on with what the answers give, or keeps the requests made. -/
def postedAfter (s : State) (p : Posted) (ops : List (Nat × Nat × Nat × PodOp)) (k : State → Eff) : Eff :=
  match postedAsks s p ops with
  | .value _ => k s
  | .fault f off => postedFails s p (faultTrap .store f (p.va + off))
  | .wait pods s1 => .done { s1 with ms := { s1.ms with posted := s1.ms.posted.map fun q => if q = p then { p with pods := pods } else q } }

/-- A posted store accepted: it takes its place after what its thread knew when it issued and after the thread's own earlier writes (R100, R343), and
before the commands that its thread had accepted after it (R105). -/
def acceptPosted (s : State) (p : Posted) (ps : List Part) : State :=
  let s1 := { s with ms := { s.ms with posted := s.ms.posted.erase p } }
  let own := (s.ms.track.filter fun w => decide (w.by_.tid = p.tid) && decide (w.by_.pkg = s.clk.pkg)).map (·.id)
  let s2 := storeHere (s1.onTh fun t => { t with sum := sumBytes t.sum p.va p.bytes }) (p.know ++ own) p.ctx p.va p.priv p.whole false ps p.bytes
  let later := fun (c : Cmd) => decide (c.tid = p.tid) && c.orphan.isNone && decide (p.cmdNext ≤ c.id)
  if s2.ms.trackNext = s.ms.trackNext then s2
  else { s2 with un := { s2.un with cmds := s2.un.cmds.map fun c => if later c then { c with know := s.ms.trackNext :: c.know } else c } }

/-- A posted store of the current thread resolved: translated, then accepted or made an entry. One to another package stays until it is acknowledged, and
those after it stay behind it (R343, R345). -/
def resolveOne (s : State) (p : Posted) : Eff :=
  if !s.ms.posted.contains p then .done s
  else
    match translateParts s (coreWalker p.ctx p.core p.tid) ⟨.store, p.priv, false⟩ (pagesOf p.va p.bytes.length) [] with
    | .ok ps s1 =>
      ((if storePublishes s1 p.priv ps then publishFirst s1 else .done s1).bind fun s2 =>
        postedAfter s2 p (farOps p.whole ps p.bytes) fun s3 => .done (acceptPosted s3 p ps))
    | .trap r front s1 => postedAfter s1 p (probes true front) fun s2 => postedFails s2 p r
    | .stop e => e

/-- The posted stores of the current thread that are still to be accepted by the L2 or by the fabric engine. -/
def unsentPosted (s : State) : Bool := s.ms.posted.any fun p => decide (p.tid = s.th.tid) && p.pods.isEmpty

/-- The posted stores of the current thread resolved in order, as far as one that waits for another package. -/
def resolveAll (s : State) : List Posted → Eff
  | [] => .done s
  | p :: rest => (resolveOne s p).bind fun s1 =>
    if s1.ms.posted.any fun q => decide (q.tid = p.tid) && decide (q.issue = p.issue) then .done s1 else resolveAll s1 rest

/-- The posted stores of the current thread. -/
def myPosted (s : State) : List Posted := s.ms.posted.filter fun p => decide (p.tid = s.th.tid)

/-- Every posted store of the current thread resolved, or accepted by the fabric engine. -/
def resolvePosted (s : State) : Eff := (resolveAll s (myPosted s)).bind fun s1 => if unsentPosted s1 then .park .stores s1 else .done s1

/-- The wait for earlier posted stores before a store drain, a release or the like: a faulted one is cause 0x0D here (R99, R231, R344). -/
def drainPosted (s : State) : Eff :=
  (resolvePosted s).bind fun s1 =>
    match storeFaultOf s1 s1.th.tid with
    | some f => storeFaultTrap s1 f
    | none => .done s1

/-! The accesses of scalar instructions. -/

/-- A load of n bytes by the current thread, after its own earlier stores. -/
def threadLoad (s : State) (va n : Nat) (how : AccessHow) : Res Nat :=
  match resolvePosted s with
  | .done s1 =>
    (threadParts s1 .load false va n).bind fun ps s2 => (loadAccess s2 how ps va n).bind fun bs s3 => .ok (leNat bs) (readNote s3 how ps bs)
  | e => .stop e

/-- A store of bytes by the current thread: posted on a T-core (R216), once its die has the pod window for its addresses (R371). -/
def threadStore (s : State) (va : Nat) (bs : List Byte) (whole : Bool) : Eff :=
  if clsOf s.th = .t then
    if lacksWindow s (coreOf s.th).die (pagesOf va bs.length) then .trap { cause := 0x1C, tval := 10 } s else .done (postStore s va bs whole)
  else (threadParts s .store false va bs.length).andThen fun ps s1 => (storeParts s1 (plainAt .pkg) whole false va ps bs).andThen fun _ s2 => .done s2

/-! Releases and acquires. -/

/-- Whether a scope is die or wider. -/
def scopeWide (c : Scope) : Bool := decide (3 ≤ c.code)

/-- What the current thread has written, and what its task had published before, shown to every core (R109): a release of it at package scope or wider
completes. -/
def showOwn (s : State) : State :=
  let t := s.th.tid
  let m := showWritten s.ms (coreOf s.th) fun w => decide (w.tid = t)
  { s with ms := showTrack m fun w => decide (w.by_.tid = t) || (w.task && decide (w.by_.tid.stand = t.stand)) }

/-- A release of the current thread at a scope (R78, R99): earlier stores are performed there first. `early` when a release at die scope or wider
triggers early publication (R83). A release at pod scope waits for the acknowledgements of pod-window stores (R114). -/
def releaseAt (s : State) (scope : Scope) (early : Bool) : Eff :=
  (drainPosted s).bind fun s1 =>
    let s2 := if scope.code ≤ 1 then s1 else drainCore s1 (coreOf s1.th)
    (if early && scopeWide scope then publishFirst s2 else .done s2).bind fun s3 =>
      if scope = .pod ∧ s3.pod.out.any (fun o => decide (o.tid = s3.th.tid) && (o.posted.isSome || o.strip)) then .park .stores s3
      else .done (if 4 ≤ scope.code then showOwn s3 else s3)

/-- What an acquire at a scope drops from a core's caches (R71, R74). -/
def acquireDrop (m : MemSys) (c : CoreId) (scope : Scope) : MemSys :=
  let l1d := if scope.code ≤ 1 then m.l1d else m.l1d.filter fun l => decide (l.core ≠ c)
  let gath := if scope.code = 0 then m.gath else m.gath.filter fun g => decide (g.core ≠ c)
  { m with l1d := l1d, gath := gath }

/-- What the current thread learns from some release sides, by an acquire at a scope (R101, R102). -/
def acquireNote (s : State) (scope : Scope) (p : Carrier → Bool) : State := { s with ms := acquireFrom s.ms (rmwBy s s.th scope) p }

/-- What an acquire of the current thread at a scope does to its core (R99). Loads that the DAU had performed early are made again (R119). -/
def acquireAt (s : State) (scope : Scope) : State :=
  { s with ms := acquireDrop s.ms (coreOf s.th) scope, th := { s.th with dauAhead := [] } }

/-- The wait of SDRAIN (R231): earlier stores are accepted by the die's L2, or one has faulted. -/
def sdrainWait (s : State) : Eff := (drainPosted s).bind fun s1 => .done (drainCore s1 (coreOf s1.th))

/-! Atomics. -/

/-- One read-modify-write at the home (R108), a direct write (R79), an acquire or a release as it is made: the old value, with the new one written when
`new` gives one. -/
def rmwHere (s : State) (x : Xlated) (va n : Nat) (how : AccessHow) (new : Nat → Option Nat) : Res Nat :=
  match publishFirst s with
  | .done s0 =>
    let c := coreOf s0.th
    let s2 := eccTouch (drainCore s0 c) none (lineOf x.pa)
    if isPoisoned s2.ms none (lineOf x.pa) then .stop (.trap (poisonTrap va) (consumePoison s2 none s2.th (lineOf x.pa) va))
    else
      let r := rmwAt s2 x.key x.pa n (rmwBy s2 s2.th how.scope) how.aq new fun s bs =>
        let m := gathStore (l1dStore s.ms c none x.key x.pa bs) c (activeCtx s s.th) va none (cellsAt x.pa bs)
        let s3 := { s with ms := noteWritten (homePut m x.mt x.pa x.key (cellsAt x.pa bs)) s.th.tid false [lineOf x.pa]
                           th := { s.th with sum := sumBytes s.th.sum va bs, dauAhead := [] } }
        if how.rl then releaseNote s3 how.scope (.loc (cellsAt x.pa bs)) else s3
      .ok r.1 r.2
  | e => .stop e

/-- An atomic of the current thread (R226), a release at its scope or an acquire as it is made: the address is checked before translation, and the release
comes after it (R28, R334). `op`, `src` and `cmp` are for another package, `new` here; `first` comes before a request to another package. -/
def threadAtomic (s : State) (va n : Nat) (how : AccessHow) (op src cmp : Nat) (new : Nat → Option Nat) (first : State → Eff) : Res Nat :=
  if va % n ≠ 0 then .stop (trapOf 0x0C (BitVec.ofNat 64 va) s)
  else
    match resolvePosted s with
    | .done s1 =>
      (threadParts s1 .atomic false va n).bind fun ps s2 =>
        match (if how.rl then releaseAt s2 how.scope true else .done s2) with
        | .done s3 =>
          (match ps with
          | [.here x _ _] => rmwHere s3 x va n how new
          | [.there pkg off _ _] =>
            (match (first s3).bind publishFirst with
            | .done s4 =>
              (podAsk s4 pkg off va (.amo op n src cmp) how .atomic).bind fun old s5 =>
                match new old with
                | none => .ok old s5
                | some v => .ok old (s5.onTh fun t => { t with sum := sumBytes t.sum va (leBytes n v) })
            | e => .stop e)
          | _ => .ok 0 s3)
        | e => .stop e
    | e => .stop e

/-- A store-release (R226): never posted, translated before its release, and performed at its scope. -/
def threadRelease (s : State) (va n : Nat) (scope : Scope) (bs : List Byte) : Eff :=
  if va % n ≠ 0 then trapOf 0x0C (BitVec.ofNat 64 va) s
  else
    (threadParts s .store false va n).andThen fun ps s1 =>
      (releaseAt s1 scope true).bind fun s2 =>
        (storeParts s2 { plainAt scope with rl := true } false false va ps bs).andThen fun _ s3 =>
          let s4 := releaseNote s3 scope (.loc (partCells ps bs))
          .done (if scope.code ≤ 1 then s4 else drainCore s4 (coreOf s4.th))

/-! Accesses that no thread makes. -/

/-- A range of the engines' and the device's accesses cut at page boundaries: the fuel is the number of pages that it may touch. -/
def pageCuts : Nat → Nat → Nat → List (Nat × Nat)
  | 0, _, _ => []
  | f + 1, va, n =>
    let room := 4096 - va % 4096
    if n ≤ room then (if n = 0 then [] else [(va, n)]) else (va, room) :: pageCuts f ((va + room) % 2 ^ 64) (n - room)

/-- Parts of an access of the device translated: the first fault with its address, or the parts. -/
def partsUnder (s : State) (w : Walker) (k : Access) : List (Nat × Nat) → List Part → Except (XFault × Nat) (List Part) × State
  | [], acc => (.ok acc.reverse, s)
  | (va, n) :: rest, acc =>
    match resolveVa s k va with
    | .error f => (.error (f, va), s)
    | .ok (.remote pkg off) =>
      if routeUp s then partsUnder s w k rest (.there pkg off va n :: acc) else (.error (.cls 0x6 0, va), s)
    | .ok (.localTo a) =>
      match translateLocal s w k a with
      | (.error f, s1) => (.error (f, va), s1)
      | (.ok x, s1) => partsUnder s1 w k rest (.here x va n :: acc)

/-- The lowest poisoned byte of a range that a view does not cover, as a reader at a die, or at the home, finds it. -/
def poisonedAt (s : State) (die : Option Nat) (view : Option Nat) (pa n : Nat) : Option Nat :=
  (List.range n).find? fun k => isPoisoned s.ms die (lineOf (pa + k)) && (provByte s.ms view (pa + k)).isNone

/-- The bytes of a translated range read in a view, below the first-level caches: at a die's L2, or at the home. -/
def readRange (s : State) (die : Option Nat) (view : Option Nat) (x : Xlated) (n : Nat) : Except Nat (List Byte) × State :=
  let s1 := (uniq ((List.range n).map fun k => lineOf (x.pa + k))).foldl (fun s l => eccTouch s die l) s
  match poisonedAt s1 die view x.pa n with
  | some k => (.error k, s1)
  | none => (.ok (viewBytes s1.ms view x.key x.pa n), s1)

/-- The bytes of a translated range under MT 00 read in a view at a die's L2, which obtains its lines (R72, R77). -/
def readAtL2 (s : State) (die : Nat) (view : Option Nat) (x : Xlated) (n : Nat) : Except Nat (List Byte) × State :=
  let lines := uniq ((List.range n).map fun k => lineOf (x.pa + k))
  let s1 := lines.foldl (fun s l => eccTouch s (some die) l) s
  let s2 := { s1 with ms := lines.foldl (fun m l => l2Share m die l) s1.ms }
  match poisonedAt s2 (some die) view x.pa n with
  | some k => (.error k, s2)
  | none => (.ok (viewBytes s2.ms view x.key x.pa n), s2)

/-- The bytes of a translated range read in a view, below the first-level caches, as its memory type gives: at a die's L2, or at the home. -/
def readBelow (s : State) (die : Nat) (view : Option Nat) (x : Xlated) (n : Nat) : Except Nat (List Byte) × State :=
  if x.mt = 0 then readAtL2 s die view x n else readRange s none view x n

/-- A committed write of the device in a translated range: through the die's L2 under MT 00, else at the home. -/
def writeRange (s : State) (die : Nat) (x : Xlated) (bs : List Byte) : State :=
  if x.mt = 0 then { s with ms := commitCells s.ms die x.key (cellsAt x.pa bs) false } else { s with ms := homeWrite s.ms x.key (cellsAt x.pa bs) }

/-- The walker of the device's own accesses under a context: no TLB holds their translations. `who` is the THREADID that poison is logged under, 0 for
an access of no thread (R89). -/
def deviceWalker (ctx who : Nat) : Walker := { ctx := ctx, first := none, second := none, die := none, who := who }

/-- The read parts of a device access; a poisoned byte is consumed (R89). -/
def readPartsUnder (s : State) (ctx who : Nat) : List Part → List Byte → Except (XFault × Nat) (List Byte) × State
  | [], acc => (.ok acc, s)
  | .here x va n :: rest, acc =>
    if regionOf x.pa = 2 then (.error (.cls 0xE 0, va), s)
    else
      match readRange s none none x n with
      | (.error k, s1) => (.error (.poison, va + k), poisonConsumed s1 none (lineOf (x.pa + k)) ctx who (va + k))
      | (.ok bs, s1) => readPartsUnder s1 ctx who rest (acc ++ bs)
  | .there _ _ va _ :: _, _ => (.error (.cls 0x6 0, va), s)

/-- Bytes that the device reads under a context with user privilege (R313, R318): the committed bytes, or the fault with its address. -/
def readUnder (s : State) (ctx who va n : Nat) : Except (XFault × Nat) (List Byte) × State :=
  match partsUnder s (deviceWalker ctx who) ⟨.load, false, false⟩ (pageCuts (n / 4096 + 2) va n) [] with
  | (.error e, s1) => (.error e, s1)
  | (.ok ps, s1) => readPartsUnder s1 ctx who ps []

/-- The write parts of a device access performed. -/
def writePartsUnder (s : State) : List Part → List Byte → State
  | [], _ => s
  | .here x _ n :: rest, bs =>
    writePartsUnder { s with ms := forgetTrack (homeWrite s.ms x.key (cellsAt x.pa (bs.take n))) x.pa n } rest (bs.drop n)
  | .there _ _ _ n :: rest, bs => writePartsUnder s rest (bs.drop n)

/-- Bytes that the device writes under a context with user privilege, committed: none written when any byte faults. -/
def writeUnder (s : State) (ctx who va : Nat) (bs : List Byte) : Except (XFault × Nat) Unit × State :=
  match partsUnder s (deviceWalker ctx who) ⟨.store, false, false⟩ (pageCuts (bs.length / 4096 + 2) va bs.length) [] with
  | (.error e, s1) => (.error e, s1)
  | (.ok ps, s1) =>
    match ps.find? fun p => match p with | .here x _ _ => decide (regionOf x.pa = 2) | .there .. => true with
    | some (.here _ va _) => (.error (.cls 0xE 0, va), s1)
    | some (.there _ _ va _) => (.error (.cls 0x6 0, va), s1)
    | none => (.ok (), writePartsUnder s1 ps bs)

/-! Instruction fetch. -/

/-- Ways and sets of a core's L1I (R72). -/
def l1iShape : CoreClass → Nat × Nat
  | .c | .v => (4, 128)
  | .t => (4, 64)

/-- The page that a core's first-level TLB translates an address through: its virtual page, its size in bits, and G. -/
def fetchPage (s : State) (c : CoreId) (ctx va : Nat) : Nat × Nat × Bool :=
  match s.xl.tlb.find? fun e => e.covers (.core c) ctx (s.partOf ctx) va with
  | some e => (e.vpage, e.sbits, e.leaf.global)
  | none => (va / 4096, 12, false)

/-- An L1I line filled from the committed copy (R75, R80): a poisoned one is held in the fetch path and logged as kind 0x4 (R90). -/
def fillL1i (s : State) (c : CoreId) (ctx va : Nat) (x : Xlated) : State × L1iLine :=
  let line := lineOf x.pa
  let s1 := eccTouch s (some c.die) line
  let m1 := l2Share s1.ms c.die line
  let bad := isPoisoned m1 (some c.die) line
  let (page, sbits, global) := fetchPage s c ctx va
  let l : L1iLine := { core := c, line := line, key := x.key, ctx := ctx, page := page, sbits := sbits, global := global
                       bytes := commBytes m1 x.key (line * 128) 128, poisoned := bad }
  let same := m1.l1i.filter fun y => decide (y.core = c) && decide (y.line % (l1iShape (coreClass c)).2 = line % (l1iShape (coreClass c)).2)
  let kept := match same.getLast? with
    | some y => if same.length < (l1iShape (coreClass c)).1 then m1.l1i else m1.l1i.erase y
    | none => m1.l1i
  let s2 := { s1 with ms := { m1 with l1i := l :: kept } }
  if !bad then (s2, l)
  else
    let (lv, die) := heldLevel s2 (copyAt s2.ms (some c.die) line) line
    let s3 := if s2.ms.latent.any fun q => decide (q.line = line) then s2 else rasLog s2 ⟨4, lv, die, line, 0, 0, 0, none⟩
    ({ s3 with ms := { s3.ms with latent := ⟨c, line, s3.dieCycle c.die⟩ :: s3.ms.latent.filter fun q => !(decide (q.core = c) && decide (q.line = line)) } }, l)

/-- The L1I copy of a line, filled if there is none; the list keeps the most recently used line first. Its errors are found first (R87). -/
def l1iGet (s0 : State) (c : CoreId) (ctx va : Nat) (x : Xlated) : State × L1iLine :=
  let s := eccL1i s0 c (lineOf x.pa)
  match s.ms.l1i.find? fun l => decide (l.core = c) && decide (l.line = lineOf x.pa) && decide (l.key = x.key) with
  | some l => ({ s with ms := { s.ms with l1i := l :: s.ms.l1i.erase l } }, l)
  | none => fillL1i s c ctx va x

/-- The four bytes of an instruction word at an address (R187): translated as a fetch, and read through the L1I. Poison is consumed at the PC (R89). -/
def fetchWord (s : State) (va : Nat) : Res (BitVec 32) :=
  let ctx := activeCtx s s.th
  let k := threadAcc s.th .fetch false
  let c := coreOf s.th
  match resolveVa s k va with
  | .error f => .stop (.trap (faultTrap .fetch f va) s)
  | .ok (.remote ..) => .stop (.trap (faultTrap .fetch (.cls 0x9 0) va) s)
  | .ok (.localTo a) =>
    match translateNow s (coreWalker ctx c s.th.tid) k a with
    | .error e => .stop e
    | .ok (.error f, s1) => .stop (.trap (faultTrap .fetch f va) s1)
    | .ok (.ok x, s1) =>
      let (s2, l) := l1iGet s1 c ctx a x
      if l.poisoned then
        .stop (.trap { cause := 0x10, tval := s.th.pc, onFetch := true } (consumePoison s2 (some c.die) s2.th (lineOf x.pa) s.th.pc.toNat))
      else .ok (BitVec.ofNat 32 (leNat ((l.bytes.drop (x.pa % 128)).take 4))) s2

end Sys2Proof.Machine
end

