-- ==== Sys2Proof/Machine/Session.lean ====
section
/-! DEFINITION. What a debug session writes and reads as its thread runs: trace records (R364 to R366), the log of record mode and of replay mode
(R367 to R370), and the end of a session. Record i of a ring lies just past the control block (log 22). -/

namespace Sys2Proof.Machine

/-- The session on a thread, if one is open. -/
def State.session (s : State) (t : Tid) : Option Session := s.db.sessions.find? fun e => decide (e.tid = t)

/-- A session changed. -/
def State.modSession (s : State) (t : Tid) (f : Session → Session) : State :=
  { s with db := { s.db with sessions := s.db.sessions.map fun e => if e.tid = t then f e else e } }

/-- A dword of a tool's buffer read; none when it faults. -/
def toolRead (s : State) (ctx va : Nat) : Option Nat × State :=
  match readUnder s ctx 0 va 8 with
  | (.ok bs, s1) => (some (leNat bs), s1)
  | (.error _, s1) => (none, s1)

/-- Dwords of a tool's buffer written, as a committed store (R364); false when it faults. -/
def toolWrite (s : State) (ctx va : Nat) (ws : List Nat) : Bool × State :=
  match writeUnder s ctx 0 va (ws.flatMap fun w => leBytes 8 w) with
  | (.ok _, s1) => (true, s1)
  | (.error _, s1) => (false, s1)

/-- What a ring came to when a record was put into it. -/
inductive Ring where
  | put | full | fault
  deriving DecidableEq, Repr

/-- A record put into a ring (R364): `widx` is advanced in the control block; with the ring full, nothing is written. -/
def ringPut (s : State) (b : TraceBuf) (rcd : List Nat) : Ring × TraceBuf × State :=
  match toolRead s b.ctx (b.base + 8) with
  | (none, s1) => (.fault, b, s1)
  | (some ridx, s1) =>
    let next := (b.widx + 1) % b.records
    if next = ridx % b.records then (.full, { b with lost := b.lost + 1 }, s1)
    else
      match toolWrite s1 b.ctx (b.base + 32 + b.widx * (rcd.length * 8)) rcd with
      | (false, s2) => (.fault, b, s2)
      | (true, s2) =>
        match toolWrite s2 b.ctx b.base [next] with
        | (false, s3) => (.fault, b, s3)
        | (true, s3) => (.put, { b with widx := next }, s3)

/-- A record put into a session's trace ring, or counted in LOST (R364). -/
def traceOut (s : State) (t : Tid) (b : TraceBuf) (rcd : List Nat) : Bool × State :=
  match ringPut s b rcd with
  | (.put, b', s1) => (true, s1.modSession t fun e => { e with trace := some b' })
  | (.full, b', s1) =>
    let (ok, s2) := toolWrite s1 b.ctx (b.base + 16) [b'.lost]
    (ok, s2.modSession t fun e => { e with trace := some b' })
  | (.fault, _, s1) => (false, s1)

/-- A Stopped thread continued (R359); one that stands in a streamer queue goes on waiting there (R161). -/
def continueThread (s : State) (t : Tid) : State :=
  s.modThread t fun th =>
    if th.run ≠ .stopped then th
    else
      match s.gl.streamQ.find? fun q => decide (q.tid = t) with
      | some q => { th with run := .transit q.cause q.src none }
      | none => { th with run := .running }

/-- A session ended with one end record (R366): one that has been revoked says so, but in a reset. Its stop points go with it, and a thread that it holds
Stopped is continued (R357, R359). A STOP in progress completes (R357). -/
def endSession (s : State) (t : Tid) (reason : Nat) : State :=
  match s.session t with
  | none => s
  | some e =>
    let s1 := match e.trace with
      | some b => (traceOut s t b [6 * 2 ^ 56 + t.word, if e.revoked && reason != 2 then 1 else reason, 0, s.clk.time]).2
      | none => s
    let s2 := { s1 with db := { s1.db with sessions := s1.db.sessions.filter fun x => decide (x.tid ≠ t) } }
    let held := match s2.getThread t with | some th => decide (th.run = .stopped) | none => false
    continueThread { s2 with db := { s2.db with busy := s2.db.busy.map fun b => if b.tid = t then { b with reached := b.reached || held } else b } } t

/-- The sessions that a revocation has reached ended (R357): at the end of its cycle, so that a reset in the cycle comes first (R366). -/
def endRevoked (s : State) : State := (s.db.sessions.filter (·.revoked)).foldl (fun s e => endSession s e.tid 1) s

/-- The trace record of a kind from 1 to 5 (R365), when the thread's PROFCTL chooses it and its session allows it (R364). -/
def traceRec (s : State) (th : Thread) (kind a b time : Nat) : State :=
  match s.session th.tid with
  | none => s
  | some e =>
    match e.trace with
    | none => s
    | some buf =>
      if bitOf th.profctl (kind - 1) && (kind != 5 || e.profile) then
        match traceOut s th.tid buf [kind * 2 ^ 56 + th.tid.word, a, b, time] with
        | (true, s1) => s1
        | (false, s1) => endSession s1 th.tid 4
      else s

/-- Dword 0 of a log entry (R367). -/
def logHead (kind size whr : Nat) : Nat := kind * 2 ^ 60 + size * 2 ^ 56 + whr % 2 ^ 56

/-- A nondeterministic input of the current thread noted: appended to its log in record mode, and passed in replay mode (R367, R369). -/
def noteInput (s : State) (kind size whr value : Nat) : State :=
  match s.session s.th.tid with
  | none => s
  | some e =>
    let s1 := match e.record with
      | none => s
      | some b =>
        match ringPut s b [logHead kind size whr, value] with
        | (.put, b', s1) => s1.modSession e.tid fun e => { e with record := some b' }
        | (_, _, s1) => endSession s1 e.tid 4
    s1.modSession e.tid fun e => { e with replay := e.replay.map fun r => if r.free || decide (r.entries ≤ r.next) then r else { r with next := r.next + 1 } }

/-- A divergence at an entry of the log (R370): without the right to go on, cause 0x11 stops the thread; with it, the log is marked and the thread runs on
free. -/
def diverge (s : State) (r : Replaying) (at_ why logged actual : Nat) : Res (Option Nat) :=
  let rcd := [BitVec.ofNat 64 (why + at_ % 2 ^ 32 * 2 ^ 16), s.th.pc, BitVec.ofNat 64 logged, BitVec.ofNat 64 actual]
  let s1 := { s with db := { s.db with diverged := s.db.diverged ++ [(s.th.tid, rcd)] } }
  if r.goOn then
    let s2 := (toolWrite s1 r.ctx (r.base + 24) [at_ + 1]).2
    .ok none (s2.modSession s.th.tid fun e => { e with replay := some { r with free := true } })
  else .stop (trapOf 0x11 (BitVec.ofNat 64 at_) s1)

/-- The value that replay mode gives for an input at a place `skip` entries on; none when the thread runs free (R369, R370). A log that cannot be
read is exhausted. -/
def replayAt (s : State) (skip kind size whr : Nat) : Res (Option Nat) :=
  match (s.session s.th.tid).bind fun e => e.replay with
  | none => .ok none s
  | some r =>
    if r.free ∨ r.entries ≤ r.next + skip then .ok none s
    else
      match readUnder s r.ctx 0 (r.base + 32 + (r.next + skip) * 16) 16 with
      | (.error _, s1) => .ok none (s1.modSession s.th.tid fun e => { e with replay := some { r with free := true } })
      | (.ok bs, s1) =>
        let head := leNat (bs.take 8)
        let here := logHead kind size whr
        if head / 2 ^ 60 ≠ kind then diverge s1 r (r.next + skip) 1 head here
        else if head % 2 ^ 56 ≠ whr % 2 ^ 56 then diverge s1 r (r.next + skip) 2 head here
        else if bitsAt head 56 4 ≠ size then diverge s1 r (r.next + skip) 3 head here
        else .ok (some (leNat (bs.drop 8))) s1

/-- The value that replay mode gives for the current instruction's input. -/
def replayInput (s : State) (kind size whr : Nat) : Res (Option Nat) := replayAt s 0 kind size whr

/-- A value that an instruction returns as a nondeterministic input (R367, R369): `s` is the state before it, for a divergence that leaves it not
performed, `s1` the state after it. -/
def loggedValue (s s1 : State) (kind size whr value : Nat) (k : Nat → State → Eff) : Eff :=
  match replayInput s kind size whr with
  | .stop e => e
  | .ok _ _ => (replayInput s1 kind size whr).andThen fun v s2 => k (v.getD value) (noteInput s2 kind size whr (v.getD value))

/-- Whether the current thread's next logged input is an entry of a log: one that record mode writes, or that replay mode comes to (R367, R369). -/
def logsInput (s : State) : Bool :=
  match s.session s.th.tid with
  | none => false
  | some e => e.record.isSome || e.replay.any fun r => !r.free && decide (r.next < r.entries)

/-- The checksum entry at a strip close or at TEXIT (R367, R368, R370): after an entry the checksum starts again from 0. -/
def checksumEntry (s : State) : Eff :=
  (replayInput s 8 0 0).andThen fun v s1 =>
    let sum := s1.th.sum.toNat
    let go := fun (s2 : State) =>
      let s3 := noteInput s2 8 0 0 sum
      Eff.done (if logsInput s2 && (s3.session s3.th.tid).isSome then s3.onTh fun t => { t with sum := 0 } else s3)
    match v, (s1.session s1.th.tid).bind fun e => e.replay with
    | some logged, some r => if logged = sum then go s1 else (diverge s1 r r.next 5 logged sum).andThen fun _ s2 => go s2
    | _, _ => go s1

end Sys2Proof.Machine
end

