-- ==== Sys2Proof/Machine/Tiles.lean ====
section
/-! DEFINITION. Tiles (R47 to R67), timeline counters (R120 to R125), engine commands (R117, R122, R123) and chain queues (R249 to R251). -/

namespace Sys2Proof.Machine

/-- A tile fault (R59): cause 0x0E with a handle or a timeline number, and a reason. -/
def tileTrap (handle reason : Nat) : TrapReq := { cause := 0x0E, tval := BitVec.ofNat 64 (reason * 256 + handle) }

/-- Whether a core lies in the quad of a thread's stand; a thread without a stand is taken to be in its quad. -/
def inStandQuad (s : State) (t : Thread) (c : CoreId) : Bool :=
  match s.stand? t.tid.stand with
  | some st => decide (st.die = c.die) && decide (st.quad = c.quad)
  | none => true

/-- The namespace instance in which a thread's handle of a level resolves (R49, R120); none outside the stand's quad. -/
def spaceOf (s : State) (t : Thread) (level : Nat) : Option Space :=
  let c := coreOf t
  if level = 1 then some (.core t.tid.stand c)
  else if level = 2 then (if inStandQuad s t c then some (.quad t.tid.stand) else none)
  else some (.die t.ctx c.die)

/-- A tile changed. -/
def State.modTile (s : State) (k : TileKey) (f : Tile → Tile) : State :=
  { s with un := { s.un with tiles := s.un.tiles.map fun t => if t.key = k then f t else t } }

/-- The tiles set: those in pinned L2 take their stripes' place in the L2 of their dies (R53). -/
def State.setTiles (s : State) (ts : List Tile) : State :=
  let pins := ts.filterMap fun t => match t.store with | .pinned d => some (d, t.base, t.nstr) | _ => none
  let ms := if pins = s.ms.pins then s.ms else (uniq (pins.map (·.1))).foldl trimL2 { s.ms with pins := pins }
  { s with un := { s.un with tiles := ts }, ms := ms }

/-- Tiles freed: a command in flight that names one goes on with its discarded stripes (R61). -/
def freeTiles (s : State) (p : Tile → Bool) : State :=
  let gone := s.un.tiles.filter p
  if gone.isEmpty then s
  else
    let s1 := s.setTiles (s.un.tiles.filter fun t => !p t)
    { s1 with un := { s1.un with cmds := s1.un.cmds.map fun c => { c with ghosts := c.ghosts ++ gone.filter fun t => c.op.pendTiles.contains t.key } } }

/-- The tile that the current thread's handle names: reason 0x02 out of reach, 0x01 when none is allocated. -/
def findTile (s : State) (h : Handle) : Res Tile :=
  match spaceOf s s.th (handleLevel h.toNat) with
  | none => .stop (.trap (tileTrap h.toNat 0x02) s)
  | some sp =>
    match s.tile? ⟨sp, h.toNat⟩ with
    | none => .stop (.trap (tileTrap h.toNat 0x01) s)
    | some t => .ok t s

/-- The byte offset of a row in a tile's contents. -/
def Tile.rowAt (t : Tile) (row : Nat) : Nat := row * pitchOf t.fmt t.cols * 64

/-- The element at a row and a column, as raw bits (R55, R255). -/
def elemGet (f : Fmt) (bytes : Cells) (at_ col : Nat) : Nat :=
  if f.width = 4 then (let b := (cellGet 0 bytes (at_ + col / 2)).toNat; if col % 2 = 0 then b % 16 else b / 16)
  else cellRead bytes (at_ + col * (f.width / 8)) (f.width / 8)

/-- The element at a row and a column written: LNS6 bits [7:6] as 0, and in a 4-bit format its own nibble only (R255). -/
def elemPut (f : Fmt) (bytes : Cells) (at_ col v : Nat) : Cells :=
  if f.width = 4 then
    let b := (cellGet 0 bytes (at_ + col / 2)).toNat
    let b' := if col % 2 = 0 then b / 16 * 16 + v % 16 else v % 16 * 16 + b % 16
    cellPut 0 bytes (at_ + col / 2) (BitVec.ofNat 8 b')
  else if f = .lns6 then cellWrite bytes (at_ + col) 1 (v % 64)
  else cellWrite bytes (at_ + col * (f.width / 8)) (f.width / 8) v

/-- An element of a tile. -/
def Tile.get (t : Tile) (row col : Nat) : Nat := elemGet t.fmt t.bytes (t.rowAt row) col

/-- A tile with an element written. -/
def Tile.put (t : Tile) (row col v : Nat) : Tile := { t with bytes := elemPut t.fmt t.bytes (t.rowAt row) col v }

/-! Stores (R50, R51). -/

/-- The number of stripes and of table entries of a store (R50). -/
def storeSize : Store → Nat × Nat
  | .tcore _ => (256, 256)
  | .vquad .. => (2048, 1024)
  | .pinned _ => (131072, 4096)

/-- The stripes held in a store. -/
def stripesUsed (s : State) (st : Store) : Nat := ((tilesIn s st).map Tile.nstr).foldl (· + ·) 0

/-- The store that backs a tile of a level allocated on a core (R50, R51), and its home core. -/
def storeFor (s : State) (level : Nat) (c : CoreId) : Store × Nat :=
  if level = 3 then (.pinned c.die, 0)
  else
    match coreClass c with
    | .c => (.pinned c.die, 0)
    | .v => (.vquad c.die c.quad, 0)
    | .t =>
      if level = 1 then (.tcore c, 0)
      else
        let used := fun k => stripesUsed s (.tcore ⟨c.die, c.quad, k⟩)
        let best := (List.range 4).foldl (fun b k => if used k < used b then k else b) 0
        (.tcore ⟨c.die, c.quad, best⟩, best)

/-- Whether a run of stripes from a base meets a tile. -/
def stripesMeet (ts : List Tile) (base n : Nat) : Bool := ts.any fun t => decide (base < t.base + t.nstr) && decide (t.base < base + n)

/-- The lowest base of a run of n free stripes (R58): it is 0 or just past a tile. -/
def firstFit (s : State) (st : Store) (n : Nat) : Option Nat :=
  let ts := tilesIn s st
  let cands := (0 :: ts.map fun t => t.base + t.nstr).filter fun b => decide (b + n ≤ (storeSize st).1) && !stripesMeet ts b n
  match cands with
  | [] => none
  | b :: rest => some (rest.foldl min b)

/-- An allocation (R58): the status, in the order 1, 3, 2, with the tile made on 0. -/
def allocTile (s : State) (key : TileKey) (c : CoreId) (part : Nat) (owner : Tid) (f : Fmt) (rows cols : Nat) : Nat × State :=
  if (s.tile? key).isSome then (1, s)
  else
    let (st, hcore) := storeFor s (handleLevel key.handle) c
    let n := stripesOf f rows cols
    let limit := min 131072 (fld (s.reg10 (.pinq c.die part)) 17 0)
    let tooMany := match st with | .pinned d => decide (limit < pinnedUsed s d part + n) | _ => false
    if tooMany then (3, s)
    else
      match firstFit s st n with
      | none => (2, s)
      | some base =>
        if (storeSize st).2 ≤ (tilesIn s st).length then (2, s)
        else
          let t : Tile := { key := key, fmt := f, rows := rows, cols := cols, othr := owner.index % 64, ostand := owner.stand, store := st, part := part
                            base := base, hcore := hcore, readers := [], writer := none, queue := [], bytes := [], bad := [] }
          (0, s.setTiles (s.un.tiles ++ [t]))

/-! Locks (R62 to R65). -/

/-- Whether a holder has a read lock. -/
def Tile.reads (t : Tile) (h : LockHolder) : Bool := t.readers.contains h

/-- Whether a read use by a thread proceeds. -/
def Tile.readOk (t : Tile) (who : Tid) : Bool := decide (t.writer = none) || decide (t.writer = some who)

/-- Whether a write use by a thread proceeds. -/
def Tile.writeOk (t : Tile) (who : Tid) : Bool := decide (t.writer = some who) || (decide (t.writer = none) && t.readers.isEmpty)

/-- A read use by the current thread (R62). -/
def readUse (s : State) (t : Tile) : Eff := if t.readOk s.th.tid then .done s else .park (.tile t.key false) s

/-- A write use by the current thread (R62): reason 0x06 when it holds a read lock itself. -/
def writeUse (s : State) (t : Tile) : Eff :=
  if t.writeOk s.th.tid then .done s
  else if t.reads (.thread s.th.tid) then .trap (tileTrap t.key.handle 0x06) s
  else .park (.tile t.key true) s

/-- Whether a queued lock request can be granted in a tile's state. -/
def Tile.grants (t : Tile) (write : Bool) : Bool :=
  if write then decide (t.writer = none) && t.readers.isEmpty else decide (t.writer = none) && decide (t.readers.length < 63)

/-- A lock given to a thread. -/
def Tile.locked (t : Tile) (who : Tid) (write : Bool) : Tile :=
  if write then { t with writer := some who } else { t with readers := t.readers ++ [.thread who] }

/-- The locks of a thread released, and its waiting requests withdrawn (R64). -/
def releaseLocks (s : State) (who : Tid) : State :=
  { s with un := { s.un with tiles := s.un.tiles.map fun t =>
      { t with readers := t.readers.filter fun r => decide (r ≠ .thread who), writer := if t.writer = some who then none else t.writer
               queue := t.queue.filter fun q => decide (q.1 ≠ who) } } }

/-- The array's read locks of a command released (R65). -/
def releaseArray (s : State) (cmd : Nat) (k : TileKey) : State :=
  s.modTile k fun t => { t with readers := t.readers.filter fun r => decide (r ≠ .array cmd) }

/-! Errors in tiles (R87, R89). -/

/-- The RAS record of a tile's row (R92): LEVEL 6 with the handle and the row, wherever the tile is stored (log 74). -/
def tileRas (t : Tile) (row kind ctx tid : Nat) : RasRec :=
  let die := match t.store with | .tcore c => c.die | .vquad d _ => d | .pinned d => d
  ⟨kind, 6, die, t.key.handle + row * 256, ctx, tid, 0, some t.key⟩

/-- A tile's rows read by a thread: correctable errors are repaired and logged; the first uncorrectable row of the list is consumed. -/
def readTileRows (s : State) (who : Thread) (k : TileKey) (rows : List Nat) : Option Nat × State :=
  match s.tile? k with
  | none => (none, s)
  | some t =>
    let s1 := (t.bad.filter fun b => b.2 && rows.contains b.1).foldl (fun s b => rasLog s (tileRas t b.1 1 0 0)) s
    let s2 := s1.modTile k fun t => { t with bad := t.bad.filter fun b => !(b.2 && rows.contains b.1) }
    match rows.find? fun r => t.bad.contains (r, false) with
    | none => (none, s2)
    | some r => (some r, rasLog s2 (tileRas t r 3 who.ctx who.tid.word))

/-- The cores of the store behind a tile, which a rerun leaves out (R327). -/
def storeCores : Store → List CoreId
  | .tcore c => [c]
  | .vquad die quad => quadCores die quad
  | .pinned _ => []

/-- The cause 0x10 of a tile's row (R89). -/
def tilePoison (s : State) (key : TileKey) (row : Nat) : TrapReq :=
  let cores := match s.tile? key with | some t => storeCores t.store | none => []
  { cause := 0x10, tval := BitVec.ofNat 64 (row % 1024 * 256 + key.handle % 256), tsrc := true, exclude := cores }

/-! Timeline counters. -/

/-- A counter set. -/
def State.setTl (s : State) (t : Timeline) : State :=
  { s with un := { s.un with timelines := t :: s.un.timelines.filter fun u => decide (u.key ≠ t.key) } }

/-- The level of a timeline: 1 core, 2 quad, 3 die (R120). -/
def tlLevel (n : Nat) : Nat := if n < 8 then 1 else if n < 14 then 2 else 3

/-- The scope of a timeline's level. -/
def tlScope (n : Nat) : Scope := if n < 8 then .core else if n < 14 then .quad else .die

/-- The counter that the current thread's timeline names: reason 0x0A out of reach (R120). -/
def findTl (s : State) (n : Tl) : Res TlKey :=
  match spaceOf s s.th (tlLevel n.toNat) with
  | none => .stop (.trap (tileTrap n.toNat 0x0A) s)
  | some sp => .ok ⟨sp, n.toNat⟩ s

/-- The counter of a command to be accepted (R122): reason 0x0B when its numbers are used up. -/
def findTlFor (s : State) (n : Tl) : Res TlKey :=
  (findTl s n).bind fun k s1 => if (s1.tl k).iss = 2 ^ 64 - 1 then .stop (.trap (tileTrap n.toNat 0x0B) s1) else .ok k s1

/-- VAL raised past the commands that have completed (R123). -/
def raiseVal (ahead : List Nat) : Nat → Nat → Nat
  | 0, v => v
  | f + 1, v => if ahead.contains (v + 1) then raiseVal ahead f (v + 1) else v

/-- A command's completion counted (R121, R123, R137). -/
def completeOn (t : Timeline) (seq now : Nat) : Timeline :=
  let ahead := seq :: t.ahead
  let v := raiseVal ahead ahead.length t.val
  { t with val := v, ahead := ahead.filter fun n => decide (v < n), stamp := if v = t.val then t.stamp else now }

/-! Commands. -/

/-- Whether a command is the matrix array's. -/
def CmdOp.matrix : CmdOp → Bool
  | .tmma .. | .taccrd .. | .tmma32 .. => true
  | _ => false

/-- The cores that one copy engine or matrix array serves: a T-core's own; a V-quad's or C-quad's copy engine is shared (R117). -/
def sameEngine (matrix : Bool) (a b : CoreId) : Bool :=
  if matrix || coreClass a == .t then decide (a = b) else decide (a.die = b.die) && decide (a.quad = b.quad)

/-- The number of commands that an engine holds. -/
def engineLoad (s : State) (matrix : Bool) (c : CoreId) : Nat :=
  (s.un.cmds.filter fun m => m.op.matrix == matrix && sameEngine matrix m.core c).length

/-- The capacity of an engine (R117). -/
def engineCap (matrix : Bool) (c : CoreId) : Nat := if matrix then 4 else if coreClass c = .t then 32 else 64

/-- Whether an engine has room. -/
def engineRoom (s : State) (matrix : Bool) (c : CoreId) : Bool := decide (engineLoad s matrix c < engineCap matrix c)

/-- Whether a command of a thread that came to the engine earlier still waits for it: the queue takes commands in arrival order (R162). -/
def engineAhead (s : State) (matrix : Bool) (t : Thread) : Bool :=
  ((s.un.engineQ.filter fun e => e.matrix == matrix && sameEngine matrix e.core (coreOf t)).takeWhile fun e => decide (e.tid ≠ t.tid)).any fun e =>
    match s.getThread e.tid with
    | some u => decide (u.run = .running) || decide (u.run = .parked (.engine matrix))
    | none => false

/-- Whether an engine takes a thread's command now. -/
def engineOpen (s : State) (matrix : Bool) (t : Thread) : Bool := engineRoom s matrix (coreOf t) && !engineAhead s matrix t

/-- A thread's command no longer waits for an engine. -/
def leaveEngine (s : State) (t : Tid) : State := { s with un := { s.un with engineQ := s.un.engineQ.filter fun e => decide (e.tid ≠ t) } }

/-- The current thread's command waits for its engine, at the place at which it came. -/
def joinEngine (s : State) (matrix : Bool) : State :=
  if s.un.engineQ.any fun e => decide (e.tid = s.th.tid) then s
  else { s with un := { s.un with engineQ := s.un.engineQ ++ [⟨s.th.tid, matrix, coreOf s.th⟩] } }

/-- A command accepted (R122): its number. -/
def acceptCmd (s : State) (k : TlKey) (op : CmdOp) (toRead : List TileKey) : Nat × State :=
  let t := s.tl k
  let n := t.iss + 1
  let c : Cmd := { id := s.un.cmdNext, tid := s.th.tid, ctx := activeCtx s s.th, priv := s.th.status.priv, core := coreOf s.th, key := k, tln := k.num, seq := n, op := op
                   pc := s.th.pc, prog := 0, held := none, toRead := toRead, captured := [], poisoned := false, pod := [], row := none
                   accepted := s.dieCycle (coreOf s.th).die, orphan := none, ghosts := [], know := knownTo s.ms s.th.tid }
  let s1 := s.setTl { t with iss := n }
  (n, leaveEngine { s1 with un := { s1.un with cmds := s1.un.cmds ++ [c], cmdNext := s1.un.cmdNext + 1 } } s.th.tid)

/-- The command of an id. -/
def State.cmd? (s : State) (id : Nat) : Option Cmd := s.un.cmds.find? fun c => decide (c.id = id)

/-- A command changed. -/
def State.modCmd (s : State) (id : Nat) (f : Cmd → Cmd) : State :=
  { s with un := { s.un with cmds := s.un.cmds.map fun c => if c.id = id then f c else c } }

/-- The misses of rows of commands that are no more forgotten (R37). -/
def purgeMisses (s : State) : State :=
  { s with xl := { s.xl with missQ := s.xl.missQ.filter fun q => q.cmd.all fun id => s.un.cmds.any fun c => decide (c.id = id) } }

/-- A command taken from its engine. -/
def State.dropCmd (s : State) (id : Nat) : State :=
  purgeMisses { s with un := { s.un with cmds := s.un.cmds.filter fun c => decide (c.id ≠ id) } }

/-- The held command of a thread with the lowest sequence number, of those that a test chooses and that are not delivered (R130). -/
def heldOf (s : State) (t : Tid) (p : Cmd → Bool) : Option Cmd :=
  let hs := s.un.cmds.filter fun c => decide (c.tid = t) && c.orphan.isNone && p c && (match c.held with | some h => !h.delivered | none => false)
  hs.foldl (fun b c => match b with | none => some c | some d => if c.seq < d.seq then some c else b) none

/-- TMICRO of a held command (R130). -/
def heldMicro (c : Cmd) : Nat := c.tln % 16 * 2 ^ 60 + c.prog % 1024 * 2 ^ 50 + c.seq % 2 ^ 50

/-- The trap of a held command, taken at an address (R130). -/
def heldTrap (c : Cmd) (h : HeldFault) : TrapReq :=
  { cause := h.cause, tval := h.tval, fclass := h.fclass, flevel := h.flevel, tsrc := h.tsrc, exclude := h.exclude, tmicro := BitVec.ofNat 64 (heldMicro c), held := true
    heldId := some c.id }

/-- The fault of a held command delivered: it restarts when the handler returns (R131). -/
def markDelivered (s : State) (id : Nat) : State :=
  s.modCmd id fun c => { c with held := c.held.map fun h => { h with delivered := true } }

/-- Whether a command is held by a fault that has been delivered. -/
def Cmd.waitsRestart (c : Cmd) : Bool :=
  match c.held with
  | some h => h.delivered
  | none => false

/-- The delivered held commands of a thread restarted at their rows (R131, R238). -/
def restartHeld (s : State) (t : Tid) : State :=
  { s with un := { s.un with cmds := s.un.cmds.map fun c =>
      if c.tid = t ∧ c.orphan.isNone ∧ c.waitsRestart then { c with held := none } else c } }

/-! Chain queues. -/

/-- The dwords of the queue from a slot of a core. -/
def chainItems (s : State) (c : CoreId) (slot : Nat) : List Word :=
  match s.un.chains.find? fun q => decide (q.core = c) && decide (q.slot = slot) with
  | some q => q.items
  | none => []

/-- A queue's dwords set. -/
def setChain (s : State) (c : CoreId) (slot : Nat) (items : List Word) : State :=
  let rest := s.un.chains.filter fun q => !(decide (q.core = c) && decide (q.slot = slot))
  { s with un := { s.un with chains := if items.isEmpty then rest else ⟨c, slot, items⟩ :: rest } }

/-- The queues at both ends of a place emptied (R251). -/
def emptyChains (s : State) (p : Place) : State :=
  let s1 := setChain s p.at_ p.slot []
  if p.at_.core = 0 then s1 else setChain s1 { p.at_ with core := p.at_.core - 1 } p.slot []

/-- The thread that holds a place. -/
def threadAt (s : State) (p : Place) : Option Thread := s.threads.find? fun t => decide (t.place = some p) && decide (t.run ≠ .ended)

/-- Whether the thread at a place is of a stand and in chain mode (R250). -/
def chainPartner (s : State) (stand : Nat) (p : Place) : Bool :=
  match threadAt s p with
  | some t => decide (t.tid.stand = stand) && t.status.chain
  | none => false

/-- Whether a thread of a stand in chain mode has ended at a place, its queues being emptied (R251): a pop from there finds nothing more (R407). -/
def chainEnded (s : State) (stand : Nat) (p : Place) : Bool := s.un.chainLeft.contains (p, stand)

end Sys2Proof.Machine
end

