-- ==== Sys2Proof/Machine/Stands.lean ====
section
/-! DEFINITION. Places and clusters (R138, R151, R321, R328, R329), trap records and the supervisor's rings (R336, R339 to R341), and the ends of
threads, stands and jobs (R61, R131, R144, R313, R319, R327, R347 to R349). -/

namespace Sys2Proof.Machine

/-! Clusters. -/

/-- The clusters of a V-quad that are in the pool, ungranted and not reserved (R329). -/
def freeClusters (s : State) (die quad : Nat) : Nat :=
  poolOf s die quad - ((s.threads.filter fun t => onQuad t die quad).map grantOf).foldl (· + ·) 0
    - ((s.un.leaseQ.filter fun q => decide (q.die = die) && decide (q.quad = quad)).map (·.reserved)).foldl (· + ·) 0

/-- The clusters reserved for waiting requests of a list that belong to a partition on a quad. -/
def reservedOf (s : State) (die quad part : Nat) (l : List LeaseReq) : Nat :=
  ((l.filter fun q => decide (q.die = die) && decide (q.quad = quad) &&
    (match s.getThread q.tid with | some t => decide (s.partOf t.ctx = part) | none => false)).map (·.reserved)).foldl (· + ·) 0

/-- S of R329 for a thread of a partition: the share among the partition's threads on the quad that hold a grant or wait at a decision, it included. -/
def leaseShare (s : State) (die quad part : Nat) (tid : Tid) : Nat :=
  let w := (s.threads.filter fun u => onQuad u die quad && decide (s.partOf u.ctx = part) &&
    (decide (grantOf u ≠ 0) || decide (u.run = .parked .lease) || decide (u.tid = tid) ||
      s.un.leaseQ.any fun q => decide (q.tid = u.tid) && !q.regrant)).length
  max 1 (quotaOf s die quad part / max 1 w)

/-- Free clusters of a quad reserved for the requests of a queue in arrival order, each up to what it needs; a request that then has what it needs is
granted its share of the rest at once (R330). A request's partition keeps to its QUOTA, a re-grant's does not (R152). `seen` are the requests already
served. -/
def reserveLoop (s : State) (die quad : Nat) : Nat → List LeaseReq → List LeaseReq → List LeaseReq
  | _, [], seen => seen
  | free, q :: rest, seen =>
    if q.die ≠ die ∨ q.quad ≠ quad then reserveLoop s die quad free rest (seen ++ [q])
    else
      let part := match s.getThread q.tid with | some t => s.partOf t.ctx | none => 0
      let room := if q.regrant then free
        else min free (quotaOf s die quad part - heldClusters s die quad part - reservedOf s die quad part (seen ++ q :: rest))
      let has := q.reserved + min (q.lmin - q.reserved) room
      let grant :=
        if q.regrant ∨ q.lmin ≤ q.reserved ∨ has < q.lmin then has
        else max q.lmin (min (min q.most (leaseShare s die quad part q.tid)) (q.reserved + room))
      reserveLoop s die quad (free - (grant - q.reserved)) rest (seen ++ [{ q with reserved := grant }])

/-- The free clusters of a quad reserved for its waiting requests (R330). -/
def reserveFree (s : State) (die quad : Nat) : State :=
  { s with un := { s.un with leaseQ := reserveLoop s die quad (freeClusters s die quad) s.un.leaseQ [] } }

/-- The request of a thread that waits at the arbiter. -/
def leaseOf (s : State) (t : Tid) : Option LeaseReq := s.un.leaseQ.find? fun q => decide (q.tid = t)

/-- A thread's request withdrawn from the arbiter. -/
def leaseDone (s : State) (t : Tid) : State := { s with un := { s.un with leaseQ := s.un.leaseQ.filter fun q => decide (q.tid ≠ t) } }

/-! Places. -/

/-- Whether a place is held: by a thread, by one on its way to it, or by a spawn not yet started. -/
def placeHeld (s : State) (p : Place) : Bool :=
  (s.threads.any fun t => decide (t.run ≠ .ended) && (decide (t.place = some p) || (match t.run with | .transit _ _ d => decide (d = some p) | _ => false)))
    || s.gl.spawns.any fun q => decide (q.place = p)

/-- Whether a core serves a partition's new work: a V-quad by its quota, any other quad by its owner (R328). -/
def serves (s : State) (c : CoreId) (part : Nat) : Bool :=
  coreExists s.clk.blend c && !s.un.out.contains c &&
  match coreClass c with
  | .v => decide (quotaOf s c.die c.quad part ≠ 0)
  | _ => decide (ownerOf s c = part) && decide (fld (s.reg10 (.qown c.die c.quad)) 3 0 = part)

/-- The free places of a core for a partition, in order; those freed in the cycle are kept for the threads that wait for one (R161). -/
def freePlaces (s : State) (c : CoreId) (part : Nat) : List Place :=
  if serves s c part then
    ((List.range (slotsOf (coreClass c))).map fun k => (⟨c, k⟩ : Place)).filter fun p => !placeHeld s p && !s.gl.freedNow.contains p
  else []

/-! Records. -/

/-- A trap record's eight dwords (R336). -/
def record (r : TrapReq) (tepc : Word) (nomv recf inh sup sr : Bool) (time ctx tid seq : Nat) : List Word :=
  let bit := fun (b : Bool) (n : Nat) => if b then 2 ^ n else 0
  let d0 := (if r.cause = 0x0D then r.ndisc % 256 * 2 ^ 40 + r.ssz % 4 * 2 ^ 32 else 0) + r.vkind % 256 * 2 ^ 24 + bit nomv 23 + r.flevel % 8 * 2 ^ 20
    + r.fclass % 16 * 2 ^ 16 + bit recf 15 + bit inh 14 + bit sup 13 + bit r.held 12 + bit r.mic 11 + bit r.veidx.isSome 10 + bit r.tsrc 9 + bit r.imp 8
    + r.cause % 256
  [BitVec.ofNat 64 d0, tepc, r.tval, r.tmicro, BitVec.ofNat 64 (r.veidx.getD 0 % 65536), BitVec.ofNat 64 time
  , BitVec.ofNat 64 (bit sr 44 + ctx % 4096 * 2 ^ 32 + tid % 2 ^ 32), BitVec.ofNat 64 seq]

/-- The bytes of dwords. -/
def wordsBytes (ws : List Word) : List Byte := ws.flatMap fun w => leBytes 8 w.toNat

/-- The number of records of a supervisor ring (R339). -/
def svSize (s : State) (part : Nat) : Nat := 2 ^ (fld (s.reg10 (.svring part)) 2 0 + 6)

/-- A record written to a partition's supervisor ring (R340, R409): none while the ring is full or the key unusable; with EN = 0 no record is written. -/
def svAppend (s : State) (part : Nat) (ws : List Word) : Option State :=
  let ring := s.reg10 (.svring part)
  if !bitOf ring 63 then some s
  else
    match defaultKey s part with
    | none => none
    | some key =>
      let idx := s.reg10 (.svidx part)
      let w := fld idx 9 0
      let next := (w + 1) % svSize s part
      if next = fld idx 19 10 % svSize s part then none
      else
        let pa := fld ring 51 12 * 4096 + w * 64
        let s1 := { s with ms := homeWrite s.ms (some key) (cellsAt pa (wordsBytes ws)) }
        some (s1.setReg10 (.svidx part) (setFld idx 9 0 next))

/-- Whether a report and a stand belong together. -/
def Report.of (r : Report) (st : Stand) : Bool := decide (r.stand = some (st.id, st.born))

/-- A report written (R341, R349): its stand's count of reports and the cause of its last one; the reports of it that still wait come after it. -/
def reportWritten (s : State) (r : Report) : State :=
  { s with gl := { s.gl with
      stands := s.gl.stands.map fun st => if r.of st then { st with reports := st.reports + 1, lastCause := fld (r.words.getD 0 0) 7 0 } else st
      reports := s.gl.reports.map fun q => if q.stand.isSome && decide (q.stand = r.stand) then { q with before := q.before + 1 } else q } }

/-- At most n of a partition's waiting reports written in order while its ring takes them, each with the time of its writing and its stand's next SEQ (R336);
each raises 0x23 once (R341). -/
def flushReports (s : State) (part : Nat) : Nat → State
  | 0 => s
  | n + 1 =>
    match s.gl.reports.find? fun r => decide (r.part = part) with
    | none => s
    | some r =>
      match svAppend s part ((r.words.set 5 (BitVec.ofNat 64 s.clk.time)).set 7 (BitVec.ofNat 64 (r.before + 1))) with
      | none => s
      | some s1 =>
        let at_ := fld (s.reg10 (.svidx part)) 9 0
        let s2 := { s1 with gl := { s1.gl with reports := s1.gl.reports.erase r } }
        if !bitOf (s.reg10 (.svring part)) 63 then flushReports s2 part n
        else
          let raised := if s2.gl.raised.any fun e => decide (e.1 = part) then s2.gl.raised else s2.gl.raised ++ [(part, at_)]
          flushReports (reportWritten { s2 with gl := { s2.gl with raised := raised } } r) part n

/-- A report made, and written as soon as the ring takes it (R341): SR = 1. -/
def addReport (s : State) (part : Nat) (st : Option Stand) (r : TrapReq) (tepc : Word) (ctx tid : Nat) : State :=
  let ws := record r tepc false false false false true s.clk.time ctx tid 0
  let made : Report := ⟨part, st.map fun q => (q.id, q.born), (st.map (·.reports)).getD 0, ws⟩
  let s1 := { s with gl := { s.gl with reports := s.gl.reports ++ [made] } }
  flushReports s1 part s1.gl.reports.length

/-- A stand report made (R341): INDEX 0. -/
def reportStand (s : State) (st : Stand) (r : TrapReq) (tepc : Word) : State :=
  addReport s st.part (some ((s.stand? st.id).getD st)) r tepc st.packet.ctx (st.id % 65536 * 65536)

/-! Jobs. -/

/-- The state of a queue. -/
def State.queue (s : State) (q : Nat) : QueueSt := (s.gl.queues.find? fun e => decide (e.queue = q)).getD ⟨q, [], 0, 0, 0, []⟩

/-- A queue that has no tasks has no deficit (R315). -/
def QueueSt.spent (q : QueueSt) : QueueSt := if q.ready.isEmpty && q.deferred.isEmpty then { q with deficit := 0 } else q

/-- The state of a queue set. -/
def State.setQueue (s : State) (q : QueueSt) : State :=
  { s with gl := { s.gl with queues := q.spent :: s.gl.queues.filter fun e => decide (e.queue ≠ q.queue) } }

/-- The job of a ready task. -/
def Ready.job : Ready → Nat
  | .stands p _ => p.job
  | .copy j .. => j
  | .signal j .. => j

/-- Whether a namespace instance is a stand's own (R47, R61). -/
def Space.ofStand (sp : Space) (id : Nat) : Bool :=
  match sp with
  | .thread t => decide (t.stand = id)
  | .core st _ => decide (st = id)
  | .quad st => decide (st = id)
  | _ => false

/-- Preloads discarded, with their tiles and the commands that fill them (R327). -/
def dropPreloads (s : State) (p : PreloadSlot → Bool) : State :=
  let gone := (s.gl.preloads.filter p).map (·.stand)
  let mine := fun (c : Cmd) => decide (c.seq = 0) && c.orphan.isNone && gone.contains c.tid.stand
  let s1 := freeTiles { s with gl := { s.gl with preloads := s.gl.preloads.filter fun e => !p e } } fun t => gone.any fun id => Space.ofStand t.key.space id
  purgeMisses { s1 with
            un := { s1.un with cmds := s1.un.cmds.filter fun c => !mine c }
            pod := { s1.pod with out := s1.pod.out.filter fun o => !(s1.un.cmds.any fun c => mine c && decide (o.cmd = some c.id)) } }

/-- A job's tasks not yet dispatched discarded, those in dispatchers' queues and preload slots included (R318, R319, log 99). -/
def dropTasks (s0 : State) (job : Nat) : State :=
  let s := dropPreloads s0 fun p => decide (p.packet.job = job)
  { s with gl := { s.gl with
      queues := s.gl.queues.map fun q =>
        QueueSt.spent { q with ready := q.ready.filter (fun r => decide (r.job ≠ job)), deferred := q.deferred.filter fun r => decide (r.job ≠ job) }
      placed := s.gl.placed.filter fun p => decide (p.packet.job ≠ job) } }

/-- A job failed with a status and a reason, unless it has failed before (R319). -/
def failJob (s : State) (job status reason : Nat) : State :=
  match s.job? job with
  | none => s
  | some j => if j.failed.isSome then s else dropTasks (s.modJob job fun j => { j with failed := some (status, reason) }) job

/-! Threads' ends. -/

/-- The live threads of a stand. -/
def standThreads (s : State) (id : Nat) : List Thread := s.threads.filter fun t => decide (t.tid.stand = id) && decide (t.run ≠ .ended)

/-- Contexts that a partition's waiting threads may now take (R161): kept for them until the end of the cycle. -/
def openUp (s : State) (ps : List Place) : State :=
  if s.gl.streamQ.isEmpty then s else { s with gl := { s.gl with freedNow := uniq (s.gl.freedNow ++ ps) } }

/-- A context freed: its core owes a notice (R323), its chain queues are emptied (R251), and it is open to threads that wait for one (R161). -/
def freePlace (s : State) (p : Place) : State :=
  let s1 := emptyChains s p
  openUp { s1 with gl := { s1.gl with freed := if s1.gl.freed.contains p.at_ then s1.gl.freed else s1.gl.freed ++ [p.at_] } } [p]

/-- The posted stores of a thread that ends performed; those that fault leave nothing (R354). -/
def settleEnd (s : State) (t : Tid) : State :=
  if !s.ms.posted.any fun p => decide (p.tid = t) then s
  else s.asThread t fun u =>
    match resolvePosted u with
    | .done v | .trap _ v | .park _ v => v
    | .refuse _ => u

/-- What barriers hold of some threads forgotten (R229, R230): a name that ends is given to another thread. -/
def Barrier.forget (b : Barrier) (p : Tid → Bool) : Barrier :=
  { b with arrived := b.arrived.filter fun t => !p t, abandoned := b.abandoned.map fun a => { a with arrived := a.arrived.filter fun t => !p t } }

/-- A thread ended (R64, R144, R354): its posted stores are performed, its locks are released, its queue emptied, what it waited for forgotten, and its
context freed. Its requests to other packages are its stand's from then on. `reason` ends its session (R366). -/
def endThread (s0 : State) (t : Tid) (k : EndKind) (reason : Nat) : State :=
  let s := settleEnd s0 t
  match s.getThread t with
  | none => s
  | some th =>
    let s1 := releaseLocks (endSession s t reason) t
    let s2 := match th.place, th.run with
      | some p, _ => freePlace s1 p
      | none, .transit _ _ (some p) => freePlace s1 p
      | none, _ => s1
    let s3 := s2.modThread t fun th => { th with run := .ended, place := none, endKind := some k, rxq := [], held := [], owed := none
                                                 vec := { th.vec with grant := 0, pin := false }, pfx := none, succ := none, pod := [], supPending := none }
    { s3 with
      ms := { s3.ms with posted := s3.ms.posted.filter fun p => decide (p.tid ≠ t), sfq := s3.ms.sfq.filter fun f => decide (f.tid ≠ t) }
      un := { s3.un with chainLeft := s3.un.chainLeft ++ (match th.place with | some p => if th.status.chain then [(p, t.stand)] else [] | none => [])
                         leaseQ := s3.un.leaseQ.filter fun q => decide (q.tid ≠ t), engineQ := s3.un.engineQ.filter fun e => decide (e.tid ≠ t)
                         barriers := (s3.un.barriers.filter fun b => decide (b.key.space ≠ .thread t)).map fun b => b.forget fun u => decide (u = t) }
      gl := { s3.gl with streamQ := s3.gl.streamQ.filter fun q => decide (q.tid ≠ t), notices := s3.gl.notices.filter fun q => decide (q.1 ≠ t)
                         refused := s3.gl.refused.filter fun q => decide (q.2 ≠ t) }
      xl := { s3.xl with missQ := s3.xl.missQ.filter fun q => !q.of t none, inv := s3.xl.inv.filter fun q => decide (q.tid ≠ t) }
      pod := { s3.pod with out := s3.pod.out.map fun (o : PodOut) => if o.tid = t then { o with tid := ⟨t.stand, 65535⟩ } else o
                           colls := s3.pod.colls.map fun c => { c with waiting := c.waiting.filter fun w => decide (w.1 ≠ t) } } }

/-- Whether a command belongs to a stand that has not ended. -/
def Cmd.ofStand (c : Cmd) (id : Nat) : Bool := decide (c.tid.stand = id) && c.orphan.isNone

/-- Whether a command names a tile of a translation context, which outlives its stand (R47). -/
def Cmd.outlives (c : Cmd) : Bool := c.op.pendTiles.any fun k => match k.space with | .die .. => true | _ => false

/-- The commands of a stand that ends: those of a task that a retryable event takes back are discarded, and pass on the counters that live on; any other
goes on into discarded state, and no counter of the stand counts it (R61, R120, R354). A held one never completes: it stays for the PEND of a tile that lives
on (R131). -/
def leaveCmds (s : State) (id : Nat) (discard : Bool) : State :=
  let mine := s.un.cmds.filter fun c => Sys2Proof.Machine.Cmd.ofStand c id
  if discard then
    let s1 := mine.foldl (fun s c => s.setTl (completeOn (s.tl c.key) c.seq s.clk.time)) s
    purgeMisses { s1 with
              un := { s1.un with cmds := s1.un.cmds.filter fun c => !Sys2Proof.Machine.Cmd.ofStand c id }
              pod := { s1.pod with out := s1.pod.out.filter fun o => o.cmd.isNone || !(mine.any fun c => o.cmd = some c.id) } }
  else
    let direct := match s.stand? id with | some st => st.direct | none => true
    let left := s.un.cmds.filter fun c => !(Sys2Proof.Machine.Cmd.ofStand c id && c.held.isSome && !c.outlives)
    { s with un := { s.un with cmds := left.map fun c =>
        if Sys2Proof.Machine.Cmd.ofStand c id then
          { c with orphan := some direct, poisoned := c.poisoned || !c.toRead.isEmpty, toRead := []
                   seq := if Space.ofStand c.key.space id then 0 else c.seq }
        else c } }

/-- A gang resume over, when every stand of the job is back (R352). -/
def gangBack (s : State) (job : Nat) : State :=
  match s.job? job with
  | none => s
  | some j =>
    let mine := s.gl.stands.filter fun st => decide (st.packet.job = job)
    if j.gangResume && mine.all fun st => decide (st.st ≠ .resuming) && decide (st.st ≠ .saved) then s.modJob job fun j => { j with gangResume := false } else s

/-- What the threads of a stand knew of the order of writes forgotten, with the releases of its own counters and barriers. -/
def forgetStand (m : MemSys) (id : Nat) : MemSys :=
  let m1 := forgetThreads m fun t => decide (t.stand = id)
  { m1 with carriers := m1.carriers.filter fun c => match c.at_ with
      | .timeline k _ => !Space.ofStand k.space id
      | .barrier k _ => !Space.ofStand k.space id
      | _ => true }

/-- A stand closed (R61, R120, R144): its core- and quad-level tiles, counters and barriers are gone, and its commands are left. A gang resume waits for it
no longer (R352). -/
def closeStand (s : State) (id : Nat) (discard : Bool) : State :=
  let mine := s.un.cmds.filter fun c => Sys2Proof.Machine.Cmd.ofStand c id
  let s0 := mine.foldl (fun s c => c.toRead.foldl (fun s k => releaseArray s c.id k) s) s
  let s1 := leaveCmds (freeTiles s0 fun t => Space.ofStand t.key.space id) id discard
  let s2 := { s1 with
    ms := forgetStand s1.ms id
    un := { s1.un with chainLeft := s1.un.chainLeft.filter fun e => decide (e.2 ≠ id)
                       timelines := s1.un.timelines.filter fun t => !Space.ofStand t.key.space id
                       barriers := s1.un.barriers.filter fun b => !Space.ofStand b.key.space id }
    gl := { s1.gl with stands := s1.gl.stands.filter fun st => decide (st.id ≠ id), spawns := s1.gl.spawns.filter fun q => decide (q.tid.stand ≠ id) }
    pod := { s1.pod with out := s1.pod.out.map fun (o : PodOut) => if o.tid.stand = id then { o with tid := noSender } else o }
    others := s1.others.filter fun t => !(decide (t.tid.stand = id) && decide (t.run = .ended)) }
  match s.stand? id with
  | some st => gangBack s2 st.packet.job
  | none => s2

/-- Every thread of a stand ended. -/
def endThreads (s : State) (id : Nat) (k : EndKind) (reason : Nat) : State := (standThreads s id).foldl (fun s t => endThread s t.tid k reason) s

/-- A stand that failed (R349): its threads end as by fault, its lines are discarded, and its job fails with the reason of the first bad end. -/
def failStand (s : State) (st : Stand) (sessions : Nat) : State :=
  let why := st.bad.getD 0
  let s1 := endThreads s st.id (.fault why) sessions
  let s2 := failJob (discardLines s1 st.id) st.packet.job 2 why
  (closeStand s2 st.id false).modJob st.packet.job fun j => { j with finished := j.finished + 1 }

/-- A packet put at the head of its queue's ready list; one of a job that has failed is discarded (R319). -/
def readyFirst (s : State) (p : Packet) : State :=
  if (s.job? p.job).any (·.failed.isSome) then s
  else
    let q := s.queue p.queue
    s.setQueue { q with ready := .stands { p with die := none } 1 :: q.ready }

/-- A stand taken back: its lines, its stores and its commands are discarded, its threads end unseen, and its packet is ready again (R86, R327, R332). -/
def takeBack (s : State) (st : Stand) (p : Packet) : State :=
  let s1 := discardLines (endThreads (discardLines s st.id) st.id .reset 3) st.id
  readyFirst (closeStand s1 st.id true) p

/-- A retryable event of a stand (R347): a rerun while its task is in provisional mode with RETRIES left, else an escalation. `fetch` always
escalates. `r` and `tepc` are the event's, for the report. -/
def retryable (s : State) (id : Nat) (fetch : Bool) (exclude : List CoreId) (r : TrapReq) (tepc : Word) : State :=
  match s.stand? id with
  | none => endThreads s id (.fault r.cause) 3
  | some st =>
    if !st.direct && decide (0 < st.packet.retries) && !fetch then
      takeBack s st { st.packet with retries := st.packet.retries - 1, exclude := exclude }
    else gangBack (reportStand (s.modStand id fun q => { q with st := .escalated, packet := { q.packet with exclude := exclude } }) st r tepc) st.packet.job

/-- A stand ended by a held command (R131): the report of 0x0F, and the failure of the task with REASON 0x0F, unless another thread ended badly before
(R349). A retryable fault acts under R347. -/
def heldEnd (s : State) (st : Stand) (c : Cmd) (h : HeldFault) : State :=
  let r := heldTrap c h
  if h.cause = 0x10 then retryable s st.id false h.exclude { r with held := true } 0
  else
    let bad := if st.bad.isSome && decide (st.badTid ≠ some c.tid) then st.bad else some 0x0F
    let s1 := (reportStand s st { r with cause := 0x0F } 0).modStand st.id fun q => { q with bad := bad }
    failStand s1 ((s1.stand? st.id).getD { st with bad := bad }) 3

/-- The cause that a bad end leaves as the task's REASON (R349). -/
def EndKind.why (k : EndKind) (st : Stand) : Option Nat :=
  match k with
  | .texit => none
  | .inHandler c => some c
  | .fault c => some c
  | .reset => some st.lastCause

/-- The one report of a gang switch, once every stand of the job is saved or stopped (R352): SR = 1 and THREADID 0. -/
def gangReport (s : State) (job : Nat) : State :=
  match s.job? job with
  | none => s
  | some j =>
    let mine := s.gl.stands.filter fun st => decide (st.packet.job = job)
    if !j.gang || j.gangSaved || !(mine.all fun st => decide (st.st = .saved) || decide (st.st = .escalated)) then s
    else
      addReport (s.modJob job fun j => { j with gangSaved := true }) j.part none { cause := 0x22 } 0 j.ctx 0

/-- A stand all of whose threads are saved, and none of whose spawns has yet to start, is Saved, with its report of 0x22 (R341, R351), and after a budget
overrun one of 0x21 (R325). The stands of a gang switch make one report of 0x22 (R352). -/
def standSaved (s : State) (id : Nat) : State :=
  match s.stand? id with
  | none => s
  | some st =>
    match st.st with
    | .preempting cause =>
      let all := (standThreads s id).all fun t =>
        match t.run with | .saved _ => true | .transit _ _ none => true | .stopped => t.place.isNone | _ => false
      if !all || s.gl.spawns.any (fun q => decide (q.tid.stand = id)) then s
      else
        let gang := match s.job? st.packet.job with | some j => j.gang | none => false
        let s0 := s.modThreads (fun t => decide (t.tid.stand = id)) fun t => { t with req := { t.req with preempt := false } }
        let s1 := s0.modStand id fun q => { q with st := .saved }
        let s2 := if gang then gangReport s1 st.packet.job else reportStand s1 st { cause := 0x22 } 0
        if cause = 0x21 then reportStand s2 st { cause := 0x21 } 0 else s2
    | _ => s

/-- A thread of a stand ended, with what that does to the stand (R131, R144, R349): a stand that was being saved is Saved when it was the last (R351). A reset of it discards the faults of its held commands, which never
complete (R354, log 77). -/
def threadEnds (s : State) (t : Tid) (k : EndKind) (reason : Nat) : State :=
  let s1 := endThread s t k reason
  match s1.stand? t.stand with
  | none => s1
  | some st =>
    let st1 := match st.bad, k.why st with | none, some w => { st with bad := some w, badTid := some t } | _, _ => st
    let s2 := s1.modStand st.id fun _ => st1
    let own := fun (c : Cmd) => decide (c.tid = t) && c.orphan.isNone && c.held.isSome
    match (if k = .reset then none else s2.un.cmds.find? own) with
    | some c => (match c.held with | some h => heldEnd s2 st1 c h | none => s2)
    | none =>
      let s3 := if k = .reset then { s2 with un := { s2.un with cmds := s2.un.cmds.filter fun c => !own c } } else s2
      let allDone := (standThreads s3 st.id).isEmpty && !(s3.gl.spawns.any fun q => decide (q.tid.stand = st.id))
      if allDone then (if st1.bad.isSome then failStand s3 st1 reason else s3) else standSaved s3 st.id

/-- Whether a stand's threads do not issue: it is saved, stopped by an escalation or by a missing feature, or waits to resume (R332, R347, R351). -/
def standHalted (s : State) (id : Nat) : Bool :=
  match s.stand? id with
  | none => false
  | some st =>
    st.lack.isSome || (match st.st with | .escalated | .resuming | .saved => true | _ => false) ||
      (match s.job? st.packet.job with | some j => j.gangResume | none => false)

end Sys2Proof.Machine
end

