-- ==== Sys2Proof/Machine/ClassState.lean ====
section
/-! DEFINITION. System registers as words (R141, R262, R268, R269, R293, R303, R335), the class-state area (R156 to R158), departures and arrivals of
threads (R155, R159 to R161), and their saving and resumption (R351). -/

namespace Sys2Proof.Machine

/-! Registers as words. -/

/-- THANDLER. -/
def thandlerWord (t : Thread) : Word := BitVec.ofNat 64 (t.thandler.toNat * 4 + b2n t.thandlerEn)

/-- TSCRATCH. -/
def tscratchWord (t : Thread) : Word := BitVec.ofNat 64 (t.tscratch.toNat * 64)

/-- SCLA or SCLB. -/
def ScaleShadow.word (x : ScaleShadow) : Word := BitVec.ofNat 64 (b2n x.en * 256 + x.handle.toNat)

/-- A scale shadow of nine bits. -/
def ScaleShadow.ofNat (n : Nat) : ScaleShadow := ⟨n.testBit 8, BitVec.ofNat 8 n⟩

/-- VCFG: MODE is a copy of STATUS.MM. -/
def vcfgWord (t : Thread) : Word :=
  BitVec.ofNat 64 (t.vec.lpref * 2 ^ 16 + t.vec.lmin * 2 ^ 8 + b2n t.status.mm * 2 ^ 5 + t.vec.scope.code * 4 + t.vec.sew.code)

/-- LEASE of a thread on a quad whose pool is given. -/
def leaseWord (v : VecState) (pool : Nat) : Word := BitVec.ofNat 64 (pool * 256 + b2n v.pin * 128 + v.grant)

/-- MSHAPE. -/
def mshapeWord (v : VecState) : Word := BitVec.ofNat 64 (v.cols * 2 ^ 16 + v.rows)

/-- STRIPBASE. -/
def stripBaseWord (v : VecState) : Word := BitVec.ofNat 64 (v.stripBase.toNat * 4096 + v.stripIdx.toNat * 32 + b2n v.stripEn)

/-- The tag of a vector register (R158). -/
def VReg.tag (v : VReg) : Word := BitVec.ofNat 64 (b2n v.d * 2 ^ 63 + v.vd)

/-- The dwords of a group register. -/
def GroupReg.words (g : GroupReg) : Word × Word :=
  (BitVec.ofNat 64 (g.gid.toNat * 2 ^ 32 + g.rank.toNat * 2 ^ 16 + g.countM1.toNat)
  , BitVec.ofNat 64 (g.seq.toNat * 2 ^ 32 + g.cap.toNat * 2 ^ 16 + g.tmo.toNat * 2 ^ 12 + b2n g.podScope * 2 ^ 8 + g.buddy.toNat * 16 + g.tree.toNat))

/-- A group register of two dwords. -/
def GroupReg.ofWords (d0 d1 : Word) : GroupReg :=
  { gid := d0.extractLsb' 32 32, rank := d0.extractLsb' 16 16, countM1 := d0.extractLsb' 0 16, seq := d1.extractLsb' 32 32, cap := d1.extractLsb' 16 4
    tmo := d1.extractLsb' 12 4, podScope := bitOf d1 8, buddy := d1.extractLsb' 4 4, tree := d1.extractLsb' 0 4 }

/-- The scope of a code; 6 and above name none. -/
def scopeOfCode (n : Nat) : Option Scope := scopeOf (BitVec.ofNat 3 n)

/-! The class-state area. -/

/-- The dwords written at every departure (R158). -/
def trapWords (t : Thread) : List Word := [thandlerWord t, tscratchWord t, t.tcause, t.tepc, t.tval, t.tmicro, t.profctl, 0]

/-- The dwords of the V record before the tags. -/
def vecWords (t : Thread) (pool : Nat) : List Word :=
  [vcfgWord t, BitVec.ofNat 64 t.vec.vl, BitVec.ofNat 64 t.vec.veidx, leaseWord t.vec pool, mshapeWord t.vec, stripBaseWord t.vec, 0, 0]
    ++ t.vec.g.toList.flatMap fun g => [g.words.1, g.words.2]

/-- The parts of the area that a departure writes: their offsets and bytes. `toT` when the destination class is T. -/
def spillParts (s : State) (t : Thread) (toT : Bool) : List (Nat × List Byte) :=
  let c := coreOf t
  let fregs := if t.status.fpv && toT && clsOf t != .t then [(0x40, wordsBytes t.f.toList)] else []
  let vregs :=
    if clsOf t = .v then
      (0x140, wordsBytes (vecWords t (poolOf s c.die c.quad))) :: (0x200, wordsBytes (t.vec.v.toList.map VReg.tag)) ::
        (List.range 32).filterMap fun n =>
          match t.vec.v.toList[n]? with
          | some v => if v.d && decide (0 < v.vd) then some (0x1000 + n * 0x8000, cellGetList 0 v.bytes 0 (v.vd * 8)) else none
          | none => none
    else []
  (0, wordsBytes (trapWords t)) :: fregs ++ vregs

/-- Parts of the area written under the thread's context (R158): the first fault, if any, and the state. An area in another package is class 0x6, and one
in region 10 class 0xE (log 78). -/
def csaWrite (s : State) (t : Thread) : List (Nat × List Byte) → Except (XFault × Nat) Unit × State
  | [] => (.ok (), s)
  | (off, bs) :: rest =>
    match writeUnder s t.ctx t.tid.word ((t.csa.toNat + off) % 2 ^ 64) bs with
    | (.error e, s1) => (.error e, s1)
    | (.ok _, s1) => csaWrite s1 t rest

/-- A fault on the class-state area ends the stand, and the supervisor receives its cause (R158); poison read from it does the same (log 89). -/
def csaFault (s : State) (t : Thread) (a : Acc) (e : XFault × Nat) : State :=
  let r := faultTrap a e.1 e.2
  match s.stand? t.tid.stand with
  | none => threadEnds s t.tid (.fault r.cause) 3
  | some st =>
    let bad := some (st.bad.getD r.cause)
    let s1 := (reportStand s st r 0).modStand st.id fun q => { q with bad := bad }
    failStand s1 ((s1.stand? st.id).getD { st with bad := bad }) 3

/-- The portable context (R156). -/
def portable (t : Thread) (cause : Nat) (src dst : CoreClass) : List Word :=
  let fpv := t.status.fpv && src != .t && dst != .t
  let tsp := t.status.fpv && (src == .t || dst == .t)
  let head := cause % 256 * 2 ^ 32 + dst.code * 2 ^ 30 + src.code * 2 ^ 28 + b2n tsp * 2 ^ 26 + b2n t.vspill * 2 ^ 25 + b2n fpv * 2 ^ 24
    + (if fpv then 72 else 40) * 2 ^ 16 + 0x4A4D
  let d34 := t.fflags.toNat * 2 ^ 16 + t.fmtb.code * 2 ^ 8 + t.fmta.code * 16 + t.rndmode.code
  [BitVec.ofNat 64 head, t.pc, t.status.word] ++ t.x.toList.drop 1 ++
    [BitVec.ofNat 64 d34, t.scla.word, t.sclb.word, BitVec.ofNat 64 t.dsrseed.toNat, BitVec.ofNat 64 (t.ctx % 4096 * 2 ^ 32 + t.tid.word), t.csa] ++
    (if fpv then t.f.toList else [])

/-! Reading the area back. -/

/-- Dwords of bytes. -/
def wordsOf : Nat → List Byte → List Word
  | 0, _ => []
  | n + 1, bs => BitVec.ofNat 64 (leNat (bs.take 8)) :: wordsOf n (bs.drop 8)

/-- n dwords of the area read under the thread's context. -/
def csaRead (s : State) (t : Thread) (off n : Nat) : Except (XFault × Nat) (List Word) × State :=
  match readUnder s t.ctx t.tid.word ((t.csa.toNat + off) % 2 ^ 64) (n * 8) with
  | (.error e, s1) => (.error e, s1)
  | (.ok bs, s1) => (.ok (wordsOf n bs), s1)

/-- The registers of the first block put back. -/
def restoreTrap (t : Thread) (ws : List Word) : Thread :=
  let w := fun k => ws.getD k 0
  { t with thandler := (w 0).extractLsb' 2 62, thandlerEn := bitOf (w 0) 0, tscratch := (w 1).extractLsb' 6 58, tcause := w 2, tepc := w 3, tval := w 4
           tmicro := w 5, profctl := w 6 }

/-- A field of at most a limit. -/
def capped (n limit : Nat) : Nat := if n ≤ limit then n else limit

/-- The V record put back, but for the images. Fields that the area holds out of their ranges are taken at their limits (log 23). -/
def restoreVec (t : Thread) (ws : List Word) : Thread :=
  let w := fun k => ws.getD k 0
  let g := Vector.ofFn fun (k : Fin 8) => GroupReg.ofWords (w (8 + 2 * k.val)) (w (9 + 2 * k.val))
  { t with vec := { t.vec with sew := Ew.ofCode (fld (w 0) 1 0), scope := (scopeOfCode (fld (w 0) 4 2)).getD .lane, lmin := capped (fld (w 0) 13 8) 32
                               lpref := capped (fld (w 0) 21 16) 32, vl := fld (w 1) 15 0, veidx := fld (w 2) 15 0, pin := bitOf (w 3) 7
                               cols := capped (fld (w 4) 25 16) 512, rows := capped (fld (w 4) 8 0) 256, stripBase := (w 5).extractLsb' 12 52
                               stripIdx := (w 5).extractLsb' 5 7, stripEn := bitOf (w 5) 0, g := g } }

/-- The images of v registers read back by their tags (R158): dwords below VD, with D = 0. -/
def restoreImages (s : State) (t : Thread) (tags : List Word) : Nat → Thread → Except (XFault × Nat) Thread × State
  | 0, acc => (.ok acc, s)
  | n + 1, acc =>
    let vd := capped (fld (tags.getD n 0) 12 0) 4096
    if vd = 0 then restoreImages s t tags n (writeV acc (BitVec.ofNat 5 n) VReg.zero)
    else
      match readUnder s t.ctx t.tid.word ((t.csa.toNat + 0x1000 + n * 0x8000) % 2 ^ 64) (vd * 8) with
      | (.error e, s1) => (.error e, s1)
      | (.ok bs, s1) => restoreImages s1 t tags n (writeV acc (BitVec.ofNat 5 n) ⟨cellPutList 0 [] 0 bs, false, vd⟩)

/-- The f registers of the current thread read back from the area on a core that has them (R157); `t` is the thread so far. -/
def restoreF (s : State) (t : Thread) : Except (XFault × Nat) Thread × State :=
  if s.th.tspill && clsOf s.th != .t then
    match csaRead s s.th 0x40 32 with
    | (.error e, s1) => (.error e, s1)
    | (.ok fs, s1) => (.ok { t with f := Vector.ofFn fun (k : Fin 32) => fs.getD k.val 0, tspill := false }, s1)
  else (.ok t, s)

/-- The V record of the current thread read back from the area on a V-front (R156, R158); `t` is the thread so far. -/
def restoreV (s : State) (t : Thread) : Except (XFault × Nat) Thread × State :=
  if s.th.vspill && clsOf s.th == .v then
    match csaRead s s.th 0x140 24 with
    | (.error e, s1) => (.error e, s1)
    | (.ok vs, s1) =>
      match csaRead s1 s.th 0x200 32 with
      | (.error e, s2) => (.error e, s2)
      | (.ok tags, s2) =>
        match restoreImages s2 s.th tags 32 (restoreVec t vs) with
        | (.error e, s3) => (.error e, s3)
        | (.ok t3, s3) => (.ok { t3 with vspill := false }, s3)
  else (.ok t, s)

/-- The class state of the current thread restored on its place (R155 step 7, R157, R158): the fault of the area, if any, and the state. -/
def restoreClass (s : State) : Except (XFault × Nat) Unit × State :=
  match csaRead s s.th 0 8 with
  | (.error e, s1) => (.error e, s1)
  | (.ok ws, s1) =>
    match restoreF s1 (restoreTrap s.th ws) with
    | (.error e, s2) => (.error e, s2)
    | (.ok t2, s2) =>
      match restoreV s2 t2 with
      | (.error e, s3) => (.error e, s3)
      | (.ok t3, s3) => (.ok (), { s3 with th := t3 })

/-! Migration. -/

/-- The report of R67 and R155 step 1 that refuses a move: an owned core-level tile or a held lock, else chain mode. -/
def moveRefused (s : State) (t : Thread) : Option TrapReq :=
  let own := s.un.tiles.filter fun k => (match k.key.space with | .core .. => true | _ => false) && decide (k.othr = t.tid.index) && decide (k.ostand = t.tid.stand)
  let held := s.un.tiles.filter fun k => k.reads (.thread t.tid) || decide (k.writer = some t.tid)
  match (own ++ held).map fun k => k.key.handle with
  | [] => if t.status.chain then some { cause := 0x1D, tval := 0x0C00 } else none
  | h :: hs => some { cause := 0x1D, tval := BitVec.ofNat 64 (hs.foldl min h) }

/-- The cores of a class in a blend, in order. -/
def coresOf (b : Blend) (c : CoreClass) : List CoreId :=
  ((computeDies b).filter fun d => classOfDie d == c).flatMap fun d => (List.range (quadsOf c)).flatMap fun q => quadCores d q

/-- The candidates of R160 step 1 for a thread of a partition that gave up `owed` clusters. -/
def candidates (s : State) (part owed : Nat) (classes : List CoreClass) : List Place :=
  classes.flatMap fun c => (coresOf s.clk.blend c).flatMap fun k =>
    if c == .v && decide (poolOf s k.die k.quad < owed) then [] else freePlaces s k part

/-- The current thread's departure prepared (R155 steps 2 to 4): its loads ahead are dropped, its stores released at package scope, its class state
spilled; the stand ends when the area faults. -/
def departs (s : State) (toT : Bool) (k : State → Eff) : Eff :=
  (releaseAt (s.onTh fun t => { t with dauAhead := [] }) .pkg false).bind fun s1 =>
    let t := s1.th
    match csaWrite s1 t (spillParts s1 t toT) with
    | (.error e, s2) => .done (csaFault s2 t .store e)
    | (.ok _, s2) => k s2

/-- The current thread off its place: a V-thread gives up its grant (R152) and any re-grant that it awaits there, and its place is freed. -/
def leavePlace (s : State) (run : Run) (toT : Bool) : State :=
  let t := s.th
  let cls := clsOf t
  let s0 := leaseDone s t.tid
  let s1 := match t.place with | some p => freePlace s0 p | none => s0
  s1.onTh fun t => { t with place := none, run := run, owed := if cls = .v then some t.vec.grant else t.owed, vspill := t.vspill || cls == .v
                            tspill := t.tspill || (t.status.fpv && toT && cls != .t) }

/-- A migration of the current thread to the nearest suitable place, the lowest free one of the core chosen (log 79), or into the streamer queue (R155,
R160, R161). A thread in supervisor mode migrates too, and its PRIV bit is 0 once it stands on a V- or T-core (log 80). -/
def startMigration (s : State) (cause : Nat) (classes : List CoreClass) : Eff :=
  match moveRefused s s.th with
  | some r => .trap r s
  | none =>
    let toT := classes.contains .t
    departs s toT fun s1 =>
      let t := s1.th
      let src := t.place.getD ⟨coreOf t, 0⟩
      let part := s1.partOf t.ctx
      let owed := if clsOf t = .v then t.vec.grant else t.owed.getD 0
      match nearest s1.clk.blend src.at_ (candidates s1 part owed classes) with
      | some dst =>
        let s2 := leavePlace s1 (.transit cause src (some dst)) toT
        .done (traceRec s2 s2.th 4 (classIdWord dst).toNat cause s2.clk.time)
      | none =>
        let low := classes.foldl (fun b c => if c.code < b.code then c else b) (classes.headD .c)
        match csaWrite s1 t [(0x300, wordsBytes (portable { t with vspill := t.vspill || clsOf t == .v } cause (clsOf t) low))] with
        | (.error e, s2) => .done (csaFault s2 t .store e)
        | (.ok _, s2) =>
          let s3 := leavePlace s2 (.transit cause src none) toT
          .done { s3 with gl := { s3.gl with streamQ := s3.gl.streamQ ++ [⟨t.tid, part, classes, src, cause⟩] } }

/-- The classes that a migration cause names (R154). -/
def classesFor (cause : Nat) : List CoreClass :=
  match cause with
  | 0x18 => [.v] | 0x19 => [.t] | 0x1A => [.v, .c] | _ => [.c]

/-- The clusters that the current thread gave up granted again when they are free, or awaited in the order of the arbiter's requests (R152, R162). A
thread that is stopped or takes a handler meanwhile still awaits them before it issues. -/
def regrant (s : State) : State :=
  match s.th.owed with
  | none => s
  | some g =>
    let c := coreOf s.th
    let t := s.th.tid
    let s1 := if (leaseOf s t).isSome then s else { s with un := { s.un with leaseQ := s.un.leaseQ ++ [⟨c.die, c.quad, t, g, g, g, 0, true⟩] } }
    let s2 := reserveFree s1 c.die c.quad
    match leaseOf s2 t with
    | some q =>
      if g ≤ q.reserved then
        (leaseDone s2 t).onTh fun t =>
          { t with owed := none, vec := { t.vec with grant := g }, run := if t.run = .parked .regrant then .running else t.run }
      else s2.onTh fun t => { t with run := if t.run = .running then .parked .regrant else t.run }
    | none => s2

/-- Whether a thread awaits the clusters that it gave up: it stands on a V-front without them (R152). -/
def awaitsGrant (t : Thread) : Bool := t.owed.isSome && t.place.isSome && clsOf t == .v

/-- The current thread at its place again (R155 step 7): its class state is restored, its grant asked for, caches are dropped as an acquire at package
scope drops them, and messages held for it are queued (R159). On a V-front a strip starts (R275); on a V- or T-core PRIV is 0 (R141, log 80). -/
def arrive (s : State) (at_ : Place) : State :=
  let s1 := s.onTh fun t => { t with place := some at_, run := .running }
  match restoreClass s1 with
  | (.error e, s2) => csaFault s2 s1.th .load e
  | (.ok _, s2) =>
    let s3 := acquireAt s2 .pkg
    let cls := coreClass at_.at_
    let s4 := s3.onTh fun t => { t with rxq := t.rxq ++ t.held, held := [], mixWin := s.dieCycle at_.at_.die / 65536
                                        status := { t.status with priv := t.status.priv && cls == .c }
                                        vec := if cls = .v then { t.vec with stripCyc := 0 } else t.vec }
    if cls = .v then regrant s4 else s4

/-! The streamer queue. -/

/-- The place for a queued thread (R160, R161): the nearest of those freed in the cycle that it may use, else of all; none while its stand is saved or
being saved (R350), or while it is stopped in the queue or is to be. -/
def queuedPlace (s : State) (q : Queued) : Option Place :=
  let live := match s.stand? q.tid.stand with | some st => decide (st.st = .live) || decide (st.st = .resuming) | none => true
  match s.getThread q.tid with
  | none => none
  | some th =>
    if !live || th.req.stop || decide (th.run = .stopped) then none
    else
      let all := candidates { s with gl := { s.gl with freedNow := [] } } q.part (th.owed.getD 0) q.classes
      let fresh := all.filter fun p => s.gl.freedNow.contains p
      nearest s.clk.blend q.src.at_ (if fresh.isEmpty then all else fresh)

/-- A queued thread streamed to its place, with the class of the place in its portable context (R161); the thread ends with its stand when its area
faults. -/
def streamOn (s : State) (q : Queued) : State :=
  match queuedPlace s q with
  | none => s
  | some dst =>
    { s with gl := { s.gl with streamQ := s.gl.streamQ.erase q } }.asThread q.tid fun u =>
      match u.th.run with
      | .transit cause src none =>
        let head := (portable u.th cause (coreClass src.at_) (coreClass dst.at_)).headD 0
        match csaWrite u u.th [(0x300, leBytes 8 head.toNat)] with
        | (.error e, u1) => csaFault u1 u.th .store e
        | (.ok _, u1) =>
          let u2 := u1.onTh fun th => { th with run := .transit cause src (some dst) }
          traceRec u2 u2.th 4 (classIdWord dst).toNat cause u2.clk.time
      | _ => u

/-- The streamer queues served in arrival order (R161): what happens in a cycle in which contexts have freed. -/
def serveStreams (s : State) : State :=
  let s1 := s.gl.streamQ.foldl streamOn s
  { s1 with gl := { s1.gl with freedNow := [] } }

/-! Saving. -/

/-- The current thread saved (R351): its class state and its portable context are written, and its context is freed. -/
def saveThread (s : State) : State :=
  let t := s.th
  let cls := clsOf t
  let src := t.place.getD ⟨coreOf t, 0⟩
  match csaWrite s t (spillParts s t false ++ [(0x300, wordsBytes (portable { t with vspill := t.vspill || cls == .v } 0 cls cls))]) with
  | (.error e, s1) => csaFault s1 t .store e
  | (.ok _, s1) => leavePlace (s1.onTh fun t => { t with dauAhead := [], req := { t.req with preempt := false } }) (.saved src) false

end Sys2Proof.Machine
end

