-- ==== Sys2Proof/Machine/Ops.lean ====
section
/-! DEFINITION. Taking a trap and returning from one (R333 to R341), the boundary between instructions (R334), and the frame in which every instruction
runs: its class, its features, its chain queues and its outcome (R154, R189, R249, R250). -/

namespace Sys2Proof.Machine

/-! Taking a trap. -/

/-- What an interrupted wait leaves: queued lock requests, lease requests, commands at a full engine, misses that wait and invalidations that have not
completed are withdrawn (R273, R350). -/
def withdraw (s : State) : State :=
  let t := s.th.tid
  { s with xl := { s.xl with missQ := s.xl.missQ.filter fun q => !q.of t none, inv := s.xl.inv.filter fun q => decide (q.tid ≠ t) }
           un := { s.un with engineQ := s.un.engineQ.filter (fun e => decide (e.tid ≠ t)), tiles := s.un.tiles.map fun k => { k with queue := k.queue.filter fun q => decide (q.1 ≠ t) }
                             leaseQ := s.un.leaseQ.filter fun q => decide (q.tid ≠ t) || q.regrant }
           th := { clearLatches s.th with chainIn := none, chainOut := none } }

/-- The record of a trap of the current thread (R336). Its TIME is the stamp of a completion that ended a wait which the trap cuts short, else the pod
time, which for the supervisor's record is that of its writing. -/
def threadRecord (s : State) (r : TrapReq) (nomv recf inh sup : Bool) : List Word :=
  record r (r.tepc.getD s.th.pc) nomv recf inh sup false (r.stamp.getD s.clk.time) s.th.ctx s.th.tid.word (s.th.traps + 1)

/-- TCAUSE, TEPC, TVAL and TMICRO set from a record. -/
def setTrapRegs (t : Thread) (ws : List Word) : Thread :=
  { t with tcause := ws.getD 0 0, tepc := ws.getD 1 0, tval := ws.getD 2 0, tmicro := ws.getD 3 0, traps := t.traps + 1 }

/-- The trap record stored at TSCRATCH (R337): an ordinary committed store of the thread; none when it faults. A block in another package or in
region 10 counts as one that faults (log 24). -/
def storeRecord (s : State) (ws : List Word) : Option State :=
  let va := s.th.tscratch.toNat * 64
  match partsUnder s (threadWalker s s.th) (threadAcc s.th .store false) [(va, 64)] [] with
  | (.ok [.here x v n], s1) =>
    if regionOf x.pa = 2 then none else some (storeHere s1 (knownTo s1.ms s1.th.tid) (activeCtx s1 s1.th) va true false false [.here x v n] (wordsBytes ws))
  | _ => none

/-- The fault of a held command noted as delivered (R130), when a trap is one. -/
def heldDelivered (s : State) (id : Option Nat) : State :=
  match id with
  | some n => markDelivered s n
  | none => s

/-- In-place delivery (R337): none when the record cannot be stored. -/
def deliverInPlace (s : State) (r : TrapReq) : Option State :=
  let ws := threadRecord s r false false false false
  match storeRecord s ws with
  | none => none
  | some s1 =>
    let s2 := (heldDelivered s1 r.heldId).onTh fun t =>
      { setTrapRegs t ws with status := { t.status with hnd := true }, pc := BitVec.ofNat 64 (t.thandler.toNat * 4), run := .running }
    some (traceRec s2 s2.th 2 (ws.getD 0 0).toNat (ws.getD 1 0).toNat s2.clk.time)

/-- A record written to the supervisor's ring, and what follows (R338, R340): the thread ends, or the supervisor's handler runs. The thread waits while
the ring is full. -/
def finishSup (s : State) (p : SupRecord) : State :=
  let part := s.partOf s.th.ctx
  let ws := p.words.set 5 (BitVec.ofNat 64 (p.stamp.getD s.clk.time))
  match svAppend s part ws with
  | none => s.onTh fun t => { t with run := .parked .ring, supPending := some p }
  | some s1 =>
    let s2 := traceRec ((heldDelivered s1 p.heldId).onTh fun t => { t with supPending := none }) s1.th 2 (ws.getD 0 0).toNat (ws.getD 1 0).toNat s1.clk.time
    if p.ends then threadEnds s2 s2.th.tid (.fault (fld (ws.getD 0 0) 7 0)) 3
    else
      let hnd := s2.reg10 (.svhnd part)
      s2.onTh fun t => { setTrapRegs t ws with status := { t.status with priv := true }, pc := BitVec.ofNat 64 (fld hnd 63 2 * 4), run := .running }

/-- What a departure that did not happen left of the state: parked, or as it was. -/
def effState (e : Eff) (s : State) : State :=
  match e with
  | .done s1 => s1
  | .trap _ s1 => s1
  | .park w s1 => s1.onTh fun t => { t with run := .parked w }
  | .refuse _ => s

/-- A migration cause counted toward the classes it names (R331). -/
def countMix (t : Thread) (cause : Nat) : Thread :=
  match cause with
  | 0x18 => { t with mixV := t.mixV + 1 }
  | 0x19 => { t with mixT := t.mixT + 1 }
  | 0x1A => { t with mixV := t.mixV + 1, mixC := t.mixC + 1 }
  | 0x1B => { t with mixC := t.mixC + 1 }
  | _ => t

/-- The supervisor path (R338, R340): a double fault ends the thread; with SVHND.EN = 0 it ends too; a C-thread runs the handler; another moves to a
C-core first, and when the move is refused takes 0x1D in place or ends. The move is an instruction's migration cause (R331). -/
def deliverSup (s : State) (r : TrapReq) (recf : Bool) : State :=
  let part := s.partOf s.th.ctx
  let pend := fun (ends nomv inh : Bool) => (⟨ends, r.heldId, r.stamp, threadRecord s r nomv recf inh true⟩ : SupRecord)
  if s.th.status.hnd then finishSup s (pend true false true)
  else if !bitOf (s.reg10 (.svhnd part)) 0 then finishSup s (pend true false false)
  else if clsOf s.th = .c then finishSup s (pend false false false)
  else
    match moveRefused s s.th with
    | some r1 =>
      let here := if s.th.thandlerEn && !recf then deliverInPlace (s.onTh fun t => countMix t 0x1B) { r1 with tepc := r.tepc.map fun _ => s.th.pc } else none
      match here with
      | some s1 => s1.onTh fun t => { t with mixHnd := 0x1B }
      | none => finishSup s (pend true true false)
    | none =>
      match startMigration (s.onTh fun t => { t with supPending := some (pend false false false) }) 0x1B [.c] with
      | .park w s1 => s1.onTh fun t => { t with run := .parked w, supPending := none }
      | e => (effState e s).onTh fun t => countMix t 0x1B

/-- A retryable cause of the current thread (R347). -/
def deliverRetry (s : State) (r : TrapReq) : State := retryable s s.th.tid.stand r.onFetch r.exclude r (r.tepc.getD s.th.pc)

/-- Delivery of an H or an S cause, or of a double fault (R337, R338, R340). A T-core drains the thread's stores first, and a faulted one takes the
cause's place. -/
def deliverTrap (s : State) (r : TrapReq) : State :=
  let go := fun (s : State) (r : TrapReq) =>
    if r.cause = 0x20 ∨ r.cause = 0x23 ∨ s.th.status.hnd ∨ !s.th.thandlerEn then deliverSup s r false
    else (deliverInPlace s r).getD (deliverSup s r true)
  if clsOf s.th = .t ∧ r.cause ≠ 0x0D then
    match sdrainWait s with
    | .done s1 => go s1 r
    | .trap r1 s1 => if r1.cause = 0x10 ∧ !s1.th.status.hnd then deliverRetry s1 r1 else go s1 { r1 with tepc := none }
    | e => effState e s
  else go s r

/-- The cause that a departure takes instead: a store's, or the refusal's (R155). -/
def deliverInstead (s : State) (r : TrapReq) : State := if r.cause = 0x10 ∧ !s.th.status.hnd then deliverRetry s r else deliverTrap s r

/-- A migration cause performed (R333 kind M), and counted once (R331); a refused one is delivered (R155). -/
def deliverMove (s : State) (cause : Nat) : State :=
  match startMigration s cause (classesFor cause) with
  | .trap r s1 =>
    let s2 := deliverInstead (s1.onTh fun t => countMix t cause) r
    if r.cause = 0x1D && s2.th.status.hnd && !s1.th.status.hnd then s2.onTh fun t => { t with mixHnd := cause } else s2
  | .park w s1 => effState (.park w s1) s
  | e => (effState e s).onTh fun t => countMix t cause

/-- A stand stopped by a feature that its die lacks (R332): its lines are discarded, and Glade places it again. A thread of no stand ends. -/
def deliverMissing (s : State) (r : TrapReq) : State :=
  let miss := if r.vkind = 0 then Missing.feat r.tval.toNat else Missing.clusters r.tval.toNat
  match s.stand? s.th.tid.stand with
  | none => threadEnds s s.th.tid (.fault r.cause) 3
  | some st => (discardLines s st.id).modStand st.id fun q => { q with lack := some miss }

/-- A debug cause (R333 kind D): the thread is Stopped (R361, R370). -/
def deliverStop (s : State) : State := s.onTh fun t => { t with run := .stopped, req := { t.req with stop := false } }

/-- THE taking of a trap by the current thread (R333). In a handler every cause but a migration or a stop point is a double fault (R338). -/
def takeTrap (s0 : State) (r0 : TrapReq) : State :=
  let r := { r0 with stamp := r0.stamp.or s0.th.waitStamp }
  let s := withdraw s0
  match r.cause with
  | 0x18 | 0x19 | 0x1A => deliverMove s r.cause
  | 0x07 => deliverStop s
  | 0x1C => if s.th.status.hnd then deliverTrap s r else deliverMissing s r
  | 0x10 => if s.th.status.hnd then deliverTrap s r else deliverRetry s r
  | 0x11 => if s.th.status.hnd then deliverTrap s r else deliverStop s
  | _ => deliverTrap s r

/-! Returning. -/

/-- THE return from a handler (R238): HND and PRIV are cleared, held commands restart (R131), and the pc is TEPC. The TRET is the handler's last issue (R331). -/
def returnFromTrap (s : State) : State :=
  let s1 := restartHeld s s.th.tid
  s1.onTh fun t => clearLatches { countMix t t.mixHnd with status := { t.status with hnd := false, priv := false }, pc := t.tepc, mixHnd := 0 }

/-! Outcomes. -/

/-- An issue counted: for posted stores (R343) and for the thread's mix (R331). -/
def countIssue (s : State) : State :=
  s.onTh fun t => countMix { t with issues := t.issues + 1, mixN := t.mixN + 1, chainIn := none, chainOut := none } t.mixHnd

/-- The outcome of an instruction word. -/
def settle (e : Eff) : Host.Outcome State Fault Refusal :=
  match e with
  | .done s => .next (countIssue s)
  | .trap r s => .next (takeTrap (countIssue s) r)
  | .park w s => .next (s.onTh fun t => { t with run := .parked w, chainIn := none, chainOut := none })
  | .refuse r => .refused r

/-- An illegal instruction: TVAL holds its bits (R186). -/
def illegalOp (s : State) : Eff := trapOf 0x03 s.th.ibits s

/-- A control transfer's target out of alignment (R188). -/
def badTarget (s : State) (target : Word) : Eff := .trap { cause := 0x03, tval := target, vkind := 1 } s

/-! Issue. -/

/-- What an instruction group needs of its core (R154). -/
inductive Need where
  | any | fp | matrix | vector | priv
  deriving DecidableEq, Repr

/-- The cause that a class lacking a group takes (R154). -/
def needCause (n : Need) (c : CoreClass) : Option Nat :=
  match n, c with
  | .fp, .t => some 0x1A
  | .matrix, .c | .matrix, .v => some 0x19
  | .vector, .c | .vector, .t => some 0x18
  | _, _ => none

/-- The privilege, class and features of an instruction, in the order of R189. -/
def admitted (n : Need) (feats : List Nat) (s : State) (k : State → Eff) : Eff :=
  if n = .priv ∧ !s.th.status.priv then trapOf 0x05 s.th.ibits s
  else
    match needCause n (clsOf s.th) with
    | some c => trapOf c 0 s
    | none =>
      match feats.find? fun f => !s.hasFeat (coreOf s.th).die f with
      | some f => .trap { cause := 0x1C, tval := BitVec.ofNat 64 f } s
      | none => k s

/-- Chain-queue misuse (R250). -/
def chainTrap (reason reg : Nat) (s : State) : Eff := trapOf 0x16 (BitVec.ofNat 64 (reason * 256 + reg)) s

/-- An instruction that misuses a chain queue: the causes that come before 0x16 in the order of R334, and the waits before them, go first; else it takes
0x16 and is not performed. -/
def misused (reason reg : Nat) (s : State) (e : Eff) : Eff :=
  match e with
  | .trap r s1 => if r.cause = 0x10 ∨ r.cause = 0x24 then chainTrap reason reg s else .trap r s1
  | .park .missQueue s1 => .park .missQueue s1
  | .park .stores s1 => .park .stores s1
  | _ => chainTrap reason reg s

/-- The pops and pushes of chain mode around an instruction that names `srcs` and `dsts` (R249, R250): a pop or a push takes effect only when the
instruction completes. `addr` says that an address is formed from the first source. A pop whose upstream thread has ended waits (R251, R407). -/
def chained (addr : Bool) (srcs dsts : List Reg) (s : State) (k : State → Eff) : Eff :=
  match s.th.place with
  | none => k s
  | some p =>
    if !s.th.status.chain then k s
    else
      let up : Place := ⟨{ p.at_ with core := p.at_.core - 1 }, p.slot⟩
      let down : Place := ⟨{ p.at_ with core := p.at_.core + 1 }, p.slot⟩
      let pops := srcs.contains 26
      let pushes := dsts.contains 27
      let inQ := chainItems s up.at_ p.slot
      let badSrc : Option (Nat × Nat) :=
        if srcs.contains 27 then some (2, 27)
        else if pops && decide (p.at_.core = 0) then some (3, 26)
        else if pops && !chainPartner s s.th.tid.stand up && !chainEnded s s.th.tid.stand up then some (4, 26)
        else none
      let badDst : Option (Nat × Nat) :=
        if dsts.contains 26 then some (1, 26)
        else if pushes && decide (3 ≤ p.at_.core) then some (3, 27)
        else if pushes && !chainPartner s s.th.tid.stand down then some (4, 27)
        else none
      let run := fun (s1 : State) =>
        match badDst with
        | some (why, reg) => misused why reg s (k s1)
        | none =>
          if pushes && decide (8 ≤ (chainItems s p.at_ p.slot).length) then .park .chainPush s
          else
            match k s1 with
            | .done s2 =>
              let s3 := if pops then setChain s2 up.at_ p.slot (inQ.drop 1) else s2
              .done (match pushes, s2.th.chainOut with
                | true, some w => setChain s3 p.at_ p.slot (chainItems s3 p.at_ p.slot ++ [w])
                | _, _ => s3)
            | e => e
      match badSrc with
      | some (why, reg) => if addr && decide (srcs.head? = some (BitVec.ofNat 5 reg)) then chainTrap why reg s else misused why reg s (k s)
      | none =>
        match pops, inQ with
        | true, [] => .park .chainPop s
        | true, w :: _ => run (s.onTh fun t => { t with chainIn := some w })
        | false, _ => run s

/-- The frame of an instruction: what it needs, the x registers it reads and writes, and what it does. -/
def issue (n : Need) (feats : List Nat) (srcs dsts : List Reg) (s : State) (k : State → Eff) : Eff :=
  admitted n feats s fun s1 => chained false srcs dsts s1 k

/-- The frame of an instruction that forms an address from the first x register it reads. -/
def issueAt (n : Need) (feats : List Nat) (srcs dsts : List Reg) (s : State) (k : State → Eff) : Eff :=
  admitted n feats s fun s1 => chained true srcs dsts s1 k

/-! The boundary (R334). -/

/-- Item 1: the stop point at the next pc that fires before the instruction issues (R361). Points with an element are judged by the vector forms;
`whole` says that the next instruction is not element-restartable. -/
def stopPointAt (s : State) (whole : Bool) : Option StopPoint :=
  (s.session s.th.tid).bind fun e => e.points.find? fun p => decide (p.pc = s.th.pc) && !p.passed && (decide (p.element = 0xFFFF) || whole)

/-- A stop point of the current thread marked as fired in this issue, so that it does not fire again before it completes. -/
def passPoint (s : State) (p : StopPoint) : State :=
  s.modSession s.th.tid fun e => { e with points := e.points.map fun q => if q = p then { p with passed := true } else q }

/-- Stop points ready to fire again, once the instruction is over: one at the pc of a thread that moves to another core has fired in this issue
already. -/
def rearmPoints (s : State) : State :=
  s.modSession s.th.tid fun e => { e with points := e.points.map fun p => if p.pc = s.th.pc ∧ s.th.run ≠ .running then p else { p with passed := false } }

/-- A stop point fired (R361). -/
def firePoint (s : State) (p : StopPoint) : State := takeTrap (passPoint s p) { cause := 0x07 }

/-- Item 2: the faulted posted store that is due (R344). -/
def dueStoreFault (s : State) : Option StoreFault :=
  (storeFaultOf s s.th.tid).bind fun f => if f.now ∨ f.issue + 16 ≤ s.th.issues then some f else none

/-- A faulted posted store taken. -/
def takeStoreFault (s : State) (f : StoreFault) : State :=
  match storeFaultTrap s f with
  | .trap r s1 => takeTrap s1 r
  | _ => s

/-- Item 3: the held copy-command fault that is delivered here (R130). -/
def dueHeld (s : State) : Option (Cmd × HeldFault) :=
  if s.th.status.hnd then none
  else (heldOf s s.th.tid fun _ => true).bind fun c => c.held.map fun h => (c, h)

/-- A held fault taken (R130). -/
def takeHeld (s : State) (c : Cmd) (h : HeldFault) : State := takeTrap s (heldTrap c h)

/-- Whether the instruction in progress has made a request to another package that may have taken effect: it goes on to its end. -/
def midRequest (t : Thread) : Bool := t.pod.any fun p => match p.op with | .load _ | .probe .. => false | _ => true

/-- Whether the current thread may be pre-empted or stopped now (R350, R309): a TMMA waits for its operand reads, a collective for its result. -/
def stoppable (t : Thread) : Bool :=
  !midRequest t &&
  match t.run with
  | .running => true
  | .parked w => (match w with | .arrayRead _ | .collective .. | .ring => false | _ => true)
  | _ => false

/-- A stop in a microcoded instruction at the pc, of `micro` micro-steps after its checks (R353): TEPC names it, TMICRO the micro-step, and MIC is 1 in
TCAUSE. The micro-step is the one in which the instruction waits, `at_`, or else a free value, of which 0 is before the instruction (log 81). -/
def stopMicro (s : State) (at_ micro : Nat) : State :=
  if micro = 0 then s
  else
    let (w, s1) := if at_ = 0 then s.takeFree else (0, s)
    let k := if at_ = 0 then w.toNat % (micro + 1) else at_
    if k = 0 then s1 else s1.onTh fun t => { t with tepc := t.pc, tmicro := BitVec.ofNat 64 k, tcause := t.tcause ||| 0x800 }

/-- Item 4: a pre-emption, gang-switch or budget request, or a debug stop, taken (R350, R360). On a T-core a faulted posted store goes first, and the
request stays pending. `micro` as in `stopMicro`. -/
def takePreempt (s : State) (micro : Nat) : State :=
  let s0 := stopMicro (withdraw s) s.th.micro micro
  let save := fun (s1 : State) => if s1.th.req.stop then deliverStop s1 else standSaved (saveThread s1) s1.th.tid.stand
  if clsOf s0.th = .t then
    match sdrainWait s0 with
    | .done s1 => save s1
    | .trap r s1 => takeTrap s1 r
    | e => effState e s0
  else save s0

/-- Item 5: the ring index of a supervisor interrupt for the current thread (R341). -/
def dueSupInt (s : State) : Option Nat :=
  let t := s.th
  let part := s.partOf t.ctx
  if clsOf t = .c ∧ !t.status.priv ∧ !t.status.hnd ∧ fld (s.reg10 (.svidx part)) 63 32 = t.tid.word then look s.gl.raised part else none

/-- A supervisor interrupt taken: raised once for several reports (R341). -/
def takeSupInt (s : State) (at_ : Nat) : State :=
  let part := s.partOf s.th.ctx
  takeTrap { s with gl := { s.gl with raised := unassoc s.gl.raised part } } { cause := 0x23, tval := BitVec.ofNat 64 at_ }

/-- The scheduler's migration of a thread on its measured mix (R331). -/
def takeMix (s : State) (c : CoreClass) : State :=
  let s1 := (withdraw s).onTh fun t => { t with req := { t.req with mixTo := none } }
  if s1.th.status.nomig || clsOf s1.th == c then s1
  else
    match startMigration s1 0 [c] with
    | .trap r s2 => deliverInstead s2 r
    | e => effState e s1

/-- The posted stores of the current thread that must be resolved before its next issue (R343). -/
def dueResolve (s : State) : List Posted := s.ms.posted.filter fun p => decide (p.tid = s.th.tid) && decide (p.issue + 16 ≤ s.th.issues)

/-- The first item of R334 before the next instruction's own causes that applies to the current thread, taken; none when it may issue. `whole` as in
`stopPointAt`, `micro` as in `stopMicro`. -/
def boundary (s : State) (whole : Bool) (micro : Nat) : Option State :=
  if midRequest s.th then none
  else
    match stopPointAt s whole with
    | some p => some (firePoint s p)
    | none =>
      match dueStoreFault s with
      | some f => some (takeStoreFault s f)
      | none =>
        match dueHeld s with
        | some (c, h) => some (takeHeld s c h)
        | none =>
          if s.th.req.preempt || s.th.req.stop then some (takePreempt s micro)
          else
            match dueSupInt s with
            | some n => some (takeSupInt s n)
            | none =>
              match s.th.req.mixTo with
              | some c => some (takeMix s c)
              | none => none

end Sys2Proof.Machine
end

