-- ==== Sys2Proof/Machine/Operands.lean ====
section
/-! DEFINITION. Operand forms: immediates (R190), the rounding of an instruction (R171, R176), floating-point registers (R219), the elements of vector
registers (R158, R270) and the loop over a vector instruction's elements (R271, R272, R278, R361). -/

namespace Sys2Proof.Machine

/-- A 12-bit immediate, sign-extended. -/
def sext12 (imm : BitVec 12) : Word := imm.signExtend 64

/-- The low 32 bits of a word, sign-extended: the result of a 32-bit operation (R215). -/
def sextW (w : Word) : Word := (w.truncate 32).signExtend 64

/-- An n-bit number sign-extended to a word. -/
def sextN (n v : Nat) : Word := BitVec.ofInt 64 (toSigned n v)

/-- The offset of a branch, whose bit 0 its field leaves out. -/
def branchOff (off : BitVec 12) : Word := (off ++ 0#1).signExtend 64

/-- The offset of JAL. -/
def jumpOff (off : BitVec 20) : Word := (off ++ 0#1).signExtend 64

/-- The upper immediate of LUI and AUIPC. -/
def upperImm (imm : BitVec 20) : Word := (imm ++ 0#12).signExtend 64

/-! Shifts by an amount of 0 to 255 (R185), at a width of w bits. -/

/-- A left shift. -/
def shiftLeft (w a k : Nat) : Nat := if w ≤ k then 0 else a * 2 ^ k % 2 ^ w

/-- A logical right shift. -/
def shiftRight (w a k : Nat) : Nat := if w ≤ k then 0 else a / 2 ^ k

/-- An arithmetic right shift. -/
def shiftArith (w a k : Nat) : Nat := ofSigned w (toSigned w a / 2 ^ min k w)

/-- An integer clamped to w bits of two's complement. -/
def clampS (w : Nat) (i : Int) : Nat := ofSigned w (max (-2 ^ (w - 1)) (min (2 ^ (w - 1) - 1) i))

/-- An integer clamped to w bits, unsigned. -/
def clampU (w : Nat) (i : Int) : Nat := (max 0 (min (2 ^ w - 1) i)).toNat

/-- A signed saturating left shift. -/
def shiftSat (w a k : Nat) : Nat := clampS w (toSigned w a * 2 ^ k)

/-! Rounding. -/

/-- The mode in force (R171): the instruction's field, a prefix's, then RNDMODE. -/
def effRm (t : Thread) (own : Rm) : Rm :=
  let prefixed := match t.pfx with | some p => p.rm | none => .dyn
  let f := if prefixed = .dyn then own else prefixed
  if f = .dyn then t.rndmode else f

/-- The effective saturation bit (R171). -/
def effSat (t : Thread) (own : Bool) : Bool := own || (match t.pfx with | some p => p.sat | none => false)

/-- The rounding of element `idx` (R171, R176). -/
def roundingOf (t : Thread) (own : Rm) (sat : Bool) (idx : Nat) : Rounding := ⟨effRm t own, effSat t sat, t.dsrseed, idx⟩

/-- The flags of an instruction accrued, unless its prefix suppresses them (R171, R173). -/
def accrueOp (t : Thread) (fl : FpFlags) : Thread :=
  match t.pfx with
  | some p => if p.nf then t else accrue t fl
  | none => accrue t fl

/-! Floating-point registers (R219). -/

/-- The binary format of fmt. -/
def binFmt : FpFmt → BinFmt
  | .f32 => fp32
  | .f64 => fp64

/-- An f register's bits read in a format: an FP32 operand that is not in a FP32 write's form reads as the canonical NaN. -/
def fpBits (fmt : FpFmt) (w : Word) : Nat :=
  match fmt with
  | .f64 => w.toNat
  | .f32 => if w.toNat / 2 ^ 32 = 0xFFFFFFFF then w.toNat % 2 ^ 32 else fp32.canonicalNan

/-- The word of an FP write. -/
def fpWord (fmt : FpFmt) (bits : Nat) : Word :=
  match fmt with
  | .f64 => BitVec.ofNat 64 bits
  | .f32 => BitVec.ofNat 64 (0xFFFFFFFF * 2 ^ 32 + bits % 2 ^ 32)

/-- An f register's value in a format. -/
def fpOperand (t : Thread) (fmt : FpFmt) (r : Reg) : Val := (binFmt fmt).value (fpBits fmt (readF t r))

/-! Vector registers. -/

/-- The lanes of a thread: L (R270). -/
def lanesOfThread (t : Thread) : Nat := 8 * t.vec.grant

/-- SEW in bits. -/
def sewBits (t : Thread) : Nat := t.vec.sew.bits

/-- VLMAX (R270). -/
def vlmaxOf (t : Thread) : Nat := lanesOfThread t * 1024 / sewBits t

/-- The place of element i of width w in a register's image at L lanes (R158, R270). -/
def elemOffset (l w i : Nat) : Nat := (i / l * w / 64 * l + i % l) * 8 + i / l * w % 64 / 8

/-- Element i of a register image. -/
def VReg.elem (v : VReg) (l w i : Nat) : Nat := cellRead v.bytes (elemOffset l w i) (w / 8)

/-- A register image with element i written, its tag raised (R158). -/
def VReg.setElem (v : VReg) (l w i x : Nat) : VReg :=
  let at_ := elemOffset l w i
  { bytes := cellWrite v.bytes at_ (w / 8) x, d := true, vd := max v.vd (at_ / 8 + 1) }

/-- v[r].e[i]. -/
def getElem (t : Thread) (r : Reg) (i : Nat) : Nat := (readV t r).elem (lanesOfThread t) (sewBits t) i

/-- v[r].e[i] := x. -/
def putElem (t : Thread) (r : Reg) (i x : Nat) : Thread := writeV t r ((readV t r).setElem (lanesOfThread t) (sewBits t) i x)

/-- Whether an element is active under a mask bit M (R271). -/
def activeElem (t : Thread) (m : Bool) (i : Nat) : Bool := !m || (getElem t 0 i).testBit 0

/-- The active elements of a range, in order. -/
def activeIn (t : Thread) (m : Bool) (lo hi : Nat) : List Nat := (List.range' lo (hi - lo)).filter fun i => activeElem t m i

/-- VEIDX := n. -/
def setVeidx (s : State) (n : Nat) : State := s.onTh fun t => { t with vec := { t.vec with veidx := n } }

/-- src1 of an integer form at SEW bits (R280); a shift takes its immediate zero-extended. -/
def vsrcElem (t : Thread) (src : VSrc) (shift : Bool) (i : Nat) : Nat :=
  match src with
  | .vec v => getElem t v i
  | .xreg x => (readX t x).toNat % 2 ^ sewBits t
  | .imm k => if shift then k.toNat else ofSigned (sewBits t) k.toInt

/-- The x registers that src1 reads. -/
def vsrcRegs : VSrc → List Reg
  | .xreg x => [x]
  | _ => []

/-- The native format of SEW (R283). -/
def nativeFmt (t : Thread) : Option FpFmt :=
  match t.vec.sew with
  | .e32 => some .f32
  | .e64 => some .f64
  | _ => none

/-- src1 of an FP form in the native format, as bits. -/
def fsrcElem (t : Thread) (fmt : FpFmt) (src : FSrc) (i : Nat) : Nat :=
  match src with
  | .vec v => getElem t v i
  | .freg f => fpBits fmt (readF t f)

/-! The frame of a vector instruction. -/

/-- The matrix-mode conflict of a write to v16 to v31 (R298): the lowest such register among the destinations. -/
def vconflict (t : Thread) (dests : List Reg) : Option Nat :=
  if !t.status.mm then none
  else
    match (dests.filter fun r => decide (16 ≤ r.toNat)).map (·.toNat) with
    | [] => none
    | a :: l => some (l.foldl min a)

/-- The checks of R272 in order: the vector registers written, whether SEW suits the form, and whether VEIDX must be 0 (R290). -/
def vchecked (dests : List Reg) (widthOk whole : Bool) (s : State) (k : State → Eff) : Eff :=
  match vconflict s.th dests with
  | some r => trapOf 0x12 (BitVec.ofNat 64 (0x100 + r)) s
  | none =>
    if !widthOk then illegalOp s
    else if whole && decide (s.th.vec.veidx ≠ 0) then illegalOp s
    else k s

/-- A vector instruction that touches the x registers given, with its checks. -/
def vissue (feats : List Nat) (xsrcs xdsts dests : List Reg) (widthOk whole : Bool) (s : State) (k : State → Eff) : Eff :=
  issue .vector feats xsrcs xdsts s fun s1 => vchecked dests widthOk whole s1 k

/-- A vector instruction that forms addresses from the first of the x registers given. -/
def vissueAt (feats : List Nat) (xsrcs dests : List Reg) (widthOk whole : Bool) (s : State) (k : State → Eff) : Eff :=
  issueAt .vector feats xsrcs [] s fun s1 => vchecked dests widthOk whole s1 k

/-- A trap or a stop inside a microcoded instruction (R353): MIC and the micro-step. -/
def inMicro (step : Nat) (e : Eff) : Eff :=
  match e with
  | .trap r s => .trap (if r.cause = 0x0D ∨ r.cause = 0x07 then r else { r with mic := true, tmicro := BitVec.ofNat 64 step }) s
  | e => e

/-- The stop point that stops the instruction at the pc (R361): the one of least E from VEIDX on and below VL that has not fired. -/
def stopElem (s : State) : Option StopPoint :=
  let here := fun (p : StopPoint) => decide (p.pc = s.th.pc) && !p.passed && decide (p.element ≠ 0xFFFF) && decide (s.th.vec.veidx ≤ p.element) &&
    decide (p.element < s.th.vec.vl)
  match s.session s.th.tid with
  | none => none
  | some e =>
    match e.points.filter here with
    | [] => none
    | a :: l => some (l.foldl (fun b c => if c.element < b.element then c else b) a)

/-- Whether a thread that is to be pre-empted or stopped has waited in an element for another package: it stops before the next one (R350). -/
def elemStop (t : Thread) : Bool := midRequest t && (t.req.preempt || t.req.stop)

/-- The elements of a list performed in turn; a trap or a wait leaves VEIDX at its element (R278). -/
def elemLoop (step : State → Nat → Eff) : List Nat → State → Eff
  | [], s => .done s
  | i :: rest, s =>
    match step s i with
    | .done s1 =>
      (match rest with
      | [] => .done s1
      | j :: _ => if elemStop s.th then .park .stores (setVeidx s1 j) else elemLoop step rest s1)
    | .trap r s1 => .trap { r with veidx := some i } (setVeidx s1 i)
    | .park w s1 => .park w (setVeidx s1 i)
    | .refuse r => .refuse r

/-- An element-restartable instruction (R271, R290): its active elements from VEIDX to VL − 1, or up to a stop point's element. -/
def overElems (m : Bool) (step : State → Nat → Eff) (s : State) : Eff :=
  let t := s.th
  match stopElem s with
  | none => (elemLoop step (activeIn t m t.vec.veidx t.vec.vl) s).bind fun s1 => finishOp 4 (setVeidx s1 0)
  | some p =>
    (elemLoop step (activeIn t m t.vec.veidx p.element) s).bind fun s1 => .trap { cause := 0x07 } (passPoint (setVeidx s1 p.element) p)

/-- An elementwise form (R271): each active element of vd is given a value and its flags accrue. -/
def elementwise (m : Bool) (vd : Reg) (f : Thread → Nat → Nat × FpFlags) (s : State) : Eff :=
  overElems m (fun s i => let (x, fl) := f s.th i; .done (s.onTh fun t => putElem (accrueOp t fl) vd i x)) s

/-- A completing instruction (R290): VEIDX := 0. -/
def completing (f : State → State) (s : State) : Eff := finishOp 4 (setVeidx (f s) 0)

end Sys2Proof.Machine
end

