-- ==== Sys2Proof/Machine/Scalar.lean ====
section
/-! DEFINITION. The base instructions (R215, R216), the scalar bit operations (R217) and LIW (R218). -/

namespace Sys2Proof.Machine

/-! Shared forms. -/

/-- An instruction that writes to x[rd] a value of x[rs1]. -/
def op1 (rd rs1 : Reg) (f : Word → Word) (s : State) : Host.Outcome State Fault Refusal :=
  settle (issue .any [] [rs1] [rd] s fun s => finishOp 4 (s.wx rd (f (s.rx rs1))))

/-- An instruction that writes to x[rd] a value of x[rs1] and x[rs2]. -/
def op2 (rd rs1 rs2 : Reg) (f : Word → Word → Word) (s : State) : Host.Outcome State Fault Refusal :=
  settle (issue .any [] [rs1, rs2] [rd] s fun s => finishOp 4 (s.wx rd (f (s.rx rs1) (s.rx rs2))))

/-- A 32-bit operation (R215): of the low words, its result sign-extended. -/
def on32 (f : BitVec 32 → BitVec 32 → BitVec 32) (a b : Word) : Word := (f (a.truncate 32) (b.truncate 32)).signExtend 64

/-- Control transferred to an address (R188, R216): `link` happens only when the target is aligned. -/
def jumpTo (target : Word) (link : State → State) (s : State) : Eff :=
  if target.toNat % 4 ≠ 0 then badTarget s target
  else .done ((link s).onTh fun t => clearLatches { t with pc := target })

/-- A conditional branch. -/
def branchIf (rs1 rs2 : Reg) (off : BitVec 12) (c : Word → Word → Bool) (s : State) : Host.Outcome State Fault Refusal :=
  settle (issue .any [] [rs1, rs2] [] s fun s =>
    if c (s.rx rs1) (s.rx rs2) then jumpTo (s.th.pc + branchOff off) id s else finishOp 4 s)

/-- The address of a base load or store. -/
def baseAddr (s : State) (rs1 : Reg) (imm : BitVec 12) : Nat := (s.rx rs1 + sext12 imm).toNat

/-- A load of n bytes into x[rd], extended by `ext` (R215, R216). -/
def loadTo (rd rs1 : Reg) (imm : BitVec 12) (n : Nat) (ext : Nat → Word) (s : State) : Host.Outcome State Fault Refusal :=
  settle (issueAt .any [] [rs1] [rd] s fun s =>
    (threadLoad s (baseAddr s rs1 imm) n (plainAt .pkg)).andThen fun v s1 => finishOp 4 (s1.wx rd (ext v)))

/-- A store of the low n bytes of x[rs2] (R215, R216). -/
def storeFrom (rs2 rs1 : Reg) (imm : BitVec 12) (n : Nat) (s : State) : Host.Outcome State Fault Refusal :=
  settle (issueAt .any [] [rs1, rs2] [] s fun s =>
    (threadStore s (baseAddr s rs1 imm) (leBytes n (s.rx rs2).toNat) false).bind fun s1 => finishOp 4 s1)

/-- A 0 or 1 as a word. -/
def flagWord (b : Bool) : Word := if b then 1 else 0

/-! Arithmetic. -/

/-- The quotient of a signed division (R216). -/
def divS {n : Nat} (a b : BitVec n) : BitVec n := if b = 0 then BitVec.allOnes n else a.sdiv b

/-- The quotient of an unsigned division. -/
def divU {n : Nat} (a b : BitVec n) : BitVec n := if b = 0 then BitVec.allOnes n else a.udiv b

/-- The remainder of a signed division. -/
def remS {n : Nat} (a b : BitVec n) : BitVec n := if b = 0 then a else a.srem b

/-- The remainder of an unsigned division. -/
def remU {n : Nat} (a b : BitVec n) : BitVec n := if b = 0 then a else a.umod b

/-- The upper 64 bits of a product. -/
def mulHigh (a b : Int) : Word := BitVec.ofInt 64 (a * b / 2 ^ 64)

/-- The number of leading zeros. -/
def leadingZeros (w : Word) : Nat := 64 - bitLen w.toNat

/-- The number of trailing zeros, below bit n. -/
def trailingZeros (w : Word) : Nat := ((List.range 64).find? fun k => w.getLsbD k).getD 64

/-- The number of 1 bits. -/
def popCount (w : Word) : Nat := ((List.range 64).filter fun k => w.getLsbD k).length

/-- The bytes in reverse order. -/
def byteReverse (w : Word) : Word := BitVec.ofNat 64 (leNat (leBytes 8 w.toNat).reverse)

/-! The meanings. -/

/-- LUI (R215). -/
def execLui (rd : Reg) (imm : BitVec 20) (s : State) : Host.Outcome State Fault Refusal :=
  settle (issue .any [] [] [rd] s fun s => finishOp 4 (s.wx rd (upperImm imm)))

/-- AUIPC (R215). -/
def execAuipc (rd : Reg) (imm : BitVec 20) (s : State) : Host.Outcome State Fault Refusal :=
  settle (issue .any [] [] [rd] s fun s => finishOp 4 (s.wx rd (s.th.pc + upperImm imm)))

/-- JAL (R215). -/
def execJal (rd : Reg) (off : BitVec 20) (s : State) : Host.Outcome State Fault Refusal :=
  settle (issue .any [] [] [rd] s fun s => jumpTo (s.th.pc + jumpOff off) (fun u => u.wx rd (s.th.pc + 4)) s)

/-- JALR (R215): bit 0 of the target is cleared. -/
def execJalr (rd rs1 : Reg) (imm : BitVec 12) (s : State) : Host.Outcome State Fault Refusal :=
  settle (issueAt .any [] [rs1] [rd] s fun s => jumpTo ((s.rx rs1 + sext12 imm) &&& ~~~1#64) (fun u => u.wx rd (s.th.pc + 4)) s)

/-- BEQ (R215). -/
def execBeq (rs1 rs2 : Reg) (off : BitVec 12) (s : State) : Host.Outcome State Fault Refusal :=
  branchIf rs1 rs2 off (fun a b => a == b) s

/-- BNE (R215). -/
def execBne (rs1 rs2 : Reg) (off : BitVec 12) (s : State) : Host.Outcome State Fault Refusal :=
  branchIf rs1 rs2 off (fun a b => a != b) s

/-- BLT (R215). -/
def execBlt (rs1 rs2 : Reg) (off : BitVec 12) (s : State) : Host.Outcome State Fault Refusal :=
  branchIf rs1 rs2 off (fun a b => a.slt b) s

/-- BGE (R215). -/
def execBge (rs1 rs2 : Reg) (off : BitVec 12) (s : State) : Host.Outcome State Fault Refusal :=
  branchIf rs1 rs2 off (fun a b => !a.slt b) s

/-- BLTU (R215). -/
def execBltu (rs1 rs2 : Reg) (off : BitVec 12) (s : State) : Host.Outcome State Fault Refusal :=
  branchIf rs1 rs2 off (fun a b => a.ult b) s

/-- BGEU (R215). -/
def execBgeu (rs1 rs2 : Reg) (off : BitVec 12) (s : State) : Host.Outcome State Fault Refusal :=
  branchIf rs1 rs2 off (fun a b => !a.ult b) s

/-- LB (R215). -/
def execLb (rd rs1 : Reg) (imm : BitVec 12) (s : State) : Host.Outcome State Fault Refusal :=
  loadTo rd rs1 imm 1 (sextN 8) s

/-- LH (R215). -/
def execLh (rd rs1 : Reg) (imm : BitVec 12) (s : State) : Host.Outcome State Fault Refusal :=
  loadTo rd rs1 imm 2 (sextN 16) s

/-- LW (R215). -/
def execLw (rd rs1 : Reg) (imm : BitVec 12) (s : State) : Host.Outcome State Fault Refusal :=
  loadTo rd rs1 imm 4 (sextN 32) s

/-- LD (R215). -/
def execLd (rd rs1 : Reg) (imm : BitVec 12) (s : State) : Host.Outcome State Fault Refusal :=
  loadTo rd rs1 imm 8 (BitVec.ofNat 64) s

/-- LBU (R215). -/
def execLbu (rd rs1 : Reg) (imm : BitVec 12) (s : State) : Host.Outcome State Fault Refusal :=
  loadTo rd rs1 imm 1 (BitVec.ofNat 64) s

/-- LHU (R215). -/
def execLhu (rd rs1 : Reg) (imm : BitVec 12) (s : State) : Host.Outcome State Fault Refusal :=
  loadTo rd rs1 imm 2 (BitVec.ofNat 64) s

/-- LWU (R215). -/
def execLwu (rd rs1 : Reg) (imm : BitVec 12) (s : State) : Host.Outcome State Fault Refusal :=
  loadTo rd rs1 imm 4 (BitVec.ofNat 64) s

/-- SB (R215). -/
def execSb (rs2 rs1 : Reg) (imm : BitVec 12) (s : State) : Host.Outcome State Fault Refusal :=
  storeFrom rs2 rs1 imm 1 s

/-- SH (R215). -/
def execSh (rs2 rs1 : Reg) (imm : BitVec 12) (s : State) : Host.Outcome State Fault Refusal :=
  storeFrom rs2 rs1 imm 2 s

/-- SW (R215). -/
def execSw (rs2 rs1 : Reg) (imm : BitVec 12) (s : State) : Host.Outcome State Fault Refusal :=
  storeFrom rs2 rs1 imm 4 s

/-- SD (R215). -/
def execSd (rs2 rs1 : Reg) (imm : BitVec 12) (s : State) : Host.Outcome State Fault Refusal :=
  storeFrom rs2 rs1 imm 8 s

/-- ADDI (R215). -/
def execAddi (rd rs1 : Reg) (imm : BitVec 12) (s : State) : Host.Outcome State Fault Refusal :=
  op1 rd rs1 (fun a => a + sext12 imm) s

/-- SLTI (R215). -/
def execSlti (rd rs1 : Reg) (imm : BitVec 12) (s : State) : Host.Outcome State Fault Refusal :=
  op1 rd rs1 (fun a => flagWord (a.slt (sext12 imm))) s

/-- SLTIU (R215). -/
def execSltiu (rd rs1 : Reg) (imm : BitVec 12) (s : State) : Host.Outcome State Fault Refusal :=
  op1 rd rs1 (fun a => flagWord (a.ult (sext12 imm))) s

/-- XORI (R215). -/
def execXori (rd rs1 : Reg) (imm : BitVec 12) (s : State) : Host.Outcome State Fault Refusal :=
  op1 rd rs1 (fun a => a ^^^ sext12 imm) s

/-- ORI (R215). -/
def execOri (rd rs1 : Reg) (imm : BitVec 12) (s : State) : Host.Outcome State Fault Refusal :=
  op1 rd rs1 (fun a => a ||| sext12 imm) s

/-- ANDI (R215). -/
def execAndi (rd rs1 : Reg) (imm : BitVec 12) (s : State) : Host.Outcome State Fault Refusal :=
  op1 rd rs1 (fun a => a &&& sext12 imm) s

/-- SLLI (R215). -/
def execSlli (rd rs1 : Reg) (sh : BitVec 6) (s : State) : Host.Outcome State Fault Refusal :=
  op1 rd rs1 (fun a => a <<< sh.toNat) s

/-- SRLI (R215). -/
def execSrli (rd rs1 : Reg) (sh : BitVec 6) (s : State) : Host.Outcome State Fault Refusal :=
  op1 rd rs1 (fun a => a >>> sh.toNat) s

/-- SRAI (R215). -/
def execSrai (rd rs1 : Reg) (sh : BitVec 6) (s : State) : Host.Outcome State Fault Refusal :=
  op1 rd rs1 (fun a => a.sshiftRight sh.toNat) s

/-- ADD (R215). -/
def execAdd (rd rs1 rs2 : Reg) (s : State) : Host.Outcome State Fault Refusal :=
  op2 rd rs1 rs2 (fun a b => a + b) s

/-- SLL (R215). -/
def execSll (rd rs1 rs2 : Reg) (s : State) : Host.Outcome State Fault Refusal :=
  op2 rd rs1 rs2 (fun a b => a <<< (b.toNat % 64)) s

/-- SLT (R215). -/
def execSlt (rd rs1 rs2 : Reg) (s : State) : Host.Outcome State Fault Refusal :=
  op2 rd rs1 rs2 (fun a b => flagWord (a.slt b)) s

/-- SLTU (R215). -/
def execSltu (rd rs1 rs2 : Reg) (s : State) : Host.Outcome State Fault Refusal :=
  op2 rd rs1 rs2 (fun a b => flagWord (a.ult b)) s

/-- XOR (R215). -/
def execXor (rd rs1 rs2 : Reg) (s : State) : Host.Outcome State Fault Refusal :=
  op2 rd rs1 rs2 (fun a b => a ^^^ b) s

/-- SRL (R215). -/
def execSrl (rd rs1 rs2 : Reg) (s : State) : Host.Outcome State Fault Refusal :=
  op2 rd rs1 rs2 (fun a b => a >>> (b.toNat % 64)) s

/-- OR (R215). -/
def execOr (rd rs1 rs2 : Reg) (s : State) : Host.Outcome State Fault Refusal :=
  op2 rd rs1 rs2 (fun a b => a ||| b) s

/-- AND (R215). -/
def execAnd (rd rs1 rs2 : Reg) (s : State) : Host.Outcome State Fault Refusal :=
  op2 rd rs1 rs2 (fun a b => a &&& b) s

/-- SUB (R215). -/
def execSub (rd rs1 rs2 : Reg) (s : State) : Host.Outcome State Fault Refusal :=
  op2 rd rs1 rs2 (fun a b => a - b) s

/-- SRA (R215). -/
def execSra (rd rs1 rs2 : Reg) (s : State) : Host.Outcome State Fault Refusal :=
  op2 rd rs1 rs2 (fun a b => a.sshiftRight (b.toNat % 64)) s

/-- MUL (R215). -/
def execMul (rd rs1 rs2 : Reg) (s : State) : Host.Outcome State Fault Refusal :=
  op2 rd rs1 rs2 (fun a b => a * b) s

/-- MULH (R215). -/
def execMulh (rd rs1 rs2 : Reg) (s : State) : Host.Outcome State Fault Refusal :=
  op2 rd rs1 rs2 (fun a b => mulHigh a.toInt b.toInt) s

/-- MULHSU (R215). -/
def execMulhsu (rd rs1 rs2 : Reg) (s : State) : Host.Outcome State Fault Refusal :=
  op2 rd rs1 rs2 (fun a b => mulHigh a.toInt (b.toNat : Int)) s

/-- MULHU (R215). -/
def execMulhu (rd rs1 rs2 : Reg) (s : State) : Host.Outcome State Fault Refusal :=
  op2 rd rs1 rs2 (fun a b => mulHigh (a.toNat : Int) (b.toNat : Int)) s

/-- DIV (R216). -/
def execDiv (rd rs1 rs2 : Reg) (s : State) : Host.Outcome State Fault Refusal :=
  op2 rd rs1 rs2 (fun a b => divS a b) s

/-- DIVU (R216). -/
def execDivu (rd rs1 rs2 : Reg) (s : State) : Host.Outcome State Fault Refusal :=
  op2 rd rs1 rs2 (fun a b => divU a b) s

/-- REM (R216). -/
def execRem (rd rs1 rs2 : Reg) (s : State) : Host.Outcome State Fault Refusal :=
  op2 rd rs1 rs2 (fun a b => remS a b) s

/-- REMU (R216). -/
def execRemu (rd rs1 rs2 : Reg) (s : State) : Host.Outcome State Fault Refusal :=
  op2 rd rs1 rs2 (fun a b => remU a b) s

/-- ADDIW (R215). -/
def execAddiw (rd rs1 : Reg) (imm : BitVec 12) (s : State) : Host.Outcome State Fault Refusal :=
  op1 rd rs1 (fun a => sextW (a + sext12 imm)) s

/-- SLLIW (R215). -/
def execSlliw (rd rs1 : Reg) (sh : BitVec 5) (s : State) : Host.Outcome State Fault Refusal :=
  op1 rd rs1 (fun a => on32 (fun x _ => x <<< sh.toNat) a 0) s

/-- SRLIW (R215). -/
def execSrliw (rd rs1 : Reg) (sh : BitVec 5) (s : State) : Host.Outcome State Fault Refusal :=
  op1 rd rs1 (fun a => on32 (fun x _ => x >>> sh.toNat) a 0) s

/-- SRAIW (R215). -/
def execSraiw (rd rs1 : Reg) (sh : BitVec 5) (s : State) : Host.Outcome State Fault Refusal :=
  op1 rd rs1 (fun a => on32 (fun x _ => x.sshiftRight sh.toNat) a 0) s

/-- ADDW (R215). -/
def execAddw (rd rs1 rs2 : Reg) (s : State) : Host.Outcome State Fault Refusal :=
  op2 rd rs1 rs2 (on32 fun x y => x + y) s

/-- SLLW (R215). -/
def execSllw (rd rs1 rs2 : Reg) (s : State) : Host.Outcome State Fault Refusal :=
  op2 rd rs1 rs2 (on32 fun x y => x <<< (y.toNat % 32)) s

/-- SRLW (R215). -/
def execSrlw (rd rs1 rs2 : Reg) (s : State) : Host.Outcome State Fault Refusal :=
  op2 rd rs1 rs2 (on32 fun x y => x >>> (y.toNat % 32)) s

/-- SUBW (R215). -/
def execSubw (rd rs1 rs2 : Reg) (s : State) : Host.Outcome State Fault Refusal :=
  op2 rd rs1 rs2 (on32 fun x y => x - y) s

/-- SRAW (R215). -/
def execSraw (rd rs1 rs2 : Reg) (s : State) : Host.Outcome State Fault Refusal :=
  op2 rd rs1 rs2 (on32 fun x y => x.sshiftRight (y.toNat % 32)) s

/-- MULW (R215). -/
def execMulw (rd rs1 rs2 : Reg) (s : State) : Host.Outcome State Fault Refusal :=
  op2 rd rs1 rs2 (on32 fun x y => x * y) s

/-- DIVW (R216). -/
def execDivw (rd rs1 rs2 : Reg) (s : State) : Host.Outcome State Fault Refusal :=
  op2 rd rs1 rs2 (on32 fun x y => divS x y) s

/-- DIVUW (R216). -/
def execDivuw (rd rs1 rs2 : Reg) (s : State) : Host.Outcome State Fault Refusal :=
  op2 rd rs1 rs2 (on32 fun x y => divU x y) s

/-- REMW (R216). -/
def execRemw (rd rs1 rs2 : Reg) (s : State) : Host.Outcome State Fault Refusal :=
  op2 rd rs1 rs2 (on32 fun x y => remS x y) s

/-- REMUW (R216). -/
def execRemuw (rd rs1 rs2 : Reg) (s : State) : Host.Outcome State Fault Refusal :=
  op2 rd rs1 rs2 (on32 fun x y => remU x y) s

/-- ANDN (R217). -/
def execAndn (rd rs1 rs2 : Reg) (s : State) : Host.Outcome State Fault Refusal :=
  op2 rd rs1 rs2 (fun a b => a &&& ~~~b) s

/-- ROL (R217). -/
def execRol (rd rs1 rs2 : Reg) (s : State) : Host.Outcome State Fault Refusal :=
  op2 rd rs1 rs2 (fun a b => a.rotateLeft (b.toNat % 64)) s

/-- CLZ (R217). -/
def execClz (rd rs1 : Reg) (s : State) : Host.Outcome State Fault Refusal :=
  op1 rd rs1 (fun a => BitVec.ofNat 64 (leadingZeros a)) s

/-- CTZ (R217). -/
def execCtz (rd rs1 : Reg) (s : State) : Host.Outcome State Fault Refusal :=
  op1 rd rs1 (fun a => BitVec.ofNat 64 (trailingZeros a)) s

/-- CPOP (R217). -/
def execCpop (rd rs1 : Reg) (s : State) : Host.Outcome State Fault Refusal :=
  op1 rd rs1 (fun a => BitVec.ofNat 64 (popCount a)) s

/-- ROR (R217). -/
def execRor (rd rs1 rs2 : Reg) (s : State) : Host.Outcome State Fault Refusal :=
  op2 rd rs1 rs2 (fun a b => a.rotateRight (b.toNat % 64)) s

/-- REV8 (R217). -/
def execRev8 (rd rs1 : Reg) (s : State) : Host.Outcome State Fault Refusal :=
  op1 rd rs1 byteReverse s

/-- BEXT (R217). -/
def execBext (rd rs1 rs2 : Reg) (s : State) : Host.Outcome State Fault Refusal :=
  op2 rd rs1 rs2 (fun a b => flagWord (a.getLsbD (b.toNat % 64))) s

/-- BEXTI (R217). -/
def execBexti (rd rs1 : Reg) (sh : BitVec 6) (s : State) : Host.Outcome State Fault Refusal :=
  op1 rd rs1 (fun a => flagWord (a.getLsbD sh.toNat)) s

/-- RORI (R217). -/
def execRori (rd rs1 : Reg) (sh : BitVec 6) (s : State) : Host.Outcome State Fault Refusal :=
  op1 rd rs1 (fun a => a.rotateRight sh.toNat) s

/-- LIW (R218). -/
def execLiw (rd : Reg) (imm : BitVec 49) (s : State) : Host.Outcome State Fault Refusal :=
  settle (issue .any [] [] [rd] s fun s => finishOp 8 (s.wx rd (imm.signExtend 64)))

end Sys2Proof.Machine
end

