-- ==== Sys2Proof/Machine/Atomics.lean ====
section
/-! DEFINITION. Atomics (R225, R226). -/

namespace Sys2Proof.Machine

/-- The operations of a read-modify-write, by their codes (R225). -/
inductive Amo where
  | swap | add | and | or | xor | min | max | minu | maxu | cas | fadd
  deriving DecidableEq, Repr

/-- The code of an operation (R225). -/
def Amo.code : Amo → Nat
  | .swap => 2 | .add => 3 | .and => 4 | .or => 5 | .xor => 6 | .min => 7 | .max => 8 | .minu => 9 | .maxu => 10 | .cas => 11 | .fadd => 12

/-- The operation of a code; the others name none. -/
def Amo.ofCode : Nat → Option Amo
  | 2 => some .swap | 3 => some .add | 4 => some .and | 5 => some .or | 6 => some .xor | 7 => some .min | 8 => some .max | 9 => some .minu
  | 10 => some .maxu | 11 => some .cas | 12 => some .fadd | _ => none

/-- What an operation on n bytes writes (R226); none for an AMOCAS that fails to store. -/
def amoNew (op : Amo) (n src cmp old : Nat) : Option Nat :=
  let s := toSigned (8 * n)
  match op with
  | .swap => some src
  | .add => some ((old + src) % 2 ^ (8 * n))
  | .and => some (Nat.land old src)
  | .or => some (Nat.lor old src)
  | .xor => some (Nat.xor old src)
  | .min => some (if s src < s old then src else old)
  | .max => some (if s old < s src then src else old)
  | .minu => some (Nat.min old src)
  | .maxu => some (Nat.max old src)
  | .cas => if old = cmp then some src else none
  | .fadd => let f := if n = 4 then fp32 else fp64; some (finish f rne (fpAdd .rne (f.value old) (f.value src))).1

/-- The size in bytes. -/
def atSize (dw : Bool) : Nat := if dw then 8 else 4

/-- Whether an ordering holds a release. -/
def MemOrd.isRl : MemOrd → Bool
  | .rl | .aqrl => true
  | _ => false

/-- Whether an ordering holds an acquire. -/
def MemOrd.isAq : MemOrd → Bool
  | .aq | .aqrl => true
  | _ => false

/-- How a read-modify-write of an ordering is made at a scope. -/
def amoHow (ord : MemOrd) (scope : Scope) : AccessHow :=
  { plainAt scope with aq := Sys2Proof.Machine.MemOrd.isAq ord, rl := Sys2Proof.Machine.MemOrd.isRl ord }

/-- A read-modify-write (R226): the release half, the operation at the home, the acquire half, and x[rd] := the old value, which record mode logs. A
divergence from the log leaves nothing performed at another package (R370). -/
def amo (op : Amo) (dw : Bool) (ord : MemOrd) (scope : Scope) (rd rs2 rs1 : Reg) (s : State) : Host.Outcome State Fault Refusal :=
  settle (issueAt .any [] (if op = .cas then [rs1, rs2, rd] else [rs1, rs2]) [rd] s fun s =>
    let n := atSize dw
    let va := (s.rx rs1).toNat
    let src := (s.rx rs2).toNat % 2 ^ (8 * n)
    let cmp := (s.rx rd).toNat % 2 ^ (8 * n)
    let asLogged := fun (s1 : State) =>
      match replayInput s 1 n.log2 va with
      | .stop e => e
      | .ok _ _ => (replayInput s1 1 n.log2 va).andThen fun _ s2 => .done s2
    (threadAtomic s va n (amoHow ord scope) op.code src cmp (amoNew op n src cmp) asLogged).andThen fun old s1 =>
      let s2 := if Sys2Proof.Machine.MemOrd.isAq ord then acquireAt s1 scope else s1
      loggedValue s s2 1 n.log2 va (sextN (8 * n) old).toNat fun v s3 => finishOp 4 (s3.wx rd (BitVec.ofNat 64 v)))

/-- LDA (R226): an acquire. -/
def execLda (dw : Bool) (scope : Scope) (rd rs1 : Reg) (s : State) : Host.Outcome State Fault Refusal :=
  settle (issueAt .any [] [rs1] [rd] s fun s =>
    let n := atSize dw
    let va := (s.rx rs1).toNat
    if va % n ≠ 0 then trapOf 0x0C (BitVec.ofNat 64 va) s
    else (threadLoad s va n { plainAt scope with aq := true }).andThen fun v s1 => finishOp 4 ((acquireAt s1 scope).wx rd (sextN (8 * n) v)))

/-- STL (R226): a release. -/
def execStl (dw : Bool) (scope : Scope) (rs2 rs1 : Reg) (s : State) : Host.Outcome State Fault Refusal :=
  settle (issueAt .any [] [rs1, rs2] [] s fun s =>
    (threadRelease s (s.rx rs1).toNat (atSize dw) scope (leBytes (atSize dw) (s.rx rs2).toNat)).bind fun s1 => finishOp 4 s1)

/-- AMOSWAP (R226). -/
def execAmoswap (dw : Bool) (ord : MemOrd) (scope : Scope) (rd rs2 rs1 : Reg) (s : State) : Host.Outcome State Fault Refusal :=
  amo .swap dw ord scope rd rs2 rs1 s

/-- AMOADD (R226). -/
def execAmoadd (dw : Bool) (ord : MemOrd) (scope : Scope) (rd rs2 rs1 : Reg) (s : State) : Host.Outcome State Fault Refusal :=
  amo .add dw ord scope rd rs2 rs1 s

/-- AMOAND (R226). -/
def execAmoand (dw : Bool) (ord : MemOrd) (scope : Scope) (rd rs2 rs1 : Reg) (s : State) : Host.Outcome State Fault Refusal :=
  amo .and dw ord scope rd rs2 rs1 s

/-- AMOOR (R226). -/
def execAmoor (dw : Bool) (ord : MemOrd) (scope : Scope) (rd rs2 rs1 : Reg) (s : State) : Host.Outcome State Fault Refusal :=
  amo .or dw ord scope rd rs2 rs1 s

/-- AMOXOR (R226). -/
def execAmoxor (dw : Bool) (ord : MemOrd) (scope : Scope) (rd rs2 rs1 : Reg) (s : State) : Host.Outcome State Fault Refusal :=
  amo .xor dw ord scope rd rs2 rs1 s

/-- AMOMIN (R226). -/
def execAmomin (dw : Bool) (ord : MemOrd) (scope : Scope) (rd rs2 rs1 : Reg) (s : State) : Host.Outcome State Fault Refusal :=
  amo .min dw ord scope rd rs2 rs1 s

/-- AMOMAX (R226). -/
def execAmomax (dw : Bool) (ord : MemOrd) (scope : Scope) (rd rs2 rs1 : Reg) (s : State) : Host.Outcome State Fault Refusal :=
  amo .max dw ord scope rd rs2 rs1 s

/-- AMOMINU (R226). -/
def execAmominu (dw : Bool) (ord : MemOrd) (scope : Scope) (rd rs2 rs1 : Reg) (s : State) : Host.Outcome State Fault Refusal :=
  amo .minu dw ord scope rd rs2 rs1 s

/-- AMOMAXU (R226). -/
def execAmomaxu (dw : Bool) (ord : MemOrd) (scope : Scope) (rd rs2 rs1 : Reg) (s : State) : Host.Outcome State Fault Refusal :=
  amo .maxu dw ord scope rd rs2 rs1 s

/-- AMOCAS (R226). -/
def execAmocas (dw : Bool) (ord : MemOrd) (scope : Scope) (rd rs2 rs1 : Reg) (s : State) : Host.Outcome State Fault Refusal :=
  amo .cas dw ord scope rd rs2 rs1 s

/-- AMOFADD (R226). -/
def execAmofadd (dw : Bool) (ord : MemOrd) (scope : Scope) (rd rs2 rs1 : Reg) (s : State) : Host.Outcome State Fault Refusal :=
  amo .fadd dw ord scope rd rs2 rs1 s

end Sys2Proof.Machine
end

