-- ==== Sys2Proof/Machine/Sync.lean ====
section
/-! DEFINITION. Synchronisation: fences (R227), barriers (R228 to R230), SDRAIN (R231), timelines (R232) and messages (R233, R234). -/

namespace Sys2Proof.Machine

/-! Fences. -/

/-- The acquire half of a fence (R101, R227). -/
def fenceIn (s : State) (scope : Scope) : State := acquireAt { s with ms := fenceAcquire s.ms (rmwBy s s.th scope) } scope

/-- FENCE (R227): a fence of any kind finds a faulted posted store first (R99, R344). -/
def execFence (ord : FenceOrd) (scope : Scope) (s : State) : Host.Outcome State Fault Refusal :=
  settle (issue .any [] [] [] s fun s =>
    (if ord = .acq then drainPosted s else (releaseAt s scope true).bind fun s1 => .done (releaseNote s1 scope .fence)).bind fun s1 =>
      finishOp 4 (if ord = .rel then s1 else fenceIn s1 scope))

/-- SDRAIN (R231). -/
def execSdrain (s : State) : Host.Outcome State Fault Refusal := settle (issue .any [] [] [] s fun s => (sdrainWait s).bind fun s1 => finishOp 4 s1)

/-! Barriers. -/

/-- The namespace of a barrier that the current thread names (R228). -/
def barSpace (s : State) (scope : Scope) : Space :=
  let t := s.th
  match scope with
  | .lane => .thread t.tid
  | .core => .core t.tid.stand (coreOf t)
  | .quad => .quad t.tid.stand
  | .die => .die t.ctx (coreOf t).die
  | .pkg => .pkg t.ctx
  | .pod => .pod (jobidOf s t.ctx)

/-- The barrier of a key; a new one is at episode 0 (R228). -/
def State.barrier (s : State) (k : BarKey) : Barrier := (s.un.barriers.find? fun b => decide (b.key = k)).getD ⟨k, 0, none, 0, [], 0, none⟩

/-- A barrier set. -/
def State.setBarrier (s : State) (b : Barrier) : State :=
  { s with un := { s.un with barriers := b :: s.un.barriers.filter fun c => decide (c.key ≠ b.key) } }

/-- The threads of a stand: those that live, and those that a SPAWN has made and that have not started (R233). -/
def standCount (s : State) (id : Nat) : Nat := (standThreads s id).length + (s.gl.spawns.filter fun q => decide (q.tid.stand = id)).length

/-- The trap of an abandoned episode (R230). -/
def abandonTrap (k : BarKey) (episode : Nat) : TrapReq :=
  { cause := 0x24, tval := BitVec.ofNat 64 (episode % 2 ^ 48 * 2 ^ 16 + k.scope.code * 2 ^ 8 + k.num), vkind := 1 }

/-- The member count that an arrival gives (R229): 1 at lane scope, else x[rs1][15:0], or the stand's threads for x[rs1] = 0. A low half of 0
in a nonzero word is 0 members, and such an arrival completes its episode (log 87). -/
def memberCount (s : State) (scope : Scope) (v : Word) : Nat :=
  if scope = .lane then 1 else if v = 0 then standCount s s.th.tid.stand else fld v 15 0

/-- An arrival at the open episode (R229 steps 4 and 6). -/
def arriveAt (b : Barrier) (n now : Nat) (t : Tid) : Barrier :=
  if b.count + 1 < n then { b with n := some n, count := b.count + 1, arrived := b.arrived ++ [t], lastNs := now }
  else { b with ep := b.ep + 1, n := none, count := 0, arrived := [], lastNs := now }

/-- BARRIVE (R229, R230): a thread that missed the remembered abandoned episode takes 0x24 while that episode's lack lasts. -/
def execBarrive (scope : Scope) (rd : Reg) (num : BitVec 6) (rs1 : Reg) (s : State) : Host.Outcome State Fault Refusal :=
  settle (issue .any [] [rs1] [rd] s fun s =>
    (releaseAt s scope true).bind fun s1 =>
      let k : BarKey := ⟨barSpace s1 scope, scope, num.toNat⟩
      let b := s1.barrier k
      let t := s1.th.tid
      let n := memberCount s1 scope (s1.rx rs1)
      let arrive :=
        if b.arrived.contains t then .park (.rearrive k b.ep) s1
        else if b.n.isSome && b.n != some n then illegalOp s1
        else finishOp 4 (((releaseNote s1 scope (.barrier k b.ep)).setBarrier (arriveAt b n s1.clk.time t)).wx rd (BitVec.ofNat 64 b.ep))
      match b.abandoned with
      | some a =>
        if !a.arrived.contains t && decide (0 < a.lack) then
          .trap (abandonTrap k a.episode) (s1.setBarrier { b with abandoned := some { a with lack := a.lack - 1 } })
        else arrive
      | none => arrive)

/-- BARWAIT (R230): the departure is an acquire. -/
def execBarwait (scope : Scope) (num : BitVec 6) (rs1 : Reg) (s : State) : Host.Outcome State Fault Refusal :=
  settle (issue .any [] [rs1] [] s fun s =>
    let k : BarKey := ⟨barSpace s scope, scope, num.toNat⟩
    let b := s.barrier k
    let e := (s.rx rs1).toNat
    if b.abandoned.any fun a => decide (a.episode = e) then .trap (abandonTrap k e) s
    else if b.ep ≤ e then .park (.barrier k e) s
    else finishOp 4 (acquireAt (acquireNote s scope fun c => c.arrived k e) scope))

/-! Timelines. -/

/-- The held command of the current thread on a counter, of the lowest number, that has not been delivered (R130, R232). -/
def heldOn (s : State) (k : TlKey) : Option (Cmd × HeldFault) :=
  (heldOf s s.th.tid fun c => decide (c.key = k)).bind fun c => c.held.map fun h => (c, h)

/-- TLWAIT (R124, R232): record mode logs the value, and replay mode waits for the logged one (R369). -/
def execTlwait (rd : Reg) (tl : Tl) (rs1 : Reg) (s : State) : Host.Outcome State Fault Refusal :=
  settle (issue .any [] [rs1] [rd] s fun s =>
    (findTl s tl).andThen fun k s1 =>
      match heldOn s1 k with
      | some (c, h) => .trap (heldTrap c h) s1
      | none =>
        (replayInput s1 6 0 tl.toNat).andThen fun logged s2 =>
          let need := logged.getD (s2.rx rs1).toNat
          let val := (s2.tl k).val
          if val < need then .park (.timeline k need) s2
          else
            let v := logged.getD val
            let scope := tlScope tl.toNat
            finishOp 4 ((noteInput (acquireAt (acquireNote s2 scope fun c => c.counted k v) scope) 6 0 tl.toNat v).wx rd (BitVec.ofNat 64 v)))

/-- TLREAD (R232): neither an acquire nor a release; an acquire fence may follow it (R101 case 7). -/
def execTlread (rd : Reg) (tl : Tl) (s : State) : Host.Outcome State Fault Refusal :=
  settle (issue .any [] [] [rd] s fun s =>
    (findTl s tl).andThen fun k s1 =>
      (replayInput s1 6 0 tl.toNat).andThen fun logged s2 =>
        let val := (s2.tl k).val
        if val < logged.getD 0 then .park (.timeline k (logged.getD 0)) s2
        else
          let v := logged.getD val
          let s3 := { s2 with ms := hear s2.ms s2.th.tid fun c => c.counted k v }
          finishOp 4 ((noteInput s3 6 0 tl.toNat v).wx rd (BitVec.ofNat 64 v)))

/-- TLREAD.t (R232): STAMP. -/
def execTlreadT (rd : Reg) (tl : Tl) (s : State) : Host.Outcome State Fault Refusal :=
  settle (issue .any [] [] [rd] s fun s => (findTl s tl).andThen fun k s1 => finishOp 4 (s1.wx rd (BitVec.ofNat 64 (s1.tl k).stamp)))

/-! Messages. -/

/-- The number of messages that a thread's queue holds or has been promised: in the queue, held for it, and on their way (R159, R233). -/
def queuedFor (s : State) (t : Thread) : Nat :=
  t.rxq.length + t.held.length + (s.gl.flights.filter fun f => decide (f.to_ = t.tid)).length

/-- The live thread that a DEST names (R142, R233). -/
def threadOfWord (s : State) (w : Nat) : Option Thread := s.threads.find? fun t => decide (t.tid.word = w) && decide (t.run ≠ .ended)

/-- The core that a SPAWN's DEST names (R142, R233). -/
def spawnCore (w : Nat) : CoreId := ⟨bitsAt w 17 5, bitsAt w 10 7, bitsAt w 8 2⟩

/-- The lowest index of a stand that no live thread holds, nor one about to start (R233). -/
def freeIndex (s : State) (stand : Nat) : Option Nat :=
  (List.range 64).find? fun k => !((standThreads s stand).any fun t => decide (t.tid.index = k)) &&
    !(s.gl.spawns.any fun q => decide (q.tid = ⟨stand, k⟩))

/-- The most threads of a stand on a quad of a class (R138). -/
def quadLimit : CoreClass → Nat
  | .c => 8
  | .v => 16
  | .t => 64

/-- The lowest free place of a core for a thread of a stand that is there already. -/
def spawnPlace (s : State) (c : CoreId) (part : Nat) : Option Place :=
  if !coreExists s.clk.blend c || s.un.out.contains c || (coreClass c != .v && decide (ownerOf s c ≠ part)) then none
  else ((List.range (slotsOf (coreClass c))).map fun k => (⟨c, k⟩ : Place)).find? fun p => !placeHeld s p && !s.gl.freedNow.contains p

/-- What a SPAWN comes to (R233): its status, and on 0 the start that is to be made. -/
def spawnOn (s : State) (dest : Nat) (entry : Word) : Nat × State :=
  let t := s.th
  let c := spawnCore dest
  match s.stand? t.tid.stand with
  | none => (2, s)
  | some st =>
    let n := standCount s st.id
    let slots := match s.job? st.packet.job with | some j => j.slots | none => 64
    if c.die ≠ st.die ∨ c.quad ≠ st.quad ∨ 64 ≤ n ∨ quadLimit (classOfDie st.die) ≤ n then (2, s)
    else
      match freeIndex s st.id with
      | none => (2, s)
      | some ix =>
        if slots ≤ ix then (2, s)
        else
          match spawnPlace s c st.part with
          | none => (1, { s with gl := { s.gl with refused := s.gl.refused ++ [(c, t.tid)] } })
          | some p =>
            let q : SpawnReq := { tid := ⟨st.id, ix⟩, place := p, entry := entry, sender := t.tid, count := n + 1
                                  csa := st.packet.csa + BitVec.ofNat 64 (ix * 0x101000), know := knownTo s.ms t.tid }
            (0, { s with gl := { s.gl with spawns := s.gl.spawns ++ [q] } })

/-- The status of a send to a thread (R233). -/
def sendStatus (s : State) (dest : Nat) : Nat :=
  match threadOfWord s dest with
  | none => 2
  | some r => if s.partOf r.ctx ≠ s.partOf s.th.ctx then 2 else if 16 ≤ queuedFor s r then 1 else 0

/-- Whether the current thread's job is stopped by a gang switch (R352). -/
def gangStopped (s : State) : Bool :=
  match (s.stand? s.th.tid.stand).bind fun st => s.job? st.packet.job with
  | some j => j.gang
  | none => false

/-- MSEND (R233): an accepted send is a release at package scope, which publishes the task when the receiver is of another (R83); its job's gang switch
stops it first (R352). -/
def execMsend (rd rs1 rs2 : Reg) (s : State) : Host.Outcome State Fault Refusal :=
  settle (issue .any [] [rs1, rs2] [rd] s fun s =>
    let w := (s.rx rs1).toNat
    let dest := w % 2 ^ 32
    let spawn := w.testBit 63
    if gangStopped s then .park .gang s
    else
      let status := if spawn then (spawnOn s dest (s.rx rs2)).1 else sendStatus s dest
      let other := !spawn && (match threadOfWord s dest with | some r => decide (r.tid.stand ≠ s.th.tid.stand) | none => false)
      (if status = 0 then releaseAt s .pkg other else .done s).bind fun s1 =>
        let s2 :=
          if spawn then (spawnOn s1 dest (s1.rx rs2)).2
          else if status = 0 then
            match threadOfWord s1 dest with
            | some r => { s1 with gl := { s1.gl with flights := s1.gl.flights ++ [⟨r.tid, ⟨s1.rx rs2, s1.th.tid, knownTo s1.ms s1.th.tid⟩⟩] } }
            | none => s1
          else s1
        let s3 := if status = 0 then s2.onTh fun t => { t with sendsOut := t.sendsOut + 1 } else s2
        loggedValue s s3 4 0 0 status fun v s4 => finishOp 4 (s4.wx rd (BitVec.ofNat 64 v)))

/-- The limit of a wait of `n` cycles from now; 0 is no limit (R234, R237). -/
def waitLimit (s : State) (n : Nat) : Option Nat := if n = 0 then none else some (s.dieCycle (coreOf s.th).die + n)

/-- A message taken from the queue (R234): what happened before its sending happens before what follows (R101 case 9). -/
def takeMessage (s : State) (m : Message) : State :=
  { s with th := { s.th with rxq := s.th.rxq.erase m }, ms := learn s.ms s.th.tid m.know }

/-- x[rd] and x[rt] of MWAITF, logged as a payload and a sender (R234, R367). -/
def endMwaitf (rd rt : Reg) (payload sender : Word) (s : State) : Eff :=
  let s1 := noteInput (noteInput s 2 0 0 payload.toNat) 3 0 0 sender.toNat
  finishOp 4 ((s1.wx rd payload).wx rt sender)

/-- The sender's word that MWAITF returns. -/
def senderWord (m : Message) : Word := BitVec.ofNat 64 (2 ^ 63 + if m.sender = noSender then 0xFFFFFFFF else m.sender.word)

/-- MWAITF (R234): the receipt is an acquire; in replay mode it takes the oldest message of the logged sender (R369). -/
def execMwaitf (rd rt rs1 : Reg) (s : State) : Host.Outcome State Fault Refusal :=
  settle (issue .any [] [rs1] [rd, rt] s fun s =>
    (replayInput s 2 0 0).andThen fun logged s1 =>
      (if logged.isSome then replayAt s1 1 3 0 0 else .ok none s1).andThen fun from_ s2 =>
        let limit := waitLimit s2 (s2.rx rs1).toNat
        let oldest := match from_ with
          | none => s2.th.rxq.head?
          | some w => if w = 0 then none else s2.th.rxq.find? fun m => decide ((senderWord m).toNat = w)
        if s2.th.expired then endMwaitf rd rt 0 0 s2
        else
          match oldest with
          | some m => endMwaitf rd rt m.payload (senderWord m) (acquireAt (takeMessage s2 m) .pkg)
          | none => .park (.mwaitf (if from_.any fun w => decide (w ≠ 0) then none else limit)) s2)

end Sys2Proof.Machine
end

