-- ==== Sys2Proof/Machine/SysRegs.lean ====
section
/-! DEFINITION. System registers: their classes and accesses (R195, R196), their reading and writing (R135, R136, R141, R142, R148, R172, R173, R241,
R260, R262, R268, R269, R293, R335, R364). -/

namespace Sys2Proof.Machine

/-- The cause that a class without a register takes (R195, R196). -/
def sregCause (r : SReg) (c : CoreClass) : Option Nat :=
  match r with
  | .vcfg | .vl | .veidx | .lease | .mshape | .stripbase => if c = .v then none else some 0x18
  | .tileshape | .h _ => if c = .t then none else some 0x19
  | .fflags => if c = .t then some 0x1A else none
  | _ => none

/-- Whether a whole register is read only (R195). -/
def sregReadOnly : SReg → Bool
  | .vl | .lease | .mshape | .tileshape | .time | .cycle | .threadid | .classid | .diefeat => true
  | _ => false

/-- Whether reading a register is a nondeterministic input (R367 kind 7). -/
def sregLogged : SReg → Bool
  | .time | .cycle | .classid | .lease => true
  | _ => false

/-- The value of an h register of a core that a read at a cycle sees (R148): that of the latest write issued eight cycles before it or earlier. -/
def hValue (s : State) (c : CoreId) (r : BitVec 3) (now : Nat) : Word :=
  let seen := s.un.hregs.filter fun w => decide (w.core = c) && decide (w.reg = r) && decide (w.cycle + 8 ≤ now)
  match seen.foldl (fun b w => match b with | none => some w | some x => if x.cycle ≤ w.cycle then some w else b) (none : Option HWrite) with
  | some w => w.value
  | none => 0

/-- A write of an h register issued (R148); a write of the same register that no read can see any more is forgotten. -/
def hWrite (s : State) (c : CoreId) (r : BitVec 3) (now : Nat) (v : Word) : State :=
  let later := fun (w : HWrite) => s.un.hregs.any fun x => decide (x.core = c) && decide (x.reg = r) && decide (w.cycle < x.cycle) && decide (x.cycle + 8 ≤ now)
  let kept := s.un.hregs.filter fun w => !(decide (w.core = c) && decide (w.reg = r) && later w)
  { s with un := { s.un with hregs := kept ++ [⟨c, r, now, v⟩] } }

/-- A system register of a thread, as SRRD reads it. -/
def readSys (s : State) (t : Thread) (r : SReg) : Word :=
  let c := coreOf t
  match r with
  | .status => t.status.word
  | .thandler => thandlerWord t
  | .tscratch => tscratchWord t
  | .tcause => t.tcause
  | .tepc => t.tepc
  | .tval => t.tval
  | .tmicro => t.tmicro
  | .rndmode => BitVec.ofNat 64 t.rndmode.code
  | .fflags => t.fflags.zeroExtend 64
  | .dsrseed => t.dsrseed.zeroExtend 64
  | .fmta => BitVec.ofNat 64 t.fmta.code
  | .fmtb => BitVec.ofNat 64 t.fmtb.code
  | .scla => t.scla.word
  | .sclb => t.sclb.word
  | .vcfg => vcfgWord t
  | .vl => BitVec.ofNat 64 t.vec.vl
  | .veidx => BitVec.ofNat 64 t.vec.veidx
  | .lease => leaseWord t.vec (poolOf s c.die c.quad)
  | .mshape => mshapeWord t.vec
  | .stripbase => stripBaseWord t.vec
  | .tileshape => BitVec.ofNat 64 (64 * 2 ^ 16 + 64)
  | .time => BitVec.ofNat 64 s.clk.time
  | .cycle => BitVec.ofNat 64 (s.dieCycle c.die)
  | .threadid => BitVec.ofNat 64 t.tid.word
  | .classid => (match t.place with | some p => classIdWord p | none => 0)
  | .diefeat => s.dieFeat c.die
  | .profctl => t.profctl
  | .h n => hValue s c n (s.dieCycle c.die)

/-- The rejection of a value written to a register, if its map rejects it (R141, R262, R268). A reserved format code in a shadow write is cause 0x03, as
R262 has it beside R163 (log 76). -/
def sysReject (s : State) (r : SReg) (v : Word) : Option TrapReq :=
  let t := s.th
  match r with
  | .status => if bitOf v 2 && clsOf t != .t then some { cause := 0x16, tval := 0x0500 } else none
  | .fmta | .fmtb => if 13 ≤ fld v 3 0 then some { cause := 0x03, tval := t.ibits } else none
  | .vcfg =>
    if 6 ≤ fld v 4 2 ∨ 32 < fld v 13 8 ∨ 32 < fld v 21 16 ∨ fld v 21 16 < fld v 13 8 then some { cause := 0x03, tval := t.ibits }
    else if t.status.mm ∧ (fld v 1 0 ≠ t.vec.sew.code ∨ fld v 13 8 ≠ t.vec.lmin ∨ fld v 21 16 ≠ t.vec.lpref) then some { cause := 0x12, tval := 0x0200 }
    else none
  | _ => none

/-- VCFG written: a change of SEW sets VL to 0 (R268). -/
def writeVcfg (v : VecState) (w : Word) : VecState :=
  let sew := Ew.ofCode (fld w 1 0)
  { v with sew := sew, scope := (scopeOfCode (fld w 4 2)).getD .lane, lmin := fld w 13 8, lpref := fld w 21 16, vl := if sew = v.sew then v.vl else 0 }

/-- A system register of the current thread written with a value that its map does not reject: its writable fields change. -/
def sysWrite (s : State) (r : SReg) (v : Word) : State :=
  let t := s.th
  match r with
  | .status => s.onTh fun t => { t with status := { t.status with nomig := bitOf v 5, chain := bitOf v 2 } }
  | .thandler => s.onTh fun t => { t with thandler := v.extractLsb' 2 62, thandlerEn := bitOf v 0 }
  | .tscratch => s.onTh fun t => { t with tscratch := v.extractLsb' 6 58 }
  | .tcause => s.onTh fun t => { t with tcause := v }
  | .tepc => s.onTh fun t => { t with tepc := v }
  | .tval => s.onTh fun t => { t with tval := v }
  | .tmicro => s.onTh fun t => { t with tmicro := v }
  | .rndmode => s.onTh fun t => { t with rndmode := if fld v 2 0 = 0 then .rne else Rm.ofCode (fld v 2 0) }
  | .fflags => s.onTh fun t => { t with fflags := v.extractLsb' 0 5, status := { t.status with fpv := true } }
  | .dsrseed => s.onTh fun t => { t with dsrseed := v.extractLsb' 0 32 }
  | .fmta => s.onTh fun t => { t with fmta := (Fmt.ofCode (fld v 3 0)).getD t.fmta }
  | .fmtb => s.onTh fun t => { t with fmtb := (Fmt.ofCode (fld v 3 0)).getD t.fmtb }
  | .scla => s.onTh fun t => { t with scla := ScaleShadow.ofNat (fld v 8 0) }
  | .sclb => s.onTh fun t => { t with sclb := ScaleShadow.ofNat (fld v 8 0) }
  | .vcfg => s.onTh fun t => { t with vec := writeVcfg t.vec v }
  | .veidx => s.onTh fun t => { t with vec := { t.vec with veidx := fld v 15 0 } }
  | .stripbase =>
    s.onTh fun t => { t with vec := { t.vec with stripBase := v.extractLsb' 12 52, stripIdx := v.extractLsb' 5 7, stripEn := bitOf v 0 } }
  | .profctl => s.onTh fun t => { t with profctl := v &&& 0x1F1F }
  | .h n => hWrite s (coreOf t) n (s.dieCycle (coreOf t).die) v
  | .vl | .lease | .mshape | .tileshape | .time | .cycle | .threadid | .classid | .diefeat => s

/-- A system-register instruction (R196, R241): `writes` says whether it writes, and `new` combines the old value with x[rs1]. -/
def sysOp (rd : Reg) (r : SReg) (rs1 : Reg) (writes : Bool) (new : Word → Word → Word) (s : State) : Host.Outcome State Fault Refusal :=
  settle (admitted .any [] s fun s =>
    match sregCause r (clsOf s.th) with
    | some c => trapOf c 0 s
    | none =>
      if writes && sregReadOnly r then illegalOp s
      else chained false [rs1] [rd] s fun s =>
        let old := readSys s s.th r
        let v := new old (s.rx rs1)
        match (if writes then sysReject s r v else none) with
        | some t => .trap t s
        | none =>
          let fin := fun (x : Word) (s1 : State) => finishOp 4 (if writes then sysWrite (s1.wx rd x) r v else s1.wx rd x)
          if sregLogged r then loggedValue s s 7 0 r.number old.toNat fun x s1 => fin (BitVec.ofNat 64 x) s1 else fin old s)

/-- SRRD (R241). -/
def execSrrd (rd : Reg) (r : SReg) (s : State) : Host.Outcome State Fault Refusal := sysOp rd r 0 false (fun old _ => old) s

/-- SRWR (R241). -/
def execSrwr (rd : Reg) (r : SReg) (rs1 : Reg) (s : State) : Host.Outcome State Fault Refusal := sysOp rd r rs1 true (fun _ x => x) s

/-- SRSET (R241): with rs1 = x0 it writes nothing. -/
def execSrset (rd : Reg) (r : SReg) (rs1 : Reg) (s : State) : Host.Outcome State Fault Refusal :=
  sysOp rd r rs1 (decide (rs1 ≠ 0)) (fun old x => old ||| x) s

/-- SRCLR (R241): with rs1 = x0 it writes nothing. -/
def execSrclr (rd : Reg) (r : SReg) (rs1 : Reg) (s : State) : Host.Outcome State Fault Refusal :=
  sysOp rd r rs1 (decide (rs1 ≠ 0)) (fun old x => old &&& ~~~x) s

end Sys2Proof.Machine
end

