-- ==== Sys2Proof/Machine/System.lean ====
section
/-! DEFINITION. Capabilities (R235, R236, R356, R357), the control instructions (R237 to R240), TLBINV (R39 to R42), LINEOP (R243) and PFX (R197 to
R200). -/

namespace Sys2Proof.Machine

/-! Capabilities. -/

/-- A k register of a translation context (R235). -/
def kReg (s : State) (ctx k : Nat) : Word :=
  match s.db.kregs.find? fun e => decide (e.ctx = ctx) && decide (e.k = k) with
  | some e => e.token
  | none => 0

/-- A k register set. -/
def setKReg (s : State) (ctx k : Nat) (token : Word) : State :=
  { s with db := { s.db with kregs := ⟨ctx, k, token⟩ :: s.db.kregs.filter fun e => !(decide (e.ctx = ctx) && decide (e.k = k)) } }

/-- The entry that a token names, when the token is valid (R235). -/
def capOf (s : State) (part : Nat) (token : Word) : Option CapEntry :=
  if token = 0 then none
  else
    match capAt s part (fld token 11 0) with
    | some e => if e.nonce.toNat = fld token 63 32 then some e else none
    | none => none

/-- The token of an entry (R235). -/
def capToken (e : CapEntry) : Word := BitVec.ofNat 64 (e.nonce.toNat * 2 ^ 32 + e.index)

/-- Whether an entry is another or was delegated from it, in at most `fuel` steps up. -/
def capUnder (s : State) (part root : Nat) : Nat → Nat → Bool
  | 0, i => decide (i = root)
  | n + 1, i =>
    decide (i = root) || (match capAt s part i with | some e => decide (e.parent ≠ i) && capUnder s part root n e.parent | none => false)

/-- An entry made in a partition's table at the lowest index not in use (log 27): none when the table is full. -/
def capMake (s : State) (part : Nat) (rights : BitVec 8) (set : Bool) (ctx stand : Nat) (parent : Option Nat) : Option (CapEntry × State) :=
  match (List.range 4096).find? fun i => (capAt s part i).isNone with
  | none => none
  | some i =>
    let e : CapEntry := { part := part, index := i, nonce := nonceAt s part i, used := true, parent := parent.getD i, rights := rights, set := set
                          ctx := ctx, stand := stand }
    some (e, { s with db := { s.db with caps := e :: s.db.caps } })

/-- An entry and those delegated from it revoked (R236, R356, R357): they are freed with their nonces made anew, their sessions end with the cycle, and
their stop points are cleared. -/
def capRevoke (s : State) (part index : Nat) : State :=
  let gone := fun (i : Nat) => capUnder s part index 4096 i
  let freed := (s.db.caps.filter fun e => decide (e.part = part) && gone e.index).map (·.index)
  { s with db := { s.db with
      caps := s.db.caps.filter fun e => !(decide (e.part = part) && gone e.index)
      nonceNext := s.db.nonceNext + 1
      nonces := freed.foldl (fun l i => assoc l (part, i) (s.db.nonceNext + 1)) s.db.nonces
      sessions := s.db.sessions.map fun e =>
        if e.part = part then { e with points := e.points.filter (fun p => !gone p.cap), revoked := e.revoked || gone e.cap } else e } }

/-- CAPDELEG (R236). -/
def execCapdeleg (rd : Reg) (k : BitVec 4) (rs1 : Reg) (s : State) : Host.Outcome State Fault Refusal :=
  settle (issue .any [] [rs1] [rd] s fun s =>
    let v := s.rx rs1
    let ctx := activeCtx s s.th
    let part := s.partOf ctx
    let target := fld v 43 32
    match capOf s part (kReg s ctx k.toNat) with
    | none => trapOf 0x14 v s
    | some e =>
      if !(s.ctxRec target).en || decide (s.partOf target ≠ part) then trapOf 0x14 v s
      else
        match capMake s part (e.rights &&& v.extractLsb' 0 8) e.set e.ctx e.stand (some e.index) with
        | none => finishOp 4 (s.wx rd 0)
        | some (n, s1) => finishOp 4 ((setKReg s1 target (fld v 11 8) (capToken n)).wx rd (capToken n)))

/-- Whether a context holds an entry, or one that it was delegated from (R236). -/
def capHeld (s : State) (ctx part : Nat) (e : CapEntry) : Bool :=
  (List.range 16).any fun k =>
    match capOf s part (kReg s ctx k) with
    | some h => capUnder s part h.index 4096 e.index
    | none => false

/-- CAPREVOKE (R236). -/
def execCaprevoke (rs1 : Reg) (s : State) : Host.Outcome State Fault Refusal :=
  settle (issue .any [] [rs1] [] s fun s =>
    let ctx := activeCtx s s.th
    let part := s.partOf ctx
    match capOf s part (s.rx rs1) with
    | none => finishOp 4 s
    | some e => if capHeld s ctx part e then finishOp 4 (capRevoke s part e.index) else trapOf 0x14 (s.rx rs1) s)

/-- CAPCHECK (R236). -/
def execCapcheck (rd : Reg) (k : BitVec 4) (rs1 : Reg) (s : State) : Host.Outcome State Fault Refusal :=
  settle (issue .any [] [rs1] [rd] s fun s =>
    let ctx := activeCtx s s.th
    let want := (s.rx rs1).extractLsb' 0 8
    let v : Word := match capOf s (s.partOf ctx) (kReg s ctx k.toNat) with
      | none => 1
      | some e => if e.rights &&& want = want then 0 else 2
    finishOp 4 (s.wx rd v))

/-! Control. -/

/-- SYSCALL (R237). -/
def execSyscall (s : State) : Host.Outcome State Fault Refusal :=
  settle (issue .any [] [] [] s fun s => .trap { cause := 0x20, tepc := some (s.th.pc + 4) } s)

/-- TRET (R188, R238). -/
def execTret (s : State) : Host.Outcome State Fault Refusal :=
  settle (issue .any [] [] [] s fun s =>
    if !s.th.status.hnd && !s.th.status.priv then illegalOp s
    else if s.th.tepc.toNat % 4 ≠ 0 then badTarget s s.th.tepc
    else .done (returnFromTrap s))

/-- BRK (R237). -/
def execBrk (s : State) : Host.Outcome State Fault Refusal := settle (issue .any [] [] [] s fun s => trapOf 0x06 0 s)

/-- WFE (R237). -/
def execWfe (rd rs1 : Reg) (s : State) : Host.Outcome State Fault Refusal :=
  settle (issue .any [] [rs1] [rd] s fun s =>
    if !s.th.rxq.isEmpty then finishOp 4 (s.wx rd 1)
    else if s.th.expired then finishOp 4 (s.wx rd 0)
    else .park (.wfe (waitLimit s (s.rx rs1).toNat)) s)

/-- YIELD (R237). -/
def execYield (s : State) : Host.Outcome State Fault Refusal :=
  settle (issue .any [] [] [] s fun s =>
    let s1 := s.advance 4
    .done (if s1.th.req.preempt then takePreempt s1 0 else s1))

/-- TEXIT (R144, R239, R349, R367). In supervisor code outside a handler it ends the thread as one in a handler (log 93). -/
def execTexit (s : State) : Host.Outcome State Fault Refusal :=
  settle (issue .any [] [] [] s fun s =>
    (sdrainWait s).bind fun s1 =>
      (checksumEntry s1).bind fun s2 =>
        let k := if s2.th.status.hnd || s2.th.status.priv then EndKind.inHandler (fld s2.th.tcause 7 0) else .texit
        .done (threadEnds s2 s2.th.tid k 3))

/-- MIGRATE (R240): a move that is refused, or whose release faults, leaves the thread at the MIGRATE. -/
def execMigrate (rs1 : Reg) (s : State) : Host.Outcome State Fault Refusal :=
  settle (issue .any [] [rs1] [] s fun s =>
    match CoreClass.ofCode (fld (s.rx rs1) 1 0) with
    | none => finishOp 4 s
    | some c =>
      if c = clsOf s.th then finishOp 4 s
      else
        let back := fun (s1 : State) => s1.onTh fun t => { t with pc := s.th.pc }
        match startMigration (s.advance 4) 0 [c] with
        | .trap r s1 => .trap r (back s1)
        | .park w s1 => .park w (back s1)
        | e => e)

/-! TLBINV. -/

/-- Whether a scope around a core covers another core (R41, R243): no structure is private to a thread, so lane acts as core. -/
def scopeCovers (scope : Scope) (at_ c : CoreId) : Bool :=
  match scope with
  | .lane | .core => decide (c = at_)
  | .quad => decide (c.die = at_.die) && decide (c.quad = at_.quad)
  | .die => decide (c.die = at_.die)
  | .pkg | .pod => true

/-- The core that a target dword names (R39). -/
def dwordCore (d : Word) : CoreId := ⟨fld d 36 32, fld d 24 18, fld d 17 16⟩

/-- Whether a target dword is refused at a scope (R39): its DIE, QUAD and CORE name a place of the blend at every scope; an M-die, which has no quads, is
named by its number alone, and at scope package or pod. -/
def badDword (s : State) (scope : Scope) (d : Word) : Bool :=
  let c := dwordCore d
  let placeOk :=
    if (computeDies s.clk.blend).contains c.die then decide (c.quad < quadsOf (classOfDie c.die))
    else (dies s.clk.blend).contains c.die && decide (c.quad = 0) && decide (c.core = 0) && decide (4 ≤ scope.code)
  decide (3 ≤ fld d 47 44) || decide (fld d 43 37 ≠ 0) || decide (fld d 31 25 ≠ 0) || decide (fld d 15 0 ≠ 0) || !placeOk

/-- Whether a TLBINV removes an entry (R40). -/
def invRemoves (d : Word) (va : Nat) (e : TlbEntry) : Bool :=
  match fld d 47 44 with
  | 0 => (decide (e.ctx = fld d 63 52) || (e.leaf.global && decide (e.part = fld d 51 48))) && decide (va / 2 ^ e.sbits = e.vpage)
  | 1 => decide (e.ctx = fld d 63 52) && !e.leaf.global
  | _ => decide (e.part = fld d 51 48)

/-- Whether a TLBINV drops an instruction line (R75): it covers the page through which the line was filled. -/
def invDropsCode (s : State) (d : Word) (va : Nat) (l : L1iLine) : Bool :=
  match fld d 47 44 with
  | 0 => (decide (l.ctx = fld d 63 52) || (l.global && decide (s.partOf l.ctx = fld d 51 48))) && decide (va / 2 ^ l.sbits = l.page)
  | 1 => decide (l.ctx = fld d 63 52) && !l.global
  | _ => decide (s.partOf l.ctx = fld d 51 48)

/-- Whether a scope's target covers a TLB (R41). -/
def invCovers (scope : Scope) (at_ : CoreId) (w : TlbAt) : Bool :=
  match w with
  | .core c => scopeCovers scope at_ c
  | .die n => decide (3 ≤ scope.code) && (decide (n = at_.die) || decide (4 ≤ scope.code))
  | .remote _ => decide (4 ≤ scope.code)

/-- The entries and the lines that a TLBINV removes (R40, R41, R71, R74, R75). -/
def invalidate (s : State) (scope : Scope) (d : Word) (va : Nat) : State :=
  let at_ := dwordCore d
  let cov := scopeCovers scope at_
  { s with
    xl := { s.xl with
      tlb := s.xl.tlb.filter fun e => !(invCovers scope at_ e.at_ && invRemoves d va e)
      wcache := s.xl.wcache.filter fun e => !(invCovers scope at_ (.die e.die) && decide (e.part = fld d 51 48)) }
    ms := { s.ms with
      l1d := s.ms.l1d.filter fun l => !cov l.core
      gath := s.ms.gath.filter fun g => !cov g.core
      l1i := s.ms.l1i.filter fun l => !(cov l.core && invDropsCode s d va l) } }

/-- An instruction that acts on other packages too, once it has acted here: it waits for them, and a package that does not acknowledge is cause 0x24 (R42,
R243). -/
def overPod (size : Nat) (ask : Option InvAsk) (s : State) (begin_ : State → Res Unit) : Eff :=
  match s.xl.inv.find? fun i => decide (i.tid = s.th.tid) with
  | some i =>
    if !i.done then .park (.tlbinv i.id) s
    else
      let s1 := { s with xl := { s.xl with inv := s.xl.inv.erase i } }
      (match i.failed with
      | some p => .trap { cause := 0x24, tval := BitVec.ofNat 64 p, vkind := 3 } s1
      | none => finishOp size s1)
  | none =>
    (begin_ s).andThen fun _ s1 =>
      let id := (s1.xl.inv.map (·.id + 1)).foldl max 0
      let i : Inval := { id := id, tid := s1.th.tid, ask := ask, sinceNs := s1.clk.time, failed := none, done := false }
      .park (.tlbinv id) { s1 with xl := { s1.xl with inv := s1.xl.inv ++ [i] } }

/-- What a TLBINV asks of the packages of a pod (R41): the JOBID is that of context CTX, or, for KIND 2, that of the context that the issuer runs under
(log 91). -/
def tlbinvAsk (s : State) (scope : Scope) (d : Word) (va : Nat) : Option InvAsk :=
  if scope = .pod then some ⟨jobidOf s (if fld d 47 44 = 2 then activeCtx s s.th else fld d 63 52), .tlbinv (fld d 47 44) (fld d 51 48), va⟩ else none

/-- The address that a TLBINV names: a local one, also when it is written through the package's own window. -/
def tlbinvVa (s : State) (v : Word) : Nat := match resolveVa s ⟨.load, true, false⟩ v.toNat with | .ok (.localTo a) => a | _ => v.toNat

/-- TLBINV (R39 to R42): the entries go at once, and the thread waits for its completion. -/
def execTlbinv (scope : Scope) (rs1 rs2 : Reg) (s : State) : Host.Outcome State Fault Refusal :=
  settle (issue .priv [] [rs1, rs2] [] s fun s =>
    let d := s.rx rs2
    let va := tlbinvVa s (s.rx rs1)
    overPod 4 (tlbinvAsk s scope d va) s fun s =>
      if badDword s scope d then .stop (.trap { cause := 0x03, tval := d, vkind := 2 } s) else .ok () (invalidate s scope d va))

/-! LINEOP. -/

/-- The byte at x[rs1] translated for a LINEOP, after the thread's earlier stores, with no access made: TVAL of a fault is x[rs1] (log 92). -/
def lineTarget (s : State) (a : Acc) (rs1 : Reg) : Res (List Part) :=
  match resolvePosted s with
  | .done s1 =>
    let va := (s1.rx rs1).toNat
    poisonAt va (translateParts s1 (threadWalker s1 s1.th) (threadAcc s1.th a false) [(va, 1)] []).res
  | e => .stop e

/-- A line of this package dropped from the instruction caches that a scope covers (R75, R243). -/
def dropIcode (s : State) (scope : Scope) (line : Nat) : State :=
  { s with ms := s.ms.dropCode fun c l => scopeCovers scope (coreOf s.th) c && decide (l = line) }

/-- LINEOP icinv (R243): at pod scope it waits for the job's other packages, as TLBINV does (log 84). -/
def execLineopIcinv (scope : Scope) (rs1 : Reg) (s : State) : Host.Outcome State Fault Refusal :=
  settle (issueAt .any [] [rs1] [] s fun s =>
    let ask : Option InvAsk := some ⟨jobidOf s (activeCtx s s.th), .line 0, (s.rx rs1).toNat⟩
    if s.xl.inv.any fun i => decide (i.tid = s.th.tid) then overPod 4 ask s fun s => .ok () s
    else
      (lineTarget s .code rs1).andThen fun ps s1 =>
        match ps with
        | [.here x _ _] =>
          if x.mt ≠ 0 then finishOp 4 s1
          else if scope = .pod then overPod 4 ask s1 fun s => .ok () (dropIcode s scope (lineOf x.pa))
          else finishOp 4 (dropIcode s1 scope (lineOf x.pa))
        | [.there pkg off va _] => (podAsk s1 pkg off va (.line 0) (plainAt scope) .code).andThen fun _ s2 => finishOp 4 s2
        | _ => finishOp 4 s1)

/-- LINEOP zero (R243): a store of the 128 bytes of the line, whose poison it clears once committed (R88, log 88). TVAL of a fault is the line's first
byte (log 92). -/
def execLineopZero (rs1 : Reg) (s : State) : Host.Outcome State Fault Refusal :=
  settle (issueAt .any [] [rs1] [] s fun s =>
    (threadStore s ((s.rx rs1).toNat / 128 * 128) (List.replicate 128 0) true).bind fun s1 => finishOp 4 s1)

/-- LINEOP clean (R243). -/
def execLineopClean (rs1 : Reg) (s : State) : Host.Outcome State Fault Refusal :=
  settle (issueAt .any [] [rs1] [] s fun s =>
    (lineTarget s .load rs1).andThen fun ps s1 =>
      match ps with
      | [.here x _ _] =>
        if x.mt ≠ 0 then finishOp 4 s1
        else
          let s2 := drainCore s1 (coreOf s1.th)
          finishOp 4 { s2 with ms := cleanLine s2.ms (lineOf x.pa) }
      | [.there pkg off va _] => (podAsk s1 pkg off va (.line 2) (plainAt .pkg) .load).andThen fun _ s2 => finishOp 4 s2
      | _ => finishOp 4 s1)

/-! PFX. -/

/-- PFX (R197 to R199): latched for its successor, which the same turn executes; an orphan takes 0x04. -/
def execPfx (nf sat : Bool) (rm : Rm) (s : State) : Host.Outcome State Fault Refusal :=
  match s.th.succ with
  | none => settle (trapOf 0x04 s.th.pc s)
  | some _ => .next (s.onTh fun t => { t with pfx := some ⟨nf, sat, rm⟩ })

end Sys2Proof.Machine
end

