-- ==== Sys2Proof/Machine/Collective.lean ====
section
/-! DEFINITION. The issue of collectives (R305 to R307). -/

namespace Sys2Proof.Machine

/-- The collective instance of a key. -/
def State.coll? (s : State) (k : CollKey) : Option Instance := s.pod.colls.find? fun c => decide (c.key = k)

/-- A collective instance changed. -/
def State.modColl (s : State) (k : CollKey) (f : Instance → Instance) : State :=
  { s with pod := { s.pod with colls := s.pod.colls.map fun c => if c.key = k then f c else c } }

/-- Whether two contributions disagree (R308). -/
def disagree (a b : Contribution) : Bool :=
  decide (a.op ≠ b.op) || decide (a.sew ≠ b.sew) || decide (a.f ≠ b.f) || decide (a.vl ≠ b.vl) || decide (a.d ≠ b.d) || decide (a.root ≠ b.root)

/-- The instance of a key, which begins, with its timer, when its first contribution or copy reaches the fabric (R309, log 46). -/
def startColl (s : State) (k : CollKey) (c : Contribution) : State :=
  if (s.coll? k).isSome then s
  else { s with pod := { s.pod with colls := s.pod.colls ++ [{
    key := k, count := c.count, tree := c.tree, useBuddy := c.useBuddy, tmoNs := c.tmoNs, startNs := s.clk.time, sent := [], got := [], copies := [], fin := none
    late := [], waiting := [] }] } }

/-- The copy that a contribution with a buddy sends toward the buddy rank (R307): one for each rank. -/
def Instance.copied (i : Instance) (c : Contribution) : Instance :=
  if c.useBuddy && !(i.copies.any fun e => decide (e.rank = c.rank)) then { i with copies := i.copies ++ [⟨c.rank, (c.rank + c.count / 2) % c.count, c, none⟩] } else i

/-- The contribution of a rank, once heard or substituted. -/
def Instance.heard (i : Instance) (rank : Nat) : Option Contribution := i.got.find? fun c => decide (c.rank = rank)

/-- The ranks that the tree has not heard (R309). -/
def Instance.silent (i : Instance) : List Nat := (List.range i.count).filter fun r => (i.heard r).isNone

/-- Whether a rank not heard has issued all the same: it has sent a contribution, or its copy is known. -/
def Instance.issued (i : Instance) (rank : Nat) : Bool := (i.sent.any fun c => decide (c.rank = rank)) || i.copies.any fun c => decide (c.rank = rank)

/-- An instance with every rank heard has its result (R308). -/
def Instance.settled (i : Instance) : Instance :=
  if i.fin.isNone && i.silent.isEmpty then { i with fin := some (.result ((List.range i.count).filterMap i.heard)) } else i

/-- Whether an instance is over: no member waits for it, and none can still issue on it, each having sent its contribution or its copy. -/
def Instance.over (i : Instance) : Bool := i.fin.isSome && i.waiting.isEmpty && i.silent.all i.issued

/-- Whether a contribution is one that an instance has still to hear (R309). -/
def Instance.awaits (i : Instance) (c : Contribution) : Bool :=
  i.late.contains c || ((i.heard c.rank).isNone && (i.sent.contains c || i.copies.any fun e => decide (e.contribution = c)))

/-- An instance that is over and that awaits no contribution is forgotten. -/
def dropOver (s : State) (k : CollKey) : State :=
  { s with pod := { s.pod with colls := s.pod.colls.filter fun i => !(decide (i.key = k) && i.over && i.silent.isEmpty && i.late.isEmpty) } }

/-- An instance that is over gives way to a new group's of the same key: a contribution that it does not await, or one that a member sends, begins another (log 46). -/
def renewColl (s : State) (k : CollKey) (c : Contribution) (sent : Bool) : State :=
  { s with pod := { s.pod with colls := s.pod.colls.filter fun i => !(decide (i.key = k) && i.over && (sent || !i.awaits c)) } }

/-- A contribution sent (R307): it and its copy are on their way. -/
def sendContribution (s : State) (k : CollKey) (c : Contribution) : State :=
  (startColl (renewColl s k c true) k c).modColl k fun i => { i with sent := i.sent ++ [c] }.copied c

/-- A contribution that reaches the tree: its member's package becomes known (R307). One for a rank that has been heard or substituted is discarded; in
an instance that is over, it only shows that the rank has issued; a disagreeing one makes the instance fail (R308, R309). -/
def contribute (s : State) (k : CollKey) (c : Contribution) : State :=
  let known := (k.job, k.gid, c.rank, c.pkg)
  let s0 := { s with pod := { s.pod with known := if s.pod.known.contains known then s.pod.known else known :: s.pod.known } }
  (startColl (renewColl s0 k c false) k c).modColl k fun i0 =>
    let i := { i0 with sent := i0.sent.filter (fun e => decide (e ≠ c)), late := i0.late.filter fun e => decide (e.rank ≠ c.rank) }.copied c
    if i.got.any fun g => decide (g.rank = c.rank) then i
    else if i.fin.isNone && i.got.any fun g => disagree g c then { i with got := i.got ++ [c], fin := some (.failed 3 0xFFFF) }
    else { i with got := i.got ++ [c] }

/-- Copies that stand in for silent ranks (R309): they are heard in their ranks' places, and a disagreeing one makes the instance fail (R308). -/
def Instance.stoodIn (i : Instance) (cs : List Contribution) : Instance :=
  let got := i.got ++ cs
  let bad := match got with | [] => false | g :: rest => rest.any (disagree g)
  { i with got := got, late := i.late ++ cs, fin := if bad then some (.failed 3 0xFFFF) else i.fin }

/-- TVAL of a failed collective (R309). -/
def collTval (reason rank g : Nat) : Word := BitVec.ofNat 64 (rank % 65536 * 2 ^ 16 + reason * 256 + g)

/-- The trap of a failed collective (R309, R336). -/
def collTrap (reason rank g : Nat) : TrapReq := { cause := 0x24, tval := collTval reason rank g, vkind := 2 }

/-- Whether SEW suits an operation (R305). -/
def collWidth (op : CollOp) (f : Bool) (sew : Ew) : Bool :=
  match op with
  | .sum | .max | .min => !f || sew == .e32 || sew == .e64
  | .smerge => sew == .e32
  | _ => true

/-- The checks 2 to 4 of R306 (log 103): `x` is x[rs2]. -/
def collBad (op : CollOp) (t : Thread) (g : GroupReg) (x : Nat) : Bool :=
  let count := g.countM1.toNat + 1
  let wide := decide (vlmaxOf t < count * t.vec.vl)
  match op with
  | .smerge => decide (x = 0) || decide (t.vec.vl % (2 + x) ≠ 0)
  | .gather => wide
  | .scatter => (decide (g.rank.toNat = x) && wide) || decide (count ≤ x)
  | .bcast => decide (count ≤ x)
  | _ => false

/-- A VCOLL issued (R306, R307): its contribution is sent, SEQ advances, and the context waits for the result. A member whose instance has failed
takes 0x24 at once (R309). -/
def vcoll (op : CollOp) (f : Bool) (vd vs : Reg) (gn : BitVec 3) (xs : Option Reg) (s : State) : Host.Outcome State Fault Refusal :=
  settle (issue .vector [8] xs.toList [] s fun s =>
    vchecked [vd] (collWidth op f s.th.vec.sew) true s fun s =>
      let t := s.th
      let g := t.vec.g.get ⟨gn.toNat, gn.isLt⟩
      let x := match xs with | some r => (s.rx r).toNat | none => 0
      let ctx := activeCtx s t
      let token := kReg s ctx g.cap.toNat
      if collBad op t g x then illegalOp s
      else if (capOf s (s.partOf ctx) token).isNone then trapOf 0x14 token s
      else
        let key : CollKey := ⟨jobidOf s ctx, g.gid.toNat, g.seq.toNat⟩
        let count := g.countM1.toNat + 1
        let n := if op = .scatter ∧ g.rank.toNat = x then count * t.vec.vl else t.vec.vl
        let c : Contribution := { rank := g.rank.toNat, pkg := s.clk.pkg, op := op, sew := t.vec.sew, f := f, vl := t.vec.vl
                                  d := if op = .smerge then x else 0, root := if op = .scatter ∨ op = .bcast then x else 0
                                  elems := (List.range n).map fun i => getElem t vs i
                                  count := count, tree := g.tree.toNat, useBuddy := decide (g.buddy = 1), tmoNs := 200000 * 2 ^ g.tmo.toNat }
        let s1 := s.onTh fun t => { t with vec := { t.vec with g := t.vec.g.set gn.toNat { g with seq := g.seq + 1 } gn.isLt }, collIssued := s.clk.time }
        let s2 := sendContribution s1 key c
        match (s2.coll? key).bind fun i => i.fin with
        | some (.failed reason rank) => .trap (collTrap reason rank gn.toNat) (dropOver s2 key)
        | _ => .park (.collective key vd gn.toNat) (s2.modColl key fun i => { i with waiting := i.waiting ++ [(t.tid, c.rank, vd, gn.toNat)] }))

/-- VCOLL.sum (R308). -/
def execVcollSum (f : Bool) (vd vs : Reg) (g : BitVec 3) (s : State) : Host.Outcome State Fault Refusal := vcoll .sum f vd vs g none s

/-- VCOLL.max (R308). -/
def execVcollMax (f : Bool) (vd vs : Reg) (g : BitVec 3) (s : State) : Host.Outcome State Fault Refusal := vcoll .max f vd vs g none s

/-- VCOLL.min (R308). -/
def execVcollMin (f : Bool) (vd vs : Reg) (g : BitVec 3) (s : State) : Host.Outcome State Fault Refusal := vcoll .min f vd vs g none s

/-- VCOLL.smerge (R308). -/
def execVcollSmerge (vd vs : Reg) (g : BitVec 3) (xd : Reg) (s : State) : Host.Outcome State Fault Refusal := vcoll .smerge false vd vs g (some xd) s

/-- VCOLL.gather (R308). -/
def execVcollGather (vd vs : Reg) (g : BitVec 3) (s : State) : Host.Outcome State Fault Refusal := vcoll .gather false vd vs g none s

/-- VCOLL.scatter (R308). -/
def execVcollScatter (vd vs : Reg) (g : BitVec 3) (xr : Reg) (s : State) : Host.Outcome State Fault Refusal := vcoll .scatter false vd vs g (some xr) s

/-- VCOLL.bcast (R308). -/
def execVcollBcast (vd vs : Reg) (g : BitVec 3) (xr : Reg) (s : State) : Host.Outcome State Fault Refusal := vcoll .bcast false vd vs g (some xr) s

end Sys2Proof.Machine
end

