-- ==== Sys2Proof/Machine/VecMatrix.lean ====
section
/-! DEFINITION. Matrix mode (R297), VOPA and VACCZ (R296, R300, R301) and the strip softmax (R302). -/

namespace Sys2Proof.Machine

/-- MMODE.ON (R297). -/
def execMmodeOn (s : State) : Host.Outcome State Fault Refusal :=
  settle (vissue [1] [] [] [] (s.th.vec.sew == .e32) false s fun s =>
    if s.th.status.mm then finishOp 4 s
    else if s.th.vec.cols = 0 then trapOf 0x12 0x0300 s
    else finishOp 4 (s.onTh fun t => { t with status := { t.status with mm := true } }))

/-- MMODE.OFF (R297). -/
def execMmodeOff (s : State) : Host.Outcome State Fault Refusal :=
  settle (vissue [1] [] [] [] (s.th.vec.sew == .e32) false s fun s =>
    if s.th.status.mm then finishOp 4 (s.onTh fun t => { t with status := { t.status with mm := false }, vec := { t.vec with pin := false } })
    else finishOp 4 s)

/-- The register of entry C[i][j] and its element number at L lanes (R296). -/
def accPlace (l i j : Nat) : Reg × Nat := (BitVec.ofNat 5 (16 + j / 32), j % 32 * l + i)

/-- One step of C[i][j]: rounded once, to nearest even, with no flag (R300). -/
def outerStep (f : BinFmt) (va vb : Reg) (t : Thread) (i j : Nat) : Thread :=
  let (r, e) := accPlace (lanesOfThread t) i j
  let a := f.value (bitsAt (getElem t va i) 0 f.width)
  let b := f.value (bitsAt (getElem t vb j) 0 f.width)
  putElem t r e (finish fp32 rne (fpFma .rne a b (fp32.value (getElem t r e)))).1

/-- C := C + a bᵀ over the rows that the mask leaves (R300). -/
def outerProduct (f : BinFmt) (m : Bool) (va vb : Reg) (t : Thread) : Thread :=
  let rows := (List.range (lanesOfThread t)).filter fun i => activeElem t m i
  rows.foldl (fun t i => (List.range t.vec.cols).foldl (fun t j => outerStep f va vb t i j) t) t

/-- A VOPA with its format and its feature (R300, R371). -/
def vopa (feat : Nat) (f : BinFmt) (m : Bool) (va vb : Reg) (s : State) : Host.Outcome State Fault Refusal :=
  settle (vissue [feat] [] [] [] (s.th.vec.sew == .e32) true s fun s =>
    if !s.th.status.mm then trapOf 0x12 0x0400 s else finishOp 4 (s.onTh (outerProduct f m va vb)))

/-- VOPA.bf16 (R300). -/
def execVopaBf16 (m : Bool) (va vb : Reg) (s : State) : Host.Outcome State Fault Refusal := vopa 2 bf16 m va vb s

/-- VOPA.f16 (R300). -/
def execVopaF16 (m : Bool) (va vb : Reg) (s : State) : Host.Outcome State Fault Refusal := vopa 2 fp16 m va vb s

/-- VOPA.e4m3 (R300). -/
def execVopaE4m3 (m : Bool) (va vb : Reg) (s : State) : Host.Outcome State Fault Refusal := vopa 3 e4m3 m va vb s

/-- VOPA.e5m2 (R300). -/
def execVopaE5m2 (m : Bool) (va vb : Reg) (s : State) : Host.Outcome State Fault Refusal := vopa 3 e5m2 m va vb s

/-- VACCZ (R301): v16 to v31 are zero, with D = 1 and VD = 0. -/
def execVaccz (s : State) : Host.Outcome State Fault Refusal :=
  settle (vissue [1] [] [] [] true false s fun s =>
    if !s.th.status.mm then trapOf 0x12 0x0400 s
    else
      finishOp 4 (s.onTh fun t =>
        { t with vec := { t.vec with v := Vector.ofFn fun (k : Fin 32) => if 16 ≤ k.val then ⟨[], true, 0⟩ else t.vec.v.get k } }))

/-- A score's exponential against the maximum (R302). -/
def smxExp (x m : Nat) : Nat := if x = negInf32 then 0 else (exp2cr (rsub32 x m)).1

/-- VSMX (R302). -/
def execVsmx (m : Bool) (vd vs2 fa : Reg) (s : State) : Host.Outcome State Fault Refusal :=
  settle (vissue [1] [] [] [vd] (s.th.vec.sew == .e32) true s fun s =>
    completing (fun s => s.onTh fun t =>
      let mx := fpBits .f32 (readF t fa)
      let sm := fpBits .f32 (readF t (fa + 1))
      let act := activeIn t m 0 t.vec.vl
      let top := (tree maxnum32 (act.map fun i => getElem t vs2 i)).getD negInf32
      let m2 := maxnum32 mx top
      let c := if mx = negInf32 ∧ m2 = negInf32 then 0x3F800000 else (exp2cr (rsub32 mx m2)).1
      let ps := act.map fun i => (i, smxExp (getElem t vs2 i) m2)
      let sp := (tree radd32 (ps.map (·.2))).getD 0
      let t1 := ps.foldl (fun u p => putElem u vd p.1 p.2) t
      writeF (writeF (writeF t1 fa (fpWord .f32 m2)) (fa + 1) (fpWord .f32 (fma32 sm c sp))) (fa + 2) (fpWord .f32 c)) s)

end Sys2Proof.Machine
end

