-- ==== Sys2Proof/Machine/CollEvents.lean ====
section
/-! DEFINITION. Events of the collectives (R307 to R309, R379). -/

namespace Sys2Proof.Machine

/-! The result (R308). -/

/-- The combining function of SUM, MAX and MIN at an element width. -/
def collFn (op : CollOp) (f : Bool) (sew : Ew) (x y : Nat) : Nat :=
  let w := sew.bits
  if f then
    let fmt := if sew = .e64 then fp64 else fp32
    let g := match op with | .max => fpMax | .min => fpMin | _ => fpAdd .rne
    (finish fmt rne (g (fmt.value x) (fmt.value y))).1
  else
    match op with
    | .max => if toSigned w x < toSigned w y then y else x
    | .min => if toSigned w y < toSigned w x then y else x
    | _ => (x + y) % 2 ^ w

/-- The canonical tree, or the fold by rank. -/
def Instance.reduce {α : Type} (i : Instance) (op : α → α → α) (l : List α) : Option α := if i.tree = 0 then Sys2Proof.Machine.tree op l else fold1 op l

/-- Record q of a contribution with D values. -/
def recordOf (d q : Nat) (c : Contribution) : Nat × Nat × List Nat :=
  let e := fun k => c.elems.getD (q * (2 + d) + k) 0
  (e 0, e 1, (List.range d).map fun k => e (2 + k))

/-- The elements of vd that a member of a rank receives, from contributions in the order of their ranks. -/
def collResult (i : Instance) (p : List Contribution) (rank : Nat) : List Nat :=
  match p.head? with
  | none => []
  | some c =>
    let vl := c.vl
    let from_ := fun (n : Nat) (k : Nat) => match p[n]? with | some q => (List.range vl).map fun e => q.elems.getD (k * vl + e) 0 | none => []
    match c.op with
    | .sum | .max | .min => (List.range vl).map fun e => (i.reduce (collFn c.op c.f c.sew) (p.map fun q => q.elems.getD e 0)).getD 0
    | .smerge =>
      (List.range (vl / (2 + c.d))).flatMap fun q =>
        match i.reduce smerge (p.map (recordOf c.d q)) with
        | some (m, s, o) => m :: s :: o
        | none => []
    | .gather => p.flatMap fun q => (List.range vl).map fun e => q.elems.getD e 0
    | .scatter => from_ c.root rank
    | .bcast => from_ c.root 0

/-! The events. -/

/-- Whether a contribution can reach the tree: another package's, or one that this package has sent. -/
def canReach (s : State) (key : CollKey) (c : Contribution) : Bool :=
  decide (c.pkg ≠ s.clk.pkg) || (match s.coll? key with | some i => i.sent.contains c | none => false)

/-- COLLECTIVE_COMBINE (R307, R308, R379): contributions reach the tree, those that this package has sent and those of other packages; with every rank
heard, the instance has its result. A contribution whose path to the tree has broken is never among them (R309). -/
def execCollectiveCombine (key : CollKey) (reached : List Contribution) (s : State) : Host.Outcome State Fault Refusal :=
  let s1 := (reached.filter (canReach s key)).foldl (fun s c => contribute s key c) s
  .next (dropOver (s1.modColl key Instance.settled) key)

/-- The package of a rank of a group, once some contribution has shown it (R307). -/
def packageOf (s : State) (key : CollKey) (rank : Nat) : Option Nat :=
  (s.pod.known.find? fun e => decide (e.1 = key.job) && decide (e.2.1 = key.gid) && decide (e.2.2.1 = rank)).map fun e => e.2.2.2

/-- A member's copy reaches the switch tier (R307), where the instance is begun for it when it is not there yet. -/
def copyCome (s : State) (key : CollKey) (rank : Nat) (c : Contribution) : State :=
  if c.useBuddy ∧ c.rank = rank ∧ c.pkg ≠ s.clk.pkg then (startColl s key c).modColl key fun i => i.copied c else s

/-- BUDDY_COPY_DELIVERY (R307): the copy of a rank goes to its buddy's package once that is known. -/
def execBuddyCopyDelivery (copy : CopySent) (rank : Nat) (s : State) : Host.Outcome State Fault Refusal :=
  let s1 := (copy.sent.map (copyCome s copy.inst rank)).getD s
  .next (s1.modColl copy.inst fun i =>
    { i with copies := i.copies.map fun c => if c.rank = rank ∧ c.at_ = none then { c with at_ := packageOf s1 copy.inst c.buddy } else c })

/-- A member's instance left: it waits no more. -/
def leaveColl (s : State) (key : CollKey) (t : Tid) : State :=
  dropOver (s.modColl key fun i => { i with waiting := i.waiting.filter fun w => decide (w.1 ≠ t) }) key

/-- The trap of a VCOLL whose wait is over without a result (R309). -/
def failColl (s : State) (key : CollKey) (t : Tid) (r : TrapReq) : State := (leaveColl s key t).asThread t fun u => takeTrap u r

/-- COLLECTIVE_RESULT (R307 to R309): the result reaches a member, and its vd is written; or the failure does. A member of a stopped stand keeps its state
(R347). -/
def execCollectiveResult (t : Tid) (s : State) : Host.Outcome State Fault Refusal :=
  match s.getThread t with
  | none => .next s
  | some th =>
    match th.run with
    | .parked (.collective key vd g) =>
      if standHalted s t.stand then .next s else
      (match s.coll? key with
      | none => .next s
      | some i =>
        match i.fin, i.waiting.find? fun w => decide (w.1 = t) with
        | some (.failed reason rank), _ => .next (failColl s key t (collTrap reason rank g))
        | some (.result p), some w =>
          let vals := collResult i p w.2.1
          .next ((leaveColl s key t).asThread t fun u =>
            let u1 := u.onTh fun th => { ((List.range vals.length).zip vals).foldl (fun th e => putElem th vd e.1 e.2) th with run := .running }
            countIssue (u1.advance 8))
        | _, _ => .next s)
    | _ => .next s

/-- The copy of a silent rank that stands in for it (R309): held, and by another package than the rank's own. -/
def Instance.standIn (i : Instance) (rank : Nat) : Option Contribution :=
  if !i.useBuddy then none
  else (i.copies.find? fun c => decide (c.rank = rank) && (match c.at_ with | some p => decide (p ≠ c.contribution.pkg) | none => false)).map (·.contribution)

/-- COLLECTIVE_TIMER_EXPIRY (R309): each silent rank is taken from its copy, or, when one has none, the instance fails with the lowest silent rank. -/
def execCollectiveTimerExpiry (key : CollKey) (s : State) : Host.Outcome State Fault Refusal :=
  match s.coll? key with
  | none => .next s
  | some i =>
    if i.fin.isSome ∨ s.clk.time < i.startNs + i.tmoNs then .next s
    else
      let i1 :=
        if i.silent.any fun r => (i.standIn r).isNone then { i with fin := some (.failed 1 (i.silent.headD 0)) }
        else (i.stoodIn (i.silent.filterMap i.standIn)).settled
      .next (dropOver (s.modColl key fun _ => i1) key)

/-- COLLECTIVE_RESULT_TIMEOUT (R309): a member has neither a result nor a failure T + 100 µs after its own issue. -/
def execCollectiveResultTimeout (t : Tid) (s : State) : Host.Outcome State Fault Refusal :=
  match s.getThread t with
  | none => .next s
  | some th =>
    match th.run with
    | .parked (.collective key _ g) =>
      let reg := th.vec.g.toList.getD g GroupReg.reset
      if s.clk.time < th.collIssued + 200000 * 2 ^ reg.tmo.toNat + 100000 ∨ standHalted s t.stand then .next s
      else .next (failColl s key t (collTrap 2 0xFFFF g))
    | _ => .next s

end Sys2Proof.Machine
end

