-- ==== Sys2Proof/Machine/TileOps.lean ====
section
/-! DEFINITION. The tile-handle instructions (R58 to R65, R252 to R256) and the acceptance of copy commands (R122, R257 to R259). -/

namespace Sys2Proof.Machine

/-! Tile-handle instructions. -/

/-- A tile-handle instruction. -/
def tileIssue (xsrcs xdsts : List Reg) (s : State) (k : State → Eff) : Host.Outcome State Fault Refusal := settle (issue .any [] xsrcs xdsts s k)

/-- TALLOC (R58, R253). A handle out of reach is found first, then the format, then the shape (log 29). -/
def execTalloc (rd : Reg) (t : Handle) (rs1 : Reg) (s : State) : Host.Outcome State Fault Refusal :=
  tileIssue [rs1] [rd] s fun s =>
    let w := s.rx rs1
    match spaceOf s s.th (handleLevel t.toNat) with
    | none => .trap (tileTrap t.toNat 0x02) s
    | some sp =>
      match Fmt.ofCode (fld w 35 32) with
      | none => .trap (tileTrap t.toNat 0x04) s
      | some f =>
        let rows := fld w 25 16 + 1
        let cols := fld w 10 0 + 1
        if 2048 < rowBytes f cols then .trap (tileTrap t.toNat 0x03) s
        else
          let (status, s1) := allocTile s ⟨sp, t.toNat⟩ (coreOf s.th) (s.partOf s.th.ctx) s.th.tid f rows cols
          finishOp 4 (s1.wx rd (BitVec.ofNat 64 status))

/-- TFREE (R60, R62). A thread that holds a read lock itself takes 0x06 at once, before any wait for PEND = 0 (log 70). -/
def execTfree (t : Handle) (s : State) : Host.Outcome State Fault Refusal :=
  tileIssue [] [] s fun s =>
    (findTile s t).andThen fun k s1 =>
      if decide (k.writer ≠ some s1.th.tid) && k.reads (.thread s1.th.tid) then .trap (tileTrap t.toNat 0x06) s1
      else if !k.writeOk s1.th.tid then .park (.tile k.key true) s1
      else if pendOf s1 k.key ≠ 0 then .park (.pend k.key 1) s1
      else finishOp 4 (freeTiles s1 fun u => decide (u.key = k.key))

/-- Whether a tile is in a thread's lock record (R64): the thread holds a lock on it or waits for one. -/
def Tile.recorded (t : Tile) (who : Tid) : Bool := t.reads (.thread who) || decide (t.writer = some who) || t.queue.any fun q => decide (q.1 = who)

/-- TLOCK.r and TLOCK.w (R62 to R64): granted at once when no request waits and the state allows it, else queued. -/
def lockRequest (t : Handle) (write : Bool) (s : State) : Host.Outcome State Fault Refusal :=
  tileIssue [] [] s fun s =>
    (findTile s t).andThen fun k s1 =>
      let me := s1.th.tid
      if decide (k.writer = some me) || (write && k.reads (.thread me)) then .trap (tileTrap t.toNat 0x06) s1
      else if !k.recorded me && decide (4 ≤ (s1.un.tiles.filter fun u => u.recorded me).length) then .trap (tileTrap t.toNat 0x08) s1
      else if k.queue.isEmpty && k.grants write then finishOp 4 (s1.modTile k.key fun u => u.locked me write)
      else .park (.lock k.key) (if k.queue.any fun q => decide (q.1 = me) then s1 else s1.modTile k.key fun u => { u with queue := u.queue ++ [(me, write)] })

/-- TLOCK.r (R62 to R64). -/
def execTlockR (t : Handle) (s : State) : Host.Outcome State Fault Refusal := lockRequest t false s

/-- TLOCK.w (R62 to R64). -/
def execTlockW (t : Handle) (s : State) : Host.Outcome State Fault Refusal := lockRequest t true s

/-- TUNLOCK (R62). -/
def execTunlock (t : Handle) (s : State) : Host.Outcome State Fault Refusal :=
  tileIssue [] [] s fun s =>
    (findTile s t).andThen fun k s1 =>
      let me := s1.th.tid
      if k.writer = some me then finishOp 4 (s1.modTile k.key fun u => { u with writer := none })
      else if k.reads (.thread me) then finishOp 4 (s1.modTile k.key fun u => { u with readers := u.readers.erase (.thread me) })
      else .trap (tileTrap t.toNat 0x07) s1

/-- TZERO (R254). -/
def execTzero (t : Handle) (s : State) : Host.Outcome State Fault Refusal :=
  tileIssue [] [] s fun s =>
    (findTile s t).andThen fun k s1 => (writeUse s1 k).bind fun s2 => finishOp 4 (s2.modTile k.key fun u => { u with bytes := [], bad := [] })

/-- The row and the column of an index word, within a tile (R255). -/
def indexWord (t : Handle) (k : Tile) (w : Word) (s : State) (f : Nat → Nat → State → Eff) : Eff :=
  if k.rows ≤ fld w 25 16 ∨ k.cols ≤ fld w 10 0 then .trap (tileTrap t.toNat 0x05) s else f (fld w 25 16) (fld w 10 0) s

/-- An element as TRDX returns it (R255). -/
def elemWord (f : Fmt) (v : Nat) : Word :=
  match f with
  | .int8 | .int16 | .int32 | .int4 => sextN f.width v
  | _ => BitVec.ofNat 64 v

/-- TRDX (R89, R255). An index outside the shape is reason 0x05 before the tile's locks are looked at (log 69). -/
def execTrdx (rd : Reg) (t : Handle) (rs1 : Reg) (s : State) : Host.Outcome State Fault Refusal :=
  tileIssue [rs1] [rd] s fun s =>
    (findTile s t).andThen fun k s1 =>
      indexWord t k (s1.rx rs1) s1 fun row col s2 =>
        (readUse s2 k).bind fun s3 =>
          match readTileRows s3 s3.th k.key [row] with
          | (some r, s4) => .trap (tilePoison s4 k.key r) s4
          | (none, s4) => finishOp 4 (s4.wx rd (elemWord k.fmt (k.get row col)))

/-- TWRX (R255). An index outside the shape is reason 0x05 before the tile's locks are looked at (log 69). -/
def execTwrx (t : Handle) (rs1 rv : Reg) (s : State) : Host.Outcome State Fault Refusal :=
  tileIssue [rs1, rv] [] s fun s =>
    (findTile s t).andThen fun k s1 =>
      indexWord t k (s1.rx rs1) s1 fun row col s2 =>
        (writeUse s2 k).bind fun s3 => finishOp 4 (s3.modTile k.key fun u => u.put row col (s3.rx rv).toNat)

/-- TQUERY (R256). -/
def tileQuery (rd : Reg) (t : Handle) (f : State → Tile → Word) (s : State) : Host.Outcome State Fault Refusal :=
  tileIssue [] [rd] s fun s =>
    match spaceOf s s.th (handleLevel t.toNat) with
    | none => .trap (tileTrap t.toNat 0x02) s
    | some sp => finishOp 4 (s.wx rd (match s.tile? ⟨sp, t.toNat⟩ with | some k => f s k | none => 0))

/-- TQUERY.lo (R256). -/
def execTqueryLo (rd : Reg) (t : Handle) (s : State) : Host.Outcome State Fault Refusal := tileQuery rd t (fun _ k => entryLo k) s

/-- TQUERY.hi (R256). -/
def execTqueryHi (rd : Reg) (t : Handle) (s : State) : Host.Outcome State Fault Refusal := tileQuery rd t entryHi s

/-! Copy commands. -/

/-- The window of a descriptor (R258). -/
def copyWin (d : Word) : CopyWin := { nr := fld d 51 42 + 1, nc := fld d 62 52 + 1, row0 := fld d 41 32, stride := toSigned 32 (fld d 31 0) }

/-- Whether a window exceeds a tile's shape (R259). -/
def exceeds (w : CopyWin) (k : Tile) : Bool := decide (k.rows < w.row0 + w.nr) || decide (k.cols < w.nc)

/-- A command accepted once its tiles have fewer than 255 commands and its engine has room (R57, R117, R122): x[rd] := n. -/
def acceptAt (rd : Reg) (key : TlKey) (op : CmdOp) (s : State) : Eff :=
  match op.pendTiles.find? fun k => decide (255 ≤ pendOf s k) with
  | some k => .park (.pend k 255) s
  | none =>
    if !engineOpen s op.matrix s.th then .park (.engine op.matrix) (joinEngine s op.matrix)
    else
      let (n, s1) := acceptCmd s key op []
      finishOp 8 (s1.wx rd (BitVec.ofNat 64 n))

/-- A copy command on a die without the pod window takes cause 0x1C when some row of its memory sides, given by their bases, begins there (R371, log 67). -/
def rowsAdmitted (bases : List Nat) (w : CopyWin) (s : State) (k : State → Eff) : Eff :=
  let inWindow := fun (base i : Nat) => decide (bitsAt (((base : Int) + (i : Int) * w.stride) % 2 ^ 64).toNat 56 8 = 255)
  if !s.hasFeat (coreOf s.th).die 10 && bases.any fun b => (List.range w.nr).any (inWindow b) then .trap { cause := 0x1C, tval := 10 } s else k s

/-- TLOAD (R257 to R259). -/
def execTload (rd : Reg) (ta : Handle) (rs1 rs2 : Reg) (tl : Tl) (s : State) : Host.Outcome State Fault Refusal :=
  tileIssue [rs1, rs2] [rd] s fun s =>
    rowsAdmitted [(s.rx rs1).toNat] (copyWin (s.rx rs2)) s fun s =>
    (findTlFor s tl).andThen fun key s1 =>
      (findTile s1 ta).andThen fun k s2 =>
        let w := copyWin (s2.rx rs2)
        if exceeds w k then .trap (tileTrap ta.toNat 0x05) s2
        else (writeUse s2 k).bind fun s3 => acceptAt rd key (.tload k.key (s3.rx rs1).toNat w) s3

/-- TSTORE (R257 to R259). -/
def execTstore (rd : Reg) (ta : Handle) (rs1 rs2 : Reg) (tl : Tl) (s : State) : Host.Outcome State Fault Refusal :=
  tileIssue [rs1, rs2] [rd] s fun s =>
    rowsAdmitted [(s.rx rs1).toNat] (copyWin (s.rx rs2)) s fun s =>
    (findTlFor s tl).andThen fun key s1 =>
      (findTile s1 ta).andThen fun k s2 =>
        let w := copyWin (s2.rx rs2)
        if exceeds w k then .trap (tileTrap ta.toNat 0x05) s2
        else (readUse s2 k).bind fun s3 => acceptAt rd key (.tstore k.key (s3.rx rs1).toNat w) s3

/-- TCOPY.t (R257 to R259): from tA to tB. -/
def execTcopyT (rd : Reg) (tb ta : Handle) (rs2 : Reg) (tl : Tl) (s : State) : Host.Outcome State Fault Refusal :=
  tileIssue [rs2] [rd] s fun s =>
    (findTlFor s tl).andThen fun key s1 =>
      (findTile s1 ta).andThen fun a s2 =>
        (findTile s2 tb).andThen fun b s3 =>
          let w := copyWin (s3.rx rs2)
          if exceeds w a then .trap (tileTrap ta.toNat 0x05) s3
          else if exceeds w b then .trap (tileTrap tb.toNat 0x05) s3
          else if a.fmt ≠ b.fmt then .trap (tileTrap ta.toNat 0x09) s3
          else (readUse s3 a).bind fun s4 => (writeUse s4 b).bind fun s5 => acceptAt rd key (.tcopyT a.key b.key w) s5

/-- TCOPY.m (R257 to R259). -/
def execTcopyM (rd rdst rs1 rs2 : Reg) (tl : Tl) (s : State) : Host.Outcome State Fault Refusal :=
  tileIssue [rdst, rs1, rs2] [rd] s fun s =>
    rowsAdmitted [(s.rx rs1).toNat, (s.rx rdst).toNat] (copyWin (s.rx rs2)) s fun s =>
    (findTlFor s tl).andThen fun key s1 => acceptAt rd key (.tcopyM (s1.rx rs1).toNat (s1.rx rdst).toNat (copyWin (s1.rx rs2))) s1

end Sys2Proof.Machine
end

