-- ==== Sys2Proof/Machine/Matrix.lean ====
section
/-! DEFINITION. The matrix array (R177 to R180, R260 to R267): the acceptance of its commands, and what they do to an accumulator bank. -/

namespace Sys2Proof.Machine

/-! Banks. -/

/-- M and N of the array (R260). -/
def arrayM : Nat := 64
def arrayN : Nat := 64

/-- A bank of a core's array; one that is not listed reads as +0 with KIND 0 (R261). -/
def State.bank (s : State) (c : CoreId) (b : Bool) : AccBank := (s.un.acc.find? fun a => decide (a.core = c) && a.bank == b).getD ⟨c, b, .fp32, []⟩

/-- A bank set. -/
def State.setBank (s : State) (a : AccBank) : State :=
  { s with un := { s.un with acc := a :: s.un.acc.filter fun x => !(decide (x.core = a.core) && x.bank == a.bank) } }

/-- An entry that holds +0. -/
def AccEntry.zero : AccEntry := ⟨0, false⟩

/-- The entry C[i][j]. -/
def AccBank.get (a : AccBank) (i j : Nat) : AccEntry := (look a.entries (i * arrayN + j)).getD AccEntry.zero

/-- A bank of a kind whose entries are given by row and column. -/
def bankOf (c : CoreId) (b : Bool) (k : AccKind) (f : Nat → Nat → AccEntry) : AccBank :=
  let cells := (List.range (arrayM * arrayN)).map fun n => (n, f (n / arrayN) (n % arrayN))
  ⟨c, b, k, cells.filter fun e => decide (e.2 ≠ AccEntry.zero)⟩

/-! Pairs (R177). -/

/-- A format of the per-k order. -/
def isWide (f : Fmt) : Bool := f == .bf16 || f == .fp16
/-- An FP8 or FP4 format. -/
def isNarrow (f : Fmt) : Bool := f == .e4m3 || f == .e5m2 || f == .mxfp4
/-- An integer format that the array takes. -/
def isInt8 (f : Fmt) : Bool := f == .int8 || f == .uint8 || f == .int4

/-- The accumulator of an operand pair; none when the pair is not accepted. -/
def pairKind (fa fb : Fmt) (scaled : Bool) : Option AccKind :=
  if isWide fa && isWide fb then some .fp32
  else if isNarrow fa && isNarrow fb then some .fp32
  else if isInt8 fa && isInt8 fb then some (if scaled then .fp32 else .int32)
  else if fa = .lns6 ∧ fb = .lns6 then some .lns
  else none

/-- The FEAT bit of an accepted pair (R371). -/
def pairFeat (fa fb : Fmt) : Nat :=
  if isWide fa then 4 else if fa = .lns6 then 7 else if fa = .mxfp4 ∨ fb = .mxfp4 then 6 else 5

/-! Acceptance. -/

/-- The kind of the pair of a TMMA command. -/
def CmdOp.kind : CmdOp → Option AccKind
  | .tmma _ _ _ fa fb sa sb _ _ => pairKind fa fb (sa.isSome || sb.isSome)
  | _ => none

/-- The KIND that a bank holds after every command accepted for it (R264). -/
def kindAfter (s : State) (c : CoreId) (b : Bool) : AccKind :=
  (s.un.cmds.filter fun m => decide (m.core = c)).foldl (fun k m =>
    match m.op with
    | .tmma bank _ _ _ _ _ _ _ za => if bank == b && za then m.op.kind.getD k else k
    | .taccrd bank _ _ _ _ clr => if bank == b && clr then .fp32 else k
    | _ => k) (s.bank c b).kind

/-- The tile of an enabled scale (R264). -/
def scaleTile (s : State) (x : ScaleShadow) : Res (Option Tile) :=
  if !x.en then .ok none s else (findTile s x.handle).bind fun t s1 => .ok (some t) s1

/-- The first of a list of conditions that holds, with the handle that it names: reason 0x09. -/
def firstNine (s : State) : List (Bool × Nat) → Option Eff
  | [] => none
  | (c, h) :: rest => if c then some (.trap (tileTrap h 0x09) s) else firstNine s rest

/-- Operands that may be read now, each with room for another read lock (R62, R65). -/
def operandsFree (s : State) : List TileKey → Eff
  | [] => .done s
  | k :: rest =>
    match s.tile? k with
    | none => operandsFree s rest
    | some t =>
      if !t.readOk s.th.tid || decide (63 ≤ t.readers.length) then .park (.tile k false) s else operandsFree s rest

/-- The array's read locks added to its operands (R65). -/
def lockOperands (s : State) (cmd : Nat) (ks : List TileKey) : State :=
  ks.foldl (fun s k => s.modTile k fun t => { t with readers := t.readers ++ [.array cmd] }) s

/-- A command with operands accepted (R65, R264): x[rd] := n, and the thread waits until the array has read them, in each of the
passes that read them all (R267). -/
def acceptArray (rd : Reg) (key : TlKey) (op : CmdOp) (operands : List TileKey) (passes : Nat) (s : State) : Eff :=
  (operandsFree s operands).bind fun s1 =>
    if !engineOpen s1 true s1.th then .park (.engine true) (joinEngine s1 true)
    else
      let id := s1.un.cmdNext
      let (n, s2) := acceptCmd s1 key op (List.replicate passes operands).flatten
      let s3 := (lockOperands s2 id operands).wx rd (BitVec.ofNat 64 n)
      .done ((s3.advance 8).onTh fun t => { t with run := .parked (.arrayRead id) })

/-- TMMA (R263 to R265). -/
def execTmma (bank sh za : Bool) (rd : Reg) (ta tb : Handle) (rs1 rs2 : Reg) (tl : Tl) (s : State) : Host.Outcome State Fault Refusal :=
  settle (issue .matrix [] [rs1, rs2] [rd] s fun s =>
    let sw := s.rx rs2
    let xa : ScaleShadow := if sh then s.th.scla else ⟨bitOf sw 16, sw.extractLsb' 0 8⟩
    let xb : ScaleShadow := if sh then s.th.sclb else ⟨bitOf sw 17, sw.extractLsb' 8 8⟩
    (findTlFor s tl).andThen fun key s1 =>
      (findTile s1 ta).andThen fun a s2 =>
        (findTile s2 tb).andThen fun b s3 =>
          (scaleTile s3 xa).andThen fun ka s4 =>
            (scaleTile s4 xb).andThen fun kb s5 =>
              let k := (s5.rx rs1).toNat
              let fa := if sh then s5.th.fmta else a.fmt
              let fb := if sh then s5.th.fmtb else b.fmt
              let kind := pairKind fa fb (ka.isSome || kb.isSome)
              let blocks := (k + 31) / 32
              let badScale := fun (t : Option Tile) (rows cols : Nat) =>
                match t with
                | some t => decide (t.fmt ≠ .uint8) || decide (t.rows < rows) || decide (t.cols < cols)
                | none => false
              let early := firstNine s5 [(decide (k = 0) || decide (2048 < k), ta.toNat), (kind.isNone, ta.toNat)]
              let late := firstNine s5
                [ (isWide fa && ka.isSome, ta.toNat), (isWide fb && kb.isSome, tb.toNat)
                , (fa == .mxfp4 && ka.isNone, ta.toNat), (fb == .mxfp4 && kb.isNone, tb.toNat)
                , (decide (fa.width ≠ a.fmt.width), ta.toNat), (decide (fb.width ≠ b.fmt.width), tb.toNat)
                , (decide (a.rows < arrayM) || decide (a.cols < k), ta.toNat), (decide (b.rows < k) || decide (b.cols < arrayN), tb.toNat)
                , (badScale ka arrayM blocks, xa.handle.toNat), (badScale kb blocks arrayN, xb.handle.toNat)
                , (!za && decide (kind ≠ some (kindAfter s5 (coreOf s5.th) bank)), ta.toNat) ]
              match early with
              | some e => e
              | none =>
                if !s5.hasFeat (coreOf s5.th).die (pairFeat fa fb) then .trap { cause := 0x1C, tval := BitVec.ofNat 64 (pairFeat fa fb) } s5
                else
                  match late with
                  | some e => e
                  | none =>
                    let operands := uniq ([a.key, b.key] ++ (ka.map (·.key)).toList ++ (kb.map (·.key)).toList)
                    acceptArray rd key (.tmma bank a.key b.key fa fb (ka.map (·.key)) (kb.map (·.key)) k za) operands 1 s5)

/-- TACCRD (R263, R266). -/
def execTaccrd (bank : Bool) (rm : Rm) (sat clr : Bool) (rd : Reg) (tb : Handle) (tl : Tl) (s : State) : Host.Outcome State Fault Refusal :=
  settle (issue .matrix [] [] [rd] s fun s =>
    (findTlFor s tl).andThen fun key s1 =>
      (findTile s1 tb).andThen fun k s2 =>
        if k.fmt = .mxfp4 ∨ k.rows < arrayM ∨ k.cols < arrayN then .trap (tileTrap tb.toNat 0x09) s2
        else
          (writeUse s2 k).bind fun s3 =>
            let mode := if rm = .dyn then s3.th.rndmode else rm
            acceptAt rd key (.taccrd bank k.key mode sat s3.th.dsrseed clr) s3)

/-- TMMA32 (R263, R267): its checks are micro-step 0. -/
def execTmma32 (bank : Bool) (rd : Reg) (ta tb : Handle) (rs1 : Reg) (tl : Tl) (s : State) : Host.Outcome State Fault Refusal :=
  settle (issue .matrix [9] [rs1] [rd] s fun s =>
    inMicro 0 ((findTlFor s tl).andThen fun key s1 =>
      (findTile s1 ta).andThen fun a s2 =>
        (findTile s2 tb).andThen fun b s3 =>
          let k := (s3.rx rs1).toNat
          let bad := firstNine s3
            [ (decide (k = 0) || decide (2048 < k), ta.toNat), (decide (a.fmt ≠ .fp32) || decide (b.fmt ≠ .fp32), ta.toNat)
            , (decide (a.rows < arrayM) || decide (a.cols < k), ta.toNat), (decide (b.rows < k) || decide (b.cols < arrayN), tb.toNat)
            , (decide (kindAfter s3 (coreOf s3.th) bank ≠ .fp32), ta.toNat) ]
          match bad with
          | some e => e
          | none => acceptArray rd key (.tmma32 bank a.key b.key k) (uniq [a.key, b.key]) 3 s3))

/-! What the array does. -/

/-- An operand that a command has read, in pass n of those that read it. -/
def Cmd.operandAt (c : Cmd) (k : TileKey) (n : Nat) : Captured := ((c.captured.filter fun o => decide (o.key = k))[n]?).getD ⟨k, .uint8, 1, []⟩

/-- An operand that a command has read. -/
def Cmd.operand (c : Cmd) (k : TileKey) : Captured := c.operandAt k 0

/-- An element of a captured operand read in a format of its width. -/
def Captured.get (o : Captured) (f : Fmt) (row col : Nat) : Nat := elemGet f o.bytes (row * pitchOf o.fmt o.cols * 64) col

/-- The FP32 sum of an accumulator and an exact value, rounded once (R178). -/
def accAdd (c : Nat) (v : Val) : Nat := (finish fp32 rne (fpAdd .rne (fp32.value c) v)).1

/-- The exact product of two elements (R178): integers have no −0. -/
def elemProduct (fa fb : Fmt) (x y : Nat) : Val :=
  match isInt8 fa && isInt8 fb, fmtValue fa x, fmtValue fb y with
  | true, .num n1 m1 _, .num n2 m2 _ => .ofInt (if n1 == n2 then (m1 * m2 : Nat) else -((m1 * m2 : Nat) : Int))
  | _, a, b => (fpMul a b).1

/-- An exact sum of values (R178); an empty one is +0. -/
def exactSum : List Val → Val
  | [] => .zero false
  | v :: rest => rest.foldl (fun a b => (fpAdd .rne a b).1) v

/-- A value times 2^(sa + sb − 254), NaN when a scale is 255 (R168, R178). -/
def scaled (v : Val) (sa sb : Nat) : Val :=
  if sa = 255 ∨ sb = 255 then .nan false
  else match v with
    | .num n m e => .num n m (e + sa + sb - 254)
    | v => v

/-- The operands of one accumulator entry, as the array reads them: A[i][k], B[k][j], and the two scales of block b. -/
structure Lane where
  a : Nat → Nat
  b : Nat → Nat
  sa : Nat → Nat
  sb : Nat → Nat

/-- R178. -/
def mmaFp (fa fb : Fmt) (k : Nat) (l : Lane) (c : Nat) : Nat :=
  if isWide fa then (List.range k).foldl (fun c i => accAdd c (elemProduct fa fb (l.a i) (l.b i))) c
  else
    (List.range ((k + 31) / 32)).foldl (fun c b =>
      let sum := exactSum ((List.range (min 32 (k - 32 * b))).map fun i => elemProduct fa fb (l.a (32 * b + i)) (l.b (32 * b + i)))
      accAdd c (scaled sum (l.sa b) (l.sb b))) c

/-- An integer element. -/
def intElem (f : Fmt) (x : Nat) : Int :=
  match f with
  | .uint8 => x % 256
  | f => toSigned f.width x

/-- R179: the accumulator as 32 bits. -/
def mmaInt (fa fb : Fmt) (k : Nat) (l : Lane) (c : Int) : Int :=
  toSigned 32 (ofSigned 32 ((List.range k).foldl (fun c i => c + intElem fa (l.a i) * intElem fb (l.b i)) c))

/-- The table T of R180. -/
def lnsTable (f : Nat) : Nat :=
  match f with
  | 0 => 0x8000
  | 1 => 0x9838
  | 2 => 0xB505
  | _ => 0xD745

/-- One term of R180. -/
def lnsTerm (c : AccEntry) (x y sa sb : Nat) : AccEntry :=
  let special := fun (v : Nat) => decide (lnsExp v = -16)
  if (special x && lnsNeg x) || (special y && lnsNeg y) || decide (sa = 255) || decide (sb = 255) then { c with nar := true }
  else if special x || special y then c
  else
    let e : Int := lnsExp x + lnsExp y + 4 * ((sa : Int) + sb - 254)
    let sh : Int := e / 4 + 8
    let t := lnsTable (e % 4).toNat
    let m : Nat := if 0 ≤ sh then t * 2 ^ sh.toNat else t / 2 ^ (-sh).toNat
    let term : Int := if lnsNeg x == lnsNeg y then m else -(m : Int)
    { c with v := max (-2 ^ 47) (min (2 ^ 47 - 1) (c.v + term)) }

/-- R180. -/
def mmaLns (k : Nat) (l : Lane) (c : AccEntry) : AccEntry :=
  (List.range k).foldl (fun c i => lnsTerm c (l.a i) (l.b i) (l.sa (i / 32)) (l.sb (i / 32))) c

/-- An entry after one TMMA (R177). -/
def mmaEntry (kind : AccKind) (fa fb : Fmt) (k : Nat) (l : Lane) (c : AccEntry) : AccEntry :=
  match kind with
  | .fp32 => ⟨mmaFp fa fb k l c.v.toNat, false⟩
  | .int32 => ⟨mmaInt fa fb k l c.v, false⟩
  | .lns => mmaLns k l c

/-- The bank after a TMMA (R265). -/
def mmaBank (bk : AccBank) (c : Cmd) (a b : TileKey) (fa fb : Fmt) (sa sb : Option TileKey) (k : Nat) (kind : AccKind) (za : Bool) : AccBank :=
  let oa := c.operand a
  let ob := c.operand b
  let scale := fun (t : Option TileKey) (row col : Nat) => match t with | some t => (c.operand t).get .uint8 row col | none => 127
  bankOf bk.core bk.bank kind fun i j =>
    mmaEntry kind fa fb k ⟨fun x => oa.get fa i x, fun x => ob.get fb x j, fun b => scale sa i b, fun b => scale sb b j⟩
      (if za then AccEntry.zero else bk.get i j)

/-- hi(v) of TMMA32 (R267), as FP32 bits. -/
def hiPart (v : Nat) : Nat := if v / 2 ^ 23 % 256 = 255 then v else v / 65536 * 65536

/-- lo(v) of TMMA32 (R267), as a value. -/
def loPart (v : Nat) : Val :=
  if v / 2 ^ 23 % 256 = 255 then .zero false
  else bf16.value (roundTo bf16 ⟨.rtz, false, 0, 0⟩ (fpSub .rtz (fp32.value v) (fp32.value (hiPart v))).1).1

/-- The bank after a TMMA32 (R267). -/
def mma32Bank (bk : AccBank) (c : Cmd) (a b : TileKey) (k : Nat) : AccBank :=
  let hi := fun v => fp32.value (hiPart v)
  bankOf bk.core bk.bank .fp32 fun i j =>
    let pass := fun (n : Nat) (f g : Nat → Val) (w : Nat) =>
      let oa := c.operandAt a n
      let ob := c.operandAt b n
      (List.range k).foldl (fun w x => accAdd w (fpMul (f (oa.get .fp32 i x)) (g (ob.get .fp32 x j))).1) w
    ⟨pass 2 hi hi (pass 1 hi loPart (pass 0 loPart hi (bk.get i j).v.toNat)), false⟩

/-- The value of an accumulator entry as TACCRD reads it (R180, R266). -/
def accValue (k : AccKind) (e : AccEntry) : Val :=
  match k with
  | .fp32 => fp32.value e.v.toNat
  | .int32 => .ofInt e.v
  | .lns => if e.nar then .nan false else .num (decide (e.v < 0)) e.v.natAbs (-23)

/-- A tile after a TACCRD (R266). -/
def taccrdTile (bk : AccBank) (mode : Rm) (sat : Bool) (seed : BitVec 32) (t : Tile) : Tile :=
  (List.range (arrayM * arrayN)).foldl (fun t n =>
    let i := n / arrayN
    let j := n % arrayN
    t.put i j (fmtRound t.fmt ⟨mode, sat, seed, i * 65536 + j⟩ (accValue bk.kind (bk.get i j))).1) t

end Sys2Proof.Machine
end

