-- ==== Sys2Proof/Machine/XlateEvents.lean ====
section
/-! DEFINITION. Events of translation: the miss queue (R37), context records (R21), the end of a TLBINV (R42) and key slots (R34). -/

namespace Sys2Proof.Machine

/-- A thread that waits in a way given issues again. -/
def wake (s : State) (t : Tid) (p : Wait → Bool) : State :=
  s.modThread t fun th => { th with run := match th.run with | .parked w => if p w then .running else th.run | r => r }

/-- MISS_QUEUE_SERVE (R37): with a walker free, the oldest miss of the die's queue starts its walk: its thread, or its command's row, makes the access
again. -/
def execMissQueueServe (die : Nat) (s : State) : Host.Outcome State Fault Refusal :=
  match s.xl.missQ.find? fun q => decide (q.die = die) && !q.served with
  | none => .next s
  | some q =>
    if 256 ≤ walksInFlight s die then .next s
    else
      let s1 := { s with xl := { s.xl with missQ := s.xl.missQ.map fun r => if r = q then { r with served := true } else r } }
      .next (if q.cmd.isSome then s1 else wake s1 q.tid fun w => w == .missQueue)

/-- CONTEXT_RECORD_WRITE (R21). -/
def execContextRecordWrite (ctx : BitVec 12) (dword : BitVec 2) (v : Word) (s : State) : Host.Outcome State Fault Refusal :=
  .next (contextWrite s ctx.toNat dword.toNat v)

/-- A TLBINV ended, with the package that failed to acknowledge it, if any: its thread goes on. -/
def endInval (s : State) (i : Inval) (failed : Option Nat) : State :=
  let s1 := { s with xl := { s.xl with inv := s.xl.inv.map fun j => if j.id = i.id then { j with done := true, failed := failed } else j } }
  wake s1 i.tid fun w => w == .tlbinv i.id

/-- Every core's write-through queue delivered. -/
def drainAll (s : State) : State := (uniq (s.ms.wtq.map (·.core))).foldl drainCore s

/-- TLBINV_COMPLETE (R42): every access through a removed entry is performed first: those that the write-through queues hold are delivered, and every
other is performed as it is translated. -/
def execTlbinvComplete (n : Nat) (s : State) : Host.Outcome State Fault Refusal :=
  match s.xl.inv.find? fun i => decide (i.id = n) && !i.done with
  | some i => .next (endInval (drainAll s) i none)
  | none => .next s

/-- TLBINV_POD_TIMEOUT (R42): another package has not acknowledged within 200 µs. -/
def execTlbinvPodTimeout (n pkg : Nat) (s : State) : Host.Outcome State Fault Refusal :=
  match s.xl.inv.find? fun i => decide (i.id = n) && !i.done && i.ask.isSome with
  | some i => .next (if i.sinceNs + 200000 ≤ s.clk.time ∧ pkg ≠ s.clk.pkg then endInval (drainAll s) i (some (pkg % 1024)) else s)
  | none => .next s

/-- Every line tagged with a key slot written back and dropped, in every cache (R34); the first-level data caches drop all their lines (R71, R74).
Provisional lines stay with their tasks (log 30). -/
def flushSlot (s : State) (slot : Nat) : State :=
  let tagged := fun (k : Option KeyTag) => match k with | some t => decide (t.slot = slot) | none => false
  let s1 := (uniq ((s.ms.wtq.filter fun e => tagged e.key).map (·.core))).foldl drainCore s
  let held := uniq (s1.ms.l2.map (·.line) ++ s1.ms.llcl ++ s1.ms.l2d.map (fun c => lineOf c.1) ++ s1.ms.llc.map fun c => lineOf c.1)
  let lines := held.filter fun l => (List.range 8).any fun k => tagged (look s1.ms.lineKey (l * 8 + k))
  let m := lines.foldl homeOnly s1.ms
  { s1 with ms := { m with l1d := [], gath := [], l1i := m.l1i.filter fun l => !tagged l.key } }

/-- A key request that the security root has accepted, carried out (R388). -/
def serveKeyReq (s : State) (op : SpdmOp) : State := { s with pf := { s.pf with keyReqs := s.pf.keyReqs.erase op } }

/-- KEY_SLOT_LOAD (R33, R34, R388): a slot from 0 to 2,047 loaded or reloaded with a new key for a partition, on a request from a secured session. -/
def execKeySlotLoad (slot part : Nat) (s : State) : Host.Outcome State Fault Refusal :=
  if !s.pf.keyReqs.contains (.loadKey slot part) || decide (2048 ≤ slot) || decide (16 ≤ part) then .next s
  else
    let s1 := flushSlot (serveKeyReq s (.loadKey slot part)) slot
    .next { s1 with xl := { s1.xl with keys := assoc s1.xl.keys slot ⟨part, s1.xl.keyGen + 1⟩, keyGen := s1.xl.keyGen + 1 } }

/-- KEY_SLOT_UNLOAD (R34, R388). -/
def execKeySlotUnload (slot : Nat) (s : State) : Host.Outcome State Fault Refusal :=
  if !s.pf.keyReqs.contains (.unloadKey slot) then .next s
  else
    let s1 := flushSlot (serveKeyReq s (.unloadKey slot)) slot
    .next { s1 with xl := { s1.xl with keys := unassoc s1.xl.keys slot } }

end Sys2Proof.Machine
end

