-- ==== Sys2Proof/Machine/EngineEvents.lean ====
section
/-! DEFINITION. Events of the copy engines and the matrix array (R65, R123, R126 to R131, R265 to R267), and of the pod window (R38, R132, R133). -/

namespace Sys2Proof.Machine

/-! What a row comes to. -/

/-- A part of a row: it is done; or it waits for another package; or it faults. -/
inductive Row (α : Type) where
  | ok (a : α) (s : State)
  | wait (s : State)
  | fault (h : HeldFault) (s : State)

/-- The rest of a row. -/
def Row.bind {α β : Type} (r : Row α) (k : α → State → Row β) : Row β :=
  match r with
  | .ok a s => k a s
  | .wait s => .wait s
  | .fault h s => .fault h s

/-- The held fault of an access that is not made (R43, R129): cause 0x0F, or 0x10 for poison in the tables. -/
def heldBy (f : XFault) (va : Nat) : HeldFault :=
  match f with
  | .cls c l => ⟨0x0F, BitVec.ofNat 64 va, c, l, false, [], false⟩
  | .poison => ⟨0x10, BitVec.ofNat 64 va, 0, 0, false, [], false⟩

/-- The thread of a command; one that has ended is known by its name and its context. -/
def cmdThread (s : State) (c : Cmd) : Thread :=
  let gone := { Thread.reset with tid := c.tid, ctx := c.ctx }
  if c.orphan.isSome then gone else (s.getThread c.tid).getD gone

/-- The view in which a command reads memory: its task's, while the task lives (R80). -/
def Cmd.view (c : Cmd) (s : State) : Option Nat := if c.orphan.isSome then none else s.viewOf c.tid.stand

/-- The stand in provisional mode that a command's write is to belong to, if any (R79). -/
def Cmd.provStand (c : Cmd) (s : State) : Option Stand := if c.priv || c.orphan.isSome then none else s.provStand c.tid.stand

/-- The number of rows that the fabric engine of a die carries (R117): each command has at most one on its way. -/
def fabricRows (s : State) (die : Nat) : Nat :=
  (s.un.cmds.filter fun d => decide (d.core.die = die) && d.pod.any fun p => p.answer.isNone).length

/-- The request of a row to another package: answered, or awaited; one not yet made is made once the die's fabric engine has room (R117, R133). -/
def rowAsk (s : State) (c : Cmd) (pkg offset va : Nat) (op : PodOp) : Row Nat :=
  let known := (c.pod.find? fun p => decide (p.va = va) && decide (p.op = op)).isSome
  if !known && decide (4096 ≤ fabricRows s c.core.die) then .wait s
  else
    match askPod s c.pod { id := 0, dst := pkg, tid := c.tid, cmd := some c.id, va := va, offset := offset, jobid := jobidOf s c.ctx, op := op
                           how := { plainAt (tlScope c.tln) with sup := c.priv, vec := true }, sentNs := 0, posted := none, strip := false } with
    | .value v => .ok v s
    | .fault f off => .fault (heldBy f (va + off)) s
    | .wait pods s1 => .wait (s1.modCmd c.id fun d => { d with pod := pods })

/-- Requests of a row to other packages made one after the other, each awaited. -/
def rowAskAll (s : State) (c : Cmd) : List (Nat × Nat × Nat × PodOp) → Row Unit
  | [] => .ok () s
  | (pkg, off, va, op) :: rest => (rowAsk s c pkg off va op).bind fun _ s1 => rowAskAll s1 c rest

/-- A row's memory side translated (R46), its last-level misses joining walks or waiting for one as a thread's do (R37): the parts, or the lowest fault. A
fault that lies behind a part in another package comes after that part's. -/
def rowCuts (s : State) (c : Cmd) (k : Access) : List (Nat × Nat) → List Part → Row (List Part)
  | [], acc => .ok (joinParts acc.reverse) s
  | (va, n) :: rest, acc =>
    let fails := fun (h : HeldFault) (s : State) => (rowAskAll s c (probes k.writes (joinParts acc.reverse))).bind fun _ s1 => .fault h s1
    match resolveVa s k va with
    | .error f => fails (heldBy f va) s
    | .ok (.remote pkg off) =>
      if routeUp s then rowCuts s c k rest (.there pkg off va n :: acc) else fails (heldBy (.cls 0x6 0) va) s
    | .ok (.localTo a) =>
      match translateOn s c.core.die c.tid (some c.id) (coreWalker c.ctx c.core c.tid) k a with
      | none => .wait (joinMissQueue s c.core.die c.tid (some c.id) c.ctx a)
      | some (.error f, s1) => fails (heldBy f va) s1
      | some (.ok x, s1) => rowCuts s1 c k rest (.here x va n :: acc)

/-- A row's memory side translated. A preload's row for another package finds no route on a die without the pod window; an instruction's is not accepted
there (log 67). -/
def rowParts (s : State) (c : Cmd) (a : Acc) (va n : Nat) : Row (List Part) :=
  let cuts := pageCuts (n / 4096 + 2) va n
  match cuts.find? fun p => decide (bitsAt p.1 56 8 = 255) && !s.hasFeat c.core.die 10 with
  | some p => .fault (heldBy (.cls 0x6 0) p.1) s
  | none => rowCuts s c ⟨a, c.priv, true⟩ cuts []

/-- The bytes of a translated part as the command's thread would see them below its first-level cache (R72, R80, R87 to R89, R113). -/
def engineRead (s0 : State) (c : Cmd) (x : Xlated) (va n : Nat) : Row (List Byte) :=
  let t := cmdThread s0 c
  let view := c.view s0
  let lines := uniq ((List.range n).map fun k => lineOf (x.pa + k))
  let s := if view.isSome then provRepair s0 c.tid.stand fun l => lines.contains l else s0
  match (if view.isSome then provLost s t fun l => lines.contains l else none) with
  | some s1 => .fault (heldBy .poison va) s1
  | none =>
    let die := s.l2DieOf c.tid.stand c.core.die
    match readBelow s die view x n with
    | (.ok bs, s1) => .ok bs s1
    | (.error k, s1) => .fault (heldBy .poison (va + k)) (consumePoison s1 (if x.mt = 0 then some die else none) t (lineOf (x.pa + k)) (va + k))

/-- The parts of a row read. -/
def rowRead (s : State) (c : Cmd) : List Part → List Byte → Row (List Byte)
  | [], acc => .ok acc s
  | .here x va n :: rest, acc => (engineRead s c x va n).bind fun bs s1 => rowRead s1 c rest (acc ++ bs)
  | .there pkg off va n :: rest, acc => (rowAsk s c pkg off va (.load n)).bind fun v s1 => rowRead s1 c rest (acc ++ leBytes n v)

/-- Whether a row's write publishes its task first (R79, R82, R83). -/
def rowPublishes (s : State) (c : Cmd) (ps : List Part) : Bool :=
  match c.provStand s with
  | none => false
  | some st =>
    ps.any (fun p => match p with | .here x _ _ => decide (regionOf x.pa ≠ 0) || decide (x.mt ≠ 0) | .there .. => true)
      || !provRooms s st (uniq ((partPas ps).map lineOf))

/-- The publication before a row's direct write (R83): one that reads a lost line of the task is cause 0x10 (R88, log 73). -/
def rowPublish (s : State) (c : Cmd) : Row Unit :=
  match c.provStand s with
  | none => .ok () s
  | some st =>
    let s1 := provRepair s st.id fun _ => true
    match provLost s1 (cmdThread s1 c) fun _ => true with
    | some s2 => let (w, s3) := s2.takeFree; .fault { heldBy .poison 0 with tval := w } s3
    | none => .ok () (publishEarly s1 st.id)

/-- The pieces of a row within lines. -/
def rowLines : Nat → Nat → Nat → List (Nat × Nat)
  | 0, _, _ => []
  | f + 1, pa, n => if n = 0 then [] else (pa, min n (128 - pa % 128)) :: rowLines f (pa + min n (128 - pa % 128)) (n - min n (128 - pa % 128))

/-- Bytes written at the home, line by line; a piece that covers its line clears the line's poison (R88). -/
def homePieces (m : MemSys) (key : Option KeyTag) : List (Nat × Nat) → List Byte → MemSys
  | [], _ => m
  | (pa, n) :: rest, bs =>
    let cs := cellsAt pa (bs.take n)
    homePieces (if n = 128 then homeWriteWhole m key cs else homeWrite m key cs) key rest (bs.drop n)

/-- A piece of a row written within one line under MT 00: provisional for a user thread's task in provisional mode, else committed (R79, R88). -/
def engineWriteLine (s : State) (c : Cmd) (x : Xlated) (bs : List Byte) : State :=
  let whole := decide (bs.length = 128)
  match c.provStand s, x.key with
  | some st, some k => { s with ms := provMerge s.ms st.id st.die k (cellsAt x.pa bs) whole }
  | _, _ => { s with ms := commitCells s.ms c.core.die x.key (cellsAt x.pa bs) whole }

/-- The pieces of a row written. -/
def engineWriteLines (s : State) (c : Cmd) (x : Xlated) : List (Nat × Nat) → List Byte → State
  | [], _ => s
  | (pa, n) :: rest, bs => engineWriteLines (engineWriteLine s c { x with pa := pa } (bs.take n)) c x rest (bs.drop n)

/-- A translated part of a row written, in the order of its bytes after what the command comes after (R95, R105); first-level copies of its lines go (R101
case 6 at core scope). -/
def engineWrite (s : State) (c : Cmd) (x : Xlated) (bs : List Byte) : State :=
  let lines := rowLines 34 x.pa bs.length
  let by_ : RmwBy := ⟨s.clk.pkg, c.tid, c.core, tlScope c.tln⟩
  let m := engineTrack s.ms by_ c.know ((c.provStand s).map (·.id)) s.dieCycle (cellsAt x.pa bs)
  let s0 := { s with ms := m }
  let s1 := if m.trackNext = s.ms.trackNext then s0 else s0.modCmd c.id fun d => { d with know := s.ms.trackNext :: d.know }
  let s2 := if x.mt = 0 then engineWriteLines s1 c x lines bs else { s1 with ms := homePieces s1.ms x.key lines bs }
  { s2 with ms := dropCopies s2.ms (lines.map fun p => lineOf p.1) }

/-- The parts of a row in this package written. -/
def rowWriteHere (s : State) (c : Cmd) : List Part → List Byte → State
  | [], _ => s
  | .here x _ n :: rest, bs => rowWriteHere (engineWrite s c x (bs.take n)) c rest (bs.drop n)
  | .there _ _ _ n :: rest, bs => rowWriteHere s c rest (bs.drop n)

/-- A row's memory read, once its parts in other packages are translated (R44, R46). -/
def memRow (s : State) (c : Cmd) (va n : Nat) : Row (List Byte) :=
  (rowParts s c .load va n).bind fun ps s1 =>
    (rowAskAll s1 c (if ps.length ≤ 1 then [] else probes false ps)).bind fun _ s2 => rowRead s2 c ps []

/-- A row's memory written, once all of it is translated (R46): none of a command whose task's lines are discarded (R61, R86). -/
def memRowPut (s : State) (c : Cmd) (va : Nat) (bs : List Byte) : Row Unit :=
  if c.orphan = some false then .ok () s
  else
    (rowParts s c .store va bs.length).bind fun ps s1 =>
      (if rowPublishes s1 c ps then rowPublish s1 c else .ok () s1).bind fun _ s2 =>
        (rowAskAll s2 c (farOps false ps bs)).bind fun _ s3 => .ok () (rowWriteHere s3 c ps bs)

/-! Tile rows. -/

/-- The elements of a tile's row, packed (R258): an odd 4-bit row's last nibble is 0. -/
def packRow (t : Tile) (row nc : Nat) : List Byte :=
  let cells := (List.range nc).foldl (fun b col => elemPut t.fmt b 0 col (t.get row col)) []
  cellGetList 0 cells 0 (rowBytes t.fmt nc)

/-- A tile with a row's elements written from packed bytes; a row written whole holds no error. -/
def unpackRow (t : Tile) (row nc : Nat) (bs : List Byte) : Tile :=
  let cells := cellPutList 0 [] 0 bs
  let t1 := (List.range nc).foldl (fun u col => u.put row col (elemGet t.fmt cells 0 col)) t
  { t1 with bad := if nc = t.cols then t1.bad.filter fun b => decide (b.1 ≠ row) else t1.bad }

/-- A tile as a command finds it: the discarded stripes of one that has been freed since it was accepted (R61). -/
def tileFor (s : State) (c : Cmd) (key : TileKey) : Option Tile :=
  match c.ghosts.find? fun t => decide (t.key = key) with
  | some t => some t
  | none => s.tile? key

/-- A tile changed by a command, or its discarded stripes (R61). -/
def modTileFor (s : State) (c : Cmd) (key : TileKey) (f : Tile → Tile) : State :=
  if c.ghosts.any fun t => decide (t.key = key) then
    s.modCmd c.id fun d => { d with ghosts := d.ghosts.map fun t => if t.key = key then f t else t }
  else s.modTile key f

/-- A tile's row read by a command: its packed elements, or the fault of a poisoned row (R89). -/
def tileRow (s : State) (c : Cmd) (key : TileKey) (row nc : Nat) : Row (List Byte) :=
  let packed := fun (s : State) => match tileFor s c key with | some t => packRow t row nc | none => []
  if c.ghosts.any fun t => decide (t.key = key) then .ok (packed s) s
  else
    match readTileRows s (cmdThread s c) key [row] with
    | (some r, s1) => .fault ⟨0x10, (tilePoison s1 key r).tval, 0, 0, true, (tilePoison s1 key r).exclude, false⟩ s1
    | (none, s1) => .ok (packed s1) s1

/-- The tile rows that a copy command has still to touch: the tile, the rows and whether they are written. -/
def Cmd.tileRows (c : Cmd) : List (TileKey × Nat × Nat × Bool) :=
  let rows := fun (w : CopyWin) => (w.row0 + c.prog, w.row0 + w.nr)
  match c.op with
  | .tload t _ w => [(t, (rows w).1, (rows w).2, true)]
  | .tstore t _ w => [(t, (rows w).1, (rows w).2, false)]
  | .tcopyT a b w => [(a, (rows w).1, (rows w).2, false), (b, (rows w).1, (rows w).2, true)]
  | _ => []

/-- The window of a copy command. -/
def CmdOp.win : CmdOp → Option CopyWin
  | .tload _ _ w | .tstore _ _ w | .tcopyT _ _ w | .tcopyM _ _ w => some w
  | _ => none

/-- Whether a command's next row has to follow an earlier command of its engine at the tile side (R126). -/
def rowBlocked (s : State) (c : Cmd) (w : CopyWin) : Bool :=
  let row := w.row0 + c.prog
  let mine := c.tileRows.map fun r => (r.1, r.2.2.2)
  s.un.cmds.any fun d => decide (d.id < c.id) && !d.op.matrix && sameEngine false d.core c.core && d.tileRows.any fun r =>
    decide (r.2.1 ≤ row) && decide (row < r.2.2.1) && mine.any fun m => decide (m.1 = r.1) && (m.2 || r.2.2.2)

/-! Copy rows. -/

/-- The source of a row, read once: it is kept while the row's write waits for other packages (R127). -/
def rowSource (s : State) (c : Cmd) (read : Row (List Byte)) : Row (List Byte) :=
  match c.row with
  | some bs => .ok bs s
  | none => read.bind fun bs s1 => .ok bs (s1.modCmd c.id fun d => { d with row := some bs })

/-- A command's next row performed (R127, R258). -/
def performRow (s : State) (c : Cmd) (w : CopyWin) : Row Unit :=
  let row := w.row0 + c.prog
  let at_ := fun (base : Nat) => (((base : Int) + (c.prog : Int) * w.stride) % 2 ^ 64).toNat
  match c.op with
  | .tload key base _ =>
    (match tileFor s c key with
    | none => .ok () s
    | some t => (memRow s c (at_ base) (rowBytes t.fmt w.nc)).bind fun bs s1 => .ok () (modTileFor s1 c key fun u => unpackRow u row w.nc bs))
  | .tstore key base _ => (rowSource s c (tileRow s c key row w.nc)).bind fun bs s1 => memRowPut s1 c (at_ base) bs
  | .tcopyT a b _ => (tileRow s c a row w.nc).bind fun bs s1 => .ok () (modTileFor s1 c b fun u => unpackRow u row w.nc bs)
  | .tcopyM src dst _ => (rowSource s c (memRow s c (at_ src) w.nc)).bind fun bs s1 => memRowPut s1 c (at_ dst) bs
  | _ => .ok () s

/-- The TLOAD of a preload that faults cancelled, with its tile (R326). -/
def cancelPreload (s : State) (c : Cmd) : State :=
  let s1 := (freeTiles s fun t => c.op.pendTiles.contains t.key).dropCmd c.id
  { s1 with gl := { s1.gl with preloads := s1.gl.preloads.map fun e => if e.stand = c.tid.stand then { e with tile := none } else e } }

/-- A command held at its row (R129, R130); a thread in a TLWAIT on its counter goes on to take the fault. One whose thread has ended ends the stand
(R131). One whose stand has ended passes over the row (R61, log 82), and a preload's is cancelled (R326). -/
def holdCmd (s : State) (c : Cmd) (h : HeldFault) : State :=
  if c.orphan.isSome then s.modCmd c.id fun d => { d with prog := d.prog + 1, pod := [], row := none }
  else if c.seq = 0 then cancelPreload s c
  else
    let s1 := s.modCmd c.id fun d => { d with held := some h, pod := [], row := none }
    match s1.getThread c.tid, s1.stand? c.tid.stand with
    | none, some st => heldEnd s1 st { c with held := some h } h
    | _, _ => wake s1 c.tid fun w => match w with | .timeline k _ => decide (k = c.key) | _ => false

/-- Whether a command's thread has earlier stores that are not yet accepted (R105). -/
def storesBefore (s : State) (c : Cmd) : Bool := c.orphan.isNone && s.ms.posted.any fun p => decide (p.tid = c.tid)

/-- COPY_ROW (R46, R126, R127, R129): the next row of a copy command, which follows its thread's earlier stores (R105). -/
def execCopyRow (cmd : Nat) (s : State) : Host.Outcome State Fault Refusal :=
  match s.cmd? cmd with
  | none => .next s
  | some c =>
    match c.op.win with
    | none => .next s
    | some w =>
      if c.held.isSome || decide (w.nr ≤ c.prog) || storesBefore s c || rowBlocked s c w then .next s
      else
        let s0 := drainCore s c.core
        match performRow s0 c w with
        | .ok _ s1 => .next (s1.modCmd cmd fun d => { d with prog := d.prog + 1, pod := [], row := none })
        | .wait s1 => .next s1
        | .fault h s1 => .next (holdCmd s1 c h)

/-! The matrix array. -/

/-- The oldest matrix command of a core. -/
def oldestMatrix (s : State) (c : CoreId) : Option Cmd := s.un.cmds.find? fun d => d.op.matrix && decide (d.core = c)

/-- The rows of an operand that a command reads (R89, R265). -/
def operandRows (op : CmdOp) (k : TileKey) : List Nat :=
  let rows := fun (a b : TileKey) (sa sb : Option TileKey) (n : Nat) =>
    uniq ((if k = a ∨ sa = some k then List.range arrayM else []) ++ (if k = b then List.range n else []) ++
      (if sb = some k then List.range ((n + 31) / 32) else []))
  match op with
  | .tmma _ a b _ _ sa sb n _ => rows a b sa sb n
  | .tmma32 _ a b n => rows a b none none n
  | _ => []

/-- The micro-step of a TMMA32 whose operands are still to be read (R267): each reads every operand once. -/
def Cmd.micro (c : Cmd) : Nat := let n := (uniq c.toRead).length; if n = 0 then 3 else 4 - (c.toRead.length + n - 1) / n

/-- The operands that the array may read next: those of a TMMA32 in its micro-step, any other's in any order (R265, R267). -/
def Cmd.readable (c : Cmd) (k : Nat) : Option TileKey :=
  match c.op with
  | .tmma32 _ a b _ => if k < (if a = b then 1 else (c.toRead.length + 1) % 2 + 1) then c.toRead[k]? else none
  | _ => c.toRead[k]?

/-- The trap of a matrix operand's poisoned row (R89, R265, R267). -/
def operandTrap (s : State) (c : Cmd) (k : TileKey) (row : Nat) : TrapReq :=
  let r := { tilePoison s k row with tepc := some c.pc }
  match c.op with
  | .tmma32 .. => { r with mic := true, tmicro := BitVec.ofNat 64 c.micro }
  | _ => r

/-- The operands whose locks the array releases with the reading of one (R65); a TMMA32 keeps both until its micro-step 3 has read its operands (R267). -/
def Cmd.released (c : Cmd) (key : TileKey) (left : List TileKey) : List TileKey :=
  match c.op with
  | .tmma32 _ a b _ => if left.isEmpty then [a, b] else []
  | _ => if left.contains key then [] else [key]

/-- ARRAY_OPERAND_READ (R65, R265, R267): operand k of a command is read, whole and at one instant (log 83); with the last one read, the thread goes on.
Poison consumed leaves the bank unchanged, and the issuing thread takes cause 0x10. -/
def execArrayOperandRead (cmd k : Nat) (s : State) : Host.Outcome State Fault Refusal :=
  match s.cmd? cmd with
  | none => .next s
  | some c =>
    match c.readable k, oldestMatrix s c.core with
    | some key, some d =>
      if d.id ≠ cmd then .next s
      else
        match s.tile? key with
        | none => .next s
        | some t =>
          let (bad, s1) := readTileRows s (cmdThread s c) key (operandRows c.op key)
          let cap : Captured := { key := key, fmt := t.fmt, cols := t.cols, bytes := t.bytes }
          let left := c.toRead.eraseIdx k
          let s2 := ((c.released key left).foldl (fun s k => releaseArray s cmd k) s1).modCmd cmd fun d =>
            { d with toRead := left, captured := d.captured ++ [cap], poisoned := d.poisoned || bad.isSome }
          let s3 := if left.isEmpty then wake s2 c.tid fun w => w == .arrayRead cmd else s2
          match bad with
          | some row => if c.poisoned then .next s3 else .next (s3.asThread c.tid fun u => takeTrap u (operandTrap u c key row))
          | none => .next s3
    | _, _ => .next s

/-- A bank's entries when the command that reads it finds another KIND than it was accepted for: an earlier one was poisoned (log 31). -/
def bankFor (bk : AccBank) (kind : AccKind) (free : Nat) : AccBank :=
  if bk.kind = kind then bk
  else { bk with kind := kind, entries := (List.range (arrayM * arrayN)).map fun n => (n, ⟨(Config.freeWord (free + n)).toNat % 2 ^ 32, false⟩) }

/-- What a matrix command does when it is performed (R265 to R267): one of an ended stand whose operands were read writes its core's bank still, whichever
partition the core belongs to by then (log 94). -/
def performMatrix (s : State) (c : Cmd) : State :=
  let next := fun (s : State) => { s with clk := { s.clk with free := s.clk.free + arrayM * arrayN } }
  match c.op with
  | .tmma bank a b fa fb sa sb k za =>
    (match c.op.kind with
    | none => s
    | some kind =>
      if c.poisoned then s
      else next (s.setBank (mmaBank (if za then s.bank c.core bank else bankFor (s.bank c.core bank) kind s.clk.free) c a b fa fb sa sb k kind za)))
  | .tmma32 bank a b k => if c.poisoned then s else next (s.setBank (mma32Bank (bankFor (s.bank c.core bank) .fp32 s.clk.free) c a b k))
  | .taccrd bank dst mode sat seed clr =>
    let bk := s.bank c.core bank
    let s1 := modTileFor s c dst fun t => taccrdTile bk mode sat seed t
    if clr then s1.setBank ⟨c.core, bank, .fp32, []⟩ else s1
  | _ => s

/-- The stamp of the completion that ends a thread's wait, if a command's does (R137): in a TLWAIT, at a full queue, or for a tile's PEND. -/
def stampFor (s : State) (c : Cmd) (t : Thread) : Option Nat :=
  match t.run with
  | .parked (.timeline l v) => if l = c.key ∧ c.seq ≠ 0 ∧ v ≤ (s.tl l).val then some (s.tl l).stamp else none
  | .parked (.engine m) => if m == c.op.matrix && sameEngine m c.core (coreOf t) && engineOpen s m t then some s.clk.time else none
  | .parked (.pend k n) => if c.op.pendTiles.contains k && decide (pendOf s k < n) then some s.clk.time else none
  | _ => none

/-- The stamp of a completion kept by the threads whose waits it has ended (R137). -/
def stampWaiters (s : State) (c : Cmd) : State :=
  s.modThreads (fun t => t.waitStamp.isNone && (stampFor s c t).isSome) fun t => { t with waitStamp := stampFor s c t }

/-- The release side that the completion of a command is (R101 cases 6 and 7): what happens before the command, and its own writes. -/
def completionNote (s : State) (c : Cmd) : State :=
  if c.seq = 0 || c.orphan.isSome then s
  else { s with ms := addCarrier s.ms ⟨.timeline c.key c.seq, ⟨s.clk.pkg, c.tid, c.core, tlScope c.tln⟩, c.view s, c.know, []⟩ }

/-- ENGINE_COMMAND_COMPLETE (R98, R105, R123, R137, R365): a copy command with all its rows performed, or the oldest matrix command of its array with its
operands read. Its thread's earlier stores are performed first: it is a release at its counter's level. A counter that has ended counts nothing. -/
def execEngineCommandComplete (cmd : Nat) (s : State) : Host.Outcome State Fault Refusal :=
  match s.cmd? cmd with
  | none => .next s
  | some c =>
    let ready := match c.op.win with
      | some w => c.held.isNone && decide (w.nr ≤ c.prog)
      | none => c.toRead.isEmpty && (match oldestMatrix s c.core with | some d => decide (d.id = cmd) | none => false)
    if !ready || storesBefore s c then .next s
    else
      let s1 := performMatrix (if c.orphan.isNone then drainCore s c.core else s) c
      let s2 := stampWaiters ((completionNote (if c.seq = 0 then s1 else s1.setTl (completeOn (s1.tl c.key) c.seq s1.clk.time)) c).dropCmd cmd) c
      match (if c.orphan.isSome then none else s2.getThread c.tid) with
      | none => .next s2
      | some t => .next (traceRec s2 t 3 (c.tln % 16 * 2 ^ 60 + c.seq % 2 ^ 60) 0 s2.clk.time)

/-- HELD_FAULT_DELIVERY (R130, R334 item 3): the held fault of a thread taken at its boundary, when nothing stands before it. -/
def execHeldFaultDelivery (t : Tid) (s : State) : Host.Outcome State Fault Refusal :=
  .next (s.asThread t fun u =>
    if !stoppable u.th || standHalted u t.stand || (stopPointAt u true).isSome || (dueStoreFault u).isSome then u
    else match dueHeld u with
      | some (c, h) => takeHeld u c h
      | none => u)

/-! The pod window. -/

/-- The M-die at which another package's requests arrive (log 32). -/
def remoteTlb : TlbAt := .remote 14

/-- The access of a request (R30, R31, R132, R243): what it is translated as, and its size; none where it makes none. -/
def requestAccess (req : PodReq) : Option (Access × Nat) :=
  let k := fun (a : Acc) => (⟨a, req.how.sup, req.how.vec⟩ : Access)
  match req.op with
  | .load n => some (k .load, n)
  | .store n _ => some (k .store, n)
  | .amo _ n _ _ => some (k .atomic, n)
  | .probe n write => some (k (if write then .store else .load), n)
  | .line 0 => some (k .code, 1)
  | .line 1 => some (k .store, 128)
  | .line _ => some (k .load, 1)
  | .tlbinv .. | .arrive .. => none

/-- The name here of another package's thread. -/
def remoteTid (pkg : Nat) (t : Tid) : Tid := ⟨t.stand + (pkg + 1) * 65536, t.index⟩

/-- The thread that makes a request, in the scope instance that it names (R132). -/
def requestBy (req : PodReq) : RmwBy := ⟨req.src, remoteTid req.src req.tid, req.core, req.how.scope⟩

/-- A line that the home serves to another package under MT 00 (R77, R132): an M copy is written back, and the LLC holds the line. -/
def homeServe (m : MemSys) (line : Nat) : MemSys :=
  let m1 := llcRead (writeBackL2 m line) line
  { m1 with l2 := m1.l2.map fun e => if e.line = line ∧ e.st = .m then { e with st := .s } else e }

/-- The parts of a request read at their homes, as their memory types give (R132), or in region 10 (R7): the bytes, or the place of the first poisoned
one. -/
def servedBytes (s : State) : List Part → List Byte → Except (Nat × Nat) (List Byte) × State
  | [], acc => (.ok acc, s)
  | .there .. :: rest, acc => servedBytes s rest acc
  | .here x va n :: rest, acc =>
    if regionOf x.pa = 2 then servedBytes s rest (acc ++ devLoad s x.pa n)
    else
      let lines := uniq ((List.range n).map fun k => lineOf (x.pa + k))
      let s0 := lines.foldl (fun s l => eccTouch s none l) s
      let s1 := if x.mt = 0 then { s0 with ms := lines.foldl homeServe s0.ms } else s0
      match readRange s1 none none x n with
      | (.error k, s2) => (.error (x.pa + k, va + k), s2)
      | (.ok bs, s2) => servedBytes s2 rest (acc ++ bs)

/-- The parts of a request written at their homes, as their memory types give (R132), or in region 10; a write that covers a line whole clears its poison
(R88). -/
def servedWrite (s : State) (req : PodReq) : List Part → List Byte → State
  | [], _ => s
  | .there _ _ _ n :: rest, bs => servedWrite s req rest (bs.drop n)
  | .here x _ n :: rest, bs =>
    if regionOf x.pa = 2 then servedWrite (devStore s x.pa (bs.take n)) req rest (bs.drop n)
    else
      let pieces := rowLines 34 x.pa n
      let cs := cellsAt x.pa (bs.take n)
      let m0 := plainWrite s.ms (requestBy req) (knownTo s.ms (requestBy req).tid) false none s.dieCycle cs
      let m1 :=
        if x.mt = 0 ∧ regionOf x.pa = 0 then (pieces.filter fun p => decide (p.2 = 128)).foldl (fun m p => setFlag m .llc (lineOf p.1) false) (llcWrite m0 x.key cs)
        else homePieces m0 x.key pieces (bs.take n)
      servedWrite { s with ms := m1 } req rest (bs.drop n)

/-- A request that reads a poisoned byte at a physical and a virtual address: the byte is consumed, under the context it is served in (R89). -/
def servedPoison (s : State) (ctx : Nat) (req : PodReq) (pa va : Nat) : PodAns × State :=
  (.poison (va - req.offset % 2 ^ 46), poisonConsumed s none (lineOf pa) ctx (requestBy req).tid.word va)

/-- A release that a request makes (R101). -/
def servedRelease (s : State) (req : PodReq) (cs : Cells) : State :=
  if req.how.rl then { s with ms := releaseTrack s.ms (requestBy req) none (.loc cs) } else s

/-- A request of another package performed at the location's home under a context (R132, R134, R243): its events lie in its issuer's scope instances. -/
def performRequest (s : State) (ctx : Nat) (req : PodReq) (ps : List Part) : PodAns × State :=
  match req.op with
  | .load _ =>
    (match servedBytes s ps [] with
    | (.ok bs, s1) => (.value (leNat bs), { s1 with ms := readTrack s1.ms (requestBy req) req.how.aq s1.dieCycle (partCells ps bs) })
    | (.error e, s1) => servedPoison s1 ctx req e.1 e.2)
  | .store n v => (.value 0, servedRelease (servedWrite s req ps (leBytes n v)) req (partCells ps (leBytes n v)))
  | .amo op n src cmp =>
    (match ps with
    | .here x va _ :: _ =>
      (match readRange s none none x n with
      | (.error k, s1) => servedPoison s1 ctx req (x.pa + k) (va + k)
      | (.ok _, s1) =>
        let r := rmwAt s1 x.key x.pa n (requestBy req) req.how.aq (fun old => (Amo.ofCode op).bind fun o => amoNew o n src cmp old) fun s bs =>
          servedRelease { s with ms := homePut s.ms x.mt x.pa x.key (cellsAt x.pa bs) } req (cellsAt x.pa bs)
        (.value r.1, r.2))
    | _ => (.value 0, s))
  | .line 1 => (.value 0, servedWrite s req ps (List.replicate 128 0))
  | .line kind =>
    (match ps with
    | .here x _ _ :: _ =>
      if x.mt ≠ 0 then (.value 0, s)
      else if kind = 0 then (.value 0, if req.how.scope = .pod then { s with ms := s.ms.dropCode fun _ l => decide (l = lineOf x.pa) } else s)
      else (.value 0, { s with ms := cleanLine s.ms (lineOf x.pa) })
    | _ => (.value 0, s))
  | .probe .. | .tlbinv .. | .arrive .. => (.value 0, s)

/-- A TLBINV at pod scope of another package (R41, R42): this package's structures drop what its KIND and PART name, under this package's context with the
JOBID (log 91), and the accesses made through it are performed before the answer. -/
def remoteInval (s : State) (ctx kind part va : Nat) : State :=
  drainAll (invalidate s .pkg (BitVec.ofNat 64 (ctx % 4096 * 2 ^ 52 + part % 16 * 2 ^ 48 + kind % 4 * 2 ^ 44)) va)

/-- An arrival of another package's thread at a barrier at pod scope (R228, R229): one that R229 or R230 keeps from the open episode is not counted, and is
answered by a fault of class 0. -/
def remoteArrive (s : State) (req : PodReq) (bar n : Nat) : PodAns × State :=
  let k : BarKey := ⟨.pod req.jobid, .pod, bar⟩
  let b := s.barrier k
  let t := (requestBy req).tid
  let count := fun (_ : Unit) =>
    if b.arrived.contains t || (b.n.isSome && b.n != some n) then (PodAns.fault 0 0 0, s)
    else (.value b.ep, { s with ms := releaseTrack s.ms (requestBy req) none (.barrier k b.ep) }.setBarrier (arriveAt b n s.clk.time t))
  match b.abandoned with
  | some a =>
    if !a.arrived.contains t && decide (0 < a.lack) then (.fault 0 0 0, s.setBarrier { b with abandoned := some { a with lack := a.lack - 1 } })
    else count ()
  | none => count ()

/-- POD_WINDOW_REQUEST (R15, R38, R41, R132, R228): another package's request translated in full under the context with its JOBID, performed, and answered.
It keeps its issuer's privilege (R30, log 32). -/
def execPodWindowRequest (req : PodReq) (s : State) : Host.Outcome State Fault Refusal :=
  let answer := fun (a : PodAns) (s : State) => { s with pod := { s.pod with replies := s.pod.replies ++ [⟨req.src, req.id, a⟩] } }
  match s.xl.ctxs.find? fun e => e.2.en && decide (e.2.jobid.toNat = req.jobid) with
  | none => .next (answer (.fault 0x5 0 0) s)
  | some e =>
    match req.op, requestAccess req with
    | .tlbinv kind part, _ => .next (answer (.value 0) (remoteInval s e.1 kind part req.offset))
    | .arrive bar n, _ => let r := remoteArrive s req bar n; .next (answer r.1 r.2)
    | _, none => .next (answer (.value 0) s)
    | _, some (k, n) =>
      let va := req.offset % 2 ^ 46
      match partsUnder s ⟨e.1, some remoteTlb, none, none, (requestBy req).tid.word⟩ k (pageCuts (n / 4096 + 2) va n) [] with
      | (.error (.cls c l, a), s1) => .next (answer (.fault c l (a - va)) s1)
      | (.error (.poison, _), s1) => .next (answer (.poison 0) s1)
      | (.ok ps, s1) => let r := performRequest s1 e.1 req ps; .next (answer r.1 r.2)

/-- The posted stores of the current thread taken on after an answer: one that has failed makes an entry, and those behind it follow (R343 to R345). -/
def settleAnswers (s : State) : State :=
  match resolveAll s (myPosted s) with
  | .done s1 => s1
  | .trap r s1 => deliverInstead s1 r
  | .park _ s1 => s1
  | .refuse _ => s

/-- A request over with an answer: its thread's instruction, its command's row, its posted store, its strip record or Glade's action goes on (R133). -/
def requestOver (s : State) (o : PodOut) (ans : PodAns) : State :=
  let put := fun (l : List PodPending) => l.map fun p => if p.id = o.id then { p with answer := some ans } else p
  let s1 := { s with pod := { s.pod with out := s.pod.out.filter fun q => decide (q.id ≠ o.id) }
                     gl := { s.gl with asks := s.gl.asks.map fun e => (e.1, put e.2) } }
  match o.cmd with
  | some c => s1.modCmd c fun d => { d with pod := put d.pod }
  | none =>
    match o.posted with
    | some _ =>
      let s2 := { s1 with ms := { s1.ms with posted := s1.ms.posted.map fun (p : Posted) => { p with pods := put p.pods } } }
      wake (s2.asThread o.tid settleAnswers) o.tid fun w => w == .stores
    | none =>
      if o.strip then
        (match ans with
        | .value _ => s1
        | _ => s1.modThread o.tid fun t => { t with vec := { t.vec with stripEn := false } })
      else wake (s1.modThread o.tid fun t => { t with pod := put t.pod }) o.tid fun w => w == .pod o.id

/-- POD_WINDOW_RESPONSE (R133). -/
def execPodWindowResponse (id : Nat) (ans : PodAns) (s : State) : Host.Outcome State Fault Refusal :=
  match s.pod.out.find? fun o => decide (o.id = id) with
  | some o => .next (requestOver s o ans)
  | none => .next s

/-- POD_WINDOW_TIMEOUT (R133): no response within 200 µs is class 0x6. -/
def execPodWindowTimeout (id : Nat) (s : State) : Host.Outcome State Fault Refusal :=
  match s.pod.out.find? fun o => decide (o.id = id) with
  | some o => .next (if o.sentNs + 200000 ≤ s.clk.time then requestOver s o (.fault 0x6 0 0) else s)
  | none => .next s

end Sys2Proof.Machine
end

