-- ==== Sys2Proof/Machine/Starts.lean ====
section
/-! DEFINITION. The start of a thread (R140, R233, R320) and the resumption of a stand (R351, R352). -/

namespace Sys2Proof.Machine

/-! Start. -/

/-- The registers that a thread starts with (R140). -/
def startX (args index standix count : Nat) : Vector Word 32 :=
  Vector.ofFn fun (k : Fin 32) =>
    if k.val = 10 then BitVec.ofNat 64 args else if k.val = 11 then BitVec.ofNat 64 index
    else if k.val = 12 then BitVec.ofNat 64 standix else if k.val = 13 then BitVec.ofNat 64 count else 0

/-- A thread at its start (R140), under a packet, at an entry and with a number of threads. -/
def newThread (p : Packet) (tid : Tid) (place : Place) (entry csa : Word) (count : Nat) : Thread :=
  { Thread.reset with
    tid := tid, ctx := p.ctx, csa := csa, place := some place, run := .running, pc := entry, x := startX p.args.toNat tid.index p.standix count
    rndmode := p.rnd, dsrseed := p.seed, fmta := p.fmta, fmtb := p.fmtb, scla := p.scla, sclb := p.sclb }

/-- A thread that starts: it joins its stand, with lane barriers of its own (R228), its window of counts begins (R331), and its start is an acquire, after
the tracked writes of `know` (R101 case 9, R104). A stop of its stand that is under way meets it too (R350). -/
def startThread (s : State) (know : List Nat) (th : Thread) : State :=
  let die := (coreOf th).die
  let stopping := match s.stand? th.tid.stand with | some st => (match st.st with | .preempting _ => true | _ => false) | none => false
  let th1 := { th with mixWin := s.dieCycle die / 65536, req := { th.req with preempt := stopping } }
  let m := learn (forgetThreads (acquireDrop s.ms (coreOf th) .pkg) fun t => decide (t = th.tid)) th.tid know
  let s1 := { s with ms := m, others := s.others.filter (fun (t : Thread) => !(decide (t.tid = th.tid) && decide (t.run = Run.ended))) ++ [th1] }
  let s2 := { s1 with un := { s1.un with barriers := s1.un.barriers.filter fun b => decide (b.key.space ≠ Space.thread th.tid) } }
  s2.modStand th.tid.stand fun st => { st with started := st.started + 1 }

/-! Resumption. -/

/-- Whether a saved place is available to a thread of a partition (R351). -/
def placeOpen (s : State) (part : Nat) (p : Place) : Bool :=
  !s.un.out.contains p.at_ && !placeHeld s p &&
    (match coreClass p.at_ with | .v => decide (quotaOf s p.at_.die p.at_.quad part ≠ 0) | _ => decide (ownerOf s p.at_ = part))

/-- Whether a saved thread's place can never become available (R351). -/
def placeLost (s : State) (t : Thread) : Bool :=
  match t.run with
  | .saved p => s.un.out.contains p.at_ || (coreClass p.at_ == .v && decide (poolOf s p.at_.die p.at_.quad < t.owed.getD 0))
  | _ => false

/-- A saved thread at its place again, when the place is available. -/
def resumeThread (s : State) (t : Tid) : State :=
  match s.getThread t with
  | none => s
  | some th =>
    match th.run with
    | .saved p => if placeOpen s (s.partOf th.ctx) p then s.asThread t fun u => arrive u p else s
    | _ => s

/-- Whether every thread of a stand holds its context, and on a V-front its grant (R351). -/
def standBack (s : State) (id : Nat) : Bool := (standThreads s id).all fun t => t.place.isSome && !awaitsGrant t

/-- The threads of a stand that resumes put back as far as their places allow; it issues again once all are back. A place that is lost is a retryable
event (R347, R351). -/
def tryResume (s : State) (id : Nat) : State :=
  match s.stand? id with
  | none => s
  | some st =>
    if st.st ≠ .resuming then s
    else if (standThreads s id).any (placeLost s) then retryable s id false [] { cause := 0 } 0
    else
      let s1 := (standThreads s id).foldl (fun s t => resumeThread s t.tid) s
      if standBack s1 id then gangBack (s1.modStand id fun q => { q with st := .live }) st.packet.job else s1

/-- Every stand that resumes tried again. -/
def tryResumeAll (s : State) : State := (s.gl.stands.map (·.id)).foldl tryResume s

/-- A stand asked to resume (R351): its budget starts again from 0 (R325). An escalated stand, whose threads hold their places, goes on at once. -/
def resumeStand (s : State) (id : Nat) : State := tryResume (s.modStand id fun q => { q with st := .resuming, used := 0 }) id

/-- The places that stands asked to resume have still to take (R351): the dispatcher gives them to no packet. -/
def keptPlaces (s : State) : List Place :=
  s.threads.filterMap fun t =>
    match t.run, s.stand? t.tid.stand with
    | .saved p, some st => if st.st = .resuming then some p else none
    | _, _ => none

/-- Whether a place is one that a saved thread keeps on a core (R328). -/
def savedOn (s : State) (c : CoreId) : Bool := s.threads.any fun t => match t.run with | .saved p => decide (p.at_ = c) | _ => false

end Sys2Proof.Machine
end

