-- ==== Sys2Proof/Machine/Launch.lean ====
section
/-! DEFINITION. Launch records and completion records (R312 to R314), work-graph nodes (R318, R319), task packets (R320), and where packets may be placed
(R321, R332). -/

namespace Sys2Proof.Machine

/-! Launch records. -/

/-- A field of a record's dword. -/
def rfld (ws : List Word) (k hi lo : Nat) : Nat := fld (ws.getD k 0) hi lo

/-- Whether a range of dwords is zero. -/
def zeroWords (ws : List Word) (lo n : Nat) : Bool := ((ws.drop lo).take n).all fun w => decide (w = 0)

/-- The most threads of a stand of a class (R138). -/
def standLimit : CoreClass → Nat
  | .c => 8
  | .v => 16
  | .t => 64

/-- Whether the header of a record is of a kind (R313): `graph` says whether KIND 1 is allowed. -/
def headerOk (ws : List Word) (graph : Bool) : Bool :=
  decide (rfld ws 0 15 0 = 0x4C52) && decide (rfld ws 0 19 16 = 1) && (decide (rfld ws 0 23 20 = 0) || (graph && decide (rfld ws 0 23 20 = 1))) &&
    decide (rfld ws 0 51 50 ≠ 3)

/-- The must-be-zero fields of a batch record, or of a template, whose dwords 11 and 12 are ignored (R312, R318). -/
def batchZeros (ws : List Word) (template : Bool) : Bool :=
  let z := fun (k hi lo : Nat) => decide (rfld ws k hi lo = 0)
  z 0 52 52 && z 0 30 24 && (decide (rfld ws 0 51 50 = 1) || (z 0 42 37 && z 0 36 31)) && z 3 63 20 && z 4 63 32 && z 5 63 46 && z 7 31 26 &&
    z 10 63 12 && (template || zeroWords ws 11 2) && z 15 54 36 && z 15 31 26 && z 15 15 11 && zeroWords ws 16 16

/-- The ranges of a batch record, or of a template, whose CSABASE, SLOTS and DONE are ignored (R312, R313, R318). -/
def batchRanges (ws : List Word) (template : Bool) : Bool :=
  let cls := (CoreClass.ofCode (rfld ws 0 51 50)).getD .c
  let threads := rfld ws 0 49 43
  let slots := rfld ws 3 19 13
  decide (1 ≤ threads) && decide (threads ≤ standLimit cls) && decide (rfld ws 0 42 37 ≤ 32) && decide (rfld ws 0 36 31 ≤ rfld ws 0 42 37) &&
    decide (rfld ws 1 1 0 = 0) && decide (rfld ws 2 2 0 = 0) && decide (rfld ws 3 2 0 = 0) && decide (rfld ws 3 12 0 ≤ 4096) && decide (rfld ws 4 31 0 ≠ 0) &&
    decide (rfld ws 7 7 4 ≤ 12) && decide (rfld ws 7 3 0 ≤ 12) && decide (rfld ws 15 63 56 < 128) &&
    (template || ((decide (slots = 0) || (decide (threads ≤ slots) && decide (slots ≤ 64))) && decide (rfld ws 8 11 0 = 0) && decide (rfld ws 9 3 0 = 0)))

/-- The must-be-zero fields of a graph record (R312). -/
def graphZeros (ws : List Word) : Bool :=
  decide (rfld ws 0 63 24 = 0) && zeroWords ws 1 2 && decide (rfld ws 3 63 20 = 0) && decide (rfld ws 3 12 0 = 0) && zeroWords ws 4 2 && zeroWords ws 7 1 &&
    decide (rfld ws 10 63 12 = 0) && zeroWords ws 13 19

/-- The ranges of a graph record (R312, R313). -/
def graphRanges (ws : List Word) : Bool :=
  decide (rfld ws 3 19 13 ≤ 64) && decide (rfld ws 8 11 0 = 0) && decide (rfld ws 9 3 0 = 0) && decide (rfld ws 12 31 0 ≠ 0) &&
    decide (rfld ws 12 31 0 ≤ rfld ws 12 63 32)

/-- The check of a launch record that fails first, by its REASON (R313). -/
def recordReason (s : State) (part : Nat) (ws : List Word) : Option Nat :=
  let graph := decide (rfld ws 0 23 20 = 1)
  let ctx := rfld ws 10 11 0
  if !headerOk ws true then some 0x01
  else if !(if graph then graphZeros ws else batchZeros ws false) then some 0x02
  else if !(if graph then graphRanges ws else batchRanges ws false) then some 0x03
  else if !(s.ctxRec ctx).en || decide (s.partOf ctx ≠ part) then some 0x04
  else none

/-- The check of a template that fails first (R313, R318), for a job that reserves S areas per stand. -/
def templateReason (ws : List Word) (slots : Nat) : Option Nat :=
  if !headerOk ws false then some 0x01
  else if !batchZeros ws true then some 0x02
  else if !batchRanges ws true then some 0x03
  else if slots < rfld ws 0 49 43 then some 0x05
  else none

/-- S of a record (R314). -/
def slotsOfRecord (ws : List Word) : Nat :=
  let n := rfld ws 3 19 13
  if n ≠ 0 then n else if rfld ws 0 23 20 = 1 then 64 else rfld ws 0 49 43

/-- The packet of a batch's first stand, from a record or a template (R312, R320). -/
def packetOf (ws : List Word) (j : Job) (node : Nat) (near : Option Nat) : Packet :=
  let pre := if rfld ws 15 55 55 = 1 then some (ws.getD 13 0, ws.getD 14 0, rfld ws 15 63 56, BitVec.ofNat 64 (rfld ws 15 35 0)) else none
  { entry := ws.getD 1 0, args := ws.getD 2 0, csa := 0, scla := ScaleShadow.ofNat (rfld ws 7 16 8), sclb := ScaleShadow.ofNat (rfld ws 7 25 17)
    budget := rfld ws 5 45 0, notbefore := max (ws.getD 6 0).toNat j.notbefore, seed := BitVec.ofNat 32 (rfld ws 7 63 32), standix := 0, ctx := j.ctx
    cls := (CoreClass.ofCode (rfld ws 0 51 50)).getD .c, threads := rfld ws 0 49 43, prio := 0, retries := rfld ws 0 63 56
    rnd := if rfld ws 0 55 53 = 0 then .rne else Rm.ofCode (rfld ws 0 55 53), lmin := rfld ws 0 36 31, lpref := rfld ws 0 42 37
    fmta := (Fmt.ofCode (rfld ws 7 3 0)).getD .int8, fmtb := (Fmt.ofCode (rfld ws 7 7 4)).getD .int8, queue := j.queue, node := node, job := j.id
    serial := none, preload := pre, exclude := [], near := near, die := none }

/-! Glade's accesses under a job's context. -/

/-- Whether the action in progress waits for another package: what it does from there on is undone, and done again when the answer has come. -/
def gladeWaits (s : State) : Bool := s.gl.acting.any (·.waits)

/-- A request of the action in progress to another package (R133): its value, or its fault. -/
def gladeAsk (s : State) (ctx pkg off va : Nat) (op : PodOp) (how : AccessHow) : Except (XFault × Nat) Nat × State :=
  if gladeWaits s then (.ok 0, s)
  else
    let o : PodOut := { id := 0, dst := pkg, tid := noSender, cmd := none, va := va, offset := off, jobid := jobidOf s ctx, op := op, how := how
                        sentNs := 0, posted := none, strip := false }
    match askPod s (match s.gl.acting with | some a => a.pods | none => []) o with
    | .value v => (.ok v, s)
    | .fault f at_ => (.error (f, va + at_), s)
    | .wait pods s1 => (.ok 0, { s1 with gl := { s1.gl with acting := some ⟨pods, true⟩ } })

/-- An action of Glade or of the debug engine (R313, R318, R319, R359): done whole, or, while another package has not answered, its requests alone. -/
def gladeAct (key : GladeKey) (f : State → State) (s : State) : State :=
  let s1 := f { s with gl := { s.gl with acting := some ⟨(look s.gl.asks key).getD [], false⟩ } }
  match s1.gl.acting with
  | some ⟨pods, true⟩ => { s with pod := s1.pod, gl := { s.gl with asks := assoc s.gl.asks key pods } }
  | _ => { s1 with gl := { s1.gl with acting := none, asks := unassoc s1.gl.asks key } }

/-- The pieces of a range in another package read one after the other. -/
def gladeReadFar (s : State) (ctx pkg off va : Nat) : List (Nat × Nat) → List Byte → Option (List Byte) × State
  | [], acc => (some acc, s)
  | (at_, n) :: rest, acc =>
    match gladeAsk s ctx pkg at_ ((va + (at_ - off)) % 2 ^ 64) (.load n) (plainAt .pkg) with
    | (.ok v, s1) => gladeReadFar s1 ctx pkg off va rest (acc ++ leBytes n v)
    | (.error _, s1) => (none, s1)

/-- The parts of a range that Glade reads. -/
def gladeReadParts (s : State) (ctx : Nat) : List Part → List Byte → Option (List Byte) × State
  | [], acc => (some acc, s)
  | .here x va n :: rest, acc =>
    (match readPartsUnder s ctx 0 [.here x va n] [] with
    | (.ok bs, s1) => gladeReadParts s1 ctx rest (acc ++ bs)
    | (.error _, s1) => (none, s1))
  | .there pkg off va n :: rest, acc =>
    (match gladeReadFar s ctx pkg off va (linesOf (n / 128 + 2) off n) [] with
    | (some bs, s1) => gladeReadParts s1 ctx rest (acc ++ bs)
    | (none, s1) => (none, s1))

/-- Bytes that Glade reads under a context with user privilege (R318), also in another package (R133). -/
def gladeBytes (s : State) (ctx va n : Nat) : Option (List Byte) × State :=
  match partsUnder s (deviceWalker ctx 0) ⟨.load, false, false⟩ (pageCuts (n / 4096 + 2) va n) [] with
  | (.error _, s1) => (none, s1)
  | (.ok ps, s1) => gladeReadParts s1 ctx ps []

/-- Dwords that Glade reads. -/
def gladeRead (s : State) (ctx va n : Nat) : Option (List Word) × State :=
  match gladeBytes s ctx va (n * 8) with
  | (some bs, s1) => (some (wordsOf n bs), s1)
  | (none, s1) => (none, s1)

/-- Bytes within a page that Glade stores under a context; false when that faults. -/
def gladeStore (s : State) (ctx va : Nat) (bs : List Byte) (scope : Scope) : Bool × State :=
  match partsUnder s (deviceWalker ctx 0) ⟨.store, false, false⟩ (pageCuts 2 va bs.length) [] with
  | (.ok [.there pkg off va n], s1) => let r := gladeAsk s1 ctx pkg off va (.store n (leNat bs)) (plainAt scope); (r.1.toOption.isSome, r.2)
  | (.ok _, s1) => (match writeUnder s1 ctx 0 va bs with | (.ok _, s2) => (true, s2) | (.error _, s2) => (false, s2))
  | (.error _, s1) => (false, s1)

/-- A dword that Glade stores. -/
def gladeWrite (s : State) (ctx va : Nat) (w : Word) (scope : Scope) : Bool × State := gladeStore s ctx va (leBytes 8 w.toNat) scope

/-- Glade as the issuer of an access at a scope. -/
def gladeBy (s : State) (scope : Scope) : RmwBy := ⟨s.clk.pkg, noSender, ⟨0, 0, 0⟩, scope⟩

/-- A node's dword 0 with PREDS decremented. -/
def predsLess (w : Nat) : Nat := (w / 2 ^ 32 + 2 ^ 32 - 1) % 2 ^ 32 * 2 ^ 32 + w % 2 ^ 32

/-- PREDS of a node decremented (R319), an atomic at package scope in its dword's chain: what it comes to, or none when that faults. -/
def gladeDecrement (s : State) (ctx node : Nat) : Option Nat × State :=
  match partsUnder s (deviceWalker ctx 0) ⟨.atomic, false, false⟩ [(node, 8)] [] with
  | (.ok [.there pkg off va _], s1) =>
    (match gladeAsk s1 ctx pkg off va (.amo Amo.add.code 8 0xFFFFFFFF00000000 0) (plainAt .pkg) with
    | (.ok old, s2) => (some (predsLess old / 2 ^ 32), s2)
    | (.error _, s2) => (none, s2))
  | (.ok [.here x va n], s1) =>
    (match readPartsUnder s1 ctx 0 [.here x va n] [] with
    | (.error _, s2) => (none, s2)
    | (.ok _, s2) =>
      let r := rmwAt s2 x.key x.pa 8 (gladeBy s .pkg) false (fun old => some (predsLess old)) fun s bs =>
        { s with ms := homeWrite s.ms x.key (cellsAt x.pa bs) }
      (some (predsLess r.1 / 2 ^ 32), r.2))
  | (_, s1) => (none, s1)

/-- The pod time that a completion record gives: that of its first store, when it has been made in another package. -/
def doneTime (s : State) (va : Nat) : Nat :=
  let made := (match s.gl.acting with | some a => a.pods | none => []).findSome? fun (p : PodPending) =>
    match p.op with | .store _ v => if p.va = va then some v else none | _ => none
  made.getD s.clk.time

/-- A completion record (R313): dword 1, then dword 0; false when DONE does not translate. -/
def writeDone (s : State) (ctx : Nat) (done : Word) (status reason : Nat) : Bool × State :=
  match gladeWrite s ctx (done + 8).toNat (BitVec.ofNat 64 (doneTime s (done + 8).toNat)) .pkg with
  | (false, s1) => (false, s1)
  | (true, s1) => gladeWrite s1 ctx done.toNat (BitVec.ofNat 64 (2 ^ 63 + reason % 256 * 256 + status % 256)) .pod

/-! Placement. -/

/-- The free places of a core that new packets of a partition may take (R321, R328, R351): not those kept for a held preload (R326). -/
def openPlaces (s : State) (c : CoreId) (part : Nat) : List Place :=
  let kept := keptPlaces s
  (freePlaces s c part).filter fun p => !kept.contains p && !s.gl.preloads.any fun e => e.waits.contains p

/-- The free places of a quad for a packet, in the order in which its threads take them: those of the cores that it may use (R321, R327). -/
def quadPlaces (s : State) (p : Packet) (part die quad : Nat) : List Place :=
  (quadCores die quad).flatMap fun c => if p.exclude.contains c then [] else openPlaces s c part

/-- Whether a V-quad gives a partition as many clusters as a fault asked for (R332). -/
def quadGives (s : State) (part die quad n : Nat) : Bool := decide (n ≤ poolOf s die quad) && decide (n ≤ quotaOf s die quad part)

/-- Whether a die has what a job's stands lacked (R332). -/
def dieHas (s : State) (part die : Nat) (m : Missing) : Bool :=
  match m with
  | .feat bit => s.hasFeat die bit
  | .clusters n => classOfDie die == .v && (List.range (quadsOf .v)).any fun q => quadGives s part die q n

/-- Whether a quad has what a job's stands lacked. -/
def quadHas (s : State) (part die quad : Nat) (m : Missing) : Bool :=
  match m with
  | .feat bit => s.hasFeat die bit
  | .clusters n => classOfDie die == .v && quadGives s part die quad n

/-- What the stands of a packet's job have lacked. -/
def missingOf (s : State) (p : Packet) : List Missing := match s.job? p.job with | some j => j.missing | none => []

/-- Whether a quad qualifies for a packet (R321): it takes all the packet's threads. -/
def quadQualifies (s : State) (p : Packet) (part die quad : Nat) : Bool :=
  (missingOf s p).all (quadHas s part die quad) && decide (p.threads ≤ (quadPlaces s p part die quad).length)

/-- The quads of a die that qualify, in order. -/
def qualifying (s : State) (p : Packet) (die : Nat) : List Nat :=
  (List.range (quadsOf (classOfDie die))).filter fun q => quadQualifies s p (p.queue / 16) die q

/-- The dies of a packet's class that have what it needs and whose dispatcher has room (R321, R322, R332). -/
def diesFor (s : State) (p : Packet) : List Nat :=
  (computeDies s.clk.blend).filter fun d => classOfDie d == p.cls && (missingOf s p).all (dieHas s (p.queue / 16) d) &&
    decide ((s.gl.placed.filter fun q => decide (q.die = d)).length < 64)

/-- The free contexts of a die for a packet: those of the cores that it may use (R321, R327). -/
def dieFree (s : State) (p : Packet) (die : Nat) : Nat :=
  ((List.range (quadsOf (classOfDie die))).flatMap fun q => quadPlaces s p (p.queue / 16) die q).length

/-- The best of a list by a measure, the earliest on a tie. -/
def bestBy (f : Nat → Nat) : List Nat → Option Nat
  | [] => none
  | a :: l => some (l.foldl (fun b c => if f b < f c then c else b) a)

/-- The die on which Glade places a packet (R321): that of the placement made at its release, once that die's dispatcher has room (R319). -/
def chooseDie (s : State) (p : Packet) : Option Nat :=
  let ds := diesFor s p
  match p.die with
  | some d => if ds.contains d then some d else none
  | none =>
    match p.near.filter fun d => ds.contains d && !(qualifying s p d).isEmpty with
    | some d => some d
    | none => bestBy (dieFree s p) ds

/-- The quad on which a dispatcher places a packet (R321): the qualifying one with the most free contexts. -/
def chooseQuad (s : State) (p : Packet) (die : Nat) : Option Nat :=
  bestBy (fun q => (quadPlaces s p (p.queue / 16) die q).length) (qualifying s p die)

/-! Nodes. -/

/-- A job that fails in its graph with a REASON; one whose memory Glade cannot read or write has a free REASON (log 33). -/
def failGraph (s : State) (job : Nat) (reason : Option Nat) : State :=
  match reason with
  | some r => failJob s job 5 r
  | none => let (w, s1) := s.takeFree; failJob s1 job 5 (fld w 7 0)

/-- Whether a ready task waits for its NOTBEFORE (R324). -/
def readyWaits (s : State) (r : Ready) : Bool := match r with | .stands p _ => decide (s.clk.time < p.notbefore) | _ => false

/-- A ready task put at the tail of a queue's list, or set aside while it waits for NOTBEFORE (R324). The lift counts from when the queue came to hold a
task (R316). -/
def joinReady (s : State) (q : Nat) (r : Ready) : State :=
  let qs := s.queue q
  if readyWaits s r then s.setQueue { qs with deferred := qs.deferred ++ [r] }
  else s.setQueue { qs with ready := qs.ready ++ [r], since := if qs.ready.isEmpty then s.clk.cycle else qs.since }

/-- A batch node's packets made from its template (R318): B overrides NSTANDS. `released` says that a retirement has released the node, whose stands it
places now (R319, log 34). -/
def joinBatch (s : State) (j : Job) (node : Nat) (a b : Word) (near : Option Nat) (released : Bool) : State :=
  match gladeRead s j.ctx a.toNat 32 with
  | (none, s1) => failGraph s1 j.id none
  | (some ws, s1) =>
    match templateReason ws j.slots with
    | some r => failGraph s1 j.id (some r)
    | none =>
      let count := if fld b 31 0 ≠ 0 then fld b 31 0 else rfld ws 4 31 0
      let s2 := s1.modJob j.id fun j => { j with nodeLeft := assoc j.nodeLeft node count }
      let p := packetOf ws j node near
      joinReady s2 j.queue (.stands { p with die := if released then chooseDie s2 p else none } count)

/-- A node that joins the ready list (R318, R319): it is read where its address says (log 98) and checked. -/
def joinNode (s : State) (job node : Nat) (near : Option Nat) (released : Bool) : State :=
  match s.job? job with
  | none => s
  | some j =>
    match gladeRead s j.ctx node 8 with
    | (none, s1) => failGraph s1 job none
    | (some ws, s1) =>
      let kind := rfld ws 0 3 0
      let a := ws.getD 2 0
      let b := ws.getD 3 0
      let zeros := decide (rfld ws 0 15 4 = 0) && zeroWords ws 5 3 && (decide (kind = 1) || decide (ws.getD 4 0 = 0)) && (decide (kind ≠ 0) || decide (fld b 63 32 = 0))
      if 3 ≤ kind then failGraph s1 job (some 0x01)
      else if !zeros then failGraph s1 job (some 0x02)
      else if kind = 2 ∧ fld a 2 0 ≠ 0 then failGraph s1 job (some 0x03)
      else if kind = 0 then joinBatch s1 j node a b near released
      else if kind = 1 then joinReady s1 j.queue (.copy job node a.toNat b.toNat (ws.getD 4 0).toNat)
      else joinReady s1 j.queue (.signal job node a.toNat b)

/-- The release side of a retirement that readies a node, after the tracked writes of `know` (R104). -/
def startCarrier (s : State) (job node : Nat) (know : List Nat) : State :=
  { s with ms := addCarrier s.ms ⟨.start job node, gladeBy s .pod, none, know, []⟩ }

/-- The tracked writes that the start of a node's tasks comes after (R104). -/
def startKnow (s : State) (job node : Nat) : List Nat :=
  uniq ((s.ms.carriers.filter fun c => decide (c.at_ = .start job node)).flatMap (·.writes))

/-- PREDS of a successor decremented, and the successor ready when it comes to 0 (R319). With no other predecessor, it is placed near the task that
released it (R321). -/
def releaseNode (s : State) (job node : Nat) (near : Option Nat) (know : List Nat) : State :=
  match s.job? job with
  | none => s
  | some j =>
    if j.failed.isSome then s
    else
      match gladeDecrement s j.ctx node with
      | (none, s1) => failGraph s1 job none
      | (some left, s1) =>
        if left ≠ 0 then s1.modJob job fun j => { j with touched := uniq (node :: j.touched) }
        else joinNode (startCarrier s1 job node know) job node (if j.touched.contains node then none else near) true

/-- A node finished (R319): one more of the job's nodes, and its successors released in order; `know` are the tracked writes before the retirement. -/
def finishNode (s : State) (job node : Nat) (near : Option Nat) (know : List Nat) : State :=
  match s.job? job with
  | none => s
  | some j =>
    let s1 := s.modJob job fun j => { j with finished := j.finished + 1, nodeLeft := unassoc j.nodeLeft node }
    if j.failed.isSome then s1
    else
      match gladeRead s1 j.ctx node 2 with
      | (none, s2) => failGraph s2 job none
      | (some ws, s2) =>
        match gladeRead s2 j.ctx (ws.getD 1 0).toNat (rfld ws 0 31 16) with
        | (none, s3) => failGraph s3 job none
        | (some succ, s3) => succ.foldl (fun s v => releaseNode s job v.toNat near know) s3

/-- A task of a job retired (R319), after the tracked writes of `know`: its batch or its node has one stand less to wait for. -/
def taskDone (s : State) (p : Packet) (die : Nat) (know : List Nat) : State :=
  match s.job? p.job with
  | none => s
  | some j =>
    if !j.graph then s.modJob j.id fun j => { j with finished := j.finished + 1 }
    else
      let left := (look j.nodeLeft p.node).getD 1 - 1
      if left = 0 then finishNode s j.id p.node (some die) know else s.modJob j.id fun j => { j with nodeLeft := assoc j.nodeLeft p.node left }

/-! Stands. -/

/-- The lowest stand id that no stand, no preload and no thread holds; none when all are held (R142, log 86). -/
def freeStandId (s : State) : Option Nat :=
  (List.range 65535).find? fun k => (s.stand? k).isNone && !(s.gl.preloads.any fun p => decide (p.stand = k)) &&
    !(s.threads.any fun t => decide (t.tid.stand = k) && decide (t.run ≠ .ended))

/-- A stand begun on a quad: its threads start in the places given, in order (R139, R140, R321). -/
def beginStand (s : State) (id : Nat) (p : Packet) (die quad : Nat) (places : List Place) : State :=
  let st : Stand := { id := id, born := s.gl.standNext, packet := p, part := p.queue / 16, die := die, quad := quad, started := 0, direct := false, st := .live, used := 0, reports := 0
                      lastCause := 0, bad := none, badTid := none, lack := none, pub := [] }
  let s1 := { s with gl := { s.gl with stands := s.gl.stands ++ [st], standNext := s.gl.standNext + 1 } }
  let know := startKnow s p.job p.node
  ((List.range p.threads).zip places).foldl
    (fun s e => startThread s know (newThread p ⟨id, e.1⟩ e.2 p.entry (p.csa + BitVec.ofNat 64 (e.1 * 0x101000)) p.threads)) s1

end Sys2Proof.Machine
end

