-- ==== Sys2Proof/Machine/GladeEvents.lean ====
section
/-! DEFINITION. Events of the scheduler: queues and launch records (R310 to R313), the choice and the placement of tasks (R315 to R324), nodes and jobs
(R313, R319), retirement (R84, R144), budgets (R325) and missing features (R332). -/

namespace Sys2Proof.Machine

/-! Queues. -/

/-- TAIL_WRITE (R310, R311). -/
def execTailWrite (q : Nat) (v : Word) (s : State) : Host.Outcome State Fault Refusal := .next (tailWrite s q v)

/-- The tasks of a ready list. -/
def readyCount (l : List Ready) : Nat := (l.map fun r => match r with | .stands _ n => n | _ => 1).foldl (· + ·) 0

/-- The instances that belong to a context and its job gone, unless another job runs under the context: die-level tiles and counters, and the barriers at
die, package and pod scope (R61, R120, R228). The commands still in flight on such a counter complete into discarded state, and those that an ended stand left held are gone with the tiles
that they named (R131). -/
def clearCtx (s : State) (ctx job : Nat) : State :=
  if s.gl.jobs.any fun j => decide (j.ctx = ctx) && decide (j.id ≠ job) then s
  else
    let jobid := jobidOf s ctx
    let mine : Space → Bool := fun sp => match sp with | .die c _ => decide (c = ctx) | .pkg c => decide (c = ctx) | .pod j => decide (j = jobid) | _ => false
    let s1 := freeTiles s fun t => mine t.key.space
    { s1 with un := { s1.un with timelines := s1.un.timelines.filter fun t => !mine t.key.space
                                 barriers := s1.un.barriers.filter fun b => !mine b.key.space
                                 cmds := (s1.un.cmds.filter fun (c : Cmd) => !(c.orphan.isSome && c.held.isSome && decide (c.ctx = ctx))).map fun (c : Cmd) =>
                                   if mine c.key.space then { c with seq := 0 } else c } }

/-- What a job leaves behind gone at its end: what `clearCtx` clears, and the collective instances of its JOBID, unless another job runs under it. The
packages of its group members are known no more (R307). -/
def clearJob (s : State) (ctx job : Nat) : State :=
  let jobid := jobidOf s ctx
  let s0 := clearCtx s ctx job
  let s1 := { s0 with ms := { s0.ms with carriers := s0.ms.carriers.filter fun c => match c.at_ with | .start j _ => decide (j ≠ job) | _ => true } }
  if s.gl.jobs.any fun j => decide (jobidOf s j.ctx = jobid) && decide (j.id ≠ job) then s1
  else { s1 with pod := { s1.pod with colls := s1.pod.colls.filter fun i => decide (i.key.job ≠ jobid)
                                      known := s1.pod.known.filter fun e => decide (e.1 ≠ jobid) } }

/-- The root capability of a job, in k0 of its context, whose other k registers hold 0 (R235, R356). With the table full, k0 holds 0 too (log 36). -/
def rootCap (s : State) (part ctx : Nat) : State :=
  let s1 := { s with db := { s.db with kregs := s.db.kregs.filter fun e => decide (e.ctx ≠ ctx) } }
  match capMake s1 part 0xFF false ctx 0 none with
  | some (e, s2) => setKReg s2 ctx 0 (capToken e)
  | none => s1

/-- An accepted record's job begun (R120, R235, R312, R315, R318). -/
def beginJob (s : State) (q : Nat) (ws : List Word) : State :=
  let graph := decide (rfld ws 0 23 20 = 1)
  let j : Job := { id := s.gl.jobNext, queue := q, part := q / 16, ctx := rfld ws 10 11 0, done := ws.getD 9 0, csabase := ws.getD 8 0
                   slots := slotsOfRecord ws, graph := graph, total := if graph then rfld ws 12 63 32 else rfld ws 4 31 0, finished := 0, nextSerial := 0
                   nodeLeft := [], touched := [], notbefore := if graph then (ws.getD 6 0).toNat else 0, failed := none, missing := [], gang := false
                   gangSaved := false, gangResume := false, ended := false }
  let s0 := { s with gl := { s.gl with jobs := s.gl.jobs ++ [j], jobNext := s.gl.jobNext + 1 } }
  let s1 := rootCap (clearCtx s0 j.ctx j.id) (q / 16) j.ctx
  if !graph then joinReady s1 q (.stands (packetOf ws j 0 none) (rfld ws 4 31 0))
  else
    match gladeRead s1 j.ctx (ws.getD 11 0).toNat (rfld ws 12 31 0) with
    | (none, s2) => failGraph s2 j.id none
    | (some roots, s2) => roots.foldl (fun s v => joinNode s j.id v.toNat none false) s2

/-- A record judged (R313): rejected with its completion record, or expanded. -/
def judgeRecord (s : State) (q : Nat) (ws : List Word) : State :=
  match recordReason s (q / 16) ws with
  | none => beginJob s q ws
  | some reason =>
    match writeDone s (rfld ws 10 11 0) (ws.getD 9 0) 1 reason with
    | (true, s1) => s1
    | (false, s1) => s1.setReg10 (.qctl q) (setFld (s1.reg10 (.qctl q)) 59 59 1)

/-- LAUNCH_RECORD_READ (R311 to R313, R315, R409): the record at HEAD, while the queue is enabled, its key usable and fewer than 64 tasks are ready. A
poisoned one stops the queue. -/
def execLaunchRecordRead (q : Nat) (s : State) : Host.Outcome State Fault Refusal :=
  let ctl := s.reg10 (.qctl q)
  match defaultKey s (q / 16) with
  | none => .next s
  | some key =>
    if !bitOf ctl 63 || decide (headOf s q = tailOf s q) || decide (64 ≤ readyCount (s.queue q).ready) then .next s
    else
      let pa := fld (s.reg10 (.qbase q)) 51 12 * 4096 + headOf s q * 256
      let s1 := eccTouch (eccTouch s none (lineOf pa)) none (lineOf pa + 1)
      match [lineOf pa, lineOf pa + 1].find? (isPoisoned s1.ms none) with
      | some line => .next (poisonConsumed (s1.setReg10 (.qctl q) (setFld (setFld ctl 58 58 1) 63 63 0)) none line 0 0 0)
      | none =>
        let ws := wordsOf 32 (commBytes s1.ms (some key) pa 256)
        .next (gladeAct (.record q) (fun s =>
          judgeRecord (s.setReg10 (.qptr q) (setFld (s.reg10 (.qptr q)) 31 16 ((headOf s q + 1) % ringSize s q))) q ws) s1)

/-! The choice of the next task. -/

/-- The level at which a queue is served (R316). -/
def levelOf (s : State) (q : QueueSt) : Nat := fld (s.reg10 (.qctl q.queue)) 61 60 - q.lift

/-- A ready list without the packets that wait for NOTBEFORE at its head, and those packets (R324). -/
def deferHead (now : Nat) : List Ready → List Ready × List Ready
  | .stands p n :: rest =>
    if now < p.notbefore then
      let (l, d) := deferHead now rest
      (l, .stands p n :: d)
    else (.stands p n :: rest, [])
  | l => (l, [])

/-- The queues with the packets that wait for NOTBEFORE set aside. -/
def deferAll (s : State) : State :=
  { s with gl := { s.gl with queues := s.gl.queues.map fun q =>
      let (l, d) := deferHead s.clk.time q.ready
      { q with ready := l, deferred := q.deferred ++ d } } }

/-- Whether a job may dispatch: the package has locked to pod time (R135), the job has not failed, and no gang switch stops it (R319, R352). -/
def jobRuns (s : State) (job : Nat) : Bool :=
  (s.clk.lock || s.clk.hold) && (match s.job? job with | some j => j.failed.isNone && !j.gang | none => false)

/-- The eligible task at a queue's head, with the die that it goes to (R315, R321). -/
def eligible (s : State) (q : QueueSt) : Option (Packet × Nat × Nat) :=
  match q.ready.head? with
  | some (.stands p n) => if jobRuns s p.job then (chooseDie s p).map fun d => (p, n, d) else none
  | _ => none

/-- The queues of a list from the one after a number on, cyclically (R315). -/
def after (cur : Nat) (l : List QueueSt) : List QueueSt := (l.filter fun q => decide (cur < q.queue)) ++ l.filter fun q => decide (q.queue ≤ cur)

/-- Queues inserted by increasing number. -/
def insertQ (q : QueueSt) : List QueueSt → List QueueSt
  | [] => [q]
  | r :: rest => if q.queue ≤ r.queue then q :: r :: rest else r :: insertQ q rest

/-- WEIGHT of a queue (R310). -/
def weightOf (s : State) (q : Nat) : Nat := fld (s.reg10 (.qctl q)) 47 32

/-- Deficits changed by visits (R315): the queues visited in turn until the first that may dispatch. -/
def visits (s : State) : List QueueSt → State × Option QueueSt
  | [] => (s, none)
  | q0 :: rest =>
    let q := s.queue q0.queue
    if q.ready.isEmpty && q.deferred.isEmpty then visits (s.setQueue { q with deficit := 0 }) rest
    else
      match eligible s q with
      | none => visits s rest
      | some (p, _, _) =>
        let q1 := { q with deficit := q.deficit + weightOf s q.queue }
        if p.threads ≤ q1.deficit then (s.setQueue q1, some q1) else visits (s.setQueue q1) rest

/-- The queue that dispatches next at a level (R315): the one being visited while its deficit lasts, else the next ones round; 64 rounds reach any
cost. -/
def chooseQueue (s : State) (half level : Nat) (qs : List QueueSt) : State × Option QueueSt :=
  let cur := (look s.gl.turn (half * 4 + level)).getD 65535
  match (qs.find? fun q => decide (q.queue = cur)).filter fun q => match eligible s q with | some (p, _, _) => decide (p.threads ≤ q.deficit) | none => false with
  | some q => (s, some q)
  | none => visits s ((List.replicate 65 (after cur qs)).flatten)

/-- A packet stamped and handed to a die's dispatcher (R314, R320, R322): its stand gets its number at its first dispatch. -/
def handOver (s : State) (q : QueueSt) (half level : Nat) (p : Packet) (n die : Nat) : State :=
  let (slots, base, next) := match s.job? p.job with | some j => (j.slots, j.csabase, j.nextSerial) | none => (0, 0, 0)
  let k := p.serial.getD next
  let p1 := { p with prio := level, serial := some k, csa := base + BitVec.ofNat 64 (k * slots * 0x101000) }
  let s1 := if p.serial.isNone then s.modJob p.job fun j => { j with nextSerial := j.nextSerial + 1 } else s
  let rest := if 1 < n then [Ready.stands { p with standix := p.standix + 1 } (n - 1)] else []
  let s2 := s1.setQueue { q with ready := rest ++ q.ready.drop 1, deficit := q.deficit - p.threads, since := s.clk.cycle, lift := 0 }
  { s2 with gl := { s2.gl with placed := s2.gl.placed ++ [⟨die, p1, false⟩], turn := assoc s2.gl.turn (half * 4 + level) q.queue } }

/-- DISPATCH (R315 to R317, R321, R322): Glade hands the next task's packet over. -/
def execDispatch (half : Nat) (s : State) : Host.Outcome State Fault Refusal :=
  let s1 := deferAll s
  let mine := (s1.gl.queues.filter fun q => decide (q.queue / 128 = half)).foldl (fun l q => insertQ q l) []
  let ready := mine.filter fun q => (eligible s1 q).isSome
  match ready.map (levelOf s1) with
  | [] => .next s1
  | l :: ls =>
    let level := ls.foldl min l
    let (s2, chosen) := chooseQueue s1 half level (mine.filter fun q => decide (levelOf s1 q = level))
    match chosen with
    | none => .next s2
    | some q =>
      match eligible s2 q with
      | none => .next s2
      | some (p, n, die) => .next (handOver s2 q half level p n die)

/-- PRIORITY_LIFT (R316): a queue with an eligible task rises a level for each 2^20 cycles without a dispatch. -/
def execPriorityLift (q : Nat) (s : State) : Host.Outcome State Fault Refusal :=
  let s1 := deferAll s
  let qs := s1.queue q
  let prio := fld (s.reg10 (.qctl q)) 61 60
  if (eligible s1 qs).isSome ∧ qs.lift < prio ∧ qs.since + (qs.lift + 1) * 2 ^ 20 ≤ s.clk.cycle then .next (s1.setQueue { qs with lift := qs.lift + 1 })
  else .next s1

/-- NOTBEFORE_REACHED (R324): packets whose time has come return to the head of the ready list. -/
def execNotbeforeReached (q : Nat) (s : State) : Host.Outcome State Fault Refusal :=
  let qs := s.queue q
  let waits := fun (r : Ready) => match r with | .stands p _ => decide (s.clk.time < p.notbefore) | _ => false
  let due := qs.deferred.filter fun r => !waits r
  if due.isEmpty then .next s
  else
    .next (s.setQueue { qs with ready := due ++ qs.ready, deferred := qs.deferred.filter waits, since := if qs.ready.isEmpty then s.clk.cycle else qs.since })

/-! Dispatchers. -/

/-- The packet that a die's dispatcher serves next (R322): of the highest priority, the first to arrive. A gang switch of its job keeps a packet back
(R352). -/
def nextPlaced (s : State) (die : Nat) : Option Placed :=
  match s.gl.placed.filter fun p => decide (p.die = die) && !(s.job? p.packet.job).any (·.gang) with
  | [] => none
  | p :: l => some (l.foldl (fun b q => if q.packet.prio < b.packet.prio then q else b) p)

/-- DISPATCHER_PLACE (R139, R321, R322): the dispatcher's next packet is placed, or waits for a context-free notice. -/
def execDispatcherPlace (die : Nat) (s : State) : Host.Outcome State Fault Refusal :=
  match nextPlaced s die with
  | none => .next s
  | some e =>
    if e.waiting then .next s
    else
      match chooseQuad s e.packet die with
      | none => .next { s with gl := { s.gl with placed := s.gl.placed.map fun p => if p = e then { p with waiting := true } else p } }
      | some quad =>
        match freeStandId s with
        | none => .next s
        | some id =>
          let s1 := { s with gl := { s.gl with placed := s.gl.placed.erase e } }
          .next (beginStand s1 id e.packet die quad (quadPlaces s1 e.packet (e.packet.queue / 16) die quad))

/-- Whether the TLOAD of a stand's preload is under way. -/
def preloading (s : State) (stand : Nat) : Bool := s.un.cmds.any fun c => decide (c.seq = 0) && c.orphan.isNone && decide (c.tid.stand = stand)

/-- A held preload started, when its tile is filled and the contexts kept for it are free (R326, R327): its core's places are taken first. -/
def startPreload (s : State) (e : PreloadSlot) : State :=
  let s1 := { s with gl := { s.gl with preloads := s.gl.preloads.erase e } }
  let all := quadPlaces s1 e.packet (e.packet.queue / 16) e.core.die e.core.quad
  let places := (all.filter fun p => decide (p.at_ = e.core)) ++ all.filter fun p => decide (p.at_ ≠ e.core)
  if places.length < e.packet.threads ∨ (places.head?.map fun p => decide (p.at_ = e.core)) ≠ some true ∨ (s.job? e.packet.job).any (·.gang) ∨ preloading s e.stand then s
  else beginStand s1 e.stand e.packet e.core.die e.core.quad places

/-- A notice's payload: the core in the layout of CLASSID, every other bit zero (R323). -/
def noticeWord (c : CoreId) : Word := BitVec.ofNat 64 (c.die % 32 * 2 ^ 17 + c.quad % 128 * 2 ^ 10 + c.core % 4 * 2 ^ 8)

/-- A notice sent to a thread (R323): queued, or held when its queue is full, at most one. -/
def sendNotice (s : State) (t : Tid) (w : Word) : State :=
  match s.getThread t with
  | none => s
  | some th =>
    if queuedFor s th < 16 then
      s.modThread t fun th =>
        let m : Message := ⟨w, noSender, []⟩
        match th.run with | .transit .. | .saved _ => { th with held := th.held ++ [m] } | _ => { th with rxq := th.rxq ++ [m] }
    else if s.gl.notices.any fun q => decide (q.1 = t) then s
    else { s with gl := { s.gl with notices := s.gl.notices ++ [(t, w)] } }

/-- CONTEXT_FREE_NOTICE (R322, R323, R326, R351): the notice of a core's freed contexts. Stands that resume come first, then a held preload; packets that
wait on the die are tried again, and the senders of refused spawns are told. -/
def execContextFreeNotice (core : CoreId) (s : State) : Host.Outcome State Fault Refusal :=
  if !s.gl.freed.contains core then .next s
  else
    let s1 := tryResumeAll { s with gl := { s.gl with freed := s.gl.freed.filter fun c => decide (c ≠ core) } }
    let s2 := (s1.gl.preloads.filter fun e => decide (e.core.die = core.die) && decide (e.core.quad = core.quad)).foldl startPreload s1
    let told := uniq ((s2.gl.refused.filter fun e => decide (e.1 = core)).map (·.2))
    let s3 := told.foldl (fun s t => sendNotice s t (noticeWord core)) s2
    .next { s3 with gl := { s3.gl with refused := s3.gl.refused.filter fun e => decide (e.1 ≠ core)
                                       placed := s3.gl.placed.map fun p => if p.die = core.die then { p with waiting := false } else p } }

/-! Nodes and jobs. -/

/-- A queue's ready list without the copy or signal node at its head: performing it is a dispatch of the queue (R316, log 97). -/
def popReady (s : State) (q : Nat) : State :=
  let qs := s.queue q
  s.setQueue { qs with ready := qs.ready.drop 1, since := s.clk.cycle, lift := 0 }

/-- n bytes copied under a context by direct stores, in increasing address order; false when one faults. -/
def copyBytes (ctx : Nat) : Nat → Nat → Nat → State → Bool × State
  | _, _, 0, s => (true, s)
  | src, dst, n + 1, s =>
    match gladeBytes s ctx src 1 with
    | (none, s1) => (false, s1)
    | (some bs, s1) =>
      match gladeStore s1 ctx dst bs .pkg with
      | (false, s2) => (false, s2)
      | (true, s2) => copyBytes ctx ((src + 1) % 2 ^ 64) ((dst + 1) % 2 ^ 64) n s2

/-- COPY_NODE (R319): the copy node at the head of a queue's ready list is performed, and finishes. -/
def execCopyNode (q : Nat) (s : State) : Host.Outcome State Fault Refusal :=
  match (s.queue q).ready.head? with
  | some (.copy job node src dst n) =>
    if !jobRuns s job then .next s
    else
      (match s.job? job with
      | none => .next s
      | some j =>
        .next (gladeAct (.node job node) (fun s =>
          match copyBytes j.ctx src dst n (popReady s q) with
          | (true, s1) => finishNode s1 job node none (startKnow s job node)
          | (false, s1) => failGraph s1 job none) s))
  | _ => .next s

/-- SIGNAL_NODE (R319): the signal node at the head of a queue's ready list stores its value, and finishes. -/
def execSignalNode (q : Nat) (s : State) : Host.Outcome State Fault Refusal :=
  match (s.queue q).ready.head? with
  | some (.signal job node dst v) =>
    if !jobRuns s job then .next s
    else
      (match s.job? job with
      | none => .next s
      | some j =>
        .next (gladeAct (.node job node) (fun s =>
          match gladeWrite (popReady s q) j.ctx dst v .pod with
          | (true, s1) => finishNode s1 job node none (startKnow s job node)
          | (false, s1) => failGraph s1 job none) s))
  | _ => .next s

/-- Whether a job still has work under way: a stand, or a packet handed over (R319). -/
def jobBusy (s : State) (job : Nat) : Bool :=
  (s.gl.stands.any fun st => decide (st.packet.job = job)) || (s.gl.placed.any fun p => decide (p.packet.job = job)) ||
    s.gl.preloads.any fun p => decide (p.packet.job = job)

/-- JOB_END (R313, R319): a job whose tasks have finished, or that failed and whose running tasks have ended, leaves its completion record. -/
def execJobEnd (job : Nat) (s : State) : Host.Outcome State Fault Refusal :=
  match s.job? job with
  | none => .next s
  | some j =>
    let finishedAll := if j.failed.isSome then !jobBusy s job else decide (j.total ≤ j.finished)
    if !finishedAll then .next s
    else
      let (status, reason) := j.failed.getD (0, 0)
      .next (gladeAct (.done job) (fun s =>
        let s1 := (writeDone s j.ctx j.done status reason).2
        clearJob { s1 with gl := { s1.gl with jobs := s1.gl.jobs.filter fun k => decide (k.id ≠ job) } } j.ctx job) s)

/-- The dies on which the tasks that have joined a queue's lists since an earlier state are placed: the consumers of a retirement (R84, R319). -/
def consumers (s0 s : State) (queue : Nat) : List Nat :=
  let new := fun (l0 l : List Ready) => (l.drop l0.length).filterMap fun r => match r with | .stands p _ => p.die | _ => none
  new (s0.queue queue).ready (s.queue queue).ready ++ new (s0.queue queue).deferred (s.queue queue).deferred

/-- The lines that a retiring stand publishes: none when an uncorrectable error has lost one of them, which acts as a retryable event (R84, R88, R347; TVAL
is a free value, log 73). -/
def retireLines (s : State) (st : Stand) : Option State × State :=
  if st.direct then (some (drainTask s st.id), s)
  else
    let s1 := provRepair s st.id fun _ => true
    match provLost s1 { Thread.reset with tid := ⟨st.id, 0⟩, ctx := st.packet.ctx } fun _ => true with
    | some s2 => let (w, s3) := s2.takeFree; (none, retryable s3 st.id false [] { cause := 0x10, tval := w } 0)
    | none => (some (publishLines s1 st.id), s1)

/-- TASK_RETIREMENT (R84, R98, R99, R144, R319): a stand whose threads have all ended by TEXIT, whose commands have completed and whose stores to other
packages are acknowledged publishes its lines and ends, and its task counts as finished; when a successor is placed on another die, the lines are written
back to their homes. -/
def execTaskRetirement (stand : Nat) (s : State) : Host.Outcome State Fault Refusal :=
  match s.stand? stand with
  | none => .next s
  | some st =>
    let busy := !(standThreads s stand).isEmpty || (s.gl.spawns.any fun q => decide (q.tid.stand = stand)) ||
      (s.pod.out.any fun o => decide (o.tid.stand = stand)) || s.un.cmds.any fun c => Sys2Proof.Machine.Cmd.ofStand c stand
    if busy || st.bad.isSome || st.lack.isSome || decide (st.st = .escalated) then .next s
    else
      match retireLines s st with
      | (none, s1) => .next s1
      | (some s0, _) =>
        let lines := uniq (st.pub ++ if st.direct then [] else taskLines s.ms stand)
        let s1 := s0.modStand stand fun q => { q with pub := lines }
        .next (gladeAct (.node st.packet.job st.packet.node) (fun s =>
          let s2 := taskDone (closeStand s stand false) st.packet st.die (knownToStand s.ms stand)
          if (consumers s s2 st.packet.queue).any fun d => decide (d ≠ st.die) then { s2 with ms := lines.foldl shareLine s2.ms } else s2) s1)

/-! Budgets. -/

/-- Every thread of a stand asked to stop at its next boundary, for a cause (R350). -/
def preemptStand (s : State) (id cause : Nat) : State :=
  let s1 := s.modStand id fun st => { st with st := .preempting cause }
  standSaved (s1.modThreads (fun t => decide (t.tid.stand = id)) fun t => { t with req := { t.req with preempt := true } }) id

/-- BUDGET_EXPIRY (R325): a stand that has run its BUDGET is pre-empted, and its supervisor told. -/
def execBudgetExpiry (stand : Nat) (s : State) : Host.Outcome State Fault Refusal :=
  match s.stand? stand with
  | none => .next s
  | some st =>
    if st.st ≠ .live ∨ st.packet.budget = 0 ∨ st.used < st.packet.budget ∨ (standThreads s stand).isEmpty then .next s else .next (preemptStand s stand 0x21)

/-! Missing features. -/

/-- Whether some die of the package has all that a job's stands have lacked (R332). -/
def someDieHas (s : State) (p : Packet) : Bool := (computeDies s.clk.blend).any fun d => (missingOf s p).all (dieHas s (p.queue / 16) d)

/-- The packets of a job that dispatchers and preload slots hold back at the head of its queue's ready list (R332, log 101). -/
def recallPlaced (s : State) (job : Nat) : State :=
  let mine := (s.gl.placed.filter fun e => decide (e.packet.job = job)).map (·.packet) ++ (s.gl.preloads.filter fun e => decide (e.packet.job = job)).map (·.packet)
  let s1 := dropPreloads { s with gl := { s.gl with placed := s.gl.placed.filter fun e => decide (e.packet.job ≠ job) } } fun e => decide (e.packet.job = job)
  mine.reverse.foldl readyFirst s1

/-- A ready task without the placement made at its release. -/
def Ready.unplaced : Ready → Ready
  | .stands p n => .stands { p with die := none } n
  | r => r

/-- MISSING_FEATURE_REPLACE (R332): the stopped stand's packet and the job's stands that have not started go to the head of the ready list; with no die that
has the feature, the job ends with status 3. -/
def execMissingFeatureReplace (stand : Nat) (s : State) : Host.Outcome State Fault Refusal :=
  match s.stand? stand with
  | none => .next s
  | some st =>
    match st.lack with
    | none => .next s
    | some m =>
      let p := st.packet
      let s1 := s.modJob p.job fun j => { j with missing := if j.missing.contains m then j.missing else j.missing ++ [m] }
      let qs := s1.queue p.queue
      let mine := fun (r : Ready) => decide (r.job = p.job)
      let s2 := takeBack (recallPlaced (s1.setQueue { qs with
        ready := (qs.ready.filter mine).map Ready.unplaced ++ qs.ready.filter fun r => !mine r
        deferred := qs.deferred.map fun r => if mine r then r.unplaced else r }) p.job) st p
      .next (if someDieHas s2 p then s2 else failJob s2 p.job 3 0x1C)

end Sys2Proof.Machine
end

