-- ==== Sys2Proof/Machine/PlaceEvents.lean ====
section
/-! DEFINITION. Events of preload slots (R326) and of the ownership of quads (R328). -/

namespace Sys2Proof.Machine

/-! Preload. -/

/-- The lines of code from an address on fetched into a core's L1I under a context, as far as they translate (R326). -/
def fetchLines (ctx : Nat) (c : CoreId) (line : Nat) : Nat → State → State
  | 0, s => s
  | n + 1, s =>
    let s1 := fetchLines ctx c line n s
    let k : Access := ⟨.fetch, false, false⟩
    match resolveVa s1 k ((line + n * 128) % 2 ^ 64) with
    | .ok (.localTo a) =>
      (match translateLocal s1 (coreWalker ctx c ⟨0, 0⟩) k a with
      | (.ok x, s2) => (l1iGet s2 c ctx a x).1
      | (.error _, s2) => s2)
    | _ => s1

/-- The first 4 KiB of code at an entry fetched (R326): 32 lines, or 33 when the entry does not begin a line. -/
def fetchAhead (ctx : Nat) (c : CoreId) (entry : Nat) (s : State) : State :=
  fetchLines ctx c (entry / 128 * 128) (if entry % 128 = 0 then 32 else 33) s

/-- The tile of a preload allocated on its core, and its TLOAD begun, which counts on no counter (R326, log 35): none when the tile cannot be made. -/
def preloadTile (s : State) (p : Packet) (id : Nat) (core : CoreId) (base desc : Word) (handle : Nat) (shape : Word) : Option (TileKey × State) :=
  match Fmt.ofCode (fld shape 35 32) with
  | none => none
  | some f =>
    let key : TileKey := ⟨.core id core, handle⟩
    let cols := fld shape 10 0 + 1
    if 2048 < rowBytes f cols then none
    else
      match allocTile s key core (p.queue / 16) ⟨id, 0⟩ f (fld shape 25 16 + 1) cols with
      | (0, s1) =>
        let w := copyWin desc
        let c : Cmd := { id := s1.un.cmdNext, tid := ⟨id, 0⟩, ctx := p.ctx, priv := false, core := core, key := ⟨.core id core, 0⟩, tln := 0, seq := 0
                         op := .tload key base.toNat w, pc := 0, prog := 0, held := none, toRead := [], captured := [], poisoned := false, pod := []
                         row := none, accepted := s1.dieCycle core.die, orphan := none, ghosts := [], know := [] }
        (match s1.tile? key with
        | none => none
        | some t =>
          if exceeds w t then none else some (key, { s1 with un := { s1.un with cmds := s1.un.cmds ++ [c], cmdNext := s1.un.cmdNext + 1 } }))
      | _ => none

/-- The contexts of a quad that the task which runs on a core will free. -/
def freesOf (s : State) (stand : Nat) (core : CoreId) : List Place :=
  ((standThreads s stand).filter fun u => onQuad u core.die core.quad).filterMap (·.place)

/-- PRELOAD (R326): the dispatcher holds its waiting packet for a T-core that runs a task whose contexts will take it; code and tile are fetched. A packet
that is held there starts, once its contexts are free. -/
def execPreload (core : CoreId) (s : State) : Host.Outcome State Fault Refusal :=
  match s.gl.preloads.find? fun q => decide (q.core = core) with
  | some e => .next (startPreload s e)
  | none =>
    match nextPlaced s core.die, s.threads.find? fun t => decide (t.run ≠ .ended) && decide ((t.place.map (·.at_)) = some core), freeStandId s with
    | some e, some t, some id =>
      let p := e.packet
      let waits := freesOf s t.tid.stand core
      if !e.waiting || coreClass core != .t || !serves s core (p.queue / 16) || p.exclude.contains core || decide (waits.length < p.threads) ||
          !engineRoom s false core || !((missingOf s p).all (quadHas s (p.queue / 16) core.die core.quad)) then .next s
      else
        let s1 := fetchAhead p.ctx core p.entry.toNat { s with gl := { s.gl with placed := s.gl.placed.erase e } }
        let made := p.preload.bind fun d => preloadTile s1 p id core d.1 d.2.1 d.2.2.1 d.2.2.2
        let s2 := match made with | some (_, s2) => s2 | none => s1
        .next { s2 with gl := { s2.gl with preloads := s2.gl.preloads ++ [⟨core, p, id, made.map (·.1), waits⟩] } }
    | _, _, _ => .next s

/-! Ownership. -/

/-- QOWN_WRITE (R328). -/
def execQownWrite (die quad : Nat) (v : Word) (s : State) : Host.Outcome State Fault Refusal := .next (qownWrite s die quad v)

/-- Whether a stand of a core's owner holds or keeps a context on it (R328). -/
def ownerHolds (s : State) (c : CoreId) : Bool :=
  savedOn s c || s.threads.any (fun t => decide (t.run ≠ .ended) && decide ((t.place.map (·.at_)) = some c)) ||
    (s.threads.any fun t => match t.run with | .transit _ _ (some p) => decide (p.at_ = c) | _ => false) || s.gl.spawns.any fun q => decide (q.place.at_ = c)

/-- CORE_OWNER_PASS (R148, R261, R328): a core that no stand of the old owner holds or keeps passes to the new one, with its h registers and banks
reading zero. -/
def execCoreOwnerPass (core : CoreId) (s : State) : Host.Outcome State Fault Refusal :=
  let new := fld (s.reg10 (.qown core.die core.quad)) 3 0
  if coreClass core = .v ∨ !coreExists s.clk.blend core ∨ ownerOf s core = new ∨ ownerHolds s core then .next s
  else
    .next { s with un := { s.un with owner := if new = 0 then unassoc s.un.owner core else assoc s.un.owner core new
                                     hregs := s.un.hregs.filter fun w => decide (w.core ≠ core), acc := s.un.acc.filter fun b => decide (b.core ≠ core) } }

end Sys2Proof.Machine
end

