-- ==== Sys2Proof/Machine/ThreadEvents.lean ====
section
/-! DEFINITION. Events of threads: the end of a wait (R147, R230, R234), messages and spawns (R233), arrivals and the streamer queue (R155, R161),
leases (R152, R330), and migration on the measured mix (R331). -/

namespace Sys2Proof.Machine

/-! Waits. -/

/-- Whether the wait of a thread has cleared (R147). Waits that an event of their own ends do not clear here. -/
def waitOver (s : State) (t : Thread) (w : Wait) : Bool :=
  let at_ := t.place.getD ⟨coreOf t, 0⟩
  let up : Place := ⟨{ at_.at_ with core := at_.at_.core - 1 }, at_.slot⟩
  let down : Place := ⟨{ at_.at_ with core := at_.at_.core + 1 }, at_.slot⟩
  match w with
  | .chainPop => !(chainItems s up.at_ at_.slot).isEmpty || !(chainPartner s t.tid.stand up || chainEnded s t.tid.stand up)
  | .chainPush => decide ((chainItems s at_.at_ at_.slot).length < 8) || !chainPartner s t.tid.stand down
  | .lock key => (match s.tile? key with | none => true | some k => !(k.queue.any fun q => decide (q.1 = t.tid)))
  | .tile key write => (match s.tile? key with | none => true | some k => if write then k.writeOk t.tid else k.readOk t.tid)
  | .pend key below => (s.tile? key).isNone || decide (pendOf s key < below)
  | .arrayRead cmd => (match s.cmd? cmd with | none => true | some c => c.toRead.isEmpty)
  | .engine matrix => engineOpen s matrix t
  | .missQueue => (s.xl.missQ.find? fun q => q.of t.tid none).all fun q => q.served
  | .timeline key v => decide (v ≤ (s.tl key).val) || (heldOf s t.tid fun c => decide (c.key = key)).isSome
  | .barrier key e => (match s.un.barriers.find? fun b => decide (b.key = key) with
    | some b => decide (e < b.ep) || (b.abandoned.any fun a => decide (a.episode = e))
    | none => false)
  | .rearrive key e => (match s.un.barriers.find? fun b => decide (b.key = key) with | some b => decide (b.ep ≠ e) | none => true)
  | .mwaitf _ | .wfe _ => !t.rxq.isEmpty
  | .stores => !(s.pod.out.any fun o => decide (o.tid = t.tid) && (o.posted.isSome || o.strip))
  | .tlbinv id => !(s.xl.inv.any fun i => decide (i.id = id) && !i.done)
  | .pod id => (match t.pod.find? fun p => decide (p.id = id) with | some p => p.answer.isSome | none => true)
  | .gang => (match (s.stand? t.tid.stand).bind fun st => s.job? st.packet.job with | some j => !j.gang | none => true)
  | .lease => (leaseOf s t.tid).isNone
  | .regrant | .ring | .collective .. => false

/-- PARK_RESUME (R147, R150): a parked thread whose condition has cleared issues again. -/
def execParkResume (t : Tid) (s : State) : Host.Outcome State Fault Refusal :=
  match s.getThread t with
  | none => .next s
  | some th =>
    match th.run with
    | .parked w => if waitOver s th w then .next (s.modThread t fun th => { th with run := .running }) else .next s
    | _ => .next s

/-- Whether a thread takes its inputs from a log (R369). -/
def replaying (s : State) (t : Tid) : Bool :=
  match (s.session t).bind fun e => e.replay with
  | some r => !r.free && decide (r.next < r.entries)
  | none => false

/-- WAIT_LIMIT_EXPIRY (R234, R237): the limit of an MWAITF or a WFE has passed with no message queued. -/
def execWaitLimitExpiry (t : Tid) (s : State) : Host.Outcome State Fault Refusal :=
  match s.getThread t with
  | none => .next s
  | some th =>
    let due := fun (d : Nat) => decide (d ≤ s.dieCycle (coreOf th).die) && (th.rxq.isEmpty || replaying s t)
    match th.run with
    | .parked (.mwaitf (some d)) | .parked (.wfe (some d)) =>
      if due d then .next (s.modThread t fun th => { th with run := .running, expired := true }) else .next s
    | _ => .next s

/-- BARRIER_EPISODE_ABANDON (R230): 200 µs after its latest arrival, an episode at package or pod scope that has not completed is abandoned, and every
thread that waits on it takes 0x24; one whose stand is stopped takes it when it issues again (R347, R348). -/
def execBarrierEpisodeAbandon (key : BarKey) (s : State) : Host.Outcome State Fault Refusal :=
  match s.un.barriers.find? fun b => decide (b.key = key) with
  | none => .next s
  | some b =>
    match b.n with
    | none => .next s
    | some n =>
      if key.scope.code < 4 ∨ s.clk.time < b.lastNs + 200000 then .next s
      else
        let b1 := { b with ep := b.ep + 1, n := none, count := 0, arrived := [], abandoned := some ⟨b.ep, b.arrived, n - b.count⟩ }
        let waits := s.threads.filter fun t => decide (t.run = .parked (.barrier key b.ep)) && !standHalted s t.tid.stand
        .next (waits.foldl (fun s t => s.asThread t.tid fun u => takeTrap u (abandonTrap key b.ep)) (s.setBarrier b1))

/-! Messages. -/

/-- A send of a thread resolved at its receiver (R352). -/
def sendResolved (s : State) (t : Tid) : State := s.modThread t fun th => { th with sendsOut := th.sendsOut - 1 }

/-- A message queued at a thread, or held for it while it is in transit or saved (R159, R233, R351). -/
def queueMessage (s : State) (t : Tid) (m : Message) : State :=
  s.modThread t fun th =>
    match th.run with
    | .transit .. | .saved _ => { th with held := th.held ++ [m] }
    | _ => { th with rxq := th.rxq ++ [m] }

/-- MESSAGE_ARRIVAL (R159, R233, R323): the oldest message on its way to a thread is queued there; with none on its way, a notice held for the thread
is, once a place is free. -/
def execMessageArrival (t : Tid) (s : State) : Host.Outcome State Fault Refusal :=
  match s.gl.flights.find? fun f => decide (f.to_ = t) with
  | some f =>
    let s1 := sendResolved { s with gl := { s.gl with flights := s.gl.flights.erase f } } f.msg.sender
    .next (queueMessage s1 t f.msg)
  | none =>
    match s.getThread t, s.gl.notices.find? fun q => decide (q.1 = t) with
    | some th, some q =>
      if 16 ≤ queuedFor s th then .next s
      else .next (queueMessage { s with gl := { s.gl with notices := s.gl.notices.erase q } } t ⟨q.2, noSender, []⟩)
    | _, _ => .next s

/-- SPAWN_START (R101 case 9, R233): a thread whose SPAWN was accepted starts. -/
def execSpawnStart (t : Tid) (s : State) : Host.Outcome State Fault Refusal :=
  match s.gl.spawns.find? fun q => decide (q.tid = t) with
  | none => .next s
  | some q =>
    let s1 := sendResolved { s with gl := { s.gl with spawns := s.gl.spawns.erase q } } q.sender
    match s1.stand? t.stand with
    | none => .next s1
    | some st => .next (startThread s1 q.know (newThread st.packet t q.place q.entry q.csa q.count))

/-! Arrivals. -/

/-- MIGRATION_ARRIVAL (R155 steps 7 and 8, R340): a thread streamed to a reserved place arrives; a supervisor delivery that moved it goes on there, and a
stand that waited for it resumes (R351). -/
def execMigrationArrival (t : Tid) (s : State) : Host.Outcome State Fault Refusal :=
  match s.getThread t with
  | none => .next s
  | some th =>
    match th.run with
    | .transit _ _ (some dst) =>
      let s1 := s.asThread t fun u =>
        let u1 := arrive u dst
        match u1.th.run, u1.th.supPending with
        | .ended, _ => u1
        | _, some p => finishSup u1 p
        | _, none => u1
      .next (tryResume s1 t.stand)
    | _ => .next s

/-- STREAMER_QUEUE_SERVE (R161): the oldest thread of a partition's queue that may use a free context is streamed to it. -/
def execStreamerQueueServe (t : Tid) (s : State) : Host.Outcome State Fault Refusal :=
  match s.gl.streamQ.find? fun q => decide (q.tid = t) with
  | none => .next s
  | some q =>
    match (s.gl.streamQ.filter fun r => decide (r.part = q.part) && (queuedPlace s r).isSome).head? with
    | some r => if r.tid = t then .next (streamOn s q) else .next s
    | none => .next s

/-! Leases. -/

/-- LEASE_REGRANT (R152, R162): the clusters that a thread gave up are granted again, in the order of the arbiter's requests; a stand that waited for them
resumes. -/
def execLeaseRegrant (t : Tid) (s : State) : Host.Outcome State Fault Refusal :=
  match s.getThread t with
  | none => .next s
  | some th => if awaitsGrant th then .next (tryResume (s.asThread t regrant) t.stand) else .next s

/-- LEASE_PARKED_GRANT (R330): free clusters are reserved for a quad's waiting requests, and those that have been granted theirs go on. -/
def execLeaseParkedGrant (die quad : Nat) (s : State) : Host.Outcome State Fault Refusal :=
  let s1 := reserveFree s die quad
  let ready := s1.un.leaseQ.filter fun q => decide (q.die = die) && decide (q.quad = quad) && !q.regrant && decide (q.lmin ≤ q.reserved)
  .next (ready.foldl (fun s q => wake s q.tid fun w => w == .lease) s1)

/-! The measured mix. -/

/-- The class to which a thread's counts of a window move it (R331): the one named most by more than half of its issues, ties going to the lower code. -/
def mixClass (t : Thread) : Option CoreClass :=
  let f := fun (c : CoreClass) => match c with | .c => t.mixC | .v => t.mixV | .t => t.mixT
  let best := [CoreClass.c, .v, .t].foldl (fun b c => if f b < f c then c else b) .c
  if t.status.nomig ∨ t.mixN = 0 ∨ 2 * f best ≤ t.mixN then none else some best

/-- MIX_WINDOW_END (R331): the counts of a window that the thread's die has passed are sampled and cleared. -/
def execMixWindowEnd (t : Tid) (s : State) : Host.Outcome State Fault Refusal :=
  match s.getThread t with
  | none => .next s
  | some th =>
    let w := s.dieCycle (coreOf th).die / 65536
    if th.place.isNone ∨ w ≤ th.mixWin then .next s
    else
      .next (s.modThread t fun th =>
        let to_ := match mixClass th with | some c => some c | none => th.req.mixTo
        { th with mixN := 0, mixC := 0, mixV := 0, mixT := 0, mixWin := w, req := { th.req with mixTo := to_ } })

/-- Whether an item of R334 before the n-th applies to the current thread. -/
def earlierItem (s : State) (n : Nat) : Bool :=
  (decide (1 < n) && (stopPointAt s true).isSome) || (decide (2 < n) && (dueStoreFault s).isSome) || (decide (3 < n) && (dueHeld s).isSome) ||
    (decide (4 < n) && (s.th.req.preempt || s.th.req.stop)) || (decide (5 < n) && (dueSupInt s).isSome)

/-- MIX_MIGRATION (R331): the migration of a thread on its measured mix, at its boundary. -/
def execMixMigration (t : Tid) (s : State) : Host.Outcome State Fault Refusal :=
  .next (s.asThread t fun u =>
    match u.th.req.mixTo with
    | none => u
    | some c => if !stoppable u.th || standHalted u t.stand || earlierItem u 6 then u else takeMix u c)

end Sys2Proof.Machine
end

