-- ==== Sys2Proof/Machine/SuperEvents.lean ====
section
/-! DEFINITION. Events of the supervisor: its ring and its interrupt (R340, R341), the commands of SVCMD (R342, R350 to R352, R354), the other resets
(R354, R355), and the faults that act on threads and tasks from outside (R343, R344, R346). -/

namespace Sys2Proof.Machine

/-! The ring and the interrupt. -/

/-- SUPERVISOR_RING_RESUME (R340, R341, R409): what a full ring, or an unusable key, held is written: the waiting reports first, then the deliveries of
the threads that wait. -/
def execSupervisorRingResume (part : Nat) (s : State) : Host.Outcome State Fault Refusal :=
  let s1 := flushReports s part s.gl.reports.length
  let waits := s1.threads.filter fun t => decide (t.run = .parked .ring) && decide (s1.partOf t.ctx = part)
  .next (waits.foldl (fun s t => s.asThread t.tid fun u => match u.th.supPending with | some p => finishSup u p | none => u) s1)

/-- SUPERVISOR_INTERRUPT (R334 item 5, R341): cause 0x23 taken by thread SVIDX.THR at its boundary, when no earlier item applies. -/
def execSupervisorInterrupt (part : Nat) (s : State) : Host.Outcome State Fault Refusal :=
  match threadOfWord s (fld (s.reg10 (.svidx part)) 63 32) with
  | none => .next s
  | some t =>
    .next (s.asThread t.tid fun u =>
      if s.partOf t.ctx ≠ part ∨ !stoppable u.th ∨ standHalted u t.tid.stand ∨ earlierItem u 5 then u
      else (match dueSupInt u with | some n => takeSupInt u n | none => u))

/-! SVCMD. -/

/-- A command of SVCMD over, with its STAT. -/
def svDone (s : State) (part stat : Nat) : State :=
  let s1 := s.setReg10 (.svcmd part) (setFld (s.reg10 (.svcmd part)) 59 56 stat)
  { s1 with gl := { s1.gl with svCmd := unassoc s1.gl.svCmd part } }

/-- The busy command of a partition performed: `k` has the command's word, as it was written. -/
def svCommand (part op : Nat) (s : State) (k : Word → State) : Host.Outcome State Fault Refusal :=
  match look s.gl.svCmd part with
  | some w => if svOp w = op then .next (k w) else .next s
  | none => .next s

/-- The stand of a partition that a command names. -/
def svStandOf (s : State) (part : Nat) (w : Word) : Option Stand := (s.stand? (svStand w)).filter fun st => decide (st.part = part)

/-- A command on a stand: STAT 3 when the partition has no such stand; else `k` gives the STAT and the state. -/
def onStand (part op : Nat) (s : State) (k : Stand → Nat × State) : Host.Outcome State Fault Refusal :=
  svCommand part op s fun w =>
    match svStandOf s part w with
    | none => svDone s part 3
    | some st => let (stat, s1) := k st; svDone s1 part stat

/-- THREAD_RESET (R354): OP 1. -/
def execThreadReset (part : Nat) (s : State) : Host.Outcome State Fault Refusal :=
  svCommand part 1 s fun w =>
    match s.getThread ⟨svStand w, svIndex w⟩ with
    | none => svDone s part 3
    | some t => if s.partOf t.ctx ≠ part then svDone s part 3 else svDone (threadEnds s t.tid .reset 3) part 0

/-- A stand ended by a reset (R349, R354): the task fails with the cause of the stand's last report, unless a thread of it ended badly before. -/
def resetStand (s : State) (st : Stand) : State :=
  let st1 := { st with bad := some (st.bad.getD st.lastCause) }
  failStand (s.modStand st.id fun _ => st1) st1 3

/-- STAND_RESET (R354): OP 2. -/
def execStandReset (part : Nat) (s : State) : Host.Outcome State Fault Refusal := onStand part 2 s fun st => (0, resetStand s st)

/-- RERUN_STAND (R342, R348): OP 3, refused for a non-rerunnable task, and for a stand that is neither escalated nor Saved. RETRIES is unchanged. -/
def execRerunStand (part : Nat) (s : State) : Host.Outcome State Fault Refusal :=
  onStand part 3 s fun st =>
    if st.direct ∨ (st.st ≠ .escalated ∧ st.st ≠ .saved) then (2, s)
    else (0, takeBack s st st.packet)

/-- RESUME_STAND (R342, R351): OP 4, refused for a stand that is neither Saved nor escalated. -/
def execResumeStand (part : Nat) (s : State) : Host.Outcome State Fault Refusal :=
  onStand part 4 s fun st => if st.st ≠ .escalated ∧ st.st ≠ .saved then (2, s) else (0, resumeStand s st.id)

/-- PREEMPT_STAND (R350): OP 5. -/
def execPreemptStand (part : Nat) (s : State) : Host.Outcome State Fault Refusal :=
  onStand part 5 s fun st => if st.st ≠ .live ∨ (standThreads s st.id).isEmpty then (0, s) else (0, preemptStand s st.id 0x22)

/-! Gangs (R352). -/

/-- The jobs of a partition under a context. -/
def jobsOf (s : State) (part ctx : Nat) : List Job := s.gl.jobs.filter fun j => decide (j.part = part) && decide (j.ctx = ctx)

/-- GANG_SWITCH (R352 steps 1 and 2): OP 6. -/
def execGangSwitch (part : Nat) (s : State) : Host.Outcome State Fault Refusal :=
  svCommand part 6 s fun w =>
    match jobsOf s part (svCtx w) with
    | [] => svDone s part 3
    | js => svDone (js.foldl (fun s j => s.modJob j.id fun j => { j with gang := true, gangSaved := false, gangResume := false }) s) part 0

/-- The sends of a job's threads that no receiver has resolved (R352 step 3). -/
def sendsInFlight (s : State) (job : Nat) : Nat :=
  let stands := (s.gl.stands.filter fun st => decide (st.packet.job = job)).map (·.id)
  ((s.threads.filter fun t => decide (t.run ≠ .ended) && stands.contains t.tid.stand).map (·.sendsOut)).foldl (· + ·) 0

/-- GANG_PREEMPT (R352 steps 4 and 5): with no send in flight, every thread of the job is pre-empted; the one report follows when all are saved. -/
def execGangPreempt (job : Nat) (s : State) : Host.Outcome State Fault Refusal :=
  match s.job? job with
  | none => .next s
  | some j =>
    if !j.gang || j.gangSaved || decide (sendsInFlight s job ≠ 0) then .next s
    else
      let live := s.gl.stands.filter fun st => decide (st.packet.job = job) && decide (st.st = .live) && !(standThreads s st.id).isEmpty
      .next (gangReport (live.foldl (fun s st => preemptStand s st.id 0x22) s) job)

/-- GANG_RESUME (R352): OP 7, performed once the job's switch is complete. No thread of the job issues until every one is back. -/
def execGangResume (part : Nat) (s : State) : Host.Outcome State Fault Refusal :=
  svCommand part 7 s fun w =>
    match jobsOf s part (svCtx w) with
    | [] => svDone s part 3
    | js =>
      if js.any fun j => j.gang && !j.gangSaved then s
      else
        let mine := js.filter (·.gang)
        let s1 := mine.foldl (fun s j => s.modJob j.id fun j => { j with gang := false, gangSaved := false, gangResume := true }) s
        let saved := (s1.gl.stands.filter fun st => decide (st.st = .saved) && mine.any fun j => decide (j.id = st.packet.job)).map (·.id)
        svDone (mine.foldl (fun s j => gangBack s j.id) (saved.foldl resumeStand s1)) part 0

/-! Resets. -/

/-- A stand gone by a queue or a partition reset (R354, R355): its threads end with their sessions marked reset-truncated. -/
def wipeStand (s : State) (st : Stand) : State := closeStand (discardLines (endThreads s st.id .reset 2) st.id) st.id false

/-- The requests of the actions of Glade on a job or a queue forgotten. -/
def dropAsks (s : State) (p : GladeKey → Bool) : State := { s with gl := { s.gl with asks := s.gl.asks.filter fun e => !p e.1 } }

/-- A job ended by a reset: its completion record has STATUS 4 (R313, R354). One that lies in another package is left to the job's end. -/
def wipeJob (s : State) (j : Job) : State :=
  let s0 := dropAsks (dropTasks s j.id) fun k => match k with | .node id _ => decide (id = j.id) | .done id => decide (id = j.id) | _ => false
  gladeAct (.done j.id) (fun s =>
    let s1 := (writeDone s j.ctx j.done 4 0).2
    clearJob { s1 with gl := { s1.gl with jobs := s1.gl.jobs.filter fun k => decide (k.id ≠ j.id) } } j.ctx j.id)
    (s0.modJob j.id fun j => { j with failed := some (4, 0) })

/-- A queue reset (R327, log 100, R354): its stands, packets and jobs are gone, HEAD := TAIL and EN := 0. -/
def resetQueue (s : State) (q : Nat) : State :=
  let s1 := (s.gl.stands.filter fun st => decide (st.packet.queue = q)).foldl wipeStand s
  let s2 := dropPreloads { s1 with gl := { s1.gl with placed := s1.gl.placed.filter fun p => decide (p.packet.queue ≠ q) } } fun e => decide (e.packet.queue = q)
  let s3 := dropAsks ((s2.gl.jobs.filter fun j => decide (j.queue = q)).foldl wipeJob s2) fun k => decide (k = .record q)
  let s4 := { s3 with gl := { s3.gl with queues := s3.gl.queues.map fun (e : QueueSt) => if e.queue = q then { e with ready := [], deferred := [] } else e } }
  (s4.setReg10 (.qptr q) (setFld (s4.reg10 (.qptr q)) 31 16 (tailOf s4 q))).setReg10 (.qctl q) (setFld (s4.reg10 (.qctl q)) 63 63 0)

/-- QUEUE_RESET (R354): OP 8, on a queue of the partition. -/
def execQueueReset (part : Nat) (s : State) : Host.Outcome State Fault Refusal :=
  svCommand part 8 s fun w => if svQueue w / 16 ≠ part then svDone s part 3 else svDone (resetQueue s (svQueue w)) part 0

/-- A partition reset (R354): its sixteen queues, its die-level tiles and counters, and its capability entries. -/
def resetPartition (s : State) (part : Nat) : State :=
  let s1 := ((List.range 16).map fun k => part * 16 + k).foldl resetQueue s
  let s2 := (s1.gl.stands.filter fun st => decide (st.part = part)).foldl wipeStand s1
  let s3 := (s2.db.sessions.filter fun e => decide (e.part = part)).foldl (fun s e => endSession s e.tid 2) s2
  let mine := fun (sp : Space) => match sp with | .die c _ => decide (s3.partOf c = part) | _ => false
  let s4 := freeTiles s3 fun t => mine t.key.space
  { s4 with un := { s4.un with timelines := s4.un.timelines.filter fun t => !mine t.key.space }
            db := { s4.db with caps := s4.db.caps.filter (fun e => decide (e.part ≠ part)), nonceNext := s4.db.nonceNext + 1
                               nonces := s4.db.nonces.filter fun e => decide (e.1.1 ≠ part)
                               nonceBase := assoc s4.db.nonceBase part (s4.db.nonceNext + 1) } }

/-- PARTITION_RESET (R354): OP 9, or a request of the host. -/
def execPartitionReset (part : Nat) (byHost : Bool) (s : State) : Host.Outcome State Fault Refusal :=
  if byHost then .next (resetPartition s (part % 16)) else svCommand part 9 s fun _ => svDone (resetPartition s part) part 0

/-- The package reset (R354, R355): sessions are closed first; then nothing is left but the bytes of HBM and of host memory, with their poison and the
keys that they were written under, the boot log, and what no reset reaches: the package's own constants, the links to the host, the hours of the health updates, and the world outside. -/
def resetPackage (s : State) : State :=
  let s1 := s.db.sessions.foldl (fun s e => endSession s e.tid 2) s
  let r := State.reset
  { r with
    turns := s1.turns
    clk := { r.clk with blend := s1.clk.blend, pkg := s1.clk.pkg, half := s1.clk.half, free := s1.clk.free, time := s1.clk.time }
    ms := { r.ms with mem := s1.ms.mem, poison := s1.ms.poison.filter (fun f => decide (f.1 = .hbm)), lineKey := s1.ms.lineKey, ecc := s1.ms.ecc.filter fun e => decide (e.level = .hbm) }
    xl := { r.xl with keyGen := s1.xl.keyGen }
    un := { r.un with lacks := s1.un.lacks }
    db := { r.db with nonceNext := s1.db.nonceNext + 1, nonceBase := (List.range 16).map fun p => (p, s1.db.nonceNext + 1) }
    pod := { r.pod with outNext := s1.pod.outNext }
    pf := { r.pf with bootLog := s1.pf.bootLog, startCount := s1.pf.startCount + 1, linksDown := s1.pf.linksDown, reports := s1.pf.reports
                      hostData := s1.pf.hostData, healthHour := s1.pf.healthHour } }

/-- PACKAGE_RESET (R354, R382): the host or the security root resets the package, and Coppice starts again. -/
def execPackageReset (s : State) : Host.Outcome State Fault Refusal := .next (resetPackage s)

/-! Faults from outside. -/

/-- POSTED_STORE_RESOLVE (R43, R343): the oldest posted store of a thread is translated, and accepted or made an entry. -/
def execPostedStoreResolve (t : Tid) (s : State) : Host.Outcome State Fault Refusal :=
  .next (s.asThread t fun u =>
    match u.ms.posted.find? fun p => decide (p.tid = t) with
    | none => u
    | some p =>
      match resolveOne u p with
      | .done u1 => u1
      | .trap r u1 => deliverInstead u1 r
      | .park _ _ => u
      | .refuse _ => u)

/-- IMPRECISE_STORE_FAULT (R334 item 2, R344): a faulted posted store that is due, taken at its thread's boundary. -/
def execImpreciseStoreFault (t : Tid) (s : State) : Host.Outcome State Fault Refusal :=
  .next (s.asThread t fun u =>
    if !stoppable u.th ∨ standHalted u t.stand ∨ earlierItem u 2 then u
    else (match dueStoreFault u with | some f => takeStoreFault u f | none => u))

/-- Whether a thread holds a context of a core, or has one reserved there. -/
def holdsCore (t : Thread) (c : CoreId) : Bool :=
  decide (t.run ≠ .ended) && (decide ((t.place.map (·.at_)) = some c) || (match t.run with | .transit _ _ (some p) => decide (p.at_ = c) | _ => false))

/-- A preload's packet back at the head of its queue's ready list (R327). -/
def returnPreload (s : State) (e : PreloadSlot) : State := readyFirst (dropPreloads s fun x => x == e) e.packet

/-- A record put into the boot log (R382), which holds the newest 4,096; its time is 0 until the package has locked to pod time. -/
def bootLogged (s : State) (step : Nat) (unit : Unit_) (var out : Nat) (code : Word) : State :=
  let r : BootRec := { start := s.pf.startCount, step := step, unit := unit, var := var, out := out, code := code
                       time := if s.clk.synced then BitVec.ofNat 64 s.clk.time else 0 }
  { s with pf := { s.pf with bootLog := (r :: s.pf.bootLog).take 4096 } }

/-- The record of capacity that failed at run time (R384): STEP 0xF0, failed, with a code that is not stated (log 10). -/
def capacityLogged (s : State) (unit : Unit_) : State := bootLogged s 0xF0 unit 0 1 (Config.bootCode 0xF0 s.pf.startCount)

/-- A core that fails (R346, R347, R384): it leaves the pool, its preload is discarded, and every task that holds a context of it meets a retryable
event. A thread of no stand ends. -/
def failCore (s : State) (core : CoreId) : State :=
  let s0 := if s.un.out.contains core then s else capacityLogged { s with un := { s.un with out := s.un.out ++ [core] } } (.core core)
  let s2 := (s0.gl.preloads.filter fun e => decide (e.core = core)).foldl returnPreload s0
  let hit := s2.threads.filter fun t => holdsCore t core
  (uniq (hit.map (·.tid.stand))).foldl (fun s id =>
    match s.stand? id with
    | some _ => retryable s id false [core] { cause := 0 } 0
    | none => (hit.filter fun t => decide (t.tid.stand = id)).foldl (fun s t => endThread s t.tid (.fault 0) 3) s) s2

/-- CORE_HARDWARE_ERROR (R346, R347). -/
def execCoreHardwareError (core : CoreId) (s : State) : Host.Outcome State Fault Refusal :=
  if coreExists s.clk.blend core then .next (failCore s core) else .next s

/-- WATCHDOG_EXPIRY (R333, R346): a core that has not answered for 2^20 cycles is treated as failed. -/
def execWatchdogExpiry (core : CoreId) (s : State) : Host.Outcome State Fault Refusal :=
  if coreExists s.clk.blend core then .next (failCore s core) else .next s

end Sys2Proof.Machine
end

