-- ==== Sys2Proof/Machine/DebugEvents.lean ====
section
/-! DEFINITION. Events of debug: the ring and its engine (R357 to R359, R409), the commands (R359 to R361, R364, R367, R369), stop points (R361) and
sample records (R364). -/

namespace Sys2Proof.Machine

/-! The ring. -/

/-- The number of slots of a partition's debug ring (R358). -/
def dbgSlots (s : State) (part : Nat) : Nat := 2 ^ (fld (s.reg10 (.dbgring part)) 3 0 + 4)

/-- The physical address of a slot. -/
def dbgSlot (s : State) (part n : Nat) : Nat := fld (s.reg10 (.dbgring part)) 51 12 * 4096 + n * 64

/-- A ring index: modulo the ring's size, with 0 skipped (R358, log 37). -/
def dbgIndex (s : State) (part n : Nat) : Nat := if n % dbgSlots s part = 0 then 1 else n % dbgSlots s part

/-- A command as the engine holds it: its ring slot and key, its dwords (R359). -/
structure DbgCmd where
  part : Nat
  slot : Nat
  key : KeyTag
  words : List Word
  deriving DecidableEq, Repr

/-- The command at HEAD of a partition's ring: none while the ring is off or empty, or its key unusable (R358, R409). -/
def dbgNext (s : State) (part : Nat) : Option DbgCmd :=
  if !bitOf (s.reg10 (.dbgring part)) 63 then none
  else
    (defaultKey s part).bind fun key =>
      let base := dbgSlot s part 0
      let tail := dbgIndex s part (homeRead s (some key) base 8)
      let head := dbgIndex s part (homeRead s (some key) (base + 8) 8)
      if head = tail then none
      else some ⟨part, head, key, wordsOf 8 (commBytes s.ms (some key) (dbgSlot s part head) 64)⟩

/-- Dword k of a command. -/
def DbgCmd.word (c : DbgCmd) (k : Nat) : Word := c.words.getD k 0

/-- The operation of a command. -/
def DbgCmd.op (c : DbgCmd) : Nat := fld (c.word 0) 7 0

/-- The tool's context. -/
def DbgCmd.tctx (c : DbgCmd) : Nat := fld (c.word 7) 11 0

/-- A command done: RESULT, then dword 0 with STAT, and HEAD moves on (R358). -/
def dbgDone (s : State) (c : DbgCmd) (stat : Nat) (result : Word) : State :=
  let pa := dbgSlot s c.part c.slot
  let s1 := homeStore s (some c.key) (pa + 48) 8 result.toNat
  let s2 := homeStore s1 (some c.key) pa 8 (setFld (c.word 0) 15 8 stat).toNat
  homeStore s2 (some c.key) (dbgSlot s c.part 0 + 8) 8 (dbgIndex s c.part (c.slot + 1))

/-- A command done that returns nothing: what RESULT holds is not stated (log 4). -/
def dbgEnd (s : State) (c : DbgCmd) (stat : Nat) : State :=
  let (w, s1) := s.takeFree
  dbgDone s1 c stat w

/-- The right that an operation needs (R359): its bit in the mask of R235. -/
def dbgRight (op : Nat) : Nat :=
  match op with
  | 0x01 | 0x02 => 0
  | 0x03 | 0x04 | 0x09 | 0x0A => 1
  | 0x05 | 0x07 => 2
  | 0x06 | 0x08 => 3
  | 0x0B => 4
  | _ => 6

/-- Whether a thread lies in the thread set of an entry (R356). -/
def CapEntry.covers (e : CapEntry) (t : Thread) : Bool := decide (t.ctx = e.ctx) && (!e.set || decide (t.tid.stand = e.stand))

/-- The checks of a command as the engine starts it (R357, R359, log 38): the STAT that refuses it, or the entry of its token and its thread. -/
def dbgCheck (s : State) (c : DbgCmd) : Except Nat (CapEntry × Thread) :=
  let malformed := decide (fld (c.word 0) 63 16 ≠ 0) || decide (fld (c.word 2) 63 32 ≠ 0) || decide (fld (c.word 7) 63 12 ≠ 0) ||
    !(s.ctxRec c.tctx).en || decide (s.partOf c.tctx ≠ c.part) || decide (c.op = 0) || decide (0x0D < c.op)
  if malformed then .error 4
  else
    match capOf s c.part (c.word 1) with
    | none => .error 2
    | some e =>
      if !e.rights.getLsbD (dbgRight c.op) then .error 2
      else
        match threadOfWord s (fld (c.word 2) 31 0) with
        | none => .error 3
        | some t =>
          if !e.covers t || decide (s.partOf t.ctx ≠ c.part) then .error 2
          else if 2 ≤ c.op ∧ (s.session t.tid).isNone then .error 4
          else .ok (e, t)

/-- A debug command of a partition, when the one at HEAD is of an operation and none is in progress: `k` performs it. A command that names no operation
is answered by any of the events. -/
def dbgCommand (part op : Nat) (s : State) (k : DbgCmd → CapEntry → Thread → State) : Host.Outcome State Fault Refusal :=
  match dbgNext s part with
  | none => .next s
  | some c =>
    if s.db.busy.any (fun b => decide (b.part = part)) then .next s
    else if c.op = op ∨ c.op = 0 ∨ 0x0D < c.op then
      .next (match dbgCheck s c with
        | .error stat => dbgEnd s c stat
        | .ok (e, t) => k c e t)
    else .next s

/-- RDMEM or WRMEM as `dbgCommand` performs it: one that waits for another package has passed its check (R357). -/
def dbgMemory (part op : Nat) (s : State) (k : DbgCmd → Thread → State) : Host.Outcome State Fault Refusal :=
  match dbgNext s part, look s.gl.asks (.debug part) with
  | some c, some _ =>
    if c.op ≠ op then .next s
    else
      (match threadOfWord s (fld (c.word 2) 31 0) with
      | some t => .next (k c t)
      | none => .next (gladeAct (.debug part) (fun s => dbgEnd s c 3) s))
  | _, _ => dbgCommand part op s fun c _ t => k c t

/-- A command ended by a cause, which a fault on a tool's buffer, or on an address of RDMEM or WRMEM, gives as RESULT (R359). -/
def dbgCause (s : State) (c : DbgCmd) (cause : Nat) : State := dbgDone s c 4 (BitVec.ofNat 64 cause)

/-- A command ended by a fault. -/
def dbgFault (s : State) (c : DbgCmd) (a : Acc) (e : XFault × Nat) : State := dbgCause s c (faultTrap a e.1 e.2).cause

/-! Sessions. -/

/-- ATTACH (R359): a thread has one session at most. -/
def execAttach (part : Nat) (s : State) : Host.Outcome State Fault Refusal :=
  dbgCommand part 0x01 s fun c e t =>
    if (s.session t.tid).isSome then dbgEnd s c 2
    else
      let e : Session := { tid := t.tid, part := part, cap := e.index, profile := false, points := [], trace := none, record := none, replay := none, sampleAt := 0, revoked := false }
      dbgEnd { s with db := { s.db with sessions := s.db.sessions ++ [e] } } c 0

/-- DETACH (R359, R366). -/
def execDetach (part : Nat) (s : State) : Host.Outcome State Fault Refusal :=
  dbgCommand part 0x02 s fun c _ t => dbgEnd (endSession s t.tid 0) c 0

/-- A thread in a streamer queue Stopped in place (R161). -/
def stopQueued (s : State) (t : Tid) : State :=
  s.modThread t fun th => match th.run with | .transit _ _ none => { th with run := .stopped, req := { th.req with stop := false } } | _ => th

/-- What a STOP in progress comes to (R360): done once its thread is Stopped. A command that passed its check completes (R357): one whose session has ended
meanwhile does so too, and its thread is continued. Its thread may have ended (log 38). -/
def stopOver (s0 : State) (b : DbgBusy) : Option (Nat × State) :=
  let s := stopQueued s0 b.tid
  if b.reached then some (0, s0)
  else
    match s.getThread b.tid with
    | none => some (3, s)
    | some t =>
      if t.run ≠ .stopped then none
      else some (0, if (s.session b.tid).isSome then s else continueThread s b.tid)

/-- STOP (R161, R360): the thread is asked to stop at its next boundary, and the command is done when it is Stopped. -/
def execStop (part : Nat) (s : State) : Host.Outcome State Fault Refusal :=
  match s.db.busy.find? fun b => decide (b.part = part) with
  | some b =>
    (match stopOver s b, dbgNext s part with
    | some (stat, s1), some c => .next (dbgEnd { s1 with db := { s1.db with busy := s1.db.busy.erase b } } c stat)
    | _, _ => .next s)
  | none =>
    dbgCommand part 0x03 s fun c _ t =>
      let s1 := stopQueued s t.tid
      if (s1.getThread t.tid).any fun u => decide (u.run = .stopped) then dbgEnd s1 c 0
      else
        let s2 := s1.modThread t.tid fun th => { th with req := { th.req with stop := true } }
        { s2 with db := { s2.db with busy := s2.db.busy ++ [⟨part, t.tid, c.slot, false⟩] } }

/-- CONT (R359): a Stopped thread runs. -/
def execCont (part : Nat) (s : State) : Host.Outcome State Fault Refusal :=
  dbgCommand part 0x04 s fun c _ t => if t.run = .stopped then dbgEnd (continueThread s t.tid) c 0 else dbgEnd s c 1

/-! Registers. -/

/-- What a selector names (R359). -/
inductive DbgReg where
  | x (r : Reg)
  | f (r : Reg)
  | sys (r : SReg)
  | v (r : Reg) (dword : Nat)
  | pc
  deriving DecidableEq, Repr

/-- The register of a selector and a dword index, when the class of the thread has it. -/
def dbgSelect (sel idx : Word) (cls : CoreClass) : Option DbgReg :=
  let num := fld sel 11 0
  let reg : Reg := BitVec.ofNat 5 num
  match fld sel 19 16 with
  | 0 => if num < 32 ∧ idx = 0 then some (.x reg) else none
  | 1 => if num < 32 ∧ idx = 0 ∧ cls ≠ .t then some (.f reg) else none
  | 2 => (SReg.ofNumber num).bind fun r => if idx = 0 ∧ (sregCause r cls).isNone then some (.sys r) else none
  | 3 => if num < 32 ∧ cls = .v then some (.v reg idx.toNat) else none
  | 4 => if idx = 0 then some .pc else none
  | _ => none

/-- A register of the current thread as the engine reads it: the register file itself, without chain mode. -/
def dbgRead (s : State) (r : DbgReg) : Word :=
  match r with
  | .x n => if n = 0 then 0 else s.th.x.get ⟨n.toNat, n.isLt⟩
  | .f n => readF s.th n
  | .sys n => readSys s s.th n
  | .v n k => if (readV s.th n).vd ≤ k then 0 else BitVec.ofNat 64 (cellRead (readV s.th n).bytes (k * 8) 8)
  | .pc => s.th.pc

/-- A dword of a vector register's image written: its tag covers it (R158, R360). -/
def putDword (v : VReg) (k : Nat) (w : Word) : VReg := ⟨cellWrite v.bytes (k * 8) 8 w.toNat, true, max v.vd (k + 1)⟩

/-- A register of the current thread written by the engine: none for a read-only one, for a value that its map rejects, for a dword past the register,
and for a pc out of alignment (log 38). Loads made ahead are made again. -/
def dbgWrite (s : State) (r : DbgReg) (w : Word) : Option State :=
  let fresh := fun (s1 : State) => s1.onTh fun t => { t with dauAhead := [] }
  match r with
  | .x n => some (fresh (if n = 0 then s else s.onTh fun t => { t with x := t.x.set n.toNat w n.isLt }))
  | .f n => some (s.onTh fun t => writeF t n w)
  | .sys n => if sregReadOnly n || (sysReject s n w).isSome then none else some (fresh (sysWrite s n w))
  | .v n k => if k < 16 * lanesOfThread s.th then some (fresh (s.onTh fun t => writeV t n (putDword (readV t n) k w))) else none
  | .pc => if w.toNat % 4 = 0 then some (fresh (s.onTh fun t => { t with pc := w })) else none

/-- The place whose class state a thread's area holds, when it stands at none, with the cause, the destination class and the f registers' part of its departure:
a Saved thread, or one Stopped in a streamer queue (R156, R161, R351). -/
def spilledAt (s : State) (t : Thread) : Option (Place × Nat × CoreClass × Bool) :=
  match t.run with
  | .saved p => some (p, 0, coreClass p.at_, false)
  | .stopped =>
    (s.gl.streamQ.find? fun q => decide (q.tid = t.tid)).map fun q =>
      (q.src, q.cause, q.classes.foldl (fun b c => if c.code < b.code then c else b) (q.classes.headD .c), q.classes.contains .t)
  | _ => none

/-- What is done with the registers of a Stopped or Saved thread, its class state being read back for it; the area is written again when `back` (R158,
R360). The first fault of the area, or the answer. -/
def withRegs {α : Type} (s : State) (t : Thread) (back : Bool) (f : State → α × State) : Except (Acc × (XFault × Nat)) α × State :=
  match s.switchTo t.tid with
  | none => let (a, s1) := f s; (.ok a, s1)
  | some s0 =>
    let home := fun (u : State) => (u.switchTo s.th.tid).getD u
    match spilledAt s t with
    | some (p, cause, dst, toT) =>
      let put := fun (u : State) => home (u.onTh fun th => { th with place := none, vspill := t.vspill, tspill := t.tspill })
      (match restoreClass (s0.onTh fun th => { th with place := some p }) with
      | (.error e, s1) => (.error (.load, e), put s1)
      | (.ok _, s1) =>
        let (a, s2) := f s1
        if !back then (.ok a, put s2)
        else
          match csaWrite s2 s2.th (spillParts s2 s2.th toT ++ [(0x300, wordsBytes (portable { s2.th with vspill := t.vspill } cause (coreClass p.at_) dst))]) with
          | (.error e, s3) => (.error (.store, e), put s3)
          | (.ok _, s3) => (.ok a, put s3))
    | none => let (a, s1) := f s0; (.ok a, home s1)

/-- Whether the registers of a thread can be reached (R360). -/
def regsOpen (t : Thread) : Bool := match t.run with | .stopped | .saved _ => true | _ => false

/-- The core whose class decides which registers a thread has. -/
def regsCore (s : State) (t : Thread) : CoreId := match spilledAt s t with | some e => e.1.at_ | none => coreOf t

/-- RDREG (R359, R360). -/
def execRdreg (part : Nat) (s : State) : Host.Outcome State Fault Refusal :=
  dbgCommand part 0x05 s fun c _ t =>
    match dbgSelect (c.word 3) (c.word 4) (coreClass (regsCore s t)) with
    | none => dbgEnd s c 4
    | some r =>
      if !regsOpen t then dbgEnd s c 1
      else
        match withRegs s t false fun u => (dbgRead u r, u) with
        | (.error (a, e), s1) => dbgFault s1 c a e
        | (.ok w, s1) => dbgDone s1 c 0 w

/-- WRREG (R359, R360). -/
def execWrreg (part : Nat) (s : State) : Host.Outcome State Fault Refusal :=
  dbgCommand part 0x06 s fun c _ t =>
    match dbgSelect (c.word 3) (c.word 4) (coreClass (regsCore s t)) with
    | none => dbgEnd s c 4
    | some r =>
      if !regsOpen t then dbgEnd s c 1
      else
        match withRegs s t true (fun u => match dbgWrite u r (c.word 5) with | some u1 => (true, u1) | none => (false, u)) with
        | (.error (a, e), s1) => dbgFault s1 c a e
        | (.ok ok, s1) => dbgEnd s1 c (if ok then 0 else 4)

/-! Memory. -/

/-- Whether a size operand is one of R359. -/
def dbgSize (w : Word) : Option Nat := if w = 1 ∨ w = 2 ∨ w = 4 ∨ w = 8 then some w.toNat else none

/-- The parts of an access of a tool as the current thread would make it, or its cause: its die may lack the pod window (R371). -/
def dbgParts (s : State) (a : Acc) (va n : Nat) : Except Nat (List Part) × State :=
  if lacksWindow s (coreOf s.th).die (pagesOf va n) then (.error 0x1C, s)
  else
    match partsUnder s (threadWalker s s.th) (threadAcc s.th a false) (pagesOf va n) [] with
    | (.error e, s1) => (.error (faultTrap a e.1 e.2).cause, s1)
    | (.ok ps, s1) => (.ok ps, s1)

/-- A request of a tool to another package, made in the current thread's mode (R30). -/
def dbgAsk (s : State) (pkg off va : Nat) (op : PodOp) (a : Acc) : Except Nat Nat × State :=
  match gladeAsk s (activeCtx s s.th) pkg off va op { plainAt .pkg with sup := s.th.status.priv } with
  | (.error e, s1) => (.error (faultTrap a e.1 e.2).cause, s1)
  | (.ok v, s1) => (.ok v, s1)

/-- The bytes of a load as the current thread would make it (R80): below the first-level caches, with its core's queued stores and its task's bytes; in
region 10 (R7); or in another package (R133). -/
def dbgBytes (s0 : State) : List Part → List Byte → Except Nat (List Byte) × State
  | [], acc => (.ok acc, s0)
  | .there pkg off va n :: rest, acc =>
    (match dbgAsk s0 pkg off va (.load n) .load with
    | (.error e, s1) => (.error e, s1)
    | (.ok v, s1) => dbgBytes s1 rest (acc ++ leBytes n v))
  | .here x va n :: rest, acc =>
    if regionOf x.pa = 2 then dbgBytes s0 rest (acc ++ devLoad s0 x.pa n)
    else
      let view := s0.viewOf s0.th.tid.stand
      let die := s0.l2DieOf s0.th.tid.stand (coreOf s0.th).die
      let lines := uniq ((List.range n).map fun k => lineOf (x.pa + k))
      let s := provRepair s0 s0.th.tid.stand fun l => lines.contains l
      match provLost s s.th fun l => lines.contains l with
      | some s1 => (.error 0x10, s1)
      | none =>
        match readBelow s die view x n with
        | (.error k, s1) => (.error 0x10, consumePoison s1 (if x.mt = 0 then some die else none) s1.th (lineOf (x.pa + k)) (va + k))
        | (.ok bs, s1) => dbgBytes s1 rest (acc ++ (List.range n).map fun k => (wtByte s1.ms (coreOf s1.th) view (x.pa + k)).getD (bs.getD k 0))

/-- A load as the current thread would make it: the value, or its cause. -/
def dbgLoad (s : State) (va n : Nat) : Except Nat Nat × State :=
  match dbgParts s .load va n with
  | (.error e, s1) => (.error e, s1)
  | (.ok ps, s1) =>
    match dbgBytes s1 ps [] with
    | (.error e, s2) => (.error e, s2)
    | (.ok bs, s2) => (.ok (leNat bs), s2)

/-- A tool's requests to other packages made one after the other. -/
def dbgAskAll (s : State) : List (Nat × Nat × Nat × PodOp) → Except Nat Unit × State
  | [] => (.ok (), s)
  | (pkg, off, va, op) :: rest =>
    match dbgAsk s pkg off va op .store with
    | (.ok _, s1) => dbgAskAll s1 rest
    | (.error e, s1) => (.error e, s1)

/-- A store as the current thread would make it (R79, R83, R368), or its cause. A thread that holds no core has no queue of its own: the store goes on at
once. -/
def dbgStore (s : State) (va : Nat) (bs : List Byte) : Except Nat Unit × State :=
  match dbgParts s .store va bs.length with
  | (.error e, s1) => (.error e, s1)
  | (.ok ps, s1) =>
    match (if storePublishes s1 s1.th.status.priv ps then publishFirst s1 else .done s1) with
    | .done s2 =>
      (match dbgAskAll s2 (farOps false ps bs) with
      | (.error e, s3) => (.error e, s3)
      | (.ok _, s3) =>
        let s4 := storeHere (s3.onTh fun t => { t with dauAhead := [], sum := sumBytes t.sum va bs }) (knownTo s3.ms s3.th.tid) (activeCtx s3 s3.th) va
          s3.th.status.priv false false ps bs
        (.ok (), if s4.th.place.isSome then s4 else drainCore s4 (coreOf s4.th)))
    | _ => (.error 0x10, s1)

/-- The posted stores of the current thread taken on before a tool's access to its memory (R343); false while some are still to be accepted. -/
def dbgSettle (s : State) : Bool × State :=
  match resolvePosted s with
  | .done s1 => (true, s1)
  | .trap r s1 => (true, deliverInstead s1 r)
  | .park _ s1 => (false, s1)
  | .refuse _ => (true, s)

/-- Something done for a thread that answers. -/
def answerAs {α : Type} (s : State) (t : Tid) (f : State → α × State) : Option (α × State) :=
  (s.switchTo t).map fun s1 =>
    let (a, s2) := f s1
    (a, (s2.switchTo s.th.tid).getD s2)

/-- A tool's access to a thread's memory, after the thread's posted stores: `f` makes it, and `k` answers. -/
def dbgAccess {α : Type} (part : Nat) (s : State) (c : DbgCmd) (t : Tid) (f : State → Except Nat α × State) (k : State → α → State) : State :=
  match answerAs s t dbgSettle with
  | some (false, s1) => { s1 with gl := { s1.gl with asks := assoc s1.gl.asks (.debug part) ((look s1.gl.asks (.debug part)).getD []) } }
  | some (true, s1) =>
    gladeAct (.debug part) (fun s =>
      match answerAs s t f with
      | none => dbgEnd s c 3
      | some (.error cause, s2) => dbgCause s2 c cause
      | some (.ok v, s2) => k s2 v) s1
  | none => gladeAct (.debug part) (fun s => dbgEnd s c 3) s

/-- RDMEM (R80, R359). -/
def execRdmem (part : Nat) (s : State) : Host.Outcome State Fault Refusal :=
  dbgMemory part 0x07 s fun c t =>
    match dbgSize (c.word 4) with
    | none => dbgEnd s c 4
    | some n => dbgAccess part s c t.tid (fun u => dbgLoad u (c.word 3).toNat n) fun s1 v => dbgDone s1 c 0 (BitVec.ofNat 64 v)

/-- WRMEM (R79, R359, R368). -/
def execWrmem (part : Nat) (s : State) : Host.Outcome State Fault Refusal :=
  dbgMemory part 0x08 s fun c t =>
    match dbgSize (c.word 4) with
    | none => dbgEnd s c 4
    | some n => dbgAccess part s c t.tid (fun u => dbgStore u (c.word 3).toNat (leBytes n (c.word 5).toNat)) fun s1 _ => dbgEnd s1 c 0

/-! Stop points. -/

/-- SETSP (R361). -/
def execSetsp (part : Nat) (s : State) : Host.Outcome State Fault Refusal :=
  dbgCommand part 0x09 s fun c e t =>
    let slot := fld (c.word 4) 18 16
    let p : StopPoint := { slot := slot, pc := c.word 3, element := fld (c.word 4) 15 0, cap := e.index, passed := false }
    dbgEnd (s.modSession t.tid fun (q : Session) => { q with points := q.points.filter (fun x => decide (x.slot ≠ slot)) ++ [p] }) c 0

/-- CLRSP (R359). -/
def execClrsp (part : Nat) (s : State) : Host.Outcome State Fault Refusal :=
  dbgCommand part 0x0A s fun c _ t =>
    let slot := fld (c.word 4) 18 16
    dbgEnd (s.modSession t.tid fun (q : Session) => { q with points := q.points.filter fun x => decide (x.slot ≠ slot) }) c 0

/-- STOP_POINT_FIRE (R334 item 1, R361): a stop point at the next instruction of a thread fires, and leaves it Stopped. -/
def execStopPointFire (t : Tid) (s : State) : Host.Outcome State Fault Refusal :=
  .next (s.asThread t fun u =>
    if !stoppable u.th ∨ standHalted u t.stand then u
    else (match stopPointAt u false with | some p => firePoint u p | none => u))

/-! Tracing, record and replay. -/

/-- A ring of a tool started: its control block's WIDX and LOST are 0 (log 22). The first fault, or the state. -/
def dbgRing (s : State) (c : DbgCmd) : Except (XFault × Nat) Unit × State :=
  match writeUnder s c.tctx 0 (c.word 3).toNat (leBytes 8 0) with
  | (.error e, s1) => (.error e, s1)
  | (.ok _, s1) => writeUnder s1 c.tctx 0 (((c.word 3).toNat + 16) % 2 ^ 64) (leBytes 8 0)

/-- TRACE (R359, R364): sample records need the profile right too. -/
def execTrace (part : Nat) (s : State) : Host.Outcome State Fault Refusal :=
  dbgCommand part 0x0B s fun c e t =>
    let profile := e.rights.getLsbD 5
    if bitOf t.profctl 4 && !profile then dbgEnd s c 2
    else
      match dbgRing s c with
      | (.error e, s1) => dbgFault s1 c .store e
      | (.ok _, s1) =>
        let buf : TraceBuf := ⟨(c.word 3).toNat, 2 ^ fld (c.word 4) 3 0 * 128 - 1, c.tctx, 0, 0⟩
        dbgEnd (s1.modSession t.tid fun (q : Session) => { q with trace := some buf, profile := profile, sampleAt := s.dieCycle (coreOf t).die }) c 0

/-- RECORD (R367). -/
def execRecord (part : Nat) (s : State) : Host.Outcome State Fault Refusal :=
  dbgCommand part 0x0C s fun c _ t =>
    match dbgRing s c with
    | (.error e, s1) => dbgFault s1 c .store e
    | (.ok _, s1) =>
      let buf : TraceBuf := ⟨(c.word 3).toNat, 2 ^ fld (c.word 4) 3 0 * 256 - 2, c.tctx, 0, 0⟩
      dbgEnd (s1.modSession t.tid fun (q : Session) => { q with record := some buf }) c 0

/-- REPLAY (R369, R370): with the right to continue after a divergence, the thread runs on past one. -/
def execReplay (part : Nat) (s : State) : Host.Outcome State Fault Refusal :=
  dbgCommand part 0x0D s fun c e t =>
    match readUnder s c.tctx 0 (c.word 3).toNat 8 with
    | (.error e, s1) => dbgFault s1 c .load e
    | (.ok _, s1) =>
      let r : Replaying := ⟨(c.word 3).toNat, (c.word 4).toNat, c.tctx, 0, false, e.rights.getLsbD 7⟩
      dbgEnd (s1.modSession t.tid fun (q : Session) => { q with replay := some r }) c 0

/-- SAMPLE_PERIOD_EXPIRY (R364): 2^(SPER + 10) cycles after the last sample, one is recorded, when PROFCTL.SMP and the profile right allow it. -/
def execSamplePeriodExpiry (t : Tid) (s : State) : Host.Outcome State Fault Refusal :=
  match s.getThread t, s.session t with
  | some th, some e =>
    (match th.place with
    | none => .next s
    | some p =>
      let now := s.dieCycle p.at_.die
      if e.trace.isNone || !bitOf th.profctl 4 || decide (now < e.sampleAt + 2 ^ (fld th.profctl 12 8 + 10)) then .next s
      else .next ((traceRec s th 5 th.pc.toNat (classIdWord p).toNat s.clk.time).modSession t fun (q : Session) => { q with sampleAt := now }))
  | _, _ => .next s

end Sys2Proof.Machine
end

