-- ==== Sys2Proof/Machine/Fetch.lean ====
section
/-! DEFINITION. The passing of time (R135, R136, R275, R325), the fetch of an instruction with its prefix's successor (R186, R187, R197 to R199), and what
a thread's turn looks at before it issues (R146, R334, R343, R361). -/

namespace Sys2Proof.Machine

/-! Time. -/

/-- Whether a thread holds a context on a die. -/
def onDie (t : Thread) (die : Option Nat) : Bool := (t.place.map fun p => p.at_.die) == die && die.isSome

/-- Whether a stand is Saved (R143): it is so too while it resumes and none of its threads has come back (R325). -/
def standIdle (s : State) (st : Stand) : Bool :=
  let ts := standThreads s st.id
  decide (st.st = .saved) || (decide (st.st = .resuming) && !ts.isEmpty && ts.all fun t => match t.run with | .saved _ => true | _ => false)

/-- The stores that write-through queues have held for 8,192 cycles of their dies delivered (R73, R386). -/
def deliverOverdue (s : State) : State := (s.ms.wtq.filter fun e => decide (e.cycle + 8192 ≤ s.dieCycle e.core.die)).foldl deliverStore s

/-- Cycles and nanoseconds pass: what ends with the cycle comes first: threads that wait for a context take those that it has freed (R161), and revoked
sessions end (R357). The die `stop` does not run in them
(R386): its CYCLE, strips and budgets do not count them. -/
def passTime (s : State) (stop : Option Nat) (cycles ns : Nat) : State :=
  let strip := fun (t : Thread) =>
    if clsOf t = .v ∧ t.place.isSome ∧ !onDie t stop then { t with vec := { t.vec with stripCyc := t.vec.stripCyc + cycles } } else t
  let stopped := match stop with
    | some d => assoc s.clk.stopped d ((look s.clk.stopped d).getD 0 + cycles)
    | none => s.clk.stopped
  let s0 := if cycles = 0 then s else serveStreams (endRevoked s)
  let spend := fun (st : Stand) => if standIdle s0 st || some st.die == stop then st else { st with used := st.used + cycles }
  deliverOverdue
    { s0 with th := strip s0.th, others := s0.others.map strip
              clk := { s0.clk with cycle := s0.clk.cycle + cycles, time := s0.clk.time + ns, stopped := stopped }
              gl := { s0.gl with stands := s0.gl.stands.map spend } }

/-! Fetch. -/

/-- The bytes of the instruction at an address: the first 4, and the next 4 of a 64-bit word (R186, R187). -/
def fetchInstr (s : State) (va : Word) : Res (List Byte) :=
  (fetchWord s va.toNat).bind fun w s1 =>
    match lengthCode w with
    | .long => (fetchWord s1 (va + 4).toNat).bind fun v s2 => .ok (leBytes 4 w.toNat ++ leBytes 4 v.toNat) s2
    | _ => .ok (leBytes 4 w.toNat) s1

/-- The bits of an instruction, zero-extended (R186). -/
def bitsOf (bs : List Byte) : Word := BitVec.ofNat 64 (leNat bs)

/-- Whether a 32-bit word lies in a major whose words are prefixable (R198). -/
def prefixMajor (bs : List Byte) : Bool :=
  bs.length == 4 && (let op := leNat bs % 128; op == 0x43 || op == 0x53 || op == 0x57 || op == 0x7B)

/-- The successor that a prefix latches: the instruction of prefixable bytes, none for an orphan (R198). -/
noncomputable def successorOf (bs : List Byte) : Option Instr :=
  if prefixMajor bs then (match decode bs with | .ok i => some i | .error _ => none) else none

/-- Whether an instruction is a prefix. -/
def isPrefix : Instr → Bool
  | .pfx .. => true
  | _ => false

/-- Whether an instruction is element-restartable (R290): the memory forms, the elementwise forms and the mask forms of R290's first row. -/
def elementRestartable : Instr → Bool
  | .vle .. | .vse .. | .vlse .. | .vsse .. | .vlxe .. | .vsxe .. | .vleff .. => true
  | .vadd .. | .vsub .. | .vrsub .. | .vsadd .. | .vssub .. | .vsaddu .. | .vssubu .. | .vmul .. | .vmulh .. | .vmulhu .. => true
  | .vdiv .. | .vdivu .. | .vrem .. | .vremu .. | .vmin .. | .vmax .. | .vminu .. | .vmaxu .. | .vand .. | .vor .. | .vxor .. => true
  | .vsll .. | .vsrl .. | .vsra .. | .vssl .. | .vmseq .. | .vmsne .. | .vmslt .. | .vmsltu .. | .vmsle .. | .vmerge .. | .vmv .. => true
  | .vfadd .. | .vfsub .. | .vfmul .. | .vfdiv .. | .vfsqrt .. | .vfmin .. | .vfmax .. | .vfma .. | .vfnma .. | .vfexp2 .. => true
  | .vmfeq .. | .vmflt .. | .vmfle .. | .vfcvtd .. | .vfcvts .. | .vmand .. | .vmandn .. | .vmor .. | .vmxor .. => true
  | _ => false

/-- Whether the bytes at the pc, with a prefix's successor, make an instruction that is not element-restartable. -/
noncomputable def wholeInstr (bs succ : List Byte) : Bool :=
  match decode bs with
  | .error _ => true
  | .ok i => if isPrefix i then (match successorOf succ with | some j => !elementRestartable j | none => true) else !elementRestartable i

/-- Whether a stop point with an element lies at the pc, so that the kind of the next instruction matters (R361). -/
def elementPoint (s : State) : Bool :=
  match s.session s.th.tid with
  | none => false
  | some e => e.points.any fun p => decide (p.pc = s.th.pc) && decide (p.element ≠ 0xFFFF) && !p.passed

/-- Whether the next instruction is one before which a stop point with an element fires (R361). Only the debug engine asks: nothing is fetched for
the thread. -/
noncomputable def nextWhole (s : State) : Bool :=
  if !elementPoint s then false
  else
    match fetchInstr s s.th.pc with
    | .stop _ => true
    | .ok bs _ => (match fetchInstr s (s.th.pc + 4) with | .ok succ _ => wholeInstr bs succ | .stop _ => wholeInstr bs [])

/-- The micro-steps of a microcoded vector instruction after its checks (R291, R292): none of one that does not pass them. -/
def microSteps (s : State) (i : Instr) : Nat :=
  let passes := fun (dests : List Reg) =>
    match admitted .vector [9] s fun s1 => vchecked dests (s1.th.vec.sew == .e32) true s1 .done with
    | .done _ => true
    | _ => false
  match i with
  | .vdot4 _ vd _ _ => if passes [vd] then 4 else 0
  | .ldpairw vd _ => if passes [vd, vd + 1] then 2 else 0
  | _ => 0

/-- The micro-steps of the next instruction, when a pre-emption or a stop is to be taken before it (R353). -/
noncomputable def nextMicro (s : State) : Nat :=
  if !(s.th.req.preempt || s.th.req.stop) then 0
  else
    match fetchInstr s s.th.pc with
    | .stop _ => 0
    | .ok bs _ => (match decode bs with | .ok i => microSteps s i | .error _ => 0)

/-! Turns. -/

/-- Whether a core has had no turn of another slot or context in this cycle, and a T-core or a V-front none at all (R146, R150). -/
def turnFree (s : State) (p : Place) : Bool :=
  match look s.un.turns p.at_ with
  | none => true
  | some (k, c) => decide (c ≠ s.dieCycle p.at_.die) || (coreClass p.at_ == .c && decide (k ≤ p.slot))

/-- Whether no core of the die with a higher number has had a turn in this cycle: the requests of a cycle come by core number, then by slot (R61, R122,
log 85). -/
def coreOrder (s : State) (c : CoreId) : Bool :=
  s.un.turns.all fun e => decide (e.1.die ≠ c.die) || decide (e.2.2 ≠ s.dieCycle c.die) || decide (e.1.quad * 4 + e.1.core ≤ c.quad * 4 + c.core)

/-- Whether a context of a V-front has a thread that is ready to issue. -/
def contextReady (s : State) (p : Place) : Bool :=
  s.threads.any fun t => decide (t.place = some p) && decide (t.run = .running) && !standHalted s t.tid.stand

/-- Whether a context of a V-front comes before every other ready one, starting after the one that issued last (R150). -/
def roundRobin (s : State) (p : Place) : Bool :=
  match look s.un.turns p.at_ with
  | none => true
  | some (last, _) =>
    let rank := fun (k : Nat) => (k + 4 - (last + 1) % 4) % 4
    (List.range 4).all fun k => decide (rank p.slot ≤ rank k) || !contextReady s { p with slot := k }

/-- Whether a turn is one of the thread's issue turns: a T-core's slot s issues at the cycles that are s modulo 16 (R146), and a V-front one of its
contexts in a cycle (R150). -/
def issueTurn (s : State) : Bool :=
  match s.th.place with
  | none => false
  | some p =>
    turnFree s p && coreOrder s p.at_ &&
      (match coreClass p.at_ with
      | .c => true
      | .t => decide (s.dieCycle p.at_.die % 16 = p.slot)
      | .v => roundRobin s p)

/-- The turn of the current thread's slot or context taken. -/
def useTurn (s : State) : State :=
  match s.th.place with
  | none => s
  | some p => { s with un := { s.un with turns := assoc s.un.turns p.at_ (p.slot, s.dieCycle p.at_.die) } }

/-- The posted stores whose sixteenth issue is due resolved; the thread waits for those that other packages have not answered (R343, R344). -/
def settlePosted (s : State) : Eff :=
  if midRequest s.th then .done s
  else (resolveAll s (dueResolve s)).bind fun s1 => if (dueResolve s1).isEmpty then .done s1 else .park .stores s1

/-- An instruction that could not be fetched: its trap, or its wait. -/
def fetchStop (e : Eff) : Host.Outcome State Fault Refusal :=
  match e with
  | .done s => .next s
  | .trap r s => .next (takeTrap s r)
  | .park w s => .next (s.onTh fun t => { t with run := .parked w })
  | .refuse r => .refused r

/-- Stop points ready to fire again, when the turn issued an instruction and did not stop the thread in it. -/
def rearmAfter (before : Nat) (s : State) : State := if s.th.issues = before ∨ s.th.run = .stopped then s else rearmPoints s

end Sys2Proof.Machine
end

