-- ==== Sys2Proof/Machine/HostEvents.lean ====
section
/-! DEFINITION. Events of the host, the fabric, boot, health and power (R375 to R388), the pod time source (R381), and writes of region-10 registers
(R7, R33, R53, R310, R328, R339, R342, R358, R375, R377). -/

namespace Sys2Proof.Machine

/-! The host. -/

/-- Whether bytes lie in the populated HBM. -/
def inHbm (s : State) (pa n : Nat) : Bool := (List.range n).all fun k => decide (regionOf (pa + k) = 0) && populated s (pa + k)

/-- HOST_MEM_ACCESS (R376): an access of the host to a partition's range, at the home under the partition's default key; a write that completes is visible to
every acquire that follows. Without a usable key, outside
HBM, or of a poisoned line (log 39), the completion is unsuccessful. -/
def execHostMemAccess (pa n part : Nat) (write : Option Nat) (s : State) : Host.Outcome State Fault Refusal :=
  let answer := fun (s : State) (v : Option Nat) => { s with pf := { s.pf with hostData := s.pf.hostData ++ [v] } }
  match defaultKey s part with
  | none => .next (answer s none)
  | some key =>
    if !inHbm s pa n || decide (16 ≤ part) then .next (answer s none)
    else
      match write with
      | some v =>
        let s1 := homeStore s (some key) pa n v
        .next (answer { s1 with ms := dropCopies s1.ms ((List.range n).map fun k => lineOf (pa + k)) } (some 0))
      | none =>
        (match readRange s none none ⟨pa, 1, some key⟩ n with
        | (.error _, s1) => .next (answer s1 none)
        | (.ok bs, s1) => .next (answer s1 (some (leNat bs))))

/-- HOST_LINK_DOWN (R375): a link to the host goes down or comes back. -/
def execHostLinkDown (link : Nat) (down : Bool) (s : State) : Host.Outcome State Fault Refusal :=
  if 4 ≤ link then .next s
  else
    let rest := s.pf.linksDown.filter fun l => decide (l ≠ link)
    .next { s with pf := { s.pf with linksDown := if down then rest ++ [link] else rest } }

/-- SPDM_REQUEST (R388): key requests are taken in a secured session only; a report is signed for any request. -/
def execSpdmRequest (secured : Bool) (op : SpdmOp) (s : State) : Host.Outcome State Fault Refusal :=
  match op with
  | .attest => .next { s with pf := { s.pf with reports := s.pf.reports ++ [Config.attestation s.pf.reports.length] } }
  | .loadKey .. | .unloadKey _ => if secured then .next { s with pf := { s.pf with keyReqs := s.pf.keyReqs ++ [op] } } else .next s

/-! The fabric and time. -/

/-- FLIT_REPLAY (R377, R378): a port that is up replays a flit, and counts it. -/
def execFlitReplay (port : Nat) (s : State) : Host.Outcome State Fault Refusal :=
  let w := s.reg10 (.hport port)
  if 48 ≤ port ∨ !bitOf w 63 then .next s else .next (s.setReg10 (.hport port) (setFld w 47 32 (min 0xFFFF (fld w 47 32 + 1))))

/-- POD_TIME_SOURCE_CHANGE (R381): which package is master, and whether the pod is locked or in holdover. TIME does not step. -/
def execPodTimeSourceChange (lock hold : Bool) (master : Nat) (err : BitVec 16) (s : State) : Host.Outcome State Fault Refusal :=
  .next { s with clk := { s.clk with lock := lock, hold := hold, synced := s.clk.synced || lock, master := decide (master = s.clk.pkg), err := if hold then 0xFFFF else err } }

/-! Boot. -/

/-- The steps of R383 and what each acts on. -/
def bootUnitOk (s : State) (n : Nat) (unit : Unit_) : Bool :=
  match n, unit with
  | 0x01, .package | 0x50, .package => true
  | 0x10, .link die side => (dies s.clk.blend).contains die && decide (side < 4)
  | 0x20, .stack die k => isMDie die && decide (k < 2)
  | 0x30, .quad die quad => (computeDies s.clk.blend).contains die && classOfDie die != .v && decide (quad < quadsOf (classOfDie die))
  | 0x31, .cluster die quad k =>
    (computeDies s.clk.blend).contains die && classOfDie die == .v && decide (quad < quadsOf .v) && decide (k < 32)
  | 0x40, .port die k => isMDie die && decide (k < 6)
  | _, _ => false

/-- The number of a port of an M-die (R377). -/
def portOf (die k : Nat) : Nat := (die - 14) * 6 + k

/-- Whether a step on a unit is on its fallback, by the attempts that a log has of it, newest first (R383): it has failed twice in a start, or run its
fallback, and no normal variant has passed since. -/
def onFallback : List BootRec → Bool
  | [] => false
  | r :: older =>
    if r.out = 2 then onFallback older
    else if r.var = 1 then true
    else if r.out = 0 then false
    else (match older with | q :: _ => decide (q.start = r.start) && decide (q.var = 0) && decide (q.out = 1) | [] => false) || onFallback older

/-- The attempts of a step on a unit, newest first. -/
def bootTries (s : State) (n : Nat) (unit : Unit_) : List BootRec := s.pf.bootLog.filter fun r => decide (r.step = n) && decide (r.unit = unit)

/-- Whether some stack is on its fallback, so that 512 GiB are populated (R18, R383). -/
def halfNow (s : State) : Bool := (List.range 8).any fun d => (List.range 2).any fun k => onFallback (bootTries s 0x20 (.stack (14 + d) k))

/-- A port's training done: it is up, with lanes that are not stated (log 10), or down. -/
def setPort (s : State) (die k : Nat) (up : Bool) : State :=
  let w := s.reg10 (.hport (portOf die k))
  if up then
    let (free, s1) := s.takeFree
    s1.setReg10 (.hport (portOf die k)) (setFld (setFld w 63 63 1) 60 58 (1 + free.toNat % 4))
  else s.setReg10 (.hport (portOf die k)) (setFld (setFld w 63 63 0) 60 58 0)

/-- A lane cluster out of its quad's pool. -/
def removeCluster (s : State) (die quad k : Nat) : State := { s with un := { s.un with removed := uniq ((die, quad, k) :: s.un.removed) } }

/-- A die-to-die link at half rate or down (R383, R384). -/
def setLink (s : State) (die side : Nat) (st : LinkSt) : State := { s with pf := { s.pf with links := assoc s.pf.links (die, side) st } }

/-- The fallback of a step taken (R383): step 0x01 has none, and boot stops. -/
def bootFallback (s : State) (n : Nat) (unit : Unit_) : State :=
  match n, unit with
  | 0x01, _ => { s with pf := { s.pf with bootStopped := true, bootReport := some (n, unit) } }
  | 0x10, .link die side => setLink s die side .half
  | 0x20, _ => { s with clk := { s.clk with half := true } }
  | 0x30, .quad die quad => { s with un := { s.un with out := uniq (s.un.out ++ quadCores die quad) } }
  | 0x31, .cluster die quad k => removeCluster s die quad k
  | 0x40, .port die k => s.setReg10 (.hport (portOf die k)) (setFld (s.reg10 (.hport (portOf die k))) 62 61 1)
  | 0x50, _ => { s with clk := { s.clk with hold := true, lock := false, err := 0xFFFF } }
  | _, _ => s

/-- What the pass of an attempt gives: the normal variant, or the fallback. The security root measures the firmware that it is to run (R387). -/
def bootPass (s : State) (n : Nat) (unit : Unit_) (fallback : Bool) : State :=
  let s1 := if fallback then bootFallback s n unit else s
  match n, unit with
  | 0x01, _ => { s1 with pf := { s1.pf with measures := s1.pf.measures ++ [Config.measurement s1.pf.startCount] } }
  | 0x20, _ => { s1 with clk := { s1.clk with half := halfNow s1 } }
  | 0x40, .port die k => setPort s1 die k true
  | 0x50, _ => if fallback then s1 else { s1 with clk := { s1.clk with lock := true, hold := false, synced := true } }
  | _, _ => s1

/-- The variant of the next attempt of a step on a unit in this start; none when the step is done (R383). In this start: a failed first attempt is
retried, and a normal variant of a sixteenth start that failed twice gives way to the fallback. In a later start: a step on its fallback runs that from the
outset, but for every sixteenth. -/
def bootVariant (s : State) (n : Nat) (unit : Unit_) : Option Bool :=
  let tries := bootTries s n unit
  let now := tries.takeWhile fun r => decide (r.start = s.pf.startCount)
  let fell := decide (n ≠ 0x01) && onFallback (tries.drop now.length)
  match now with
  | [] => some (fell && decide (s.pf.startCount % 16 ≠ 0))
  | r :: older =>
    if r.out ≠ 1 then none
    else
      match older with
      | [] => some (decide (r.var = 1))
      | q :: _ => if q.var ≠ r.var then some (decide (r.var = 1)) else if r.var = 0 ∧ fell then some true else none

/-- A second failure in one start: the step's fallback is taken, or, for the fallback itself, its last resort (R383). -/
def bootFailedTwice (s : State) (n : Nat) (unit : Unit_) (fallback : Bool) : State :=
  if !fallback then bootFallback s n unit
  else match n, unit with
    | 0x10, .link die side => setLink s die side .down
    | 0x40, .port die k => setPort s die k false
    | _, _ => bootFallback s n unit

/-- Whether the security root has found the firmware's signature good in this start (R387): it runs none else. -/
def firmwareRuns (s : State) : Bool := (bootTries s 0x01 .package).any fun r => decide (r.start = s.pf.startCount) && decide (r.out = 0)

/-- OUT of a boot record (R382). -/
def outCode : BootOut → Nat
  | .passed => 0
  | .failed => 1
  | .skipped => 2

/-- BOOT_STEP (R382, R383, R387): one attempt of a step on a unit, in increasing id, with its record. Steps after 0x01 are the firmware's. One that is skipped
does nothing (log 10). -/
def execBootStep (n : Nat) (unit : Unit_) (out : BootOut) (code : Nat) (s : State) : Host.Outcome State Fault Refusal :=
  let later := s.pf.bootLog.any fun r => decide (r.start = s.pf.startCount) && decide (r.step ≠ 0xF0) && decide (n < r.step)
  if s.pf.bootStopped || later || !bootUnitOk s n unit || !(decide (n = 0x01) || firmwareRuns s) then .next s
  else
    match bootVariant s n unit with
    | none => .next s
    | some fallback =>
      let again := s.pf.retrying.contains (n, unit)
      let s1 := bootLogged s n unit (b2n fallback) (outCode out) (if out = .failed then BitVec.ofNat 64 code else 0)
      let s2 := { s1 with pf := { s1.pf with retrying := if out ≠ .failed || again then s1.pf.retrying.filter (fun e => decide (e ≠ (n, unit)))
                                                         else s1.pf.retrying ++ [(n, unit)] } }
      match out with
      | .passed => .next (bootPass s2 n unit fallback)
      | .failed => .next (if again && decide (bootVariant s2 n unit ≠ some true) then bootFailedTwice s2 n unit fallback else s2)
      | .skipped => .next s2

/-! Capacity, health and power. -/

/-- CAPACITY_FAILURE (R384): a core, a lane cluster, a port or a link leaves its pool; the removal is logged. -/
def execCapacityFailure (unit : Unit_) (s : State) : Host.Outcome State Fault Refusal :=
  match unit with
  | .core c => if coreExists s.clk.blend c then .next (failCore s c) else .next s
  | .cluster die quad k => if bootUnitOk s 0x31 unit then .next (capacityLogged (removeCluster s die quad k) unit) else .next s
  | .port die k => if bootUnitOk s 0x40 unit then .next (capacityLogged (setPort s die k false) unit) else .next s
  | .link die side => if bootUnitOk s 0x10 unit then .next (capacityLogged (setLink s die side .down) unit) else .next s
  | .package | .die _ | .stack .. | .quad .. => .next s

/-- The hour of pod time. -/
def hourOf (s : State) : Nat := s.clk.time / 3600000000000

/-- HEALTH_UPDATE (R385): the update of a die's health register, once in each hour of pod time that has passed. -/
def execHealthUpdate (die : Nat) (v : Word) (s : State) : Host.Outcome State Fault Refusal :=
  if (dies s.clk.blend).contains die ∧ (look s.pf.healthHour die).getD 0 < hourOf s then
    .next { s.setReg10 (.diehlth die) v with pf := { s.pf with healthHour := assoc s.pf.healthHour die (hourOf s) } }
  else .next s

/-- THERMAL_THROTTLE (R136, R386): a die stops its clock for whole cycles while the others run. -/
def execThermalThrottle (die cycles : Nat) (s : State) : Host.Outcome State Fault Refusal :=
  if (dies s.clk.blend).contains die then .next (passTime s (some die) cycles 0) else .next s

/-- OVERTEMP_RESET (R386): the security root resets the package. -/
def execOvertempReset (s : State) : Host.Outcome State Fault Refusal := .next (resetPackage s)

/-! Region-10 registers. -/

/-- REGISTER_WRITE (R7): a write by supervisor code of a register that has no event of its own. -/
def execRegisterWrite (r : Reg10) (v : Word) (s : State) : Host.Outcome State Fault Refusal := .next (registerWrite s r v)

end Sys2Proof.Machine
end

