-- ==== Sys2Proof/Machine/VecMem.lean ====
section
/-! DEFINITION. Vector loads and stores (R276 to R279) and LDPAIRW (R292). -/

namespace Sys2Proof.Machine

/-! Shared forms. -/

/-- The address of element i of a unit-stride form, of n bytes each (R276). -/
def unitAddr (s : State) (rs1 : Reg) (n i : Nat) : Nat := (s.rx rs1 + BitVec.ofNat 64 (i * n)).toNat

/-- The address of element i of a strided form (R276). -/
def strideAddr (s : State) (rs1 rs2 : Reg) (i : Nat) : Nat := (s.rx rs1 + BitVec.ofNat 64 i * s.rx rs2).toNat

/-- The address of element i of an indexed form (R276). -/
def indexAddr (s : State) (rs1 vs2 : Reg) (i : Nat) : Nat := (s.rx rs1 + BitVec.ofNat 64 (getElem s.th vs2 i)).toNat

/-- The answers of an element's pod-window accesses spent, once the element has been performed. -/
def elemDone (s : State) : State := s.onTh fun t => { t with pod := [] }

/-- Whether a strided load of a stride makes gathered lines at an address (R68). -/
def gathers (stride : Int) (va : Nat) : Bool := decide (128 ≤ stride.natAbs) && decide (bitsAt va 56 8 % 2 = 0)

/-- A vector access at a scope (R31). -/
def vecAt (scope : Scope) : AccessHow := { plainAt scope with vec := true }

/-- The bytes of a load element at an address (R277); poison in it has the element's address (R89). `g` is the base and the stride of a strided load. -/
def elemBytes (s : State) (va n i : Nat) (g : Option (Nat × Int)) : Res (List Byte) :=
  poisonAt va ((threadParts s .load true va n).bind fun ps s1 =>
    (match tagKey ps, g with
    | some key, some (base, stride) =>
      if gathers stride va then
        let size := min 16 (128 / n)
        let g0 := (((base : Int) + (i / size * size : Nat) * stride) % 2 ^ 64).toNat
        loadGathered s1 (vecAt .pkg) ps key g0 stride va n
      else loadAccess s1 (vecAt .pkg) ps va n
    | _, _ => loadAccess s1 (vecAt .pkg) ps va n).bind fun bs s2 => .ok bs (readNote s2 (vecAt .pkg) ps bs))

/-- A load element: performed early by the DAU (R119), or now. -/
def loadElem (s : State) (va n i : Nat) (g : Option (Nat × Int)) : Res Nat :=
  match (if s.th.dauPc = s.th.pc then look s.th.dauAhead i else none) with
  | some v => .ok v s
  | none => (elemBytes s va n i g).bind fun bs s1 => .ok (leNat bs) s1

/-- The issue of a vector memory instruction: what the thread's earlier vector stores at package scope or wider have written is shown to every core
(R110). -/
def vmemIssue (s : State) : State :=
  let m := showWritten s.ms (coreOf s.th) fun w => decide (w.tid = s.th.tid) && w.early
  { s with ms := showTrack m fun w => decide (w.by_.tid = s.th.tid) && w.early }

/-- A vector load (R276, R277). -/
def vload (m : Bool) (w : Ew) (vd : Reg) (xsrcs : List Reg) (addr : State → Nat → Nat) (g : State → Option (Nat × Int)) (s : State) :
    Host.Outcome State Fault Refusal :=
  settle (vissueAt [1] xsrcs [vd] (w == s.th.vec.sew) false s fun s =>
    overElems m (fun s i => (loadElem s (addr s i) (w.bits / 8) i (g s)).andThen fun v s1 => .done ((elemDone s1).onTh fun t => putElem t vd i v)) (vmemIssue s))

/-- A store element at an address, performed at VCFG.SCOPE before the next vector memory instruction (R110, R277). -/
def storeElem (s : State) (va n v : Nat) : Eff :=
  let scope := s.th.vec.scope
  (threadParts s .store true va n).andThen fun ps s1 =>
    (storeParts s1 (vecAt scope) false (decide (4 ≤ scope.code)) va ps (leBytes n v)).andThen fun _ s2 =>
      let s3 := elemDone s2
      .done (if scope.code ≤ 1 then s3 else drainCore s3 (coreOf s3.th))

/-- A vector store (R276, R277). -/
def vstore (m : Bool) (w : Ew) (vs3 : Reg) (xsrcs : List Reg) (addr : State → Nat → Nat) (s : State) : Host.Outcome State Fault Refusal :=
  settle (vissueAt [1] xsrcs [] (w == s.th.vec.sew) false s fun s =>
    overElems m (fun s i => storeElem s (addr s i) (w.bits / 8) (getElem s.th vs3 i)) (vmemIssue s))

/-! The meanings. -/

/-- VLE (R276). -/
def execVle (m : Bool) (w : Ew) (vd rs1 : Reg) (s : State) : Host.Outcome State Fault Refusal :=
  vload m w vd [rs1] (fun s i => unitAddr s rs1 (w.bits / 8) i) (fun _ => none) s

/-- VSE (R276). -/
def execVse (m : Bool) (w : Ew) (vs3 rs1 : Reg) (s : State) : Host.Outcome State Fault Refusal :=
  vstore m w vs3 [rs1] (fun s i => unitAddr s rs1 (w.bits / 8) i) s

/-- VLSE (R276). -/
def execVlse (m : Bool) (w : Ew) (vd rs1 rs2 : Reg) (s : State) : Host.Outcome State Fault Refusal :=
  vload m w vd [rs1, rs2] (fun s i => strideAddr s rs1 rs2 i) (fun s => some ((s.rx rs1).toNat, (s.rx rs2).toInt)) s

/-- VSSE (R276). -/
def execVsse (m : Bool) (w : Ew) (vs3 rs1 rs2 : Reg) (s : State) : Host.Outcome State Fault Refusal :=
  vstore m w vs3 [rs1, rs2] (fun s i => strideAddr s rs1 rs2 i) s

/-- VLXE (R276). -/
def execVlxe (m : Bool) (w : Ew) (vd rs1 vs2 : Reg) (s : State) : Host.Outcome State Fault Refusal :=
  vload m w vd [rs1] (fun s i => indexAddr s rs1 vs2 i) (fun _ => none) s

/-- VSXE (R276). -/
def execVsxe (m : Bool) (w : Ew) (vs3 rs1 vs2 : Reg) (s : State) : Host.Outcome State Fault Refusal :=
  vstore m w vs3 [rs1] (fun s i => indexAddr s rs1 vs2 i) s

/-- The elements of a fault-only-first load in turn (R279): a wait keeps VEIDX, since the first active element from it on decides which one may trap,
and the elements before it are loaded again. A translation or permission fault of a later element trims VL. -/
def firstFaultLoop (addr : State → Nat → Nat) (n : Nat) (vd : Reg) : Bool → List Nat → State → Eff
  | _, [], s => .done s
  | first, i :: rest, s =>
    match loadElem s (addr s i) n i none with
    | .ok v s1 => firstFaultLoop addr n vd false rest (s1.onTh fun t => putElem t vd i v)
    | .stop (.trap r s1) =>
      if !first && (decide (r.cause = 0x08) || decide (r.cause = 0x09)) then .done (s1.onTh fun t => { t with vec := { t.vec with vl := i } })
      else .trap { r with veidx := some i } (setVeidx s1 i)
    | .stop e => e

/-- VLEFF (R279). -/
def execVleff (m : Bool) (w : Ew) (vd rs1 : Reg) (s : State) : Host.Outcome State Fault Refusal :=
  settle (vissueAt [1] [rs1] [vd] (w == s.th.vec.sew) false s fun s =>
    let t := s.th
    let loop := fun hi => firstFaultLoop (fun s i => unitAddr s rs1 (w.bits / 8) i) (w.bits / 8) vd true (activeIn t m t.vec.veidx hi) (vmemIssue s)
    match stopElem s with
    | none => (loop t.vec.vl).bind fun s1 => finishOp 4 (setVeidx s1 0)
    | some p =>
      (loop p.element).bind fun s1 =>
        if s1.th.vec.vl < t.vec.vl then finishOp 4 (setVeidx s1 0) else .trap { cause := 0x07 } (passPoint (setVeidx s1 p.element) p))

/-- The words of one micro-step of LDPAIRW: element i at base + 8i, plus an offset. -/
def pairWords (base : Word) (off : Nat) : List Nat → List Nat → State → Res (List Nat)
  | [], acc, s => .ok acc.reverse s
  | i :: rest, acc, s => (elemBytes s (base + BitVec.ofNat 64 (8 * i + off)).toNat 4 i none).bind fun bs s1 => pairWords base off rest (leNat bs :: acc) s1

/-- A trap of a micro-step marked with it (R353), and a wait in it noted. -/
def microOf (step : Nat) {α : Type} (r : Res α) : Res α :=
  match r with
  | .stop (.trap q s) => .stop (.trap { q with mic := true, tmicro := BitVec.ofNat 64 step } s)
  | .stop (.park w s) => .stop (.park w (s.onTh fun t => { t with micro := step }))
  | r => r

/-- Elements of a register written from a list. -/
def putElems (t : Thread) (vd : Reg) (vals : List Nat) : Thread :=
  ((List.range vals.length).zip vals).foldl (fun t p => putElem t vd p.1 p.2) t

/-- LDPAIRW (R292): its checks are micro-step 0. -/
def execLdpairw (vd rs1 : Reg) (s : State) : Host.Outcome State Fault Refusal :=
  settle (issueAt .vector [9] [rs1] [] s fun s =>
    (inMicro 0 (vchecked [vd, vd + 1] (s.th.vec.sew == .e32) true s .done)).bind fun s =>
      let ix := List.range s.th.vec.vl
      let s := vmemIssue s
      (microOf 1 (pairWords (s.rx rs1) 0 ix [] s)).andThen fun evens s1 =>
        (microOf 2 (pairWords (s1.rx rs1) 4 ix [] s1)).andThen fun odds s2 =>
          finishOp 8 (s2.onTh fun t => putElems (putElems t vd evens) (vd + 1) odds))

end Sys2Proof.Machine
end

