-- ==== Sys2Proof/Machine/MemEvents.lean ====
section
/-! DEFINITION. Events of the memory system: the first-level caches and their queues (R73, R74, R77), errors (R87, R90), the RAS registers (R91), the
loads that the DAU makes early (R119), and tile locks (R63). -/

namespace Sys2Proof.Machine

/-- L1D_LINE_EXPIRY (R74): a line, or a gathered line whose first element's line it is, dropped once 65,536 cycles of its die have passed since its fill. -/
def execL1dLineExpiry (core : CoreId) (line : Nat) (s : State) : Host.Outcome State Fault Refusal :=
  let old := fun (filled : Nat) => !freshCopy s core filled
  .next { s with ms := { s.ms with
    l1d := s.ms.l1d.filter fun l => !(decide (l.core = core) && decide (l.line = line) && old l.filled)
    gath := s.ms.gath.filter fun g => !(decide (g.core = core) && decide (g.va / 128 = line) && old g.filled) } }

/-- WRITE_THROUGH_DELIVERY (R73): the oldest store of a core's queue reaches the L2. -/
def execWriteThroughDelivery (core : CoreId) (s : State) : Host.Outcome State Fault Refusal :=
  match s.ms.wtq.find? fun e => decide (e.core = core) with
  | some e => .next (deliverStore s e)
  | none => .next s

/-- HOME_REQUEST (R77): the home serves the oldest committed store to a line that a write-through queue holds: its die obtains the line in M. -/
def execHomeRequest (line : Nat) (s : State) : Host.Outcome State Fault Refusal :=
  match s.ms.wtq.find? fun e => decide (e.prov = none) && e.bytes.any fun c => decide (lineOf c.1 = line) with
  | some e => .next { s with ms := l2Own s.ms e.core.die line }
  | none => .next s

/-- PATROL_SCRUB (R87, R88): the scrubber reads an HBM line, and finds what errors it holds. -/
def execPatrolScrub (line : Nat) (s : State) : Host.Outcome State Fault Refusal :=
  .next (eccAt s .hbm line)

/-- Every copy of a line but that of HBM dropped with its poison, those that are good written back first (R90). -/
def dropPoisoned (m : MemSys) (line : Nat) : MemSys :=
  let bad := fun (h : Held) => flagged m h line
  let m1 := if (ownerOfLine m line).any fun d => bad (.l2 d) then { m with l2d := cellsDrop m.l2d (line * 128) 128 } else m
  let m2 := if bad .llc then { m1 with llc := cellsDrop m1.llc (line * 128) 128, llcl := m1.llcl.filter fun l => decide (l ≠ line) } else m1
  { m2 with l2 := m2.l2.filter fun e => decide (e.line ≠ line) || !bad (.l2 e.die)
            l1d := m2.l1d.filter fun l => decide (l.line ≠ line) || !l.poisoned
            l1i := m2.l1i.filter fun l => decide (l.line ≠ line) || !l.poisoned
            poison := m2.poison.filter fun e => decide (e.2 ≠ line) || decide (e.1 = .hbm) }

/-- LATENT_CODE_RESCRUB (R90): the home reads a latent line of HBM again. With the HBM copy good, the poisoned copies are dropped. -/
def execLatentCodeRescrub (line : Nat) (s : State) : Host.Outcome State Fault Refusal :=
  if !(s.ms.latent.any fun l => decide (l.line = line)) then .next s
  else
    let s1 := eccAt { s with ms := { s.ms with latent := s.ms.latent.filter fun l => decide (l.line ≠ line) } } .hbm line
    let home := homeDie s1 (line * 128)
    if flagged s1.ms .hbm line then .next (rasLog s1 ⟨6, 4, home, line, 0, 0, 0, none⟩)
    else .next (rasLog { s1 with ms := dropPoisoned s1.ms line } ⟨5, 4, home, line, 0, 0, 0, none⟩)

/-- RASBASE_WRITE (R91). -/
def execRasbaseWrite (v : Word) (s : State) : Host.Outcome State Fault Refusal := .next (rasbaseWrite s v)

/-- RASIDX_WRITE (R91). -/
def execRasidxWrite (v : Word) (s : State) : Host.Outcome State Fault Refusal := .next (rasidxWrite s v)

/-! The DAU. -/

/-- Of a vector load's word: its mask bit, its element size and the address and gathering base of each element (R190, R276). -/
def dauForm (w : Nat) : Option (Bool × Nat × (State → Nat → Nat) × (State → Option (Nat × Int))) :=
  let r := fun (lo : Nat) => (BitVec.ofNat 5 (bitsAt w lo 5) : Reg)
  let n := 2 ^ bitsAt w 12 3
  let m := w.testBit 25
  if bitsAt w 0 7 ≠ 0x5B ∨ 4 ≤ bitsAt w 12 3 then none
  else
    match bitsAt w 26 6 with
    | 0 => some (m, n, fun s i => unitAddr s (r 15) n i, fun _ => none)
    | 2 => some (m, n, fun s i => strideAddr s (r 15) (r 20) i, fun s => some ((s.rx (r 15)).toNat, (s.rx (r 20)).toInt))
    | 4 => some (m, n, fun s i => indexAddr s (r 15) (r 20) i, fun _ => none)
    | _ => none

/-- The current thread's vector load at its pc makes its next element early, unless that would stop (R119). -/
def dauAdvance (s : State) : State :=
  match fetchWord s s.th.pc.toNat with
  | .stop _ => s
  | .ok w s1 =>
    match dauForm w.toNat with
    | none => s
    | some (m, n, addr, g) =>
      let t := s1.th
      let have_ := if t.dauPc = t.pc then t.dauAhead else []
      if n * 8 ≠ t.vec.sew.bits then s
      else
        match (activeIn t m t.vec.veidx t.vec.vl).find? fun i => (look have_ i).isNone with
        | none => s
        | some i =>
          match elemBytes s1 (addr s1 i) n i (g s1) with
          | .ok bs s2 => s2.onTh fun t => { t with dauAhead := have_ ++ [(i, leNat bs)], dauPc := t.pc }
          | .stop _ => s

/-- DAU_LOAD (R118, R119): after the thread's earlier stores and acquires, which forget what was loaded before them. -/
def execDauLoad (t : Tid) (s : State) : Host.Outcome State Fault Refusal :=
  .next (s.asThread t fun u => if u.th.run ≠ .running ∨ clsOf u.th ≠ .v ∨ u.th.status.chain then u else dauAdvance u)

/-! Locks. -/

/-- TILE_LOCK_GRANT (R62, R63): the oldest request of a tile's queue is granted when the tile's state allows it, and its TLOCK completes. -/
def execTileLockGrant (key : TileKey) (s : State) : Host.Outcome State Fault Refusal :=
  match s.tile? key with
  | none => .next s
  | some t =>
    match t.queue with
    | [] => .next s
    | (who, write) :: rest =>
      if !t.grants write then .next s
      else
        let s1 := s.modTile key fun t => ({ t with queue := rest }).locked who write
        .next (s1.asThread who fun u => countIssue ((u.advance 4).onTh fun th => { th with run := .running }))

end Sys2Proof.Machine
end

