-- ==== Sys2Proof/Machine/Packed.lean ====
section
/-! DEFINITION. Packed SIMD (R244 to R248). -/

namespace Sys2Proof.Machine

/-- The width of a sub-element (R244). -/
def laneWidth : Lanes → Nat
  | .b => 8
  | .h => 16
  | .w => 32

/-- The word of n sub-elements of w bits, from the lowest. -/
def packLanes (w : Nat) : List Nat → Nat
  | [] => 0
  | a :: rest => a % 2 ^ w + 2 ^ w * packLanes w rest

/-- A packed operation (R245): `op` has the thread, the width, the sub-element's number and the two sub-elements. -/
def packed (lanes : Lanes) (rd rs1 rs2 : Reg) (op : Thread → Nat → Nat → Nat → Nat → Nat) (s : State) : Host.Outcome State Fault Refusal :=
  settle (issue .any [] [rs1, rs2] [rd] s fun s =>
    let w := laneWidth lanes
    let out := (List.range (64 / w)).map fun e => op s.th w e (bitsAt (s.rx rs1).toNat (w * e) w) (bitsAt (s.rx rs2).toNat (w * e) w)
    finishOp 4 (s.wx rd (BitVec.ofNat 64 (packLanes w out))))

/-- An integer over 2^d rounded under the mode in force (R246). -/
def roundQuot (t : Thread) (e : Nat) (i : Int) (d : Nat) : Int :=
  match roundInt (roundingOf t .dyn false e) (.num (decide (i < 0)) i.natAbs (-(d : Int))) with
  | some (q, _) => q
  | none => 0

/-- PADD (R245). -/
def execPadd (lanes : Lanes) (rd rs1 rs2 : Reg) (s : State) : Host.Outcome State Fault Refusal := packed lanes rd rs1 rs2 (fun _ _ _ a b => a + b) s

/-- PSUB (R245). -/
def execPsub (lanes : Lanes) (rd rs1 rs2 : Reg) (s : State) : Host.Outcome State Fault Refusal :=
  packed lanes rd rs1 rs2 (fun _ w _ a b => a + (2 ^ w - b)) s

/-- PADDS (R245). -/
def execPadds (lanes : Lanes) (rd rs1 rs2 : Reg) (s : State) : Host.Outcome State Fault Refusal :=
  packed lanes rd rs1 rs2 (fun _ w _ a b => clampS w (toSigned w a + toSigned w b)) s

/-- PSUBS (R245). -/
def execPsubs (lanes : Lanes) (rd rs1 rs2 : Reg) (s : State) : Host.Outcome State Fault Refusal :=
  packed lanes rd rs1 rs2 (fun _ w _ a b => clampS w (toSigned w a - toSigned w b)) s

/-- PADDUS (R245). -/
def execPaddus (lanes : Lanes) (rd rs1 rs2 : Reg) (s : State) : Host.Outcome State Fault Refusal :=
  packed lanes rd rs1 rs2 (fun _ w _ a b => clampU w (a + b : Int)) s

/-- PSUBUS (R245). -/
def execPsubus (lanes : Lanes) (rd rs1 rs2 : Reg) (s : State) : Host.Outcome State Fault Refusal :=
  packed lanes rd rs1 rs2 (fun _ w _ a b => clampU w ((a : Int) - b)) s

/-- PMUL (R245). -/
def execPmul (lanes : Lanes) (rd rs1 rs2 : Reg) (s : State) : Host.Outcome State Fault Refusal :=
  packed lanes rd rs1 rs2 (fun _ w _ a b => ofSigned w (toSigned w a * toSigned w b)) s

/-- PMULQ (R246). -/
def execPmulq (lanes : Lanes) (rd rs1 rs2 : Reg) (s : State) : Host.Outcome State Fault Refusal :=
  packed lanes rd rs1 rs2 (fun t w e a b => clampS w (roundQuot t e (toSigned w a * toSigned w b) (w - 1))) s

/-- PMIN (R245). -/
def execPmin (lanes : Lanes) (rd rs1 rs2 : Reg) (s : State) : Host.Outcome State Fault Refusal :=
  packed lanes rd rs1 rs2 (fun _ w _ a b => if toSigned w b < toSigned w a then b else a) s

/-- PMAX (R245). -/
def execPmax (lanes : Lanes) (rd rs1 rs2 : Reg) (s : State) : Host.Outcome State Fault Refusal :=
  packed lanes rd rs1 rs2 (fun _ w _ a b => if toSigned w a < toSigned w b then b else a) s

/-- PSLL (R247). -/
def execPsll (lanes : Lanes) (rd rs1 rs2 : Reg) (s : State) : Host.Outcome State Fault Refusal :=
  packed lanes rd rs1 rs2 (fun _ w _ a b => shiftLeft w a (b % 256)) s

/-- PSRL (R247). -/
def execPsrl (lanes : Lanes) (rd rs1 rs2 : Reg) (s : State) : Host.Outcome State Fault Refusal :=
  packed lanes rd rs1 rs2 (fun _ w _ a b => shiftRight w a (b % 256)) s

/-- PSRA (R247). -/
def execPsra (lanes : Lanes) (rd rs1 rs2 : Reg) (s : State) : Host.Outcome State Fault Refusal :=
  packed lanes rd rs1 rs2 (fun _ w _ a b => shiftArith w a (b % 256)) s

/-- PSSL (R247). -/
def execPssl (lanes : Lanes) (rd rs1 rs2 : Reg) (s : State) : Host.Outcome State Fault Refusal :=
  packed lanes rd rs1 rs2 (fun _ w _ a b => shiftSat w a (b % 256)) s

/-- PAVG (R246). -/
def execPavg (lanes : Lanes) (rd rs1 rs2 : Reg) (s : State) : Host.Outcome State Fault Refusal :=
  packed lanes rd rs1 rs2 (fun t w e a b => ofSigned w (roundQuot t e (toSigned w a + toSigned w b) 1)) s

/-- The result of PCVT (R248): the sub-elements converted at scale 127. -/
def pcvtWord (t : Thread) (src dst : Fmt) (w : Word) : Word :=
  let ws := src.width
  let wd := dst.width
  let out := (List.range (64 / max ws wd)).map fun e => (convertFmt src dst (roundingOf t .dyn false e) (bitsAt w.toNat (ws * e) ws)).1
  BitVec.ofNat 64 (packLanes wd out)

/-- PCVT (R248): no flag is raised. -/
def execPcvt (src dst : Fmt) (rd rs1 : Reg) (s : State) : Host.Outcome State Fault Refusal :=
  settle (issue .any [] [rs1] [rd] s fun s => finishOp 4 (s.wx rd (pcvtWord s.th src dst (s.rx rs1))))

end Sys2Proof.Machine
end

