-- ==== Sys2Proof/Machine/ScalarFp.lean ====
section
/-! DEFINITION. Scalar floating point (R219 to R224) and FEXP2 (R181). -/

namespace Sys2Proof.Machine

/-! Shared forms. -/

/-- A scalar FP instruction: it needs feature 0 and a class with an FP unit (R154, R371). -/
def fpIssue (xsrcs xdsts : List Reg) (s : State) (k : State → Eff) : Host.Outcome State Fault Refusal := settle (issue .fp [0] xsrcs xdsts s k)

/-- f[rd] written in a format and flags accrued (R219, R224). -/
def writeFp (fmt : FpFmt) (rd : Reg) (r : Nat × FpFlags) (s : State) : Eff :=
  finishOp 4 (s.onTh fun t => writeF (accrueOp t r.2) rd (fpWord fmt r.1))

/-- An instruction with a rounding field (R224): its exact result rounded once. -/
def fpRounded (fmt : FpFmt) (rm : Rm) (rd : Reg) (e : Thread → Rm → Exact) (s : State) : Host.Outcome State Fault Refusal :=
  fpIssue [] [] s fun s =>
    let r := roundingOf s.th rm false 0
    writeFp fmt rd (finish (binFmt fmt) r (e s.th r.mode)) s

/-- An instruction with an exact result and no rounding field (fmin, fmax). -/
def fpExact (fmt : FpFmt) (rd : Reg) (e : Thread → Exact) (s : State) : Host.Outcome State Fault Refusal :=
  fpIssue [] [] s fun s => writeFp fmt rd (finish (binFmt fmt) rne (e s.th)) s

/-- The sign injections: `g` gives the result's sign from the two signs; no flags. -/
def fpSign (fmt : FpFmt) (rd rs1 rs2 : Reg) (g : Bool → Bool → Bool) (s : State) : Host.Outcome State Fault Refusal :=
  fpIssue [] [] s fun s =>
    let n := (binFmt fmt).width - 1
    let a := fpBits fmt (readF s.th rs1)
    let b := fpBits fmt (readF s.th rs2)
    writeFp fmt rd (a % 2 ^ n + (if g (a.testBit n) (b.testBit n) then 2 ^ n else 0), 0) s

/-- A comparison into x[rd]. -/
def fpCmp (fmt : FpFmt) (rel : FpRel) (rd rs1 rs2 : Reg) (s : State) : Host.Outcome State Fault Refusal :=
  fpIssue [] [rd] s fun s =>
    let (c, fl) := fpCompare rel (fpOperand s.th fmt rs1) (fpOperand s.th fmt rs2)
    finishOp 4 ((s.onTh fun t => accrueOp t fl).wx rd (flagWord c))

/-- The word of an integer of a type (R221). -/
def intWord (ty : IntTy) (i : Int) : Word :=
  match ty with
  | .s32 | .u32 => sextN 32 (ofSigned 32 i)
  | .s64 | .u64 => BitVec.ofInt 64 i

/-- A word read as an integer of a type. -/
def wordInt (ty : IntTy) (w : Word) : Int :=
  match ty with
  | .s32 => toSigned 32 w.toNat
  | .u32 => (w.toNat % 2 ^ 32 : Nat)
  | .s64 => w.toInt
  | .u64 => w.toNat

/-- The other of the two formats. -/
def otherFmt : FpFmt → FpFmt
  | .f32 => .f64
  | .f64 => .f32

/-- A load of n bytes into f[rd] (R220): bits only. -/
def fpLoad (fmt : FpFmt) (rd rs1 : Reg) (imm : BitVec 12) (n : Nat) (s : State) : Host.Outcome State Fault Refusal :=
  settle (issueAt .fp [0] [rs1] [] s fun s =>
    (threadLoad s (baseAddr s rs1 imm) n (plainAt .pkg)).andThen fun v s1 => finishOp 4 (s1.onTh fun t => writeF t rd (fpWord fmt v)))

/-- A store of n bytes of f[rs2] (R220): bits only. -/
def fpStore (rs2 rs1 : Reg) (imm : BitVec 12) (n : Nat) (s : State) : Host.Outcome State Fault Refusal :=
  settle (issueAt .fp [0] [rs1] [] s fun s =>
    (threadStore s (baseAddr s rs1 imm) (leBytes n (readF s.th rs2).toNat) false).bind fun s1 => finishOp 4 s1)

/-! The meanings. -/

/-- FLW (R220). -/
def execFlw (rd rs1 : Reg) (imm : BitVec 12) (s : State) : Host.Outcome State Fault Refusal := fpLoad .f32 rd rs1 imm 4 s

/-- FLD (R220). -/
def execFld (rd rs1 : Reg) (imm : BitVec 12) (s : State) : Host.Outcome State Fault Refusal := fpLoad .f64 rd rs1 imm 8 s

/-- FSW (R220). -/
def execFsw (rs2 rs1 : Reg) (imm : BitVec 12) (s : State) : Host.Outcome State Fault Refusal := fpStore rs2 rs1 imm 4 s

/-- FSD (R220). -/
def execFsd (rs2 rs1 : Reg) (imm : BitVec 12) (s : State) : Host.Outcome State Fault Refusal := fpStore rs2 rs1 imm 8 s

/-- FADD (R221). -/
def execFadd (fmt : FpFmt) (rm : Rm) (rd rs1 rs2 : Reg) (s : State) : Host.Outcome State Fault Refusal :=
  fpRounded fmt rm rd (fun t m => fpAdd m (fpOperand t fmt rs1) (fpOperand t fmt rs2)) s

/-- FSUB (R221). -/
def execFsub (fmt : FpFmt) (rm : Rm) (rd rs1 rs2 : Reg) (s : State) : Host.Outcome State Fault Refusal :=
  fpRounded fmt rm rd (fun t m => fpSub m (fpOperand t fmt rs1) (fpOperand t fmt rs2)) s

/-- FMUL (R221). -/
def execFmul (fmt : FpFmt) (rm : Rm) (rd rs1 rs2 : Reg) (s : State) : Host.Outcome State Fault Refusal :=
  fpRounded fmt rm rd (fun t _ => fpMul (fpOperand t fmt rs1) (fpOperand t fmt rs2)) s

/-- FDIV (R221). -/
def execFdiv (fmt : FpFmt) (rm : Rm) (rd rs1 rs2 : Reg) (s : State) : Host.Outcome State Fault Refusal :=
  fpRounded fmt rm rd (fun t _ => fpDiv (fpOperand t fmt rs1) (fpOperand t fmt rs2)) s

/-- FSQRT (R221). -/
def execFsqrt (fmt : FpFmt) (rm : Rm) (rd rs1 : Reg) (s : State) : Host.Outcome State Fault Refusal :=
  fpRounded fmt rm rd (fun t _ => fpSqrt (fpOperand t fmt rs1)) s

/-- FSGNJ (R221). -/
def execFsgnj (fmt : FpFmt) (rd rs1 rs2 : Reg) (s : State) : Host.Outcome State Fault Refusal := fpSign fmt rd rs1 rs2 (fun _ b => b) s

/-- FSGNJ.n (R221). -/
def execFsgnjN (fmt : FpFmt) (rd rs1 rs2 : Reg) (s : State) : Host.Outcome State Fault Refusal := fpSign fmt rd rs1 rs2 (fun _ b => !b) s

/-- FSGNJ.x (R221). -/
def execFsgnjX (fmt : FpFmt) (rd rs1 rs2 : Reg) (s : State) : Host.Outcome State Fault Refusal := fpSign fmt rd rs1 rs2 (fun a b => a != b) s

/-- FMIN (R221). -/
def execFmin (fmt : FpFmt) (rd rs1 rs2 : Reg) (s : State) : Host.Outcome State Fault Refusal :=
  fpExact fmt rd (fun t => fpMin (fpOperand t fmt rs1) (fpOperand t fmt rs2)) s

/-- FMAX (R221). -/
def execFmax (fmt : FpFmt) (rd rs1 rs2 : Reg) (s : State) : Host.Outcome State Fault Refusal :=
  fpExact fmt rd (fun t => fpMax (fpOperand t fmt rs1) (fpOperand t fmt rs2)) s

/-- FCMP.le (R221). -/
def execFcmpLe (fmt : FpFmt) (rd rs1 rs2 : Reg) (s : State) : Host.Outcome State Fault Refusal := fpCmp fmt .le rd rs1 rs2 s

/-- FCMP.lt (R221). -/
def execFcmpLt (fmt : FpFmt) (rd rs1 rs2 : Reg) (s : State) : Host.Outcome State Fault Refusal := fpCmp fmt .lt rd rs1 rs2 s

/-- FCMP.eq (R221). -/
def execFcmpEq (fmt : FpFmt) (rd rs1 rs2 : Reg) (s : State) : Host.Outcome State Fault Refusal := fpCmp fmt .eq rd rs1 rs2 s

/-- FCLASS (R222). -/
def execFclass (fmt : FpFmt) (rd rs1 : Reg) (s : State) : Host.Outcome State Fault Refusal :=
  fpIssue [] [rd] s fun s => finishOp 4 (s.wx rd (BitVec.ofNat 64 (fpClass (binFmt fmt) (fpBits fmt (readF s.th rs1)))))

/-- FCVTF (R221): to fmt, from the other width. -/
def execFcvtf (fmt : FpFmt) (rm : Rm) (rd rs1 : Reg) (s : State) : Host.Outcome State Fault Refusal :=
  fpRounded fmt rm rd (fun t _ => (fpOperand t (otherFmt fmt) rs1, 0)) s

/-- FCVTI (R164, R221). -/
def execFcvti (fmt : FpFmt) (ty : IntTy) (rm : Rm) (rd rs1 : Reg) (s : State) : Host.Outcome State Fault Refusal :=
  fpIssue [] [rd] s fun s =>
    let (i, fl) := toIntRange (roundingOf s.th rm false 0) (intTyRange ty).1 (intTyRange ty).2 (fpOperand s.th fmt rs1)
    finishOp 4 ((s.onTh fun t => accrueOp t fl).wx rd (intWord ty i))

/-- FCVTX (R221). -/
def execFcvtx (fmt : FpFmt) (ty : IntTy) (rm : Rm) (rd rs1 : Reg) (s : State) : Host.Outcome State Fault Refusal :=
  fpIssue [rs1] [] s fun s => writeFp fmt rd (roundTo (binFmt fmt) (roundingOf s.th rm false 0) (.ofInt (wordInt ty (s.rx rs1)))) s

/-- FEXP2 (R181): always RNE. -/
def execFexp2 (rd rs1 : Reg) (s : State) : Host.Outcome State Fault Refusal :=
  fpIssue [] [] s fun s => writeFp .f32 rd (exp2cr (fpBits .f32 (readF s.th rs1))) s

/-- FMVX (R221): bits only. -/
def execFmvx (fmt : FpFmt) (rd rs1 : Reg) (s : State) : Host.Outcome State Fault Refusal :=
  fpIssue [] [rd] s fun s => finishOp 4 (s.wx rd (match fmt with | .f32 => sextW (readF s.th rs1) | .f64 => readF s.th rs1))

/-- FMVF (R221): bits only. -/
def execFmvf (fmt : FpFmt) (rd rs1 : Reg) (s : State) : Host.Outcome State Fault Refusal :=
  fpIssue [rs1] [] s fun s => writeFp fmt rd ((s.rx rs1).toNat, 0) s

/-- FROUND (R221). -/
def execFround (fmt : FpFmt) (rm : Rm) (rd rs1 : Reg) (s : State) : Host.Outcome State Fault Refusal :=
  fpIssue [] [] s fun s => writeFp fmt rd (fpRoundIntegral (binFmt fmt) (roundingOf s.th rm false 0) (fpOperand s.th fmt rs1)) s

/-- FMADD.f32 (R223). -/
def execFmaddF32 (rm : Rm) (rd rs1 rs2 rs3 : Reg) (s : State) : Host.Outcome State Fault Refusal :=
  fpRounded .f32 rm rd (fun t m => fpFma m (fpOperand t .f32 rs1) (fpOperand t .f32 rs2) (fpOperand t .f32 rs3)) s

/-- FMADD.f64 (R223). -/
def execFmaddF64 (rm : Rm) (rd rs1 rs2 rs3 : Reg) (s : State) : Host.Outcome State Fault Refusal :=
  fpRounded .f64 rm rd (fun t m => fpFma m (fpOperand t .f64 rs1) (fpOperand t .f64 rs2) (fpOperand t .f64 rs3)) s

/-- FNMADD.f32 (R223). -/
def execFnmaddF32 (rm : Rm) (rd rs1 rs2 rs3 : Reg) (s : State) : Host.Outcome State Fault Refusal :=
  fpRounded .f32 rm rd (fun t m => fpFnma m (fpOperand t .f32 rs1) (fpOperand t .f32 rs2) (fpOperand t .f32 rs3)) s

/-- FNMADD.f64 (R223). -/
def execFnmaddF64 (rm : Rm) (rd rs1 rs2 rs3 : Reg) (s : State) : Host.Outcome State Fault Refusal :=
  fpRounded .f64 rm rd (fun t m => fpFnma m (fpOperand t .f64 rs1) (fpOperand t .f64 rs2) (fpOperand t .f64 rs3)) s

end Sys2Proof.Machine
end

