-- ==== Sys2Proof/Machine/VecConfig.lean ====
section
/-! DEFINITION. The lease decision (R273, R274, R295, R329, R330, R369), the strip record (R275, R362), and SETVL, SETVLI, SETSHAPE (R273, R294) and
GRPSET (R304). -/

namespace Sys2Proof.Machine

/-! The lease decision. -/

/-- The clusters that are free for the current thread (R329). -/
def leaseFree (s : State) : Nat :=
  let c := coreOf s.th
  let part := s.partOf s.th.ctx
  min (freeClusters s c.die c.quad) (quotaOf s c.die c.quad part - (heldClusters s c.die c.quad part - grantOf s.th))

/-- The decision of R273 for the current thread with a least and a preferred count: `k` has the old grant and the new one, which is not yet in force. A
thread that waits has no grant and VL = 0 (R151). `prep` is what the instruction does before the decision. -/
def leaseDecision (lmin bound : Nat) (prep : State → State) (s : State) (k : Nat → Nat → State → Eff) : Eff :=
  let c := coreOf s.th
  let t := s.th.tid
  let own := s.th.vec.lmin
  if min (poolOf s c.die c.quad) (quotaOf s c.die c.quad (s.partOf s.th.ctx)) < own then
    .trap { cause := 0x1C, tval := BitVec.ofNat 64 own, vkind := 1 } s
  else
    let s1 := reserveFree (prep s) c.die c.quad
    let most := min bound (leaseShare s1 c.die c.quad (s1.partOf s1.th.ctx) t)
    match leaseOf s1 t with
    | some q => if lmin ≤ q.reserved then k q.old q.reserved (leaseDone s1 t) else .park .lease s1
    | none =>
      let old := s1.th.vec.grant
      if lmin ≤ old + leaseFree s1 then k old (max lmin (min most (old + leaseFree s1))) s1
      else
        let s2 := s1.onTh fun t => { t with vec := { t.vec with grant := 0, vl := 0 } }
        .park .lease (reserveFree { s2 with un := { s2.un with leaseQ := s2.un.leaseQ ++ [⟨c.die, c.quad, t, lmin, bound, old, 0, false⟩] } } c.die c.quad)

/-- A grant in force (R273): a changed one zeroes the vector registers and their tags, and drops the front's gathered lines (R71). -/
def setGrant (old g : Nat) (s : State) : State :=
  let s1 := s.onTh fun t => { t with vec := { t.vec with grant := g } }
  if g = old then s1
  else
    let c := coreOf s1.th
    { s1 with th := { s1.th with vec := { s1.th.vec with v := Vector.replicate 32 VReg.zero } }
              ms := { s1.ms with gath := s1.ms.gath.filter fun l => decide (l.core ≠ c) } }

/-! The strip record. -/

/-- Where the strip record goes (R275): not written; or faulting; or its parts. A ring in region 10 counts as one that faults (log 24). -/
def stripPlace (s : State) : Res (Option (Option (List Part))) :=
  if !s.th.vec.stripEn then .ok none s
  else
    let va := s.th.vec.stripBase.toNat * 4096 + s.th.vec.stripIdx.toNat * 32
    match translateParts s (threadWalker s s.th) (threadAcc s.th .store false) [(va, 32)] [] with
    | .ok ps s1 => .ok (some (if (partPas ps).any fun pa => decide (regionOf pa = 2) then none else some ps)) s1
    | .trap _ _ s1 => .ok (some none) s1
    | .stop e => .stop e

/-- The strip record's dwords 0 to 2 (R362): `size` is SIZE. The busy counts are free values, no greater than CYC (R363, log 14). -/
def stripWords (s : State) (old : Nat) (sh : Bool) (size : Nat) : List Word :=
  let cyc := min s.th.vec.stripCyc (2 ^ 32 - 1)
  let busy := Config.stripBusy s.clk.free cyc
  let sat := decide (2 ^ 32 ≤ s.th.vec.stripCyc)
  let d1 := b2n (decide (s.th.vec.grant ≠ old)) * 2 ^ 63 + b2n sh * 2 ^ 62 + b2n sat * 2 ^ 61 + lanesOfThread s.th * 2 ^ 52 + size * 2 ^ 32 + cyc
  [s.th.pc, BitVec.ofNat 64 d1, BitVec.ofNat 64 (min busy.1.toNat cyc * 2 ^ 32 + min busy.2.toNat cyc)]

/-- A strip record stored: an ordinary store, whose part in another package nothing waits for. It lies in one page. -/
def stripStore (s : State) (ps : List Part) (bs : List Byte) : State :=
  match ps with
  | [.there pkg off va n] =>
    let id := s.pod.outNext
    let o : PodOut := { podOutOf s pkg off va (.store n (leNat (bs.take n))) (plainAt .pkg) with strip := true }
    { s with pod := { s.pod with out := s.pod.out ++ [{ o with id := id, sentNs := s.clk.time }], outNext := id + 1 }, th := { s.th with sum := sumBytes s.th.sum va (bs.take n) } }
  | [.here x va n] =>
    storeHere (s.onTh fun t => { t with sum := sumBytes t.sum va bs }) (knownTo s.ms s.th.tid) (activeCtx s s.th) va s.th.status.priv false false [.here x va n] bs
  | _ => s

/-- The publication that the strip record's store makes first (R83). -/
def stripPublishes (place : Option (Option (List Part))) (s : State) : Eff :=
  match place with
  | some (some ps) => if storePublishes s s.th.status.priv ps then publishFirst s else .done s
  | _ => .done s

/-- The strip record closed (R275): stored, traced (R365), and a new strip begun. -/
def closeStrip (place : Option (Option (List Part))) (old : Nat) (sh : Bool) (size : Nat) (s : State) : State :=
  let ws := stripWords s old sh size
  let bs := wordsBytes (ws ++ [BitVec.ofNat 64 s.clk.time])
  let s1 := { s with clk := { s.clk with free := s.clk.free + 1 } }
  let s2 :=
    match place with
    | none => s1
    | some none => s1.onTh fun t => { t with vec := { t.vec with stripEn := false } }
    | some (some ps) => (stripStore s1 ps bs).onTh fun t => { t with vec := { t.vec with stripIdx := t.vec.stripIdx + 1 } }
  let s3 := s2.onTh fun t => { t with vec := { t.vec with stripCyc := 0 } }
  traceRec s3 s3.th 1 (ws.getD 1 0).toNat (ws.getD 2 0).toNat s3.clk.time

/-! The instructions. -/

/-- A divergence that leaves the instruction not performed (R370): the state before it, its place in the log too, with the record made. -/
def unperformed (s : State) (e : Eff) : Eff :=
  match e with
  | .trap r s1 => if r.cause = 0x11 then .trap r { s with db := { s.db with diverged := s1.db.diverged } } else e
  | e => e

/-- An instruction that makes a grant decision and closes the strip (R273, R294): `pinned` keeps the grant, `fin` gives the configuration under the
new grant, SIZE of the strip record and the value of x[rd]. -/
def leased (rd : Reg) (sh pinned : Bool) (bound : Nat) (prep : State → State) (fin : VecState → VecState × Nat × Word) (s : State) : Eff :=
  (replayInput s 5 0 0).andThen fun logged s0 =>
    (stripPlace s0).andThen fun place s1 =>
      let want := fun (n : Nat) => (logged.map fun x => bitsAt x 32 6).getD n
      let commit := fun (old g : Nat) (s2 : State) =>
        let s3 := setGrant old g s2
        let (vec, size, value) := fin s3.th.vec
        let s4 := (s3.onTh fun t => { t with vec := { vec with veidx := 0 } }).wx rd value
        let actual := bitsAt value.toNat 0 32 + g * 2 ^ 32
        let checked : Res (Option Nat) :=
          match logged, (s4.session s4.th.tid).bind fun e => e.replay with
          | some x, some r => if bitsAt x 32 6 = g then .ok none s4 else diverge s4 r r.next 4 x actual
          | _, _ => .ok none s4
        unperformed s (checked.andThen fun _ s5 =>
          (checksumEntry (closeStrip place old sh size (noteInput s5 5 0 0 actual))).bind (finishOp 4))
      let close := fun (old g : Nat) (s2 : State) => (stripPublishes place s2).bind (commit old g)
      if pinned then close s1.th.vec.grant s1.th.vec.grant s1
      else leaseDecision (want s1.th.vec.lmin) (want bound) prep s1 close

/-- SETVL with its AVL (R273): the pin and the shape go first (R293, R295). -/
def setVlTo (rd : Reg) (srcs : List Reg) (avl : State → Nat) (s : State) : Host.Outcome State Fault Refusal :=
  settle (issue .vector [1] srcs [rd] s fun s =>
    if s.th.status.mm then trapOf 0x12 0 s
    else
      leased rd false false s.th.vec.lpref (fun s => s.onTh fun t => { t with vec := { t.vec with pin := false, rows := 0, cols := 0 } })
        (fun v =>
          let vl := min (avl s) (8 * v.grant * 1024 / v.sew.bits)
          ({ v with vl := vl }, vl, BitVec.ofNat 64 vl)) s)

/-- SETVL (R273): rs1 = x0 asks for 2^64 − 1 elements. -/
def execSetvl (rd rs1 : Reg) (s : State) : Host.Outcome State Fault Refusal :=
  setVlTo rd [rs1] (fun s => if rs1 = 0 then 2 ^ 64 - 1 else (s.rx rs1).toNat) s

/-- SETVLI (R273). -/
def execSetvli (rd : Reg) (imm : BitVec 10) (s : State) : Host.Outcome State Fault Refusal := setVlTo rd [] (fun _ => imm.toNat) s

/-- The upper bound p of SETSHAPE's decision (R294). -/
def shapeBound (v : VecState) (rq : Nat) : Nat := if rq = 0 then v.lpref else max v.lmin (min v.lpref ((rq + 7) / 8))

/-- SETSHAPE (R294): a pinned grant is kept, and in matrix mode the grant is (R151, R299). -/
def execSetshape (rd rs1 rs2 : Reg) (s : State) : Host.Outcome State Fault Refusal :=
  settle (vissue [1] [rs1, rs2] [rd] [] (s.th.vec.sew == .e32) false s fun s =>
    let cq := (s.rx rs2).toNat
    leased rd true (s.th.vec.pin || s.th.status.mm) (shapeBound s.th.vec (s.rx rs1).toNat) id
      (fun v =>
        let l := 8 * v.grant
        let n := min (min (max cq 1) 512) (32 * l)
        let v1 := { v with rows := l, cols := n, pin := v.pin || decide (0 < l), vl := max l n }
        (v1, n * 2 ^ 9 + l, mshapeWord v1)) s)

/-- Whether GRPSET rejects its two dwords (R304). -/
def badGroup (d0 d1 : Word) : Bool :=
  let g := GroupReg.ofWords d0 d1
  decide (fld d1 31 20 ≠ 0) || decide (8 ≤ fld d1 15 12) || decide (fld d1 11 9 ≠ 0) || decide (2 ≤ fld d1 7 4) || decide (2 ≤ fld d1 3 0) ||
    decide (g.countM1.toNat < g.rank.toNat) || (decide (g.buddy = 1) && (!g.podScope || decide (g.countM1 = 0)))

/-- GRPSET (R304). -/
def execGrpset (g : BitVec 3) (rs1 rs2 : Reg) (s : State) : Host.Outcome State Fault Refusal :=
  settle (vissue [1] [rs1, rs2] [] [] true false s fun s =>
    if badGroup (s.rx rs1) (s.rx rs2) then illegalOp s
    else
      finishOp 4 (s.onTh fun t =>
        { t with vec := { t.vec with g := t.vec.g.set g.toNat { GroupReg.ofWords (readX t rs1) (readX t rs2) with seq := 0 } g.isLt } }))

end Sys2Proof.Machine
end

