-- ==== Sys2Proof/Machine/VecFp.lean ====
section
/-! DEFINITION. Floating-point elementwise vector instructions (R283, R284) and conversions within elements (R285). -/

namespace Sys2Proof.Machine

/-! Shared forms. -/

/-- An FP elementwise form (R283): `f` has the thread, the native format and the element's number, and gives the element and its flags. -/
def vfp (m : Bool) (vd : Reg) (ok : FpFmt → Bool) (f : Thread → FpFmt → Nat → Nat × FpFlags) (s : State) : Host.Outcome State Fault Refusal :=
  settle (vissue [1] [] [] [vd] (match nativeFmt s.th with | some fmt => ok fmt | none => false) false s fun s =>
    elementwise m vd (fun t i => match nativeFmt t with | some fmt => f t fmt i | none => (0, 0)) s)

/-- The value of v[r].e[i] in the native format. -/
def vval (t : Thread) (fmt : FpFmt) (r : Reg) (i : Nat) : Val := (binFmt fmt).value (getElem t r i)

/-- The value of src1 in the native format. -/
def fsrcVal (t : Thread) (fmt : FpFmt) (src : FSrc) (i : Nat) : Val := (binFmt fmt).value (fsrcElem t fmt src i)

/-- A form whose exact result of a, b and c is rounded once (R284). -/
def vfpOp (m : Bool) (vd vs2 : Reg) (src : FSrc) (op : Rm → Val → Val → Val → Exact) (s : State) : Host.Outcome State Fault Refusal :=
  vfp m vd (fun _ => true) (fun t fmt i =>
    let r := roundingOf t .dyn false i
    finish (binFmt fmt) r (op r.mode (vval t fmt vs2 i) (fsrcVal t fmt src i) (vval t fmt vd i))) s

/-- A comparison: an element 0 or 1 (R284). -/
def vfpCmp (m : Bool) (vd vs2 : Reg) (src : FSrc) (rel : FpRel) (s : State) : Host.Outcome State Fault Refusal :=
  vfp m vd (fun _ => true) (fun t fmt i =>
    let (c, fl) := fpCompare rel (vval t fmt vs2 i) (fsrcVal t fmt src i)
    (b2n c, fl)) s

/-- The native format as an element format. -/
def nativeFormat : FpFmt → Fmt
  | .f32 => .fp32
  | .f64 => .fp64

/-! The meanings. -/

/-- VFADD (R284). -/
def execVfadd (m : Bool) (vd vs2 : Reg) (src : FSrc) (s : State) : Host.Outcome State Fault Refusal := vfpOp m vd vs2 src (fun r a b _ => fpAdd r a b) s

/-- VFSUB (R284). -/
def execVfsub (m : Bool) (vd vs2 : Reg) (src : FSrc) (s : State) : Host.Outcome State Fault Refusal := vfpOp m vd vs2 src (fun r a b _ => fpSub r a b) s

/-- VFMUL (R284). -/
def execVfmul (m : Bool) (vd vs2 : Reg) (src : FSrc) (s : State) : Host.Outcome State Fault Refusal := vfpOp m vd vs2 src (fun _ a b _ => fpMul a b) s

/-- VFDIV (R284). -/
def execVfdiv (m : Bool) (vd vs2 : Reg) (src : FSrc) (s : State) : Host.Outcome State Fault Refusal := vfpOp m vd vs2 src (fun _ a b _ => fpDiv a b) s

/-- VFSQRT (R284). -/
def execVfsqrt (m : Bool) (vd vs2 : Reg) (s : State) : Host.Outcome State Fault Refusal := vfpOp m vd vs2 (.vec vs2) (fun _ a _ _ => fpSqrt a) s

/-- VFMIN (R284): as FMIN. -/
def execVfmin (m : Bool) (vd vs2 : Reg) (src : FSrc) (s : State) : Host.Outcome State Fault Refusal := vfpOp m vd vs2 src (fun _ a b _ => fpMin a b) s

/-- VFMAX (R284): as FMAX. -/
def execVfmax (m : Bool) (vd vs2 : Reg) (src : FSrc) (s : State) : Host.Outcome State Fault Refusal := vfpOp m vd vs2 src (fun _ a b _ => fpMax a b) s

/-- VFMA (R284). -/
def execVfma (m : Bool) (vd vs2 : Reg) (src : FSrc) (s : State) : Host.Outcome State Fault Refusal := vfpOp m vd vs2 src (fun r a b c => fpFma r a b c) s

/-- VFNMA (R284). -/
def execVfnma (m : Bool) (vd vs2 : Reg) (src : FSrc) (s : State) : Host.Outcome State Fault Refusal := vfpOp m vd vs2 src (fun r a b c => fpFnma r a b c) s

/-- VFEXP2 (R181, R284): at SEW 32 only, always RNE. -/
def execVfexp2 (m : Bool) (vd vs2 : Reg) (s : State) : Host.Outcome State Fault Refusal :=
  vfp m vd (fun fmt => fmt == .f32) (fun t _ i => exp2cr (getElem t vs2 i)) s

/-- VMFEQ (R284). -/
def execVmfeq (m : Bool) (vd vs2 : Reg) (src : FSrc) (s : State) : Host.Outcome State Fault Refusal := vfpCmp m vd vs2 src .eq s

/-- VMFLT (R284). -/
def execVmflt (m : Bool) (vd vs2 : Reg) (src : FSrc) (s : State) : Host.Outcome State Fault Refusal := vfpCmp m vd vs2 src .lt s

/-- VMFLE (R284). -/
def execVmfle (m : Bool) (vd vs2 : Reg) (src : FSrc) (s : State) : Host.Outcome State Fault Refusal := vfpCmp m vd vs2 src .le s

/-- VFCVTD (R285): the native value converted into a format, in the low bits of the element. -/
def execVfcvtd (m : Bool) (fmt : Fmt) (vd vs2 : Reg) (s : State) : Host.Outcome State Fault Refusal :=
  vfp m vd (fun n => decide (fmt.width ≤ (binFmt n).width)) (fun t n i => convertFmt (nativeFormat n) fmt (roundingOf t .dyn false i) (getElem t vs2 i)) s

/-- VFCVTS (R285): the low bits of an element, read in a format, converted to the native format. -/
def execVfcvts (m : Bool) (fmt : Fmt) (vd vs2 : Reg) (s : State) : Host.Outcome State Fault Refusal :=
  vfp m vd (fun n => decide (fmt.width ≤ (binFmt n).width)) (fun t n i =>
    convertFmt fmt (nativeFormat n) (roundingOf t .dyn false i) (bitsAt (getElem t vs2 i) 0 fmt.width)) s

end Sys2Proof.Machine
end

