-- ==== Sys2Proof/Machine/VecInt.lean ====
section
/-! DEFINITION. Integer elementwise vector instructions (R280 to R282), mask instructions (R289) and VDOT4 (R291). -/

namespace Sys2Proof.Machine

/-! Shared forms. -/

/-- An integer elementwise form (R280): `op` has the width and the two elements; its result is taken modulo 2^SEW. -/
def vint (shift m : Bool) (vd vs2 : Reg) (src : VSrc) (op : Nat → Nat → Nat → Nat) (s : State) : Host.Outcome State Fault Refusal :=
  settle (vissue [1] (vsrcRegs src) [] [vd] true false s fun s =>
    elementwise m vd (fun t i =>
      let w := sewBits t
      (op w (getElem t vs2 i) (vsrcElem t src shift i) % 2 ^ w, 0)) s)

/-- A mask form that writes elements 0 or 1 (R289). -/
def vmask (m : Bool) (vd vs2 vs1 : Reg) (op : Bool → Bool → Bool) (s : State) : Host.Outcome State Fault Refusal :=
  settle (vissue [1] [] [] [vd] true false s fun s =>
    elementwise m vd (fun t i => (b2n (op ((getElem t vs2 i).testBit 0) ((getElem t vs1 i).testBit 0)), 0)) s)

/-- The active elements below VL whose bit 0 is 1 (R289). -/
def maskedOnes (t : Thread) (m : Bool) (vs2 : Reg) : List Nat := (activeIn t m 0 t.vec.vl).filter fun i => (getElem t vs2 i).testBit 0

/-! The meanings. -/

/-- VADD (R280). -/
def execVadd (m : Bool) (vd vs2 : Reg) (src : VSrc) (s : State) : Host.Outcome State Fault Refusal :=
  vint false m vd vs2 src (fun _ a b => a + b) s

/-- VSUB (R280). -/
def execVsub (m : Bool) (vd vs2 : Reg) (src : VSrc) (s : State) : Host.Outcome State Fault Refusal :=
  vint false m vd vs2 src (fun w a b => a + (2 ^ w - b)) s

/-- VRSUB (R280). -/
def execVrsub (m : Bool) (vd vs2 : Reg) (src : VSrc) (s : State) : Host.Outcome State Fault Refusal :=
  vint false m vd vs2 src (fun w a b => b + (2 ^ w - a)) s

/-- VSADD (R280). -/
def execVsadd (m : Bool) (vd vs2 : Reg) (src : VSrc) (s : State) : Host.Outcome State Fault Refusal :=
  vint false m vd vs2 src (fun w a b => clampS w (toSigned w a + toSigned w b)) s

/-- VSSUB (R280). -/
def execVssub (m : Bool) (vd vs2 : Reg) (src : VSrc) (s : State) : Host.Outcome State Fault Refusal :=
  vint false m vd vs2 src (fun w a b => clampS w (toSigned w a - toSigned w b)) s

/-- VSADDU (R280). -/
def execVsaddu (m : Bool) (vd vs2 : Reg) (src : VSrc) (s : State) : Host.Outcome State Fault Refusal :=
  vint false m vd vs2 src (fun w a b => clampU w (a + b : Int)) s

/-- VSSUBU (R280). -/
def execVssubu (m : Bool) (vd vs2 : Reg) (src : VSrc) (s : State) : Host.Outcome State Fault Refusal :=
  vint false m vd vs2 src (fun w a b => clampU w ((a : Int) - b)) s

/-- VMUL (R280). -/
def execVmul (m : Bool) (vd vs2 : Reg) (src : VSrc) (s : State) : Host.Outcome State Fault Refusal :=
  vint false m vd vs2 src (fun _ a b => a * b) s

/-- VMULH (R280). -/
def execVmulh (m : Bool) (vd vs2 : Reg) (src : VSrc) (s : State) : Host.Outcome State Fault Refusal :=
  vint false m vd vs2 src (fun w a b => ofSigned w (toSigned w a * toSigned w b / 2 ^ w)) s

/-- VMULHU (R280). -/
def execVmulhu (m : Bool) (vd vs2 : Reg) (src : VSrc) (s : State) : Host.Outcome State Fault Refusal :=
  vint false m vd vs2 src (fun w a b => a * b / 2 ^ w) s

/-- VDIV (R281). -/
def execVdiv (m : Bool) (vd vs2 : Reg) (src : VSrc) (s : State) : Host.Outcome State Fault Refusal :=
  vint false m vd vs2 src (fun w a b => (divS (BitVec.ofNat w a) (BitVec.ofNat w b)).toNat) s

/-- VDIVU (R281). -/
def execVdivu (m : Bool) (vd vs2 : Reg) (src : VSrc) (s : State) : Host.Outcome State Fault Refusal :=
  vint false m vd vs2 src (fun w a b => (divU (BitVec.ofNat w a) (BitVec.ofNat w b)).toNat) s

/-- VREM (R281). -/
def execVrem (m : Bool) (vd vs2 : Reg) (src : VSrc) (s : State) : Host.Outcome State Fault Refusal :=
  vint false m vd vs2 src (fun w a b => (remS (BitVec.ofNat w a) (BitVec.ofNat w b)).toNat) s

/-- VREMU (R281). -/
def execVremu (m : Bool) (vd vs2 : Reg) (src : VSrc) (s : State) : Host.Outcome State Fault Refusal :=
  vint false m vd vs2 src (fun w a b => (remU (BitVec.ofNat w a) (BitVec.ofNat w b)).toNat) s

/-- VMIN (R280). -/
def execVmin (m : Bool) (vd vs2 : Reg) (src : VSrc) (s : State) : Host.Outcome State Fault Refusal :=
  vint false m vd vs2 src (fun w a b => if toSigned w b < toSigned w a then b else a) s

/-- VMAX (R280). -/
def execVmax (m : Bool) (vd vs2 : Reg) (src : VSrc) (s : State) : Host.Outcome State Fault Refusal :=
  vint false m vd vs2 src (fun w a b => if toSigned w a < toSigned w b then b else a) s

/-- VMINU (R280). -/
def execVminu (m : Bool) (vd vs2 : Reg) (src : VSrc) (s : State) : Host.Outcome State Fault Refusal :=
  vint false m vd vs2 src (fun _ a b => min a b) s

/-- VMAXU (R280). -/
def execVmaxu (m : Bool) (vd vs2 : Reg) (src : VSrc) (s : State) : Host.Outcome State Fault Refusal :=
  vint false m vd vs2 src (fun _ a b => max a b) s

/-- VAND (R280). -/
def execVand (m : Bool) (vd vs2 : Reg) (src : VSrc) (s : State) : Host.Outcome State Fault Refusal :=
  vint false m vd vs2 src (fun _ a b => a &&& b) s

/-- VOR (R280). -/
def execVor (m : Bool) (vd vs2 : Reg) (src : VSrc) (s : State) : Host.Outcome State Fault Refusal :=
  vint false m vd vs2 src (fun _ a b => a ||| b) s

/-- VXOR (R280). -/
def execVxor (m : Bool) (vd vs2 : Reg) (src : VSrc) (s : State) : Host.Outcome State Fault Refusal :=
  vint false m vd vs2 src (fun _ a b => a ^^^ b) s

/-- VSLL (R281). -/
def execVsll (m : Bool) (vd vs2 : Reg) (src : VSrc) (s : State) : Host.Outcome State Fault Refusal :=
  vint true m vd vs2 src (fun w a b => shiftLeft w a (b % 256)) s

/-- VSRL (R281). -/
def execVsrl (m : Bool) (vd vs2 : Reg) (src : VSrc) (s : State) : Host.Outcome State Fault Refusal :=
  vint true m vd vs2 src (fun w a b => shiftRight w a (b % 256)) s

/-- VSRA (R281). -/
def execVsra (m : Bool) (vd vs2 : Reg) (src : VSrc) (s : State) : Host.Outcome State Fault Refusal :=
  vint true m vd vs2 src (fun w a b => shiftArith w a (b % 256)) s

/-- VSSL (R281). -/
def execVssl (m : Bool) (vd vs2 : Reg) (src : VSrc) (s : State) : Host.Outcome State Fault Refusal :=
  vint true m vd vs2 src (fun w a b => shiftSat w a (b % 256)) s

/-- VMSEQ (R282). -/
def execVmseq (m : Bool) (vd vs2 : Reg) (src : VSrc) (s : State) : Host.Outcome State Fault Refusal :=
  vint false m vd vs2 src (fun _ a b => b2n (decide (a = b))) s

/-- VMSNE (R282). -/
def execVmsne (m : Bool) (vd vs2 : Reg) (src : VSrc) (s : State) : Host.Outcome State Fault Refusal :=
  vint false m vd vs2 src (fun _ a b => b2n (decide (a ≠ b))) s

/-- VMSLT (R282). -/
def execVmslt (m : Bool) (vd vs2 : Reg) (src : VSrc) (s : State) : Host.Outcome State Fault Refusal :=
  vint false m vd vs2 src (fun w a b => b2n (decide (toSigned w a < toSigned w b))) s

/-- VMSLTU (R282). -/
def execVmsltu (m : Bool) (vd vs2 : Reg) (src : VSrc) (s : State) : Host.Outcome State Fault Refusal :=
  vint false m vd vs2 src (fun _ a b => b2n (decide (a < b))) s

/-- VMSLE (R282). -/
def execVmsle (m : Bool) (vd vs2 : Reg) (src : VSrc) (s : State) : Host.Outcome State Fault Refusal :=
  vint false m vd vs2 src (fun w a b => b2n (decide (toSigned w a ≤ toSigned w b))) s

/-- VMERGE (R282): every element from VEIDX to VL − 1 is written. -/
def execVmerge (vd vs2 : Reg) (src : VSrc) (s : State) : Host.Outcome State Fault Refusal :=
  settle (vissue [1] (vsrcRegs src) [] [vd] true false s fun s =>
    elementwise false vd (fun t i => (if activeElem t true i then vsrcElem t src false i else getElem t vs2 i, 0)) s)

/-- VMV (R282). -/
def execVmv (m : Bool) (vd : Reg) (src : VSrc) (s : State) : Host.Outcome State Fault Refusal :=
  settle (vissue [1] (vsrcRegs src) [] [vd] true false s fun s => elementwise m vd (fun t i => (vsrcElem t src false i, 0)) s)

/-- VMAND (R289). -/
def execVmand (m : Bool) (vd vs2 vs1 : Reg) (s : State) : Host.Outcome State Fault Refusal := vmask m vd vs2 vs1 (fun a b => a && b) s

/-- VMANDN (R289). -/
def execVmandn (m : Bool) (vd vs2 vs1 : Reg) (s : State) : Host.Outcome State Fault Refusal := vmask m vd vs2 vs1 (fun a b => a && !b) s

/-- VMOR (R289). -/
def execVmor (m : Bool) (vd vs2 vs1 : Reg) (s : State) : Host.Outcome State Fault Refusal := vmask m vd vs2 vs1 (fun a b => a || b) s

/-- VMXOR (R289). -/
def execVmxor (m : Bool) (vd vs2 vs1 : Reg) (s : State) : Host.Outcome State Fault Refusal := vmask m vd vs2 vs1 (fun a b => a != b) s

/-- VMPOPC (R289). -/
def execVmpopc (m : Bool) (rd vs2 : Reg) (s : State) : Host.Outcome State Fault Refusal :=
  settle (vissue [1] [] [rd] [] true true s fun s => finishOp 4 (s.wx rd (BitVec.ofNat 64 (maskedOnes s.th m vs2).length)))

/-- VMFIRST (R289). -/
def execVmfirst (m : Bool) (rd vs2 : Reg) (s : State) : Host.Outcome State Fault Refusal :=
  settle (vissue [1] [] [rd] [] true true s fun s =>
    finishOp 4 (s.wx rd (match maskedOnes s.th m vs2 with | i :: _ => BitVec.ofNat 64 i | [] => BitVec.allOnes 64)))

/-- One element of VDOT4: the sum of an element and the four products of signed bytes, modulo 2^32 (R291). -/
def dotElem (acc a b : Nat) : Nat :=
  ofSigned 32 ((List.range 4).foldl (fun x k => x + toSigned 8 (bitsAt a (8 * k) 8) * toSigned 8 (bitsAt b (8 * k) 8)) (toSigned 32 acc))

/-- VDOT4 (R291): its checks are micro-step 0, and vd is written at its commit. -/
def execVdot4 (m : Bool) (vd vs2 vs1 : Reg) (s : State) : Host.Outcome State Fault Refusal :=
  settle (issue .vector [9] [] [] s fun s =>
    (inMicro 0 (vchecked [vd] (s.th.vec.sew == .e32) true s .done)).bind fun s =>
      finishOp 4 (s.onTh fun t =>
        ((activeIn t m 0 t.vec.vl).map fun i => (i, dotElem (getElem t vd i) (getElem t vs2 i) (getElem t vs1 i))).foldl (fun u p => putElem u vd p.1 p.2) t))

end Sys2Proof.Machine
end

