-- ==== Sys2Proof/Machine/VecPerm.lean ====
section
/-! DEFINITION. Reductions and scans (R286, R287) and permutes (R288). -/

namespace Sys2Proof.Machine

/-! Shared forms. -/

/-- A node of the element tree: its bits, the lowest element number among its inputs, and the flags raised below it (R286). -/
abbrev TreeNode := Nat × Nat × FpFlags

/-- An operation of the tree at its node. -/
def treeOp (f : Nat → Nat → Nat → Nat × FpFlags) (l r : TreeNode) : TreeNode :=
  let (v, fl) := f l.2.1 l.1 r.1
  (v, l.2.1, l.2.2 ||| r.2.2 ||| fl)

/-- The result of a reduction (R287): of the initial value and the active elements, with their numbers. -/
def reduced (f : Nat → Nat → Nat → Nat × FpFlags) (r0 : Nat) (ps : List (Nat × Nat)) : Nat × FpFlags :=
  match tree (treeOp f) (ps.map fun p => (p.2, p.1, (0 : FpFlags))) with
  | none => (r0, 0)
  | some p =>
    let (v, fl) := f 0 r0 p.1
    (v, p.2.2 ||| fl)

/-- A reduction (R287): `f` has the thread, the element number for DSR and the two operands. With no lanes there is no element 0 to write (R273). -/
def vreduce (m : Bool) (vd vs2 vs1 : Reg) (fp : Bool) (f : Thread → Nat → Nat → Nat → Nat × FpFlags) (s : State) : Host.Outcome State Fault Refusal :=
  settle (vissue [1] [] [] [vd] (!fp || (nativeFmt s.th).isSome) true s fun s =>
    completing (fun s => s.onTh fun t =>
      if vlmaxOf t = 0 then t
      else
        let (v, fl) := reduced (f t) (getElem t vs1 0) ((activeIn t m 0 t.vec.vl).map fun i => (i, getElem t vs2 i))
        putElem (accrueOp t fl) vd 0 v) s)

/-- A reduction in the native format. -/
def freduce (op : Rm → Val → Val → Exact) (t : Thread) (idx x y : Nat) : Nat × FpFlags :=
  match nativeFmt t with
  | none => (0, 0)
  | some fmt =>
    let r := roundingOf t .dyn false idx
    finish (binFmt fmt) r (op r.mode ((binFmt fmt).value x) ((binFmt fmt).value y))

/-- A permute (R288): the elements written, by number, from a thread whose sources are read in full first. -/
def vpermute (m : Bool) (vd : Reg) (xsrcs : List Reg) (f : Thread → List Nat → List (Nat × Nat)) (s : State) : Host.Outcome State Fault Refusal :=
  settle (vissue [1] xsrcs [] [vd] true true s fun s =>
    completing (fun s => s.onTh fun t => (f t (activeIn t m 0 t.vec.vl)).foldl (fun u p => putElem u vd p.1 p.2) t) s)

/-- The running sums of a scan. -/
def scanSums (w : Nat) : Nat → List (Nat × Nat) → List (Nat × Nat)
  | _, [] => []
  | acc, (i, x) :: rest => (i, (acc + x) % 2 ^ w) :: scanSums w ((acc + x) % 2 ^ w) rest

/-! The meanings. -/

/-- VREDSUM (R287). -/
def execVredsum (m : Bool) (vd vs2 vs1 : Reg) (s : State) : Host.Outcome State Fault Refusal :=
  vreduce m vd vs2 vs1 false (fun t _ x y => ((x + y) % 2 ^ sewBits t, 0)) s

/-- VREDMAX (R287). -/
def execVredmax (m : Bool) (vd vs2 vs1 : Reg) (s : State) : Host.Outcome State Fault Refusal :=
  vreduce m vd vs2 vs1 false (fun t _ x y => (if toSigned (sewBits t) x < toSigned (sewBits t) y then y else x, 0)) s

/-- VREDMIN (R287). -/
def execVredmin (m : Bool) (vd vs2 vs1 : Reg) (s : State) : Host.Outcome State Fault Refusal :=
  vreduce m vd vs2 vs1 false (fun t _ x y => (if toSigned (sewBits t) y < toSigned (sewBits t) x then y else x, 0)) s

/-- VFREDSUM (R287). -/
def execVfredsum (m : Bool) (vd vs2 vs1 : Reg) (s : State) : Host.Outcome State Fault Refusal :=
  vreduce m vd vs2 vs1 true (freduce fun r a b => fpAdd r a b) s

/-- VFREDMAX (R287). -/
def execVfredmax (m : Bool) (vd vs2 vs1 : Reg) (s : State) : Host.Outcome State Fault Refusal :=
  vreduce m vd vs2 vs1 true (freduce fun _ a b => fpMax a b) s

/-- VSCAN (R287). -/
def execVscan (m : Bool) (vd vs2 vs1 : Reg) (s : State) : Host.Outcome State Fault Refusal :=
  vpermute m vd [] (fun t act => scanSums (sewBits t) (getElem t vs1 0) (act.map fun i => (i, getElem t vs2 i))) s

/-- VSLIDEUP (R288). -/
def execVslideup (m : Bool) (vd vs2 rs1 : Reg) (s : State) : Host.Outcome State Fault Refusal :=
  vpermute m vd [rs1] (fun t act =>
    let off := (readX t rs1).toNat
    (act.filter fun i => decide (off ≤ i)).map fun i => (i, getElem t vs2 (i - off))) s

/-- VSLIDEDOWN (R288). -/
def execVslidedown (m : Bool) (vd vs2 rs1 : Reg) (s : State) : Host.Outcome State Fault Refusal :=
  vpermute m vd [rs1] (fun t act =>
    let off := (readX t rs1).toNat
    act.map fun i => (i, if i + off < vlmaxOf t then getElem t vs2 (i + off) else 0)) s

/-- VRGATHER (R288). -/
def execVrgather (m : Bool) (vd vs2 vs1 : Reg) (s : State) : Host.Outcome State Fault Refusal :=
  vpermute m vd [] (fun t act => act.map fun i =>
    let k := getElem t vs1 i
    (i, if k < vlmaxOf t then getElem t vs2 k else 0)) s

/-- VCOMPRESS (R288). -/
def execVcompress (vd vs2 : Reg) (s : State) : Host.Outcome State Fault Refusal :=
  vpermute true vd [] (fun t act => (List.range act.length).zip (act.map fun i => getElem t vs2 i)) s

/-- VEXTX (R288): within VLMAX, whatever VL is. -/
def execVextx (rd vs2 rs1 : Reg) (s : State) : Host.Outcome State Fault Refusal :=
  settle (vissue [1] [rs1] [rd] [] true true s fun s =>
    let k := (s.rx rs1).toNat
    finishOp 4 (s.wx rd (if k < vlmaxOf s.th then sextN (sewBits s.th) (getElem s.th vs2 k) else 0)))

/-- VINSX (R288). -/
def execVinsx (vd rs1 : Reg) (s : State) : Host.Outcome State Fault Refusal :=
  settle (vissue [1] [rs1] [] [vd] true true s fun s =>
    completing (fun s => s.onTh fun t => if vlmaxOf t = 0 then t else putElem t vd 0 ((readX t rs1).toNat % 2 ^ sewBits t)) s)

end Sys2Proof.Machine
end

