-- ==== Sys2Proof/Machine/Dispatch.lean ====
section
/-! DEFINITION. The dispatch of every instruction and event to its meaning, one arm for each constructor. -/

namespace Sys2Proof.Machine

/-- What an instruction of the current thread, or an event, does. -/
def exec (i : Instr) (s : State) : Host.Outcome State Fault Refusal :=
  match i with
  | .lui rd imm => Sys2Proof.Machine.execLui rd imm s
  | .auipc rd imm => Sys2Proof.Machine.execAuipc rd imm s
  | .jal rd off => Sys2Proof.Machine.execJal rd off s
  | .jalr rd rs1 imm => Sys2Proof.Machine.execJalr rd rs1 imm s
  | .beq rs1 rs2 off => Sys2Proof.Machine.execBeq rs1 rs2 off s
  | .bne rs1 rs2 off => Sys2Proof.Machine.execBne rs1 rs2 off s
  | .blt rs1 rs2 off => Sys2Proof.Machine.execBlt rs1 rs2 off s
  | .bge rs1 rs2 off => Sys2Proof.Machine.execBge rs1 rs2 off s
  | .bltu rs1 rs2 off => Sys2Proof.Machine.execBltu rs1 rs2 off s
  | .bgeu rs1 rs2 off => Sys2Proof.Machine.execBgeu rs1 rs2 off s
  | .lb rd rs1 imm => Sys2Proof.Machine.execLb rd rs1 imm s
  | .lh rd rs1 imm => Sys2Proof.Machine.execLh rd rs1 imm s
  | .lw rd rs1 imm => Sys2Proof.Machine.execLw rd rs1 imm s
  | .ld rd rs1 imm => Sys2Proof.Machine.execLd rd rs1 imm s
  | .lbu rd rs1 imm => Sys2Proof.Machine.execLbu rd rs1 imm s
  | .lhu rd rs1 imm => Sys2Proof.Machine.execLhu rd rs1 imm s
  | .lwu rd rs1 imm => Sys2Proof.Machine.execLwu rd rs1 imm s
  | .sb rs2 rs1 imm => Sys2Proof.Machine.execSb rs2 rs1 imm s
  | .sh rs2 rs1 imm => Sys2Proof.Machine.execSh rs2 rs1 imm s
  | .sw rs2 rs1 imm => Sys2Proof.Machine.execSw rs2 rs1 imm s
  | .sd rs2 rs1 imm => Sys2Proof.Machine.execSd rs2 rs1 imm s
  | .addi rd rs1 imm => Sys2Proof.Machine.execAddi rd rs1 imm s
  | .slti rd rs1 imm => Sys2Proof.Machine.execSlti rd rs1 imm s
  | .sltiu rd rs1 imm => Sys2Proof.Machine.execSltiu rd rs1 imm s
  | .xori rd rs1 imm => Sys2Proof.Machine.execXori rd rs1 imm s
  | .ori rd rs1 imm => Sys2Proof.Machine.execOri rd rs1 imm s
  | .andi rd rs1 imm => Sys2Proof.Machine.execAndi rd rs1 imm s
  | .slli rd rs1 sh => Sys2Proof.Machine.execSlli rd rs1 sh s
  | .srli rd rs1 sh => Sys2Proof.Machine.execSrli rd rs1 sh s
  | .srai rd rs1 sh => Sys2Proof.Machine.execSrai rd rs1 sh s
  | .add rd rs1 rs2 => Sys2Proof.Machine.execAdd rd rs1 rs2 s
  | .sll rd rs1 rs2 => Sys2Proof.Machine.execSll rd rs1 rs2 s
  | .slt rd rs1 rs2 => Sys2Proof.Machine.execSlt rd rs1 rs2 s
  | .sltu rd rs1 rs2 => Sys2Proof.Machine.execSltu rd rs1 rs2 s
  | .xor rd rs1 rs2 => Sys2Proof.Machine.execXor rd rs1 rs2 s
  | .srl rd rs1 rs2 => Sys2Proof.Machine.execSrl rd rs1 rs2 s
  | .or rd rs1 rs2 => Sys2Proof.Machine.execOr rd rs1 rs2 s
  | .and rd rs1 rs2 => Sys2Proof.Machine.execAnd rd rs1 rs2 s
  | .sub rd rs1 rs2 => Sys2Proof.Machine.execSub rd rs1 rs2 s
  | .sra rd rs1 rs2 => Sys2Proof.Machine.execSra rd rs1 rs2 s
  | .mul rd rs1 rs2 => Sys2Proof.Machine.execMul rd rs1 rs2 s
  | .mulh rd rs1 rs2 => Sys2Proof.Machine.execMulh rd rs1 rs2 s
  | .mulhsu rd rs1 rs2 => Sys2Proof.Machine.execMulhsu rd rs1 rs2 s
  | .mulhu rd rs1 rs2 => Sys2Proof.Machine.execMulhu rd rs1 rs2 s
  | .div rd rs1 rs2 => Sys2Proof.Machine.execDiv rd rs1 rs2 s
  | .divu rd rs1 rs2 => Sys2Proof.Machine.execDivu rd rs1 rs2 s
  | .rem rd rs1 rs2 => Sys2Proof.Machine.execRem rd rs1 rs2 s
  | .remu rd rs1 rs2 => Sys2Proof.Machine.execRemu rd rs1 rs2 s
  | .addiw rd rs1 imm => Sys2Proof.Machine.execAddiw rd rs1 imm s
  | .slliw rd rs1 sh => Sys2Proof.Machine.execSlliw rd rs1 sh s
  | .srliw rd rs1 sh => Sys2Proof.Machine.execSrliw rd rs1 sh s
  | .sraiw rd rs1 sh => Sys2Proof.Machine.execSraiw rd rs1 sh s
  | .addw rd rs1 rs2 => Sys2Proof.Machine.execAddw rd rs1 rs2 s
  | .sllw rd rs1 rs2 => Sys2Proof.Machine.execSllw rd rs1 rs2 s
  | .srlw rd rs1 rs2 => Sys2Proof.Machine.execSrlw rd rs1 rs2 s
  | .subw rd rs1 rs2 => Sys2Proof.Machine.execSubw rd rs1 rs2 s
  | .sraw rd rs1 rs2 => Sys2Proof.Machine.execSraw rd rs1 rs2 s
  | .mulw rd rs1 rs2 => Sys2Proof.Machine.execMulw rd rs1 rs2 s
  | .divw rd rs1 rs2 => Sys2Proof.Machine.execDivw rd rs1 rs2 s
  | .divuw rd rs1 rs2 => Sys2Proof.Machine.execDivuw rd rs1 rs2 s
  | .remw rd rs1 rs2 => Sys2Proof.Machine.execRemw rd rs1 rs2 s
  | .remuw rd rs1 rs2 => Sys2Proof.Machine.execRemuw rd rs1 rs2 s
  | .andn rd rs1 rs2 => Sys2Proof.Machine.execAndn rd rs1 rs2 s
  | .rol rd rs1 rs2 => Sys2Proof.Machine.execRol rd rs1 rs2 s
  | .clz rd rs1 => Sys2Proof.Machine.execClz rd rs1 s
  | .ctz rd rs1 => Sys2Proof.Machine.execCtz rd rs1 s
  | .cpop rd rs1 => Sys2Proof.Machine.execCpop rd rs1 s
  | .ror rd rs1 rs2 => Sys2Proof.Machine.execRor rd rs1 rs2 s
  | .rev8 rd rs1 => Sys2Proof.Machine.execRev8 rd rs1 s
  | .bext rd rs1 rs2 => Sys2Proof.Machine.execBext rd rs1 rs2 s
  | .bexti rd rs1 sh => Sys2Proof.Machine.execBexti rd rs1 sh s
  | .rori rd rs1 sh => Sys2Proof.Machine.execRori rd rs1 sh s
  | .liw rd imm => Sys2Proof.Machine.execLiw rd imm s
  | .flw rd rs1 imm => Sys2Proof.Machine.execFlw rd rs1 imm s
  | .fld rd rs1 imm => Sys2Proof.Machine.execFld rd rs1 imm s
  | .fsw rs2 rs1 imm => Sys2Proof.Machine.execFsw rs2 rs1 imm s
  | .fsd rs2 rs1 imm => Sys2Proof.Machine.execFsd rs2 rs1 imm s
  | .fadd fmt rm rd rs1 rs2 => Sys2Proof.Machine.execFadd fmt rm rd rs1 rs2 s
  | .fsub fmt rm rd rs1 rs2 => Sys2Proof.Machine.execFsub fmt rm rd rs1 rs2 s
  | .fmul fmt rm rd rs1 rs2 => Sys2Proof.Machine.execFmul fmt rm rd rs1 rs2 s
  | .fdiv fmt rm rd rs1 rs2 => Sys2Proof.Machine.execFdiv fmt rm rd rs1 rs2 s
  | .fsqrt fmt rm rd rs1 => Sys2Proof.Machine.execFsqrt fmt rm rd rs1 s
  | .fsgnj fmt rd rs1 rs2 => Sys2Proof.Machine.execFsgnj fmt rd rs1 rs2 s
  | .fsgnjN fmt rd rs1 rs2 => Sys2Proof.Machine.execFsgnjN fmt rd rs1 rs2 s
  | .fsgnjX fmt rd rs1 rs2 => Sys2Proof.Machine.execFsgnjX fmt rd rs1 rs2 s
  | .fmin fmt rd rs1 rs2 => Sys2Proof.Machine.execFmin fmt rd rs1 rs2 s
  | .fmax fmt rd rs1 rs2 => Sys2Proof.Machine.execFmax fmt rd rs1 rs2 s
  | .fcmpLe fmt rd rs1 rs2 => Sys2Proof.Machine.execFcmpLe fmt rd rs1 rs2 s
  | .fcmpLt fmt rd rs1 rs2 => Sys2Proof.Machine.execFcmpLt fmt rd rs1 rs2 s
  | .fcmpEq fmt rd rs1 rs2 => Sys2Proof.Machine.execFcmpEq fmt rd rs1 rs2 s
  | .fclass fmt rd rs1 => Sys2Proof.Machine.execFclass fmt rd rs1 s
  | .fcvtf fmt rm rd rs1 => Sys2Proof.Machine.execFcvtf fmt rm rd rs1 s
  | .fcvti fmt ty rm rd rs1 => Sys2Proof.Machine.execFcvti fmt ty rm rd rs1 s
  | .fcvtx fmt ty rm rd rs1 => Sys2Proof.Machine.execFcvtx fmt ty rm rd rs1 s
  | .fexp2 rd rs1 => Sys2Proof.Machine.execFexp2 rd rs1 s
  | .fmvx fmt rd rs1 => Sys2Proof.Machine.execFmvx fmt rd rs1 s
  | .fmvf fmt rd rs1 => Sys2Proof.Machine.execFmvf fmt rd rs1 s
  | .fround fmt rm rd rs1 => Sys2Proof.Machine.execFround fmt rm rd rs1 s
  | .fmaddF32 rm rd rs1 rs2 rs3 => Sys2Proof.Machine.execFmaddF32 rm rd rs1 rs2 rs3 s
  | .fmaddF64 rm rd rs1 rs2 rs3 => Sys2Proof.Machine.execFmaddF64 rm rd rs1 rs2 rs3 s
  | .fnmaddF32 rm rd rs1 rs2 rs3 => Sys2Proof.Machine.execFnmaddF32 rm rd rs1 rs2 rs3 s
  | .fnmaddF64 rm rd rs1 rs2 rs3 => Sys2Proof.Machine.execFnmaddF64 rm rd rs1 rs2 rs3 s
  | .lda dw scope rd rs1 => Sys2Proof.Machine.execLda dw scope rd rs1 s
  | .stl dw scope rs2 rs1 => Sys2Proof.Machine.execStl dw scope rs2 rs1 s
  | .amoswap dw ord scope rd rs2 rs1 => Sys2Proof.Machine.execAmoswap dw ord scope rd rs2 rs1 s
  | .amoadd dw ord scope rd rs2 rs1 => Sys2Proof.Machine.execAmoadd dw ord scope rd rs2 rs1 s
  | .amoand dw ord scope rd rs2 rs1 => Sys2Proof.Machine.execAmoand dw ord scope rd rs2 rs1 s
  | .amoor dw ord scope rd rs2 rs1 => Sys2Proof.Machine.execAmoor dw ord scope rd rs2 rs1 s
  | .amoxor dw ord scope rd rs2 rs1 => Sys2Proof.Machine.execAmoxor dw ord scope rd rs2 rs1 s
  | .amomin dw ord scope rd rs2 rs1 => Sys2Proof.Machine.execAmomin dw ord scope rd rs2 rs1 s
  | .amomax dw ord scope rd rs2 rs1 => Sys2Proof.Machine.execAmomax dw ord scope rd rs2 rs1 s
  | .amominu dw ord scope rd rs2 rs1 => Sys2Proof.Machine.execAmominu dw ord scope rd rs2 rs1 s
  | .amomaxu dw ord scope rd rs2 rs1 => Sys2Proof.Machine.execAmomaxu dw ord scope rd rs2 rs1 s
  | .amocas dw ord scope rd rs2 rs1 => Sys2Proof.Machine.execAmocas dw ord scope rd rs2 rs1 s
  | .amofadd dw ord scope rd rs2 rs1 => Sys2Proof.Machine.execAmofadd dw ord scope rd rs2 rs1 s
  | .fence ord scope => Sys2Proof.Machine.execFence ord scope s
  | .barrive scope rd b rs1 => Sys2Proof.Machine.execBarrive scope rd b rs1 s
  | .barwait scope b rs1 => Sys2Proof.Machine.execBarwait scope b rs1 s
  | .sdrain => Sys2Proof.Machine.execSdrain s
  | .tlwait rd tl rs1 => Sys2Proof.Machine.execTlwait rd tl rs1 s
  | .tlread rd tl => Sys2Proof.Machine.execTlread rd tl s
  | .tlreadT rd tl => Sys2Proof.Machine.execTlreadT rd tl s
  | .msend rd rs1 rs2 => Sys2Proof.Machine.execMsend rd rs1 rs2 s
  | .mwaitf rd rt rs1 => Sys2Proof.Machine.execMwaitf rd rt rs1 s
  | .capdeleg rd k rs1 => Sys2Proof.Machine.execCapdeleg rd k rs1 s
  | .caprevoke rs1 => Sys2Proof.Machine.execCaprevoke rs1 s
  | .capcheck rd k rs1 => Sys2Proof.Machine.execCapcheck rd k rs1 s
  | .syscall => Sys2Proof.Machine.execSyscall s
  | .tret => Sys2Proof.Machine.execTret s
  | .brk => Sys2Proof.Machine.execBrk s
  | .wfe rd rs1 => Sys2Proof.Machine.execWfe rd rs1 s
  | .yield => Sys2Proof.Machine.execYield s
  | .texit => Sys2Proof.Machine.execTexit s
  | .migrate rs1 => Sys2Proof.Machine.execMigrate rs1 s
  | .srrd rd r => Sys2Proof.Machine.execSrrd rd r s
  | .srwr rd r rs1 => Sys2Proof.Machine.execSrwr rd r rs1 s
  | .srset rd r rs1 => Sys2Proof.Machine.execSrset rd r rs1 s
  | .srclr rd r rs1 => Sys2Proof.Machine.execSrclr rd r rs1 s
  | .tlbinv scope rs1 rs2 => Sys2Proof.Machine.execTlbinv scope rs1 rs2 s
  | .lineopIcinv scope rs1 => Sys2Proof.Machine.execLineopIcinv scope rs1 s
  | .lineopZero rs1 => Sys2Proof.Machine.execLineopZero rs1 s
  | .lineopClean rs1 => Sys2Proof.Machine.execLineopClean rs1 s
  | .pfx nf sat rm => Sys2Proof.Machine.execPfx nf sat rm s
  | .padd lanes rd rs1 rs2 => Sys2Proof.Machine.execPadd lanes rd rs1 rs2 s
  | .psub lanes rd rs1 rs2 => Sys2Proof.Machine.execPsub lanes rd rs1 rs2 s
  | .padds lanes rd rs1 rs2 => Sys2Proof.Machine.execPadds lanes rd rs1 rs2 s
  | .psubs lanes rd rs1 rs2 => Sys2Proof.Machine.execPsubs lanes rd rs1 rs2 s
  | .paddus lanes rd rs1 rs2 => Sys2Proof.Machine.execPaddus lanes rd rs1 rs2 s
  | .psubus lanes rd rs1 rs2 => Sys2Proof.Machine.execPsubus lanes rd rs1 rs2 s
  | .pmul lanes rd rs1 rs2 => Sys2Proof.Machine.execPmul lanes rd rs1 rs2 s
  | .pmulq lanes rd rs1 rs2 => Sys2Proof.Machine.execPmulq lanes rd rs1 rs2 s
  | .pmin lanes rd rs1 rs2 => Sys2Proof.Machine.execPmin lanes rd rs1 rs2 s
  | .pmax lanes rd rs1 rs2 => Sys2Proof.Machine.execPmax lanes rd rs1 rs2 s
  | .psll lanes rd rs1 rs2 => Sys2Proof.Machine.execPsll lanes rd rs1 rs2 s
  | .psrl lanes rd rs1 rs2 => Sys2Proof.Machine.execPsrl lanes rd rs1 rs2 s
  | .psra lanes rd rs1 rs2 => Sys2Proof.Machine.execPsra lanes rd rs1 rs2 s
  | .pssl lanes rd rs1 rs2 => Sys2Proof.Machine.execPssl lanes rd rs1 rs2 s
  | .pavg lanes rd rs1 rs2 => Sys2Proof.Machine.execPavg lanes rd rs1 rs2 s
  | .pcvt src dst rd rs1 => Sys2Proof.Machine.execPcvt src dst rd rs1 s
  | .talloc rd t rs1 => Sys2Proof.Machine.execTalloc rd t rs1 s
  | .tfree t => Sys2Proof.Machine.execTfree t s
  | .tlockR t => Sys2Proof.Machine.execTlockR t s
  | .tlockW t => Sys2Proof.Machine.execTlockW t s
  | .tunlock t => Sys2Proof.Machine.execTunlock t s
  | .tzero t => Sys2Proof.Machine.execTzero t s
  | .trdx rd t rs1 => Sys2Proof.Machine.execTrdx rd t rs1 s
  | .twrx t rs1 rv => Sys2Proof.Machine.execTwrx t rs1 rv s
  | .tqueryLo rd t => Sys2Proof.Machine.execTqueryLo rd t s
  | .tqueryHi rd t => Sys2Proof.Machine.execTqueryHi rd t s
  | .tload rd ta rs1 rs2 tl => Sys2Proof.Machine.execTload rd ta rs1 rs2 tl s
  | .tstore rd ta rs1 rs2 tl => Sys2Proof.Machine.execTstore rd ta rs1 rs2 tl s
  | .tcopyT rd tb ta rs2 tl => Sys2Proof.Machine.execTcopyT rd tb ta rs2 tl s
  | .tcopyM rd rdst rs1 rs2 tl => Sys2Proof.Machine.execTcopyM rd rdst rs1 rs2 tl s
  | .tmma bank sh za rd ta tb rs1 rs2 tl => Sys2Proof.Machine.execTmma bank sh za rd ta tb rs1 rs2 tl s
  | .taccrd bank rm sat clr rd tb tl => Sys2Proof.Machine.execTaccrd bank rm sat clr rd tb tl s
  | .tmma32 bank rd ta tb rs1 tl => Sys2Proof.Machine.execTmma32 bank rd ta tb rs1 tl s
  | .setvl rd rs1 => Sys2Proof.Machine.execSetvl rd rs1 s
  | .setvli rd imm => Sys2Proof.Machine.execSetvli rd imm s
  | .setshape rd rs1 rs2 => Sys2Proof.Machine.execSetshape rd rs1 rs2 s
  | .grpset g rs1 rs2 => Sys2Proof.Machine.execGrpset g rs1 rs2 s
  | .vle m w vd rs1 => Sys2Proof.Machine.execVle m w vd rs1 s
  | .vse m w vs3 rs1 => Sys2Proof.Machine.execVse m w vs3 rs1 s
  | .vlse m w vd rs1 rs2 => Sys2Proof.Machine.execVlse m w vd rs1 rs2 s
  | .vsse m w vs3 rs1 rs2 => Sys2Proof.Machine.execVsse m w vs3 rs1 rs2 s
  | .vlxe m w vd rs1 vs2 => Sys2Proof.Machine.execVlxe m w vd rs1 vs2 s
  | .vsxe m w vs3 rs1 vs2 => Sys2Proof.Machine.execVsxe m w vs3 rs1 vs2 s
  | .vleff m w vd rs1 => Sys2Proof.Machine.execVleff m w vd rs1 s
  | .vadd m vd vs2 src => Sys2Proof.Machine.execVadd m vd vs2 src s
  | .vsub m vd vs2 src => Sys2Proof.Machine.execVsub m vd vs2 src s
  | .vrsub m vd vs2 src => Sys2Proof.Machine.execVrsub m vd vs2 src s
  | .vsadd m vd vs2 src => Sys2Proof.Machine.execVsadd m vd vs2 src s
  | .vssub m vd vs2 src => Sys2Proof.Machine.execVssub m vd vs2 src s
  | .vsaddu m vd vs2 src => Sys2Proof.Machine.execVsaddu m vd vs2 src s
  | .vssubu m vd vs2 src => Sys2Proof.Machine.execVssubu m vd vs2 src s
  | .vmul m vd vs2 src => Sys2Proof.Machine.execVmul m vd vs2 src s
  | .vmulh m vd vs2 src => Sys2Proof.Machine.execVmulh m vd vs2 src s
  | .vmulhu m vd vs2 src => Sys2Proof.Machine.execVmulhu m vd vs2 src s
  | .vdiv m vd vs2 src => Sys2Proof.Machine.execVdiv m vd vs2 src s
  | .vdivu m vd vs2 src => Sys2Proof.Machine.execVdivu m vd vs2 src s
  | .vrem m vd vs2 src => Sys2Proof.Machine.execVrem m vd vs2 src s
  | .vremu m vd vs2 src => Sys2Proof.Machine.execVremu m vd vs2 src s
  | .vmin m vd vs2 src => Sys2Proof.Machine.execVmin m vd vs2 src s
  | .vmax m vd vs2 src => Sys2Proof.Machine.execVmax m vd vs2 src s
  | .vminu m vd vs2 src => Sys2Proof.Machine.execVminu m vd vs2 src s
  | .vmaxu m vd vs2 src => Sys2Proof.Machine.execVmaxu m vd vs2 src s
  | .vand m vd vs2 src => Sys2Proof.Machine.execVand m vd vs2 src s
  | .vor m vd vs2 src => Sys2Proof.Machine.execVor m vd vs2 src s
  | .vxor m vd vs2 src => Sys2Proof.Machine.execVxor m vd vs2 src s
  | .vsll m vd vs2 src => Sys2Proof.Machine.execVsll m vd vs2 src s
  | .vsrl m vd vs2 src => Sys2Proof.Machine.execVsrl m vd vs2 src s
  | .vsra m vd vs2 src => Sys2Proof.Machine.execVsra m vd vs2 src s
  | .vssl m vd vs2 src => Sys2Proof.Machine.execVssl m vd vs2 src s
  | .vmseq m vd vs2 src => Sys2Proof.Machine.execVmseq m vd vs2 src s
  | .vmsne m vd vs2 src => Sys2Proof.Machine.execVmsne m vd vs2 src s
  | .vmslt m vd vs2 src => Sys2Proof.Machine.execVmslt m vd vs2 src s
  | .vmsltu m vd vs2 src => Sys2Proof.Machine.execVmsltu m vd vs2 src s
  | .vmsle m vd vs2 src => Sys2Proof.Machine.execVmsle m vd vs2 src s
  | .vmerge vd vs2 src => Sys2Proof.Machine.execVmerge vd vs2 src s
  | .vmv m vd src => Sys2Proof.Machine.execVmv m vd src s
  | .vfadd m vd vs2 src => Sys2Proof.Machine.execVfadd m vd vs2 src s
  | .vfsub m vd vs2 src => Sys2Proof.Machine.execVfsub m vd vs2 src s
  | .vfmul m vd vs2 src => Sys2Proof.Machine.execVfmul m vd vs2 src s
  | .vfdiv m vd vs2 src => Sys2Proof.Machine.execVfdiv m vd vs2 src s
  | .vfsqrt m vd vs2 => Sys2Proof.Machine.execVfsqrt m vd vs2 s
  | .vfmin m vd vs2 src => Sys2Proof.Machine.execVfmin m vd vs2 src s
  | .vfmax m vd vs2 src => Sys2Proof.Machine.execVfmax m vd vs2 src s
  | .vfma m vd vs2 src => Sys2Proof.Machine.execVfma m vd vs2 src s
  | .vfnma m vd vs2 src => Sys2Proof.Machine.execVfnma m vd vs2 src s
  | .vfexp2 m vd vs2 => Sys2Proof.Machine.execVfexp2 m vd vs2 s
  | .vmfeq m vd vs2 src => Sys2Proof.Machine.execVmfeq m vd vs2 src s
  | .vmflt m vd vs2 src => Sys2Proof.Machine.execVmflt m vd vs2 src s
  | .vmfle m vd vs2 src => Sys2Proof.Machine.execVmfle m vd vs2 src s
  | .vfcvtd m fmt vd vs2 => Sys2Proof.Machine.execVfcvtd m fmt vd vs2 s
  | .vfcvts m fmt vd vs2 => Sys2Proof.Machine.execVfcvts m fmt vd vs2 s
  | .vredsum m vd vs2 vs1 => Sys2Proof.Machine.execVredsum m vd vs2 vs1 s
  | .vredmax m vd vs2 vs1 => Sys2Proof.Machine.execVredmax m vd vs2 vs1 s
  | .vredmin m vd vs2 vs1 => Sys2Proof.Machine.execVredmin m vd vs2 vs1 s
  | .vfredsum m vd vs2 vs1 => Sys2Proof.Machine.execVfredsum m vd vs2 vs1 s
  | .vfredmax m vd vs2 vs1 => Sys2Proof.Machine.execVfredmax m vd vs2 vs1 s
  | .vscan m vd vs2 vs1 => Sys2Proof.Machine.execVscan m vd vs2 vs1 s
  | .vslideup m vd vs2 rs1 => Sys2Proof.Machine.execVslideup m vd vs2 rs1 s
  | .vslidedown m vd vs2 rs1 => Sys2Proof.Machine.execVslidedown m vd vs2 rs1 s
  | .vrgather m vd vs2 vs1 => Sys2Proof.Machine.execVrgather m vd vs2 vs1 s
  | .vcompress vd vs2 => Sys2Proof.Machine.execVcompress vd vs2 s
  | .vextx rd vs2 rs1 => Sys2Proof.Machine.execVextx rd vs2 rs1 s
  | .vinsx vd rs1 => Sys2Proof.Machine.execVinsx vd rs1 s
  | .vmand m vd vs2 vs1 => Sys2Proof.Machine.execVmand m vd vs2 vs1 s
  | .vmandn m vd vs2 vs1 => Sys2Proof.Machine.execVmandn m vd vs2 vs1 s
  | .vmor m vd vs2 vs1 => Sys2Proof.Machine.execVmor m vd vs2 vs1 s
  | .vmxor m vd vs2 vs1 => Sys2Proof.Machine.execVmxor m vd vs2 vs1 s
  | .vmpopc m rd vs2 => Sys2Proof.Machine.execVmpopc m rd vs2 s
  | .vmfirst m rd vs2 => Sys2Proof.Machine.execVmfirst m rd vs2 s
  | .vdot4 m vd vs2 vs1 => Sys2Proof.Machine.execVdot4 m vd vs2 vs1 s
  | .ldpairw vd rs1 => Sys2Proof.Machine.execLdpairw vd rs1 s
  | .mmodeOn => Sys2Proof.Machine.execMmodeOn s
  | .mmodeOff => Sys2Proof.Machine.execMmodeOff s
  | .vopaBf16 m va vb => Sys2Proof.Machine.execVopaBf16 m va vb s
  | .vopaF16 m va vb => Sys2Proof.Machine.execVopaF16 m va vb s
  | .vopaE4m3 m va vb => Sys2Proof.Machine.execVopaE4m3 m va vb s
  | .vopaE5m2 m va vb => Sys2Proof.Machine.execVopaE5m2 m va vb s
  | .vaccz => Sys2Proof.Machine.execVaccz s
  | .vsmx m vd vs2 fa => Sys2Proof.Machine.execVsmx m vd vs2 fa s
  | .vcollSum f vd vs g => Sys2Proof.Machine.execVcollSum f vd vs g s
  | .vcollMax f vd vs g => Sys2Proof.Machine.execVcollMax f vd vs g s
  | .vcollMin f vd vs g => Sys2Proof.Machine.execVcollMin f vd vs g s
  | .vcollSmerge vd vs g xd => Sys2Proof.Machine.execVcollSmerge vd vs g xd s
  | .vcollGather vd vs g => Sys2Proof.Machine.execVcollGather vd vs g s
  | .vcollScatter vd vs g xr => Sys2Proof.Machine.execVcollScatter vd vs g xr s
  | .vcollBcast vd vs g xr => Sys2Proof.Machine.execVcollBcast vd vs g xr s
  | .missQueueServe die => Sys2Proof.Machine.execMissQueueServe die s
  | .contextRecordWrite ctx dword v => Sys2Proof.Machine.execContextRecordWrite ctx dword v s
  | .tlbinvComplete n => Sys2Proof.Machine.execTlbinvComplete n s
  | .tlbinvPodTimeout n pkg => Sys2Proof.Machine.execTlbinvPodTimeout n pkg s
  | .podWindowRequest req => Sys2Proof.Machine.execPodWindowRequest req s
  | .podWindowResponse id ans => Sys2Proof.Machine.execPodWindowResponse id ans s
  | .podWindowTimeout id => Sys2Proof.Machine.execPodWindowTimeout id s
  | .keySlotLoad slot part => Sys2Proof.Machine.execKeySlotLoad slot part s
  | .keySlotUnload slot => Sys2Proof.Machine.execKeySlotUnload slot s
  | .spdmRequest secured op => Sys2Proof.Machine.execSpdmRequest secured op s
  | .tileLockGrant key => Sys2Proof.Machine.execTileLockGrant key s
  | .parkResume t => Sys2Proof.Machine.execParkResume t s
  | .l1dLineExpiry core line => Sys2Proof.Machine.execL1dLineExpiry core line s
  | .writeThroughDelivery core => Sys2Proof.Machine.execWriteThroughDelivery core s
  | .homeRequest line => Sys2Proof.Machine.execHomeRequest line s
  | .taskRetirement stand => Sys2Proof.Machine.execTaskRetirement stand s
  | .patrolScrub line => Sys2Proof.Machine.execPatrolScrub line s
  | .latentCodeRescrub line => Sys2Proof.Machine.execLatentCodeRescrub line s
  | .rasbaseWrite v => Sys2Proof.Machine.execRasbaseWrite v s
  | .rasidxWrite v => Sys2Proof.Machine.execRasidxWrite v s
  | .dauLoad t => Sys2Proof.Machine.execDauLoad t s
  | .copyRow cmd => Sys2Proof.Machine.execCopyRow cmd s
  | .arrayOperandRead cmd k => Sys2Proof.Machine.execArrayOperandRead cmd k s
  | .engineCommandComplete cmd => Sys2Proof.Machine.execEngineCommandComplete cmd s
  | .heldFaultDelivery t => Sys2Proof.Machine.execHeldFaultDelivery t s
  | .podTimeSourceChange lock hold master err => Sys2Proof.Machine.execPodTimeSourceChange lock hold master err s
  | .migrationArrival t => Sys2Proof.Machine.execMigrationArrival t s
  | .streamerQueueServe t => Sys2Proof.Machine.execStreamerQueueServe t s
  | .leaseRegrant t => Sys2Proof.Machine.execLeaseRegrant t s
  | .leaseParkedGrant die quad => Sys2Proof.Machine.execLeaseParkedGrant die quad s
  | .mixWindowEnd t => Sys2Proof.Machine.execMixWindowEnd t s
  | .mixMigration t => Sys2Proof.Machine.execMixMigration t s
  | .barrierEpisodeAbandon key => Sys2Proof.Machine.execBarrierEpisodeAbandon key s
  | .messageArrival t => Sys2Proof.Machine.execMessageArrival t s
  | .spawnStart t => Sys2Proof.Machine.execSpawnStart t s
  | .waitLimitExpiry t => Sys2Proof.Machine.execWaitLimitExpiry t s
  | .collectiveCombine key reached => Sys2Proof.Machine.execCollectiveCombine key reached s
  | .buddyCopyDelivery key rank => Sys2Proof.Machine.execBuddyCopyDelivery key rank s
  | .collectiveResult t => Sys2Proof.Machine.execCollectiveResult t s
  | .collectiveTimerExpiry key => Sys2Proof.Machine.execCollectiveTimerExpiry key s
  | .collectiveResultTimeout t => Sys2Proof.Machine.execCollectiveResultTimeout t s
  | .tailWrite q v => Sys2Proof.Machine.execTailWrite q v s
  | .launchRecordRead q => Sys2Proof.Machine.execLaunchRecordRead q s
  | .dispatch half => Sys2Proof.Machine.execDispatch half s
  | .priorityLift q => Sys2Proof.Machine.execPriorityLift q s
  | .notbeforeReached q => Sys2Proof.Machine.execNotbeforeReached q s
  | .dispatcherPlace die => Sys2Proof.Machine.execDispatcherPlace die s
  | .contextFreeNotice core => Sys2Proof.Machine.execContextFreeNotice core s
  | .copyNode q => Sys2Proof.Machine.execCopyNode q s
  | .signalNode q => Sys2Proof.Machine.execSignalNode q s
  | .jobEnd job => Sys2Proof.Machine.execJobEnd job s
  | .budgetExpiry stand => Sys2Proof.Machine.execBudgetExpiry stand s
  | .preload core => Sys2Proof.Machine.execPreload core s
  | .qownWrite die quad v => Sys2Proof.Machine.execQownWrite die quad v s
  | .coreOwnerPass core => Sys2Proof.Machine.execCoreOwnerPass core s
  | .missingFeatureReplace stand => Sys2Proof.Machine.execMissingFeatureReplace stand s
  | .supervisorRingResume part => Sys2Proof.Machine.execSupervisorRingResume part s
  | .supervisorInterrupt part => Sys2Proof.Machine.execSupervisorInterrupt part s
  | .threadReset part => Sys2Proof.Machine.execThreadReset part s
  | .standReset part => Sys2Proof.Machine.execStandReset part s
  | .rerunStand part => Sys2Proof.Machine.execRerunStand part s
  | .resumeStand part => Sys2Proof.Machine.execResumeStand part s
  | .preemptStand part => Sys2Proof.Machine.execPreemptStand part s
  | .gangSwitch part => Sys2Proof.Machine.execGangSwitch part s
  | .gangPreempt job => Sys2Proof.Machine.execGangPreempt job s
  | .gangResume part => Sys2Proof.Machine.execGangResume part s
  | .queueReset part => Sys2Proof.Machine.execQueueReset part s
  | .partitionReset part byHost => Sys2Proof.Machine.execPartitionReset part byHost s
  | .packageReset => Sys2Proof.Machine.execPackageReset s
  | .postedStoreResolve t => Sys2Proof.Machine.execPostedStoreResolve t s
  | .impreciseStoreFault t => Sys2Proof.Machine.execImpreciseStoreFault t s
  | .coreHardwareError core => Sys2Proof.Machine.execCoreHardwareError core s
  | .watchdogExpiry core => Sys2Proof.Machine.execWatchdogExpiry core s
  | .stopPointFire t => Sys2Proof.Machine.execStopPointFire t s
  | .attach part => Sys2Proof.Machine.execAttach part s
  | .detach part => Sys2Proof.Machine.execDetach part s
  | .stop part => Sys2Proof.Machine.execStop part s
  | .cont part => Sys2Proof.Machine.execCont part s
  | .rdreg part => Sys2Proof.Machine.execRdreg part s
  | .wrreg part => Sys2Proof.Machine.execWrreg part s
  | .rdmem part => Sys2Proof.Machine.execRdmem part s
  | .wrmem part => Sys2Proof.Machine.execWrmem part s
  | .setsp part => Sys2Proof.Machine.execSetsp part s
  | .clrsp part => Sys2Proof.Machine.execClrsp part s
  | .trace part => Sys2Proof.Machine.execTrace part s
  | .record part => Sys2Proof.Machine.execRecord part s
  | .replay part => Sys2Proof.Machine.execReplay part s
  | .samplePeriodExpiry t => Sys2Proof.Machine.execSamplePeriodExpiry t s
  | .hostMemAccess pa n part write => Sys2Proof.Machine.execHostMemAccess pa n part write s
  | .flitReplay port => Sys2Proof.Machine.execFlitReplay port s
  | .capacityFailure unit => Sys2Proof.Machine.execCapacityFailure unit s
  | .bootStep n unit out code => Sys2Proof.Machine.execBootStep n unit out code s
  | .healthUpdate die v => Sys2Proof.Machine.execHealthUpdate die v s
  | .thermalThrottle die cycles => Sys2Proof.Machine.execThermalThrottle die cycles s
  | .overtempReset => Sys2Proof.Machine.execOvertempReset s
  | .registerWrite r v => Sys2Proof.Machine.execRegisterWrite r v s
  | .hostLinkDown link down => Sys2Proof.Machine.execHostLinkDown link down s

end Sys2Proof.Machine
end

