-- ==== Sys2Proof/Machine/Turn.lean ====
section
/-! DEFINITION. A thread's turn: the boundary, the fetch, and the instruction with its prefix. -/

namespace Sys2Proof.Machine

/-- A prefixed instruction (R199): the prefix, and in the same turn its successor, whose bits a trap shows (log 25). -/
noncomputable def runPair (i : Instr) (succ : List Byte) (s : State) : Host.Outcome State Fault Refusal :=
  match exec i s with
  | .next s1 =>
    match s1.th.pfx, s1.th.succ with
    | some _, some j => exec j (s1.onTh fun t => { t with ibits := bitsOf succ })
    | _, _ => .next s1
  | .fault f => .fault f
  | .refused r => .refused r

/-- The instruction at the pc fetched, decoded and performed (R189, R199). -/
noncomputable def issueNext (s : State) : Host.Outcome State Fault Refusal :=
  match fetchInstr s s.th.pc with
  | .stop e => fetchStop e
  | .ok bs s1 =>
    let s2 := s1.onTh fun t => { t with ibits := bitsOf bs }
    match decode bs with
    | .error _ => settle (illegalOp s2)
    | .ok i =>
      if !isPrefix i then exec i s2
      else
        match fetchInstr s2 (s2.th.pc + 4) with
        | .stop e => fetchStop e
        | .ok succ s3 => runPair i succ (s3.onTh fun t => { t with succ := successorOf succ })

/-- The turn of the current thread: nothing while it holds no issue turn, its stand is halted, or it waits; a thread without the clusters that it gave up
asks for them first (R152); else what is due at the boundary, or its next instruction. -/
noncomputable def threadTurn (s : State) : Host.Outcome State Fault Refusal :=
  if !issueTurn s || standHalted s s.th.tid.stand then .next s
  else
    match s.th.run with
    | .parked _ =>
      if !stoppable s.th then .next s
      else (match boundary (useTurn s) false (nextMicro s) with | some s1 => .next s1 | none => .next s)
    | .running =>
      if awaitsGrant s.th then .next (regrant s)
      else
      match settlePosted (useTurn s) with
      | .done s1 =>
        (match boundary s1 (nextWhole s1) (nextMicro s1) with
        | some s2 => .next s2
        | none =>
          match issueNext s1 with
          | .next s2 => .next (rearmAfter s1.th.issues s2)
          | .fault f => .fault f
          | .refused r => .refused r)
      | e => fetchStop e
    | _ => .next s

/-- A turn of the schedule: time passes, and its thread or its event moves. -/
noncomputable def takeTurn (t : Turn) (s : State) : Host.Outcome State Fault Refusal :=
  let s1 := passTime s none t.cycles t.ns
  match t.who with
  | .event e => exec e s1
  | .thread tid =>
    match s1.switchTo tid with
    | none => if tid = s1.th.tid then .next s1 else .fault .noSuchThread
    | some s2 => threadTurn s2

end Sys2Proof.Machine
end

