-- ==== Sys2Proof/Machine/Loader.lean ====
section
/-! DEFINITION. How one instruction is laid before a machine in which nothing runs: a context with its page tables and key, a page that holds the
instruction, and a thread at its start (log 26). -/

namespace Sys2Proof.Machine

/-- The class of core, and whether the supervisor mode, in which an instruction has its effect (R154, R189). -/
def homeOf : Instr → CoreClass × Bool
  | .tlbinv .. => (.c, true)
  | .tmma .. | .taccrd .. | .tmma32 .. => (.t, false)
  | _ => (.v, false)

/-- A pointer entry that names the table at a page (R24). -/
def pointerTo (page : Nat) : Nat := page * 4096 + 1

/-- A leaf for code at a page: V, R, X and A, with U for a user page (R24). -/
def codeLeaf (page : Nat) (user : Bool) : Nat := page * 4096 + 64 + 8 + 2 + 1 + (if user then 16 else 0)

/-- The tables of the context: the root is page 1, and its tables map the virtual page 16 to the physical page 16. -/
def loaderTables (user : Bool) (m : Cells) : Cells :=
  let m1 := cellWrite m 0x1000 8 (pointerTo 2)
  let m2 := cellWrite m1 0x2000 8 (pointerTo 3)
  let m3 := cellWrite m2 0x3000 8 (pointerTo 4)
  let m4 := cellWrite m3 0x4000 8 (pointerTo 5)
  cellWrite m4 0x5080 8 (codeLeaf 16 user)

/-- A thread at its start at the virtual address 0x10000 (R140). -/
def loaderThread (p : Place) (sup : Bool) : Thread :=
  { Thread.reset with tid := ⟨65535, 0⟩, ctx := 1, place := some p, run := .running, pc := 0x10000, status := { Status.zero with priv := sup } }

/-- The place of the thread: on a T-core, the slot whose turn is the next cycle (R146). -/
def loaderPlace (s : State) (c : CoreClass) : Place :=
  match c with
  | .c => ⟨⟨0, 0, 0⟩, 0⟩
  | .v => ⟨⟨2, 0, 0⟩, 0⟩
  | .t => ⟨⟨6, 0, 0⟩, (s.dieCycle 6 + 1) % 16⟩

/-- An instruction's bytes laid before a thread of the class and the mode given. -/
def layInstr (s : State) (home : CoreClass × Bool) (bs : List Byte) : State :=
  let ms := { s.ms with mem := cellPutList 0 (loaderTables (!home.2) s.ms.mem) 0x10000 bs, l1i := [] }
  let xl := { s.xl with ctxs := assoc s.xl.ctxs 1 ⟨true, 1, 1, 1⟩, keys := assoc s.xl.keys 1 ⟨1, 1⟩, tlb := [], wcache := [], missQ := [] }
  let s1 := { s with ms := ms, xl := xl, turns := [], un := { s.un with turns := [] }, th := loaderThread (loaderPlace s home.1) home.2
                     others := if s.th.run = Run.ended then s.others else s.th :: s.others }
  (s1.setReg10 (.defkey 1) 0x8001).setReg10 (.svidx 1) (BitVec.ofNat 64 (2 ^ 20))

end Sys2Proof.Machine
end

