-- ==== Sys2Proof/Machine/Step.lean ====
section
/-! DEFINITION. The step of the machine: the next turn of the schedule, and, when none is left, an issue of the current thread after one cycle of one
nanosecond (log 3). -/

namespace Sys2Proof.Machine

/-- One step. -/
noncomputable def step (s : State) : Host.Outcome State Fault Refusal :=
  match s.turns with
  | [] => takeTurn ⟨1, 1, .thread s.th.tid⟩ s
  | t :: rest => takeTurn t { s with turns := rest }

/-- The state with an instruction laid where the next step fetches it (log 26): the bits of `w` that the opcode table names, the others zero. -/
noncomputable def State.withFetchWord (s : State) (nbits w : Nat) : State :=
  layInstr s (match decodeTableWord nbits w with | some i => homeOf i | none => (.v, false)) (leBytes 8 (w % 2 ^ nbits))

end Sys2Proof.Machine
end

