-- ==== Sys2Proof/Laws/State.lean ====
section
/-! SUPPORT. The fields of a state after each of its named updates. -/

namespace Sys2Proof.Machine

@[simp] theorem State.onTh_th (s : State) (f : Thread → Thread) : (s.onTh f).th = f s.th := rfl
@[simp] theorem State.onTh_others (s : State) (f : Thread → Thread) : (s.onTh f).others = s.others := rfl
@[simp] theorem State.onTh_turns (s : State) (f : Thread → Thread) : (s.onTh f).turns = s.turns := rfl
@[simp] theorem State.onTh_clk (s : State) (f : Thread → Thread) : (s.onTh f).clk = s.clk := rfl
@[simp] theorem State.onTh_ms (s : State) (f : Thread → Thread) : (s.onTh f).ms = s.ms := rfl
@[simp] theorem State.onTh_xl (s : State) (f : Thread → Thread) : (s.onTh f).xl = s.xl := rfl
@[simp] theorem State.onTh_regs10 (s : State) (f : Thread → Thread) : (s.onTh f).regs10 = s.regs10 := rfl
@[simp] theorem State.onTh_un (s : State) (f : Thread → Thread) : (s.onTh f).un = s.un := rfl
@[simp] theorem State.onTh_gl (s : State) (f : Thread → Thread) : (s.onTh f).gl = s.gl := rfl
@[simp] theorem State.onTh_db (s : State) (f : Thread → Thread) : (s.onTh f).db = s.db := rfl
@[simp] theorem State.onTh_pod (s : State) (f : Thread → Thread) : (s.onTh f).pod = s.pod := rfl
@[simp] theorem State.onTh_pf (s : State) (f : Thread → Thread) : (s.onTh f).pf = s.pf := rfl

@[simp] theorem State.wx_th (s : State) (r : Reg) (v : Word) : (s.wx r v).th = writeX s.th r v := rfl
@[simp] theorem State.wx_others (s : State) (r : Reg) (v : Word) : (s.wx r v).others = s.others := rfl
@[simp] theorem State.wx_turns (s : State) (r : Reg) (v : Word) : (s.wx r v).turns = s.turns := rfl
@[simp] theorem State.wx_clk (s : State) (r : Reg) (v : Word) : (s.wx r v).clk = s.clk := rfl
@[simp] theorem State.wx_ms (s : State) (r : Reg) (v : Word) : (s.wx r v).ms = s.ms := rfl
@[simp] theorem State.wx_xl (s : State) (r : Reg) (v : Word) : (s.wx r v).xl = s.xl := rfl
@[simp] theorem State.wx_regs10 (s : State) (r : Reg) (v : Word) : (s.wx r v).regs10 = s.regs10 := rfl
@[simp] theorem State.wx_un (s : State) (r : Reg) (v : Word) : (s.wx r v).un = s.un := rfl
@[simp] theorem State.wx_gl (s : State) (r : Reg) (v : Word) : (s.wx r v).gl = s.gl := rfl
@[simp] theorem State.wx_db (s : State) (r : Reg) (v : Word) : (s.wx r v).db = s.db := rfl
@[simp] theorem State.wx_pod (s : State) (r : Reg) (v : Word) : (s.wx r v).pod = s.pod := rfl
@[simp] theorem State.wx_pf (s : State) (r : Reg) (v : Word) : (s.wx r v).pf = s.pf := rfl

@[simp] theorem State.advance_th (s : State) (n : Nat) : (s.advance n).th = clearLatches { s.th with pc := s.th.pc + BitVec.ofNat 64 (instrBytes s.th n) } := rfl
@[simp] theorem State.advance_others (s : State) (n : Nat) : (s.advance n).others = s.others := rfl
@[simp] theorem State.advance_turns (s : State) (n : Nat) : (s.advance n).turns = s.turns := rfl
@[simp] theorem State.advance_clk (s : State) (n : Nat) : (s.advance n).clk = s.clk := rfl
@[simp] theorem State.advance_ms (s : State) (n : Nat) : (s.advance n).ms = s.ms := rfl
@[simp] theorem State.advance_xl (s : State) (n : Nat) : (s.advance n).xl = s.xl := rfl
@[simp] theorem State.advance_regs10 (s : State) (n : Nat) : (s.advance n).regs10 = s.regs10 := rfl
@[simp] theorem State.advance_un (s : State) (n : Nat) : (s.advance n).un = s.un := rfl
@[simp] theorem State.advance_gl (s : State) (n : Nat) : (s.advance n).gl = s.gl := rfl
@[simp] theorem State.advance_db (s : State) (n : Nat) : (s.advance n).db = s.db := rfl
@[simp] theorem State.advance_pod (s : State) (n : Nat) : (s.advance n).pod = s.pod := rfl
@[simp] theorem State.advance_pf (s : State) (n : Nat) : (s.advance n).pf = s.pf := rfl

@[simp] theorem State.setReg10_th (s : State) (r : Reg10) (v : Word) : (s.setReg10 r v).th = s.th := rfl
@[simp] theorem State.setReg10_others (s : State) (r : Reg10) (v : Word) : (s.setReg10 r v).others = s.others := rfl
@[simp] theorem State.setReg10_turns (s : State) (r : Reg10) (v : Word) : (s.setReg10 r v).turns = s.turns := rfl
@[simp] theorem State.setReg10_clk (s : State) (r : Reg10) (v : Word) : (s.setReg10 r v).clk = s.clk := rfl
@[simp] theorem State.setReg10_ms (s : State) (r : Reg10) (v : Word) : (s.setReg10 r v).ms = s.ms := rfl
@[simp] theorem State.setReg10_xl (s : State) (r : Reg10) (v : Word) : (s.setReg10 r v).xl = s.xl := rfl
@[simp] theorem State.setReg10_regs10 (s : State) (r : Reg10) (v : Word) : (s.setReg10 r v).regs10 = if v = reg10Reset r then unassoc s.regs10 r else assoc s.regs10 r v := rfl
@[simp] theorem State.setReg10_un (s : State) (r : Reg10) (v : Word) : (s.setReg10 r v).un = s.un := rfl
@[simp] theorem State.setReg10_gl (s : State) (r : Reg10) (v : Word) : (s.setReg10 r v).gl = s.gl := rfl
@[simp] theorem State.setReg10_db (s : State) (r : Reg10) (v : Word) : (s.setReg10 r v).db = s.db := rfl
@[simp] theorem State.setReg10_pod (s : State) (r : Reg10) (v : Word) : (s.setReg10 r v).pod = s.pod := rfl
@[simp] theorem State.setReg10_pf (s : State) (r : Reg10) (v : Word) : (s.setReg10 r v).pf = s.pf := rfl

@[simp] theorem State.modThread_th (s : State) (t : Tid) (f : Thread → Thread) : (s.modThread t f).th = if decide (s.th.tid = t) && decide (s.th.run ≠ .ended) then f s.th else s.th := rfl
@[simp] theorem State.modThread_others (s : State) (t : Tid) (f : Thread → Thread) : (s.modThread t f).others = setIn s.others t f := rfl
@[simp] theorem State.modThread_turns (s : State) (t : Tid) (f : Thread → Thread) : (s.modThread t f).turns = s.turns := rfl
@[simp] theorem State.modThread_clk (s : State) (t : Tid) (f : Thread → Thread) : (s.modThread t f).clk = s.clk := rfl
@[simp] theorem State.modThread_ms (s : State) (t : Tid) (f : Thread → Thread) : (s.modThread t f).ms = s.ms := rfl
@[simp] theorem State.modThread_xl (s : State) (t : Tid) (f : Thread → Thread) : (s.modThread t f).xl = s.xl := rfl
@[simp] theorem State.modThread_regs10 (s : State) (t : Tid) (f : Thread → Thread) : (s.modThread t f).regs10 = s.regs10 := rfl
@[simp] theorem State.modThread_un (s : State) (t : Tid) (f : Thread → Thread) : (s.modThread t f).un = s.un := rfl
@[simp] theorem State.modThread_gl (s : State) (t : Tid) (f : Thread → Thread) : (s.modThread t f).gl = s.gl := rfl
@[simp] theorem State.modThread_db (s : State) (t : Tid) (f : Thread → Thread) : (s.modThread t f).db = s.db := rfl
@[simp] theorem State.modThread_pod (s : State) (t : Tid) (f : Thread → Thread) : (s.modThread t f).pod = s.pod := rfl
@[simp] theorem State.modThread_pf (s : State) (t : Tid) (f : Thread → Thread) : (s.modThread t f).pf = s.pf := rfl

@[simp] theorem State.modStand_th (s : State) (id : Nat) (f : Stand → Stand) : (s.modStand id f).th = s.th := rfl
@[simp] theorem State.modStand_others (s : State) (id : Nat) (f : Stand → Stand) : (s.modStand id f).others = s.others := rfl
@[simp] theorem State.modStand_turns (s : State) (id : Nat) (f : Stand → Stand) : (s.modStand id f).turns = s.turns := rfl
@[simp] theorem State.modStand_clk (s : State) (id : Nat) (f : Stand → Stand) : (s.modStand id f).clk = s.clk := rfl
@[simp] theorem State.modStand_ms (s : State) (id : Nat) (f : Stand → Stand) : (s.modStand id f).ms = s.ms := rfl
@[simp] theorem State.modStand_xl (s : State) (id : Nat) (f : Stand → Stand) : (s.modStand id f).xl = s.xl := rfl
@[simp] theorem State.modStand_regs10 (s : State) (id : Nat) (f : Stand → Stand) : (s.modStand id f).regs10 = s.regs10 := rfl
@[simp] theorem State.modStand_un (s : State) (id : Nat) (f : Stand → Stand) : (s.modStand id f).un = s.un := rfl
@[simp] theorem State.modStand_gl (s : State) (id : Nat) (f : Stand → Stand) : (s.modStand id f).gl = { s.gl with stands := s.gl.stands.map fun st => if st.id = id then f st else st } := rfl
@[simp] theorem State.modStand_db (s : State) (id : Nat) (f : Stand → Stand) : (s.modStand id f).db = s.db := rfl
@[simp] theorem State.modStand_pod (s : State) (id : Nat) (f : Stand → Stand) : (s.modStand id f).pod = s.pod := rfl
@[simp] theorem State.modStand_pf (s : State) (id : Nat) (f : Stand → Stand) : (s.modStand id f).pf = s.pf := rfl

@[simp] theorem State.modJob_th (s : State) (id : Nat) (f : Job → Job) : (s.modJob id f).th = s.th := rfl
@[simp] theorem State.modJob_others (s : State) (id : Nat) (f : Job → Job) : (s.modJob id f).others = s.others := rfl
@[simp] theorem State.modJob_turns (s : State) (id : Nat) (f : Job → Job) : (s.modJob id f).turns = s.turns := rfl
@[simp] theorem State.modJob_clk (s : State) (id : Nat) (f : Job → Job) : (s.modJob id f).clk = s.clk := rfl
@[simp] theorem State.modJob_ms (s : State) (id : Nat) (f : Job → Job) : (s.modJob id f).ms = s.ms := rfl
@[simp] theorem State.modJob_xl (s : State) (id : Nat) (f : Job → Job) : (s.modJob id f).xl = s.xl := rfl
@[simp] theorem State.modJob_regs10 (s : State) (id : Nat) (f : Job → Job) : (s.modJob id f).regs10 = s.regs10 := rfl
@[simp] theorem State.modJob_un (s : State) (id : Nat) (f : Job → Job) : (s.modJob id f).un = s.un := rfl
@[simp] theorem State.modJob_gl (s : State) (id : Nat) (f : Job → Job) : (s.modJob id f).gl = { s.gl with jobs := s.gl.jobs.map fun j => if j.id = id then f j else j } := rfl
@[simp] theorem State.modJob_db (s : State) (id : Nat) (f : Job → Job) : (s.modJob id f).db = s.db := rfl
@[simp] theorem State.modJob_pod (s : State) (id : Nat) (f : Job → Job) : (s.modJob id f).pod = s.pod := rfl
@[simp] theorem State.modJob_pf (s : State) (id : Nat) (f : Job → Job) : (s.modJob id f).pf = s.pf := rfl

@[simp] theorem State.setQueue_th (s : State) (q : QueueSt) : (s.setQueue q).th = s.th := rfl
@[simp] theorem State.setQueue_others (s : State) (q : QueueSt) : (s.setQueue q).others = s.others := rfl
@[simp] theorem State.setQueue_turns (s : State) (q : QueueSt) : (s.setQueue q).turns = s.turns := rfl
@[simp] theorem State.setQueue_clk (s : State) (q : QueueSt) : (s.setQueue q).clk = s.clk := rfl
@[simp] theorem State.setQueue_ms (s : State) (q : QueueSt) : (s.setQueue q).ms = s.ms := rfl
@[simp] theorem State.setQueue_xl (s : State) (q : QueueSt) : (s.setQueue q).xl = s.xl := rfl
@[simp] theorem State.setQueue_regs10 (s : State) (q : QueueSt) : (s.setQueue q).regs10 = s.regs10 := rfl
@[simp] theorem State.setQueue_un (s : State) (q : QueueSt) : (s.setQueue q).un = s.un := rfl
@[simp] theorem State.setQueue_gl (s : State) (q : QueueSt) : (s.setQueue q).gl = { s.gl with queues := q.spent :: s.gl.queues.filter fun e => decide (e.queue ≠ q.queue) } := rfl
@[simp] theorem State.setQueue_db (s : State) (q : QueueSt) : (s.setQueue q).db = s.db := rfl
@[simp] theorem State.setQueue_pod (s : State) (q : QueueSt) : (s.setQueue q).pod = s.pod := rfl
@[simp] theorem State.setQueue_pf (s : State) (q : QueueSt) : (s.setQueue q).pf = s.pf := rfl

@[simp] theorem State.setTl_th (s : State) (t : Timeline) : (s.setTl t).th = s.th := rfl
@[simp] theorem State.setTl_others (s : State) (t : Timeline) : (s.setTl t).others = s.others := rfl
@[simp] theorem State.setTl_turns (s : State) (t : Timeline) : (s.setTl t).turns = s.turns := rfl
@[simp] theorem State.setTl_clk (s : State) (t : Timeline) : (s.setTl t).clk = s.clk := rfl
@[simp] theorem State.setTl_ms (s : State) (t : Timeline) : (s.setTl t).ms = s.ms := rfl
@[simp] theorem State.setTl_xl (s : State) (t : Timeline) : (s.setTl t).xl = s.xl := rfl
@[simp] theorem State.setTl_regs10 (s : State) (t : Timeline) : (s.setTl t).regs10 = s.regs10 := rfl
@[simp] theorem State.setTl_gl (s : State) (t : Timeline) : (s.setTl t).gl = s.gl := rfl
@[simp] theorem State.setTl_db (s : State) (t : Timeline) : (s.setTl t).db = s.db := rfl
@[simp] theorem State.setTl_pod (s : State) (t : Timeline) : (s.setTl t).pod = s.pod := rfl
@[simp] theorem State.setTl_pf (s : State) (t : Timeline) : (s.setTl t).pf = s.pf := rfl

@[simp] theorem State.modTile_th (s : State) (k : TileKey) (f : Tile → Tile) : (s.modTile k f).th = s.th := rfl
@[simp] theorem State.modTile_others (s : State) (k : TileKey) (f : Tile → Tile) : (s.modTile k f).others = s.others := rfl
@[simp] theorem State.modTile_turns (s : State) (k : TileKey) (f : Tile → Tile) : (s.modTile k f).turns = s.turns := rfl
@[simp] theorem State.modTile_clk (s : State) (k : TileKey) (f : Tile → Tile) : (s.modTile k f).clk = s.clk := rfl
@[simp] theorem State.modTile_ms (s : State) (k : TileKey) (f : Tile → Tile) : (s.modTile k f).ms = s.ms := rfl
@[simp] theorem State.modTile_xl (s : State) (k : TileKey) (f : Tile → Tile) : (s.modTile k f).xl = s.xl := rfl
@[simp] theorem State.modTile_regs10 (s : State) (k : TileKey) (f : Tile → Tile) : (s.modTile k f).regs10 = s.regs10 := rfl
@[simp] theorem State.modTile_gl (s : State) (k : TileKey) (f : Tile → Tile) : (s.modTile k f).gl = s.gl := rfl
@[simp] theorem State.modTile_db (s : State) (k : TileKey) (f : Tile → Tile) : (s.modTile k f).db = s.db := rfl
@[simp] theorem State.modTile_pod (s : State) (k : TileKey) (f : Tile → Tile) : (s.modTile k f).pod = s.pod := rfl
@[simp] theorem State.modTile_pf (s : State) (k : TileKey) (f : Tile → Tile) : (s.modTile k f).pf = s.pf := rfl

@[simp] theorem State.modCmd_th (s : State) (id : Nat) (f : Cmd → Cmd) : (s.modCmd id f).th = s.th := rfl
@[simp] theorem State.modCmd_others (s : State) (id : Nat) (f : Cmd → Cmd) : (s.modCmd id f).others = s.others := rfl
@[simp] theorem State.modCmd_turns (s : State) (id : Nat) (f : Cmd → Cmd) : (s.modCmd id f).turns = s.turns := rfl
@[simp] theorem State.modCmd_clk (s : State) (id : Nat) (f : Cmd → Cmd) : (s.modCmd id f).clk = s.clk := rfl
@[simp] theorem State.modCmd_ms (s : State) (id : Nat) (f : Cmd → Cmd) : (s.modCmd id f).ms = s.ms := rfl
@[simp] theorem State.modCmd_xl (s : State) (id : Nat) (f : Cmd → Cmd) : (s.modCmd id f).xl = s.xl := rfl
@[simp] theorem State.modCmd_regs10 (s : State) (id : Nat) (f : Cmd → Cmd) : (s.modCmd id f).regs10 = s.regs10 := rfl
@[simp] theorem State.modCmd_gl (s : State) (id : Nat) (f : Cmd → Cmd) : (s.modCmd id f).gl = s.gl := rfl
@[simp] theorem State.modCmd_db (s : State) (id : Nat) (f : Cmd → Cmd) : (s.modCmd id f).db = s.db := rfl
@[simp] theorem State.modCmd_pod (s : State) (id : Nat) (f : Cmd → Cmd) : (s.modCmd id f).pod = s.pod := rfl
@[simp] theorem State.modCmd_pf (s : State) (id : Nat) (f : Cmd → Cmd) : (s.modCmd id f).pf = s.pf := rfl

@[simp] theorem purgeMisses_th (s : State) : (purgeMisses s).th = s.th := rfl
@[simp] theorem purgeMisses_others (s : State) : (purgeMisses s).others = s.others := rfl
@[simp] theorem purgeMisses_turns (s : State) : (purgeMisses s).turns = s.turns := rfl
@[simp] theorem purgeMisses_clk (s : State) : (purgeMisses s).clk = s.clk := rfl
@[simp] theorem purgeMisses_ms (s : State) : (purgeMisses s).ms = s.ms := rfl
@[simp] theorem purgeMisses_regs10 (s : State) : (purgeMisses s).regs10 = s.regs10 := rfl
@[simp] theorem purgeMisses_un (s : State) : (purgeMisses s).un = s.un := rfl
@[simp] theorem purgeMisses_gl (s : State) : (purgeMisses s).gl = s.gl := rfl
@[simp] theorem purgeMisses_db (s : State) : (purgeMisses s).db = s.db := rfl
@[simp] theorem purgeMisses_pod (s : State) : (purgeMisses s).pod = s.pod := rfl
@[simp] theorem purgeMisses_pf (s : State) : (purgeMisses s).pf = s.pf := rfl
@[simp] theorem purgeMisses_xl (s : State) :
    (purgeMisses s).xl = { s.xl with missQ := s.xl.missQ.filter fun q => q.cmd.all fun i => s.un.cmds.any fun c => decide (c.id = i) } := rfl

@[simp] theorem State.dropCmd_th (s : State) (id : Nat) : (s.dropCmd id).th = s.th := rfl
@[simp] theorem State.dropCmd_others (s : State) (id : Nat) : (s.dropCmd id).others = s.others := rfl
@[simp] theorem State.dropCmd_turns (s : State) (id : Nat) : (s.dropCmd id).turns = s.turns := rfl
@[simp] theorem State.dropCmd_clk (s : State) (id : Nat) : (s.dropCmd id).clk = s.clk := rfl
@[simp] theorem State.dropCmd_ms (s : State) (id : Nat) : (s.dropCmd id).ms = s.ms := rfl
@[simp] theorem State.dropCmd_xl (s : State) (id : Nat) :
    (s.dropCmd id).xl = { s.xl with missQ := s.xl.missQ.filter fun q => q.cmd.all fun i => (s.dropCmd id).un.cmds.any fun c => decide (c.id = i) } := rfl
@[simp] theorem State.dropCmd_regs10 (s : State) (id : Nat) : (s.dropCmd id).regs10 = s.regs10 := rfl
@[simp] theorem State.dropCmd_un (s : State) (id : Nat) : (s.dropCmd id).un = { s.un with cmds := s.un.cmds.filter fun c => decide (c.id ≠ id) } := rfl
@[simp] theorem State.dropCmd_gl (s : State) (id : Nat) : (s.dropCmd id).gl = s.gl := rfl
@[simp] theorem State.dropCmd_db (s : State) (id : Nat) : (s.dropCmd id).db = s.db := rfl
@[simp] theorem State.dropCmd_pod (s : State) (id : Nat) : (s.dropCmd id).pod = s.pod := rfl
@[simp] theorem State.dropCmd_pf (s : State) (id : Nat) : (s.dropCmd id).pf = s.pf := rfl

@[simp] theorem State.modSession_th (s : State) (t : Tid) (f : Session → Session) : (s.modSession t f).th = s.th := rfl
@[simp] theorem State.modSession_others (s : State) (t : Tid) (f : Session → Session) : (s.modSession t f).others = s.others := rfl
@[simp] theorem State.modSession_turns (s : State) (t : Tid) (f : Session → Session) : (s.modSession t f).turns = s.turns := rfl
@[simp] theorem State.modSession_clk (s : State) (t : Tid) (f : Session → Session) : (s.modSession t f).clk = s.clk := rfl
@[simp] theorem State.modSession_ms (s : State) (t : Tid) (f : Session → Session) : (s.modSession t f).ms = s.ms := rfl
@[simp] theorem State.modSession_xl (s : State) (t : Tid) (f : Session → Session) : (s.modSession t f).xl = s.xl := rfl
@[simp] theorem State.modSession_regs10 (s : State) (t : Tid) (f : Session → Session) : (s.modSession t f).regs10 = s.regs10 := rfl
@[simp] theorem State.modSession_un (s : State) (t : Tid) (f : Session → Session) : (s.modSession t f).un = s.un := rfl
@[simp] theorem State.modSession_gl (s : State) (t : Tid) (f : Session → Session) : (s.modSession t f).gl = s.gl := rfl
@[simp] theorem State.modSession_db (s : State) (t : Tid) (f : Session → Session) : (s.modSession t f).db = { s.db with sessions := s.db.sessions.map fun e => if e.tid = t then f e else e } := rfl
@[simp] theorem State.modSession_pod (s : State) (t : Tid) (f : Session → Session) : (s.modSession t f).pod = s.pod := rfl
@[simp] theorem State.modSession_pf (s : State) (t : Tid) (f : Session → Session) : (s.modSession t f).pf = s.pf := rfl

@[simp] theorem State.setBarrier_th (s : State) (b : Barrier) : (s.setBarrier b).th = s.th := rfl
@[simp] theorem State.setBarrier_others (s : State) (b : Barrier) : (s.setBarrier b).others = s.others := rfl
@[simp] theorem State.setBarrier_turns (s : State) (b : Barrier) : (s.setBarrier b).turns = s.turns := rfl
@[simp] theorem State.setBarrier_clk (s : State) (b : Barrier) : (s.setBarrier b).clk = s.clk := rfl
@[simp] theorem State.setBarrier_ms (s : State) (b : Barrier) : (s.setBarrier b).ms = s.ms := rfl
@[simp] theorem State.setBarrier_xl (s : State) (b : Barrier) : (s.setBarrier b).xl = s.xl := rfl
@[simp] theorem State.setBarrier_regs10 (s : State) (b : Barrier) : (s.setBarrier b).regs10 = s.regs10 := rfl
@[simp] theorem State.setBarrier_gl (s : State) (b : Barrier) : (s.setBarrier b).gl = s.gl := rfl
@[simp] theorem State.setBarrier_db (s : State) (b : Barrier) : (s.setBarrier b).db = s.db := rfl
@[simp] theorem State.setBarrier_pod (s : State) (b : Barrier) : (s.setBarrier b).pod = s.pod := rfl
@[simp] theorem State.setBarrier_pf (s : State) (b : Barrier) : (s.setBarrier b).pf = s.pf := rfl

@[simp] theorem State.setBank_th (s : State) (a : AccBank) : (s.setBank a).th = s.th := rfl
@[simp] theorem State.setBank_others (s : State) (a : AccBank) : (s.setBank a).others = s.others := rfl
@[simp] theorem State.setBank_turns (s : State) (a : AccBank) : (s.setBank a).turns = s.turns := rfl
@[simp] theorem State.setBank_clk (s : State) (a : AccBank) : (s.setBank a).clk = s.clk := rfl
@[simp] theorem State.setBank_ms (s : State) (a : AccBank) : (s.setBank a).ms = s.ms := rfl
@[simp] theorem State.setBank_xl (s : State) (a : AccBank) : (s.setBank a).xl = s.xl := rfl
@[simp] theorem State.setBank_regs10 (s : State) (a : AccBank) : (s.setBank a).regs10 = s.regs10 := rfl
@[simp] theorem State.setBank_gl (s : State) (a : AccBank) : (s.setBank a).gl = s.gl := rfl
@[simp] theorem State.setBank_db (s : State) (a : AccBank) : (s.setBank a).db = s.db := rfl
@[simp] theorem State.setBank_pod (s : State) (a : AccBank) : (s.setBank a).pod = s.pod := rfl
@[simp] theorem State.setBank_pf (s : State) (a : AccBank) : (s.setBank a).pf = s.pf := rfl

@[simp] theorem State.modColl_th (s : State) (k : CollKey) (f : Instance → Instance) : (s.modColl k f).th = s.th := rfl
@[simp] theorem State.modColl_others (s : State) (k : CollKey) (f : Instance → Instance) : (s.modColl k f).others = s.others := rfl
@[simp] theorem State.modColl_turns (s : State) (k : CollKey) (f : Instance → Instance) : (s.modColl k f).turns = s.turns := rfl
@[simp] theorem State.modColl_clk (s : State) (k : CollKey) (f : Instance → Instance) : (s.modColl k f).clk = s.clk := rfl
@[simp] theorem State.modColl_ms (s : State) (k : CollKey) (f : Instance → Instance) : (s.modColl k f).ms = s.ms := rfl
@[simp] theorem State.modColl_xl (s : State) (k : CollKey) (f : Instance → Instance) : (s.modColl k f).xl = s.xl := rfl
@[simp] theorem State.modColl_regs10 (s : State) (k : CollKey) (f : Instance → Instance) : (s.modColl k f).regs10 = s.regs10 := rfl
@[simp] theorem State.modColl_un (s : State) (k : CollKey) (f : Instance → Instance) : (s.modColl k f).un = s.un := rfl
@[simp] theorem State.modColl_gl (s : State) (k : CollKey) (f : Instance → Instance) : (s.modColl k f).gl = s.gl := rfl
@[simp] theorem State.modColl_db (s : State) (k : CollKey) (f : Instance → Instance) : (s.modColl k f).db = s.db := rfl
@[simp] theorem State.modColl_pf (s : State) (k : CollKey) (f : Instance → Instance) : (s.modColl k f).pf = s.pf := rfl

@[simp] theorem setVeidx_th (s : State) (n : Nat) : (setVeidx s n).th = { s.th with vec := { s.th.vec with veidx := n } } := rfl
@[simp] theorem setVeidx_others (s : State) (n : Nat) : (setVeidx s n).others = s.others := rfl
@[simp] theorem setVeidx_turns (s : State) (n : Nat) : (setVeidx s n).turns = s.turns := rfl
@[simp] theorem setVeidx_clk (s : State) (n : Nat) : (setVeidx s n).clk = s.clk := rfl
@[simp] theorem setVeidx_ms (s : State) (n : Nat) : (setVeidx s n).ms = s.ms := rfl
@[simp] theorem setVeidx_xl (s : State) (n : Nat) : (setVeidx s n).xl = s.xl := rfl
@[simp] theorem setVeidx_regs10 (s : State) (n : Nat) : (setVeidx s n).regs10 = s.regs10 := rfl
@[simp] theorem setVeidx_un (s : State) (n : Nat) : (setVeidx s n).un = s.un := rfl
@[simp] theorem setVeidx_gl (s : State) (n : Nat) : (setVeidx s n).gl = s.gl := rfl
@[simp] theorem setVeidx_db (s : State) (n : Nat) : (setVeidx s n).db = s.db := rfl
@[simp] theorem setVeidx_pod (s : State) (n : Nat) : (setVeidx s n).pod = s.pod := rfl
@[simp] theorem setVeidx_pf (s : State) (n : Nat) : (setVeidx s n).pf = s.pf := rfl

@[simp] theorem elemDone_th (s : State) : (elemDone s).th = { s.th with pod := [] } := rfl
@[simp] theorem elemDone_others (s : State) : (elemDone s).others = s.others := rfl
@[simp] theorem elemDone_turns (s : State) : (elemDone s).turns = s.turns := rfl
@[simp] theorem elemDone_clk (s : State) : (elemDone s).clk = s.clk := rfl
@[simp] theorem elemDone_ms (s : State) : (elemDone s).ms = s.ms := rfl
@[simp] theorem elemDone_xl (s : State) : (elemDone s).xl = s.xl := rfl
@[simp] theorem elemDone_regs10 (s : State) : (elemDone s).regs10 = s.regs10 := rfl
@[simp] theorem elemDone_un (s : State) : (elemDone s).un = s.un := rfl
@[simp] theorem elemDone_gl (s : State) : (elemDone s).gl = s.gl := rfl
@[simp] theorem elemDone_db (s : State) : (elemDone s).db = s.db := rfl
@[simp] theorem elemDone_pod (s : State) : (elemDone s).pod = s.pod := rfl
@[simp] theorem elemDone_pf (s : State) : (elemDone s).pf = s.pf := rfl

@[simp] theorem countIssue_th (s : State) : (countIssue s).th = countMix { s.th with issues := s.th.issues + 1, mixN := s.th.mixN + 1, chainIn := none, chainOut := none } s.th.mixHnd := rfl
@[simp] theorem countIssue_others (s : State) : (countIssue s).others = s.others := rfl
@[simp] theorem countIssue_turns (s : State) : (countIssue s).turns = s.turns := rfl
@[simp] theorem countIssue_clk (s : State) : (countIssue s).clk = s.clk := rfl
@[simp] theorem countIssue_ms (s : State) : (countIssue s).ms = s.ms := rfl
@[simp] theorem countIssue_xl (s : State) : (countIssue s).xl = s.xl := rfl
@[simp] theorem countIssue_regs10 (s : State) : (countIssue s).regs10 = s.regs10 := rfl
@[simp] theorem countIssue_un (s : State) : (countIssue s).un = s.un := rfl
@[simp] theorem countIssue_gl (s : State) : (countIssue s).gl = s.gl := rfl
@[simp] theorem countIssue_db (s : State) : (countIssue s).db = s.db := rfl
@[simp] theorem countIssue_pod (s : State) : (countIssue s).pod = s.pod := rfl
@[simp] theorem countIssue_pf (s : State) : (countIssue s).pf = s.pf := rfl

end Sys2Proof.Machine
end

