-- ==== Sys2Proof/Laws/Thread.lean ====
section
/-! SUPPORT. The fields of a thread after each of the updates that instructions make. -/

namespace Sys2Proof.Machine

@[simp] theorem countMix_tid (t : Thread) (c : Nat) : (countMix t c).tid = t.tid := by unfold countMix; split <;> rfl
@[simp] theorem countMix_ctx (t : Thread) (c : Nat) : (countMix t c).ctx = t.ctx := by unfold countMix; split <;> rfl
@[simp] theorem countMix_csa (t : Thread) (c : Nat) : (countMix t c).csa = t.csa := by unfold countMix; split <;> rfl
@[simp] theorem countMix_place (t : Thread) (c : Nat) : (countMix t c).place = t.place := by unfold countMix; split <;> rfl
@[simp] theorem countMix_run (t : Thread) (c : Nat) : (countMix t c).run = t.run := by unfold countMix; split <;> rfl
@[simp] theorem countMix_pc (t : Thread) (c : Nat) : (countMix t c).pc = t.pc := by unfold countMix; split <;> rfl
@[simp] theorem countMix_x (t : Thread) (c : Nat) : (countMix t c).x = t.x := by unfold countMix; split <;> rfl
@[simp] theorem countMix_f (t : Thread) (c : Nat) : (countMix t c).f = t.f := by unfold countMix; split <;> rfl
@[simp] theorem countMix_status (t : Thread) (c : Nat) : (countMix t c).status = t.status := by unfold countMix; split <;> rfl
@[simp] theorem countMix_fflags (t : Thread) (c : Nat) : (countMix t c).fflags = t.fflags := by unfold countMix; split <;> rfl
@[simp] theorem countMix_rndmode (t : Thread) (c : Nat) : (countMix t c).rndmode = t.rndmode := by unfold countMix; split <;> rfl
@[simp] theorem countMix_dsrseed (t : Thread) (c : Nat) : (countMix t c).dsrseed = t.dsrseed := by unfold countMix; split <;> rfl
@[simp] theorem countMix_fmta (t : Thread) (c : Nat) : (countMix t c).fmta = t.fmta := by unfold countMix; split <;> rfl
@[simp] theorem countMix_fmtb (t : Thread) (c : Nat) : (countMix t c).fmtb = t.fmtb := by unfold countMix; split <;> rfl
@[simp] theorem countMix_scla (t : Thread) (c : Nat) : (countMix t c).scla = t.scla := by unfold countMix; split <;> rfl
@[simp] theorem countMix_sclb (t : Thread) (c : Nat) : (countMix t c).sclb = t.sclb := by unfold countMix; split <;> rfl
@[simp] theorem countMix_thandler (t : Thread) (c : Nat) : (countMix t c).thandler = t.thandler := by unfold countMix; split <;> rfl
@[simp] theorem countMix_thandlerEn (t : Thread) (c : Nat) : (countMix t c).thandlerEn = t.thandlerEn := by unfold countMix; split <;> rfl
@[simp] theorem countMix_tscratch (t : Thread) (c : Nat) : (countMix t c).tscratch = t.tscratch := by unfold countMix; split <;> rfl
@[simp] theorem countMix_tcause (t : Thread) (c : Nat) : (countMix t c).tcause = t.tcause := by unfold countMix; split <;> rfl
@[simp] theorem countMix_tepc (t : Thread) (c : Nat) : (countMix t c).tepc = t.tepc := by unfold countMix; split <;> rfl
@[simp] theorem countMix_tval (t : Thread) (c : Nat) : (countMix t c).tval = t.tval := by unfold countMix; split <;> rfl
@[simp] theorem countMix_tmicro (t : Thread) (c : Nat) : (countMix t c).tmicro = t.tmicro := by unfold countMix; split <;> rfl
@[simp] theorem countMix_profctl (t : Thread) (c : Nat) : (countMix t c).profctl = t.profctl := by unfold countMix; split <;> rfl
@[simp] theorem countMix_vec (t : Thread) (c : Nat) : (countMix t c).vec = t.vec := by unfold countMix; split <;> rfl
@[simp] theorem countMix_traps (t : Thread) (c : Nat) : (countMix t c).traps = t.traps := by unfold countMix; split <;> rfl
@[simp] theorem countMix_issues (t : Thread) (c : Nat) : (countMix t c).issues = t.issues := by unfold countMix; split <;> rfl
@[simp] theorem countMix_rxq (t : Thread) (c : Nat) : (countMix t c).rxq = t.rxq := by unfold countMix; split <;> rfl
@[simp] theorem countMix_held (t : Thread) (c : Nat) : (countMix t c).held = t.held := by unfold countMix; split <;> rfl
@[simp] theorem countMix_pfx (t : Thread) (c : Nat) : (countMix t c).pfx = t.pfx := by unfold countMix; split <;> rfl
@[simp] theorem countMix_succ (t : Thread) (c : Nat) : (countMix t c).succ = t.succ := by unfold countMix; split <;> rfl
@[simp] theorem countMix_ibits (t : Thread) (c : Nat) : (countMix t c).ibits = t.ibits := by unfold countMix; split <;> rfl
@[simp] theorem countMix_chainIn (t : Thread) (c : Nat) : (countMix t c).chainIn = t.chainIn := by unfold countMix; split <;> rfl
@[simp] theorem countMix_chainOut (t : Thread) (c : Nat) : (countMix t c).chainOut = t.chainOut := by unfold countMix; split <;> rfl
@[simp] theorem countMix_pod (t : Thread) (c : Nat) : (countMix t c).pod = t.pod := by unfold countMix; split <;> rfl
@[simp] theorem countMix_expired (t : Thread) (c : Nat) : (countMix t c).expired = t.expired := by unfold countMix; split <;> rfl
@[simp] theorem countMix_dauAhead (t : Thread) (c : Nat) : (countMix t c).dauAhead = t.dauAhead := by unfold countMix; split <;> rfl
@[simp] theorem countMix_dauPc (t : Thread) (c : Nat) : (countMix t c).dauPc = t.dauPc := by unfold countMix; split <;> rfl
@[simp] theorem countMix_tspill (t : Thread) (c : Nat) : (countMix t c).tspill = t.tspill := by unfold countMix; split <;> rfl
@[simp] theorem countMix_vspill (t : Thread) (c : Nat) : (countMix t c).vspill = t.vspill := by unfold countMix; split <;> rfl
@[simp] theorem countMix_owed (t : Thread) (c : Nat) : (countMix t c).owed = t.owed := by unfold countMix; split <;> rfl
@[simp] theorem countMix_ndisc (t : Thread) (c : Nat) : (countMix t c).ndisc = t.ndisc := by unfold countMix; split <;> rfl
@[simp] theorem countMix_sum (t : Thread) (c : Nat) : (countMix t c).sum = t.sum := by unfold countMix; split <;> rfl
@[simp] theorem countMix_req (t : Thread) (c : Nat) : (countMix t c).req = t.req := by unfold countMix; split <;> rfl
@[simp] theorem countMix_mixN (t : Thread) (c : Nat) : (countMix t c).mixN = t.mixN := by unfold countMix; split <;> rfl
@[simp] theorem countMix_mixWin (t : Thread) (c : Nat) : (countMix t c).mixWin = t.mixWin := by unfold countMix; split <;> rfl
@[simp] theorem countMix_mixHnd (t : Thread) (c : Nat) : (countMix t c).mixHnd = t.mixHnd := by unfold countMix; split <;> rfl
@[simp] theorem countMix_endKind (t : Thread) (c : Nat) : (countMix t c).endKind = t.endKind := by unfold countMix; split <;> rfl
@[simp] theorem countMix_sendsOut (t : Thread) (c : Nat) : (countMix t c).sendsOut = t.sendsOut := by unfold countMix; split <;> rfl
@[simp] theorem countMix_collIssued (t : Thread) (c : Nat) : (countMix t c).collIssued = t.collIssued := by unfold countMix; split <;> rfl
@[simp] theorem countMix_supPending (t : Thread) (c : Nat) : (countMix t c).supPending = t.supPending := by unfold countMix; split <;> rfl
@[simp] theorem countMix_waitStamp (t : Thread) (c : Nat) : (countMix t c).waitStamp = t.waitStamp := by unfold countMix; split <;> rfl
@[simp] theorem countMix_micro (t : Thread) (c : Nat) : (countMix t c).micro = t.micro := by unfold countMix; split <;> rfl

@[simp] theorem writeX_tid (t : Thread) (r : Reg) (v : Word) : (writeX t r v).tid = t.tid := by unfold writeX; split; rfl; split <;> rfl
@[simp] theorem writeX_ctx (t : Thread) (r : Reg) (v : Word) : (writeX t r v).ctx = t.ctx := by unfold writeX; split; rfl; split <;> rfl
@[simp] theorem writeX_csa (t : Thread) (r : Reg) (v : Word) : (writeX t r v).csa = t.csa := by unfold writeX; split; rfl; split <;> rfl
@[simp] theorem writeX_place (t : Thread) (r : Reg) (v : Word) : (writeX t r v).place = t.place := by unfold writeX; split; rfl; split <;> rfl
@[simp] theorem writeX_run (t : Thread) (r : Reg) (v : Word) : (writeX t r v).run = t.run := by unfold writeX; split; rfl; split <;> rfl
@[simp] theorem writeX_pc (t : Thread) (r : Reg) (v : Word) : (writeX t r v).pc = t.pc := by unfold writeX; split; rfl; split <;> rfl
@[simp] theorem writeX_f (t : Thread) (r : Reg) (v : Word) : (writeX t r v).f = t.f := by unfold writeX; split; rfl; split <;> rfl
@[simp] theorem writeX_status (t : Thread) (r : Reg) (v : Word) : (writeX t r v).status = t.status := by unfold writeX; split; rfl; split <;> rfl
@[simp] theorem writeX_fflags (t : Thread) (r : Reg) (v : Word) : (writeX t r v).fflags = t.fflags := by unfold writeX; split; rfl; split <;> rfl
@[simp] theorem writeX_rndmode (t : Thread) (r : Reg) (v : Word) : (writeX t r v).rndmode = t.rndmode := by unfold writeX; split; rfl; split <;> rfl
@[simp] theorem writeX_dsrseed (t : Thread) (r : Reg) (v : Word) : (writeX t r v).dsrseed = t.dsrseed := by unfold writeX; split; rfl; split <;> rfl
@[simp] theorem writeX_fmta (t : Thread) (r : Reg) (v : Word) : (writeX t r v).fmta = t.fmta := by unfold writeX; split; rfl; split <;> rfl
@[simp] theorem writeX_fmtb (t : Thread) (r : Reg) (v : Word) : (writeX t r v).fmtb = t.fmtb := by unfold writeX; split; rfl; split <;> rfl
@[simp] theorem writeX_scla (t : Thread) (r : Reg) (v : Word) : (writeX t r v).scla = t.scla := by unfold writeX; split; rfl; split <;> rfl
@[simp] theorem writeX_sclb (t : Thread) (r : Reg) (v : Word) : (writeX t r v).sclb = t.sclb := by unfold writeX; split; rfl; split <;> rfl
@[simp] theorem writeX_thandler (t : Thread) (r : Reg) (v : Word) : (writeX t r v).thandler = t.thandler := by unfold writeX; split; rfl; split <;> rfl
@[simp] theorem writeX_thandlerEn (t : Thread) (r : Reg) (v : Word) : (writeX t r v).thandlerEn = t.thandlerEn := by unfold writeX; split; rfl; split <;> rfl
@[simp] theorem writeX_tscratch (t : Thread) (r : Reg) (v : Word) : (writeX t r v).tscratch = t.tscratch := by unfold writeX; split; rfl; split <;> rfl
@[simp] theorem writeX_tcause (t : Thread) (r : Reg) (v : Word) : (writeX t r v).tcause = t.tcause := by unfold writeX; split; rfl; split <;> rfl
@[simp] theorem writeX_tepc (t : Thread) (r : Reg) (v : Word) : (writeX t r v).tepc = t.tepc := by unfold writeX; split; rfl; split <;> rfl
@[simp] theorem writeX_tval (t : Thread) (r : Reg) (v : Word) : (writeX t r v).tval = t.tval := by unfold writeX; split; rfl; split <;> rfl
@[simp] theorem writeX_tmicro (t : Thread) (r : Reg) (v : Word) : (writeX t r v).tmicro = t.tmicro := by unfold writeX; split; rfl; split <;> rfl
@[simp] theorem writeX_profctl (t : Thread) (r : Reg) (v : Word) : (writeX t r v).profctl = t.profctl := by unfold writeX; split; rfl; split <;> rfl
@[simp] theorem writeX_vec (t : Thread) (r : Reg) (v : Word) : (writeX t r v).vec = t.vec := by unfold writeX; split; rfl; split <;> rfl
@[simp] theorem writeX_traps (t : Thread) (r : Reg) (v : Word) : (writeX t r v).traps = t.traps := by unfold writeX; split; rfl; split <;> rfl
@[simp] theorem writeX_issues (t : Thread) (r : Reg) (v : Word) : (writeX t r v).issues = t.issues := by unfold writeX; split; rfl; split <;> rfl
@[simp] theorem writeX_rxq (t : Thread) (r : Reg) (v : Word) : (writeX t r v).rxq = t.rxq := by unfold writeX; split; rfl; split <;> rfl
@[simp] theorem writeX_held (t : Thread) (r : Reg) (v : Word) : (writeX t r v).held = t.held := by unfold writeX; split; rfl; split <;> rfl
@[simp] theorem writeX_pfx (t : Thread) (r : Reg) (v : Word) : (writeX t r v).pfx = t.pfx := by unfold writeX; split; rfl; split <;> rfl
@[simp] theorem writeX_succ (t : Thread) (r : Reg) (v : Word) : (writeX t r v).succ = t.succ := by unfold writeX; split; rfl; split <;> rfl
@[simp] theorem writeX_ibits (t : Thread) (r : Reg) (v : Word) : (writeX t r v).ibits = t.ibits := by unfold writeX; split; rfl; split <;> rfl
@[simp] theorem writeX_chainIn (t : Thread) (r : Reg) (v : Word) : (writeX t r v).chainIn = t.chainIn := by unfold writeX; split; rfl; split <;> rfl
@[simp] theorem writeX_pod (t : Thread) (r : Reg) (v : Word) : (writeX t r v).pod = t.pod := by unfold writeX; split; rfl; split <;> rfl
@[simp] theorem writeX_expired (t : Thread) (r : Reg) (v : Word) : (writeX t r v).expired = t.expired := by unfold writeX; split; rfl; split <;> rfl
@[simp] theorem writeX_dauAhead (t : Thread) (r : Reg) (v : Word) : (writeX t r v).dauAhead = t.dauAhead := by unfold writeX; split; rfl; split <;> rfl
@[simp] theorem writeX_dauPc (t : Thread) (r : Reg) (v : Word) : (writeX t r v).dauPc = t.dauPc := by unfold writeX; split; rfl; split <;> rfl
@[simp] theorem writeX_tspill (t : Thread) (r : Reg) (v : Word) : (writeX t r v).tspill = t.tspill := by unfold writeX; split; rfl; split <;> rfl
@[simp] theorem writeX_vspill (t : Thread) (r : Reg) (v : Word) : (writeX t r v).vspill = t.vspill := by unfold writeX; split; rfl; split <;> rfl
@[simp] theorem writeX_owed (t : Thread) (r : Reg) (v : Word) : (writeX t r v).owed = t.owed := by unfold writeX; split; rfl; split <;> rfl
@[simp] theorem writeX_ndisc (t : Thread) (r : Reg) (v : Word) : (writeX t r v).ndisc = t.ndisc := by unfold writeX; split; rfl; split <;> rfl
@[simp] theorem writeX_sum (t : Thread) (r : Reg) (v : Word) : (writeX t r v).sum = t.sum := by unfold writeX; split; rfl; split <;> rfl
@[simp] theorem writeX_req (t : Thread) (r : Reg) (v : Word) : (writeX t r v).req = t.req := by unfold writeX; split; rfl; split <;> rfl
@[simp] theorem writeX_mixN (t : Thread) (r : Reg) (v : Word) : (writeX t r v).mixN = t.mixN := by unfold writeX; split; rfl; split <;> rfl
@[simp] theorem writeX_mixC (t : Thread) (r : Reg) (v : Word) : (writeX t r v).mixC = t.mixC := by unfold writeX; split; rfl; split <;> rfl
@[simp] theorem writeX_mixV (t : Thread) (r : Reg) (v : Word) : (writeX t r v).mixV = t.mixV := by unfold writeX; split; rfl; split <;> rfl
@[simp] theorem writeX_mixT (t : Thread) (r : Reg) (v : Word) : (writeX t r v).mixT = t.mixT := by unfold writeX; split; rfl; split <;> rfl
@[simp] theorem writeX_mixWin (t : Thread) (r : Reg) (v : Word) : (writeX t r v).mixWin = t.mixWin := by unfold writeX; split; rfl; split <;> rfl
@[simp] theorem writeX_mixHnd (t : Thread) (r : Reg) (v : Word) : (writeX t r v).mixHnd = t.mixHnd := by unfold writeX; split; rfl; split <;> rfl
@[simp] theorem writeX_endKind (t : Thread) (r : Reg) (v : Word) : (writeX t r v).endKind = t.endKind := by unfold writeX; split; rfl; split <;> rfl
@[simp] theorem writeX_sendsOut (t : Thread) (r : Reg) (v : Word) : (writeX t r v).sendsOut = t.sendsOut := by unfold writeX; split; rfl; split <;> rfl
@[simp] theorem writeX_collIssued (t : Thread) (r : Reg) (v : Word) : (writeX t r v).collIssued = t.collIssued := by unfold writeX; split; rfl; split <;> rfl
@[simp] theorem writeX_supPending (t : Thread) (r : Reg) (v : Word) : (writeX t r v).supPending = t.supPending := by unfold writeX; split; rfl; split <;> rfl
@[simp] theorem writeX_waitStamp (t : Thread) (r : Reg) (v : Word) : (writeX t r v).waitStamp = t.waitStamp := by unfold writeX; split; rfl; split <;> rfl
@[simp] theorem writeX_micro (t : Thread) (r : Reg) (v : Word) : (writeX t r v).micro = t.micro := by unfold writeX; split; rfl; split <;> rfl

@[simp] theorem writeF_tid (t : Thread) (r : Reg) (v : Word) : (writeF t r v).tid = t.tid := rfl
@[simp] theorem writeF_ctx (t : Thread) (r : Reg) (v : Word) : (writeF t r v).ctx = t.ctx := rfl
@[simp] theorem writeF_csa (t : Thread) (r : Reg) (v : Word) : (writeF t r v).csa = t.csa := rfl
@[simp] theorem writeF_place (t : Thread) (r : Reg) (v : Word) : (writeF t r v).place = t.place := rfl
@[simp] theorem writeF_run (t : Thread) (r : Reg) (v : Word) : (writeF t r v).run = t.run := rfl
@[simp] theorem writeF_pc (t : Thread) (r : Reg) (v : Word) : (writeF t r v).pc = t.pc := rfl
@[simp] theorem writeF_x (t : Thread) (r : Reg) (v : Word) : (writeF t r v).x = t.x := rfl
@[simp] theorem writeF_fflags (t : Thread) (r : Reg) (v : Word) : (writeF t r v).fflags = t.fflags := rfl
@[simp] theorem writeF_rndmode (t : Thread) (r : Reg) (v : Word) : (writeF t r v).rndmode = t.rndmode := rfl
@[simp] theorem writeF_dsrseed (t : Thread) (r : Reg) (v : Word) : (writeF t r v).dsrseed = t.dsrseed := rfl
@[simp] theorem writeF_fmta (t : Thread) (r : Reg) (v : Word) : (writeF t r v).fmta = t.fmta := rfl
@[simp] theorem writeF_fmtb (t : Thread) (r : Reg) (v : Word) : (writeF t r v).fmtb = t.fmtb := rfl
@[simp] theorem writeF_scla (t : Thread) (r : Reg) (v : Word) : (writeF t r v).scla = t.scla := rfl
@[simp] theorem writeF_sclb (t : Thread) (r : Reg) (v : Word) : (writeF t r v).sclb = t.sclb := rfl
@[simp] theorem writeF_thandler (t : Thread) (r : Reg) (v : Word) : (writeF t r v).thandler = t.thandler := rfl
@[simp] theorem writeF_thandlerEn (t : Thread) (r : Reg) (v : Word) : (writeF t r v).thandlerEn = t.thandlerEn := rfl
@[simp] theorem writeF_tscratch (t : Thread) (r : Reg) (v : Word) : (writeF t r v).tscratch = t.tscratch := rfl
@[simp] theorem writeF_tcause (t : Thread) (r : Reg) (v : Word) : (writeF t r v).tcause = t.tcause := rfl
@[simp] theorem writeF_tepc (t : Thread) (r : Reg) (v : Word) : (writeF t r v).tepc = t.tepc := rfl
@[simp] theorem writeF_tval (t : Thread) (r : Reg) (v : Word) : (writeF t r v).tval = t.tval := rfl
@[simp] theorem writeF_tmicro (t : Thread) (r : Reg) (v : Word) : (writeF t r v).tmicro = t.tmicro := rfl
@[simp] theorem writeF_profctl (t : Thread) (r : Reg) (v : Word) : (writeF t r v).profctl = t.profctl := rfl
@[simp] theorem writeF_vec (t : Thread) (r : Reg) (v : Word) : (writeF t r v).vec = t.vec := rfl
@[simp] theorem writeF_traps (t : Thread) (r : Reg) (v : Word) : (writeF t r v).traps = t.traps := rfl
@[simp] theorem writeF_issues (t : Thread) (r : Reg) (v : Word) : (writeF t r v).issues = t.issues := rfl
@[simp] theorem writeF_rxq (t : Thread) (r : Reg) (v : Word) : (writeF t r v).rxq = t.rxq := rfl
@[simp] theorem writeF_held (t : Thread) (r : Reg) (v : Word) : (writeF t r v).held = t.held := rfl
@[simp] theorem writeF_pfx (t : Thread) (r : Reg) (v : Word) : (writeF t r v).pfx = t.pfx := rfl
@[simp] theorem writeF_succ (t : Thread) (r : Reg) (v : Word) : (writeF t r v).succ = t.succ := rfl
@[simp] theorem writeF_ibits (t : Thread) (r : Reg) (v : Word) : (writeF t r v).ibits = t.ibits := rfl
@[simp] theorem writeF_chainIn (t : Thread) (r : Reg) (v : Word) : (writeF t r v).chainIn = t.chainIn := rfl
@[simp] theorem writeF_chainOut (t : Thread) (r : Reg) (v : Word) : (writeF t r v).chainOut = t.chainOut := rfl
@[simp] theorem writeF_pod (t : Thread) (r : Reg) (v : Word) : (writeF t r v).pod = t.pod := rfl
@[simp] theorem writeF_expired (t : Thread) (r : Reg) (v : Word) : (writeF t r v).expired = t.expired := rfl
@[simp] theorem writeF_dauAhead (t : Thread) (r : Reg) (v : Word) : (writeF t r v).dauAhead = t.dauAhead := rfl
@[simp] theorem writeF_dauPc (t : Thread) (r : Reg) (v : Word) : (writeF t r v).dauPc = t.dauPc := rfl
@[simp] theorem writeF_tspill (t : Thread) (r : Reg) (v : Word) : (writeF t r v).tspill = t.tspill := rfl
@[simp] theorem writeF_vspill (t : Thread) (r : Reg) (v : Word) : (writeF t r v).vspill = t.vspill := rfl
@[simp] theorem writeF_owed (t : Thread) (r : Reg) (v : Word) : (writeF t r v).owed = t.owed := rfl
@[simp] theorem writeF_ndisc (t : Thread) (r : Reg) (v : Word) : (writeF t r v).ndisc = t.ndisc := rfl
@[simp] theorem writeF_sum (t : Thread) (r : Reg) (v : Word) : (writeF t r v).sum = t.sum := rfl
@[simp] theorem writeF_req (t : Thread) (r : Reg) (v : Word) : (writeF t r v).req = t.req := rfl
@[simp] theorem writeF_mixN (t : Thread) (r : Reg) (v : Word) : (writeF t r v).mixN = t.mixN := rfl
@[simp] theorem writeF_mixC (t : Thread) (r : Reg) (v : Word) : (writeF t r v).mixC = t.mixC := rfl
@[simp] theorem writeF_mixV (t : Thread) (r : Reg) (v : Word) : (writeF t r v).mixV = t.mixV := rfl
@[simp] theorem writeF_mixT (t : Thread) (r : Reg) (v : Word) : (writeF t r v).mixT = t.mixT := rfl
@[simp] theorem writeF_mixWin (t : Thread) (r : Reg) (v : Word) : (writeF t r v).mixWin = t.mixWin := rfl
@[simp] theorem writeF_mixHnd (t : Thread) (r : Reg) (v : Word) : (writeF t r v).mixHnd = t.mixHnd := rfl
@[simp] theorem writeF_endKind (t : Thread) (r : Reg) (v : Word) : (writeF t r v).endKind = t.endKind := rfl
@[simp] theorem writeF_sendsOut (t : Thread) (r : Reg) (v : Word) : (writeF t r v).sendsOut = t.sendsOut := rfl
@[simp] theorem writeF_collIssued (t : Thread) (r : Reg) (v : Word) : (writeF t r v).collIssued = t.collIssued := rfl
@[simp] theorem writeF_supPending (t : Thread) (r : Reg) (v : Word) : (writeF t r v).supPending = t.supPending := rfl
@[simp] theorem writeF_waitStamp (t : Thread) (r : Reg) (v : Word) : (writeF t r v).waitStamp = t.waitStamp := rfl
@[simp] theorem writeF_micro (t : Thread) (r : Reg) (v : Word) : (writeF t r v).micro = t.micro := rfl

@[simp] theorem writeV_tid (t : Thread) (r : Reg) (v : VReg) : (writeV t r v).tid = t.tid := rfl
@[simp] theorem writeV_ctx (t : Thread) (r : Reg) (v : VReg) : (writeV t r v).ctx = t.ctx := rfl
@[simp] theorem writeV_csa (t : Thread) (r : Reg) (v : VReg) : (writeV t r v).csa = t.csa := rfl
@[simp] theorem writeV_place (t : Thread) (r : Reg) (v : VReg) : (writeV t r v).place = t.place := rfl
@[simp] theorem writeV_run (t : Thread) (r : Reg) (v : VReg) : (writeV t r v).run = t.run := rfl
@[simp] theorem writeV_pc (t : Thread) (r : Reg) (v : VReg) : (writeV t r v).pc = t.pc := rfl
@[simp] theorem writeV_x (t : Thread) (r : Reg) (v : VReg) : (writeV t r v).x = t.x := rfl
@[simp] theorem writeV_f (t : Thread) (r : Reg) (v : VReg) : (writeV t r v).f = t.f := rfl
@[simp] theorem writeV_status (t : Thread) (r : Reg) (v : VReg) : (writeV t r v).status = t.status := rfl
@[simp] theorem writeV_fflags (t : Thread) (r : Reg) (v : VReg) : (writeV t r v).fflags = t.fflags := rfl
@[simp] theorem writeV_rndmode (t : Thread) (r : Reg) (v : VReg) : (writeV t r v).rndmode = t.rndmode := rfl
@[simp] theorem writeV_dsrseed (t : Thread) (r : Reg) (v : VReg) : (writeV t r v).dsrseed = t.dsrseed := rfl
@[simp] theorem writeV_fmta (t : Thread) (r : Reg) (v : VReg) : (writeV t r v).fmta = t.fmta := rfl
@[simp] theorem writeV_fmtb (t : Thread) (r : Reg) (v : VReg) : (writeV t r v).fmtb = t.fmtb := rfl
@[simp] theorem writeV_scla (t : Thread) (r : Reg) (v : VReg) : (writeV t r v).scla = t.scla := rfl
@[simp] theorem writeV_sclb (t : Thread) (r : Reg) (v : VReg) : (writeV t r v).sclb = t.sclb := rfl
@[simp] theorem writeV_thandler (t : Thread) (r : Reg) (v : VReg) : (writeV t r v).thandler = t.thandler := rfl
@[simp] theorem writeV_thandlerEn (t : Thread) (r : Reg) (v : VReg) : (writeV t r v).thandlerEn = t.thandlerEn := rfl
@[simp] theorem writeV_tscratch (t : Thread) (r : Reg) (v : VReg) : (writeV t r v).tscratch = t.tscratch := rfl
@[simp] theorem writeV_tcause (t : Thread) (r : Reg) (v : VReg) : (writeV t r v).tcause = t.tcause := rfl
@[simp] theorem writeV_tepc (t : Thread) (r : Reg) (v : VReg) : (writeV t r v).tepc = t.tepc := rfl
@[simp] theorem writeV_tval (t : Thread) (r : Reg) (v : VReg) : (writeV t r v).tval = t.tval := rfl
@[simp] theorem writeV_tmicro (t : Thread) (r : Reg) (v : VReg) : (writeV t r v).tmicro = t.tmicro := rfl
@[simp] theorem writeV_profctl (t : Thread) (r : Reg) (v : VReg) : (writeV t r v).profctl = t.profctl := rfl
@[simp] theorem writeV_traps (t : Thread) (r : Reg) (v : VReg) : (writeV t r v).traps = t.traps := rfl
@[simp] theorem writeV_issues (t : Thread) (r : Reg) (v : VReg) : (writeV t r v).issues = t.issues := rfl
@[simp] theorem writeV_rxq (t : Thread) (r : Reg) (v : VReg) : (writeV t r v).rxq = t.rxq := rfl
@[simp] theorem writeV_held (t : Thread) (r : Reg) (v : VReg) : (writeV t r v).held = t.held := rfl
@[simp] theorem writeV_pfx (t : Thread) (r : Reg) (v : VReg) : (writeV t r v).pfx = t.pfx := rfl
@[simp] theorem writeV_succ (t : Thread) (r : Reg) (v : VReg) : (writeV t r v).succ = t.succ := rfl
@[simp] theorem writeV_ibits (t : Thread) (r : Reg) (v : VReg) : (writeV t r v).ibits = t.ibits := rfl
@[simp] theorem writeV_chainIn (t : Thread) (r : Reg) (v : VReg) : (writeV t r v).chainIn = t.chainIn := rfl
@[simp] theorem writeV_chainOut (t : Thread) (r : Reg) (v : VReg) : (writeV t r v).chainOut = t.chainOut := rfl
@[simp] theorem writeV_pod (t : Thread) (r : Reg) (v : VReg) : (writeV t r v).pod = t.pod := rfl
@[simp] theorem writeV_expired (t : Thread) (r : Reg) (v : VReg) : (writeV t r v).expired = t.expired := rfl
@[simp] theorem writeV_dauAhead (t : Thread) (r : Reg) (v : VReg) : (writeV t r v).dauAhead = t.dauAhead := rfl
@[simp] theorem writeV_dauPc (t : Thread) (r : Reg) (v : VReg) : (writeV t r v).dauPc = t.dauPc := rfl
@[simp] theorem writeV_tspill (t : Thread) (r : Reg) (v : VReg) : (writeV t r v).tspill = t.tspill := rfl
@[simp] theorem writeV_vspill (t : Thread) (r : Reg) (v : VReg) : (writeV t r v).vspill = t.vspill := rfl
@[simp] theorem writeV_owed (t : Thread) (r : Reg) (v : VReg) : (writeV t r v).owed = t.owed := rfl
@[simp] theorem writeV_ndisc (t : Thread) (r : Reg) (v : VReg) : (writeV t r v).ndisc = t.ndisc := rfl
@[simp] theorem writeV_sum (t : Thread) (r : Reg) (v : VReg) : (writeV t r v).sum = t.sum := rfl
@[simp] theorem writeV_req (t : Thread) (r : Reg) (v : VReg) : (writeV t r v).req = t.req := rfl
@[simp] theorem writeV_mixN (t : Thread) (r : Reg) (v : VReg) : (writeV t r v).mixN = t.mixN := rfl
@[simp] theorem writeV_mixC (t : Thread) (r : Reg) (v : VReg) : (writeV t r v).mixC = t.mixC := rfl
@[simp] theorem writeV_mixV (t : Thread) (r : Reg) (v : VReg) : (writeV t r v).mixV = t.mixV := rfl
@[simp] theorem writeV_mixT (t : Thread) (r : Reg) (v : VReg) : (writeV t r v).mixT = t.mixT := rfl
@[simp] theorem writeV_mixWin (t : Thread) (r : Reg) (v : VReg) : (writeV t r v).mixWin = t.mixWin := rfl
@[simp] theorem writeV_mixHnd (t : Thread) (r : Reg) (v : VReg) : (writeV t r v).mixHnd = t.mixHnd := rfl
@[simp] theorem writeV_endKind (t : Thread) (r : Reg) (v : VReg) : (writeV t r v).endKind = t.endKind := rfl
@[simp] theorem writeV_sendsOut (t : Thread) (r : Reg) (v : VReg) : (writeV t r v).sendsOut = t.sendsOut := rfl
@[simp] theorem writeV_collIssued (t : Thread) (r : Reg) (v : VReg) : (writeV t r v).collIssued = t.collIssued := rfl
@[simp] theorem writeV_supPending (t : Thread) (r : Reg) (v : VReg) : (writeV t r v).supPending = t.supPending := rfl
@[simp] theorem writeV_waitStamp (t : Thread) (r : Reg) (v : VReg) : (writeV t r v).waitStamp = t.waitStamp := rfl
@[simp] theorem writeV_micro (t : Thread) (r : Reg) (v : VReg) : (writeV t r v).micro = t.micro := rfl

@[simp] theorem clearLatches_tid (t : Thread) : (clearLatches t).tid = t.tid := rfl
@[simp] theorem clearLatches_ctx (t : Thread) : (clearLatches t).ctx = t.ctx := rfl
@[simp] theorem clearLatches_csa (t : Thread) : (clearLatches t).csa = t.csa := rfl
@[simp] theorem clearLatches_place (t : Thread) : (clearLatches t).place = t.place := rfl
@[simp] theorem clearLatches_run (t : Thread) : (clearLatches t).run = t.run := rfl
@[simp] theorem clearLatches_pc (t : Thread) : (clearLatches t).pc = t.pc := rfl
@[simp] theorem clearLatches_x (t : Thread) : (clearLatches t).x = t.x := rfl
@[simp] theorem clearLatches_f (t : Thread) : (clearLatches t).f = t.f := rfl
@[simp] theorem clearLatches_status (t : Thread) : (clearLatches t).status = t.status := rfl
@[simp] theorem clearLatches_fflags (t : Thread) : (clearLatches t).fflags = t.fflags := rfl
@[simp] theorem clearLatches_rndmode (t : Thread) : (clearLatches t).rndmode = t.rndmode := rfl
@[simp] theorem clearLatches_dsrseed (t : Thread) : (clearLatches t).dsrseed = t.dsrseed := rfl
@[simp] theorem clearLatches_fmta (t : Thread) : (clearLatches t).fmta = t.fmta := rfl
@[simp] theorem clearLatches_fmtb (t : Thread) : (clearLatches t).fmtb = t.fmtb := rfl
@[simp] theorem clearLatches_scla (t : Thread) : (clearLatches t).scla = t.scla := rfl
@[simp] theorem clearLatches_sclb (t : Thread) : (clearLatches t).sclb = t.sclb := rfl
@[simp] theorem clearLatches_thandler (t : Thread) : (clearLatches t).thandler = t.thandler := rfl
@[simp] theorem clearLatches_thandlerEn (t : Thread) : (clearLatches t).thandlerEn = t.thandlerEn := rfl
@[simp] theorem clearLatches_tscratch (t : Thread) : (clearLatches t).tscratch = t.tscratch := rfl
@[simp] theorem clearLatches_tcause (t : Thread) : (clearLatches t).tcause = t.tcause := rfl
@[simp] theorem clearLatches_tepc (t : Thread) : (clearLatches t).tepc = t.tepc := rfl
@[simp] theorem clearLatches_tval (t : Thread) : (clearLatches t).tval = t.tval := rfl
@[simp] theorem clearLatches_tmicro (t : Thread) : (clearLatches t).tmicro = t.tmicro := rfl
@[simp] theorem clearLatches_profctl (t : Thread) : (clearLatches t).profctl = t.profctl := rfl
@[simp] theorem clearLatches_vec (t : Thread) : (clearLatches t).vec = t.vec := rfl
@[simp] theorem clearLatches_traps (t : Thread) : (clearLatches t).traps = t.traps := rfl
@[simp] theorem clearLatches_issues (t : Thread) : (clearLatches t).issues = t.issues := rfl
@[simp] theorem clearLatches_rxq (t : Thread) : (clearLatches t).rxq = t.rxq := rfl
@[simp] theorem clearLatches_held (t : Thread) : (clearLatches t).held = t.held := rfl
@[simp] theorem clearLatches_ibits (t : Thread) : (clearLatches t).ibits = t.ibits := rfl
@[simp] theorem clearLatches_chainIn (t : Thread) : (clearLatches t).chainIn = t.chainIn := rfl
@[simp] theorem clearLatches_chainOut (t : Thread) : (clearLatches t).chainOut = t.chainOut := rfl
@[simp] theorem clearLatches_dauPc (t : Thread) : (clearLatches t).dauPc = t.dauPc := rfl
@[simp] theorem clearLatches_tspill (t : Thread) : (clearLatches t).tspill = t.tspill := rfl
@[simp] theorem clearLatches_vspill (t : Thread) : (clearLatches t).vspill = t.vspill := rfl
@[simp] theorem clearLatches_owed (t : Thread) : (clearLatches t).owed = t.owed := rfl
@[simp] theorem clearLatches_ndisc (t : Thread) : (clearLatches t).ndisc = t.ndisc := rfl
@[simp] theorem clearLatches_sum (t : Thread) : (clearLatches t).sum = t.sum := rfl
@[simp] theorem clearLatches_req (t : Thread) : (clearLatches t).req = t.req := rfl
@[simp] theorem clearLatches_mixN (t : Thread) : (clearLatches t).mixN = t.mixN := rfl
@[simp] theorem clearLatches_mixC (t : Thread) : (clearLatches t).mixC = t.mixC := rfl
@[simp] theorem clearLatches_mixV (t : Thread) : (clearLatches t).mixV = t.mixV := rfl
@[simp] theorem clearLatches_mixT (t : Thread) : (clearLatches t).mixT = t.mixT := rfl
@[simp] theorem clearLatches_mixWin (t : Thread) : (clearLatches t).mixWin = t.mixWin := rfl
@[simp] theorem clearLatches_mixHnd (t : Thread) : (clearLatches t).mixHnd = t.mixHnd := rfl
@[simp] theorem clearLatches_endKind (t : Thread) : (clearLatches t).endKind = t.endKind := rfl
@[simp] theorem clearLatches_sendsOut (t : Thread) : (clearLatches t).sendsOut = t.sendsOut := rfl
@[simp] theorem clearLatches_collIssued (t : Thread) : (clearLatches t).collIssued = t.collIssued := rfl
@[simp] theorem clearLatches_supPending (t : Thread) : (clearLatches t).supPending = t.supPending := rfl

@[simp] theorem accrue_tid (t : Thread) (fl : FpFlags) : (accrue t fl).tid = t.tid := by unfold accrue; split <;> rfl
@[simp] theorem accrue_ctx (t : Thread) (fl : FpFlags) : (accrue t fl).ctx = t.ctx := by unfold accrue; split <;> rfl
@[simp] theorem accrue_csa (t : Thread) (fl : FpFlags) : (accrue t fl).csa = t.csa := by unfold accrue; split <;> rfl
@[simp] theorem accrue_place (t : Thread) (fl : FpFlags) : (accrue t fl).place = t.place := by unfold accrue; split <;> rfl
@[simp] theorem accrue_run (t : Thread) (fl : FpFlags) : (accrue t fl).run = t.run := by unfold accrue; split <;> rfl
@[simp] theorem accrue_pc (t : Thread) (fl : FpFlags) : (accrue t fl).pc = t.pc := by unfold accrue; split <;> rfl
@[simp] theorem accrue_x (t : Thread) (fl : FpFlags) : (accrue t fl).x = t.x := by unfold accrue; split <;> rfl
@[simp] theorem accrue_f (t : Thread) (fl : FpFlags) : (accrue t fl).f = t.f := by unfold accrue; split <;> rfl
@[simp] theorem accrue_rndmode (t : Thread) (fl : FpFlags) : (accrue t fl).rndmode = t.rndmode := by unfold accrue; split <;> rfl
@[simp] theorem accrue_dsrseed (t : Thread) (fl : FpFlags) : (accrue t fl).dsrseed = t.dsrseed := by unfold accrue; split <;> rfl
@[simp] theorem accrue_fmta (t : Thread) (fl : FpFlags) : (accrue t fl).fmta = t.fmta := by unfold accrue; split <;> rfl
@[simp] theorem accrue_fmtb (t : Thread) (fl : FpFlags) : (accrue t fl).fmtb = t.fmtb := by unfold accrue; split <;> rfl
@[simp] theorem accrue_scla (t : Thread) (fl : FpFlags) : (accrue t fl).scla = t.scla := by unfold accrue; split <;> rfl
@[simp] theorem accrue_sclb (t : Thread) (fl : FpFlags) : (accrue t fl).sclb = t.sclb := by unfold accrue; split <;> rfl
@[simp] theorem accrue_thandler (t : Thread) (fl : FpFlags) : (accrue t fl).thandler = t.thandler := by unfold accrue; split <;> rfl
@[simp] theorem accrue_thandlerEn (t : Thread) (fl : FpFlags) : (accrue t fl).thandlerEn = t.thandlerEn := by unfold accrue; split <;> rfl
@[simp] theorem accrue_tscratch (t : Thread) (fl : FpFlags) : (accrue t fl).tscratch = t.tscratch := by unfold accrue; split <;> rfl
@[simp] theorem accrue_tcause (t : Thread) (fl : FpFlags) : (accrue t fl).tcause = t.tcause := by unfold accrue; split <;> rfl
@[simp] theorem accrue_tepc (t : Thread) (fl : FpFlags) : (accrue t fl).tepc = t.tepc := by unfold accrue; split <;> rfl
@[simp] theorem accrue_tval (t : Thread) (fl : FpFlags) : (accrue t fl).tval = t.tval := by unfold accrue; split <;> rfl
@[simp] theorem accrue_tmicro (t : Thread) (fl : FpFlags) : (accrue t fl).tmicro = t.tmicro := by unfold accrue; split <;> rfl
@[simp] theorem accrue_profctl (t : Thread) (fl : FpFlags) : (accrue t fl).profctl = t.profctl := by unfold accrue; split <;> rfl
@[simp] theorem accrue_vec (t : Thread) (fl : FpFlags) : (accrue t fl).vec = t.vec := by unfold accrue; split <;> rfl
@[simp] theorem accrue_traps (t : Thread) (fl : FpFlags) : (accrue t fl).traps = t.traps := by unfold accrue; split <;> rfl
@[simp] theorem accrue_issues (t : Thread) (fl : FpFlags) : (accrue t fl).issues = t.issues := by unfold accrue; split <;> rfl
@[simp] theorem accrue_rxq (t : Thread) (fl : FpFlags) : (accrue t fl).rxq = t.rxq := by unfold accrue; split <;> rfl
@[simp] theorem accrue_held (t : Thread) (fl : FpFlags) : (accrue t fl).held = t.held := by unfold accrue; split <;> rfl
@[simp] theorem accrue_pfx (t : Thread) (fl : FpFlags) : (accrue t fl).pfx = t.pfx := by unfold accrue; split <;> rfl
@[simp] theorem accrue_succ (t : Thread) (fl : FpFlags) : (accrue t fl).succ = t.succ := by unfold accrue; split <;> rfl
@[simp] theorem accrue_ibits (t : Thread) (fl : FpFlags) : (accrue t fl).ibits = t.ibits := by unfold accrue; split <;> rfl
@[simp] theorem accrue_chainIn (t : Thread) (fl : FpFlags) : (accrue t fl).chainIn = t.chainIn := by unfold accrue; split <;> rfl
@[simp] theorem accrue_chainOut (t : Thread) (fl : FpFlags) : (accrue t fl).chainOut = t.chainOut := by unfold accrue; split <;> rfl
@[simp] theorem accrue_pod (t : Thread) (fl : FpFlags) : (accrue t fl).pod = t.pod := by unfold accrue; split <;> rfl
@[simp] theorem accrue_expired (t : Thread) (fl : FpFlags) : (accrue t fl).expired = t.expired := by unfold accrue; split <;> rfl
@[simp] theorem accrue_dauAhead (t : Thread) (fl : FpFlags) : (accrue t fl).dauAhead = t.dauAhead := by unfold accrue; split <;> rfl
@[simp] theorem accrue_dauPc (t : Thread) (fl : FpFlags) : (accrue t fl).dauPc = t.dauPc := by unfold accrue; split <;> rfl
@[simp] theorem accrue_tspill (t : Thread) (fl : FpFlags) : (accrue t fl).tspill = t.tspill := by unfold accrue; split <;> rfl
@[simp] theorem accrue_vspill (t : Thread) (fl : FpFlags) : (accrue t fl).vspill = t.vspill := by unfold accrue; split <;> rfl
@[simp] theorem accrue_owed (t : Thread) (fl : FpFlags) : (accrue t fl).owed = t.owed := by unfold accrue; split <;> rfl
@[simp] theorem accrue_ndisc (t : Thread) (fl : FpFlags) : (accrue t fl).ndisc = t.ndisc := by unfold accrue; split <;> rfl
@[simp] theorem accrue_sum (t : Thread) (fl : FpFlags) : (accrue t fl).sum = t.sum := by unfold accrue; split <;> rfl
@[simp] theorem accrue_req (t : Thread) (fl : FpFlags) : (accrue t fl).req = t.req := by unfold accrue; split <;> rfl
@[simp] theorem accrue_mixN (t : Thread) (fl : FpFlags) : (accrue t fl).mixN = t.mixN := by unfold accrue; split <;> rfl
@[simp] theorem accrue_mixC (t : Thread) (fl : FpFlags) : (accrue t fl).mixC = t.mixC := by unfold accrue; split <;> rfl
@[simp] theorem accrue_mixV (t : Thread) (fl : FpFlags) : (accrue t fl).mixV = t.mixV := by unfold accrue; split <;> rfl
@[simp] theorem accrue_mixT (t : Thread) (fl : FpFlags) : (accrue t fl).mixT = t.mixT := by unfold accrue; split <;> rfl
@[simp] theorem accrue_mixWin (t : Thread) (fl : FpFlags) : (accrue t fl).mixWin = t.mixWin := by unfold accrue; split <;> rfl
@[simp] theorem accrue_mixHnd (t : Thread) (fl : FpFlags) : (accrue t fl).mixHnd = t.mixHnd := by unfold accrue; split <;> rfl
@[simp] theorem accrue_endKind (t : Thread) (fl : FpFlags) : (accrue t fl).endKind = t.endKind := by unfold accrue; split <;> rfl
@[simp] theorem accrue_sendsOut (t : Thread) (fl : FpFlags) : (accrue t fl).sendsOut = t.sendsOut := by unfold accrue; split <;> rfl
@[simp] theorem accrue_collIssued (t : Thread) (fl : FpFlags) : (accrue t fl).collIssued = t.collIssued := by unfold accrue; split <;> rfl
@[simp] theorem accrue_supPending (t : Thread) (fl : FpFlags) : (accrue t fl).supPending = t.supPending := by unfold accrue; split <;> rfl
@[simp] theorem accrue_waitStamp (t : Thread) (fl : FpFlags) : (accrue t fl).waitStamp = t.waitStamp := by unfold accrue; split <;> rfl
@[simp] theorem accrue_micro (t : Thread) (fl : FpFlags) : (accrue t fl).micro = t.micro := by unfold accrue; split <;> rfl

@[simp] theorem accrueOp_tid (t : Thread) (fl : FpFlags) : (accrueOp t fl).tid = t.tid := by unfold accrueOp; split; split; rfl; all_goals simp
@[simp] theorem accrueOp_ctx (t : Thread) (fl : FpFlags) : (accrueOp t fl).ctx = t.ctx := by unfold accrueOp; split; split; rfl; all_goals simp
@[simp] theorem accrueOp_csa (t : Thread) (fl : FpFlags) : (accrueOp t fl).csa = t.csa := by unfold accrueOp; split; split; rfl; all_goals simp
@[simp] theorem accrueOp_place (t : Thread) (fl : FpFlags) : (accrueOp t fl).place = t.place := by unfold accrueOp; split; split; rfl; all_goals simp
@[simp] theorem accrueOp_run (t : Thread) (fl : FpFlags) : (accrueOp t fl).run = t.run := by unfold accrueOp; split; split; rfl; all_goals simp
@[simp] theorem accrueOp_pc (t : Thread) (fl : FpFlags) : (accrueOp t fl).pc = t.pc := by unfold accrueOp; split; split; rfl; all_goals simp
@[simp] theorem accrueOp_x (t : Thread) (fl : FpFlags) : (accrueOp t fl).x = t.x := by unfold accrueOp; split; split; rfl; all_goals simp
@[simp] theorem accrueOp_f (t : Thread) (fl : FpFlags) : (accrueOp t fl).f = t.f := by unfold accrueOp; split; split; rfl; all_goals simp
@[simp] theorem accrueOp_rndmode (t : Thread) (fl : FpFlags) : (accrueOp t fl).rndmode = t.rndmode := by unfold accrueOp; split; split; rfl; all_goals simp
@[simp] theorem accrueOp_dsrseed (t : Thread) (fl : FpFlags) : (accrueOp t fl).dsrseed = t.dsrseed := by unfold accrueOp; split; split; rfl; all_goals simp
@[simp] theorem accrueOp_fmta (t : Thread) (fl : FpFlags) : (accrueOp t fl).fmta = t.fmta := by unfold accrueOp; split; split; rfl; all_goals simp
@[simp] theorem accrueOp_fmtb (t : Thread) (fl : FpFlags) : (accrueOp t fl).fmtb = t.fmtb := by unfold accrueOp; split; split; rfl; all_goals simp
@[simp] theorem accrueOp_scla (t : Thread) (fl : FpFlags) : (accrueOp t fl).scla = t.scla := by unfold accrueOp; split; split; rfl; all_goals simp
@[simp] theorem accrueOp_sclb (t : Thread) (fl : FpFlags) : (accrueOp t fl).sclb = t.sclb := by unfold accrueOp; split; split; rfl; all_goals simp
@[simp] theorem accrueOp_thandler (t : Thread) (fl : FpFlags) : (accrueOp t fl).thandler = t.thandler := by unfold accrueOp; split; split; rfl; all_goals simp
@[simp] theorem accrueOp_thandlerEn (t : Thread) (fl : FpFlags) : (accrueOp t fl).thandlerEn = t.thandlerEn := by unfold accrueOp; split; split; rfl; all_goals simp
@[simp] theorem accrueOp_tscratch (t : Thread) (fl : FpFlags) : (accrueOp t fl).tscratch = t.tscratch := by unfold accrueOp; split; split; rfl; all_goals simp
@[simp] theorem accrueOp_tcause (t : Thread) (fl : FpFlags) : (accrueOp t fl).tcause = t.tcause := by unfold accrueOp; split; split; rfl; all_goals simp
@[simp] theorem accrueOp_tepc (t : Thread) (fl : FpFlags) : (accrueOp t fl).tepc = t.tepc := by unfold accrueOp; split; split; rfl; all_goals simp
@[simp] theorem accrueOp_tval (t : Thread) (fl : FpFlags) : (accrueOp t fl).tval = t.tval := by unfold accrueOp; split; split; rfl; all_goals simp
@[simp] theorem accrueOp_tmicro (t : Thread) (fl : FpFlags) : (accrueOp t fl).tmicro = t.tmicro := by unfold accrueOp; split; split; rfl; all_goals simp
@[simp] theorem accrueOp_profctl (t : Thread) (fl : FpFlags) : (accrueOp t fl).profctl = t.profctl := by unfold accrueOp; split; split; rfl; all_goals simp
@[simp] theorem accrueOp_vec (t : Thread) (fl : FpFlags) : (accrueOp t fl).vec = t.vec := by unfold accrueOp; split; split; rfl; all_goals simp
@[simp] theorem accrueOp_traps (t : Thread) (fl : FpFlags) : (accrueOp t fl).traps = t.traps := by unfold accrueOp; split; split; rfl; all_goals simp
@[simp] theorem accrueOp_issues (t : Thread) (fl : FpFlags) : (accrueOp t fl).issues = t.issues := by unfold accrueOp; split; split; rfl; all_goals simp
@[simp] theorem accrueOp_rxq (t : Thread) (fl : FpFlags) : (accrueOp t fl).rxq = t.rxq := by unfold accrueOp; split; split; rfl; all_goals simp
@[simp] theorem accrueOp_held (t : Thread) (fl : FpFlags) : (accrueOp t fl).held = t.held := by unfold accrueOp; split; split; rfl; all_goals simp
@[simp] theorem accrueOp_pfx (t : Thread) (fl : FpFlags) : (accrueOp t fl).pfx = t.pfx := by unfold accrueOp; split; split; rfl; all_goals simp
@[simp] theorem accrueOp_succ (t : Thread) (fl : FpFlags) : (accrueOp t fl).succ = t.succ := by unfold accrueOp; split; split; rfl; all_goals simp
@[simp] theorem accrueOp_ibits (t : Thread) (fl : FpFlags) : (accrueOp t fl).ibits = t.ibits := by unfold accrueOp; split; split; rfl; all_goals simp
@[simp] theorem accrueOp_chainIn (t : Thread) (fl : FpFlags) : (accrueOp t fl).chainIn = t.chainIn := by unfold accrueOp; split; split; rfl; all_goals simp
@[simp] theorem accrueOp_chainOut (t : Thread) (fl : FpFlags) : (accrueOp t fl).chainOut = t.chainOut := by unfold accrueOp; split; split; rfl; all_goals simp
@[simp] theorem accrueOp_pod (t : Thread) (fl : FpFlags) : (accrueOp t fl).pod = t.pod := by unfold accrueOp; split; split; rfl; all_goals simp
@[simp] theorem accrueOp_expired (t : Thread) (fl : FpFlags) : (accrueOp t fl).expired = t.expired := by unfold accrueOp; split; split; rfl; all_goals simp
@[simp] theorem accrueOp_dauAhead (t : Thread) (fl : FpFlags) : (accrueOp t fl).dauAhead = t.dauAhead := by unfold accrueOp; split; split; rfl; all_goals simp
@[simp] theorem accrueOp_dauPc (t : Thread) (fl : FpFlags) : (accrueOp t fl).dauPc = t.dauPc := by unfold accrueOp; split; split; rfl; all_goals simp
@[simp] theorem accrueOp_tspill (t : Thread) (fl : FpFlags) : (accrueOp t fl).tspill = t.tspill := by unfold accrueOp; split; split; rfl; all_goals simp
@[simp] theorem accrueOp_vspill (t : Thread) (fl : FpFlags) : (accrueOp t fl).vspill = t.vspill := by unfold accrueOp; split; split; rfl; all_goals simp
@[simp] theorem accrueOp_owed (t : Thread) (fl : FpFlags) : (accrueOp t fl).owed = t.owed := by unfold accrueOp; split; split; rfl; all_goals simp
@[simp] theorem accrueOp_ndisc (t : Thread) (fl : FpFlags) : (accrueOp t fl).ndisc = t.ndisc := by unfold accrueOp; split; split; rfl; all_goals simp
@[simp] theorem accrueOp_sum (t : Thread) (fl : FpFlags) : (accrueOp t fl).sum = t.sum := by unfold accrueOp; split; split; rfl; all_goals simp
@[simp] theorem accrueOp_req (t : Thread) (fl : FpFlags) : (accrueOp t fl).req = t.req := by unfold accrueOp; split; split; rfl; all_goals simp
@[simp] theorem accrueOp_mixN (t : Thread) (fl : FpFlags) : (accrueOp t fl).mixN = t.mixN := by unfold accrueOp; split; split; rfl; all_goals simp
@[simp] theorem accrueOp_mixC (t : Thread) (fl : FpFlags) : (accrueOp t fl).mixC = t.mixC := by unfold accrueOp; split; split; rfl; all_goals simp
@[simp] theorem accrueOp_mixV (t : Thread) (fl : FpFlags) : (accrueOp t fl).mixV = t.mixV := by unfold accrueOp; split; split; rfl; all_goals simp
@[simp] theorem accrueOp_mixT (t : Thread) (fl : FpFlags) : (accrueOp t fl).mixT = t.mixT := by unfold accrueOp; split; split; rfl; all_goals simp
@[simp] theorem accrueOp_mixWin (t : Thread) (fl : FpFlags) : (accrueOp t fl).mixWin = t.mixWin := by unfold accrueOp; split; split; rfl; all_goals simp
@[simp] theorem accrueOp_mixHnd (t : Thread) (fl : FpFlags) : (accrueOp t fl).mixHnd = t.mixHnd := by unfold accrueOp; split; split; rfl; all_goals simp
@[simp] theorem accrueOp_endKind (t : Thread) (fl : FpFlags) : (accrueOp t fl).endKind = t.endKind := by unfold accrueOp; split; split; rfl; all_goals simp
@[simp] theorem accrueOp_sendsOut (t : Thread) (fl : FpFlags) : (accrueOp t fl).sendsOut = t.sendsOut := by unfold accrueOp; split; split; rfl; all_goals simp
@[simp] theorem accrueOp_collIssued (t : Thread) (fl : FpFlags) : (accrueOp t fl).collIssued = t.collIssued := by unfold accrueOp; split; split; rfl; all_goals simp
@[simp] theorem accrueOp_supPending (t : Thread) (fl : FpFlags) : (accrueOp t fl).supPending = t.supPending := by unfold accrueOp; split; split; rfl; all_goals simp
@[simp] theorem accrueOp_waitStamp (t : Thread) (fl : FpFlags) : (accrueOp t fl).waitStamp = t.waitStamp := by unfold accrueOp; split; split; rfl; all_goals simp
@[simp] theorem accrueOp_micro (t : Thread) (fl : FpFlags) : (accrueOp t fl).micro = t.micro := by unfold accrueOp; split; split; rfl; all_goals simp

end Sys2Proof.Machine
end

