-- ==== Sys2Proof/Laws/Issue.lean ====
section
/-! SUPPORT. What the frame of an instruction comes to: with chain mode off, an admitted instruction is its own effect. -/

namespace Sys2Proof.Machine

/-- An instruction is admitted: the privilege, the class and the features that it needs are there. -/
theorem admitted_ok {n : Need} {feats : List Nat} {s : State} {k : State → Eff} (hp : n = .priv → s.th.status.priv = true)
    (hc : needCause n (clsOf s.th) = none) (hf : ∀ f ∈ feats, s.hasFeat (coreOf s.th).die f = true) : admitted n feats s k = k s := by
  have h1 : ¬(n = .priv ∧ (!s.th.status.priv) = true) := fun h => by simp [hp h.1] at h
  have h2 : (feats.find? fun f => !s.hasFeat (coreOf s.th).die f) = none := by
    rw [List.find?_eq_none]
    intro f hm
    simp [hf f hm]
  simp only [admitted, if_neg h1, hc, h2]

/-- With chain mode off, the frame of chain queues does nothing (R249). -/
theorem chained_off {addr : Bool} {srcs dsts : List Reg} {s : State} {k : State → Eff} (h : s.th.status.chain = false) :
    chained addr srcs dsts s k = k s := by
  unfold chained
  split <;> simp [h]

/-- An instruction of any class, with chain mode off. -/
theorem issue_any {srcs dsts : List Reg} {s : State} {k : State → Eff} (h : s.th.status.chain = false) : issue .any [] srcs dsts s k = k s := by
  rw [issue, admitted_ok (by simp) (by cases clsOf s.th <;> rfl) (by simp), chained_off h]

/-- A floating-point instruction where there is a unit for it. -/
theorem issue_fp {srcs dsts : List Reg} {s : State} {k : State → Eff} (h : s.th.status.chain = false) (hc : clsOf s.th ≠ .t)
    (hf : s.hasFeat (coreOf s.th).die 0 = true) : issue .fp [0] srcs dsts s k = k s := by
  rw [issue, admitted_ok (by simp) (by cases hh : clsOf s.th <;> simp_all [needCause]) (by simpa using hf), chained_off h]

/-- A vector instruction on a V-core that has its features. -/
theorem issue_vector {feats : List Nat} {srcs dsts : List Reg} {s : State} {k : State → Eff} (h : s.th.status.chain = false) (hc : clsOf s.th = .v)
    (hf : ∀ f ∈ feats, s.hasFeat (coreOf s.th).die f = true) : issue .vector feats srcs dsts s k = k s := by
  rw [issue, admitted_ok (by simp) (by simp [hc, needCause]) hf, chained_off h]

/-- An instruction of any class that forms an address, with chain mode off. -/
theorem issueAt_any {srcs dsts : List Reg} {s : State} {k : State → Eff} (h : s.th.status.chain = false) : issueAt .any [] srcs dsts s k = k s := by
  rw [issueAt, admitted_ok (by simp) (by cases clsOf s.th <;> rfl) (by simp), chained_off h]

/-- A floating-point load or store where there is a unit for it. -/
theorem issueAt_fp {srcs dsts : List Reg} {s : State} {k : State → Eff} (h : s.th.status.chain = false) (hc : clsOf s.th ≠ .t)
    (hf : s.hasFeat (coreOf s.th).die 0 = true) : issueAt .fp [0] srcs dsts s k = k s := by
  rw [issueAt, admitted_ok (by simp) (by cases hh : clsOf s.th <;> simp_all [needCause]) (by simpa using hf), chained_off h]

/-- A vector load or store on a V-core that has its features. -/
theorem issueAt_vector {feats : List Nat} {srcs dsts : List Reg} {s : State} {k : State → Eff} (h : s.th.status.chain = false) (hc : clsOf s.th = .v)
    (hf : ∀ f ∈ feats, s.hasFeat (coreOf s.th).die f = true) : issueAt .vector feats srcs dsts s k = k s := by
  rw [issueAt, admitted_ok (by simp) (by simp [hc, needCause]) hf, chained_off h]

/-- A matrix command on a T-core that has its features. -/
theorem issue_matrix {feats : List Nat} {srcs dsts : List Reg} {s : State} {k : State → Eff} (h : s.th.status.chain = false) (hc : clsOf s.th = .t)
    (hf : ∀ f ∈ feats, s.hasFeat (coreOf s.th).die f = true) : issue .matrix feats srcs dsts s k = k s := by
  rw [issue, admitted_ok (by simp) (by simp [hc, needCause]) hf, chained_off h]

/-- A privileged instruction in supervisor code. -/
theorem issue_priv {srcs dsts : List Reg} {s : State} {k : State → Eff} (h : s.th.status.chain = false) (hp : s.th.status.priv = true) :
    issue .priv [] srcs dsts s k = k s := by
  rw [issue, admitted_ok (by simp [hp]) (by cases clsOf s.th <;> rfl) (by simp), chained_off h]

/-! Outcomes. -/

@[simp] theorem settle_done (s : State) : settle (.done s) = .next (countIssue s) := rfl
@[simp] theorem settle_trap (r : TrapReq) (s : State) : settle (.trap r s) = .next (takeTrap (countIssue s) r) := rfl
@[simp] theorem settle_refuse (r : Refusal) : settle (.refuse r) = .refused r := rfl
@[simp] theorem settle_park (w : Wait) (s : State) :
    settle (.park w s) = .next (s.onTh fun t => { t with run := .parked w, chainIn := none, chainOut := none }) := rfl
@[simp] theorem finishOp_done (n : Nat) (s : State) : finishOp n s = .done (s.advance n) := rfl
@[simp] theorem Eff.bind_done (s : State) (k : State → Eff) : (Eff.done s).bind k = k s := rfl
@[simp] theorem Eff.bind_trap (r : TrapReq) (s : State) (k : State → Eff) : (Eff.trap r s).bind k = .trap r s := rfl
@[simp] theorem Eff.bind_park (w : Wait) (s : State) (k : State → Eff) : (Eff.park w s).bind k = .park w s := rfl
@[simp] theorem Res.andThen_ok {α : Type} (a : α) (s : State) (k : α → State → Eff) : (Res.ok a s).andThen k = k a s := rfl
@[simp] theorem Res.andThen_stop {α : Type} (e : Eff) (k : α → State → Eff) : (Res.stop e).andThen k = e := rfl
@[simp] theorem Res.bind_ok {α β : Type} (a : α) (s : State) (k : α → State → Res β) : (Res.ok a s).bind k = k a s := rfl
@[simp] theorem Res.bind_stop {α β : Type} (e : Eff) (k : α → State → Res β) : (Res.stop e : Res α).bind k = .stop e := rfl

/-! The shared forms of the integer instructions. -/

/-- A form of one source register: its outcome. -/
theorem op1_next {rd rs1 : Reg} {f : Word → Word} {s : State} (h : s.th.status.chain = false) :
    op1 rd rs1 f s = .next (countIssue ((s.wx rd (f (s.rx rs1))).advance 4)) := by
  rw [op1, issue_any h]
  rfl

/-- A form of two source registers: its outcome. -/
theorem op2_next {rd rs1 rs2 : Reg} {f : Word → Word → Word} {s : State} (h : s.th.status.chain = false) :
    op2 rd rs1 rs2 f s = .next (countIssue ((s.wx rd (f (s.rx rs1) (s.rx rs2))).advance 4)) := by
  rw [op2, issue_any h]
  rfl

/-- A packed form: its outcome. -/
theorem packed_next {lanes : Lanes} {rd rs1 rs2 : Reg} {op : Thread → Nat → Nat → Nat → Nat → Nat} {s : State} (h : s.th.status.chain = false) :
    packed lanes rd rs1 rs2 op s = .next (countIssue ((s.wx rd (BitVec.ofNat 64 (packLanes (laneWidth lanes)
      ((List.range (64 / laneWidth lanes)).map fun e => op s.th (laneWidth lanes) e (bitsAt (s.rx rs1).toNat (laneWidth lanes * e) (laneWidth lanes))
        (bitsAt (s.rx rs2).toNat (laneWidth lanes * e) (laneWidth lanes)))))).advance 4)) := by
  rw [packed, issue_any h]
  rfl

/-- An instruction that writes f[rd] with a rounding field: its outcome. -/
theorem fpRounded_next {fmt : FpFmt} {rm : Rm} {rd : Reg} {e : Thread → Rm → Exact} {s : State} (h : s.th.status.chain = false) (hc : clsOf s.th ≠ .t)
    (hf : s.hasFeat (coreOf s.th).die 0 = true) :
    fpRounded fmt rm rd e s = .next (countIssue ((s.onTh fun t => writeF (accrueOp t
      (finish (binFmt fmt) (roundingOf s.th rm false 0) (e s.th (effRm s.th rm))).2) rd
      (fpWord fmt (finish (binFmt fmt) (roundingOf s.th rm false 0) (e s.th (effRm s.th rm))).1)).advance 4)) := by
  rw [fpRounded, fpIssue, issue_fp h hc hf]
  rfl

/-! Updates of a thread. -/

/-- The counts of R331 are all that a counted migration changes. -/
theorem countMix_form (t : Thread) (c : Nat) : ∃ v w x, countMix t c = { t with mixV := v, mixT := w, mixC := x } := by
  unfold countMix
  split
  · exact ⟨_, t.mixT, t.mixC, rfl⟩
  · exact ⟨t.mixV, _, t.mixC, rfl⟩
  · exact ⟨_, t.mixT, _, rfl⟩
  · exact ⟨t.mixV, t.mixT, _, rfl⟩
  · exact ⟨t.mixV, t.mixT, t.mixC, rfl⟩

/-- What a write of an x register can change: the register, or in chain mode the word that leaves (R10, R249). -/
theorem writeX_form (t : Thread) (r : Reg) (v : Word) : ∃ x out, writeX t r v = { t with x := x, chainOut := out } := by
  unfold writeX
  split
  · exact ⟨t.x, t.chainOut, rfl⟩
  · split
    · exact ⟨t.x, _, rfl⟩
    · exact ⟨_, t.chainOut, rfl⟩

/-- What accrued flags can change: FFLAGS and STATUS.FPV (R173). -/
theorem accrueOp_form (t : Thread) (fl : FpFlags) : ∃ fl' v, accrueOp t fl = { t with fflags := fl', status := { t.status with fpv := v } } := by
  have h : ∀ fl, ∃ fl' v, accrue t fl = { t with fflags := fl', status := { t.status with fpv := v } } := by
    intro fl
    unfold accrue
    split
    · exact ⟨t.fflags, t.status.fpv, rfl⟩
    · exact ⟨_, _, rfl⟩
  unfold accrueOp
  split
  · split
    · exact ⟨t.fflags, t.status.fpv, rfl⟩
    · exact h fl
  · exact h fl

/-- A thread after an instruction of n bytes that issued and completed: its counts, its latches and its pc are new. -/
theorem finished_form (s : State) (n : Nat) : ∃ mv mt mc, (countIssue (s.advance n)).th =
    { s.th with pc := s.th.pc + BitVec.ofNat 64 (instrBytes s.th n), pfx := none, succ := none, pod := [], expired := false, dauAhead := [], waitStamp := none, micro := 0
                issues := s.th.issues + 1, mixN := s.th.mixN + 1, chainIn := none, chainOut := none, mixV := mv, mixT := mt, mixC := mc } := by
  obtain ⟨a, b, c, h⟩ := countMix_form ({ (s.advance n).th with issues := s.th.issues + 1, mixN := s.th.mixN + 1, chainIn := none, chainOut := none })
    s.th.mixHnd
  exact ⟨a, b, c, h⟩

/-- The system registers of a thread after an instruction that completed are those that its effect left. -/
theorem readSys_finished (s : State) (n : Nat) (r : SReg) :
    readSys (countIssue (s.advance n)) (countIssue (s.advance n)).th r = readSys s s.th r := by
  obtain ⟨a, b, c, h⟩ := finished_form s n
  rw [h]
  cases r <;> rfl

/-- A write of an x register leaves the system registers. -/
theorem readSys_wx (s : State) (rd : Reg) (v : Word) (r : SReg) : readSys (s.wx rd v) (s.wx rd v).th r = readSys s s.th r := by
  obtain ⟨x, o, h⟩ := writeX_form s.th rd v
  rw [State.wx_th, h]
  cases r <;> rfl

/-- An element of a vector after a set. -/
theorem vector_get_set {α : Type} {n : Nat} (v : Vector α n) (i j : Nat) (a : α) (hi : i < n) (hj : j < n) :
    (v.set i a hi).get ⟨j, hj⟩ = if i = j then a else v.get ⟨j, hj⟩ := by
  show (v.set i a hi)[j] = if i = j then a else v[j]
  exact Vector.getElem_set hi hj

/-- A thread with an x register written, with chain mode off (R10). -/
theorem writeX_plain {t : Thread} {r : Reg} {v : Word} (h : t.status.chain = false) :
    writeX t r v = if r = 0 then t else { t with x := t.x.set r.toNat v r.isLt } := by
  unfold writeX
  split
  · rfl
  · rw [if_neg]
    simp [h]

/-- An x register read with chain mode off (R10). -/
theorem readX_plain {t : Thread} {r : Reg} (h : t.status.chain = false) : readX t r = if r = 0 then 0 else t.x.get ⟨r.toNat, r.isLt⟩ := by
  unfold readX
  split
  · rfl
  · rw [if_neg]
    simp [h]

/-- An x register read back after a write of one, with chain mode off (R10). -/
theorem readX_writeX (t : Thread) (r r' : Reg) (v : Word) (h : t.status.chain = false) :
    readX (writeX t r v) r' = if r' = 0 then 0 else if r' = r then v else readX t r' := by
  rw [readX_plain (by simpa using h), readX_plain h, writeX_plain h]
  by_cases h0 : r' = 0
  · rw [if_pos h0, if_pos h0]
  · rw [if_neg h0, if_neg h0, if_neg h0]
    by_cases hr : r = 0
    · rw [if_pos hr, if_neg (by rw [hr]; exact h0)]
    · rw [if_neg hr]
      by_cases he : r' = r
      · subst he
        rw [if_pos rfl, vector_get_set, if_pos rfl]
      · have hn : r.toNat ≠ r'.toNat := fun e => he (BitVec.eq_of_toNat_eq e.symm)
        rw [if_neg he, vector_get_set, if_neg hn]

/-- An f register read back after a write of one. -/
theorem readF_writeF (t : Thread) (r r' : Reg) (v : Word) : readF (writeF t r v) r' = if r' = r then v else readF t r' := by
  by_cases he : r' = r
  · subst he
    rw [if_pos rfl, readF, writeF, vector_get_set, if_pos rfl]
  · have hn : r.toNat ≠ r'.toNat := fun e => he (BitVec.eq_of_toNat_eq e.symm)
    rw [if_neg he, readF, writeF, vector_get_set, if_neg hn, readF]

/-- A v register read back after a write of one. -/
theorem readV_writeV (t : Thread) (r r' : Reg) (v : VReg) : readV (writeV t r v) r' = if r' = r then v else readV t r' := by
  by_cases he : r' = r
  · subst he
    rw [if_pos rfl, readV, writeV, vector_get_set, if_pos rfl]
  · have hn : r.toNat ≠ r'.toNat := fun e => he (BitVec.eq_of_toNat_eq e.symm)
    rw [if_neg he, readV, writeV, vector_get_set, if_neg hn, readV]

/-- The reading of x registers depends on few fields. -/
theorem readX_congr {t u : Thread} (hx : t.x = u.x) (hs : t.status.chain = false) (hu : u.status.chain = false) (r : Reg) : readX t r = readX u r := by
  rw [readX_plain hs, readX_plain hu, hx]

end Sys2Proof.Machine
end

