-- ==== Sys2Proof/Safety.lean ====
section
/-! DEFINITION. What a safe run is. -/

namespace Sys2Proof.Machine

/-- Whether an outcome is a next state. -/
def goesOn (o : Host.Outcome State Fault Refusal) : Bool :=
  match o with
  | .next _ => true
  | _ => false

/-- A run of n steps that no fault and no refusal ends. -/
def SafeRun (n : Nat) (s : State) : Prop := ∃ t, Sys2Proof.core.run n s = .next t

end Sys2Proof.Machine
end

