-- ==== Sys2Proof/Certificates/Slice0/Obligations.lean ====
section
/-! DEFINITION. The statements about the machine, and the terms that they are stated in. -/

namespace Sys2Proof.Claims

open Sys2Proof.Machine

/-! Terms. -/

/-- Chain mode is off: x26 and x27 are ordinary registers (R249). -/
def Plain (s : State) : Prop := s.th.status.chain = false

/-- Where the pc is after an instruction of n bytes: past it, and past its prefix when one is latched (R188, R199). -/
def pcAfter (n : Nat) (s : State) : Word := s.th.pc + BitVec.ofNat 64 (if s.th.pfx.isSome then 8 else n)

/-- What an instruction leaves as it was: every x, f and v register and every system register but those listed, the group registers, every byte of
memory in every view and under every key, and everything outside the thread. -/
structure Kept (s t : State) (xs fs vs : List Reg) (srs : List SReg) : Prop where
  x : ∀ r, r ∉ xs → t.rx r = s.rx r
  f : ∀ r, r ∉ fs → readF t.th r = readF s.th r
  v : ∀ r, r ∉ vs → readV t.th r = readV s.th r
  sys : ∀ r, r ∉ srs → readSys t t.th r = readSys s s.th r
  groups : t.th.vec.g = s.th.vec.g
  bytes : ∀ view key a, viewByte t.ms view key a = viewByte s.ms view key a
  rest : t = { s with th := t.th }

/-- An instruction of n bytes completes with x[rd] := v and nothing else changed but the pc; x0 stays zero (R10). -/
structure WritesX (i : Instr) (s : State) (n : Nat) (rd : Reg) (v : Word) : Prop where
  completes : ∃ t, exec i s = .next t ∧ t.rx rd = (if rd = 0 then 0 else v) ∧ t.th.pc = pcAfter n s ∧ Kept s t [rd] [] [] []

/-- An instruction is not performed, and the thread takes a cause; the attempt counts as an issue (R11, R333). -/
def Traps (i : Instr) (s : State) (r : TrapReq) : Prop := exec i s = .next (takeTrap (countIssue s) r)

/-- The registers that an instruction leaves as they were. -/
structure KeptRegs (s t : State) (xs fs vs : List Reg) (srs : List SReg) : Prop where
  x : ∀ r, r ∉ xs → t.rx r = s.rx r
  f : ∀ r, r ∉ fs → readF t.th r = readF s.th r
  v : ∀ r, r ∉ vs → readV t.th r = readV s.th r
  sys : ∀ r, r ∉ srs → readSys t t.th r = readSys s s.th r
  groups : t.th.vec.g = s.th.vec.g

/-- Every byte of memory, in every view and under every key, reads as before. -/
def KeptBytes (s t : State) : Prop := ∀ view key a, viewByte t.ms view key a = viewByte s.ms view key a

/-- An access of the current thread to n bytes at va, in one page of this package that is not region 10, with MT 00, within one line: `x` is its
translation, and `s1` the state with what the walk did (R27, R36). -/
structure Cached (s : State) (a : Acc) (vec : Bool) (va n : Nat) (x : Xlated) (s1 : State) : Prop where
  unposted : ∀ p ∈ s.ms.posted, p.tid ≠ s.th.tid
  parts : threadParts s a vec va n = .ok [.here x va n] s1
  type : x.mt = 0
  line : x.pa % 128 + n ≤ 128
  form : Memory.wf s1.ms = true

/-- No error waits in the line of an access, and it is not poisoned (R87). -/
structure Sound (s : State) (pa : Nat) : Prop where
  errors : ∀ e ∈ s.ms.ecc, e.line ≠ lineOf pa
  poison : ∀ h, (h, lineOf pa) ∉ s.ms.poison

/-- The current thread has nothing under way: no posted store, no store in its core's write-through queue, no task in provisional mode, no request to
another package, and no debug session. -/
structure Quiet (s : State) : Prop where
  unposted : ∀ p ∈ s.ms.posted, p.tid ≠ s.th.tid
  faultless : ∀ f ∈ s.ms.sfq, f.tid ≠ s.th.tid
  queue : ∀ e ∈ s.ms.wtq, e.core ≠ coreOf s.th
  direct : s.provStand s.th.tid.stand = none
  pod : ∀ o ∈ s.pod.out, o.tid ≠ s.th.tid
  session : s.session s.th.tid = none

/-- What the current thread's core sees at a byte below its first-level cache: its newest queued store of it, else the byte in its view (R73, R80). -/
def belowByte (s : State) (key : Option KeyTag) (a : Nat) : Byte :=
  (wtByte s.ms (coreOf s.th) (s.viewOf s.th.tid.stand) a).getD (viewByte s.ms (s.viewOf s.th.tid.stand) key a)

/-- The L1D copy that a load of the current thread meets: of its view and key, and not yet dropped for its age (R72, R74). -/
def copyOf (s : State) (x : Xlated) : Option L1dLine := l1dCopy s (coreOf s.th) (s.viewOf s.th.tid.stand) x.key (lineOf x.pa)

/-- The view that a store of the current thread goes into: its task's lines, and none for supervisor code (R79). -/
def storeView (s : State) : Option Nat := if s.th.status.priv then none else s.viewOf s.th.tid.stand

/-- What a read-modify-write of n bytes at a physical address finds (R94, R107, R108, log 75): the home's bytes, when their order is not kept and no queue
and no task holds any of them; else the one choice that the order of their writes leaves. -/
structure Finds (s : State) (x : Xlated) (n : Nat) (scope : Scope) (old : Nat) : Prop where
  size : old < 2 ^ (8 * n)
  found :
    ((∀ a, x.pa ≤ a → a < x.pa + n → isTracked s.ms a = false ∧ (∀ e ∈ s.ms.wtq, maskGet e.bytes a = none) ∧ ∀ p ∈ s.ms.prov, maskGet p.bytes a = none) ∧
      old = leNat ((List.range n).map fun k => commByte s.ms x.key (x.pa + k))) ∨
    (let opts := (rmwFinds s.ms ⟨s.clk.pkg, s.th.tid, coreOf s.th, scope⟩ s.dieCycle (commByte s.ms x.key) x.pa n).2
     oneChoice opts = true ∧ old = leNat ((List.range n).map fun k =>
       (((pickAll opts x.pa n 0).getD k none).map (·.byte)).getD (commByte s.ms x.key (x.pa + k))))

/-- The state in which a read-modify-write is made: an ordering with a release at package scope or wider shows what the thread has written first (R109). -/
def releasedFor (s : State) (ord : MemOrd) (scope : Scope) : State := if (ord = .rl ∨ ord = .aqrl) ∧ 4 ≤ scope.code then showOwn s else s

/-- The value v that a cached load gives (R69, R73, R80): from below, when its core holds no copy; else from the copy, under the core's own queued
stores. -/
structure LoadGives (s : State) (x : Xlated) (n v : Nat) : Prop where
  fresh : copyOf s x = none → v = leNat ((List.range n).map fun k => belowByte s x.key (x.pa + k))
  copy : ∀ l, copyOf s x = some l → l.bytes.length = 128 → v = leNat ((List.range n).map fun k =>
    (wtByte s.ms (coreOf s.th) (s.viewOf s.th.tid.stand) (x.pa + k)).getD (l.bytes.getD (x.pa % 128 + k) 0))

/-- The address of a base load or store (R215). -/
def effective (s : State) (rs1 : Reg) (imm : BitVec 12) : Nat := (s.rx rs1 + imm.signExtend 64).toNat

/-- What a write of a word leaves in each register that any class has: the writable fields (R141, R172, R262, R335, R364). -/
def writtenField (s : State) (v : Word) : List (SReg × Word) :=
  [ (.status, (readSys s s.th .status &&& ~~~0x24#64) ||| (v &&& 0x24#64)), (.thandler, v &&& ~~~0x2#64), (.tscratch, v &&& ~~~0x3F#64), (.tcause, v), (.tepc, v)
  , (.tval, v), (.tmicro, v), (.rndmode, if v &&& 7 = 0 then 1 else v &&& 7), (.dsrseed, v &&& 0xFFFFFFFF), (.fmta, v &&& 0xF), (.fmtb, v &&& 0xF)
  , (.scla, v &&& 0x1FF), (.sclb, v &&& 0x1FF), (.profctl, v &&& 0x1F1F) ]

/-- What ties the current thread to its core (R67): a core-level tile that it owns, or a tile that it has a lock on. -/
def ties (s : State) (k : Tile) : Prop :=
  ((∃ st c, k.key.space = .core st c) ∧ k.othr = s.th.tid.index ∧ k.ostand = s.th.tid.stand) ∨ k.writer = some s.th.tid ∨ LockHolder.thread s.th.tid ∈ k.readers

/-- A thread has left its place past a MIGRATE, with its registers as they were (R155). -/
structure Moved (s t : State) : Prop where
  place : t.th.place = none
  pc : t.th.pc = pcAfter 4 s
  x : t.th.x = s.th.x
  f : t.th.f = s.th.f
  vec : t.th.vec = s.th.vec
  status : t.th.status = s.th.status
  saved : t.th.tcause = s.th.tcause ∧ t.th.tepc = s.th.tepc ∧ t.th.tval = s.th.tval ∧ t.th.tmicro = s.th.tmicro

/-! Terms of the floating-point and packed statements. -/

/-- The current thread runs scalar FP instructions: its class has an FP unit and its die feature 0 (R154, R371). -/
def FpReady (s : State) : Prop := Plain s ∧ clsOf s.th ≠ .t ∧ s.hasFeat (coreOf s.th).die 0 = true

/-- The rounding mode in force for an instruction's own field (R171): a prefix's, then its own, then RNDMODE. -/
def modeInForce (s : State) (own : Rm) : Rm :=
  let pre := (s.th.pfx.map fun p => p.rm).getD .dyn
  if pre ≠ .dyn then pre else if own ≠ .dyn then own else s.th.rndmode

/-- The rounding in force (R171, R176). -/
def roundingInForce (s : State) (own : Rm) (idx : Nat) : Rounding := ⟨modeInForce s own, (s.th.pfx.map fun p => p.sat).getD false, s.th.dsrseed, idx⟩

/-- Whether a prefix suppresses flags (R171). -/
def suppressed (s : State) : Bool := (s.th.pfx.map fun p => p.nf).getD false

/-- FFLAGS after an instruction that raises flags (R173). -/
def flagsAfter (s : State) (fl : FpFlags) : BitVec 5 := if suppressed s then s.th.fflags else s.th.fflags ||| fl

/-- An instruction completes with f[rd] := w and flags accrued, and nothing else changed but FPV and the pc (R141, R173, R219). -/
structure WritesF (i : Instr) (s : State) (rd : Reg) (w : Word) (fl : FpFlags) : Prop where
  completes : ∃ t, exec i s = .next t ∧ readF t.th rd = w ∧ t.th.fflags = flagsAfter s fl ∧ t.th.status = { s.th.status with fpv := true } ∧
    t.th.pc = pcAfter 4 s ∧ Kept s t [] [rd] [] [.fflags, .status]

/-- An FP instruction completes with x[rd] := v and flags accrued; FPV is set only when a flag is (R141, R173). -/
structure WritesXFlags (i : Instr) (s : State) (rd : Reg) (v : Word) (fl : FpFlags) : Prop where
  completes : ∃ t, exec i s = .next t ∧ t.rx rd = (if rd = 0 then 0 else v) ∧ t.th.fflags = flagsAfter s fl ∧
    t.th.status = { s.th.status with fpv := s.th.status.fpv || (decide (fl ≠ 0) && !suppressed s) } ∧ t.th.pc = pcAfter 4 s ∧
    Kept s t [rd] [] [] [.fflags, .status]

/-- A number of w bits read as two's complement. -/
def signedOf (w a : Nat) : Int := if a < 2 ^ (w - 1) then (a : Int) else (a : Int) - 2 ^ w

/-- An integer reduced to w bits. -/
def wrap (w : Nat) (i : Int) : Nat := (i % 2 ^ w).toNat

/-- An integer clamped to the signed range of w bits, as w bits. -/
def clipS (w : Nat) (i : Int) : Nat := wrap w (if i < -2 ^ (w - 1) then -2 ^ (w - 1) else if 2 ^ (w - 1) ≤ i then 2 ^ (w - 1) - 1 else i)

/-- An integer clamped to the unsigned range of w bits. -/
def clipU (w : Nat) (i : Int) : Nat := if i < 0 then 0 else if 2 ^ w ≤ i then 2 ^ w - 1 else i.toNat

/-- A packed instruction: x[rd]'s sub-element e is a function of e and the two sub-elements, for each e (R244, R245). -/
def Lanewise (i : Instr) (s : State) (rd rs1 rs2 : Reg) (w : Nat) (f : Nat → Nat → Nat → Nat) : Prop :=
  ∃ v, WritesX i s 4 rd v ∧ ∀ e, e < 64 / w → bitsAt v.toNat (w * e) w = f e (bitsAt (s.rx rs1).toNat (w * e) w) (bitsAt (s.rx rs2).toNat (w * e) w)

/-- How far apart two finite values are, in units of 2^u. -/
def apart (u : Int) (n1 : Bool) (m1 : Nat) (e1 : Int) (n2 : Bool) (m2 : Nat) (e2 : Int) : Nat :=
  let a : Int := m1 * 2 ^ (e1 - u).toNat
  let b : Int := m2 * 2 ^ (e2 - u).toNat
  ((if n1 then -a else a) - (if n2 then -b else b)).natAbs

/-! Terms of the tile and command statements. -/

/-- The tile that a handle of the current thread names (R47 to R49). -/
def Names (s : State) (h : Handle) (k : Tile) : Prop := ∃ sp, spaceOf s s.th (handleLevel h.toNat) = some sp ∧ s.tile? ⟨sp, h.toNat⟩ = some k ∧ k.key = ⟨sp, h.toNat⟩

/-- A tile instruction of n bytes completes with the tile of a key replaced, and with no other tile, register or byte of memory changed; only a tile freed
can give the L2 ways back (R53). -/
structure ChangesTile (i : Instr) (s : State) (n : Nat) (key : TileKey) (new : Option Tile) : Prop where
  completes : ∃ t, exec i s = .next t ∧ t.th.pc = pcAfter n s ∧ KeptRegs s t [] [] [] [] ∧ (Memory.wf s.ms = true → KeptBytes s t) ∧
    (new ≠ none → t.ms = s.ms) ∧ t.others = s.others ∧ t.tile? key = new ∧ ∀ k, k ≠ key → t.tile? k = s.tile? k

/-- An instruction parks the thread at its own address, with nothing performed (R147). -/
def Parks (i : Instr) (s : State) (w : Wait) : Prop := ∃ t, exec i s = .next t ∧ t.th.run = .parked w ∧ t.th.pc = s.th.pc ∧ t.th.x = s.th.x ∧ t.ms = s.ms

/-- A command is accepted on a counter (R122): x[rd] is its sequence number, it joins its engine's queue, and nothing else changes. -/
structure Accepts (i : Instr) (s : State) (rd : Reg) (key : TlKey) (op : CmdOp) : Prop where
  completes : ∃ t c, exec i s = .next t ∧ t.rx rd = (if rd = 0 then 0 else BitVec.ofNat 64 ((s.tl key).iss + 1)) ∧ t.th.pc = pcAfter 8 s ∧
    KeptRegs s t [rd] [] [] [] ∧ t.ms = s.ms ∧ t.others = s.others ∧ t.th.run = s.th.run ∧ t.un.cmds = s.un.cmds ++ [c] ∧ c.op = op ∧ c.key = key ∧
    c.seq = (s.tl key).iss + 1 ∧ c.tid = s.th.tid ∧ c.held = none ∧ c.prog = 0 ∧ t.tl key = { s.tl key with iss := (s.tl key).iss + 1 } ∧ t.un.tiles = s.un.tiles

/-- A counter that the current thread may issue on (R120, R122). -/
def Counter (s : State) (tl : Tl) (key : TlKey) : Prop :=
  ∃ sp, spaceOf s s.th (tlLevel tl.toNat) = some sp ∧ key = ⟨sp, tl.toNat⟩ ∧ (s.tl key).iss ≠ 2 ^ 64 - 1

/-- The window of a copy descriptor (R258): NR in [51:42], NC in [62:52], ROW0 in [41:32], STRIDE in [31:0]. -/
def windowOfWord (d : Word) : CopyWin :=
  { nr := d.toNat / 2 ^ 42 % 2 ^ 10 + 1, nc := d.toNat / 2 ^ 52 % 2 ^ 11 + 1, row0 := d.toNat / 2 ^ 32 % 2 ^ 10, stride := ((d.truncate 32 : BitVec 32)).toInt }

/-- A window within a tile's shape (R259). -/
def Within (w : CopyWin) (k : Tile) : Prop := w.row0 + w.nr ≤ k.rows ∧ w.nc ≤ k.cols

/-- A die that has the pod window, or rows of which none begins there (R13, R371). -/
def RowsReach (s : State) (bases : List Nat) (w : CopyWin) : Prop :=
  s.hasFeat (coreOf s.th).die 10 = true ∨ ∀ b ∈ bases, ∀ i < w.nr, bitsAt (((b : Int) + (i : Int) * w.stride) % 2 ^ 64).toNat 56 8 ≠ 255

/-- Room for a command: fewer than 255 on each of its tiles, and room in its engine, for which no other thread waits (R57, R117, R162). -/
def RoomFor (s : State) (op : CmdOp) : Prop := (∀ k ∈ op.pendTiles, pendOf s k < 255) ∧ engineOpen s op.matrix s.th = true

/-! Terms of the vector statements. -/

/-- The current thread runs vector instructions of a feature, outside a debug session (R154, R371). -/
def VecReady (feat : Nat) (s : State) : Prop := Plain s ∧ clsOf s.th = .v ∧ s.hasFeat (coreOf s.th).die feat = true ∧ s.session s.th.tid = none

/-- A vector register that an instruction may write (R298), and whose image is in canonical form. -/
def Writable (s : State) (vd : Reg) : Prop := (s.th.status.mm = false ∨ vd.toNat < 16) ∧ (readV s.th vd).bytes.wf 0 = true

/-- Whether element j is one that an instruction works on: from VEIDX to VL − 1, and set in v0 when the mask bit is 1 (R271). -/
def works (s : State) (m : Bool) (j : Nat) : Bool := decide (s.th.vec.veidx ≤ j) && decide (j < s.th.vec.vl) && (!m || (getElem s.th 0 j).testBit 0)

/-- The elements that an instruction works on, in order. -/
def worked (s : State) (m : Bool) : List Nat := (List.range s.th.vec.vl).filter (works s m)

/-- A vector instruction completes with v[vd].e[j] := f j for every j, VEIDX 0 and flags accrued, and nothing else changed but FPV and the pc. -/
structure WritesElems (i : Instr) (s : State) (vd : Reg) (f : Nat → Nat) (fl : FpFlags) : Prop where
  completes : ∃ t, exec i s = .next t ∧ t.th.pc = pcAfter 4 s ∧ t.th.vec.veidx = 0 ∧ t.th.vec.vl = s.th.vec.vl ∧ t.th.fflags = flagsAfter s fl ∧
    t.th.status = { s.th.status with fpv := s.th.status.fpv || (decide (fl ≠ 0) && !suppressed s) } ∧ (∀ j, getElem t.th vd j = f j) ∧
    Kept s t [] [] [vd] [.veidx, .fflags, .status]

/-- An elementwise instruction: f gives an element and its flags, for the elements that it works on; the others keep their value (R271, R283). -/
def Elementwise (i : Instr) (s : State) (m : Bool) (vd : Reg) (f : Nat → Nat × FpFlags) : Prop :=
  WritesElems i s vd (fun j => if works s m j then (f j).1 else getElem s.th vd j) ((worked s m).foldl (fun a j => a ||| (f j).2) 0)

/-- Element j of the second operand of an integer form, at SEW bits (R280); a shift's immediate is unsigned. -/
def srcElem (s : State) (src : VSrc) (shift : Bool) (j : Nat) : Nat :=
  match src with
  | .vec v => getElem s.th v j
  | .xreg x => (s.rx x).toNat % 2 ^ sewBits s.th
  | .imm k => if shift then k.toNat else wrap (sewBits s.th) k.toInt

/-- An exact result rounded once under the rounding in force for element j, in a format (R283). -/
def roundedElem (s : State) (f : BinFmt) (j : Nat) (x : Exact) : Nat × FpFlags :=
  let out := roundTo f (roundingInForce s .dyn j) x.1
  (out.1, out.2 ||| x.2)

/-- Entry C[i][j] of the accumulator (R296). -/
def accEntry (t : Thread) (i j : Nat) : Nat := getElem t (BitVec.ofNat 5 (16 + j / 32)) (j % 32 * lanesOfThread t + i)

/-! Terms of the statements about events. -/

/-- The field [hi:lo] of a word, as a number. -/
def field (w : Word) (hi lo : Nat) : Nat := w.toNat / 2 ^ lo % 2 ^ (hi + 1 - lo)

/-- The current thread is the live thread of a name, and waits in a way given. -/
def WaitsIn (s : State) (t : Tid) (w : Wait) : Prop := s.th.tid = t ∧ s.th.run = .parked w

/-- An event leaves the thread, the other threads and every byte of memory as they were. -/
structure Apart (s t : State) : Prop where
  th : t.th = s.th
  others : t.others = s.others
  bytes : KeptBytes s t

/-- What a tile keeps of an element written to it (R255). -/
def keptElem (f : Fmt) (v : Nat) : Nat := if f = .lns6 then v % 64 else v % 2 ^ f.width

/-- Element j of packed bytes in a format (R255, R258): two to a byte in a 4-bit format, the even one low. -/
def packedElem (f : Fmt) (b : Nat → Byte) (j : Nat) : Nat :=
  if f.width = 4 then (b (j / 2)).toNat / (if j % 2 = 0 then 1 else 16) % 16 else leNat ((List.range (f.width / 8)).map fun k => b (j * (f.width / 8) + k))

/-- The RAS log is off, so that an error leaves no record (R91). -/
def RasOff (s : State) : Prop := (s.reg10 .rasbase).getLsbD 63 = false


/-- A state in which Glade makes the accesses of an action, with the answers of other packages that it already has (R133). -/
def acts (s : State) (key : GladeKey) : State := { s with gl := { s.gl with acting := some ⟨(look s.gl.asks key).getD [], false⟩ } }

/-- The state after an action of Glade, which is over. -/
def acted (key : GladeKey) (s : State) : State := { s with gl := { s.gl with acting := none, asks := unassoc s.gl.asks key } }

/-- The images of every vector register and tile are in canonical form, and no shape has more than 512 columns (R293). -/
structure ImagesOk (s : State) : Prop where
  current : ∀ r, (readV s.th r).bytes.wf 0 = true
  others : ∀ t ∈ s.others, ∀ r, (readV t r).bytes.wf 0 = true
  tiles : ∀ k ∈ s.un.tiles, k.bytes.wf 0 = true
  cols : s.th.vec.cols ≤ 512 ∧ ∀ t ∈ s.others, t.vec.cols ≤ 512
end Sys2Proof.Claims

open Sys2Proof Sys2Proof.Machine Sys2Proof.Claims

/-! The base instructions. -/

/-- R215 to R218: what each register instruction of the base set writes to x[rd], for every operand, and that it changes nothing else. -/
def Obligations.IntegerRegister : Prop :=
  ∀ (s : State) (rd rs1 rs2 : Reg) (imm : BitVec 12) (up : BitVec 20) (sh : BitVec 6) (sw : BitVec 5) (long : BitVec 49), Plain s →
    let a := s.rx rs1
    let b := s.rx rs2
    let c : Word := imm.signExtend 64
    let lo := fun (w : Word) => w.truncate 32
    let sx := fun (w : BitVec 32) => w.signExtend 64
    (∀ p ∈ [ (Instr.lui rd up, (up ++ 0#12).signExtend 64), (.auipc rd up, s.th.pc + (up ++ 0#12).signExtend 64)
           , (.addi rd rs1 imm, a + c), (.slti rd rs1 imm, if a.toInt < c.toInt then 1 else 0), (.sltiu rd rs1 imm, if a.toNat < c.toNat then 1 else 0)
           , (.xori rd rs1 imm, a ^^^ c), (.ori rd rs1 imm, a ||| c), (.andi rd rs1 imm, a &&& c)
           , (.slli rd rs1 sh, a <<< sh.toNat), (.srli rd rs1 sh, a >>> sh.toNat), (.srai rd rs1 sh, a.sshiftRight sh.toNat)
           , (.add rd rs1 rs2, a + b), (.sub rd rs1 rs2, a - b), (.slt rd rs1 rs2, if a.toInt < b.toInt then 1 else 0)
           , (.sltu rd rs1 rs2, if a.toNat < b.toNat then 1 else 0), (.xor rd rs1 rs2, a ^^^ b), (.or rd rs1 rs2, a ||| b), (.and rd rs1 rs2, a &&& b)
           , (.sll rd rs1 rs2, a <<< (b.toNat % 64)), (.srl rd rs1 rs2, a >>> (b.toNat % 64)), (.sra rd rs1 rs2, a.sshiftRight (b.toNat % 64))
           , (.addiw rd rs1 imm, sx (lo (a + c))), (.addw rd rs1 rs2, sx (lo (a + b))), (.subw rd rs1 rs2, sx (lo (a - b)))
           , (.slliw rd rs1 sw, sx (lo a <<< sw.toNat)), (.srliw rd rs1 sw, sx (lo a >>> sw.toNat)), (.sraiw rd rs1 sw, sx ((lo a).sshiftRight sw.toNat))
           , (.sllw rd rs1 rs2, sx (lo a <<< (b.toNat % 32))), (.srlw rd rs1 rs2, sx (lo a >>> (b.toNat % 32)))
           , (.sraw rd rs1 rs2, sx ((lo a).sshiftRight (b.toNat % 32)))
           , (.andn rd rs1 rs2, a &&& ~~~b), (.rol rd rs1 rs2, a.rotateLeft (b.toNat % 64)), (.ror rd rs1 rs2, a.rotateRight (b.toNat % 64))
           , (.rori rd rs1 sh, a.rotateRight sh.toNat), (.bext rd rs1 rs2, if a.getLsbD (b.toNat % 64) then 1 else 0)
           , (.bexti rd rs1 sh, if a.getLsbD sh.toNat then 1 else 0) ], WritesX p.1 s 4 rd p.2) ∧
    WritesX (.liw rd long) s 8 rd (long.signExtend 64)

/-- R215, R216: the products, as integers; quotients round toward zero; a division by zero gives all ones and its remainder the dividend; the most
negative number by −1 gives itself and remainder 0. R217: what CLZ, CTZ, CPOP and REV8 count and move, said bit by bit. -/
def Obligations.MultiplyDivideBits : Prop :=
  (∀ (s : State) (rd rs1 rs2 : Reg), Plain s →
     let a := s.rx rs1
     let b := s.rx rs2
     let la : BitVec 32 := a.truncate 32
     let lb : BitVec 32 := b.truncate 32
     ∀ p ∈ [ (Instr.mul rd rs1 rs2, a.toInt * b.toInt), (.mulh rd rs1 rs2, a.toInt * b.toInt / 2 ^ 64), (.mulhsu rd rs1 rs2, a.toInt * b.toNat / 2 ^ 64)
           , (.mulhu rd rs1 rs2, a.toNat * b.toNat / 2 ^ 64), (.mulw rd rs1 rs2, (BitVec.ofInt 32 (a.toInt * b.toInt)).toInt)
           , (.div rd rs1 rs2, if b = 0 then -1 else a.toInt.tdiv b.toInt), (.divu rd rs1 rs2, if b = 0 then -1 else ((a.toNat / b.toNat : Nat) : Int))
           , (.rem rd rs1 rs2, if b = 0 then a.toInt else a.toInt.tmod b.toInt), (.remu rd rs1 rs2, if b = 0 then (a.toNat : Int) else ((a.toNat % b.toNat : Nat) : Int))
           , (.divw rd rs1 rs2, if lb = 0 then -1 else (BitVec.ofInt 32 (la.toInt.tdiv lb.toInt)).toInt)
           , (.divuw rd rs1 rs2, if lb = 0 then -1 else (BitVec.ofNat 32 (la.toNat / lb.toNat)).toInt)
           , (.remw rd rs1 rs2, if lb = 0 then la.toInt else la.toInt.tmod lb.toInt)
           , (.remuw rd rs1 rs2, if lb = 0 then la.toInt else (BitVec.ofNat 32 (la.toNat % lb.toNat)).toInt) ],
       WritesX p.1 s 4 rd (BitVec.ofInt 64 p.2)) ∧
  (∀ (s : State) (rd rs1 : Reg), Plain s →
     let a := s.rx rs1
     (∃ n, n ≤ 64 ∧ (∀ k, k < n → a.getLsbD (63 - k) = false) ∧ (n < 64 → a.getLsbD (63 - n) = true) ∧ WritesX (.clz rd rs1) s 4 rd (BitVec.ofNat 64 n)) ∧
     (∃ n, n ≤ 64 ∧ (∀ k, k < n → a.getLsbD k = false) ∧ (n < 64 → a.getLsbD n = true) ∧ WritesX (.ctz rd rs1) s 4 rd (BitVec.ofNat 64 n)) ∧
     WritesX (.cpop rd rs1) s 4 rd (BitVec.ofNat 64 (((List.range 64).map fun k => if a.getLsbD k then 1 else 0).sum)) ∧
     (∃ w : Word, (∀ k, k < 8 → w.extractLsb' (8 * k) 8 = a.extractLsb' (56 - 8 * k) 8) ∧ WritesX (.rev8 rd rs1) s 4 rd w))

/-! Control flow. -/

/-- R215: JAL, JALR and the branches go to their targets, each target aligned, and link pc + 4; a branch not taken goes on. R188: a transfer to a
target that is not a multiple of 4 takes 0x03 with VKIND 1 and the target in TVAL, and links nothing. -/
def Obligations.ControlTransfer : Prop :=
  (∀ (s : State) (rd rs1 rs2 : Reg) (far : BitVec 20) (imm off : BitVec 12), Plain s →
     let a := s.rx rs1
     let b := s.rx rs2
     (∀ p ∈ [ (Instr.jal rd far, s.th.pc + (far ++ 0#1).signExtend 64), (.jalr rd rs1 imm, (a + imm.signExtend 64) &&& ~~~1#64) ], p.2.toNat % 4 = 0 →
       ∃ t, exec p.1 s = .next t ∧ t.th.pc = p.2 ∧ t.rx rd = (if rd = 0 then 0 else s.th.pc + 4) ∧ Kept s t [rd] [] [] []) ∧
     (∀ p ∈ [ (Instr.beq rs1 rs2 off, decide (a = b)), (.bne rs1 rs2 off, decide (a ≠ b)), (.blt rs1 rs2 off, decide (a.toInt < b.toInt))
            , (.bge rs1 rs2 off, decide (b.toInt ≤ a.toInt)), (.bltu rs1 rs2 off, decide (a.toNat < b.toNat)), (.bgeu rs1 rs2 off, decide (b.toNat ≤ a.toNat)) ],
       (p.2 = true → (s.th.pc + (off ++ 0#1).signExtend 64).toNat % 4 = 0 → ∃ t, exec p.1 s = .next t ∧
         t.th.pc = s.th.pc + (off ++ 0#1).signExtend 64 ∧ Kept s t [] [] [] []) ∧
       (p.2 = false → ∃ t, exec p.1 s = .next t ∧ t.th.pc = pcAfter 4 s ∧ Kept s t [] [] [] []))) ∧
  (∀ (s : State) (rd rs1 rs2 : Reg) (far : BitVec 20) (imm off : BitVec 12), Plain s →
     let a := s.rx rs1
     let b := s.rx rs2
     let near := s.th.pc + (off ++ 0#1).signExtend 64
     ∀ p ∈ [ (Instr.jal rd far, true, s.th.pc + (far ++ 0#1).signExtend 64), (.jalr rd rs1 imm, true, (a + imm.signExtend 64) &&& ~~~1#64)
           , (.beq rs1 rs2 off, decide (a = b), near), (.bne rs1 rs2 off, decide (a ≠ b), near), (.blt rs1 rs2 off, decide (a.toInt < b.toInt), near)
           , (.bge rs1 rs2 off, decide (b.toInt ≤ a.toInt), near), (.bltu rs1 rs2 off, decide (a.toNat < b.toNat), near)
           , (.bgeu rs1 rs2 off, decide (b.toNat ≤ a.toNat), near) ],
       p.2.1 = true → p.2.2.toNat % 4 ≠ 0 → Traps p.1 s { cause := 0x03, tval := p.2.2, vkind := 1 })

/-! Traps. -/

/-- R333 to R337: a handler-delivered cause on a C- or V-core, outside a handler and with THANDLER.EN = 1, whose record lies in one page of this
package: the record goes to TCAUSE, TEPC, TVAL and TMICRO and to the 64 bytes at TSCRATCH, HND is set, the pc is THANDLER's address, and every other
register keeps its value. The record is an ordinary committed store: under MT 00 its 64 bytes stand in the core's write-through queue at the
translation of TSCRATCH's address, no other queued byte changes and no byte of memory does; under another type they are committed there, and no other
byte changes for a reader under their key. Where the spec leaves room, the reading is the model's: logs 24 and 58. -/
def Obligations.TrapInPlace : Prop :=
  ∀ (s s1 : State) (r : TrapReq) (x : Xlated), clsOf s.th ≠ .t → s.th.status.hnd = false → s.th.thandlerEn = true →
    r.cause ∉ [0x07, 0x10, 0x11, 0x18, 0x19, 0x1A, 0x1C, 0x20, 0x23] → s.session s.th.tid = none →
    partsUnder (withdraw s) (threadWalker (withdraw s) (withdraw s).th) (threadAcc (withdraw s).th .store false) [(s.th.tscratch.toNat * 64, 64)] [] =
      (.ok [.here x (s.th.tscratch.toNat * 64) 64], s1) → regionOf x.pa ≠ 2 →
    let u := takeTrap s r
    let t := u.th
    let ws := threadRecord s { r with stamp := r.stamp.or s.th.waitStamp } false false false false
    ws.length = 8 ∧ t.tcause = ws.getD 0 0 ∧ t.tepc = r.tepc.getD s.th.pc ∧ t.tval = r.tval ∧ t.tmicro = r.tmicro ∧ t.pc = s.th.thandler ++ 0#2 ∧
    t.status = { s.th.status with hnd := true } ∧ t.run = .running ∧ t.traps = s.th.traps + 1 ∧
    t.x = s.th.x ∧ t.f = s.th.f ∧ t.vec = s.th.vec ∧ t.fflags = s.th.fflags ∧ t.rndmode = s.th.rndmode ∧ t.thandler = s.th.thandler ∧
    t.tscratch = s.th.tscratch ∧ t.fmta = s.th.fmta ∧ t.fmtb = s.th.fmtb ∧ t.scla = s.th.scla ∧ t.sclb = s.th.sclb ∧ t.dsrseed = s.th.dsrseed ∧
    t.profctl = s.th.profctl ∧ t.thandlerEn = s.th.thandlerEn ∧
    (x.mt = 0 → KeptBytes s1 u ∧ ∀ a, wtByte u.ms (coreOf s.th) none a =
      if x.pa ≤ a ∧ a < x.pa + 64 then some ((wordsBytes ws).getD (a - x.pa) 0) else wtByte s1.ms (coreOf s.th) none a) ∧
    (x.mt ≠ 0 → Memory.wf s1.ms = true → (∀ e ∈ s1.ms.wtq, e.core ≠ coreOf s.th) → ∀ a, commByte u.ms x.key a =
      if x.pa ≤ a ∧ a < x.pa + 64 then (wordsBytes ws).getD (a - x.pa) 0 else commByte s1.ms x.key a)

/-- R336: dword 0 of a trap record: the cause in [7:0], IMP 8, TSRC 9, VX 10, MIC 11, HELD 12, SUP 13, INH 14, RECF 15, CLASS [19:16], LEVEL [22:20],
NOMV 23, VKIND [31:24]. R188, R238: TRET clears HND and PRIV, goes to TEPC and restarts the held commands of its thread; outside a handler it is
illegal, and to a misaligned TEPC it takes 0x03 with VKIND 1. -/
def Obligations.TrapReturn : Prop :=
  (∀ (r : TrapReq) (tepc : Word) (nomv recf inh sup sr : Bool) (time ctx tid seq : Nat),
     r.cause < 256 → r.cause ≠ 0x0D → r.fclass < 16 → r.flevel < 8 → r.vkind < 256 →
     let ws := record r tepc nomv recf inh sup sr time ctx tid seq
     let d := (ws.getD 0 0).toNat
     bitsAt d 0 8 = r.cause ∧ d.testBit 8 = r.imp ∧ d.testBit 9 = r.tsrc ∧ d.testBit 10 = r.veidx.isSome ∧ d.testBit 11 = r.mic ∧ d.testBit 12 = r.held ∧
     d.testBit 13 = sup ∧ d.testBit 14 = inh ∧ d.testBit 15 = recf ∧ bitsAt d 16 4 = r.fclass ∧ bitsAt d 20 3 = r.flevel ∧ d.testBit 23 = nomv ∧
     bitsAt d 24 8 = r.vkind ∧ ws.getD 1 0 = tepc ∧ ws.getD 2 0 = r.tval ∧ ws.getD 3 0 = r.tmicro ∧ ws.getD 5 0 = BitVec.ofNat 64 time ∧
     ws.getD 7 0 = BitVec.ofNat 64 seq) ∧
  (∀ (s : State), Plain s →
     (s.th.status.hnd = false → s.th.status.priv = false → Traps .tret s { cause := 0x03, tval := s.th.ibits }) ∧
     ((s.th.status.hnd = true ∨ s.th.status.priv = true) → s.th.tepc.toNat % 4 ≠ 0 → Traps .tret s { cause := 0x03, tval := s.th.tepc, vkind := 1 }) ∧
     ((s.th.status.hnd = true ∨ s.th.status.priv = true) → s.th.tepc.toNat % 4 = 0 → ∃ t, exec .tret s = .next t ∧ t.th.pc = s.th.tepc ∧
       t.th.status = { s.th.status with hnd := false, priv := false } ∧ t.th.x = s.th.x ∧ t.th.f = s.th.f ∧ t.th.vec = s.th.vec ∧ t.th.tepc = s.th.tepc ∧
       t.th.tcause = s.th.tcause ∧ t.th.tval = s.th.tval ∧ t.ms = s.ms ∧ t.others = s.others ∧
       (∀ c ∈ s.un.cmds, c.tid = s.th.tid → (∃ h, c.held = some h ∧ h.delivered = true) → { c with held := none } ∈ t.un.cmds) ∧
       (∀ c ∈ s.un.cmds, c.tid ≠ s.th.tid ∨ c.held = none → c ∈ t.un.cmds)))

/-! Memory. -/

/-- R215, R216, R220: a load in one line, with no gathered element at its address, completes with the bytes that R69, R73 and R80 give, extended as
its form says; no byte of memory changes, and no store leaves its queue. Where the spec leaves room, the reading is the model's: logs 21, 56 and 58.
-/
def Obligations.Loads : Prop :=
  ∀ (s s1 : State) (rd rs1 : Reg) (imm : BitVec 12) (x : Xlated), Plain s →
    (∀ p ∈ [ (Instr.lb rd rs1 imm, 1, fun v : Nat => (BitVec.ofNat 8 v).signExtend 64), (.lh rd rs1 imm, 2, fun v => (BitVec.ofNat 16 v).signExtend 64)
           , (.lw rd rs1 imm, 4, fun v => (BitVec.ofNat 32 v).signExtend 64), (.ld rd rs1 imm, 8, fun v => BitVec.ofNat 64 v)
           , (.lbu rd rs1 imm, 1, fun v => BitVec.ofNat 64 v), (.lhu rd rs1 imm, 2, fun v => BitVec.ofNat 64 v), (.lwu rd rs1 imm, 4, fun v => BitVec.ofNat 64 v) ],
      Cached s .load false (effective s rs1 imm) p.2.1 x s1 → Sound s1 x.pa → (∀ e ∈ s1.ms.wtq, e.core = coreOf s.th → e.key = x.key) →
      (∀ g ∈ s1.ms.gath, g.core ≠ coreOf s.th) → (∀ l, copyOf s1 x = some l → l.poisoned = false ∧ l.bytes.length = 128) →
      ∃ t v, exec p.1 s = .next t ∧ LoadGives s1 x p.2.1 v ∧ t.rx rd = (if rd = 0 then 0 else p.2.2 v) ∧ t.th.pc = pcAfter 4 s ∧
        KeptRegs s t [rd] [] [] [] ∧ KeptBytes s1 t ∧ t.ms.wtq = s1.ms.wtq ∧ t.others = s1.others ∧ t.un = s1.un) ∧
    (clsOf s.th ≠ .t → s.hasFeat (coreOf s.th).die 0 = true →
      ∀ p ∈ [ (Instr.flw rd rs1 imm, 4, fun v : Nat => 0xFFFFFFFF#32 ++ BitVec.ofNat 32 v), (.fld rd rs1 imm, 8, fun v => BitVec.ofNat 64 v) ],
      Cached s .load false (effective s rs1 imm) p.2.1 x s1 → Sound s1 x.pa → (∀ e ∈ s1.ms.wtq, e.core = coreOf s.th → e.key = x.key) →
      (∀ g ∈ s1.ms.gath, g.core ≠ coreOf s.th) → (∀ l, copyOf s1 x = some l → l.poisoned = false ∧ l.bytes.length = 128) →
      ∃ t v, exec p.1 s = .next t ∧ LoadGives s1 x p.2.1 v ∧ readF t.th rd = p.2.2 v ∧ t.th.status = { s.th.status with fpv := true } ∧ t.th.pc = pcAfter 4 s ∧
        KeptRegs s t [] [rd] [] [.status] ∧ KeptBytes s1 t ∧ t.ms.wtq = s1.ms.wtq ∧ t.others = s1.others ∧ t.un = s1.un)

/-- R73, R215, R220: a store of a C- or V-core in one line goes into its core's write-through queue: the core then sees the stored bytes at the
computed address, no other byte it sees changes, and no byte of committed or provisional memory does. R216, R343, R345: a store of a T-core is posted:
it completes at once, changes no byte of memory and no register, and is the newest posted store; after a faulted one it is discarded and counted.
R371: one to the pod window on a die that lacks it takes 0x1C. -/
def Obligations.Stores : Prop :=
  (∀ (s s1 : State) (rs1 rs2 : Reg) (imm : BitVec 12) (x : Xlated), Plain s → clsOf s.th ≠ .t →
     ∀ p ∈ [ (Instr.sb rs2 rs1 imm, 1, s.rx rs2), (.sh rs2 rs1 imm, 2, s.rx rs2), (.sw rs2 rs1 imm, 4, s.rx rs2), (.sd rs2 rs1 imm, 8, s.rx rs2)
           , (.fsw rs2 rs1 imm, 4, readF s.th rs2), (.fsd rs2 rs1 imm, 8, readF s.th rs2) ],
       ((∃ r i, p.1 = .fsw r rs1 i ∨ p.1 = .fsd r rs1 i) → s.hasFeat (coreOf s.th).die 0 = true) →
       Cached s .store false (effective s rs1 imm) p.2.1 x s1 →
       (s1.provStand s.th.tid.stand = none ∨ s.th.status.priv = true ∨
         (regionOf x.pa = 0 ∧ ∀ st, s1.provStand s.th.tid.stand = some st → provRoom s1 st (lineOf x.pa) = true)) →
       ∃ t, exec p.1 s = .next t ∧ t.th.pc = pcAfter 4 s ∧ KeptRegs s t [] [] [] [] ∧ KeptBytes s1 t ∧ t.others = s1.others ∧ t.un = s1.un ∧
         ∀ a, wtByte t.ms (coreOf s.th) (storeView s1) a =
           if x.pa ≤ a ∧ a < x.pa + p.2.1 then some (p.2.2.extractLsb' (8 * (a - x.pa)) 8) else wtByte s1.ms (coreOf s.th) (storeView s1) a) ∧
  (∀ (s : State) (rs1 rs2 : Reg) (imm : BitVec 12), Plain s → clsOf s.th = .t →
     (∀ p ∈ [ (Instr.sb rs2 rs1 imm, 1, effective s rs1 imm, s.rx rs2), (.sh rs2 rs1 imm, 2, effective s rs1 imm, s.rx rs2)
            , (.sw rs2 rs1 imm, 4, effective s rs1 imm, s.rx rs2), (.sd rs2 rs1 imm, 8, effective s rs1 imm, s.rx rs2)
            , (.lineopZero rs1, 128, (s.rx rs1).toNat / 128 * 128, 0) ],
       (lacksWindow s (coreOf s.th).die (pagesOf p.2.2.1 p.2.1) = true → Traps p.1 s { cause := 0x1C, tval := 10 }) ∧
       (lacksWindow s (coreOf s.th).die (pagesOf p.2.2.1 p.2.1) = false →
       ((∀ f ∈ s.ms.sfq, f.tid ≠ s.th.tid) → ∃ t e, exec p.1 s = .next t ∧ t.th.pc = pcAfter 4 s ∧ KeptRegs s t [] [] [] [] ∧ KeptBytes s t ∧
         t.ms = { s.ms with posted := s.ms.posted ++ [e] } ∧ e.tid = s.th.tid ∧ e.va = p.2.2.1 ∧ e.bytes.length = p.2.1 ∧ e.pc = s.th.pc ∧
         (∀ k, k < p.2.1 → e.bytes.getD k 0 = p.2.2.2.extractLsb' (8 * k) 8) ∧ t = { s with th := t.th, ms := t.ms }) ∧
       ((∃ f ∈ s.ms.sfq, f.tid = s.th.tid) → ∃ t, exec p.1 s = .next t ∧ t.th.pc = pcAfter 4 s ∧ KeptRegs s t [] [] [] [] ∧
         t.th.ndisc = s.th.ndisc + 1 ∧ t = { s with th := t.th }))))

/-- R226: an LDA with nothing under way loads as a load does, and drops its core's copies when its scope is quad or wider; no byte of memory changes.
R73, R78, R226: an STL with nothing under way: at core scope or lane its bytes stand in the core's queue; at a wider scope they are committed, read by
every reader under their key, and no other byte changes for it. Where the spec leaves room, the reading is the model's: logs 11 and 58. -/
def Obligations.AcquireRelease : Prop :=
  (∀ (s s1 : State) (rd rs1 : Reg) (dw : Bool) (scope : Scope) (x : Xlated), Plain s →
     let n := if dw then 8 else 4
     (s.rx rs1).toNat % n = 0 → Cached s .load false (s.rx rs1).toNat n x s1 → Sound s1 x.pa → Quiet s1 → (∀ g ∈ s1.ms.gath, g.core ≠ coreOf s.th) →
     (∀ l, copyOf s1 x = some l → l.poisoned = false ∧ l.bytes.length = 128) →
     ∃ t v, exec (.lda dw scope rd rs1) s = .next t ∧ LoadGives s1 x n v ∧
       t.rx rd = (if rd = 0 then 0 else if dw then BitVec.ofNat 64 v else (BitVec.ofNat 32 v).signExtend 64) ∧ t.th.pc = pcAfter 4 s ∧
       KeptRegs s t [rd] [] [] [] ∧ KeptBytes s1 t ∧ (2 ≤ scope.code → ∀ l ∈ t.ms.l1d, l.core ≠ coreOf s.th)) ∧
  (∀ (s s1 : State) (rs1 rs2 : Reg) (dw : Bool) (scope : Scope) (x : Xlated), Plain s →
     let n := if dw then 8 else 4
     (s.rx rs1).toNat % n = 0 → Cached s .store false (s.rx rs1).toNat n x s1 → Quiet s1 →
     ∃ t, exec (.stl dw scope rs2 rs1) s = .next t ∧ t.th.pc = pcAfter 4 s ∧ KeptRegs s t [] [] [] [] ∧
       (scope.code ≤ 1 → KeptBytes s1 t ∧ ∀ a, wtByte t.ms (coreOf s.th) none a =
         if x.pa ≤ a ∧ a < x.pa + n then some ((s.rx rs2).extractLsb' (8 * (a - x.pa)) 8) else none) ∧
       (2 ≤ scope.code → (∀ e ∈ t.ms.wtq, e.core ≠ coreOf s.th) ∧ ∀ a, commByte t.ms x.key a =
         if x.pa ≤ a ∧ a < x.pa + n then (s.rx rs2).extractLsb' (8 * (a - x.pa)) 8 else commByte s1.ms x.key a))

/-- R108, R225, R226: a read-modify-write with nothing under way: x[rd] is the old value, the one that the order of the writes of its bytes gives,
sign-extended; the new value stands at the address at once, as every reader under its key sees it, and no other byte changes for it; AMOCAS writes
only when the old value is x[rd]'s. Where the spec leaves room, the reading is the model's: log 75. -/
def Obligations.Atomics : Prop :=
  ∀ (s s1 : State) (rd rs1 rs2 : Reg) (dw : Bool) (ord : MemOrd) (scope : Scope) (x : Xlated) (old : Nat), Plain s →
    let n := if dw then 8 else 4
    let va := (s.rx rs1).toNat
    va % n = 0 → (∀ p ∈ s.ms.posted, p.tid ≠ s.th.tid) → threadParts s .atomic false va n = .ok [.here x va n] s1 → x.pa % 128 + n ≤ 128 →
    Memory.wf s1.ms = true → Sound s1 x.pa → Quiet s1 → Finds (releasedFor s1 ord scope) x n scope old →
    let src := (s.rx rs2).toNat % 2 ^ (8 * n)
    let sg := fun v : Nat => if v < 2 ^ (8 * n - 1) then (v : Int) else (v : Int) - 2 ^ (8 * n)
    let ff := fun (f : BinFmt) => (finish f rne (fpAdd .rne (f.value old) (f.value src))).1
    ∀ p ∈ [ (Instr.amoswap dw ord scope rd rs2 rs1, some src), (.amoadd dw ord scope rd rs2 rs1, some ((old + src) % 2 ^ (8 * n)))
          , (.amoand dw ord scope rd rs2 rs1, some (old &&& src)), (.amoor dw ord scope rd rs2 rs1, some (old ||| src))
          , (.amoxor dw ord scope rd rs2 rs1, some (old ^^^ src)), (.amomin dw ord scope rd rs2 rs1, some (if sg src < sg old then src else old))
          , (.amomax dw ord scope rd rs2 rs1, some (if sg old < sg src then src else old)), (.amominu dw ord scope rd rs2 rs1, some (min old src))
          , (.amomaxu dw ord scope rd rs2 rs1, some (max old src))
          , (.amocas dw ord scope rd rs2 rs1, if old = (s.rx rd).toNat % 2 ^ (8 * n) then some src else none)
          , (.amofadd dw ord scope rd rs2 rs1, some (if dw then ff fp64 else ff fp32)) ],
      ∃ t, exec p.1 s = .next t ∧ t.rx rd = (if rd = 0 then 0 else if dw then BitVec.ofNat 64 old else (BitVec.ofNat 32 old).signExtend 64) ∧
        t.th.pc = pcAfter 4 s ∧ KeptRegs s t [rd] [] [] [] ∧ t.others = s1.others ∧ t.un = s1.un ∧
        ∀ a, commByte t.ms x.key a = match p.2 with
          | some v => if x.pa ≤ a ∧ a < x.pa + n then BitVec.ofNat 8 (v / 2 ^ (8 * (a - x.pa))) else commByte s1.ms x.key a
          | none => commByte s1.ms x.key a

/-! Synchronisation. -/

/-- R99, R115, R227, R231: a FENCE, and an SDRAIN, of a thread with no posted store, no request outstanding and no error in its task's lines
completes; a release at quad scope or wider, and an SDRAIN, leave no store in the core's write-through queue; an acquire at quad scope or wider leaves
no copy in the core's L1D; no register changes. One of a thread that has nothing under way changes no byte of memory. -/
def Obligations.FencesComplete : Prop :=
  ∀ (s : State) (ord : FenceOrd) (scope : Scope), Plain s →
    ((∀ p ∈ s.ms.posted, p.tid ≠ s.th.tid) → (∀ f ∈ s.ms.sfq, f.tid ≠ s.th.tid) → (∀ o ∈ s.pod.out, o.tid ≠ s.th.tid) →
      (∀ e ∈ s.ms.ecc, e.prov ≠ some s.th.tid.stand) →
      (∃ t, exec (.fence ord scope) s = .next t ∧ t.th.pc = pcAfter 4 s ∧ KeptRegs s t [] [] [] [] ∧
        (ord ≠ .acq → 2 ≤ scope.code → ∀ e ∈ t.ms.wtq, e.core ≠ coreOf s.th) ∧
        (ord ≠ .rel → 2 ≤ scope.code → (∀ l ∈ t.ms.l1d, l.core ≠ coreOf s.th) ∧ ∀ g ∈ t.ms.gath, g.core ≠ coreOf s.th)) ∧
      (∃ t, exec .sdrain s = .next t ∧ t.th.pc = pcAfter 4 s ∧ KeptRegs s t [] [] [] [] ∧ ∀ e ∈ t.ms.wtq, e.core ≠ coreOf s.th)) ∧
    (Quiet s → ∀ i ∈ [Instr.fence ord scope, .sdrain], ∃ t, exec i s = .next t ∧ KeptBytes s t ∧ t.others = s.others ∧ t.un = s.un ∧ t.gl = s.gl)

/-- R229: an arrival at a barrier's open episode returns EP and counts; the arrival that reaches N completes the episode, and EP goes up by one. One
that disagrees about N is illegal; a thread that has arrived waits for the next episode. R230: BARWAIT returns when its episode has completed, waits
when it has not, and takes 0x24 for the abandoned one. Where the spec leaves room, the reading is the model's: logs 47 and 87. -/
def Obligations.Barriers : Prop :=
  (∀ (s : State) (scope : Scope) (rd rs1 : Reg) (num : BitVec 6), Plain s → Quiet s →
     let k : BarKey := ⟨barSpace s scope, scope, num.toNat⟩
     let b := s.barrier k
     let n := if scope = .lane then 1 else if s.rx rs1 = 0 then standCount s s.th.tid.stand else (s.rx rs1).toNat % 2 ^ 16
     b.abandoned = none →
     (s.th.tid ∉ b.arrived → (b.n = none ∨ b.n = some n) → ∃ t, exec (.barrive scope rd num rs1) s = .next t ∧
       t.rx rd = (if rd = 0 then 0 else BitVec.ofNat 64 b.ep) ∧ t.th.pc = pcAfter 4 s ∧ KeptRegs s t [rd] [] [] [] ∧ KeptBytes s t ∧
       t.barrier k = (if b.count + 1 < n then { b with n := some n, count := b.count + 1, arrived := b.arrived ++ [s.th.tid], lastNs := s.clk.time }
         else { b with ep := b.ep + 1, n := none, count := 0, arrived := [], lastNs := s.clk.time }) ∧
       (∀ k', k' ≠ k → t.barrier k' = s.barrier k')) ∧
     (s.th.tid ∉ b.arrived → (∃ m, b.n = some m ∧ m ≠ n) → exec (.barrive scope rd num rs1) s =
       .next (takeTrap (countIssue (if 4 ≤ scope.code then showOwn s else s)) { cause := 0x03, tval := s.th.ibits })) ∧
     (s.th.tid ∈ b.arrived → ∃ t, exec (.barrive scope rd num rs1) s = .next t ∧ t.th.run = .parked (.rearrive k b.ep) ∧ t.th.pc = s.th.pc)) ∧
  (∀ (s : State) (scope : Scope) (num : BitVec 6) (rs1 : Reg), Plain s →
     let k : BarKey := ⟨barSpace s scope, scope, num.toNat⟩
     let b := s.barrier k
     let e := (s.rx rs1).toNat
     ((∀ a, b.abandoned = some a → a.episode ≠ e) →
       (e < b.ep → ∃ t, exec (.barwait scope num rs1) s = .next t ∧ t.th.pc = pcAfter 4 s ∧ KeptRegs s t [] [] [] [] ∧ KeptBytes s t ∧ t.un = s.un ∧
         (2 ≤ scope.code → ∀ l ∈ t.ms.l1d, l.core ≠ coreOf s.th)) ∧
       (b.ep ≤ e → ∃ t, exec (.barwait scope num rs1) s = .next t ∧ t.th.run = .parked (.barrier k e) ∧ t.th.pc = s.th.pc ∧ t.ms = s.ms ∧ t.un = s.un)) ∧
     (∀ a, b.abandoned = some a → a.episode = e → Traps (.barwait scope num rs1) s
       { cause := 0x24, tval := BitVec.ofNat 64 (e % 2 ^ 48 * 2 ^ 16 + scope.code * 2 ^ 8 + num.toNat), vkind := 1 }))

/-- R120, R124, R137, R232: TLREAD and TLREAD.t return VAL and STAMP and change no register else and no byte; TLWAIT returns VAL once it has reached
x[rs1], and waits before. -/
def Obligations.Timelines : Prop :=
  ∀ (s : State) (rd rs1 : Reg) (tl : Tl) (sp : Space), Plain s → s.session s.th.tid = none → spaceOf s s.th (tlLevel tl.toNat) = some sp →
    let k : TlKey := ⟨sp, tl.toNat⟩
    (∃ t, exec (.tlread rd tl) s = .next t ∧ t.rx rd = (if rd = 0 then 0 else BitVec.ofNat 64 (s.tl k).val) ∧ t.th.pc = pcAfter 4 s ∧
      KeptRegs s t [rd] [] [] [] ∧ KeptBytes s t ∧ t = { s with th := t.th, ms := { s.ms with carriers := t.ms.carriers } }) ∧
    WritesX (.tlreadT rd tl) s 4 rd (BitVec.ofNat 64 (s.tl k).stamp) ∧
    ((∀ c ∈ s.un.cmds, c.tid ≠ s.th.tid ∨ c.key ≠ k ∨ c.held = none) →
      ((s.rx rs1).toNat ≤ (s.tl k).val → ∃ t, exec (.tlwait rd tl rs1) s = .next t ∧ t.rx rd = (if rd = 0 then 0 else BitVec.ofNat 64 (s.tl k).val) ∧
        t.th.pc = pcAfter 4 s ∧ KeptRegs s t [rd] [] [] [] ∧ KeptBytes s t ∧ t.un = s.un ∧ (8 ≤ tl.toNat → ∀ l ∈ t.ms.l1d, l.core ≠ coreOf s.th)) ∧
      ((s.tl k).val < (s.rx rs1).toNat → ∃ t, exec (.tlwait rd tl rs1) s = .next t ∧ t.th.run = .parked (.timeline k (s.rx rs1).toNat) ∧
        t.th.pc = s.th.pc ∧ t.ms = s.ms ∧ t.un = s.un))

/-- R233: an MSEND to a thread returns 2 when no live thread of its partition has the THREADID, 1 when the receiver's queue of 16 is full, and else 0,
and then the message is on its way to the receiver, and no register else, no byte and no other thread changes. R234: MWAITF takes the oldest message,
its payload to x[rd] and its sender with bit 63 set to x[rt]; when its limit has run out, both are 0; else it waits. -/
def Obligations.Messages : Prop :=
  (∀ (s : State) (rd rs1 rs2 : Reg), Plain s → Quiet s → gangStopped s = false → (s.rx rs1).toNat.testBit 63 = false →
     let dest := (s.rx rs1).toNat % 2 ^ 32
     ((∀ r, threadOfWord s dest = some r → s.partOf r.ctx ≠ s.partOf s.th.ctx) → WritesX (.msend rd rs1 rs2) s 4 rd 2) ∧
     (∀ r, threadOfWord s dest = some r → s.partOf r.ctx = s.partOf s.th.ctx →
       (16 ≤ queuedFor s r → WritesX (.msend rd rs1 rs2) s 4 rd 1) ∧
       (queuedFor s r < 16 → ∃ t, exec (.msend rd rs1 rs2) s = .next t ∧ t.rx rd = 0 ∧ t.th.pc = pcAfter 4 s ∧ KeptRegs s t [rd] [] [] [] ∧
         t.gl = { s.gl with flights := s.gl.flights ++ [⟨r.tid, ⟨s.rx rs2, s.th.tid, knownTo s.ms s.th.tid⟩⟩] } ∧ KeptBytes s t ∧ t.ms.wtq = s.ms.wtq ∧ t.un = s.un ∧
         t.others = s.others))) ∧
  (∀ (s : State) (rd rt rs1 : Reg), Plain s → s.session s.th.tid = none → (rd = 0 ∨ rt ≠ rd) →
     (s.th.expired = true → ∃ t, exec (.mwaitf rd rt rs1) s = .next t ∧ t.rx rd = 0 ∧ t.rx rt = 0 ∧ t.th.pc = pcAfter 4 s ∧ t.th.rxq = s.th.rxq ∧
       KeptRegs s t [rd, rt] [] [] [] ∧ KeptBytes s t) ∧
     (s.th.expired = false → ∀ m rest, s.th.rxq = m :: rest → m.sender ≠ noSender → ∃ t, exec (.mwaitf rd rt rs1) s = .next t ∧
       t.rx rd = (if rd = 0 then 0 else m.payload) ∧ t.rx rt = (if rt = 0 then 0 else BitVec.ofNat 64 (2 ^ 63 + m.sender.word)) ∧ t.th.rxq = rest ∧
       t.th.pc = pcAfter 4 s ∧ KeptRegs s t [rd, rt] [] [] [] ∧ KeptBytes s t ∧ ∀ l ∈ t.ms.l1d, l.core ≠ coreOf s.th) ∧
     (s.th.expired = false → s.th.rxq = [] → ∃ t l, exec (.mwaitf rd rt rs1) s = .next t ∧ t.th.run = .parked (.mwaitf l) ∧ t.th.pc = s.th.pc ∧
       (l = if s.rx rs1 = 0 then none else some (s.dieCycle (coreOf s.th).die + (s.rx rs1).toNat))))

/-- R138, R233: a SPAWN outside the stand's quad, or past its limits, returns 2; with no free place on the named core it returns 1 and is remembered
for a notice; else it returns 0 and the new thread starts at the entry x[rs2] with the lowest free index. -/
def Obligations.Spawns : Prop :=
  ∀ (s : State) (rd rs1 rs2 : Reg) (st : Stand), Plain s → Quiet s → gangStopped s = false → (s.rx rs1).toNat.testBit 63 = true →
    s.stand? s.th.tid.stand = some st →
    let w := (s.rx rs1).toNat
    let c : CoreId := ⟨w / 2 ^ 17 % 32, w / 2 ^ 10 % 128, w / 2 ^ 8 % 4⟩
    let n := standCount s st.id
    let limit := match classOfDie st.die with | .c => 8 | .v => 16 | .t => 64
    ((c.die ≠ st.die ∨ c.quad ≠ st.quad ∨ limit ≤ n) → WritesX (.msend rd rs1 rs2) s 4 rd 2) ∧
    (∀ ix j, c.die = st.die → c.quad = st.quad → n < limit → freeIndex s st.id = some ix → s.job? st.packet.job = some j → ix < j.slots →
      (spawnPlace s c st.part = none → ∃ t, exec (.msend rd rs1 rs2) s = .next t ∧ t.rx rd = (if rd = 0 then 0 else 1) ∧ t.th.pc = pcAfter 4 s ∧
        KeptRegs s t [rd] [] [] [] ∧ t.ms = s.ms ∧ t.gl = { s.gl with refused := s.gl.refused ++ [(c, s.th.tid)] }) ∧
      (∀ p, spawnPlace s c st.part = some p → ∃ t q, exec (.msend rd rs1 rs2) s = .next t ∧ t.rx rd = 0 ∧ t.th.pc = pcAfter 4 s ∧
        KeptRegs s t [rd] [] [] [] ∧ KeptBytes s t ∧ t.gl = { s.gl with spawns := s.gl.spawns ++ [q] } ∧ q.tid = ⟨st.id, ix⟩ ∧ q.place = p ∧
        q.entry = s.rx rs2 ∧ q.sender = s.th.tid ∧ q.count = n + 1 ∧ q.csa = st.packet.csa + BitVec.ofNat 64 (ix * 0x101000)))

/-! System registers. -/

/-- R135, R136, R141, R142, R148, R172, R173, R195, R241, R260, R262, R268, R269, R293, R335, R364: what SRRD returns, register by register, outside a
debug session. -/
def Obligations.SystemRegisterReads : Prop :=
  ∀ (s : State) (rd : Reg) (n : BitVec 3), Plain s → s.session s.th.tid = none →
    let t := s.th
    let v := t.vec
    let c := coreOf t
    let b := BitVec.ofBool
    let num := BitVec.ofNat 64
    (∀ p ∈ [ (SReg.status, 0#58 ++ b t.status.nomig ++ b t.status.mm ++ b t.status.fpv ++ b t.status.chain ++ b t.status.hnd ++ b t.status.priv)
           , (.thandler, t.thandler ++ 0#1 ++ b t.thandlerEn), (.tscratch, t.tscratch ++ 0#6), (.tcause, t.tcause), (.tepc, t.tepc), (.tval, t.tval)
           , (.tmicro, t.tmicro), (.rndmode, num t.rndmode.code), (.dsrseed, 0#32 ++ t.dsrseed), (.fmta, num t.fmta.code), (.fmtb, num t.fmtb.code)
           , (.scla, 0#55 ++ b t.scla.en ++ t.scla.handle), (.sclb, 0#55 ++ b t.sclb.en ++ t.sclb.handle), (.time, num s.clk.time)
           , (.cycle, num (s.dieCycle c.die)), (.threadid, num (t.tid.stand % 2 ^ 16 * 2 ^ 16 + t.tid.index % 64)), (.profctl, t.profctl)
           , (.diefeat, s.dieFeat c.die) ], WritesX (.srrd rd p.1) s 4 rd p.2) ∧
    (∀ p, t.place = some p → WritesX (.srrd rd .classid) s 4 rd (num ((classOfDie p.at_.die).code * 2 ^ 22 + p.at_.die % 32 * 2 ^ 17 +
      p.at_.quad % 128 * 2 ^ 10 + p.at_.core % 4 * 2 ^ 8 + p.slot % 16 * 2 ^ 4))) ∧
    (clsOf t ≠ .t → WritesX (.srrd rd .fflags) s 4 rd (0#59 ++ t.fflags)) ∧
    (clsOf t = .t → WritesX (.srrd rd .tileshape) s 4 rd 0x400040 ∧ WritesX (.srrd rd (.h n)) s 4 rd (hValue s c n (s.dieCycle c.die))) ∧
    (clsOf t = .v → ∀ p ∈ [ (SReg.vcfg, num (v.lpref * 2 ^ 16 + v.lmin * 2 ^ 8 + (if t.status.mm then 32 else 0) + v.scope.code * 4 + v.sew.code))
                          , (.vl, num v.vl), (.veidx, num v.veidx), (.mshape, num (v.cols * 2 ^ 16 + v.rows))
                          , (.lease, num (poolOf s c.die c.quad * 2 ^ 8 + (if v.pin then 128 else 0) + v.grant))
                          , (.stripbase, v.stripBase ++ v.stripIdx ++ 0#4 ++ b v.stripEn) ], WritesX (.srrd rd p.1) s 4 rd p.2)

/-- R154, R186, R189, R226, R237: causes that an instruction itself names. R154, R195, R196, R241: every access to a register that the class lacks
takes a migration cause; a write of a read-only register is illegal, but SRSET and SRCLR with x0 write nothing and are not. R141, R250: a write that
sets CHAIN off a T-core takes 0x16; R262: a reserved code written to FMTA or FMTB is illegal. That an SRSET or SRCLR with x0 of a read-only register
writes nothing is the model's reading (log 54), and so is that R262, and not R163, gives the cause of a reserved code (log 76). -/
def Obligations.NamedCauses : Prop :=
  (∀ (s : State) (scope : Scope) (rs1 rs2 rd : Reg) (fmt : FpFmt) (m : Bool) (src : VSrc) (dw : Bool) (ord : MemOrd), Plain s →
     Traps .syscall s { cause := 0x20, tepc := some (s.th.pc + 4), tval := 0 } ∧ Traps .brk s { cause := 0x06, tval := 0 } ∧
     (s.th.status.priv = false → Traps (.tlbinv scope rs1 rs2) s { cause := 0x05, tval := s.th.ibits }) ∧
     (clsOf s.th = .t → Traps (.fadd fmt .dyn rd rs1 rs2) s { cause := 0x1A, tval := 0 }) ∧
     (clsOf s.th ≠ .v → Traps (.vadd m rd rs2 src) s { cause := 0x18, tval := 0 }) ∧
     (clsOf s.th ≠ .t → Traps (.taccrd m .dyn false false rd 0 0) s { cause := 0x19, tval := 0 }) ∧
     ((s.rx rs1).toNat % (if dw then 8 else 4) ≠ 0 → Traps (.amoadd dw ord scope rd rs2 rs1) s { cause := 0x0C, tval := s.rx rs1 } ∧
       Traps (.lda dw scope rd rs1) s { cause := 0x0C, tval := s.rx rs1 } ∧ Traps (.stl dw scope rs2 rs1) s { cause := 0x0C, tval := s.rx rs1 })) ∧
  (∀ (s : State) (rd rs1 : Reg) (n : BitVec 3), Plain s → s.session s.th.tid = none →
     (∀ r ∈ [SReg.vcfg, .vl, .veidx, .lease, .mshape, .stripbase], clsOf s.th ≠ .v →
       ∀ i ∈ [Instr.srrd rd r, .srwr rd r rs1, .srset rd r rs1, .srclr rd r rs1], Traps i s { cause := 0x18, tval := 0 }) ∧
     (∀ r ∈ [SReg.tileshape, .h n], clsOf s.th ≠ .t →
       ∀ i ∈ [Instr.srrd rd r, .srwr rd r rs1, .srset rd r rs1, .srclr rd r rs1], Traps i s { cause := 0x19, tval := 0 }) ∧
     (clsOf s.th = .t → ∀ i ∈ [Instr.srrd rd .fflags, .srwr rd .fflags rs1, .srset rd .fflags rs1, .srclr rd .fflags rs1],
       Traps i s { cause := 0x1A, tval := 0 }) ∧
     (∀ r ∈ [SReg.time, .cycle, .threadid, .classid, .diefeat, .vl, .lease, .mshape, .tileshape], (r ∈ [SReg.vl, .lease, .mshape] → clsOf s.th = .v) →
       (r = .tileshape → clsOf s.th = .t) →
       Traps (.srwr rd r rs1) s { cause := 0x03, tval := s.th.ibits } ∧
       (rs1 ≠ 0 → Traps (.srset rd r rs1) s { cause := 0x03, tval := s.th.ibits } ∧ Traps (.srclr rd r rs1) s { cause := 0x03, tval := s.th.ibits }) ∧
       WritesX (.srset rd r 0) s 4 rd (readSys s s.th r) ∧ WritesX (.srclr rd r 0) s 4 rd (readSys s s.th r)) ∧
     ((s.rx rs1).getLsbD 2 = true → clsOf s.th ≠ .t → Traps (.srwr rd .status rs1) s { cause := 0x16, tval := 0x0500 }) ∧
     ((s.rx rs1).toNat % 16 ∈ [13, 14, 15] → Traps (.srwr rd .fmta rs1) s { cause := 0x03, tval := s.th.ibits } ∧
       Traps (.srwr rd .fmtb rs1) s { cause := 0x03, tval := s.th.ibits }))

/-- R241 and the maps of the registers: SRWR, SRSET and SRCLR write x[rs1], the old value with its bits set, or with them cleared; the register then
holds the value's writable fields, x[rd] the old value, and no other register changes. R148, R173, R268, R275, R278: the writes that only some classes
have: FFLAGS, which sets FPV; VCFG, whose new SEW sets VL to 0, with a reserved scope and counts out of range illegal, and SEW, LMIN and LPREF fixed
in matrix mode (0x12, reason 0x02); VEIDX and STRIPBASE; an h register, which its core reads eight cycles later and not before. -/
def Obligations.SystemRegisterWrites : Prop :=
  (∀ (s : State) (r : SReg) (rd rs1 : Reg) (w : Word), Plain s → s.session s.th.tid = none →
     ∀ p ∈ [ (Instr.srwr rd r rs1, s.rx rs1), (.srset rd r rs1, readSys s s.th r ||| s.rx rs1), (.srclr rd r rs1, readSys s s.th r &&& ~~~s.rx rs1) ],
       (r, w) ∈ writtenField s p.2 → (rs1 = 0 → p.1 = .srwr rd r rs1) → (r = .status → p.2.getLsbD 2 = false) → ((r = .fmta ∨ r = .fmtb) → p.2.toNat % 16 < 13) →
       ∃ t, exec p.1 s = .next t ∧ t.rx rd = (if rd = 0 then 0 else readSys s s.th r) ∧ readSys t t.th r = w ∧ t.th.pc = pcAfter 4 s ∧
         KeptRegs s t [rd] [] [] [r] ∧ KeptBytes s t ∧ t = { s with th := t.th }) ∧
  (∀ (s : State) (rd rs1 : Reg) (n : BitVec 3), Plain s → s.session s.th.tid = none →
     let v := s.rx rs1
     (clsOf s.th ≠ .t → ∃ t, exec (.srwr rd .fflags rs1) s = .next t ∧ t.rx rd = (if rd = 0 then 0 else 0#59 ++ s.th.fflags) ∧
       t.th.fflags = v.extractLsb' 0 5 ∧ t.th.status = { s.th.status with fpv := true } ∧ KeptRegs s t [rd] [] [] [.fflags, .status] ∧ t = { s with th := t.th }) ∧
     (clsOf s.th = .v → v.toNat / 4 % 8 < 6 → v.toNat / 2 ^ 8 % 64 ≤ v.toNat / 2 ^ 16 % 64 → v.toNat / 2 ^ 16 % 64 ≤ 32 →
       (s.th.status.mm = true → v.toNat % 4 = s.th.vec.sew.code ∧ v.toNat / 2 ^ 8 % 64 = s.th.vec.lmin ∧ v.toNat / 2 ^ 16 % 64 = s.th.vec.lpref) →
       ∃ t, exec (.srwr rd .vcfg rs1) s = .next t ∧ t.th.vec.sew.code = v.toNat % 4 ∧ t.th.vec.scope.code = v.toNat / 4 % 8 ∧
         t.th.vec.lmin = v.toNat / 2 ^ 8 % 64 ∧ t.th.vec.lpref = v.toNat / 2 ^ 16 % 64 ∧ t.th.vec.vl = (if v.toNat % 4 = s.th.vec.sew.code then s.th.vec.vl else 0) ∧
         KeptRegs s t [rd] [] [] [.vcfg, .vl] ∧ t = { s with th := t.th }) ∧
     (clsOf s.th = .v → (6 ≤ v.toNat / 4 % 8 ∨ v.toNat / 2 ^ 16 % 64 < v.toNat / 2 ^ 8 % 64 ∨ 32 < v.toNat / 2 ^ 16 % 64) →
       Traps (.srwr rd .vcfg rs1) s { cause := 0x03, tval := s.th.ibits }) ∧
     (clsOf s.th = .v → v.toNat / 4 % 8 < 6 → v.toNat / 2 ^ 8 % 64 ≤ v.toNat / 2 ^ 16 % 64 → v.toNat / 2 ^ 16 % 64 ≤ 32 → s.th.status.mm = true →
       (v.toNat % 4 ≠ s.th.vec.sew.code ∨ v.toNat / 2 ^ 8 % 64 ≠ s.th.vec.lmin ∨ v.toNat / 2 ^ 16 % 64 ≠ s.th.vec.lpref) →
       Traps (.srwr rd .vcfg rs1) s { cause := 0x12, tval := 0x0200 }) ∧
     (clsOf s.th = .v → (∃ t, exec (.srwr rd .veidx rs1) s = .next t ∧ t.th.vec.veidx = v.toNat % 2 ^ 16 ∧ KeptRegs s t [rd] [] [] [.veidx] ∧ t = { s with th := t.th }) ∧
       ∃ t, exec (.srwr rd .stripbase rs1) s = .next t ∧ readSys t t.th .stripbase = v &&& ~~~0x1E#64 ∧ KeptRegs s t [rd] [] [] [.stripbase] ∧ t = { s with th := t.th }) ∧
     (clsOf s.th = .t → ∃ t, exec (.srwr rd (.h n) rs1) s = .next t ∧ t.th.pc = pcAfter 4 s ∧ t = { s with th := t.th, un := t.un } ∧
       (∀ now, s.dieCycle (coreOf s.th).die ≤ now → now < s.dieCycle (coreOf s.th).die + 8 → (∀ x ∈ s.un.hregs, x.cycle ≤ s.dieCycle (coreOf s.th).die) →
         hValue t (coreOf s.th) n now = hValue s (coreOf s.th) n now) ∧
       (∀ now, s.dieCycle (coreOf s.th).die + 8 ≤ now → (∀ x ∈ s.un.hregs, x.cycle ≤ s.dieCycle (coreOf s.th).die) → hValue t (coreOf s.th) n now = v)))

/-! Capabilities and control. -/

/-- R236: CAPCHECK returns 1 for an invalid token in k, 2 when a wanted right is absent, else 0; CAPREVOKE of an invalid token does nothing; CAPDELEG
of an invalid token, or to a context that is not enabled or of another partition, takes 0x14. R235, R236, R356: a CAPDELEG with a valid token and room
makes an entry with no right that its parent lacks and none that its mask drops, puts its token into the target's k register and into x[rd], and
changes no other k register; with a full table it makes none, and x[rd] is 0. CAPREVOKE of an entry that the context holds leaves its token invalid;
of a valid token that it does not hold, it takes 0x14. Where the spec leaves room, the reading is the model's: log 27, and log 65 for which entries a
context holds and for a revocation in one step. -/
def Obligations.Capabilities : Prop :=
  (∀ (s : State) (rd rs1 : Reg) (k : BitVec 4), Plain s →
     let part := s.partOf (activeCtx s s.th)
     let held := capOf s part (kReg s (activeCtx s s.th) k.toNat)
     let v := s.rx rs1
     (held = none → WritesX (.capcheck rd k rs1) s 4 rd 1 ∧ Traps (.capdeleg rd k rs1) s { cause := 0x14, tval := v }) ∧
     (∀ e, held = some e → WritesX (.capcheck rd k rs1) s 4 rd (if e.rights &&& v.extractLsb' 0 8 = v.extractLsb' 0 8 then 0 else 2)) ∧
     ((s.ctxRec (v.toNat / 2 ^ 32 % 2 ^ 12)).en = false ∨ s.partOf (v.toNat / 2 ^ 32 % 2 ^ 12) ≠ part → Traps (.capdeleg rd k rs1) s { cause := 0x14, tval := v }) ∧
     (capOf s part v = none → ∃ t, exec (.caprevoke rs1) s = .next t ∧ t.th.pc = pcAfter 4 s ∧ Kept s t [] [] [] [])) ∧
  (∀ (s : State) (rd rs1 : Reg) (k : BitVec 4) (e : CapEntry), Plain s →
     let part := s.partOf (activeCtx s s.th)
     let v := s.rx rs1
     let target := v.toNat / 2 ^ 32 % 2 ^ 12
     (capOf s part (kReg s (activeCtx s s.th) k.toNat) = some e → (s.ctxRec target).en = true → s.partOf target = part →
       (∃ i < 4096, capAt s part i = none) → ∃ t n, exec (.capdeleg rd k rs1) s = .next t ∧ t.th.pc = pcAfter 4 s ∧ KeptRegs s t [rd] [] [] [] ∧ t.ms = s.ms ∧
         n ∈ t.db.caps ∧ capAt t part n.index = some n ∧ n.rights = e.rights &&& v.extractLsb' 0 8 ∧ n.parent = e.index ∧ n.set = e.set ∧ n.ctx = e.ctx ∧
         n.stand = e.stand ∧ capAt s part n.index = none ∧ kReg t target (v.toNat / 2 ^ 8 % 16) = BitVec.ofNat 64 (n.nonce.toNat * 2 ^ 32 + n.index) ∧
         t.rx rd = (if rd = 0 then 0 else BitVec.ofNat 64 (n.nonce.toNat * 2 ^ 32 + n.index)) ∧
         ∀ c i, (c ≠ target ∨ i ≠ v.toNat / 2 ^ 8 % 16) → kReg t c i = kReg s c i) ∧
     (capOf s part (kReg s (activeCtx s s.th) k.toNat) = some e → (s.ctxRec target).en = true → s.partOf target = part →
       (∀ i < 4096, (capAt s part i).isSome = true) → WritesX (.capdeleg rd k rs1) s 4 rd 0) ∧
     (capOf s part v = some e → capHeld s (activeCtx s s.th) part e = false → Traps (.caprevoke rs1) s { cause := 0x14, tval := v }) ∧
     (capOf s part v = some e → capHeld s (activeCtx s s.th) part e = true → ∃ t, exec (.caprevoke rs1) s = .next t ∧
       t.th.pc = pcAfter 4 s ∧ KeptRegs s t [] [] [] [] ∧ t.ms = s.ms ∧ capOf t part v = none ∧ t.db.kregs = s.db.kregs))

/-- R237: WFE returns 1 while a message waits and 0 once its limit has run out, and waits before; a YIELD with no request pending goes on. -/
def Obligations.WaitsAndYields : Prop :=
  ∀ (s : State) (rd rs1 : Reg), Plain s →
    (s.th.rxq ≠ [] → WritesX (.wfe rd rs1) s 4 rd 1) ∧ (s.th.rxq = [] → s.th.expired = true → WritesX (.wfe rd rs1) s 4 rd 0) ∧
    (s.th.rxq = [] → s.th.expired = false → ∃ t l, exec (.wfe rd rs1) s = .next t ∧ t.th.run = .parked (.wfe l) ∧ t.th.pc = s.th.pc ∧ t.th.rxq = s.th.rxq ∧
      (l = if s.rx rs1 = 0 then none else some (s.dieCycle (coreOf s.th).die + (s.rx rs1).toNat))) ∧
    (s.th.req.preempt = false → ∃ t, exec .yield s = .next t ∧ t.th.pc = pcAfter 4 s ∧ Kept s t [] [] [] [])

/-- R64, R144, R239: a TEXIT in user code of a thread with nothing under way, whose task has had no bad end and no held command, ends the thread: it
gives up its place, its messages, its clusters and its locks, and no byte of memory changes. -/
def Obligations.ThreadExit : Prop :=
  ∀ (s : State), Plain s → Quiet s → s.th.run = .running → s.th.status.hnd = false → s.th.status.priv = false →
    (∀ st, s.stand? s.th.tid.stand = some st → st.bad = none) → (∀ c ∈ s.un.cmds, c.tid ≠ s.th.tid ∨ c.held = none) →
    ∃ t, exec .texit s = .next t ∧ t.th.run = .ended ∧ t.th.endKind = some .texit ∧ t.th.place = none ∧ t.th.rxq = [] ∧ t.th.vec.grant = 0 ∧
      KeptBytes s t ∧ ∀ k ∈ t.un.tiles, k.writer ≠ some s.th.tid ∧ LockHolder.thread s.th.tid ∉ k.readers ∧ ∀ q ∈ k.queue, q.1 ≠ s.th.tid

/-- R67, R155, R160, R161, R240: a MIGRATE to the thread's own class, or with code 3, completes with no move and changes nothing but the pc. To
another class: one of a thread that owns a core-level tile or holds a lock takes 0x1D with the lowest such handle; else one in chain mode takes 0x1D
with TVAL 0x0C00; else, where the class-state area can be written, it completes: with a place of that class free the thread leaves its place for the
nearest one, and with none it joins the streamer queue with its portable context written; either way it resumes past the MIGRATE, with its registers
as they were. Where the spec leaves room, the reading is the model's: logs 79 and 80. -/
def Obligations.Migrates : Prop :=
  (∀ (s : State) (rs1 : Reg), Plain s →
     let code := (s.rx rs1).toNat % 4
     (code = 3 ∨ code = (clsOf s.th).code) → ∃ t, exec (.migrate rs1) s = .next t ∧ t.th.pc = pcAfter 4 s ∧ Kept s t [] [] [] []) ∧
  (∀ (s : State) (rs1 : Reg) (c : CoreClass), rs1 ≠ 26 → rs1 ≠ 27 → c.code = (s.rx rs1).toNat % 4 → c ≠ clsOf s.th →
     let u := (s.advance 4).onTh fun t => { t with pc := s.th.pc }
     ((∃ k ∈ s.un.tiles, ties s k) → ∃ k ∈ s.un.tiles, ties s k ∧ (∀ q ∈ s.un.tiles, ties s q → k.key.handle ≤ q.key.handle) ∧
       exec (.migrate rs1) s = .next (takeTrap (countIssue u) { cause := 0x1D, tval := BitVec.ofNat 64 k.key.handle })) ∧
     ((∀ k ∈ s.un.tiles, ¬ties s k) → s.th.status.chain = true → exec (.migrate rs1) s = .next (takeTrap (countIssue u) { cause := 0x1D, tval := 0x0C00 })) ∧
     ((∀ k ∈ s.un.tiles, ¬ties s k) → Plain s → Quiet s →
       let src := s.th.place.getD ⟨coreOf s.th, 0⟩
       let s0 := showOwn (s.advance 4)
       let owed := if clsOf s.th = .v then s.th.vec.grant else s.th.owed.getD 0
       ∀ s1, csaWrite s0 s0.th (spillParts s0 s0.th (decide (c = .t))) = (.ok (), s1) →
         (∀ dst, nearest s.clk.blend src.at_ (candidates s1 (s.partOf s.th.ctx) owed [c]) = some dst → ∃ t, exec (.migrate rs1) s = .next t ∧
           t.th.run = .transit 0 src (some dst) ∧ t.gl.streamQ = s1.gl.streamQ ∧ Moved s t) ∧
         (nearest s.clk.blend src.at_ (candidates s1 (s.partOf s.th.ctx) owed [c]) = none →
           let head := portable { s1.th with vspill := s1.th.vspill || clsOf s.th == .v } 0 (clsOf s.th) c
           ∀ s2, csaWrite s1 s1.th [(0x300, wordsBytes head)] = (.ok (), s2) → ∃ t, exec (.migrate rs1) s = .next t ∧ t.th.run = .transit 0 src none ∧
             t.gl.streamQ = s2.gl.streamQ ++ [⟨s.th.tid, s.partOf s.th.ctx, [c], src, 0⟩] ∧ Moved s t)))

/-! Floating point. -/

/-- R171, R173, R174, R181, R219 to R224, R408: what each FP instruction writes to f[rd], rounded once from its exact result, and the flags that it
raises; nothing else changes but FPV. Where the spec leaves room, the reading is the model's: logs 16, 17, 18 and 59. -/
def Obligations.FloatArithmetic : Prop :=
  ∀ (s : State) (fmt : FpFmt) (ty : IntTy) (rm : Rm) (rd rs1 rs2 rs3 : Reg), FpReady s →
    let m := modeInForce s rm
    let r := roundingInForce s rm 0
    let v := fun (g : FpFmt) (q : Reg) => (binFmt g).value (fpBits g (readF s.th q))
    let a := v fmt rs1
    let b := v fmt rs2
    let int : Int := match ty with
      | .s32 => ((s.rx rs1).truncate 32 : BitVec 32).toInt
      | .u32 => (s.rx rs1).toNat % 2 ^ 32
      | .s64 => (s.rx rs1).toInt
      | .u64 => (s.rx rs1).toNat
    (∀ p ∈ [ (Instr.fadd fmt rm rd rs1 rs2, fmt, fpAdd m a b), (.fsub fmt rm rd rs1 rs2, fmt, fpAdd m a b.negate), (.fmul fmt rm rd rs1 rs2, fmt, fpMul a b)
           , (.fdiv fmt rm rd rs1 rs2, fmt, fpDiv a b), (.fsqrt fmt rm rd rs1, fmt, fpSqrt a)
           , (.fcvtf .f32 rm rd rs1, .f32, (v .f64 rs1, 0)), (.fcvtf .f64 rm rd rs1, .f64, (v .f32 rs1, 0))
           , (.fcvtx fmt ty rm rd rs1, fmt, (.ofInt int, 0))
           , (.fmaddF32 rm rd rs1 rs2 rs3, .f32, fpFma m (v .f32 rs1) (v .f32 rs2) (v .f32 rs3))
           , (.fmaddF64 rm rd rs1 rs2 rs3, .f64, fpFma m (v .f64 rs1) (v .f64 rs2) (v .f64 rs3))
           , (.fnmaddF32 rm rd rs1 rs2 rs3, .f32, fpFma m (v .f32 rs1).negate (v .f32 rs2) (v .f32 rs3))
           , (.fnmaddF64 rm rd rs1 rs2 rs3, .f64, fpFma m (v .f64 rs1).negate (v .f64 rs2) (v .f64 rs3)) ],
      let out := roundTo (binFmt p.2.1) r p.2.2.1
      WritesF p.1 s rd (fpWord p.2.1 out.1) (out.2 ||| p.2.2.2)) ∧
    (∀ p ∈ [ (Instr.fmin fmt rd rs1 rs2, fpMin a b), (.fmax fmt rd rs1 rs2, fpMax a b) ],
      WritesF p.1 s rd (fpWord fmt (roundTo (binFmt fmt) rne p.2.1).1) p.2.2) ∧
    (let n := (binFmt fmt).width - 1
     let x := fpBits fmt (readF s.th rs1)
     let y := fpBits fmt (readF s.th rs2)
     ∀ p ∈ [ (Instr.fsgnj fmt rd rs1 rs2, y.testBit n), (.fsgnjN fmt rd rs1 rs2, !y.testBit n), (.fsgnjX fmt rd rs1 rs2, x.testBit n != y.testBit n) ],
       WritesF p.1 s rd (fpWord fmt (x % 2 ^ n + if p.2 then 2 ^ n else 0)) 0) ∧
    WritesF (.fround fmt rm rd rs1) s rd (fpWord fmt (fpRoundIntegral (binFmt fmt) r a).1) (fpRoundIntegral (binFmt fmt) r a).2 ∧
    WritesF (.fexp2 rd rs1) s rd (fpWord .f32 (exp2cr (fpBits .f32 (readF s.th rs1))).1) (exp2cr (fpBits .f32 (readF s.th rs1))).2 ∧
    WritesF (.fmvf .f64 rd rs1) s rd (s.rx rs1) 0 ∧ WritesF (.fmvf .f32 rd rs1) s rd (0xFFFFFFFF#32 ++ (s.rx rs1).truncate 32) 0

/-- R164, R221, R222: the FP instructions that write x[rd]: the comparisons, with NV for any NaN but for a quiet one under eq; FCLASS, which sets the
one bit of the operand's class; FCVTI, which gives 0 for a NaN and clamps; FMVX. Where the spec leaves room, the reading is the model's: log 16. -/
def Obligations.FloatToInteger : Prop :=
  ∀ (s : State) (fmt : FpFmt) (ty : IntTy) (rm : Rm) (rd rs1 rs2 : Reg), FpReady s →
    let a := (binFmt fmt).value (fpBits fmt (readF s.th rs1))
    let b := (binFmt fmt).value (fpBits fmt (readF s.th rs2))
    let r := roundingInForce s rm 0
    let range := match ty with
      | .s32 => ((-2 ^ 31 : Int), (2 ^ 31 - 1 : Int)) | .u32 => (0, 2 ^ 32 - 1) | .s64 => (-2 ^ 63, 2 ^ 63 - 1) | .u64 => (0, 2 ^ 64 - 1)
    let word := fun (i : Int) => match ty with | .s32 | .u32 => (BitVec.ofInt 32 i).signExtend 64 | _ => BitVec.ofInt 64 i
    (∀ p ∈ [Instr.fcmpLe fmt rd rs1 rs2, .fcmpLt fmt rd rs1 rs2, .fcmpEq fmt rd rs1 rs2], (a.isNan = true ∨ b.isNan = true) →
      WritesXFlags p s rd 0 (if p = .fcmpEq fmt rd rs1 rs2 then (if a.isSnan ∨ b.isSnan then flagNV else 0) else flagNV)) ∧
    (a.isNan = false → b.isNan = false →
      WritesXFlags (.fcmpLt fmt rd rs1 rs2) s rd (if fpLess a b then 1 else 0) 0 ∧ WritesXFlags (.fcmpLe fmt rd rs1 rs2) s rd (if fpLess b a then 0 else 1) 0 ∧
      WritesXFlags (.fcmpEq fmt rd rs1 rs2) s rd (if fpLess a b ∨ fpLess b a then 0 else 1) 0) ∧
    (let eb := match fmt with | .f32 => 8 | .f64 => 11
     let fb := match fmt with | .f32 => 23 | .f64 => 52
     let x := fpBits fmt (readF s.th rs1)
     let neg := x.testBit (eb + fb)
     let ex := x / 2 ^ fb % 2 ^ eb
     let fr := x % 2 ^ fb
     let k := if ex = 2 ^ eb - 1 then (if fr = 0 then (if neg then 0 else 7) else if fr.testBit (fb - 1) then 9 else 8)
       else if ex = 0 then (if fr = 0 then (if neg then 3 else 4) else if neg then 2 else 5) else if neg then 1 else 6
     WritesX (.fclass fmt rd rs1) s 4 rd (BitVec.ofNat 64 (2 ^ k))) ∧
    (a.isNan = true → WritesXFlags (.fcvti fmt ty rm rd rs1) s rd 0 flagNV) ∧
    (∀ neg, a = .inf neg → WritesXFlags (.fcvti fmt ty rm rd rs1) s rd (word (if neg then range.1 else range.2)) flagNV) ∧
    (∀ i inexact, roundInt r a = some (i, inexact) → WritesXFlags (.fcvti fmt ty rm rd rs1) s rd (word (max range.1 (min range.2 i)))
      (if i < range.1 ∨ range.2 < i then flagNV else if inexact then flagNX else 0)) ∧
    WritesX (.fmvx .f64 rd rs1) s 4 rd (readF s.th rs1) ∧ WritesX (.fmvx .f32 rd rs1) s 4 rd (((readF s.th rs1).truncate 32).signExtend 64)

/-- R174: a value that a format represents rounds to its own pattern under every mode, and raises no flag. Where the spec leaves room, the reading is
the model's: log 59. -/
def Obligations.RepresentableExact : Prop :=
  ∀ f ∈ [fp64, fp32, fp16, bf16, e4m3, e5m2], ∀ (r : Rounding) (bits : Nat), bits < 2 ^ f.width → (f.value bits).isNan = false →
    roundTo f r (f.value bits) = (bits, 0)

/-- R174: a finite nonzero value rounded without saturation, when the result is finite: under RNE no pattern of the format is nearer, and at a tie the
result's last bit is 0; under RTZ, RDN and RUP the result does not lie past the value on the side that the mode rounds away from. Where the spec
leaves room, the reading is the model's: log 59. -/
def Obligations.RoundsToNearest : Prop :=
  ∀ f ∈ [fp64, fp32, fp16, bf16, e4m3, e5m2], ∀ (m : Rm) (seed : BitVec 32) (idx : Nat) (neg : Bool) (mag : Nat) (e : Int) (n1 : Bool) (m1 : Nat) (e1 : Int),
    mag ≠ 0 → let bits := (roundTo f ⟨m, false, seed, idx⟩ (.num neg mag e)).1
    f.value bits = .num n1 m1 e1 →
    (m = .rne → ∀ other n2 m2 e2 u, f.value other = .num n2 m2 e2 → u ≤ e → u ≤ e1 → u ≤ e2 →
      apart u neg mag e n1 m1 e1 ≤ apart u neg mag e n2 m2 e2 ∧
      (apart u neg mag e n1 m1 e1 = apart u neg mag e n2 m2 e2 → apart u n1 m1 e1 n2 m2 e2 ≠ 0 → bits % 2 = 0)) ∧
    (∀ u, u ≤ e → u ≤ e1 →
      let x : Int := (if neg then -(mag : Int) else mag) * 2 ^ (e - u).toNat
      let y : Int := (if n1 then -(m1 : Int) else m1) * 2 ^ (e1 - u).toNat
      (m = .rtz → y.natAbs ≤ x.natAbs) ∧ (m = .rdn → y ≤ x) ∧ (m = .rup → x ≤ y))

/-! Packed words and prefixes. -/

/-- R244 to R248: each packed instruction, sub-element by sub-element; between the formats that it takes, PCVT's results stand in the low sub-elements
and the rest is 0. Where the spec leaves room, the reading is the model's: logs 18 and 59. -/
def Obligations.PackedLanes : Prop :=
  ∀ (s : State) (lanes : Lanes) (rd rs1 rs2 : Reg) (src dst : Fmt), Plain s →
    let w := match lanes with | .b => 8 | .h => 16 | .w => 32
    let sg := signedOf w
    (∀ p ∈ [ (Instr.padd lanes rd rs1 rs2, fun (_ a b : Nat) => (a + b) % 2 ^ w), (.psub lanes rd rs1 rs2, fun _ a b => wrap w ((a : Int) - b))
           , (.padds lanes rd rs1 rs2, fun _ a b => clipS w (sg a + sg b)), (.psubs lanes rd rs1 rs2, fun _ a b => clipS w (sg a - sg b))
           , (.paddus lanes rd rs1 rs2, fun _ a b => clipU w ((a : Int) + b)), (.psubus lanes rd rs1 rs2, fun _ a b => clipU w ((a : Int) - b))
           , (.pmul lanes rd rs1 rs2, fun _ a b => wrap w (sg a * sg b)), (.pmulq lanes rd rs1 rs2, fun e a b => clipS w (roundQuot s.th e (sg a * sg b) (w - 1)))
           , (.pmin lanes rd rs1 rs2, fun _ a b => if sg a ≤ sg b then a else b), (.pmax lanes rd rs1 rs2, fun _ a b => if sg a ≤ sg b then b else a)
           , (.psll lanes rd rs1 rs2, fun _ a b => if w ≤ b % 256 then 0 else a * 2 ^ (b % 256) % 2 ^ w)
           , (.psrl lanes rd rs1 rs2, fun _ a b => a / 2 ^ (b % 256)), (.psra lanes rd rs1 rs2, fun _ a b => wrap w (sg a / 2 ^ (b % 256)))
           , (.pssl lanes rd rs1 rs2, fun _ a b => clipS w (sg a * 2 ^ (b % 256))), (.pavg lanes rd rs1 rs2, fun e a b => wrap w (roundQuot s.th e (sg a + sg b) 1)) ],
      Lanewise p.1 s rd rs1 rs2 w p.2) ∧
    (src ≠ .fp64 → src ≠ .mxfp4 → dst ≠ .fp64 → dst ≠ .mxfp4 → ∃ v, WritesX (.pcvt src dst rd rs1) s 4 rd v ∧ v.toNat < 2 ^ (dst.width * (64 / max src.width dst.width)) ∧
      ∀ e, e < 64 / max src.width dst.width → bitsAt v.toNat (dst.width * e) dst.width =
        (convertFmt src dst (roundingInForce s .dyn e) (bitsAt (s.rx rs1).toNat (src.width * e) src.width)).1 % 2 ^ dst.width)

/-- R249, R250: with CHAIN = 1, a read of x26 takes the oldest dword of the upstream queue and a write of x27 joins the downstream queue, each in its
order; an empty queue and one of 8 dwords park the thread; misuse takes 0x16 with its reason and register. R251, R407: a read goes on after its
upstream thread has ended: what the queue held is gone, and the read waits. Where the spec leaves room, the reading is the model's: log 62. -/
def Obligations.ChainMode : Prop :=
  ∀ (s : State) (p : Place) (rd rs1 rs2 : Reg), s.th.status.chain = true → s.th.place = some p → rd ≠ 26 → rd ≠ 27 → rs1 ≠ 26 → rs1 ≠ 27 → rs2 ≠ 26 → rs2 ≠ 27 →
    let up : CoreId := { p.at_ with core := p.at_.core - 1 }
    let down : CoreId := { p.at_ with core := p.at_.core + 1 }
    (p.at_.core ≠ 0 → (chainPartner s s.th.tid.stand ⟨up, p.slot⟩ = true ∨ chainEnded s s.th.tid.stand ⟨up, p.slot⟩ = true) →
      (chainItems s up p.slot = [] → ∃ t, exec (.add rd 26 rs2) s = .next t ∧ t.th.run = .parked .chainPop ∧ t.th.pc = s.th.pc ∧ t.un = s.un) ∧
      (∀ w rest, chainItems s up p.slot = w :: rest → ∃ t, exec (.add rd 26 rs2) s = .next t ∧ t.rx rd = (if rd = 0 then 0 else w + s.rx rs2) ∧
        chainItems t up p.slot = rest ∧ t.th.pc = pcAfter 4 s ∧ (∀ r, r ≠ 26 → r ≠ rd → t.rx r = s.rx r) ∧ t.ms = s.ms)) ∧
    (p.at_.core < 3 → chainPartner s s.th.tid.stand ⟨down, p.slot⟩ = true →
      (8 ≤ (chainItems s p.at_ p.slot).length → ∃ t, exec (.add 27 rs1 rs2) s = .next t ∧ t.th.run = .parked .chainPush ∧ t.th.pc = s.th.pc ∧ t.un = s.un) ∧
      ((chainItems s p.at_ p.slot).length < 8 → ∃ t, exec (.add 27 rs1 rs2) s = .next t ∧
        chainItems t p.at_ p.slot = chainItems s p.at_ p.slot ++ [s.rx rs1 + s.rx rs2] ∧ t.th.pc = pcAfter 4 s ∧ (∀ r, r ≠ 26 → t.rx r = s.rx r) ∧ t.ms = s.ms)) ∧
    Traps (.add 26 rs1 rs2) s { cause := 0x16, tval := 0x011A } ∧ Traps (.add rd 27 rs2) s { cause := 0x16, tval := 0x021B } ∧
    (p.at_.core = 0 → Traps (.add rd 26 rs2) s { cause := 0x16, tval := 0x031A }) ∧ (3 ≤ p.at_.core → Traps (.add 27 rs1 rs2) s { cause := 0x16, tval := 0x031B }) ∧
    (p.at_.core ≠ 0 → chainPartner s s.th.tid.stand ⟨up, p.slot⟩ = false → chainEnded s s.th.tid.stand ⟨up, p.slot⟩ = false → Traps (.add rd 26 rs2) s { cause := 0x16, tval := 0x041A }) ∧
    (p.at_.core < 3 → chainPartner s s.th.tid.stand ⟨down, p.slot⟩ = false → Traps (.add 27 rs1 rs2) s { cause := 0x16, tval := 0x041B })

/-! Translation and line operations. -/

/-- R39 to R42, R71, R74, R75: a TLBINV in user code takes 0x05; one whose target is bad (a reserved KIND, a nonzero reserved field, a DIE, QUAD or
CORE that the blend lacks, an M-die below package scope) takes 0x03 with the target in TVAL. Else it removes at once the TLB entries, the walk-cache
entries and the instruction lines that R40 and R75 name for its KIND where its scope covers them, and those alone; the covered cores' first-level data
copies go too; no register and no byte of memory changes, and the thread waits. When its invalidation is done the TLBINV completes and changes nothing
more, or takes 0x24 with the package that failed to acknowledge. Where the spec leaves room, the reading is the model's: logs 21, 28 and 91. -/
def Obligations.TlbInvalidation : Prop :=
  ∀ (s : State) (scope : Scope) (rs1 rs2 : Reg), Plain s →
    let d := s.rx rs2
    let kind := d.toNat / 2 ^ 44 % 16
    let ctx := d.toNat / 2 ^ 52 % 2 ^ 12
    let part := d.toNat / 2 ^ 48 % 16
    let at_ : CoreId := ⟨d.toNat / 2 ^ 32 % 32, d.toNat / 2 ^ 18 % 128, d.toNat / 2 ^ 16 % 4⟩
    let va := tlbinvVa s (s.rx rs1)
    let removes := fun (c p page bits : Nat) (global : Bool) =>
      if kind = 0 then (c = ctx ∨ (global = true ∧ p = part)) ∧ va / 2 ^ bits = page else if kind = 1 then c = ctx ∧ global = false else p = part
    (s.th.status.priv = false → Traps (.tlbinv scope rs1 rs2) s { cause := 0x05, tval := s.th.ibits }) ∧
    (s.th.status.priv = true → (∀ i ∈ s.xl.inv, i.tid ≠ s.th.tid) →
      ((3 ≤ kind ∨ d.toNat / 2 ^ 37 % 2 ^ 7 ≠ 0 ∨ d.toNat / 2 ^ 25 % 2 ^ 7 ≠ 0 ∨ d.toNat % 2 ^ 16 ≠ 0 ∨
          (at_.die ∈ computeDies s.clk.blend ∧ quadsOf (classOfDie at_.die) ≤ at_.quad) ∨
          (at_.die ∉ computeDies s.clk.blend ∧ (at_.die ∉ dies s.clk.blend ∨ at_.quad ≠ 0 ∨ at_.core ≠ 0 ∨ scope.code < 4))) →
        badDword s scope d = true ∧ Traps (.tlbinv scope rs1 rs2) s { cause := 0x03, tval := d, vkind := 2 }) ∧
      (badDword s scope d = true → Traps (.tlbinv scope rs1 rs2) s { cause := 0x03, tval := d, vkind := 2 }) ∧
      (badDword s scope d = false → ∃ t n, exec (.tlbinv scope rs1 rs2) s = .next t ∧ t.th.run = .parked (.tlbinv n) ∧
        t.th.pc = s.th.pc ∧ KeptRegs s t [] [] [] [] ∧ KeptBytes s t ∧ (∃ i ∈ t.xl.inv, i.id = n ∧ i.tid = s.th.tid ∧ i.done = false) ∧
        (∀ e, e ∈ t.xl.tlb ↔ e ∈ s.xl.tlb ∧ ¬(invCovers scope at_ e.at_ = true ∧ removes e.ctx e.part e.vpage e.sbits e.leaf.global)) ∧
        (∀ e, e ∈ t.xl.wcache ↔ e ∈ s.xl.wcache ∧ ¬(invCovers scope at_ (.die e.die) = true ∧ e.part = part)) ∧
        (∀ l, l ∈ t.ms.l1i ↔ l ∈ s.ms.l1i ∧ ¬(scopeCovers scope at_ l.core = true ∧ removes l.ctx (s.partOf l.ctx) l.page l.sbits l.global)) ∧
        ∀ l, l ∈ t.ms.l1d ↔ l ∈ s.ms.l1d ∧ scopeCovers scope at_ l.core = false)) ∧
    (s.th.status.priv = true → ∀ i, s.xl.inv.find? (fun j => decide (j.tid = s.th.tid)) = some i → i.done = true →
      (i.failed = none → ∃ t, exec (.tlbinv scope rs1 rs2) s = .next t ∧ t.th.pc = pcAfter 4 s ∧ KeptRegs s t [] [] [] [] ∧ KeptBytes s t ∧
        t.ms = s.ms ∧ t.xl = { s.xl with inv := s.xl.inv.erase i }) ∧
      (∀ p, i.failed = some p → exec (.tlbinv scope rs1 rs2) s = .next (takeTrap (countIssue { s with xl := { s.xl with inv := s.xl.inv.erase i } })
        { cause := 0x24, tval := BitVec.ofNat 64 p, vkind := 3 })))

/-- R243: LINEOP icinv leaves no copy of the line in an instruction cache that its scope covers, and LINEOP clean leaves HBM with the line as every
reader sees it; neither changes a register or a byte of memory. At pod scope icinv waits for the job's other packages, as TLBINV does, and completes
when its invalidation is done. LINEOP zero of a C- or V-core is a store of 128 zero bytes at the line of x[rs1]. Where the spec leaves room, the
reading is the model's: logs 21, 84 and 92. -/
def Obligations.LineOperations : Prop :=
  ∀ (s s1 : State) (scope : Scope) (rs1 : Reg) (x : Xlated), Plain s →
    (∀ p ∈ s.ms.posted, p.tid ≠ s.th.tid) → (∀ f ∈ s.ms.sfq, f.tid ≠ s.th.tid) →
    let xlated := fun (a : Acc) => translateParts s (threadWalker s s.th) (threadAcc s.th a false) [((s.rx rs1).toNat, 1)] [] = .ok [.here x (s.rx rs1).toNat 1] s1
    (xlated .code → x.mt = 0 → (∀ i ∈ s.xl.inv, i.tid ≠ s.th.tid) → (∀ i ∈ s1.xl.inv, i.tid ≠ s.th.tid) → ∃ t, exec (.lineopIcinv scope rs1) s = .next t ∧
      KeptRegs s t [] [] [] [] ∧ KeptBytes s1 t ∧ (∀ l ∈ t.ms.l1i, scopeCovers scope (coreOf s.th) l.core = true → l.line ≠ lineOf x.pa) ∧
      (∀ l ∈ s1.ms.l1i, l.line ≠ lineOf x.pa → l ∈ t.ms.l1i) ∧ (scope ≠ .pod → t.th.pc = pcAfter 4 s) ∧
      (scope = .pod → t.th.pc = s.th.pc ∧ ∃ i ∈ t.xl.inv, t.th.run = .parked (.tlbinv i.id) ∧ i.tid = s.th.tid ∧ i.done = false ∧
        i.ask = some ⟨jobidOf s (activeCtx s s.th), .line 0, (s.rx rs1).toNat⟩)) ∧
    (∀ i, s.xl.inv.find? (fun j => decide (j.tid = s.th.tid)) = some i → i.done = true → i.failed = none → ∃ t, exec (.lineopIcinv .pod rs1) s = .next t ∧
      t.th.pc = pcAfter 4 s ∧ KeptRegs s t [] [] [] [] ∧ KeptBytes s t ∧ t.xl = { s.xl with inv := s.xl.inv.erase i }) ∧
    (∀ i, s.xl.inv.find? (fun j => decide (j.tid = s.th.tid)) = some i → i.done = true → ∀ p, i.failed = some p → exec (.lineopIcinv .pod rs1) s =
      .next (takeTrap (countIssue { s with xl := { s.xl with inv := s.xl.inv.erase i } }) { cause := 0x24, tval := BitVec.ofNat 64 p, vkind := 3 })) ∧
    (xlated .load → x.mt = 0 → Memory.wf s1.ms = true → (∀ e ∈ s1.ms.wtq, e.core ≠ coreOf s.th) → ∃ t, exec (.lineopClean rs1) s = .next t ∧
      t.th.pc = pcAfter 4 s ∧ KeptRegs s t [] [] [] [] ∧ KeptBytes s1 t ∧ Memory.wf t.ms = true ∧ (∀ e ∈ t.ms.l2d, lineOf e.1 ≠ lineOf x.pa) ∧
      ∀ e ∈ t.ms.llc, lineOf e.1 ≠ lineOf x.pa) ∧
    (clsOf s.th ≠ .t → Cached s .store false ((s.rx rs1).toNat / 128 * 128) 128 x s1 → s1.provStand s.th.tid.stand = none →
      ∃ t, exec (.lineopZero rs1) s = .next t ∧ t.th.pc = pcAfter 4 s ∧ KeptRegs s t [] [] [] [] ∧ KeptBytes s1 t ∧
        ∀ a, wtByte t.ms (coreOf s.th) (s1.viewOf s.th.tid.stand) a =
          if x.pa ≤ a ∧ a < x.pa + 128 then some 0 else wtByte s1.ms (coreOf s.th) (s1.viewOf s.th.tid.stand) a)

/-! Tiles. -/

/-- R50 to R60: TALLOC of a shape whose rows fit answers 1 when the handle is in use, and else 0 with a new tile of that shape that is zero, unlocked
and in stripes that no other tile of its store holds, or 2 or 3 with nothing changed; a row of more than 2,048 bytes takes 0x0E with reason 0x03.
TFREE of a tile that nothing uses removes it. R57, R59, R256: TQUERY returns the fields of the table entry, or 0 for a handle with no tile; the other
tile instructions take 0x0E with reason 0x01 for such a handle, and with 0x02 for one out of reach. Where the spec leaves room, the reading is the
model's: logs 29 and 70. -/
def Obligations.TileAllocation : Prop :=
  (∀ (s : State) (rd rs1 : Reg) (t : Handle) (sp : Space) (f : Fmt), Plain s → spaceOf s s.th (handleLevel t.toNat) = some sp →
     let w := (s.rx rs1).toNat
     let rows := w / 2 ^ 16 % 2 ^ 10 + 1
     let cols := w % 2 ^ 11 + 1
     let key : TileKey := ⟨sp, t.toNat⟩
     (Fmt.ofCode (w / 2 ^ 32 % 16) = some f → 2048 < (cols * f.width + 7) / 8 → Traps (.talloc rd t rs1) s { cause := 0x0E, tval := BitVec.ofNat 64 (0x300 + t.toNat) }) ∧
     (Fmt.ofCode (w / 2 ^ 32 % 16) = some f → (cols * f.width + 7) / 8 ≤ 2048 → ∃ u st, exec (.talloc rd t rs1) s = .next u ∧
       u.rx rd = (if rd = 0 then 0 else BitVec.ofNat 64 st) ∧ u.th.pc = pcAfter 4 s ∧ KeptRegs s u [rd] [] [] [] ∧ (Memory.wf s.ms = true → KeptBytes s u) ∧ st ≤ 3 ∧
       (st = 1 ↔ (s.tile? key).isSome = true) ∧ (st ≠ 0 → u.un = s.un ∧ u.ms = s.ms) ∧
       (st = 0 → ∃ k, u.un = { s.un with tiles := s.un.tiles ++ [k] } ∧ k.key = key ∧ k.fmt = f ∧ k.rows = rows ∧ k.cols = cols ∧ k.bytes = [] ∧ k.writer = none ∧
         k.readers = [] ∧ k.queue = [] ∧ k.othr = s.th.tid.index % 64 ∧ k.ostand = s.th.tid.stand ∧ k.base + k.nstr ≤ (storeSize k.store).1 ∧
         ∀ v ∈ s.un.tiles, v.store = k.store → v.base + v.nstr ≤ k.base ∨ k.base + k.nstr ≤ v.base)) ∧
     (∀ k, s.tile? key = some k → k.key = key → (k.writer = some s.th.tid ∨ (k.writer = none ∧ k.readers = [])) →
       (pendOf s key = 0 → ChangesTile (.tfree t) s 4 key none) ∧ (pendOf s key ≠ 0 → Parks (.tfree t) s (.pend key 1)))) ∧
  (∀ (s : State) (rd rs1 rv : Reg) (t : Handle), Plain s →
     (∀ k, Names s t k → k.rows - 1 < 1024 → k.cols - 1 < 2048 → pitchOf k.fmt k.cols < 64 → k.othr < 64 → ∃ w : Word, WritesX (.tqueryLo rd t) s 4 rd w ∧
       w.getLsbD 63 = true ∧ bitsAt w.toNat 61 2 = (if t.toNat < 128 then 1 else if t.toNat < 224 then 2 else 3) ∧ bitsAt w.toNat 57 4 = k.fmt.code ∧
       bitsAt w.toNat 45 10 = k.rows - 1 ∧ bitsAt w.toNat 34 11 = k.cols - 1 ∧ bitsAt w.toNat 28 6 = pitchOf k.fmt k.cols ∧ bitsAt w.toNat 22 6 = k.othr ∧
       bitsAt w.toNat 0 16 = k.ostand % 2 ^ 16) ∧
     (∀ k, Names s t k → k.nstr < 2048 → k.base < 2 ^ 17 → ∃ w : Word, WritesX (.tqueryHi rd t) s 4 rd w ∧
       bitsAt w.toNat 62 2 = (if k.writer.isSome then 2 else if k.readers = [] then 0 else 1) ∧ bitsAt w.toNat 56 6 = k.readers.length % 64 ∧
       (∀ who, k.writer = some who → bitsAt w.toNat 50 6 = who.index % 64) ∧ bitsAt w.toNat 48 2 = k.hcore % 4 ∧
       bitsAt w.toNat 40 8 = pendOf s k.key % 256 ∧ bitsAt w.toNat 17 11 = k.nstr ∧ bitsAt w.toNat 0 17 = k.base) ∧
     (∀ sp, spaceOf s s.th (handleLevel t.toNat) = some sp → s.tile? ⟨sp, t.toNat⟩ = none → WritesX (.tqueryLo rd t) s 4 rd 0 ∧ WritesX (.tqueryHi rd t) s 4 rd 0 ∧
       ∀ i ∈ [Instr.tfree t, .tlockR t, .tlockW t, .tunlock t, .tzero t, .trdx rd t rs1, .twrx t rs1 rv],
         Traps i s { cause := 0x0E, tval := BitVec.ofNat 64 (0x100 + t.toNat) }) ∧
     (spaceOf s s.th (handleLevel t.toNat) = none →
       ∀ i ∈ [Instr.tfree t, .tlockR t, .tlockW t, .tunlock t, .tzero t, .trdx rd t rs1, .twrx t rs1 rv, .talloc rd t rs1, .tqueryLo rd t, .tqueryHi rd t],
         Traps i s { cause := 0x0E, tval := BitVec.ofNat 64 (0x200 + t.toNat) }))

/-- R62 to R64: a lock that the tile's state allows, with no request waiting, is granted at once; another waits at the end of the tile's queue; the
oldest waiting request is granted when the state allows it, and its TLOCK completes; TUNLOCK releases, and without a lock takes reason 0x07. A
TLOCK.w, and a write use or a TFREE, of a thread that reads the tile itself takes reason 0x06, and a fifth lock reason 0x08; another thread's lock
makes a use wait. R54, R55, R89, R254, R255: TZERO zeroes every element; TWRX writes one element, and reading it back gives its low bits (an LNS6 byte
its low six), every other element as before; TRDX returns an element, an integer one sign-extended; an index outside the tile takes reason 0x05, in
every lock state by the model's reading (log 69; log 70 for TFREE). -/
def Obligations.TileUse : Prop :=
  (∀ (s : State) (t : Handle) (k : Tile), Plain s → Names s t k → (∀ q ∈ k.queue, q.1 ≠ s.th.tid) →
     (k.writer ≠ some s.th.tid → (s.un.tiles.filter fun u => u.recorded s.th.tid).length < 4 →
       (k.queue = [] → k.writer = none → k.readers.length < 63 → ChangesTile (.tlockR t) s 4 k.key (some { k with readers := k.readers ++ [.thread s.th.tid] })) ∧
       (k.queue = [] → k.writer = none → k.readers = [] → ChangesTile (.tlockW t) s 4 k.key (some { k with writer := some s.th.tid })) ∧
       (∀ p ∈ [(Instr.tlockR t, false), (.tlockW t, true)], (p.2 = true → LockHolder.thread s.th.tid ∉ k.readers) →
         (k.queue ≠ [] ∨ k.writer ≠ none ∨ (if p.2 then k.readers ≠ [] else 63 ≤ k.readers.length)) →
         Parks p.1 s (.lock k.key) ∧ ∀ u, exec p.1 s = .next u → u.tile? k.key = some { k with queue := k.queue ++ [(s.th.tid, p.2)] })) ∧
     (k.writer ≠ some s.th.tid → LockHolder.thread s.th.tid ∈ k.readers → Traps (.tlockW t) s { cause := 0x0E, tval := BitVec.ofNat 64 (0x600 + t.toNat) }) ∧
     (k.writer ≠ some s.th.tid → LockHolder.thread s.th.tid ∉ k.readers → 4 ≤ (s.un.tiles.filter fun u => u.recorded s.th.tid).length →
       ∀ i ∈ [Instr.tlockR t, .tlockW t], Traps i s { cause := 0x0E, tval := BitVec.ofNat 64 (0x800 + t.toNat) }) ∧
     (k.writer = some s.th.tid → Traps (.tlockR t) s { cause := 0x0E, tval := BitVec.ofNat 64 (0x600 + t.toNat) } ∧
       Traps (.tlockW t) s { cause := 0x0E, tval := BitVec.ofNat 64 (0x600 + t.toNat) } ∧ ChangesTile (.tunlock t) s 4 k.key (some { k with writer := none })) ∧
     (k.writer ≠ some s.th.tid → LockHolder.thread s.th.tid ∈ k.readers →
       ChangesTile (.tunlock t) s 4 k.key (some { k with readers := k.readers.erase (.thread s.th.tid) })) ∧
     (k.writer ≠ some s.th.tid → LockHolder.thread s.th.tid ∉ k.readers → Traps (.tunlock t) s { cause := 0x0E, tval := BitVec.ofNat 64 (0x700 + t.toNat) }) ∧
     (∀ (q : Tile) (write : Bool) rest, s.tile? q.key = some q → q.queue = (s.th.tid, write) :: rest → s.th.run = .parked (.lock q.key) → q.writer = none →
       (if write then q.readers = [] else q.readers.length < 63) → ∃ u, exec (.tileLockGrant q.key) s = .next u ∧ u.th.run = .running ∧ u.th.pc = pcAfter 4 s ∧
         KeptRegs s u [] [] [] [] ∧ u.ms = s.ms ∧ u.tile? q.key = some (if write then { q with queue := rest, writer := some s.th.tid }
           else { q with queue := rest, readers := q.readers ++ [.thread s.th.tid] }))) ∧
  (∀ (s : State) (rd rs1 rv : Reg) (t : Handle) (k : Tile), Plain s → Names s t k →
     let row := (s.rx rs1).toNat / 2 ^ 16 % 2 ^ 10
     let col := (s.rx rs1).toNat % 2 ^ 11
     (k.writer = some s.th.tid ∨ (k.writer = none ∧ k.readers = []) → ∃ k', ChangesTile (.tzero t) s 4 k.key (some k') ∧ (∀ r c, k'.get r c = 0) ∧
       k' = { k with bytes := [], bad := [] }) ∧
     (row < k.rows → col < k.cols →
       (k.writer = some s.th.tid ∨ (k.writer = none ∧ k.readers = []) → k.bytes.wf 0 = true → ∃ k', ChangesTile (.twrx t rs1 rv) s 4 k.key (some k') ∧
         k'.bytes.wf 0 = true ∧ k' = { k with bytes := k'.bytes } ∧ k'.get row col = (s.rx rv).toNat % 2 ^ (if k.fmt = .lns6 then 6 else k.fmt.width) ∧
         ∀ r c, c < k.cols → (r ≠ row ∨ c ≠ col) → k'.get r c = k.get r c) ∧
       (k.writer = some s.th.tid ∨ k.writer = none → k.bad = [] → ∃ u, exec (.trdx rd t rs1) s = .next u ∧
         u.rx rd = (if rd = 0 then 0 else if k.fmt ∈ [.int8, .int16, .int32, .int4] then BitVec.ofInt 64 (signedOf k.fmt.width (k.get row col)) else BitVec.ofNat 64 (k.get row col)) ∧
         u.th.pc = pcAfter 4 s ∧ KeptRegs s u [rd] [] [] [] ∧ u.ms = s.ms ∧ ∀ q, u.tile? q = s.tile? q)) ∧
     (row < k.rows → col < k.cols → k.writer ≠ some s.th.tid → ∀ i ∈ [Instr.tzero t, .twrx t rs1 rv, .tfree t],
       (LockHolder.thread s.th.tid ∈ k.readers → Traps i s { cause := 0x0E, tval := BitVec.ofNat 64 (0x600 + t.toNat) }) ∧
       (LockHolder.thread s.th.tid ∉ k.readers → (k.writer ≠ none ∨ k.readers ≠ []) → Parks i s (.tile k.key true))) ∧
     (row < k.rows → col < k.cols → k.writer ≠ none → k.writer ≠ some s.th.tid → Parks (.trdx rd t rs1) s (.tile k.key false)) ∧
     ((k.rows ≤ row ∨ k.cols ≤ col) → ∀ i ∈ [Instr.trdx rd t rs1, .twrx t rs1 rv], Traps i s { cause := 0x0E, tval := BitVec.ofNat 64 (0x500 + t.toNat) }))

/-- R57, R117, R122, R257 to R259, R266: a copy command or TACCRD whose counter, tiles, window and locks are in order is accepted: it takes its
counter's next number, and its work is the engine's; a full engine parks the thread. R371: one with a row that begins in the pod window, on a die that
lacks it, takes 0x1C. R65, R177, R263 to R267: a TMMA and a TMMA32 whose operands, scales, shapes, kinds and feature are in order are accepted: x[rd]
is the number, each operand has the array's read lock, and the thread waits for the reads; a K of 0 or above 2,048 takes reason 0x09. Where the spec
leaves room, the reading is the model's: log 49. -/
def Obligations.CommandAcceptance : Prop :=
  (∀ (s : State) (rd rdst rs1 rs2 : Reg) (ta tb : Handle) (tl : Tl) (key : TlKey) (bank sat clr : Bool) (rm : Rm), Plain s → Counter s tl key →
     let w := windowOfWord (s.rx rs2)
     let src := (s.rx rs1).toNat
     let dst := (s.rx rdst).toNat
     (¬RowsReach s [src] w → ∀ i ∈ [Instr.tload rd ta rs1 rs2 tl, .tstore rd ta rs1 rs2 tl], Traps i s { cause := 0x1C, tval := 10 }) ∧
     (¬RowsReach s [src, dst] w → Traps (.tcopyM rd rdst rs1 rs2 tl) s { cause := 0x1C, tval := 10 }) ∧
     (RowsReach s [src] w → ∀ k, Names s ta k → Within w k → (k.writer = some s.th.tid ∨ (k.writer = none ∧ k.readers = [])) → RoomFor s (.tload k.key src w) →
       Accepts (.tload rd ta rs1 rs2 tl) s rd key (.tload k.key src w)) ∧
     (RowsReach s [src] w → ∀ k, Names s ta k → Within w k → (k.writer = some s.th.tid ∨ k.writer = none) → RoomFor s (.tstore k.key src w) →
       Accepts (.tstore rd ta rs1 rs2 tl) s rd key (.tstore k.key src w)) ∧
     (∀ a b, Names s ta a → Names s tb b → Within w a → Within w b → a.fmt = b.fmt → (a.writer = some s.th.tid ∨ a.writer = none) →
       (b.writer = some s.th.tid ∨ (b.writer = none ∧ b.readers = [])) → RoomFor s (.tcopyT a.key b.key w) →
       Accepts (.tcopyT rd tb ta rs2 tl) s rd key (.tcopyT a.key b.key w)) ∧
     (RowsReach s [src, dst] w → engineOpen s false s.th = true → Accepts (.tcopyM rd rdst rs1 rs2 tl) s rd key (.tcopyM src dst w)) ∧
     (RowsReach s [src, dst] w → engineOpen s false s.th = false → Parks (.tcopyM rd rdst rs1 rs2 tl) s (.engine false)) ∧
     (clsOf s.th = .t → ∀ k, Names s tb k → k.fmt ≠ .mxfp4 → 64 ≤ k.rows → 64 ≤ k.cols → (k.writer = some s.th.tid ∨ (k.writer = none ∧ k.readers = [])) →
       let op := CmdOp.taccrd bank k.key (if rm = .dyn then s.th.rndmode else rm) sat s.th.dsrseed clr
       RoomFor s op → Accepts (.taccrd bank rm sat clr rd tb tl) s rd key op)) ∧
  (∀ (s : State) (bank sh za : Bool) (rd rs1 rs2 : Reg) (ta tb : Handle) (tl : Tl) (key : TlKey) (a b : Tile) (ka kb : Option Tile), Plain s → clsOf s.th = .t →
     Counter s tl key → Names s ta a → Names s tb b →
     let x := (s.rx rs2).toNat
     let sa : Bool × Handle := if sh then (s.th.scla.en, s.th.scla.handle) else (x.testBit 16, (s.rx rs2).extractLsb' 0 8)
     let sb : Bool × Handle := if sh then (s.th.sclb.en, s.th.sclb.handle) else (x.testBit 17, (s.rx rs2).extractLsb' 8 8)
     let n := (s.rx rs1).toNat
     let fa := if sh then s.th.fmta else a.fmt
     let fb := if sh then s.th.fmtb else b.fmt
     let blocks := (n + 31) / 32
     let held := fun (i : Instr) (op : CmdOp) (ks : List Tile) => ∃ t c, exec i s = .next t ∧
       t.rx rd = (if rd = 0 then 0 else BitVec.ofNat 64 ((s.tl key).iss + 1)) ∧ t.th.pc = pcAfter 8 s ∧ t.th.run = .parked (.arrayRead c.id) ∧
       KeptRegs s t [rd] [] [] [] ∧ t.ms = s.ms ∧ t.un.cmds = s.un.cmds ++ [c] ∧ c.op = op ∧ c.key = key ∧ c.seq = (s.tl key).iss + 1 ∧
       t.tl key = { s.tl key with iss := (s.tl key).iss + 1 } ∧ ∀ k ∈ ks, ∃ u, t.tile? k.key = some u ∧ LockHolder.array c.id ∈ u.readers ∧ u.bytes = k.bytes
     let free := fun (k : Tile) => (k.writer = none ∨ k.writer = some s.th.tid) ∧ k.readers.length < 63
     ((sa.1 = false → ka = none) → (sa.1 = true → ∃ k, ka = some k ∧ Names s sa.2 k) → (sb.1 = false → kb = none) → (sb.1 = true → ∃ k, kb = some k ∧ Names s sb.2 k) →
       ((n = 0 ∨ 2048 < n) → Traps (.tmma bank sh za rd ta tb rs1 rs2 tl) s { cause := 0x0E, tval := BitVec.ofNat 64 (0x900 + ta.toNat) }) ∧
       (0 < n → n ≤ 2048 → ∀ kind, pairKind fa fb (ka.isSome || kb.isSome) = some kind → s.hasFeat (coreOf s.th).die (pairFeat fa fb) = true →
         (isWide fa = true → ka = none) → (isWide fb = true → kb = none) → (fa = .mxfp4 → ka ≠ none) → (fb = .mxfp4 → kb ≠ none) → fa.width = a.fmt.width →
         fb.width = b.fmt.width → 64 ≤ a.rows → n ≤ a.cols → n ≤ b.rows → 64 ≤ b.cols → (∀ k, ka = some k → k.fmt = .uint8 ∧ 64 ≤ k.rows ∧ blocks ≤ k.cols) →
         (∀ k, kb = some k → k.fmt = .uint8 ∧ blocks ≤ k.rows ∧ 64 ≤ k.cols) → (za = true ∨ kind = kindAfter s (coreOf s.th) bank) →
         (∀ k ∈ [a, b] ++ ka.toList ++ kb.toList, free k) → engineOpen s true s.th = true →
         held (.tmma bank sh za rd ta tb rs1 rs2 tl) (.tmma bank a.key b.key fa fb (ka.map (·.key)) (kb.map (·.key)) n za) ([a, b] ++ ka.toList ++ kb.toList))) ∧
     (s.hasFeat (coreOf s.th).die 9 = true → 0 < n → n ≤ 2048 → a.fmt = .fp32 → b.fmt = .fp32 → 64 ≤ a.rows → n ≤ a.cols → n ≤ b.rows → 64 ≤ b.cols →
       kindAfter s (coreOf s.th) bank = .fp32 → free a → free b → engineOpen s true s.th = true →
       held (.tmma32 bank rd ta tb rs1 tl) (.tmma32 bank a.key b.key n) [a, b]))

/-! Vectors. -/

/-- R273, R293 to R295, R303, R304: SETVL, SETVLI and SETSHAPE with no request waiting at the arbiter: the grant is the decision's, within its bounds;
VL, the shape, the pin and x[rd] follow from it; a changed grant zeroes the vector registers, an unchanged one keeps them. Too few free clusters park
the thread with GRANT and VL 0; a pinned grant, and any grant in matrix mode, is kept. GRPSET writes one group register, with SEQ 0. Where the spec
leaves room, the reading is the model's: logs 50 and 52. -/
def Obligations.VectorConfiguration : Prop :=
  ∀ (s : State) (rd rs1 rs2 : Reg) (imm : BitVec 10) (g : BitVec 3), VecReady 1 s → s.th.vec.stripEn = false →
    let v := s.th.vec
    let c := coreOf s.th
    let share := leaseShare s c.die c.quad (s.partOf s.th.ctx) s.th.tid
    let grantFor := fun (bound : Nat) => max v.lmin (min (min bound share) (v.grant + leaseFree s))
    let lanes := fun (n : Nat) => 8 * n
    let kept := fun (t : State) => t.th.vec.veidx = 0 ∧ t.th.pc = pcAfter 4 s ∧ t.th.f = s.th.f ∧ (∀ r, r ≠ rd → t.rx r = s.rx r) ∧ KeptBytes s t ∧ t.th.vec.g = v.g ∧
      (t.th.vec.grant = v.grant → t.th.vec.v = v.v) ∧ (t.th.vec.grant ≠ v.grant → ∀ r, readV t.th r = VReg.zero) ∧ t.others = s.others ∧ t.un = s.un
    (s.un.leaseQ = [] → v.lmin ≤ min (poolOf s c.die c.quad) (quotaOf s c.die c.quad (s.partOf s.th.ctx)) → s.th.status.mm = false →
      (∀ p ∈ [(Instr.setvl rd rs1, if rs1 = 0 then 2 ^ 64 - 1 else (s.rx rs1).toNat), (.setvli rd imm, imm.toNat)],
        (v.lmin ≤ v.grant + leaseFree s → ∃ t, exec p.1 s = .next t ∧ t.th.vec.grant = grantFor v.lpref ∧
          t.th.vec.vl = min p.2 (lanes t.th.vec.grant * 1024 / v.sew.bits) ∧ t.rx rd = (if rd = 0 then 0 else BitVec.ofNat 64 t.th.vec.vl) ∧
          t.th.vec.pin = false ∧ t.th.vec.rows = 0 ∧ t.th.vec.cols = 0 ∧ kept t) ∧
        (v.grant + leaseFree s < v.lmin → ∃ t, exec p.1 s = .next t ∧ t.th.run = .parked .lease ∧ t.th.pc = s.th.pc ∧ t.th.vec.grant = 0 ∧ t.th.vec.vl = 0 ∧ t.th.x = s.th.x)) ∧
      (v.sew = .e32 → v.pin = false → v.lmin ≤ v.grant + leaseFree s → ∃ t, exec (.setshape rd rs1 rs2) s = .next t ∧
        t.th.vec.grant = grantFor (if (s.rx rs1).toNat = 0 then v.lpref else max v.lmin (min v.lpref (((s.rx rs1).toNat + 7) / 8))) ∧
        t.th.vec.rows = lanes t.th.vec.grant ∧ t.th.vec.cols = min (min (max (s.rx rs2).toNat 1) 512) (32 * lanes t.th.vec.grant) ∧
        t.th.vec.pin = decide (0 < lanes t.th.vec.grant) ∧ t.th.vec.vl = max t.th.vec.rows t.th.vec.cols ∧
        t.rx rd = (if rd = 0 then 0 else BitVec.ofNat 64 (t.th.vec.cols * 2 ^ 16 + t.th.vec.rows)) ∧ kept t)) ∧
    (s.th.status.mm = true → Traps (.setvl rd rs1) s { cause := 0x12, tval := 0 } ∧ Traps (.setvli rd imm) s { cause := 0x12, tval := 0 }) ∧
    (v.sew = .e32 → (v.pin = true ∨ s.th.status.mm = true) → ∃ t, exec (.setshape rd rs1 rs2) s = .next t ∧ t.th.vec.grant = v.grant ∧
      t.th.vec.pin = (v.pin || decide (0 < lanes v.grant)) ∧ t.th.vec.rows = lanes v.grant ∧
      t.th.vec.cols = min (min (max (s.rx rs2).toNat 1) 512) (32 * lanes v.grant) ∧ t.th.vec.v = v.v ∧ t.th.pc = pcAfter 4 s) ∧
    (badGroup (s.rx rs1) (s.rx rs2) = true → Traps (.grpset g rs1 rs2) s { cause := 0x03, tval := s.th.ibits }) ∧
    (badGroup (s.rx rs1) (s.rx rs2) = false → ∃ t, exec (.grpset g rs1 rs2) s = .next t ∧ t.th.pc = pcAfter 4 s ∧ t = { s with th := t.th } ∧ t.th.x = s.th.x ∧
      t.th.f = s.th.f ∧ t.th.vec = { v with g := t.th.vec.g } ∧ (∀ k : Fin 8, k.val ≠ g.toNat → t.th.vec.g.get k = v.g.get k) ∧
      t.th.vec.g.get ⟨g.toNat, g.isLt⟩ =
        { gid := (s.rx rs1).extractLsb' 32 32, rank := (s.rx rs1).extractLsb' 16 16, countM1 := (s.rx rs1).extractLsb' 0 16, seq := 0
          cap := (s.rx rs2).extractLsb' 16 4, tmo := (s.rx rs2).extractLsb' 12 4, podScope := (s.rx rs2).getLsbD 8, buddy := (s.rx rs2).extractLsb' 4 4
          tree := (s.rx rs2).extractLsb' 0 4 })

/-- R271, R276 to R279: a vector load of one active element, in one line of this package, gives that element the bytes that a load sees and changes no
other; one of no active element completes too; a first active element whose translation traps leaves VEIDX at it and the registers as they were. R110,
R271, R276 to R278: a vector store of one active element, in one line of this package: below quad scope the core's queue holds its bytes at the
computed address and no other byte that the core sees changes; at a wider scope, with nothing under way, they are committed and no other byte is. One
of no active element completes; a first active element whose translation traps leaves VEIDX at it. The instruction first shows every core what the
thread's earlier vector stores at package scope or wider have written (R110). Where the spec leaves room, the reading is the model's: log 53. -/
def Obligations.VectorMemory : Prop :=
  (∀ (s : State) (m : Bool) (w : Ew) (vd rs1 rs2 vs2 : Reg), VecReady 1 s → Writable s vd → w = s.th.vec.sew → s.th.dauAhead = [] →
     let n := w.bits / 8
     let base := s.rx rs1
     let u := vmemIssue s
     ∀ p ∈ [ (Instr.vle m w vd rs1, fun i : Nat => base + BitVec.ofNat 64 (i * n)), (.vleff m w vd rs1, fun i => base + BitVec.ofNat 64 (i * n))
           , (.vlse m w vd rs1 rs2, fun i => base + BitVec.ofNat 64 i * s.rx rs2), (.vlxe m w vd rs1 vs2, fun i => base + BitVec.ofNat 64 (getElem s.th vs2 i)) ],
       (worked s m = [] → ∃ t, exec p.1 s = .next t ∧ t.th.pc = pcAfter 4 s ∧ t.th.vec.veidx = 0 ∧ Kept u t [] [] [] [.veidx]) ∧
       (∀ i x s1, worked s m = [i] → Cached u .load true (p.2 i).toNat n x s1 → Sound s1 x.pa → (∀ e ∈ s1.ms.wtq, e.core = coreOf s.th → e.key = x.key) →
         (∀ g ∈ s1.ms.gath, g.core ≠ coreOf s.th) → (∀ l, copyOf s1 x = some l → l.poisoned = false ∧ l.bytes.length = 128) →
         ∃ t v, exec p.1 s = .next t ∧ LoadGives s1 x n v ∧ (∀ j, getElem t.th vd j = if j = i then v else getElem s.th vd j) ∧ t.th.pc = pcAfter 4 s ∧
           t.th.vec.veidx = 0 ∧ t.th.vec.vl = s.th.vec.vl ∧ KeptRegs s t [] [] [vd] [.veidx] ∧ KeptBytes s1 t ∧ t.ms.wtq = s1.ms.wtq ∧ t.others = s1.others ∧ t.un = s1.un) ∧
       (∀ i rest r s1, worked s m = i :: rest → threadParts u .load true (p.2 i).toNat n = .stop (.trap r s1) →
         exec p.1 s = .next (takeTrap (countIssue { s1 with th := { s1.th with vec := { s1.th.vec with veidx := i } } }) { r with veidx := some i }))) ∧
  (∀ (s : State) (m : Bool) (w : Ew) (vs3 rs1 rs2 vs2 : Reg), VecReady 1 s → w = s.th.vec.sew →
     let n := w.bits / 8
     let base := s.rx rs1
     let u := vmemIssue s
     ∀ p ∈ [ (Instr.vse m w vs3 rs1, fun i : Nat => base + BitVec.ofNat 64 (i * n)), (.vsse m w vs3 rs1 rs2, fun i => base + BitVec.ofNat 64 i * s.rx rs2)
           , (.vsxe m w vs3 rs1 vs2, fun i => base + BitVec.ofNat 64 (getElem s.th vs2 i)) ],
       (worked s m = [] → ∃ t, exec p.1 s = .next t ∧ t.th.pc = pcAfter 4 s ∧ t.th.vec.veidx = 0 ∧ Kept u t [] [] [] [.veidx]) ∧
       (∀ i x s1, worked s m = [i] → Cached u .store true (p.2 i).toNat n x s1 →
         (s1.provStand s.th.tid.stand = none ∨ s.th.status.priv = true ∨
           (regionOf x.pa = 0 ∧ ∀ st, s1.provStand s.th.tid.stand = some st → provRoom s1 st (lineOf x.pa) = true)) →
         let b := fun (k : Nat) => BitVec.ofNat 8 (getElem s.th vs3 i / 2 ^ (8 * k))
         ∃ t, exec p.1 s = .next t ∧ t.th.pc = pcAfter 4 s ∧ t.th.vec.veidx = 0 ∧ KeptRegs s t [] [] [] [.veidx] ∧ t.others = s1.others ∧ t.un = s1.un ∧
           (s.th.vec.scope.code ≤ 1 → KeptBytes s1 t ∧ ∀ a, wtByte t.ms (coreOf s.th) (storeView s1) a =
             if x.pa ≤ a ∧ a < x.pa + n then some (b (a - x.pa)) else wtByte s1.ms (coreOf s.th) (storeView s1) a) ∧
           (2 ≤ s.th.vec.scope.code → Quiet s1 → (∀ e ∈ t.ms.wtq, e.core ≠ coreOf s.th) ∧
             ∀ a, commByte t.ms x.key a = if x.pa ≤ a ∧ a < x.pa + n then b (a - x.pa) else commByte s1.ms x.key a)) ∧
       (∀ i rest r s1, worked s m = i :: rest → threadParts u .store true (p.2 i).toNat n = .stop (.trap r s1) →
         exec p.1 s = .next (takeTrap (countIssue { s1 with th := { s1.th with vec := { s1.th.vec with veidx := i } } }) { r with veidx := some i })))

/-- R271, R280 to R282, R289: the integer, compare, merge, move and mask forms, element by element, for every operand form; elements that the form
does not work on keep their value. -/
def Obligations.VectorIntegers : Prop :=
  ∀ (s : State) (m : Bool) (vd vs2 vs1 : Reg) (src : VSrc), VecReady 1 s → Writable s vd →
    let w := sewBits s.th
    let sg := signedOf w
    let bit := fun (c : Bool) => if c then 1 else 0
    let a := fun (j : Nat) => getElem s.th vs2 j
    let b := fun (j : Nat) => srcElem s src false j
    let k := fun (j : Nat) => srcElem s src true j % 256
    let at0 := fun (r : Reg) (j : Nat) => (getElem s.th r j).testBit 0
    ∀ p ∈ [ (Instr.vadd m vd vs2 src, m, fun j : Nat => (a j + b j) % 2 ^ w), (.vsub m vd vs2 src, m, fun j => wrap w ((a j : Int) - b j))
          , (.vrsub m vd vs2 src, m, fun j => wrap w ((b j : Int) - a j)), (.vsadd m vd vs2 src, m, fun j => clipS w (sg (a j) + sg (b j)))
          , (.vssub m vd vs2 src, m, fun j => clipS w (sg (a j) - sg (b j))), (.vsaddu m vd vs2 src, m, fun j => clipU w ((a j : Int) + b j))
          , (.vssubu m vd vs2 src, m, fun j => clipU w ((a j : Int) - b j)), (.vmul m vd vs2 src, m, fun j => a j * b j % 2 ^ w)
          , (.vmulh m vd vs2 src, m, fun j => wrap w (sg (a j) * sg (b j) / 2 ^ w)), (.vmulhu m vd vs2 src, m, fun j => a j * b j / 2 ^ w)
          , (.vdiv m vd vs2 src, m, fun j => if b j = 0 then 2 ^ w - 1 else wrap w ((sg (a j)).tdiv (sg (b j))))
          , (.vdivu m vd vs2 src, m, fun j => if b j = 0 then 2 ^ w - 1 else a j / b j)
          , (.vrem m vd vs2 src, m, fun j => if b j = 0 then a j else wrap w ((sg (a j)).tmod (sg (b j)))), (.vremu m vd vs2 src, m, fun j => a j % b j)
          , (.vmin m vd vs2 src, m, fun j => if sg (a j) ≤ sg (b j) then a j else b j), (.vmax m vd vs2 src, m, fun j => if sg (a j) ≤ sg (b j) then b j else a j)
          , (.vminu m vd vs2 src, m, fun j => min (a j) (b j)), (.vmaxu m vd vs2 src, m, fun j => max (a j) (b j)), (.vand m vd vs2 src, m, fun j => a j &&& b j)
          , (.vor m vd vs2 src, m, fun j => a j ||| b j), (.vxor m vd vs2 src, m, fun j => a j ^^^ b j)
          , (.vsll m vd vs2 src, m, fun j => if w ≤ k j then 0 else a j * 2 ^ k j % 2 ^ w), (.vsrl m vd vs2 src, m, fun j => a j / 2 ^ k j)
          , (.vsra m vd vs2 src, m, fun j => wrap w (sg (a j) / 2 ^ k j)), (.vssl m vd vs2 src, m, fun j => clipS w (sg (a j) * 2 ^ k j))
          , (.vmseq m vd vs2 src, m, fun j => bit (decide (a j = b j))), (.vmsne m vd vs2 src, m, fun j => bit (decide (a j ≠ b j)))
          , (.vmslt m vd vs2 src, m, fun j => bit (decide (sg (a j) < sg (b j)))), (.vmsltu m vd vs2 src, m, fun j => bit (decide (a j < b j)))
          , (.vmsle m vd vs2 src, m, fun j => bit (decide (sg (a j) ≤ sg (b j)))), (.vmerge vd vs2 src, false, fun j => if at0 0 j then b j else a j)
          , (.vmv m vd src, m, b), (.vmand m vd vs2 vs1, m, fun j => bit (at0 vs2 j && at0 vs1 j)), (.vmandn m vd vs2 vs1, m, fun j => bit (at0 vs2 j && !at0 vs1 j))
          , (.vmor m vd vs2 vs1, m, fun j => bit (at0 vs2 j || at0 vs1 j)), (.vmxor m vd vs2 vs1, m, fun j => bit (at0 vs2 j != at0 vs1 j)) ],
      Elementwise p.1 s p.2.1 vd fun j => (p.2.2 j, 0)

/-- R283 to R285: the floating-point forms, element by element, in the native format of SEW 32 or 64, each rounded once; flags of the elements worked
on accrue. At SEW 8 or 16 they are illegal. Where the spec leaves room, the reading is the model's: logs 16, 17, 18 and 59. -/
def Obligations.VectorFloats : Prop :=
  ∀ (s : State) (m : Bool) (vd vs2 : Reg) (src : FSrc) (fmt : Fmt), VecReady 1 s → Writable s vd →
    let ops := [ Instr.vfadd m vd vs2 src, .vfsub m vd vs2 src, .vfmul m vd vs2 src, .vfdiv m vd vs2 src, .vfsqrt m vd vs2, .vfmin m vd vs2 src, .vfmax m vd vs2 src
               , .vfma m vd vs2 src, .vfnma m vd vs2 src, .vmfeq m vd vs2 src, .vmflt m vd vs2 src, .vmfle m vd vs2 src, .vfexp2 m vd vs2, .vfcvtd m fmt vd vs2
               , .vfcvts m fmt vd vs2 ]
    ((s.th.vec.sew = .e8 ∨ s.th.vec.sew = .e16) → ∀ i ∈ ops, Traps i s { cause := 0x03, tval := s.th.ibits }) ∧
    ∀ g : FpFmt, s.th.vec.sew = (match g with | .f32 => .e32 | .f64 => .e64) →
      let f := binFmt g
      let md := modeInForce s .dyn
      let native : Fmt := match g with | .f32 => .fp32 | .f64 => .fp64
      let a := fun (j : Nat) => f.value (getElem s.th vs2 j)
      let b := fun (j : Nat) => f.value (match src with | .vec v => getElem s.th v j | .freg q => fpBits g (readF s.th q))
      let c := fun (j : Nat) => f.value (getElem s.th vd j)
      let r := roundedElem s f
      let bit := fun (p : Bool × FpFlags) => (if p.1 then 1 else 0, p.2)
      (∀ p ∈ [ (Instr.vfadd m vd vs2 src, fun j : Nat => r j (fpAdd md (a j) (b j))), (.vfsub m vd vs2 src, fun j => r j (fpAdd md (a j) (b j).negate))
             , (.vfmul m vd vs2 src, fun j => r j (fpMul (a j) (b j))), (.vfdiv m vd vs2 src, fun j => r j (fpDiv (a j) (b j)))
             , (.vfsqrt m vd vs2, fun j => r j (fpSqrt (a j))), (.vfmin m vd vs2 src, fun j => r j (fpMin (a j) (b j))), (.vfmax m vd vs2 src, fun j => r j (fpMax (a j) (b j)))
             , (.vfma m vd vs2 src, fun j => r j (fpFma md (a j) (b j) (c j))), (.vfnma m vd vs2 src, fun j => r j (fpFma md (a j).negate (b j) (c j)))
             , (.vmfeq m vd vs2 src, fun j => bit (fpCompare .eq (a j) (b j))), (.vmflt m vd vs2 src, fun j => bit (fpCompare .lt (a j) (b j)))
             , (.vmfle m vd vs2 src, fun j => bit (fpCompare .le (a j) (b j))) ], Elementwise p.1 s m vd p.2) ∧
      (g = .f32 → Elementwise (.vfexp2 m vd vs2) s m vd fun j => exp2cr (getElem s.th vs2 j)) ∧
      (fmt.width ≤ native.width →
        Elementwise (.vfcvtd m fmt vd vs2) s m vd (fun j => convertFmt native fmt (roundingInForce s .dyn j) (getElem s.th vs2 j)) ∧
        Elementwise (.vfcvts m fmt vd vs2) s m vd (fun j => convertFmt fmt native (roundingInForce s .dyn j) (bitsAt (getElem s.th vs2 j) 0 fmt.width))) ∧
      (native.width < fmt.width → Traps (.vfcvtd m fmt vd vs2) s { cause := 0x03, tval := s.th.ibits } ∧
        Traps (.vfcvts m fmt vd vs2) s { cause := 0x03, tval := s.th.ibits })

/-- R286, R287: the reductions write element 0 of vd from element 0 of vs1 and the active elements of vs2; VSCAN writes each active element with the
sum so far. They need VEIDX 0. R288 to R292: the permutes, which read their sources in full before they write; VEXTX, VINSX, VMPOPC and VMFIRST;
VDOT4; LDPAIRW of no element and of one. All need VEIDX 0 (R272, R290), VDOT4 and LDPAIRW in micro-step 0 (R353). Where the spec leaves room, the
reading is the model's: log 51. -/
def Obligations.VectorReductions : Prop :=
  (∀ (s : State) (m : Bool) (vd vs2 vs1 : Reg), VecReady 1 s → Writable s vd →
     let w := sewBits s.th
     let sg := signedOf w
     let e := fun (j : Nat) => getElem s.th vs2 j
     let e0 := getElem s.th vs1 0
     let first := fun (x : Nat) (j : Nat) => if j = 0 then x else getElem s.th vd j
     (s.th.vec.veidx ≠ 0 → ∀ i ∈ [Instr.vredsum m vd vs2 vs1, .vredmax m vd vs2 vs1, .vredmin m vd vs2 vs1, .vscan m vd vs2 vs1],
       Traps i s { cause := 0x03, tval := s.th.ibits }) ∧
     (s.th.vec.veidx = 0 → s.th.vec.grant ≠ 0 →
       WritesElems (.vredsum m vd vs2 vs1) s vd (first ((e0 + ((worked s m).map e).sum) % 2 ^ w)) 0 ∧
       (∃ x, x ∈ e0 :: (worked s m).map e ∧ (∀ y ∈ e0 :: (worked s m).map e, sg y ≤ sg x) ∧ WritesElems (.vredmax m vd vs2 vs1) s vd (first x) 0) ∧
       (∃ x, x ∈ e0 :: (worked s m).map e ∧ (∀ y ∈ e0 :: (worked s m).map e, sg x ≤ sg y) ∧ WritesElems (.vredmin m vd vs2 vs1) s vd (first x) 0) ∧
       (nativeFmt s.th ≠ none → ∀ p ∈ [(Instr.vfredsum m vd vs2 vs1, freduce fun r a b => fpAdd r a b), (.vfredmax m vd vs2 vs1, freduce fun _ a b => fpMax a b)],
         let out := reduced (p.2 s.th) e0 ((worked s m).map fun i => (i, e i))
         WritesElems p.1 s vd (first (out.1 % 2 ^ w)) out.2)) ∧
     (s.th.vec.veidx = 0 → WritesElems (.vscan m vd vs2 vs1) s vd
       (fun j => if works s m j then (e0 + (((worked s m).filter fun i => decide (i ≤ j)).map e).sum) % 2 ^ w else getElem s.th vd j) 0)) ∧
  (∀ (s : State) (m : Bool) (rd vd vs2 vs1 rs1 : Reg), VecReady 1 s → Writable s vd → s.th.vec.veidx ≠ 0 →
     (∀ i ∈ [ Instr.vfredsum m vd vs2 vs1, .vfredmax m vd vs2 vs1, .vslideup m vd vs2 rs1, .vslidedown m vd vs2 rs1, .vrgather m vd vs2 vs1, .vcompress vd vs2
            , .vextx rd vs2 rs1, .vinsx vd rs1, .vmpopc m rd vs2, .vmfirst m rd vs2 ], Traps i s { cause := 0x03, tval := s.th.ibits }) ∧
     (s.hasFeat (coreOf s.th).die 9 = true → Writable s (vd + 1) →
       ∀ i ∈ [Instr.vdot4 m vd vs2 vs1, .ldpairw vd rs1], Traps i s { cause := 0x03, tval := s.th.ibits, mic := true, tmicro := 0 })) ∧
  (∀ (s : State) (m : Bool) (rd vd vs2 vs1 rs1 : Reg), VecReady 1 s → s.th.vec.veidx = 0 →
     let w := sewBits s.th
     let e := fun (j : Nat) => getElem s.th vs2 j
     let x := (s.rx rs1).toNat
     let at_ := fun (m : Bool) (f : Nat → Nat) (j : Nat) => if works s m j then f j else getElem s.th vd j
     (Writable s vd →
       WritesElems (.vslideup m vd vs2 rs1) s vd (fun j => if works s m j ∧ x ≤ j then e (j - x) else getElem s.th vd j) 0 ∧
       WritesElems (.vslidedown m vd vs2 rs1) s vd (at_ m fun j => if j + x < vlmaxOf s.th then e (j + x) else 0) 0 ∧
       WritesElems (.vrgather m vd vs2 vs1) s vd (at_ m fun j => if getElem s.th vs1 j < vlmaxOf s.th then e (getElem s.th vs1 j) else 0) 0 ∧
       WritesElems (.vcompress vd vs2) s vd (fun j => match (worked s true)[j]? with | some i => e i | none => getElem s.th vd j) 0 ∧
       (s.th.vec.grant ≠ 0 → WritesElems (.vinsx vd rs1) s vd (fun j => if j = 0 then x % 2 ^ w else getElem s.th vd j) 0)) ∧
     WritesX (.vextx rd vs2 rs1) s 4 rd (if x < vlmaxOf s.th then BitVec.ofInt 64 (signedOf w (e x)) else 0) ∧
     WritesX (.vmpopc m rd vs2) s 4 rd (BitVec.ofNat 64 ((worked s m).filter fun j => (e j).testBit 0).length) ∧
     (∀ j, works s m j = true → (e j).testBit 0 = true → (∀ i < j, works s m i = true → (e i).testBit 0 = false) → WritesX (.vmfirst m rd vs2) s 4 rd (BitVec.ofNat 64 j)) ∧
     ((∀ j, works s m j = true → (e j).testBit 0 = false) → WritesX (.vmfirst m rd vs2) s 4 rd (BitVec.allOnes 64)) ∧
     (s.hasFeat (coreOf s.th).die 9 = true → s.th.vec.sew = .e32 →
       (Writable s vd → WritesElems (.vdot4 m vd vs2 vs1) s vd (at_ m fun j => wrap 32 (signedOf 32 (getElem s.th vd j) +
         ((List.range 4).map fun k => signedOf 8 (e j / 2 ^ (8 * k) % 256) * signedOf 8 (getElem s.th vs1 j / 2 ^ (8 * k) % 256)).sum)) 0) ∧
       (Writable s vd → Writable s (vd + 1) →
         (s.th.vec.vl = 0 → ∃ t, exec (.ldpairw vd rs1) s = .next t ∧ t.th.pc = pcAfter 8 s ∧ Kept (vmemIssue s) t [] [] [] []) ∧
         (∀ s1 s2 b1 b2, s.th.vec.vl = 1 → elemBytes (vmemIssue s) (s.rx rs1).toNat 4 0 none = .ok b1 s1 → elemBytes s1 (s.rx rs1 + 4).toNat 4 0 none = .ok b2 s2 →
           s1.th = s.th → s2.th = s.th → b1.length = 4 → b2.length = 4 → ∃ t, exec (.ldpairw vd rs1) s = .next t ∧ t.th.pc = pcAfter 8 s ∧ t.ms = s2.ms ∧
             (∀ j, getElem t.th vd j = if j = 0 then leNat b1 else getElem s.th vd j) ∧
             (∀ j, getElem t.th (vd + 1) j = if j = 0 then leNat b2 else getElem s.th (vd + 1) j) ∧ KeptRegs s t [] [] [vd, vd + 1] []))))

/-- R296 to R302: MMODE.ON sets MM when a shape is held, MMODE.OFF clears it and the pin; VOPA in matrix mode adds to each entry of the rows left by
its mask one product, rounded once; VACCZ zeroes v16 to v31; outside matrix mode both take 0x12; VSMX writes its exponentials and the three f
registers. -/
def Obligations.MatrixMode : Prop :=
  ∀ (s : State) (m : Bool) (va vb vd vs2 fa : Reg), VecReady 1 s →
    let v := s.th.vec
    (v.sew = .e32 →
      (s.th.status.mm = false → v.cols = 0 → Traps .mmodeOn s { cause := 0x12, tval := 0x300 }) ∧
      (s.th.status.mm = true ∨ v.cols ≠ 0 → ∃ t, exec .mmodeOn s = .next t ∧ t.th.status = { s.th.status with mm := true } ∧ t.th.vec = v ∧ t.th.pc = pcAfter 4 s ∧
        Kept s t [] [] [] [.status, .vcfg]) ∧
      (∃ t, exec .mmodeOff s = .next t ∧ t.th.status = { s.th.status with mm := false } ∧
        t.th.vec = (if s.th.status.mm then { v with pin := false } else v) ∧ t.th.pc = pcAfter 4 s ∧ Kept s t [] [] [] [.status, .vcfg, .lease])) ∧
    (∀ p ∈ [ (Instr.vopaBf16 m va vb, 2, bf16), (.vopaF16 m va vb, 2, fp16), (.vopaE4m3 m va vb, 3, e4m3), (.vopaE5m2 m va vb, 3, e5m2) ],
      s.hasFeat (coreOf s.th).die p.2.1 = true → v.sew = .e32 → v.veidx = 0 → v.cols ≤ 512 →
      (s.th.status.mm = false → Traps p.1 s { cause := 0x12, tval := 0x400 }) ∧
      (s.th.status.mm = true → ∃ t, exec p.1 s = .next t ∧ t.th.pc = pcAfter 4 s ∧ Kept s t [] [] ((List.range 16).map fun k => BitVec.ofNat 5 (16 + k)) [] ∧
        (va.toNat < 16 → vb.toNat < 16 → (∀ k : Fin 32, (v.v.get k).bytes.wf 0 = true) → ∀ i j, i < lanesOfThread s.th → j < v.cols →
          accEntry t.th i j = if !m || (getElem s.th 0 i).testBit 0
            then (roundTo fp32 rne (fpFma .rne (p.2.2.value (getElem s.th va i % 2 ^ p.2.2.width)) (p.2.2.value (getElem s.th vb j % 2 ^ p.2.2.width))
              (fp32.value (accEntry s.th i j))).1).1
            else accEntry s.th i j))) ∧
    (s.th.status.mm = false → Traps .vaccz s { cause := 0x12, tval := 0x400 }) ∧
    (s.th.status.mm = true → ∃ t, exec .vaccz s = .next t ∧ t.th.pc = pcAfter 4 s ∧ Kept s t [] [] ((List.range 16).map fun k => BitVec.ofNat 5 (16 + k)) [] ∧
      ∀ r : Reg, 16 ≤ r.toNat → (readV t.th r).d = true ∧ (readV t.th r).vd = 0 ∧ ∀ j, getElem t.th r j = 0) ∧
    (Writable s vd → v.sew = .e32 → v.veidx = 0 →
      let e := fun (j : Nat) => getElem s.th vs2 j
      let mx := fpBits .f32 (readF s.th fa)
      let sm := fpBits .f32 (readF s.th (fa + 1))
      let top := maxnum32 mx ((tree maxnum32 ((worked s m).map e)).getD 0xFF800000)
      let ex := fun (j : Nat) => if e j = 0xFF800000 then 0 else (exp2cr (rsub32 (e j) top)).1
      let c := if mx = 0xFF800000 ∧ top = 0xFF800000 then 0x3F800000 else (exp2cr (rsub32 mx top)).1
      ∃ t, exec (.vsmx m vd vs2 fa) s = .next t ∧ t.th.pc = pcAfter 4 s ∧ Kept s t [] [fa, fa + 1, fa + 2] [vd] [.status] ∧
        (∀ j, getElem t.th vd j = if works s m j then ex j % 2 ^ 32 else getElem s.th vd j) ∧ readF t.th fa = fpWord .f32 top ∧
        readF t.th (fa + 1) = fpWord .f32 (fma32 sm c ((tree radd32 ((worked s m).map ex)).getD 0)) ∧ readF t.th (fa + 2) = fpWord .f32 c ∧
        t.th.status = { s.th.status with fpv := true })

/-- R305 to R308: the first member's VCOLL with a valid token and operands in order begins an instance and sends its contribution, advances SEQ and
parks the thread until the result; an invalid token takes 0x14; no register is written meanwhile. Where the spec leaves room, the reading is the
model's: log 46. -/
def Obligations.CollectiveIssue : Prop :=
  ∀ (s : State) (vd vs xr : Reg) (gn : BitVec 3) (f : Bool), VecReady 8 s → Writable s vd → s.th.vec.veidx = 0 →
    let g := s.th.vec.g.get ⟨gn.toNat, gn.isLt⟩
    let ctx := activeCtx s s.th
    let token := kReg s ctx g.cap.toNat
    let x := (s.rx xr).toNat
    let count := g.countM1.toNat + 1
    let key : CollKey := ⟨jobidOf s ctx, g.gid.toNat, g.seq.toNat⟩
    ∀ p ∈ [ (Instr.vcollSum f vd vs gn, CollOp.sum, f, 0, 0, s.th.vec.vl), (.vcollMax f vd vs gn, .max, f, 0, 0, s.th.vec.vl), (.vcollMin f vd vs gn, .min, f, 0, 0, s.th.vec.vl)
          , (.vcollSmerge vd vs gn xr, .smerge, false, x, 0, s.th.vec.vl), (.vcollGather vd vs gn, .gather, false, 0, 0, s.th.vec.vl)
          , (.vcollScatter vd vs gn xr, .scatter, false, 0, x, if g.rank.toNat = x then count * s.th.vec.vl else s.th.vec.vl)
          , (.vcollBcast vd vs gn xr, .bcast, false, 0, x, s.th.vec.vl) ],
      let op := p.2.1
      (op = .sum ∨ op = .max ∨ op = .min → f = true → s.th.vec.sew = .e32 ∨ s.th.vec.sew = .e64) → (op = .smerge → s.th.vec.sew = .e32) →
      (op = .smerge → x ≠ 0 ∧ s.th.vec.vl % (2 + x) = 0) → (op = .gather → count * s.th.vec.vl ≤ vlmaxOf s.th) →
      (op = .scatter → x < count ∧ (g.rank.toNat = x → count * s.th.vec.vl ≤ vlmaxOf s.th)) → (op = .bcast → x < count) →
      (capOf s (s.partOf ctx) token = none → Traps p.1 s { cause := 0x14, tval := token }) ∧
      (capOf s (s.partOf ctx) token ≠ none → s.coll? key = none → ∃ t i c, exec p.1 s = .next t ∧ t.th.run = .parked (.collective key vd gn.toNat) ∧
        t.th.pc = s.th.pc ∧ t.th.x = s.th.x ∧ t.th.f = s.th.f ∧ t.th.vec.v = s.th.vec.v ∧ t.ms = s.ms ∧
        t.th.vec.g.get ⟨gn.toNat, gn.isLt⟩ = { g with seq := g.seq + 1 } ∧ t.coll? key = some i ∧ i.got = [] ∧ i.sent = [c] ∧ i.count = count ∧ i.fin = none ∧
        i.waiting = [(s.th.tid, g.rank.toNat, vd, gn.toNat)] ∧ i.copies.length = (if g.buddy = 1 then 1 else 0) ∧ c.rank = g.rank.toNat ∧ c.pkg = s.clk.pkg ∧ c.op = op ∧
        c.f = p.2.2.1 ∧ c.d = p.2.2.2.1 ∧ c.root = p.2.2.2.2.1 ∧ c.vl = s.th.vec.vl ∧ c.elems = (List.range p.2.2.2.2.2).map fun j => getElem s.th vs j)

/-! Events of memory and translation. -/

/-- R73, R74, R77, R119: an L1D line 65,536 cycles of its die old is dropped, and no other; the oldest store of a core's queue reaches committed
memory, or its task's provisional lines, and no other byte changes; a line's home gives its writer's die the only copy, in M; the DAU makes the next
active element early. R87, R88, R90, R91: the scrubber finds the errors of an HBM line, and poisons the line when its code does not correct one; a
latent code line that reads well is cured; RASBASE takes its fields, and a change of PPN or SIZE empties the ring; RASIDX takes RIDX modulo the ring's
size, and clears LOST bits. Where the spec leaves room, the reading is the model's: logs 21, 22, 56, 66, 71 and 72. -/
def Obligations.CacheAndErrorEvents : Prop :=
  (∀ (s : State) (core : CoreId) (line : Nat),
     (∃ t, exec (.l1dLineExpiry core line) s = .next t ∧ Apart s t ∧ t = { s with ms := { s.ms with l1d := t.ms.l1d, gath := t.ms.gath } } ∧
       ∀ l, l ∈ t.ms.l1d ↔ l ∈ s.ms.l1d ∧ ¬(l.core = core ∧ l.line = line ∧ l.filled + 65536 ≤ s.dieCycle core.die)) ∧
     (s.ms.wtq.find? (fun e => decide (e.core = core)) = none → exec (.writeThroughDelivery core) s = .next s) ∧
     (∀ e pa bs, s.ms.wtq.find? (fun e => decide (e.core = core)) = some e → e.bytes = cellsAt pa bs → Memory.wf s.ms = true →
       let stored := fun (view : Option Nat) (t : State) => ∀ a, viewByte t.ms view e.key a =
         if pa ≤ a ∧ a < pa + bs.length then bs.getD (a - pa) 0 else viewByte s.ms view e.key a
       (e.prov = none → ∃ t, exec (.writeThroughDelivery core) s = .next t ∧ t.ms.wtq = s.ms.wtq.erase e ∧ t = { s with ms := t.ms } ∧ stored none t) ∧
       (∀ st sd k, e.prov = some st → e.key = some k → s.stand? st = some sd → sd.direct = false → ∃ t, exec (.writeThroughDelivery core) s = .next t ∧
         t.ms.wtq = s.ms.wtq.erase e ∧ t = { s with ms := t.ms } ∧ stored (some st) t ∧
         ∀ view key a, view ≠ some st → viewByte t.ms view key a = viewByte s.ms view key a)) ∧
     (∀ e, s.ms.wtq.find? (fun e => decide (e.prov = none) && e.bytes.any fun c => decide (lineOf c.1 = line)) = some e → Memory.wf s.ms = true →
       ∃ t, exec (.homeRequest line) s = .next t ∧ Apart s t ∧ t = { s with ms := t.ms } ∧ (⟨e.core.die, line, .m⟩ : L2Line) ∈ t.ms.l2 ∧
         ∀ x ∈ t.ms.l2, x.line = line → x = ⟨e.core.die, line, .m⟩) ∧
     (∀ w m n addr g i bs s1 s2, s.th.run = .running → clsOf s.th = .v → s.th.status.chain = false → fetchWord s s.th.pc.toNat = .ok w s1 → s1.th = s.th →
       dauForm w.toNat = some (m, n, addr, g) → n * 8 = s.th.vec.sew.bits → s.th.dauPc = s.th.pc → works s m i = true → look s.th.dauAhead i = none →
       (∀ j < i, works s m j = true → look s.th.dauAhead j ≠ none) → elemBytes s1 (addr s1 i) n i (g s1) = .ok bs s2 → s2.th = s.th →
       exec (.dauLoad s.th.tid) s = .next { s2 with th := { s.th with dauAhead := s.th.dauAhead ++ [(i, leNat bs)] } })) ∧
  (∀ (s : State) (line : Nat) (v : Word),
     (RasOff s → let here := fun (e : EccError) => e.line = line ∧ e.level = .hbm ∧ e.prov = none
       ∃ t, exec (.patrolScrub line) s = .next t ∧ Apart s t ∧ t = { s with ms := { s.ms with ecc := t.ms.ecc, poison := t.ms.poison } } ∧
         (∀ e, e ∈ t.ms.ecc ↔ e ∈ s.ms.ecc ∧ ¬here e) ∧
         ∀ l, l ∈ t.ms.poison ↔ l ∈ s.ms.poison ∨ (l = (.hbm, line) ∧ ∃ e ∈ s.ms.ecc, here e ∧ e.corrects = false)) ∧
     (RasOff s → (∃ l ∈ s.ms.latent, l.line = line) → (∀ e ∈ s.ms.ecc, e.line ≠ line) → (.hbm, line) ∉ s.ms.poison →
       ∃ t, exec (.latentCodeRescrub line) s = .next t ∧ t.th = s.th ∧ t.others = s.others ∧ (∀ l, l ∈ t.ms.latent ↔ l ∈ s.ms.latent ∧ l.line ≠ line) ∧
       (∀ l, l ∈ t.ms.l1i ↔ l ∈ s.ms.l1i ∧ ¬(l.line = line ∧ l.poisoned = true)) ∧ (∀ l, l ∈ t.ms.l1d ↔ l ∈ s.ms.l1d ∧ ¬(l.line = line ∧ l.poisoned = true)) ∧
       (∀ h l, (h, l) ∈ t.ms.poison ↔ (h, l) ∈ s.ms.poison ∧ l ≠ line) ∧ (∀ view key a, lineOf a ≠ line → viewByte t.ms view key a = viewByte s.ms view key a) ∧
       ((∀ h, (h, line) ∉ s.ms.poison) → KeptBytes s t)) ∧
     (let old := s.reg10 .rasbase
      let same := field old 51 12 = field v 51 12 ∧ field old 3 0 = field v 3 0
      ∃ t, exec (.rasbaseWrite v) s = .next t ∧ Apart s t ∧ t.reg10 .rasbase = v &&& 0x800FFFFFFFFFF00F#64 ∧
        t.reg10 .rasidx = (if same then s.reg10 .rasidx else s.reg10 .rasidx &&& 0xFFFFF00000000000#64) ∧
        ∀ r, r ≠ .rasbase → r ≠ .rasidx → t.reg10 r = s.reg10 r) ∧
     ∃ t, exec (.rasidxWrite v) s = .next t ∧ Apart s t ∧ field (t.reg10 .rasidx) 43 22 = field v 43 22 % 2 ^ (field (s.reg10 .rasbase) 3 0 + 7) ∧
       field (t.reg10 .rasidx) 21 0 = field (s.reg10 .rasidx) 21 0 ∧ (∀ k, 46 ≤ k → k < 60 →
         (t.reg10 .rasidx).getLsbD k = ((s.reg10 .rasidx).getLsbD k && !v.getLsbD k)) ∧ ∀ r, r ≠ .rasidx → t.reg10 r = s.reg10 r)

/-- R21, R34, R37, R42, R388: the oldest miss of a die is given a free walker, and its thread issues again, or its command's row is tried again; a
dword of a context record is written, with EN 0 while another enabled context has its JOBID; a TLBINV ends, or fails on a package that has been silent
for 200 µs, with no store left in a queue; a key slot is loaded or unloaded on a request, with no first-level data cache line left and no instruction
line under it. Where the spec leaves room, the reading is the model's: logs 13, 30 and 66. -/
def Obligations.TranslationEvents : Prop :=
  ∀ (s : State) (die n pkg slot part : Nat) (ctx : BitVec 12) (dword : BitVec 2) (v : Word),
    (∀ q, s.xl.missQ.find? (fun q => decide (q.die = die) && !q.served) = some q →
      (256 ≤ walksInFlight s die → exec (.missQueueServe die) s = .next s) ∧
      (walksInFlight s die < 256 → ∃ t, exec (.missQueueServe die) s = .next t ∧ t.ms = s.ms ∧ { q with served := true } ∈ t.xl.missQ ∧
        (∀ r ∈ s.xl.missQ, r ≠ q → r ∈ t.xl.missQ) ∧ (q.cmd = none → WaitsIn s q.tid .missQueue → t.th = { s.th with run := .running }) ∧
        (q.cmd ≠ none → t.th = s.th))) ∧
    (let old := s.ctxRec ctx.toNat
     let r : CtxRec := if dword = 0 then { old with en := v.getLsbD 63, part := v.extractLsb' 52 4, root := v.extractLsb' 12 40 }
       else if dword = 1 then { old with jobid := v.extractLsb' 0 32 } else old
     let clash := ∃ e ∈ s.xl.ctxs, e.1 ≠ ctx.toNat ∧ e.2.en = true ∧ e.2.jobid = r.jobid
     ∃ t, exec (.contextRecordWrite ctx dword v) s = .next t ∧ Apart s t ∧ (clash → t.ctxRec ctx.toNat = { r with en := false }) ∧
       (¬clash → t.ctxRec ctx.toNat = r) ∧ (∀ c, c ≠ ctx.toNat → t.ctxRec c = s.ctxRec c) ∧ t.xl.tlb = s.xl.tlb) ∧
    (∀ i, s.xl.inv.find? (fun i => decide (i.id = n) && !i.done) = some i →
      (∃ t, exec (.tlbinvComplete n) s = .next t ∧ t.ms.wtq = [] ∧ (s.ms.wtq = [] → t.ms = s.ms) ∧ t.xl.tlb = s.xl.tlb ∧
        { i with done := true, failed := none } ∈ t.xl.inv ∧ (WaitsIn s i.tid (.tlbinv n) → t.th = { s.th with run := .running })) ∧
      (i.ask ≠ none → (s.clk.time < i.sinceNs + 200000 → exec (.tlbinvPodTimeout n pkg) s = .next s) ∧
        (i.sinceNs + 200000 ≤ s.clk.time → pkg ≠ s.clk.pkg → pkg < 1024 → ∃ t, exec (.tlbinvPodTimeout n pkg) s = .next t ∧ t.ms.wtq = [] ∧
          t.xl.tlb = s.xl.tlb ∧ { i with done := true, failed := some pkg } ∈ t.xl.inv ∧ (WaitsIn s i.tid (.tlbinv n) → t.th = { s.th with run := .running })))) ∧
    (s.pf.keyReqs.contains (.loadKey slot part) = false → exec (.keySlotLoad slot part) s = .next s) ∧
    (s.pf.keyReqs.contains (.loadKey slot part) = true → slot < 2048 → part < 16 → ∃ t, exec (.keySlotLoad slot part) s = .next t ∧
      t.th = s.th ∧ t.others = s.others ∧ look t.xl.keys slot = some ⟨part, t.xl.keyGen⟩ ∧ t.xl.keyGen = s.xl.keyGen + 1 ∧
      (∀ k, k ≠ slot → look t.xl.keys k = look s.xl.keys k) ∧ t.ms.l1d = [] ∧ t.ms.gath = [] ∧ ∀ l ∈ t.ms.l1i, ∀ k, l.key = some k → k.slot ≠ slot) ∧
    (s.pf.keyReqs.contains (.unloadKey slot) = true → ∃ t, exec (.keySlotUnload slot) s = .next t ∧ t.th = s.th ∧ t.others = s.others ∧
      look t.xl.keys slot = none ∧ (∀ k, k ≠ slot → look t.xl.keys k = look s.xl.keys k) ∧ t.ms.l1d = [] ∧ t.ms.gath = [] ∧
      ∀ l ∈ t.ms.l1i, ∀ k, l.key = some k → k.slot ≠ slot)

/-! Events of the engines and of the pod window. -/

/-- R127, R258: the next row of a TCOPY.T is copied element by element, and PROG counts it; a held, blocked or complete command does nothing. R265:
the array reads an operand whose rows are sound, and its lock goes with its last reading, both locks of a TMMA32 with the last reading of all (R267).
R123, R137: a command whose thread's earlier stores are performed and whose own work is done leaves its engine, and its counter counts it and stamps
the threads that wait for it; a TACCRD rounds each entry of its bank into its tile; a TMMA or TMMA32 leaves each entry of its bank as R178 to R180 and
R267 say. R130: the held fault that is due is delivered. Where the spec leaves room, the reading is the model's: logs 31, 66, 82 and 83, and log 48
for which threads take a held fault. -/
def Obligations.EngineEvents : Prop :=
  ∀ (s : State) (id k : Nat) (c : Cmd), s.cmd? id = some c →
    let stored := (∀ p ∈ s.ms.posted, p.tid ≠ c.tid) ∧ ∀ e ∈ s.ms.wtq, e.core ≠ c.core
    let idle := ∀ u ∈ s.threads, ∀ w, u.run = .parked w → (∀ v, w ≠ .timeline c.key v) ∧ (∀ m, w ≠ .engine m) ∧ ∀ k n, w ≠ .pend k n
    (∀ w, c.op.win = some w → (c.held.isSome = true ∨ w.nr ≤ c.prog ∨ rowBlocked s c w = true) → exec (.copyRow id) s = .next s) ∧
    (∀ w a b ta tb, c.op = .tcopyT a b w → c.ghosts = [] → a ≠ b → s.tile? a = some ta → s.tile? b = some tb → ta.bad = [] → ta.fmt = tb.fmt → tb.bytes.wf 0 = true →
      Within w tb → w.nc ≤ ta.cols → c.held = none → c.prog < w.nr → (∀ p ∈ s.ms.posted, p.tid ≠ c.tid) → rowBlocked s c w = false →
      (∀ e ∈ s.ms.wtq, e.core ≠ c.core) → ∃ t tb', exec (.copyRow id) s = .next t ∧ t.th = s.th ∧ t.others = s.others ∧ t.ms = s.ms ∧ t.tile? b = some tb' ∧
        (∀ r j, r < tb.rows → j < tb.cols →
          tb'.get r j = if r = w.row0 + c.prog ∧ j < w.nc then keptElem tb.fmt (ta.get r j) else tb.get r j) ∧
        { c with prog := c.prog + 1, pod := [], row := none } ∈ t.un.cmds ∧ ∀ d ∈ s.un.cmds, d.id ≠ id → d ∈ t.un.cmds) ∧
    (∀ key d ta, c.readable k = some key → s.un.cmds.find? (fun d => d.op.matrix && decide (d.core = c.core)) = some d → d.id = id → s.tile? key = some ta →
      ta.bad = [] → ∃ t c' ta', exec (.arrayOperandRead id k) s = .next t ∧ t.cmd? id = some c' ∧ c'.toRead = c.toRead.eraseIdx k ∧
        c'.captured = c.captured ++ [⟨key, ta.fmt, ta.cols, ta.bytes⟩] ∧ t.tile? key = some ta' ∧ ta'.bytes = ta.bytes ∧
        (match c.op with
         | .tmma32 _ a b _ => (c'.toRead ≠ [] → ta'.readers = ta.readers) ∧
             (c'.toRead = [] → ∀ q ∈ [a, b], ∀ u, t.tile? q = some u → LockHolder.array id ∉ u.readers)
         | _ => if key ∈ c'.toRead then ta'.readers = ta.readers else LockHolder.array id ∉ ta'.readers) ∧ t.ms = s.ms ∧ (c'.toRead = [] → WaitsIn s c.tid (.arrayRead id) → t.th = { s.th with run := .running })) ∧
    (s.db.sessions = [] → stored → ∀ w, c.op.win = some w → c.held = none → w.nr ≤ c.prog → ∃ t, exec (.engineCommandComplete id) s = .next t ∧
      KeptBytes s t ∧ (idle → Apart s t) ∧ (∀ d, d ∈ t.un.cmds ↔ d ∈ s.un.cmds ∧ d.id ≠ id) ∧
      (c.seq = (s.tl c.key).val + 1 → (s.tl c.key).ahead = [] → (t.tl c.key).val = c.seq ∧ (t.tl c.key).stamp = s.clk.time ∧
        ∀ v, s.th.run = .parked (.timeline c.key v) → v ≤ c.seq → s.th.waitStamp = none → t.th = { s.th with waitStamp := some s.clk.time }) ∧
      ((s.tl c.key).val + 1 < c.seq → (s.tl c.key).val + 1 ∉ (s.tl c.key).ahead →
        (t.tl c.key).val = (s.tl c.key).val ∧ (t.tl c.key).stamp = (s.tl c.key).stamp ∧ c.seq ∈ (t.tl c.key).ahead)) ∧
    (s.db.sessions = [] → stored → idle → c.ghosts = [] → c.toRead = [] → ∀ d, s.un.cmds.find? (fun d => d.op.matrix && decide (d.core = c.core)) = some d → d.id = id →
      (∀ bank dst r sat seed clr k, c.op = .taccrd bank dst r sat seed clr → s.tile? dst = some k → 64 ≤ k.rows → 64 ≤ k.cols → k.bytes.wf 0 = true →
        ∃ t k', exec (.engineCommandComplete id) s = .next t ∧ Apart s t ∧ t.tile? dst = some k' ∧ (∀ i j, i < 64 → j < 64 → k'.get i j =
          keptElem k.fmt (fmtRound k.fmt ⟨r, sat, seed, i * 65536 + j⟩ (accValue (s.bank c.core bank).kind ((s.bank c.core bank).get i j))).1) ∧
          t.bank c.core bank = if clr then ⟨c.core, bank, .fp32, []⟩ else s.bank c.core bank) ∧
      (∀ bank a b fa fb sa sb n za kind, c.op = .tmma bank a b fa fb sa sb n za → c.op.kind = some kind → c.poisoned = false →
        (za = false → (s.bank c.core bank).kind = kind) → ∃ t, exec (.engineCommandComplete id) s = .next t ∧ Apart s t ∧ (t.bank c.core bank).kind = kind ∧
          ∀ i j, i < 64 → j < 64 →
            let scale := fun (x : Option TileKey) (row col : Nat) => match x with | some x => (c.operand x).get .uint8 row col | none => 127
            let lane : Lane := ⟨(c.operand a).get fa i, fun x => (c.operand b).get fb x j, scale sa i, fun x => scale sb x j⟩
            (t.bank c.core bank).get i j = mmaEntry kind fa fb n lane (if za then ⟨0, false⟩ else (s.bank c.core bank).get i j)) ∧
      (∀ bank a b n, c.op = .tmma32 bank a b n → c.poisoned = false → (s.bank c.core bank).kind = .fp32 → ∃ t, exec (.engineCommandComplete id) s = .next t ∧
        Apart s t ∧ ∀ i j, i < 64 → j < 64 →
          let term := fun (f g : Nat → Val) (w : Nat) => (List.range n).foldl (fun w x =>
            accAdd w (fpMul (f ((c.operand a).get .fp32 i x)) (g ((c.operand b).get .fp32 x j))).1) w
          let hi := fun (x : Nat) => fp32.value (hiPart x)
          (t.bank c.core bank).get i j = ⟨term hi hi (term hi loPart (term loPart hi ((s.bank c.core bank).get i j).v.toNat)), false⟩)) ∧
    (standHalted s s.th.tid.stand = true → s.th.run ≠ .ended → exec (.heldFaultDelivery s.th.tid) s = .next s) ∧
    (stoppable s.th = true → standHalted s s.th.tid.stand = false → stopPointAt s true = none → dueStoreFault s = none → s.th.run ≠ .ended →
      (dueHeld s = none → exec (.heldFaultDelivery s.th.tid) s = .next s) ∧
      (∀ h, dueHeld s = some (c, h) → (takeTrap s (heldTrap c h)).th.run ≠ .ended → (takeTrap s (heldTrap c h)).th.tid = s.th.tid →
        exec (.heldFaultDelivery s.th.tid) s = .next (takeTrap s (heldTrap c h))))

/-- R15, R30, R38, R132, R133: another package's request under a JOBID that no enabled context has is answered with class 0x5; one that its
translation refuses, in the mode of its issuer, with that class and level; a store or a load is performed at its home and answered. An answer to this
package's request, or 200 µs without one, which is class 0x6, lets the thread that waits for it go on. Where the spec leaves room, the reading is the
model's: logs 32 and 66. -/
def Obligations.PodWindow : Prop :=
  ∀ (s s1 : State) (req : PodReq) (id : Nat) (ans : PodAns),
    let answered := fun (t : State) (a : PodAns) => t.pod.replies = s.pod.replies ++ [⟨req.src, req.id, a⟩]
    let found := s.xl.ctxs.find? fun e => e.2.en && decide (e.2.jobid.toNat = req.jobid)
    (found = none → ∃ t, exec (.podWindowRequest req) s = .next t ∧ Apart s t ∧ answered t (.fault 0x5 0 0)) ∧
    (∀ e k n, found = some e → requestAccess req = some (k, n) → s1.pod = s.pod →
      let va := req.offset % 2 ^ 46
      let who : Walker := ⟨e.1, some remoteTlb, none, none, (remoteTid req.src req.tid).word⟩
      let res := partsUnder s who k (pageCuts (n / 4096 + 2) va n) []
      (∀ c l a, res = (.error (.cls c l, a), s1) → ∃ t, exec (.podWindowRequest req) s = .next t ∧ t.th = s1.th ∧ t.ms = s1.ms ∧ answered t (.fault c l (a - va))) ∧
      (∀ a, res = (.error (.poison, a), s1) → ∃ t, exec (.podWindowRequest req) s = .next t ∧ t.th = s1.th ∧ t.ms = s1.ms ∧ answered t (.poison 0)) ∧
      (∀ x v, res = (.ok [.here x va n], s1) → regionOf x.pa ≠ 2 → req.op = .store n v → n ≤ 4096 → Memory.wf s1.ms = true → ∃ t, exec (.podWindowRequest req) s = .next t ∧
        t.th = s1.th ∧ answered t (.value 0) ∧ ∀ a, viewByte t.ms none x.key a =
          if x.pa ≤ a ∧ a < x.pa + n then (BitVec.ofNat 8 (v / 2 ^ (8 * (a - x.pa)))) else viewByte s1.ms none x.key a) ∧
      (∀ x, res = (.ok [.here x va n], s1) → regionOf x.pa ≠ 2 → req.op = .load n → s1.ms.ecc = [] → s1.ms.poison = [] → Memory.wf s1.ms = true →
        ∃ t, exec (.podWindowRequest req) s = .next t ∧ t.th = s1.th ∧ KeptBytes s1 t ∧
          answered t (.value (leNat ((List.range n).map fun k => viewByte s1.ms none x.key (x.pa + k)))))) ∧
    (s.pod.out.find? (fun o => decide (o.id = id)) = none → exec (.podWindowResponse id ans) s = .next s ∧ exec (.podWindowTimeout id) s = .next s) ∧
    (∀ o p, s.pod.out.find? (fun o => decide (o.id = id)) = some o → o.cmd = none → o.posted = none → o.strip = false → WaitsIn s o.tid (.pod id) →
      p ∈ s.th.pod → p.id = id →
      let ends := fun (t : State) (a : PodAns) => t.th.run = .running ∧ { p with answer := some a } ∈ t.th.pod ∧ t.ms = s.ms ∧ ∀ q ∈ t.pod.out, q.id ≠ id
      (∃ t, exec (.podWindowResponse id ans) s = .next t ∧ ends t ans) ∧
      (s.clk.time < o.sentNs + 200000 → exec (.podWindowTimeout id) s = .next s) ∧
      (o.sentNs + 200000 ≤ s.clk.time → ∃ t, exec (.podWindowTimeout id) s = .next t ∧ ends t (.fault 0x6 0 0)))

/-! Events of threads. -/

/-- R147, R150, R230, R234, R237: a parked thread whose condition has cleared issues again, and one whose message has not come does not; a wait's
limit wakes its thread, which then finds no message; 200 µs after its latest arrival an episode at package or pod scope is abandoned, and a thread
that waits on it takes 0x24. R140, R233, R323: the oldest message on its way to a thread joins its receive queue; a spawned thread starts at its
entry, with x10 to x13 set, every other register zero, and no trap control; a thread that has been streamed to a place takes it, acquires at package
scope, and finds the messages that were held for it. Where the spec leaves room, the reading is the model's: logs 47 and 66. -/
def Obligations.WaitEvents : Prop :=
  (∀ (s : State), s.th.run ≠ .ended →
     (∀ w l v k n b m id, s.th.run = .parked w → ((w = .timeline k v ∧ v ≤ (s.tl k).val) ∨ ((w = .mwaitf l ∨ w = .wfe l) ∧ s.th.rxq ≠ []) ∨
         (w = .engine m ∧ engineOpen s m s.th = true) ∨ (w = .pend b n ∧ pendOf s b < n) ∨ (w = .lock b ∧ s.tile? b = none) ∨
         (w = .arrayRead id ∧ s.cmd? id = none)) →
       ∃ t, exec (.parkResume s.th.tid) s = .next t ∧ t.th = { s.th with run := .running } ∧ t.ms = s.ms ∧ t.un = s.un) ∧
     (∀ l, s.th.run = .parked (.mwaitf l) ∨ s.th.run = .parked (.wfe l) → s.th.rxq = [] → exec (.parkResume s.th.tid) s = .next s) ∧
     (∀ k v, s.th.run = .parked (.timeline k v) → (s.tl k).val < v → (∀ c ∈ s.un.cmds, c.held = none) → exec (.parkResume s.th.tid) s = .next s) ∧
     (∀ d, s.th.run = .parked (.mwaitf (some d)) ∨ s.th.run = .parked (.wfe (some d)) → s.th.rxq = [] →
       (s.dieCycle (coreOf s.th).die < d → exec (.waitLimitExpiry s.th.tid) s = .next s) ∧
       (d ≤ s.dieCycle (coreOf s.th).die → ∃ t, exec (.waitLimitExpiry s.th.tid) s = .next t ∧ t.th = { s.th with run := .running, expired := true } ∧ t.ms = s.ms)) ∧
     (∀ b n, s.un.barriers.find? (fun c => decide (c.key = b.key)) = some b → b.n = some n →
       let after : Barrier := { b with ep := b.ep + 1, n := none, count := 0, arrived := [], abandoned := some ⟨b.ep, b.arrived, n - b.count⟩ }
       let fault := takeTrap (s.setBarrier after) { cause := 0x24, vkind := 1, tval := BitVec.ofNat 64 (b.ep % 2 ^ 48 * 2 ^ 16 + b.key.scope.code * 2 ^ 8 + b.key.num) }
       ((b.key.scope.code < 4 ∨ s.clk.time < b.lastNs + 200000) → exec (.barrierEpisodeAbandon b.key) s = .next s) ∧
       (4 ≤ b.key.scope.code → b.lastNs + 200000 ≤ s.clk.time → (∀ o ∈ s.others, o.run ≠ .parked (.barrier b.key b.ep)) →
         (s.th.run ≠ .parked (.barrier b.key b.ep) → exec (.barrierEpisodeAbandon b.key) s = .next (s.setBarrier after)) ∧
         (s.th.run = .parked (.barrier b.key b.ep) → standHalted s s.th.tid.stand = false → fault.th.run ≠ .ended → fault.th.tid = s.th.tid →
           exec (.barrierEpisodeAbandon b.key) s = .next fault)))) ∧
  (∀ (s : State),
     (∀ f, s.gl.flights.find? (fun f => decide (f.to_ = s.th.tid)) = some f → (s.th.run = .running ∨ ∃ w, s.th.run = .parked w) →
       ∃ t, exec (.messageArrival s.th.tid) s = .next t ∧ t.th.rxq = s.th.rxq ++ [f.msg] ∧ t.gl = { s.gl with flights := s.gl.flights.erase f } ∧ t.ms = s.ms ∧
         t.th.x = s.th.x ∧ t.th.run = s.th.run) ∧
     (∀ t, s.gl.flights = [] → s.gl.notices = [] → exec (.messageArrival t) s = .next s) ∧
     (∀ q st, s.gl.spawns.find? (fun p => decide (p.tid = q.tid)) = some q → s.stand? q.tid.stand = some st →
       ∃ t, exec (.spawnStart q.tid) s = .next t ∧ t.gl.spawns = s.gl.spawns.erase q ∧ KeptBytes s t ∧ ∃ u ∈ t.others,
         u.tid = q.tid ∧ u.place = some q.place ∧ u.run = .running ∧ u.pc = q.entry ∧ u.csa = q.csa ∧ u.ctx = st.packet.ctx ∧ u.status = Status.zero ∧
         u.thandlerEn = false ∧ u.vec = VecState.reset ∧ u.rxq = [] ∧ u.rndmode = st.packet.rnd ∧ u.fmta = st.packet.fmta ∧ u.fmtb = st.packet.fmtb ∧
         (∀ r, readF u r = 0) ∧ ∀ r, readX u r = if r = 10 then st.packet.args else if r = 11 then BitVec.ofNat 64 q.tid.index
           else if r = 12 then BitVec.ofNat 64 st.packet.standix else if r = 13 then BitVec.ofNat 64 q.count else 0) ∧
     (∀ c src dst s1, s.th.run = .transit c src (some dst) → coreClass dst.at_ ≠ .v →
       restoreClass { s with th := { s.th with place := some dst, run := .running } } = (.ok (), s1) → s1.th.run = .running → s1.th.tid = s.th.tid →
       s1.th.place = some dst → s1.th.supPending = none → (∀ st, s1.stand? s.th.tid.stand = some st → st.st ≠ .resuming) →
       ∃ t, exec (.migrationArrival s.th.tid) s = .next t ∧
         t.th = { s1.th with dauAhead := [], rxq := s1.th.rxq ++ s1.th.held, held := [], mixWin := s.dieCycle dst.at_.die / 65536
                             status := { s1.th.status with priv := s1.th.status.priv && coreClass dst.at_ == .c } } ∧ KeptBytes s1 t ∧
         (∀ l ∈ t.ms.l1d, l.core ≠ dst.at_) ∧ ∀ g ∈ t.ms.gath, g.core ≠ dst.at_))

/-- R152, R161, R329 to R331: the oldest thread of a partition's streamer queue that a place is free for is streamed to it; a thread gets its clusters
again when they are all reserved for it, and waits on before; the arbiter's requests that hold their clusters go on; a window of counts ends, and
names the class of more than half of its issues; a thread moves on it at its boundary, and not when it may not, a parked one too, but for the waits of
log 48. Where the spec leaves room, the reading is the model's: logs 45, 48, 50 and 66. -/
def Obligations.PlacementEvents : Prop :=
  ∀ (s : State),
    (∀ q dst c src, s.gl.streamQ.find? (fun r => decide (r.tid = s.th.tid)) = some q →
      s.gl.streamQ.find? (fun r => decide (r.part = q.part) && (queuedPlace s r).isSome) = some q → queuedPlace s q = some dst →
      s.th.run = .transit c src none → s.db.sessions = [] →
      let s1 : State := { s with gl := { s.gl with streamQ := s.gl.streamQ.erase q } }
      let head := (portable s.th c (coreClass src.at_) (coreClass dst.at_)).headD 0
      ∀ u, csaWrite s1 s.th [(0x300, leBytes 8 head.toNat)] = (.ok (), u) → ∃ t, exec (.streamerQueueServe s.th.tid) s = .next t ∧
        t.th = { s.th with run := .transit c src (some dst) } ∧ t.gl = s1.gl ∧ t.ms = u.ms) ∧
    (∀ g q, s.th.run = .parked .regrant → s.th.owed = some g → awaitsGrant s.th = true → leaseOf s s.th.tid ≠ none →
      leaseOf (reserveFree s (coreOf s.th).die (coreOf s.th).quad) s.th.tid = some q → (∀ st, s.stand? s.th.tid.stand = some st → st.st ≠ .resuming) →
      (q.reserved < g → ∃ t, exec (.leaseRegrant s.th.tid) s = .next t ∧ t.th = s.th ∧ t.ms = s.ms) ∧
      (g ≤ q.reserved → ∃ t, exec (.leaseRegrant s.th.tid) s = .next t ∧
        t.th = { s.th with owed := none, vec := { s.th.vec with grant := g }, run := .running } ∧ leaseOf t s.th.tid = none ∧ t.ms = s.ms)) ∧
    (∀ die quad, let s1 := reserveFree s die quad
      ∃ t, exec (.leaseParkedGrant die quad) s = .next t ∧ t.un = s1.un ∧ t.ms = s.ms ∧
        (s.th.run ≠ .parked .lease → t.th = s.th) ∧
        (∀ q ∈ s1.un.leaseQ, q.die = die → q.quad = quad → q.regrant = false → q.lmin ≤ q.reserved → q.tid = s.th.tid → s.th.run = .parked .lease →
          t.th = { s.th with run := .running })) ∧
    (let count := fun (c : CoreClass) => match c with | .c => s.th.mixC | .v => s.th.mixV | .t => s.th.mixT
     (∀ c, mixClass s.th = some c → s.th.status.nomig = false ∧ s.th.mixN < 2 * count c ∧ ∀ d, count d ≤ count c) ∧
     (mixClass s.th = none → s.th.status.nomig = true ∨ s.th.mixN = 0 ∨ ∀ c, 2 * count c ≤ s.th.mixN) ∧
     let w := s.dieCycle (coreOf s.th).die / 65536
     ∀ p, s.th.run ≠ .ended → s.th.place = some p →
       (w ≤ s.th.mixWin → exec (.mixWindowEnd s.th.tid) s = .next s) ∧
       (s.th.mixWin < w → ∃ t, exec (.mixWindowEnd s.th.tid) s = .next t ∧ t.ms = s.ms ∧
         t.th = { s.th with mixN := 0, mixC := 0, mixV := 0, mixT := 0, mixWin := w, req := { s.th.req with mixTo := (mixClass s.th).or s.th.req.mixTo } })) ∧
    (∀ c, s.th.req.mixTo = some c → s.th.run ≠ .ended →
      ((stoppable s.th = false ∨ standHalted s s.th.tid.stand = true ∨ earlierItem s 6 = true) → exec (.mixMigration s.th.tid) s = .next s) ∧
      (stoppable s.th = true → standHalted s s.th.tid.stand = false → earlierItem s 6 = false →
        let s1 : State := { withdraw s with th := { (withdraw s).th with req := { s.th.req with mixTo := none } } }
        ((s.th.status.nomig = true ∨ clsOf s.th = c) → exec (.mixMigration s.th.tid) s = .next s1) ∧
        (∀ s2, s.th.status.nomig = false → clsOf s.th ≠ c → startMigration s1 0 [c] = .done s2 → s2.th.run ≠ .ended → s2.th.tid = s.th.tid →
          exec (.mixMigration s.th.tid) s = .next s2)))

/-! Events of the collectives. -/

/-- R307 to R309: a contribution that arrives is counted once, makes the instance fail with reason 3 when it disagrees, and gives the result when it
is the last; a buddy copy goes to its buddy's package once that is known; a result is written to vd, and its VCOLL is over; a failure is 0x24; the
timer takes the silent ranks from their copies, which fails when they disagree, or names the lowest silent rank when one has no copy, and a
contribution that comes after its copy has stood in is discarded; T + 100 µs after its issue a member gives up. SUM adds the elements of every rank,
and BCAST gives the root's. Where the spec leaves room, the reading is the model's: logs 46 and 66. -/
def Obligations.CollectiveEvents : Prop :=
  ∀ (s : State) (key : CollKey) (i : Instance), s.coll? key = some i → i.waiting ≠ [] →
    (∀ c, c.pkg ≠ s.clk.pkg → i.fin = none → (∀ g ∈ i.got, g.rank ≠ c.rank) → ∃ t j, exec (.collectiveCombine key [c]) s = .next t ∧ Apart s t ∧
      t.coll? key = some j ∧ j.got = i.got ++ [c] ∧ j.count = i.count ∧ j.waiting = i.waiting ∧ (key.job, key.gid, c.rank, c.pkg) ∈ t.pod.known ∧
      let heard := fun (r : Nat) => (i.got ++ [c]).find? fun g => decide (g.rank = r)
      ((∃ g ∈ i.got, disagree g c = true) → j.fin = some (.failed 3 0xFFFF)) ∧
      ((∀ g ∈ i.got, disagree g c = false) → ((∃ r < i.count, heard r = none) → j.fin = none) ∧
        ((∀ r < i.count, heard r ≠ none) → j.fin = some (.result ((List.range i.count).filterMap heard))))) ∧
    (∀ c, c.pkg = s.clk.pkg → c ∉ i.sent → ∃ t, exec (.collectiveCombine key [c]) s = .next t ∧ Apart s t ∧ ∀ j, t.coll? key = some j → j.got = i.got) ∧
    (∀ rank, ∃ t j, exec (.buddyCopyDelivery ⟨key, none⟩ rank) s = .next t ∧ Apart s t ∧ t.coll? key = some j ∧ j.got = i.got ∧ j.fin = i.fin ∧
      ∀ c ∈ i.copies, (if c.rank = rank ∧ c.at_ = none then { c with at_ := packageOf s key c.buddy } else c) ∈ j.copies) ∧
    (∀ c, c.useBuddy = true → c.pkg ≠ s.clk.pkg → (∀ e ∈ i.copies, e.rank ≠ c.rank) → ∃ t j, exec (.buddyCopyDelivery ⟨key, some c⟩ c.rank) s = .next t ∧
      Apart s t ∧ t.coll? key = some j ∧ j.got = i.got ∧ j.fin = i.fin ∧
      let buddy := (c.rank + c.count / 2) % c.count
      ⟨c.rank, buddy, c, packageOf s key buddy⟩ ∈ j.copies) ∧
    (standHalted s s.th.tid.stand = false → ∀ vd (g : Fin 8) w, s.th.run = .parked (.collective key vd g) → i.waiting.find? (fun w => decide (w.1 = s.th.tid)) = some w →
      (∀ p, Plain s → i.fin = some (.result p) → (readV s.th vd).bytes.wf 0 = true → ∃ t, exec (.collectiveResult s.th.tid) s = .next t ∧ t.th.run = .running ∧
        t.th.pc = pcAfter 8 s ∧ KeptRegs s t [] [] [vd] [] ∧ t.ms = s.ms ∧ ∀ j, getElem t.th vd j =
          match (collResult i p w.2.1)[j]? with | some x => x % 2 ^ sewBits s.th | none => getElem s.th vd j) ∧
      (let gone := leaveColl s key s.th.tid
       let fault := fun (reason rank : Nat) => takeTrap gone { cause := 0x24, tval := BitVec.ofNat 64 (rank % 65536 * 2 ^ 16 + reason * 2 ^ 8 + g), vkind := 2 }
       let stays := fun (t : State) => t.th.run ≠ .ended ∧ t.th.tid = s.th.tid
       (∀ reason rank, i.fin = some (.failed reason rank) → stays (fault reason rank) → exec (.collectiveResult s.th.tid) s = .next (fault reason rank)) ∧
       let late := s.th.collIssued + 200000 * 2 ^ (s.th.vec.g.get g).tmo.toNat + 100000
       (s.clk.time < late → exec (.collectiveResultTimeout s.th.tid) s = .next s) ∧
       (late ≤ s.clk.time → stays (fault 2 0xFFFF) → exec (.collectiveResultTimeout s.th.tid) s = .next (fault 2 0xFFFF)))) ∧
    (i.fin = none → s.clk.time < i.startNs + i.tmoNs → exec (.collectiveTimerExpiry key) s = .next s) ∧
    (i.fin = none → i.startNs + i.tmoNs ≤ s.clk.time →
      ((∃ r ∈ i.silent, i.standIn r = none) → ∀ r ∈ i.silent, (∀ q ∈ i.silent, r ≤ q) → ∃ t, exec (.collectiveTimerExpiry key) s = .next t ∧
        Apart s t ∧ t.coll? key = some { i with fin := some (.failed 1 r) }) ∧
      ((∀ r ∈ i.silent, ∃ c, i.standIn r = some c ∧ c.rank = r) →
        let cs := i.silent.filterMap i.standIn
        let agree := ∀ g, (i.got ++ cs).head? = some g → ∀ c ∈ (i.got ++ cs).tail, disagree g c = false
        ∃ t fin, exec (.collectiveTimerExpiry key) s = .next t ∧ Apart s t ∧
          t.coll? key = some { i with got := i.got ++ cs, late := i.late ++ cs, fin := some fin } ∧
          (agree → ∃ p, fin = .result p ∧ p.length = i.count) ∧ (¬ agree → fin = .failed 3 0xFFFF))) ∧
    (∀ c ∈ i.late, c.pkg ≠ s.clk.pkg → i.fin ≠ none → (∃ g ∈ i.got, g.rank = c.rank) → ∃ t j, exec (.collectiveCombine key [c]) s = .next t ∧ Apart s t ∧
      t.coll? key = some j ∧ j.got = i.got ∧ j.fin = i.fin) ∧
    (∀ p c j e, p.head? = some c → (∀ q ∈ p, ∀ n, q.elems.getD n 0 < 2 ^ c.sew.bits) → e < c.vl →
      (c.op = .sum → c.f = false → (collResult i p j)[e]? = some ((p.map fun q => q.elems.getD e 0).sum % 2 ^ c.sew.bits)) ∧
      (c.op = .bcast → ∀ q, p[c.root]? = some q → (collResult i p j)[e]? = some (q.elems.getD e 0)))

/-! Events of the scheduler. -/

/-- R310 to R313, R316, R324: a TAIL that would take records back only sets ERR; a queue that is disabled, empty or without a key reads nothing; a
rejected record leaves its completion record, or sets DERR; an accepted batch becomes a job whose stands join the ready list, or wait for NOTBEFORE; a
poisoned record stops the queue. A queue with an eligible task rises a level for each 2^20 cycles without a dispatch, and one whose task waits for
NOTBEFORE does not; a packet whose time has come is at the head again. R139, R140, R314, R315, R320 to R322: Glade hands one packet to a dispatcher of
the packet's class with fewer than 64; with one queue in a half, that of its head, once its deficit covers the threads, with the CSA of its number. A
dispatcher places the packet that is next on a quad that takes all its threads, where they start in order, or sets it to wait. Where the spec leaves
room, the reading is the model's: logs 8, 36, 42, 43, 66 and 86. -/
def Obligations.QueueEvents : Prop :=
  (∀ (s : State) (q : Nat) (v : Word),
     let ctl := s.reg10 (.qctl q)
     let ptr := s.reg10 (.qptr q)
     let size := 2 ^ (field (s.reg10 (.qbase q)) 3 0 + 4)
     let head := field ptr 31 16
     (let behind := fun (n : Nat) => (n % size + size - head % size) % size
      let new := field v 15 0 % size
      (behind new < behind (field ptr 15 0) → ∃ t, exec (.tailWrite q v) s = .next t ∧ Apart s t ∧ t.reg10 (.qctl q) = ctl ||| 0x4000000000000000#64 ∧
        ∀ r, r ≠ .qctl q → t.reg10 r = s.reg10 r) ∧
      (behind (field ptr 15 0) ≤ behind new → ∃ t, exec (.tailWrite q v) s = .next t ∧ Apart s t ∧ field (t.reg10 (.qptr q)) 15 0 = new ∧
        field (t.reg10 (.qptr q)) 63 16 = field ptr 63 16 ∧ ∀ r, r ≠ .qptr q → t.reg10 r = s.reg10 r)) ∧
     ((defaultKey s (q / 16) = none ∨ ctl.getLsbD 63 = false ∨ head = field ptr 15 0) → exec (.launchRecordRead q) s = .next s) ∧
     (∀ key, defaultKey s (q / 16) = some key → ctl.getLsbD 63 = true → head ≠ field ptr 15 0 → readyCount (s.queue q).ready < 64 → s.ms.ecc = [] →
       let pa := field (s.reg10 (.qbase q)) 51 12 * 4096 + head * 256
       let ws := wordsOf 32 ((List.range 256).map fun k => viewByte s.ms none (some key) (pa + k))
       let s1 := s.setReg10 (.qptr q) (setFld ptr 31 16 ((head + 1) % size))
       let bad := fun (line : Nat) => isPoisoned s.ms none line
       (RasOff s → (bad (lineOf pa) = true ∨ bad (lineOf pa + 1) = true) → ∃ t, exec (.launchRecordRead q) s = .next t ∧ Apart s t ∧
         t.reg10 (.qctl q) = (ctl ||| 0x0400000000000000#64) &&& ~~~0x8000000000000000#64 ∧ t.gl = s.gl) ∧
       (bad (lineOf pa) = false → bad (lineOf pa + 1) = false →
         (∀ reason, recordReason s1 (q / 16) ws = some reason → exec (.launchRecordRead q) s = .next (gladeAct (.record q) (fun u =>
           let wrote := writeDone (u.setReg10 (.qptr q) (setFld ptr 31 16 ((head + 1) % size))) (field (ws.getD 10 0) 11 0) (ws.getD 9 0) 1 reason
           if wrote.1 then wrote.2 else wrote.2.setReg10 (.qctl q) (setFld (wrote.2.reg10 (.qctl q)) 59 59 1)) s)) ∧
         (recordReason s1 (q / 16) ws = none → field (ws.getD 0 0) 23 20 = 0 → Memory.wf s.ms = true → ∃ t j p, exec (.launchRecordRead q) s = .next t ∧ Apart s t ∧
           (size ≤ 65536 → field (t.reg10 (.qptr q)) 31 16 = (head + 1) % size) ∧ field (t.reg10 (.qptr q)) 15 0 = field ptr 15 0 ∧ t.gl.jobs = s.gl.jobs ++ [j] ∧
           j.id = s.gl.jobNext ∧ j.queue = q ∧ j.ctx = field (ws.getD 10 0) 11 0 ∧ j.done = ws.getD 9 0 ∧ j.csabase = ws.getD 8 0 ∧ j.failed = none ∧
           j.total = field (ws.getD 4 0) 31 0 ∧ p.entry = ws.getD 1 0 ∧ p.args = ws.getD 2 0 ∧ p.notbefore = (ws.getD 6 0).toNat ∧
           (p.notbefore ≤ s.clk.time → (t.queue q).ready = (s.queue q).ready ++ [.stands p j.total] ∧ (t.queue q).deferred = (s.queue q).deferred) ∧
           (s.clk.time < p.notbefore → (t.queue q).ready = (s.queue q).ready ∧ (t.queue q).deferred = (s.queue q).deferred ++ [.stands p j.total]) ∧
           p.cls.code = field (ws.getD 0 0) 51 50 ∧ p.threads = field (ws.getD 0 0) 49 43 ∧ p.lmin = field (ws.getD 0 0) 36 31 ∧
           p.lpref = field (ws.getD 0 0) 42 37 ∧ p.budget = field (ws.getD 5 0) 45 0 ∧ p.retries = field (ws.getD 0 0) 63 56 ∧ p.job = j.id))) ∧
     (let s1 := deferAll s
      let qs := s1.queue q
      (((eligible s1 qs).isSome = true ∧ qs.lift < field ctl 61 60 ∧ qs.since + (qs.lift + 1) * 2 ^ 20 ≤ s.clk.cycle) →
        ∃ t, exec (.priorityLift q) s = .next t ∧ Apart s t ∧ t.queue q = { qs with lift := qs.lift + 1 } ∧ ∀ r, r ≠ q → t.queue r = s1.queue r) ∧
      ((eligible s1 qs = none ∨ field ctl 61 60 ≤ qs.lift ∨ s.clk.cycle < qs.since + (qs.lift + 1) * 2 ^ 20) → exec (.priorityLift q) s = .next s1)) ∧
     (let qs := s.queue q
      (∀ p n, qs.ready = [.stands p n] → s.clk.time < p.notbefore → ∃ t, exec (.priorityLift q) s = .next t ∧ Apart s t ∧ (t.queue q).lift = qs.lift ∧
        (t.queue q).ready = [] ∧ (t.queue q).deferred = qs.deferred ++ [.stands p n]) ∧
      (∀ p n, qs.deferred = [.stands p n] →
        (s.clk.time < p.notbefore → exec (.notbeforeReached q) s = .next s) ∧
        (p.notbefore ≤ s.clk.time → ∃ t, exec (.notbeforeReached q) s = .next t ∧ Apart s t ∧ (t.queue q).ready = .stands p n :: qs.ready ∧ (t.queue q).deferred = [] ∧
          ∀ r, r ≠ q → t.queue r = s.queue r)))) ∧
  (∀ (s : State) (half die : Nat),
     (∃ t, exec (.dispatch half) s = .next t ∧ Apart s t ∧ (t.gl.placed = s.gl.placed ∨ ∃ e, t.gl.placed = s.gl.placed ++ [e] ∧ e.waiting = false ∧
       (s.gl.placed.filter fun p => decide (p.die = e.die)).length < 64 ∧ classOfDie e.die = e.packet.cls ∧ e.packet.prio < 4)) ∧
     (∀ q p n rest j d, s.gl.queues = [q] → q.queue < 256 → q.queue / 128 = half → q.deferred = [] → q.ready = .stands p n :: rest → p.notbefore ≤ s.clk.time →
       (s.clk.lock = true ∨ s.clk.hold = true) → s.job? p.job = some j → j.failed = none → j.gang = false → chooseDie s p = some d →
       p.threads ≤ q.deficit + field (s.reg10 (.qctl q.queue)) 47 32 → s.gl.turn = [] →
       let k := p.serial.getD j.nextSerial
       ∃ t e, exec (.dispatch half) s = .next t ∧ t.gl.placed = s.gl.placed ++ [⟨d, e, false⟩] ∧ e.serial = some k ∧
         e.csa = j.csabase + BitVec.ofNat 64 (k * j.slots * 0x101000) ∧ e.entry = p.entry ∧ e.args = p.args ∧ e.threads = p.threads ∧ e.standix = p.standix ∧
         e.prio = field (s.reg10 (.qctl q.queue)) 61 60 - q.lift ∧
         (t.queue q.queue).ready = (if 1 < n then .stands { p with standix := p.standix + 1 } (n - 1) :: rest else rest)) ∧
     (nextPlaced s die = none → exec (.dispatcherPlace die) s = .next s) ∧
     (∀ e, nextPlaced s die = some e → e.waiting = false →
       (chooseQuad s e.packet die = none → ∃ t, exec (.dispatcherPlace die) s = .next t ∧ Apart s t ∧ { e with waiting := true } ∈ t.gl.placed ∧
         t.gl.stands = s.gl.stands) ∧
       (∀ quad id, chooseQuad s e.packet die = some quad → freeStandId s = some id → ∃ t st, exec (.dispatcherPlace die) s = .next t ∧ KeptBytes s t ∧
         t.th = s.th ∧ t.gl.placed = s.gl.placed.erase e ∧ st ∈ t.gl.stands ∧ st.id = id ∧ st.packet = e.packet ∧ st.die = die ∧ st.quad = quad ∧ st.st = .live ∧ st.direct = false ∧
         st.started = e.packet.threads ∧ ∀ k < e.packet.threads, ∃ u ∈ t.others, u.tid = ⟨st.id, k⟩ ∧ u.run = .running ∧ u.pc = e.packet.entry ∧
           u.csa = e.packet.csa + BitVec.ofNat 64 (k * 0x101000) ∧ readX u 10 = e.packet.args ∧ readX u 11 = BitVec.ofNat 64 k ∧
           readX u 13 = BitVec.ofNat 64 e.packet.threads ∧ ∃ p, u.place = some p ∧ p.at_.die = die ∧ p.at_.quad = quad ∧ p ∈ openPlaces s p.at_ (e.packet.queue / 16))))

/-- R61, R84, R133, R144, R313, R318, R319: a job that is not done goes on; one that is leaves its completion record, and is gone, with the die-level
tiles of its context. A stand whose threads have ended, whose commands are complete and whose requests to other packages are answered publishes its
lines, and its task counts as finished; one that is not done stays. A copy node or a signal node that is performed is finished, and one whose memory
faults makes its job fail with status 5; one that waits for another package has no effect here yet. Where the spec leaves room, the reading is the
model's: logs 33, 34, 44, 60 and 66. -/
def Obligations.JobEvents : Prop :=
  ∀ (s : State) (q job stand : Nat),
    (∀ j, s.job? job = some j →
      (j.failed = none → j.finished < j.total → exec (.jobEnd job) s = .next s) ∧
      (∀ status reason, (j.failed = none ∧ j.total ≤ j.finished ∧ status = 0 ∧ reason = 0) ∨ (j.failed = some (status, reason) ∧ jobBusy s job = false) →
        let s1 := (writeDone (acts s (.done job)) j.ctx j.done status reason).2
        (gladeWaits s1 = false → ∃ t, exec (.jobEnd job) s = .next t ∧ t.th = s1.th ∧ (Memory.wf s1.ms = true → KeptBytes s1 t) ∧
          t.gl.jobs = (s1.gl.jobs.filter fun k => decide (k.id ≠ job)) ∧
          ((∀ k ∈ t.gl.jobs, k.ctx ≠ j.ctx) → ∀ k ∈ t.un.tiles, ∀ c d, k.key.space = .die c d → c ≠ j.ctx)) ∧
        (gladeWaits s1 = true → ∃ t, exec (.jobEnd job) s = .next t ∧ Apart s t ∧ t.gl.jobs = s.gl.jobs))) ∧
    (∀ st, s.stand? stand = some st →
      ((standThreads s stand ≠ [] ∨ (∃ c ∈ s.un.cmds, c.tid.stand = stand ∧ c.orphan = none) ∨ (∃ o ∈ s.pod.out, o.tid.stand = stand) ∨ st.bad ≠ none ∨ st.lack ≠ none ∨
          st.st = .escalated) → exec (.taskRetirement stand) s = .next s) ∧
      (∀ j, standThreads s stand = [] → (∀ p ∈ s.gl.spawns, p.tid.stand ≠ stand) → (∀ c ∈ s.un.cmds, c.tid.stand = stand → c.orphan ≠ none) → (∀ o ∈ s.pod.out, o.tid.stand ≠ stand) → st.bad = none →
        st.lack = none → st.st ≠ .escalated → s.job? st.packet.job = some j → j.graph = false → j.gangResume = false →
        (∀ e ∈ s.ms.wtq, e.prov ≠ some stand) → (∀ e ∈ s.ms.ecc, e.prov ≠ some stand) →
        ∃ t, exec (.taskRetirement stand) s = .next t ∧ t.th = s.th ∧ t.stand? stand = none ∧ (∀ k ∈ t.un.tiles, Space.ofStand k.key.space stand = false) ∧
          t.job? st.packet.job = some { j with finished := j.finished + 1 } ∧ (st.direct = true → Memory.wf s.ms = true → KeptBytes s t) ∧
          (st.direct = false → Memory.wf s.ms = true → ∀ p line key a b, s.provOf stand = some p → p.keys = [(line, key)] → p.bytes.rising = true →
            lineOf a = line → maskGet p.bytes a = some b → viewByte t.ms none (some key) a = b))) ∧
    (∀ node src dst n rest j, (s.queue q).ready = .copy job node src dst n :: rest → s.job? job = some j →
      (jobRuns s job = false → exec (.copyNode q) s = .next s) ∧
      (jobRuns s job = true →
        let did := copyBytes j.ctx src dst n ((acts s (.node job node)).setQueue { s.queue q with ready := rest, since := s.clk.cycle, lift := 0 })
        let done := if did.1 then finishNode did.2 job node none (startKnow s job node) else failGraph did.2 job none
        (gladeWaits done = false → (∃ t, exec (.copyNode q) s = .next t ∧ t.th = done.th ∧ t.ms = done.ms ∧ t.gl.jobs = done.gl.jobs ∧ t.gl.queues = done.gl.queues) ∧
          (did.1 = false → did.2.job? job = some j → ∃ r, done.job? job = some { j with failed := some (5, r) })) ∧
        (gladeWaits done = true → ∃ t, exec (.copyNode q) s = .next t ∧ Apart s t ∧ t.gl.jobs = s.gl.jobs ∧ t.gl.queues = s.gl.queues))) ∧
    (∀ node dst v rest j, (s.queue q).ready = .signal job node dst v :: rest → s.job? job = some j →
      (jobRuns s job = false → exec (.signalNode q) s = .next s) ∧
      (jobRuns s job = true →
        let did := gladeWrite ((acts s (.node job node)).setQueue { s.queue q with ready := rest, since := s.clk.cycle, lift := 0 }) j.ctx dst v .pod
        let done := if did.1 then finishNode did.2 job node none (startKnow s job node) else failGraph did.2 job none
        (gladeWaits done = false → (∃ t, exec (.signalNode q) s = .next t ∧ t.th = done.th ∧ t.ms = done.ms ∧ t.gl.jobs = done.gl.jobs ∧ t.gl.queues = done.gl.queues) ∧
          (did.1 = false → did.2.job? job = some j → ∃ r, done.job? job = some { j with failed := some (5, r) })) ∧
        (gladeWaits done = true → ∃ t, exec (.signalNode q) s = .next t ∧ Apart s t ∧ t.gl.jobs = s.gl.jobs ∧ t.gl.queues = s.gl.queues)))

/-- R148, R261, R323, R325, R326, R328, R332: a freed context's notice is told to the sender of a refused spawn, and lets the packets that wait on the
die be tried again; a stand that has run its BUDGET is asked to stop, and another is not; a preload takes the packet that waits, and a packet of one
thread held there starts on its core once a context is free; an owner is written for a quad that has one, and a core passes to it once the old owner
has left it, with its h registers and banks zero; a stand that lacks a feature is placed again, with its job's packets that dispatchers held, or its
job fails with status 3. Where the spec leaves room, the reading is the model's: logs 35, 66 and 86. -/
def Obligations.SchedulerEvents : Prop :=
  ∀ (s : State) (core : CoreId) (stand die quad : Nat) (v : Word),
    (s.gl.freed.contains core = false → exec (.contextFreeNotice core) s = .next s) ∧
    (core ∈ s.gl.freed → s.gl.stands = [] → s.gl.preloads = [] → s.gl.refused = [(core, s.th.tid)] → queuedFor s s.th < 16 → s.th.run = .running →
      ∃ t, exec (.contextFreeNotice core) s = .next t ∧ t.ms = s.ms ∧ t.th.x = s.th.x ∧
        t.th.rxq = s.th.rxq ++ [⟨BitVec.ofNat 64 (core.die % 32 * 2 ^ 17 + core.quad % 128 * 2 ^ 10 + core.core % 4 * 2 ^ 8), noSender, []⟩] ∧ t.gl.refused = [] ∧
        core ∉ t.gl.freed ∧ ∀ p ∈ s.gl.placed, (if p.die = core.die then { p with waiting := false } else p) ∈ t.gl.placed) ∧
    (∀ st, s.stand? stand = some st →
      ((st.st ≠ .live ∨ st.packet.budget = 0 ∨ st.used < st.packet.budget ∨ standThreads s stand = []) → exec (.budgetExpiry stand) s = .next s) ∧
      (st.st = .live → st.packet.budget ≠ 0 → st.packet.budget ≤ st.used → s.th.tid.stand = stand → s.th.run = .running → ∃ t, exec (.budgetExpiry stand) s = .next t ∧
        t.th = { s.th with req := { s.th.req with preempt := true } } ∧ t.stand? stand = some { st with st := .preempting 0x21 } ∧ t.ms = s.ms)) ∧
    (∀ e u id, nextPlaced s core.die = some e → s.threads.find? (fun t => decide (t.run ≠ .ended) && decide ((t.place.map (·.at_)) = some core)) = some u →
      (∀ p ∈ s.gl.preloads, p.core ≠ core) → freeStandId s = some id →
      let s1 := fetchAhead e.packet.ctx core e.packet.entry.toNat { s with gl := { s.gl with placed := s.gl.placed.erase e } }
      let waits := ((standThreads s u.tid.stand).filter fun w => onQuad w core.die core.quad).filterMap (·.place)
      (e.waiting = false ∨ waits.length < e.packet.threads → exec (.preload core) s = .next s) ∧
      (e.waiting = true → coreClass core = .t → serves s core (e.packet.queue / 16) = true → e.packet.exclude.contains core = false →
        e.packet.threads ≤ waits.length → engineRoom s false core = true → missingOf s e.packet = [] → e.packet.preload = none →
        exec (.preload core) s = .next { s1 with gl := { s1.gl with preloads := s1.gl.preloads ++ [⟨core, e.packet, id, none, waits⟩] } })) ∧
    (∀ e ∈ s.gl.preloads, e.core = core → (∀ p ∈ s.gl.preloads, p.core = core → p = e) → (∀ c ∈ s.un.cmds, c.tid.stand ≠ e.stand) → e.packet.threads = 1 →
      (s.job? e.packet.job).any (·.gang) = false →
      let places := quadPlaces { s with gl := { s.gl with preloads := s.gl.preloads.erase e } } e.packet (e.packet.queue / 16) core.die core.quad
      ((∀ p ∈ places, p.at_ ≠ core) → exec (.preload core) s = .next s) ∧
      (∀ p, places.find? (fun p => decide (p.at_ = core)) = some p → ∃ t u st, exec (.preload core) s = .next t ∧ KeptBytes s t ∧ t.th = s.th ∧
        t.gl.preloads = s.gl.preloads.erase e ∧ st ∈ t.gl.stands ∧ st.id = e.stand ∧ st.packet = e.packet ∧ u ∈ t.others ∧ u.tid = ⟨e.stand, 0⟩ ∧
        u.place = some p ∧ u.run = .running ∧ u.pc = e.packet.entry ∧ u.csa = e.packet.csa)) ∧
    ((classOfDie die = .v ∨ die ∉ computeDies s.clk.blend ∨ quadsOf (classOfDie die) ≤ quad) → exec (.qownWrite die quad v) s = .next s) ∧
    (classOfDie die ≠ .v → die ∈ computeDies s.clk.blend → quad < quadsOf (classOfDie die) → ∃ t, exec (.qownWrite die quad v) s = .next t ∧ Apart s t ∧
      t.reg10 (.qown die quad) = v &&& 0xF#64 ∧ ∀ r, r ≠ .qown die quad → t.reg10 r = s.reg10 r) ∧
    (let new := field (s.reg10 (.qown core.die core.quad)) 3 0
     ((coreClass core = .v ∨ ownerOf s core = new ∨ ownerHolds s core = true) → exec (.coreOwnerPass core) s = .next s) ∧
     (coreClass core ≠ .v → coreExists s.clk.blend core = true → ownerOf s core ≠ new → ownerHolds s core = false → ∃ t, exec (.coreOwnerPass core) s = .next t ∧
       Apart s t ∧ ownerOf t core = new ∧ (∀ n now, hValue t core n now = 0) ∧ (∀ b i j, (t.bank core b).get i j = ⟨0, false⟩) ∧
       ∀ c, c ≠ core → ownerOf t c = ownerOf s c ∧ ∀ n now, hValue t c n now = hValue s c n now)) ∧
    (∀ st j bit, s.stand? stand = some st → s.db.sessions = [] →
      (st.lack = none → exec (.missingFeatureReplace stand) s = .next s) ∧
      (st.lack = some (.feat bit) → s.job? st.packet.job = some j → j.missing = [] → j.failed = none → j.gangResume = false →
        let some_ := ∃ d ∈ computeDies s.clk.blend, s.hasFeat d bit = true
        ∃ t, exec (.missingFeatureReplace stand) s = .next t ∧ t.stand? stand = none ∧
          (some_ → t.job? st.packet.job = some { j with missing := [.feat bit] } ∧
            (t.queue st.packet.queue).ready.head? = some (.stands { st.packet with die := none } 1) ∧ ∀ p ∈ t.gl.placed, p.packet.job ≠ st.packet.job) ∧
          (¬some_ → t.job? st.packet.job = some { j with missing := [.feat bit], failed := some (3, 0x1C) })))

/-! Events of the supervisor. -/

/-- R339 to R346: a stand report that waits is written at WIDX of its ring, and raises 0x23; a thread that waits for the ring goes on; 0x23 is taken
by the thread that SVIDX.THR names, and not without a report; a posted store is accepted into its core's queue, or makes an entry that names it; an
entry that is due is taken; a core that fails leaves the pool, and a task on it is run again elsewhere, with one retry less. Where the spec leaves
room, the reading is the model's: logs 48, 61 and 66. -/
def Obligations.SupervisorEvents : Prop :=
  ∀ (s : State) (part : Nat) (core : CoreId),
    (s.gl.reports = [] → (∀ t ∈ s.threads, t.run ≠ .parked .ring) → exec (.supervisorRingResume part) s = .next s) ∧
    (∀ r key, s.gl.reports = [r] → r.part = part → r.words.length = 8 → (∀ t ∈ s.threads, t.run ≠ .parked .ring) → Memory.wf s.ms = true →
      (s.reg10 (.svring part)).getLsbD 63 = true → defaultKey s part = some key → s.gl.raised = [] →
      let idx := s.reg10 (.svidx part)
      let size := 2 ^ (field (s.reg10 (.svring part)) 2 0 + 6)
      let pa := field (s.reg10 (.svring part)) 51 12 * 4096 + field idx 9 0 * 64
      let words := (r.words.set 5 (BitVec.ofNat 64 s.clk.time)).set 7 (BitVec.ofNat 64 (r.before + 1))
      ((field idx 9 0 + 1) % size = field idx 19 10 % size → exec (.supervisorRingResume part) s = .next s) ∧
      ((field idx 9 0 + 1) % size ≠ field idx 19 10 % size → size ≤ 1024 → ∃ t, exec (.supervisorRingResume part) s = .next t ∧ t.th = s.th ∧ t.gl.reports = [] ∧
        t.gl.raised = [(part, field idx 9 0)] ∧ field (t.reg10 (.svidx part)) 9 0 = (field idx 9 0 + 1) % size ∧
        (∀ st, s.stand? st.id = some st → t.stand? st.id = some (if r.stand = some (st.id, st.born) then
          { st with reports := st.reports + 1, lastCause := field (r.words.getD 0 0) 7 0 } else st)) ∧
        ∀ a, viewByte t.ms none (some key) a = if pa ≤ a ∧ a < pa + 64 then ((words.getD ((a - pa) / 8) 0).extractLsb' (8 * ((a - pa) % 8)) 8) else viewByte s.ms none (some key) a)) ∧
    (∀ p, s.gl.reports = [] → s.others = [] → s.th.run = .parked .ring → s.partOf s.th.ctx = part → s.th.supPending = some p →
      (finishSup s p).th.run ≠ .ended → (finishSup s p).th.tid = s.th.tid → exec (.supervisorRingResume part) s = .next (finishSup s p)) ∧
    (threadOfWord s (field (s.reg10 (.svidx part)) 63 32) = none → exec (.supervisorInterrupt part) s = .next s) ∧
    (∀ n, threadOfWord s (field (s.reg10 (.svidx part)) 63 32) = some s.th → s.th.tid.word = field (s.reg10 (.svidx part)) 63 32 → s.partOf s.th.ctx = part →
      stoppable s.th = true → standHalted s s.th.tid.stand = false → earlierItem s 5 = false → clsOf s.th = .c → s.th.status.priv = false → s.th.status.hnd = false →
      let fault := takeTrap { s with gl := { s.gl with raised := unassoc s.gl.raised part } } { cause := 0x23, tval := BitVec.ofNat 64 n }
      (look s.gl.raised part = none → exec (.supervisorInterrupt part) s = .next s) ∧
      (look s.gl.raised part = some n → fault.th.run ≠ .ended → fault.th.tid = s.th.tid → exec (.supervisorInterrupt part) s = .next fault)) ∧
    (s.th.run ≠ .ended →
      ((∀ p ∈ s.ms.posted, p.tid ≠ s.th.tid) → exec (.postedStoreResolve s.th.tid) s = .next s) ∧
      (∀ p s1, s.ms.posted.find? (fun p => decide (p.tid = s.th.tid)) = some p → s1.th = s.th →
        let res := translateParts s (coreWalker p.ctx p.core p.tid) ⟨.store, p.priv, false⟩ (pagesOf p.va p.bytes.length) []
        (∀ x, res = .ok [.here x p.va p.bytes.length] s1 → x.mt = 0 → x.pa % 128 + p.bytes.length ≤ 128 → Memory.wf s1.ms = true →
          s1.provStand s.th.tid.stand = none → ∃ t, exec (.postedStoreResolve s.th.tid) s = .next t ∧ t.ms.posted = s1.ms.posted.erase p ∧ KeptBytes s1 t ∧
            ∀ a, wtByte t.ms (coreOf s.th) none a =
              if x.pa ≤ a ∧ a < x.pa + p.bytes.length then some (p.bytes.getD (a - x.pa) 0) else wtByte s1.ms (coreOf s.th) none a) ∧
        (∀ r, res = .trap r [] s1 → r.cause ≠ 0x10 → ∃ t f, exec (.postedStoreResolve s.th.tid) s = .next t ∧ t.ms.sfq = s1.ms.sfq ++ [f] ∧ f.tid = p.tid ∧
          f.pc = p.pc ∧ f.tval = r.tval ∧ f.fclass = r.fclass ∧ f.issue = p.issue ∧ ∀ q ∈ t.ms.posted, q.tid ≠ s.th.tid)) ∧
      (dueStoreFault s = none → exec (.impreciseStoreFault s.th.tid) s = .next s) ∧
      (∀ f, dueStoreFault s = some f → stoppable s.th = true → standHalted s s.th.tid.stand = false → earlierItem s 2 = false →
        (takeStoreFault s f).th.run ≠ .ended → (takeStoreFault s f).th.tid = s.th.tid →
        exec (.impreciseStoreFault s.th.tid) s = .next (takeStoreFault s f))) ∧
    ∀ i ∈ [Instr.coreHardwareError core, .watchdogExpiry core],
      (coreExists s.clk.blend core = false → exec i s = .next s) ∧
      (coreExists s.clk.blend core = true → s.un.out.contains core = false → s.gl.preloads = [] →
        ((∀ t ∈ s.threads, holdsCore t core = false) → ∃ t, exec i s = .next t ∧ Apart s t ∧ t.un = { s.un with out := s.un.out ++ [core] } ∧ t.gl = s.gl ∧
          ∃ r, t.pf.bootLog.head? = some r ∧ r.step = 0xF0 ∧ r.unit = .core core) ∧
        (∀ st, s.others = [] → holdsCore s.th core = true → s.stand? s.th.tid.stand = some st → st.direct = false → st.packet.retries ≠ 0 → s.db.sessions = [] →
          (∀ j, s.job? st.packet.job = some j → j.failed = none) →
          ∃ t, exec i s = .next t ∧ t.th.run = .ended ∧ t.stand? st.id = none ∧ core ∈ t.un.out ∧ (t.queue st.packet.queue).ready.head? =
            some (.stands { st.packet with retries := st.packet.retries - 1, exclude := [core], die := none } 1)))

/-- R342, R348 to R352, R354: a command of SVCMD that is not the busy one does nothing; one that names no stand, thread or job ends with STAT 3; each
other does what it says, and ends with STAT 0, or 2 where it is refused; resets leave nothing of what they reset, but for a job whose completion
record goes to another package, which waits for that. Where the spec leaves room, the reading is the model's: logs 40, 64 and 68. -/
def Obligations.SupervisorCommands : Prop :=
  ∀ (s : State) (part : Nat), part < 16 →
    let w := (look s.gl.svCmd part).getD 0
    let busy := fun (op : Nat) => look s.gl.svCmd part = some w ∧ field w 63 60 = op
    let stat := fun (t : State) => field (t.reg10 (.svcmd part)) 59 56
    let ends := fun (t : State) (n : Nat) => Apart s t ∧ stat t = n ∧ t.gl = { s.gl with svCmd := unassoc s.gl.svCmd part } ∧ t.un = s.un
    let named := (s.stand? (field w 31 16)).filter fun st => decide (st.part = part)
    (∀ p ∈ [ (Instr.threadReset part, 1), (.standReset part, 2), (.rerunStand part, 3), (.resumeStand part, 4), (.preemptStand part, 5), (.gangSwitch part, 6)
           , (.gangResume part, 7), (.queueReset part, 8), (.partitionReset part false, 9) ],
      (¬busy p.2 → exec p.1 s = .next s) ∧
      (busy p.2 → (2 ≤ p.2 → p.2 ≤ 5 → named = none) → (p.2 = 1 → s.getThread ⟨field w 31 16, field w 5 0⟩ = none) →
        (p.2 = 6 ∨ p.2 = 7 → jobsOf s part (field w 55 44) = []) → (p.2 = 8 → field w 43 36 / 16 ≠ part) → p.2 ≠ 9 → ∃ t, exec p.1 s = .next t ∧ ends t 3)) ∧
    (busy 1 → s.th.tid = ⟨field w 31 16, field w 5 0⟩ → s.th.run ≠ .ended → s.partOf s.th.ctx = part → s.db.sessions = [] → s.ms.posted = [] →
      ∃ t, exec (.threadReset part) s = .next t ∧
      t.th.run = .ended ∧ t.th.endKind = some .reset ∧ stat t = 0) ∧
    (∀ st, named = some st →
      (∀ j, busy 2 → s.db.sessions = [] → s.ms.posted = [] → s.job? st.packet.job = some j → j.failed = none → j.gangResume = false → ∃ t, exec (.standReset part) s = .next t ∧ stat t = 0 ∧
        t.stand? st.id = none ∧ (s.th.tid.stand = st.id → t.th.run = .ended) ∧
        t.job? st.packet.job = some { j with failed := some (2, st.bad.getD st.lastCause), finished := j.finished + 1 }) ∧
      ((st.st ≠ .escalated ∧ st.st ≠ .saved) → (busy 3 → ∃ t, exec (.rerunStand part) s = .next t ∧ ends t 2) ∧
        (busy 4 → ∃ t, exec (.resumeStand part) s = .next t ∧ ends t 2)) ∧
      ((st.st = .escalated ∨ st.st = .saved) →
        (busy 3 → st.direct = true → ∃ t, exec (.rerunStand part) s = .next t ∧ ends t 2) ∧
        (busy 3 → st.direct = false → s.db.sessions = [] → (∀ j, s.job? st.packet.job = some j → j.failed = none) → ∃ t, exec (.rerunStand part) s = .next t ∧ stat t = 0 ∧ t.stand? st.id = none ∧
          (s.th.tid.stand = st.id → t.th.run = .ended) ∧ (t.queue st.packet.queue).ready.head? = some (.stands { st.packet with die := none } 1)) ∧
        (busy 4 → (∀ t ∈ standThreads s st.id, t.run = .running ∧ t.place ≠ none ∧ awaitsGrant t = false) → (∀ j, s.job? st.packet.job = some j → j.gangResume = false) →
          ∃ t, exec (.resumeStand part) s = .next t ∧ Apart s t ∧ stat t = 0 ∧ t.stand? st.id = some { st with st := .live, used := 0 })) ∧
      (busy 5 → (st.st ≠ .live → ∃ t, exec (.preemptStand part) s = .next t ∧ ends t 0) ∧
        (st.st = .live → s.th.tid.stand = st.id → s.th.run = .running → ∃ t, exec (.preemptStand part) s = .next t ∧ stat t = 0 ∧ t.ms = s.ms ∧
          t.th = { s.th with req := { s.th.req with preempt := true } } ∧ t.stand? st.id = some { st with st := .preempting 0x22 }))) ∧
    (busy 6 → jobsOf s part (field w 55 44) ≠ [] → ∃ t, exec (.gangSwitch part) s = .next t ∧ Apart s t ∧ stat t = 0 ∧
      ∀ j ∈ s.gl.jobs, j.part = part → j.ctx = field w 55 44 → { j with gang := true, gangSaved := false, gangResume := false } ∈ t.gl.jobs) ∧
    (∀ j, s.job? j.id = some j →
      ((j.gang = false ∨ j.gangSaved = true ∨ sendsInFlight s j.id ≠ 0) → exec (.gangPreempt j.id) s = .next s) ∧
      (∀ st, j.gang = true → j.gangSaved = false → sendsInFlight s j.id = 0 → s.gl.stands = [st] → st.packet.job = j.id → st.st = .live → s.th.tid.stand = st.id →
        s.th.run = .running → ∃ t, exec (.gangPreempt j.id) s = .next t ∧ t.ms = s.ms ∧ t.th = { s.th with req := { s.th.req with preempt := true } } ∧
          t.gl.stands = [{ st with st := .preempting 0x22 }]) ∧
      (busy 7 → s.gl.jobs = [j] → j.part = part → j.ctx = field w 55 44 → (j.gang = true → j.gangSaved = false → exec (.gangResume part) s = .next s) ∧
        (j.gang = true → j.gangSaved = true → (∀ st ∈ s.gl.stands, st.packet.job = j.id → st.st ≠ .saved ∧ st.st ≠ .resuming) →
          ∃ t, exec (.gangResume part) s = .next t ∧ Apart s t ∧ stat t = 0 ∧ t.gl.jobs = [{ j with gang := false, gangSaved := false, gangResume := false }]))) ∧
    (busy 8 → let q := field w 43 36
      q / 16 = part → ∃ t, exec (.queueReset part) s = .next t ∧ stat t = 0 ∧ field (t.reg10 (.qptr q)) 31 16 = field (t.reg10 (.qptr q)) 15 0 ∧
        (t.reg10 (.qctl q)).getLsbD 63 = false ∧ (t.queue q).ready = [] ∧ (t.queue q).deferred = [] ∧ (∀ p ∈ t.gl.placed, p.packet.queue ≠ q) ∧
        ∀ j ∈ t.gl.jobs, j.queue = q → j.failed = some (4, 0)) ∧
    (let wiped := fun (t : State) => (∀ st ∈ t.gl.stands, st.part ≠ part) ∧ ∀ e ∈ t.db.caps, e.part ≠ part
     (busy 9 → ∃ t, exec (.partitionReset part false) s = .next t ∧ stat t = 0 ∧ wiped t) ∧ ∃ t, exec (.partitionReset part true) s = .next t ∧ wiped t) ∧
    (s.db.sessions = [] → ∀ i ∈ [Instr.packageReset, .overtempReset], ∃ t, exec i s = .next t ∧ t.th = Thread.reset ∧ t.others = [] ∧ t.gl = Glade.reset ∧
      t.regs10 = [] ∧ t.xl = { Xlate.reset with keyGen := s.xl.keyGen } ∧ t.un = { Units.reset with lacks := s.un.lacks } ∧ t.ms.mem = s.ms.mem ∧ t.ms.llc = [] ∧
      t.ms.l2d = [] ∧ t.ms.prov = [] ∧ t.ms.l1d = [] ∧ t.ms.wtq = [] ∧ t.clk.cycle = 0 ∧ t.clk.time = s.clk.time ∧ t.pf.bootLog = s.pf.bootLog ∧ t.pf.startCount = s.pf.startCount + 1)

/-! Events of debug. -/

/-- R357 to R361, R364, R367, R369: with no command at HEAD, one in progress or another operation there, an event does nothing; a command is answered
in its slot, with its RESULT and STAT, and HEAD moves on; one that the checks refuse has their STAT; each other does what it says for the thread that
it names, and a STOP is over when its thread is Stopped. A stop point at the pc leaves its thread Stopped; a sample is recorded once its period has
passed. Where the spec leaves room, the reading is the model's: logs 22, 33, 37, 38 and 66. -/
def Obligations.DebugCommands : Prop :=
  ∀ (s : State) (part : Nat),
    let events := [ (Instr.attach part, 1), (.detach part, 2), (.stop part, 3), (.cont part, 4), (.rdreg part, 5), (.wrreg part, 6), (.rdmem part, 7), (.wrmem part, 8)
                  , (.setsp part, 9), (.clrsp part, 10), (.trace part, 11), (.record part, 12), (.replay part, 13) ]
    (dbgNext s part = none → ∀ p ∈ events, exec p.1 s = .next s) ∧
    (∀ c, dbgNext s part = some c → c.part = part → (∀ b ∈ s.db.busy, b.part ≠ part) →
      (∀ p ∈ events, 1 ≤ c.op → c.op ≤ 13 → c.op ≠ p.2 → exec p.1 s = .next s) ∧
      (∀ stat result, Memory.wf s.ms = true → 1 ≤ c.slot → let base := dbgSlot s part 0
        let t := dbgDone s c stat result
        t.th = s.th ∧ t.others = s.others ∧ homeRead t (some c.key) (base + c.slot * 64 + 48) 8 = result.toNat ∧
        homeRead t (some c.key) (base + c.slot * 64) 8 = (setFld (c.word 0) 15 8 stat).toNat ∧
        homeRead t (some c.key) (base + 8) 8 = dbgIndex s part (c.slot + 1)) ∧
      (∀ stat, look s.gl.asks (.debug part) = none → dbgCheck s c = .error stat → ∀ p ∈ events, (c.op = p.2 ∨ c.op = 0 ∨ 13 < c.op) → exec p.1 s = .next (dbgEnd s c stat)) ∧
      (∀ e, dbgCheck s c = .ok (e, s.th) → s.th.run ≠ .ended →
        let sess := s.session s.th.tid
        let with_ := fun (u : State) (f : Session → Session) => { u with db := { u.db with sessions := u.db.sessions.map fun q => if q.tid = s.th.tid then f q else q } }
        let stays := fun (u : State) => u.th.tid = s.th.tid ∧ u.th.run ≠ .ended
        let d := fun (k : Nat) => c.word k
        (c.op = 1 → (sess ≠ none → exec (.attach part) s = .next (dbgEnd s c 2)) ∧ (sess = none → exec (.attach part) s =
          .next (dbgEnd { s with db := { s.db with sessions := s.db.sessions ++ [⟨s.th.tid, part, e.index, false, [], none, none, none, 0, false⟩] } } c 0))) ∧
        (c.op = 2 → exec (.detach part) s = .next (dbgEnd (endSession s s.th.tid 0) c 0)) ∧
        (c.op = 3 → (s.th.run = .stopped → exec (.stop part) s = .next (dbgEnd s c 0)) ∧
          (∀ cause src, s.th.run = .transit cause src none →
            exec (.stop part) s = .next (dbgEnd { s with th := { s.th with run := .stopped, req := { s.th.req with stop := false } } } c 0)) ∧
          (s.th.run ≠ .stopped → (∀ cause src, s.th.run ≠ .transit cause src none) → ∃ t, exec (.stop part) s = .next t ∧
            t.th = { s.th with req := { s.th.req with stop := true } } ∧ t.ms = s.ms ∧ t.db.busy = s.db.busy ++ [⟨part, s.th.tid, c.slot, false⟩])) ∧
        (c.op = 4 → (s.th.run ≠ .stopped → exec (.cont part) s = .next (dbgEnd s c 1)) ∧
          (s.th.run = .stopped → s.others = [] →
            let goesOn : Run := ((s.gl.streamQ.find? fun q => decide (q.tid = s.th.tid)).map fun q => Run.transit q.cause q.src none).getD .running
            exec (.cont part) s = .next (dbgEnd { s with th := { s.th with run := goesOn } } c 0))) ∧
        (c.op = 5 ∨ c.op = 6 → dbgSelect (d 3) (d 4) (clsOf s.th) = none → s.th.run = .stopped → (∀ q ∈ s.gl.streamQ, q.tid ≠ s.th.tid) → exec (.rdreg part) s = .next (if c.op = 5 then dbgEnd s c 4 else s) ∧
          exec (.wrreg part) s = .next (if c.op = 6 then dbgEnd s c 4 else s)) ∧
        (∀ r, dbgSelect (d 3) (d 4) (clsOf s.th) = some r →
          (c.op = 5 → s.th.run = .running → exec (.rdreg part) s = .next (dbgEnd s c 1)) ∧ (c.op = 6 → s.th.run = .running → exec (.wrreg part) s = .next (dbgEnd s c 1)) ∧
          (s.th.run = .stopped → (∀ q ∈ s.gl.streamQ, q.tid ≠ s.th.tid) →
            (∀ n, r = .x n → (c.op = 5 → exec (.rdreg part) s = .next (dbgDone s c 0 (if n = 0 then 0 else s.th.x.get ⟨n.toNat, n.isLt⟩))) ∧
              (c.op = 6 → n ≠ 0 → exec (.wrreg part) s = .next (dbgEnd { s with th := { s.th with x := s.th.x.set n.toNat (d 5) n.isLt, dauAhead := [] } } c 0))) ∧
            (r = .pc → (c.op = 5 → exec (.rdreg part) s = .next (dbgDone s c 0 s.th.pc)) ∧
              (c.op = 6 → (d 5).toNat % 4 = 0 → exec (.wrreg part) s = .next (dbgEnd { s with th := { s.th with pc := d 5, dauAhead := [] } } c 0)) ∧
              (c.op = 6 → (d 5).toNat % 4 ≠ 0 → exec (.wrreg part) s = .next (dbgEnd s c 4))))) ∧
        (d 4 ≠ 1 → d 4 ≠ 2 → d 4 ≠ 4 → d 4 ≠ 8 → (c.op = 7 → exec (.rdmem part) s = .next (dbgEnd s c 4)) ∧
          (c.op = 8 → exec (.wrmem part) s = .next (dbgEnd s c 4))) ∧
        (d 4 = 1 ∨ d 4 = 2 ∨ d 4 = 4 ∨ d 4 = 8 →
          (∀ s1, resolvePosted s = .done s1 → stays s1 →
            (∀ res u, c.op = 7 → dbgLoad (acts s1 (.debug part)) (d 3).toNat (d 4).toNat = (res, u) → stays u →
              (gladeWaits u = false → exec (.rdmem part) s = .next (acted (.debug part)
                (match res with | .ok v => dbgDone u c 0 (BitVec.ofNat 64 v) | .error cause => dbgDone u c 4 (BitVec.ofNat 64 cause)))) ∧
              (gladeWaits u = true → ∃ t, exec (.rdmem part) s = .next t ∧ Apart s1 t ∧ t.ms = s1.ms)) ∧
            (∀ res u, c.op = 8 → dbgStore (acts s1 (.debug part)) (d 3).toNat (leBytes (d 4).toNat (d 5).toNat) = (res, u) → stays u →
              (gladeWaits u = false → exec (.wrmem part) s = .next (acted (.debug part)
                (match res with | .ok _ => dbgEnd u c 0 | .error cause => dbgDone u c 4 (BitVec.ofNat 64 cause)))) ∧
              (gladeWaits u = true → ∃ t, exec (.wrmem part) s = .next t ∧ Apart s1 t ∧ t.ms = s1.ms))) ∧
          (∀ w s1, resolvePosted s = .park w s1 → stays s1 → ∀ p ∈ [(Instr.rdmem part, 7), (.wrmem part, 8)], c.op = p.2 →
            ∃ t, exec p.1 s = .next t ∧ Apart s1 t ∧ t.ms = s1.ms ∧ look t.gl.asks (.debug part) ≠ none)) ∧
        (let slot := field (d 4) 18 16
         (c.op = 9 → exec (.setsp part) s = .next (dbgEnd (with_ s fun q => { q with points := q.points.filter (fun x => decide (x.slot ≠ slot)) ++
           [⟨slot, d 3, field (d 4) 15 0, e.index, false⟩] }) c 0)) ∧
         (c.op = 10 → exec (.clrsp part) s = .next (dbgEnd (with_ s fun q => { q with points := q.points.filter fun x => decide (x.slot ≠ slot) }) c 0))) ∧
        (c.op = 11 → s.th.profctl.getLsbD 4 = true → e.rights.getLsbD 5 = false → exec (.trace part) s = .next (dbgEnd s c 2)) ∧
        (∀ u, dbgRing s c = (.ok (), u) →
          (c.op = 11 → s.th.profctl.getLsbD 4 = false → exec (.trace part) s = .next (dbgEnd (with_ u fun q => { q with
            trace := some ⟨(d 3).toNat, 2 ^ field (d 4) 3 0 * 128 - 1, c.tctx, 0, 0⟩, profile := e.rights.getLsbD 5
            sampleAt := s.dieCycle (coreOf s.th).die }) c 0)) ∧
          (c.op = 12 → exec (.record part) s = .next (dbgEnd (with_ u fun q => { q with
            record := some ⟨(d 3).toNat, 2 ^ field (d 4) 3 0 * 256 - 2, c.tctx, 0, 0⟩ }) c 0))) ∧
        (∀ bs u, c.op = 13 → readUnder s c.tctx 0 (d 3).toNat 8 = (.ok bs, u) → exec (.replay part) s = .next (dbgEnd (with_ u fun q => { q with
          replay := some ⟨(d 3).toNat, (d 4).toNat, c.tctx, 0, false, e.rights.getLsbD 7⟩ }) c 0)))) ∧
    (∀ c b, dbgNext s part = some c → s.db.busy.find? (fun b => decide (b.part = part)) = some b → b.tid = s.th.tid → s.th.run ≠ .ended →
      (∀ cause src, s.th.run ≠ .transit cause src none) →
      let done_ := dbgEnd { s with db := { s.db with busy := s.db.busy.erase b } } c 0
      (b.reached = false → s.th.run ≠ .stopped → exec (.stop part) s = .next s) ∧ (b.reached = true → exec (.stop part) s = .next done_) ∧
      (s.th.run = .stopped → s.session s.th.tid ≠ none → exec (.stop part) s = .next done_)) ∧
    (stoppable s.th = true → s.th.run = .running → standHalted s s.th.tid.stand = false →
      (stopPointAt s false = none → exec (.stopPointFire s.th.tid) s = .next s) ∧
      (stopPointAt s false ≠ none → ∃ t, exec (.stopPointFire s.th.tid) s = .next t ∧ t.th.run = .stopped ∧ t.th.pc = s.th.pc ∧ t.th.x = s.th.x ∧ t.ms = s.ms) ∧
      ∀ q p, s.session s.th.tid = some q → s.th.place = some p →
        let now := s.dieCycle p.at_.die
        let due := q.sampleAt + 2 ^ (field s.th.profctl 12 8 + 10)
        ((q.trace = none ∨ s.th.profctl.getLsbD 4 = false ∨ now < due) → exec (.samplePeriodExpiry s.th.tid) s = .next s) ∧
        (∀ buf u, q.trace = some buf → s.th.profctl.getLsbD 4 = true → due ≤ now → q.profile = true →
          traceOut s s.th.tid buf [5 * 2 ^ 56 + s.th.tid.word, s.th.pc.toNat, (classIdWord p).toNat, s.clk.time] = (true, u) →
          exec (.samplePeriodExpiry s.th.tid) s = .next (u.modSession s.th.tid fun e => { e with sampleAt := now })))

/-! Events of the platform. -/

/-- R136, R375 to R378, R381 to R388, and the register maps of R33, R53, R310, R328, R339 and R342: a host access is made under the partition's
default key, or is unsuccessful; links, ports and health registers change as told; a key request is taken in a secured session only; a boot step
leaves its record, once its firmware runs, and the time master's step locks; a die that stops its clock counts no cycles while the others do; a
register takes its fields. Where the spec leaves room, the reading is the model's: logs 10, 39, 40, 41 and 66. -/
def Obligations.PlatformEvents : Prop :=
  ∀ (s : State) (pa n part link port die cycles : Nat) (v : Word) (r : Reg10),
    (defaultKey s part = none → ∀ w, ∃ t, exec (.hostMemAccess pa n part w) s = .next t ∧ Apart s t ∧ t.pf.hostData = s.pf.hostData ++ [none]) ∧
    (∀ key, defaultKey s part = some key → part < 16 → inHbm s pa n = true → Memory.wf s.ms = true →
      (∀ x, ∃ t, exec (.hostMemAccess pa n part (some x)) s = .next t ∧ t.th = s.th ∧ t.pf.hostData = s.pf.hostData ++ [some 0] ∧ ∀ a,
        viewByte t.ms none (some key) a = if pa ≤ a ∧ a < pa + n then BitVec.ofNat 8 (x / 2 ^ (8 * (a - pa))) else viewByte s.ms none (some key) a) ∧
      (s.ms.ecc = [] → s.ms.poison = [] → ∃ t, exec (.hostMemAccess pa n part none) s = .next t ∧ Apart s t ∧
        t.pf.hostData = s.pf.hostData ++ [some (leNat ((List.range n).map fun k => viewByte s.ms none (some key) (pa + k)))])) ∧
    (∀ down, link < 4 → ∃ t, exec (.hostLinkDown link down) s = .next t ∧ Apart s t ∧ (link ∈ t.pf.linksDown ↔ down = true) ∧
      ∀ l, l ≠ link → (l ∈ t.pf.linksDown ↔ l ∈ s.pf.linksDown)) ∧
    (∀ slot, let ops := [SpdmOp.loadKey slot part, .unloadKey slot]
      ∀ op ∈ ops, exec (.spdmRequest false op) s = .next s ∧ ∃ t, exec (.spdmRequest true op) s = .next t ∧ Apart s t ∧ t.pf.keyReqs = s.pf.keyReqs ++ [op] ∧
        t.xl = s.xl) ∧
    (let w := s.reg10 (.hport port)
     ((48 ≤ port ∨ w.getLsbD 63 = false) → exec (.flitReplay port) s = .next s) ∧
     (port < 48 → w.getLsbD 63 = true → ∃ t, exec (.flitReplay port) s = .next t ∧ Apart s t ∧ field (t.reg10 (.hport port)) 47 32 = min 65535 (field w 47 32 + 1))) ∧
    (∀ lock hold master err, ∃ t, exec (.podTimeSourceChange lock hold master err) s = .next t ∧ Apart s t ∧ t.clk.time = s.clk.time ∧ t.clk.lock = lock ∧
      t.clk.hold = hold ∧ t.clk.master = decide (master = s.clk.pkg)) ∧
    (∀ step unit out code,
      ((s.pf.bootStopped = true ∨ (∃ e ∈ s.pf.bootLog, e.start = s.pf.startCount ∧ e.step ≠ 0xF0 ∧ step < e.step) ∨ bootUnitOk s step unit = false ∨
        (step ≠ 0x01 ∧ firmwareRuns s = false)) → exec (.bootStep step unit out code) s = .next s) ∧
      (s.pf.bootStopped = false → (∀ e ∈ s.pf.bootLog, e.start = s.pf.startCount → e.step = 0xF0 ∨ e.step ≤ step) → bootTries s step unit = [] →
        bootUnitOk s step unit = true → (step = 0x01 ∨ firmwareRuns s = true) → (step, unit) ∉ s.pf.retrying →
        ∃ t e, exec (.bootStep step unit out code) s = .next t ∧ Apart s t ∧ t.pf.bootLog = (e :: s.pf.bootLog).take 4096 ∧
          e.start = s.pf.startCount ∧ e.step = step ∧ e.unit = unit ∧ e.var = 0 ∧ e.out = (match out with | .passed => 0 | .failed => 1 | .skipped => 2) ∧
          e.time = (if s.clk.synced then BitVec.ofNat 64 s.clk.time else 0) ∧ (out = .passed → step = 0x50 → t.clk.lock = true) ∧
          (out = .failed ↔ (step, unit) ∈ t.pf.retrying))) ∧
    (∀ k, die ∈ computeDies s.clk.blend → classOfDie die = .v → link < 16 → k < 32 → s.un.removed.Nodup → ∃ t, exec (.capacityFailure (.cluster die link k)) s = .next t ∧
      Apart s t ∧ poolOf t die link = (if (die, link, k) ∈ s.un.removed then poolOf s die link else poolOf s die link - 1)) ∧
    (die ∈ dies s.clk.blend → link < 4 → ∃ t, exec (.capacityFailure (.link die link)) s = .next t ∧ Apart s t ∧ look t.pf.links (die, link) = some .down) ∧
    (die ∈ dies s.clk.blend → (let hour := s.clk.time / 3600000000000
        let last := (look s.pf.healthHour die).getD 0
        (hour ≤ last → exec (.healthUpdate die v) s = .next s) ∧
        (last < hour → ∃ t, exec (.healthUpdate die v) s = .next t ∧ Apart s t ∧ t.reg10 (.diehlth die) = v ∧ look t.pf.healthHour die = some hour)) ∧
      ((look s.clk.stopped die).getD 0 ≤ s.clk.cycle → s.gl.streamQ = [] → (∀ e ∈ s.ms.wtq, s.dieCycle e.core.die + cycles < e.cycle + 8192) →
        (∀ e ∈ s.db.sessions, e.revoked = false) → ∃ t, exec (.thermalThrottle die cycles) s = .next t ∧ t.ms = s.ms ∧ t.th.x = s.th.x ∧
        t.dieCycle die = s.dieCycle die ∧ ∀ d, d ≠ die → (look s.clk.stopped d).getD 0 ≤ s.clk.cycle → t.dieCycle d = s.dieCycle d + cycles)) ∧
    (regExists s r = false → exec (.registerWrite r v) s = .next s) ∧
    (part < 16 → regExists s r = true → ∀ e ∈ [ (Reg10.defkey part, v &&& 0x87FF#64), (.qbase link, BitVec.ofNat 64 (field v 51 12 * 2 ^ 12 + min 12 (field v 3 0)))
        , (.vquota die link part, BitVec.ofNat 64 (min 32 (field v 5 0))), (.svhnd part, v &&& ~~~2#64), (.pinq die part, BitVec.ofNat 64 (min 131072 (field v 17 0)))
        , (.rasbase, s.reg10 .rasbase), (.timestat, s.reg10 .timestat), (.diehlth die, s.reg10 (.diehlth die)), (.keyslot link, s.reg10 (.keyslot link)) ], r = e.1 →
      ∃ t, exec (.registerWrite r v) s = .next t ∧ Apart s t ∧ t.reg10 r = e.2 ∧ ∀ q, q ≠ r → t.reg10 q = s.reg10 q) ∧
    (part < 16 → let old := s.reg10 (.svcmd part)
      let op := field v 63 60
      (field old 59 56 = 1 → op ≠ 0 → exec (.registerWrite (.svcmd part) v) s = .next s) ∧
      (field old 59 56 ≠ 1 ∨ op = 0 → ∃ t, exec (.registerWrite (.svcmd part) v) s = .next t ∧ Apart s t ∧
        let new := t.reg10 (.svcmd part)
        field new 63 60 = op ∧ field new 55 44 = field v 55 44 ∧ field new 43 36 = field v 43 36 ∧ field new 31 16 = field v 31 16 ∧ field new 5 0 = field v 5 0 ∧
        (op = 0 → field new 59 56 = field old 59 56 ∧ t.gl = s.gl) ∧ (1 ≤ op → op ≤ 9 → field new 59 56 = 1 ∧ look t.gl.svCmd part = some new) ∧
        (10 ≤ op → field new 59 56 = 2)))

/-! The whole machine. -/

/-- R186, R187, R190, R193, R194: words written out bit by bit from their formats decode to the instructions that they encode; a 16-bit code, a 48-bit
code, an 80-bit code, a reserved major and a PFX with a must-be-zero bit set are refused by name. -/
def Obligations.DecodeWords : Prop :=
  (∀ p ∈ [ (0x002081B3, Instr.add 3 1 2), (0xFFF30293, .addi 5 6 0xFFF), (0x00208463, .beq 1 2 4), (0x01043383, .ld 7 8 16), (0x023110D3, .fadd .f64 .rne 1 2 3)
         , (0x3C53422F, .amoadd true .aq .pkg 4 5 6), (0x04000073, .tret), (0x047302FB, .padds .b 5 6 7), (0x00C372F3, .talloc 5 12 6)
         , (0x002180D7, .vadd false 1 2 (.vec 3)) ], decode (leBytes 4 p.1) = .ok p.2) ∧
  (∀ p ∈ [ (0x02000004007302BF, Instr.tload 5 4 6 7 2), (0x00000000000320BF, .liw 1 6) ], decode (leBytes 8 p.1) = .ok p.2) ∧
  ∀ p ∈ [(0x00000001, DecodeErr.length16), (0x0000001F, .length48), (0x0000007F, .length80), (0x0000006B, .major), (0x0010000B, .reserved)],
    decode (leBytes 4 p.1) = .error p.2

/-- R186 to R196: an instruction's word decodes to it, whatever follows it, and every string of bytes that decodes starts with the word of its
instruction, which is well-formed: no bit of a word is without meaning. -/
def Obligations.DecodeEncode : Prop :=
  (∀ (i : Instr) (c : Code) (rest : List Byte), i.wf = true → encode i = some c → decode (c.bytes ++ rest) = .ok i) ∧
  ∀ (bs : List Byte) (i : Instr), decode bs = .ok i → i.wf = true ∧ ∃ c, encode i = some c ∧ c.bytes = bs.take c.size

/-- R197, R199: a PFX with a successor latches its fields and changes nothing else; an orphan takes 0x04. R146, R186, R189, R197 to R199: the step of
a turn. An event is performed when its turn's time has passed; with no turn left, the current thread has the turn. A slot of a T-core issues only at
the cycles that are its number modulo 16, and a V-front once in a cycle. A thread that runs, in an issue turn, with nothing due at its boundary,
performs the instruction at its pc; bits that decode to none take 0x03 with the bits in TVAL; a prefix is performed with its successor in one turn.
The list of turns and what a step does with its head are the model's schedule (log 3), and the bits that TVAL shows for a refused successor are its
reading (log 25); so is the order of turns in one cycle (log 85). -/
def Obligations.StepRunsDecoded : Prop :=
  (∀ (s : State) (nf sat : Bool) (rm : Rm),
     (∀ i, s.th.succ = some i → exec (.pfx nf sat rm) s = .next { s with th := { s.th with pfx := some ⟨nf, sat, rm⟩ } }) ∧
     (s.th.succ = none → Traps (.pfx nf sat rm) s { cause := 0x04, tval := s.th.pc })) ∧
  (∀ (s : State) (cycles ns : Nat) (rest : List Turn),
     let s0 := passTime { s with turns := rest } none cycles ns
     (s.turns = [] → step s = step { s with turns := [⟨1, 1, .thread s.th.tid⟩] }) ∧
     (∀ e, s.turns = ⟨cycles, ns, .event e⟩ :: rest → step s = exec e s0) ∧
     (∀ tid s1 p, s.turns = ⟨cycles, ns, .thread tid⟩ :: rest → s0.switchTo tid = some s1 → s1.th.place = some p →
       (coreClass p.at_ = .t ∧ s1.dieCycle p.at_.die % 16 ≠ p.slot) ∨ (coreClass p.at_ ≠ .c ∧ ∃ k, look s1.un.turns p.at_ = some (k, s1.dieCycle p.at_.die)) →
       step s = .next s1) ∧
     ∀ tid s1, s.turns = ⟨cycles, ns, .thread tid⟩ :: rest → s0.switchTo tid = some s1 → s1.th.run = .running → issueTurn s1 = true →
       standHalted s1 s1.th.tid.stand = false → awaitsGrant s1.th = false → (∀ p ∈ s1.ms.posted, p.tid ≠ s1.th.tid) →
       let u1 := useTurn s1
       boundary u1 (nextWhole u1) (nextMicro u1) = none → ∀ bs s2, fetchInstr u1 u1.th.pc = .ok bs s2 →
         let s3 := s2.onTh fun t => { t with ibits := bitsOf bs }
         let turnOf := fun (o : Host.Outcome State Fault Refusal) => match o with | .next t => .next (rearmAfter s1.th.issues t) | e => e
         (∀ i, decode bs = .ok i → isPrefix i = false → step s = turnOf (exec i s3)) ∧
         (∀ e, decode bs = .error e → step s = turnOf (.next (takeTrap (countIssue s3) { cause := 0x03, tval := bitsOf bs }))) ∧
         ∀ nf sat rm succ s4, decode bs = .ok (.pfx nf sat rm) → fetchInstr s3 (s3.th.pc + 4) = .ok succ s4 →
           (successorOf succ = none → ∀ u, u = takeTrap (countIssue (s4.onTh fun t => { t with succ := none })) { cause := 0x04, tval := s4.th.pc } →
             u.th.succ = none → step s = turnOf (.next u)) ∧
           ∀ j, successorOf succ = some j →
             step s = turnOf (exec j (s4.onTh fun t => { t with succ := some j, pfx := some ⟨nf, sat, rm⟩, ibits := bitsOf succ })))

/-- R136, R140, R141, R354: the package right after its reset: nothing runs and nothing is queued, no key is loaded and no context is enabled, no TLB,
cache or queue holds anything, the registers of the current thread hold what a thread starts with, CYCLE is 0, and the forms that steps keep hold.
That TIME is 0 and that the registers of a package in which nothing runs read as a starting thread's are the model's choices (logs 2 and 7). -/
def Obligations.ResetState : Prop :=
  let s := State.reset
  s.th.run = .ended ∧ s.others = [] ∧ s.turns = [] ∧ (∀ r, r.toNat < 32 → s.rx r = 0) ∧ (∀ r, readF s.th r = 0) ∧ (∀ r, readV s.th r = VReg.zero) ∧
  s.th.status.word = 0 ∧ s.th.fflags = 0 ∧ s.th.vec.vl = 0 ∧ s.th.vec.grant = 0 ∧ s.clk.cycle = 0 ∧ (∀ d, s.dieCycle d = 0) ∧
  s.xl.keys = [] ∧ (∀ c, (s.ctxRec c).en = false) ∧ s.xl.tlb = [] ∧ s.xl.wcache = [] ∧ s.ms.l1d = [] ∧ s.ms.l1i = [] ∧ s.ms.l2 = [] ∧ s.ms.wtq = [] ∧
  s.ms.posted = [] ∧ s.ms.prov = [] ∧ s.ms.poison = [] ∧ s.un = Units.reset ∧ s.gl = Glade.reset ∧ s.regs10 = [] ∧ (∀ q, (s.reg10 (.qctl q)).getLsbD 63 = false) ∧
  Memory.wf s.ms = true ∧ ImagesOk s

/-- Every step keeps the canonical form of memory, in every state that has it: no address is listed twice, no listed byte is one that an unlisted
address reads as, and the LLC holds bytes of region 00 only (R72). The form is the model's, and so is what an unlisted byte reads as (log 5). -/
def Obligations.StepKeepsMemory : Prop :=
  ∀ s t, Memory.wf s.ms = true → step s = .next t → Memory.wf t.ms = true

/-- Every step keeps the canonical form of every vector register and tile of the package, and no shape comes to have more than 512 columns (R293). The
form is the model's. -/
def Obligations.StepKeepsImages : Prop :=
  ∀ s t, ImagesOk s → step s = .next t → ImagesOk t

/-! Rows of copies. -/

/-- R46, R105, R127, R129: the next row of a TLOAD, of a TSTORE or of a TCOPY.m whose memory lies in one page of this package: a TLOAD's row puts the
packed elements that memory holds into its tile's row and changes no other element and no byte; a TSTORE's and a TCOPY.m's row writes the bytes of its
source, read first, at the translated address and changes no other committed byte; PROG counts the row. A row that faults is not performed: its
command is held there with the fault, PROG, VAL, its tile and every other command keep their values, and a thread in a TLWAIT on its counter goes on;
a translation fault at the row's first page is cause 0x0F with the address, the class and the level. Where the spec leaves room, the reading is the
model's: logs 66 and 82. -/
def Obligations.CopyRows : Prop :=
  ∀ (s : State) (id : Nat) (c : Cmd) (w : CopyWin), s.cmd? id = some c → c.op.win = some w → c.held = none → c.orphan = none → c.ghosts = [] → c.prog < w.nr →
    0 < w.nc → (∀ p ∈ s.ms.posted, p.tid ≠ c.tid) → (∀ e ∈ s.ms.wtq, e.core ≠ c.core) → rowBlocked s c w = false →
    let rowAddr := fun (base : Nat) => (((base : Int) + (c.prog : Int) * w.stride) % 2 ^ 64).toNat
    let row := w.row0 + c.prog
    let counted := fun (t : State) => (∃ ks, { c with prog := c.prog + 1, pod := [], row := none, know := ks } ∈ t.un.cmds) ∧ ∀ d ∈ s.un.cmds, d.id ≠ id → d ∈ t.un.cmds
    let size := fun (k : Tile) => (w.nc * k.fmt.width + 7) / 8
    let whole := fun (s1 : State) => s1.un = s.un ∧ s1.ms.ecc = [] ∧ s1.ms.poison = [] ∧ Memory.wf s1.ms = true
    let put := fun (base : Nat) (bs : List Byte) (s' : State) => ∀ x s1, rowParts s' c .store (rowAddr base) bs.length = .ok [.here x (rowAddr base) bs.length] s1 →
      s1.un = s'.un → c.provStand s1 = none → Memory.wf s1.ms = true → ∃ t, exec (.copyRow id) s = .next t ∧ t.th = s1.th ∧ counted t ∧
        ∀ a, commByte t.ms x.key a = if x.pa ≤ a ∧ a < x.pa + bs.length then bs.getD (a - x.pa) 0 else commByte s1.ms x.key a
    (∀ key base k x s1, c.op = .tload key base w → s.tile? key = some k → k.bytes.wf 0 = true → Within w k → c.view s1 = none →
      rowParts s c .load (rowAddr base) (size k) = .ok [.here x (rowAddr base) (size k)] s1 → whole s1 → ∃ t k', exec (.copyRow id) s = .next t ∧
        t.th = s1.th ∧ KeptBytes s1 t ∧ counted t ∧ t.tile? key = some k' ∧ ∀ r j, r < k.rows → j < k.cols → k'.get r j =
          if r = row ∧ j < w.nc then keptElem k.fmt (packedElem k.fmt (fun n => viewByte s1.ms none x.key (x.pa + n)) j) else k.get r j) ∧
    (∀ key base k, c.op = .tstore key base w → c.row = none → s.tile? key = some k → k.bad = [] → w.nc ≤ k.cols → ∃ bs s',
      rowSource s c (tileRow s c key row w.nc) = .ok bs s' ∧ bs.length = size k ∧ (∀ j < w.nc, packedElem k.fmt (fun n => bs.getD n 0) j = keptElem k.fmt (k.get row j)) ∧
        put base bs s') ∧
    (∀ src dst x s1, c.op = .tcopyM src dst w → c.row = none → c.view s1 = none → rowParts s c .load (rowAddr src) w.nc = .ok [.here x (rowAddr src) w.nc] s1 →
      whole s1 → ∃ s', rowSource s c (memRow s c (rowAddr src) w.nc) = .ok ((List.range w.nc).map fun n => viewByte s1.ms none x.key (x.pa + n)) s' ∧
        put dst ((List.range w.nc).map fun n => viewByte s1.ms none x.key (x.pa + n)) s') ∧
    (∀ h s1, performRow s c w = .fault h s1 → c.seq ≠ 0 → s1.un.cmds = s.un.cmds → s1.getThread c.tid ≠ none → ∃ t, exec (.copyRow id) s = .next t ∧
      { c with held := some h, pod := [], row := none } ∈ t.un.cmds ∧ (∀ d ∈ s.un.cmds, d.id ≠ id → d ∈ t.un.cmds) ∧ t.ms = s1.ms ∧
      t.un.timelines = s1.un.timelines ∧ t.un.tiles = s1.un.tiles ∧ ∀ v, WaitsIn s1 c.tid (.timeline c.key v) → t.th = { s1.th with run := .running }) ∧
    (∀ key base k cl l s1, c.op = .tload key base w → s.tile? key = some k → bitsAt (rowAddr base) 56 8 = 0 →
      translateOn s c.core.die c.tid (some id) (coreWalker c.ctx c.core c.tid) ⟨.load, c.priv, true⟩ (rowAddr base) = some (.error (.cls cl l), s1) →
      performRow s c w = .fault ⟨0x0F, BitVec.ofNat 64 (rowAddr base), cl, l, false, [], false⟩ s1)
end

