-- ==== Sys2Proof/Laws/Cells.lean ====
section
/-! SUPPORT. Sparse bytes: reading after writing, and the canonical form that every write keeps. -/

namespace Sys2Proof.Machine

/-- The least address that may be listed after a bound. -/
def aboveBound (lo : Option Nat) (a : Nat) : Prop := ∀ l, lo = some l → l < a

/-- Every listed cell of canonical bytes lies above their bound. -/
theorem cellsAbove_bound {d : Byte} {lo : Option Nat} {k : Nat} {b : Byte} {m : Cells} (h : cellsAbove d lo ((k, b) :: m) = true) :
    aboveBound lo k ∧ b ≠ d ∧ cellsAbove d (some k) m = true := by
  simp only [cellsAbove, Bool.and_eq_true, decide_eq_true_eq] at h
  refine ⟨?_, h.1.2, h.2⟩
  intro l hl
  subst hl
  simpa using h.1.1

/-- A canonical list from its head and its tail. -/
theorem cellsAbove_cons {d : Byte} {lo : Option Nat} {k : Nat} {b : Byte} {m : Cells} (h1 : aboveBound lo k) (h2 : b ≠ d)
    (h3 : cellsAbove d (some k) m = true) : cellsAbove d lo ((k, b) :: m) = true := by
  simp only [cellsAbove, Bool.and_eq_true, decide_eq_true_eq]
  refine ⟨⟨?_, h2⟩, h3⟩
  cases lo with
  | none => rfl
  | some l => simpa using h1 l rfl

/-- A lower bound serves as well. -/
theorem cellsAbove_weaken {d : Byte} {k : Nat} {m : Cells} (lo : Option Nat) (h : cellsAbove d (some k) m = true) (hk : aboveBound lo (k + 1)) :
    cellsAbove d lo m = true := by
  cases m with
  | nil => rfl
  | cons c rest =>
    obtain ⟨h1, h2, h3⟩ := cellsAbove_bound h
    exact cellsAbove_cons (fun l hl => by have := hk l hl; have := h1 k rfl; omega) h2 h3

/-- A written byte keeps the canonical form. -/
theorem cellPut_above {d : Byte} {a : Nat} {b : Byte} : ∀ {m : Cells} {lo : Option Nat}, cellsAbove d lo m = true → aboveBound lo a →
    cellsAbove d lo (cellPut d m a b) = true := by
  intro m
  induction m with
  | nil =>
    intro lo _ ha
    by_cases hb : b = d
    · simp [cellPut, hb, cellsAbove]
    · simp only [cellPut, if_neg hb]
      exact cellsAbove_cons ha hb rfl
  | cons c rest ih =>
    intro lo h ha
    obtain ⟨h1, h2, h3⟩ := cellsAbove_bound h
    simp only [cellPut]
    split
    · split
      · exact h
      · exact cellsAbove_cons ha ‹_› (cellsAbove_cons (fun l hl => by cases hl; assumption) h2 h3)
    · split
      · split
        · exact cellsAbove_weaken lo h3 fun l hl => by have := h1 l hl; omega
        · subst_vars
          exact cellsAbove_cons h1 ‹_› h3
      · exact cellsAbove_cons h1 h2 (ih h3 fun l hl => by cases hl; omega)

/-- A byte put keeps the canonical form. -/
theorem cellPut_wf {d : Byte} {m : Cells} {a : Nat} {b : Byte} (h : m.wf d = true) : (cellPut d m a b).wf d = true :=
  cellPut_above h fun _ hl => by cases hl

/-- Bytes put keep the canonical form. -/
theorem cellPutList_wf {d : Byte} : ∀ {bs : List Byte} {m : Cells} {a : Nat}, m.wf d = true → (cellPutList d m a bs).wf d = true
  | [], _, _, h => h
  | b :: _, m, a, h => cellPutList_wf (m := cellPut d m a b) (a := a + 1) (cellPut_wf h)

/-- A number written keeps the canonical form. -/
theorem cellWrite_wf {m : Cells} {a n v : Nat} (h : m.wf 0 = true) : (cellWrite m a n v).wf 0 = true := cellPutList_wf h

/-- Nothing lies below the bound of canonical bytes. -/
theorem cellGet_below {d : Byte} {a : Nat} : ∀ {m : Cells} {k : Nat}, cellsAbove d (some k) m = true → a ≤ k → cellGet d m a = d := by
  intro m
  induction m with
  | nil => intros; rfl
  | cons c rest ih =>
    intro k h ha
    obtain ⟨h1, _, h3⟩ := cellsAbove_bound h
    have := h1 k rfl
    rw [cellGet, if_neg (by omega)]
    exact ih h3 (by omega)

/-- The byte read back after a write. -/
theorem cellGet_put_same {d : Byte} {a : Nat} {b : Byte} : ∀ {m : Cells} {lo : Option Nat}, cellsAbove d lo m = true → cellGet d (cellPut d m a b) a = b := by
  intro m
  induction m with
  | nil =>
    intro lo _
    by_cases hb : b = d <;> simp [cellPut, hb, cellGet]
  | cons c rest ih =>
    intro lo h
    obtain ⟨_, _, h3⟩ := cellsAbove_bound h
    simp only [cellPut]
    split
    · split
      · rename_i h1 h2
        rw [cellGet, if_neg (by omega), cellGet_below h3 (by omega), h2]
      · simp [cellGet]
    · split
      · split
        · rename_i h1 h2 h4
          rw [h2, cellGet_below h3 (Nat.le_refl _), h4]
        · simp [cellGet]
      · rw [cellGet, if_neg (by omega)]
        exact ih h3

/-- The other bytes after a write. -/
theorem cellGet_put_other {d : Byte} {a a' : Nat} {b : Byte} (hne : a' ≠ a) : ∀ {m : Cells}, cellGet d (cellPut d m a b) a' = cellGet d m a' := by
  intro m
  induction m with
  | nil => by_cases hb : b = d <;> simp [cellPut, hb, cellGet, hne.symm]
  | cons c rest ih =>
    simp only [cellPut]
    split
    · split
      · rfl
      · simp [cellGet, hne.symm]
    · split
      · rename_i h1 h2
        split <;> simp [cellGet, hne.symm, ← h2]
      · simp only [cellGet, ih]

/-- The byte at an address after a write to canonical bytes. -/
theorem cellGet_put {d : Byte} {m : Cells} {a a' : Nat} {b : Byte} (h : m.wf d = true) :
    cellGet d (cellPut d m a b) a' = if a' = a then b else cellGet d m a' := by
  split
  · rename_i h1
    rw [h1]
    exact cellGet_put_same h
  · exact cellGet_put_other ‹_›

/-- Canonical bytes that read the same are the same list: it has one form. -/
theorem cells_ext {d : Byte} : ∀ {m n : Cells} {lo lo' : Option Nat}, cellsAbove d lo m = true → cellsAbove d lo' n = true →
    (∀ a, cellGet d m a = cellGet d n a) → m = n := by
  intro m
  induction m with
  | nil =>
    intro n lo lo' _ hn h
    cases n with
    | nil => rfl
    | cons c rest =>
      obtain ⟨_, h2, _⟩ := cellsAbove_bound hn
      have := h c.1
      simp [cellGet] at this
      exact absurd this.symm h2
  | cons c rest ih =>
    intro n lo lo' hm hn h
    obtain ⟨_, h2, h3⟩ := cellsAbove_bound hm
    cases n with
    | nil =>
      have := h c.1
      simp [cellGet] at this
      exact absurd this h2
    | cons e rest' =>
      obtain ⟨_, g2, g3⟩ := cellsAbove_bound hn
      have hk : c.1 = e.1 := by
        rcases Nat.lt_trichotomy c.1 e.1 with hlt | heq | hgt
        · exfalso
          have := h c.1
          rw [cellGet, if_pos rfl, cellGet, if_neg (by omega), cellGet_below g3 (by omega)] at this
          exact h2 this
        · exact heq
        · exfalso
          have := h e.1
          rw [cellGet, if_neg (by omega), cellGet_below h3 (by omega), cellGet, if_pos rfl] at this
          exact g2 this.symm
      have hb : c.2 = e.2 := by
        have := h c.1
        rw [cellGet, if_pos rfl, cellGet, if_pos hk.symm] at this
        exact this
      have hr : rest = rest' := by
        refine ih h3 g3 fun a => ?_
        by_cases ha : a ≤ c.1
        · rw [cellGet_below h3 ha, cellGet_below g3 (by omega)]
        · have := h a
          rw [cellGet, if_neg (by omega), cellGet, if_neg (by omega)] at this
          exact this
      exact List.cons_eq_cons.mpr ⟨Prod.ext hk hb, hr⟩

/-! Masked bytes. -/

/-- A masked byte read back, and the others. -/
theorem maskGet_put {m : Cells} {a a' : Nat} {b : Byte} : maskGet (maskPut m a b) a' = if a' = a then some b else maskGet m a' := by
  induction m with
  | nil =>
    by_cases h : a' = a
    · simp [maskPut, maskGet, h]
    · simp [maskPut, maskGet, h, Ne.symm h]
  | cons c rest ih =>
    simp only [maskPut]
    split
    · by_cases h : a' = a
      · simp [maskGet, h]
      · simp [maskGet, h, Ne.symm h]
    · split
      · rename_i h1 h2
        by_cases h : a' = a
        · simp [maskGet, h]
        · have : c.1 ≠ a' := by omega
          simp [maskGet, h, Ne.symm h, this]
      · rename_i h1 h2
        simp only [maskGet, ih]
        by_cases h : a' = a
        · have : c.1 ≠ a := by omega
          simp [h, this]
        · simp [h]

/-! Every list of a canonical memory. -/

/-- The byte of a list of little-endian bytes. -/
theorem leBytes_length (n w : Nat) : (leBytes n w).length = n := by
  induction n generalizing w with
  | zero => rfl
  | succ n ih => simp [leBytes, ih]

/-- A number and its little-endian bytes. -/
theorem leNat_leBytes (n w : Nat) : leNat (leBytes n w) = w % 2 ^ (8 * n) := by
  induction n generalizing w with
  | zero => simp [leBytes, leNat, Nat.mod_one]
  | succ n ih =>
    simp only [leBytes, leNat, ih, BitVec.toNat_ofNat]
    have h : (2 : Nat) ^ (8 * (n + 1)) = 256 * 2 ^ (8 * n) := by
      rw [show 8 * (n + 1) = 8 + 8 * n by omega, Nat.pow_add]
    rw [h, Nat.mod_mul]

/-- A number read back from where it was written. -/
theorem cellGetList_putList {d : Byte} : ∀ {bs : List Byte} {m : Cells} {a : Nat}, m.wf d = true → cellGetList d (cellPutList d m a bs) a bs.length = bs := by
  have below : ∀ {bs : List Byte} {m : Cells} {a a' : Nat}, a' < a → cellGet d (cellPutList d m a bs) a' = cellGet d m a' := by
    intro bs
    induction bs with
    | nil => intros; rfl
    | cons b bs ih =>
      intro m a a' h
      rw [cellPutList, ih (by omega), cellGet_put_other (by omega)]
  intro bs
  induction bs with
  | nil => intros; rfl
  | cons b bs ih =>
    intro m a h
    simp only [cellPutList, List.length_cons, cellGetList]
    rw [below (by omega), cellGet_put_same h, ih (cellPut_wf h)]

/-- A number read back from the cells that it was written to, modulo its width. -/
theorem cellRead_write {m : Cells} {a n v : Nat} (h : m.wf 0 = true) : cellRead (cellWrite m a n v) a n = v % 2 ^ (8 * n) := by
  have := cellGetList_putList (bs := leBytes n v) (a := a) h
  rw [leBytes_length] at this
  rw [cellRead, cellWrite, this, leNat_leBytes]

/-- Bytes apart from a write read as before. -/
theorem cellGet_putList_other {d : Byte} : ∀ {bs : List Byte} {m : Cells} {a a' : Nat}, a' < a ∨ a + bs.length ≤ a' →
    cellGet d (cellPutList d m a bs) a' = cellGet d m a'
  | [], _, _, _, _ => rfl
  | b :: bs, m, a, a', h => by
    simp only [List.length_cons] at h
    rw [cellPutList, cellGet_putList_other (by omega), cellGet_put_other (by omega)]

/-- A number apart from a write reads as before. -/
theorem cellRead_write_other {m : Cells} {a n v a' n' : Nat} (h : a' + n' ≤ a ∨ a + n ≤ a') : cellRead (cellWrite m a n v) a' n' = cellRead m a' n' := by
  have : ∀ {n' a' : Nat}, a' + n' ≤ a ∨ a + n ≤ a' → cellGetList 0 (cellWrite m a n v) a' n' = cellGetList 0 m a' n' := by
    intro n'
    induction n' with
    | zero => intros; rfl
    | succ k ih =>
      intro a' h
      simp only [cellGetList]
      rw [ih (by omega), cellWrite, cellGet_putList_other (by rw [leBytes_length]; omega)]
  rw [cellRead, this h, cellRead]

end Sys2Proof.Machine
end

