-- ==== Sys2Proof/Laws/Dispatch.lean ====
section
/-! SUPPORT. The dispatch of each instruction to its meaning. -/

namespace Sys2Proof.Machine

theorem exec_lui {rd imm} (s : State) : exec (.lui rd imm) s = execLui rd imm s := rfl
theorem exec_auipc {rd imm} (s : State) : exec (.auipc rd imm) s = execAuipc rd imm s := rfl
theorem exec_jal {rd off} (s : State) : exec (.jal rd off) s = execJal rd off s := rfl
theorem exec_jalr {rd rs1 imm} (s : State) : exec (.jalr rd rs1 imm) s = execJalr rd rs1 imm s := rfl
theorem exec_beq {rs1 rs2 off} (s : State) : exec (.beq rs1 rs2 off) s = execBeq rs1 rs2 off s := rfl
theorem exec_bne {rs1 rs2 off} (s : State) : exec (.bne rs1 rs2 off) s = execBne rs1 rs2 off s := rfl
theorem exec_blt {rs1 rs2 off} (s : State) : exec (.blt rs1 rs2 off) s = execBlt rs1 rs2 off s := rfl
theorem exec_bge {rs1 rs2 off} (s : State) : exec (.bge rs1 rs2 off) s = execBge rs1 rs2 off s := rfl
theorem exec_bltu {rs1 rs2 off} (s : State) : exec (.bltu rs1 rs2 off) s = execBltu rs1 rs2 off s := rfl
theorem exec_bgeu {rs1 rs2 off} (s : State) : exec (.bgeu rs1 rs2 off) s = execBgeu rs1 rs2 off s := rfl
theorem exec_lb {rd rs1 imm} (s : State) : exec (.lb rd rs1 imm) s = execLb rd rs1 imm s := rfl
theorem exec_lh {rd rs1 imm} (s : State) : exec (.lh rd rs1 imm) s = execLh rd rs1 imm s := rfl
theorem exec_lw {rd rs1 imm} (s : State) : exec (.lw rd rs1 imm) s = execLw rd rs1 imm s := rfl
theorem exec_ld {rd rs1 imm} (s : State) : exec (.ld rd rs1 imm) s = execLd rd rs1 imm s := rfl
theorem exec_lbu {rd rs1 imm} (s : State) : exec (.lbu rd rs1 imm) s = execLbu rd rs1 imm s := rfl
theorem exec_lhu {rd rs1 imm} (s : State) : exec (.lhu rd rs1 imm) s = execLhu rd rs1 imm s := rfl
theorem exec_lwu {rd rs1 imm} (s : State) : exec (.lwu rd rs1 imm) s = execLwu rd rs1 imm s := rfl
theorem exec_sb {rs2 rs1 imm} (s : State) : exec (.sb rs2 rs1 imm) s = execSb rs2 rs1 imm s := rfl
theorem exec_sh {rs2 rs1 imm} (s : State) : exec (.sh rs2 rs1 imm) s = execSh rs2 rs1 imm s := rfl
theorem exec_sw {rs2 rs1 imm} (s : State) : exec (.sw rs2 rs1 imm) s = execSw rs2 rs1 imm s := rfl
theorem exec_sd {rs2 rs1 imm} (s : State) : exec (.sd rs2 rs1 imm) s = execSd rs2 rs1 imm s := rfl
theorem exec_addi {rd rs1 imm} (s : State) : exec (.addi rd rs1 imm) s = execAddi rd rs1 imm s := rfl
theorem exec_slti {rd rs1 imm} (s : State) : exec (.slti rd rs1 imm) s = execSlti rd rs1 imm s := rfl
theorem exec_sltiu {rd rs1 imm} (s : State) : exec (.sltiu rd rs1 imm) s = execSltiu rd rs1 imm s := rfl
theorem exec_xori {rd rs1 imm} (s : State) : exec (.xori rd rs1 imm) s = execXori rd rs1 imm s := rfl
theorem exec_ori {rd rs1 imm} (s : State) : exec (.ori rd rs1 imm) s = execOri rd rs1 imm s := rfl
theorem exec_andi {rd rs1 imm} (s : State) : exec (.andi rd rs1 imm) s = execAndi rd rs1 imm s := rfl
theorem exec_slli {rd rs1 sh} (s : State) : exec (.slli rd rs1 sh) s = execSlli rd rs1 sh s := rfl
theorem exec_srli {rd rs1 sh} (s : State) : exec (.srli rd rs1 sh) s = execSrli rd rs1 sh s := rfl
theorem exec_srai {rd rs1 sh} (s : State) : exec (.srai rd rs1 sh) s = execSrai rd rs1 sh s := rfl
theorem exec_add {rd rs1 rs2} (s : State) : exec (.add rd rs1 rs2) s = execAdd rd rs1 rs2 s := rfl
theorem exec_sll {rd rs1 rs2} (s : State) : exec (.sll rd rs1 rs2) s = execSll rd rs1 rs2 s := rfl
theorem exec_slt {rd rs1 rs2} (s : State) : exec (.slt rd rs1 rs2) s = execSlt rd rs1 rs2 s := rfl
theorem exec_sltu {rd rs1 rs2} (s : State) : exec (.sltu rd rs1 rs2) s = execSltu rd rs1 rs2 s := rfl
theorem exec_xor {rd rs1 rs2} (s : State) : exec (.xor rd rs1 rs2) s = execXor rd rs1 rs2 s := rfl
theorem exec_srl {rd rs1 rs2} (s : State) : exec (.srl rd rs1 rs2) s = execSrl rd rs1 rs2 s := rfl
theorem exec_or {rd rs1 rs2} (s : State) : exec (.or rd rs1 rs2) s = execOr rd rs1 rs2 s := rfl
theorem exec_and {rd rs1 rs2} (s : State) : exec (.and rd rs1 rs2) s = execAnd rd rs1 rs2 s := rfl
theorem exec_sub {rd rs1 rs2} (s : State) : exec (.sub rd rs1 rs2) s = execSub rd rs1 rs2 s := rfl
theorem exec_sra {rd rs1 rs2} (s : State) : exec (.sra rd rs1 rs2) s = execSra rd rs1 rs2 s := rfl
theorem exec_mul {rd rs1 rs2} (s : State) : exec (.mul rd rs1 rs2) s = execMul rd rs1 rs2 s := rfl
theorem exec_mulh {rd rs1 rs2} (s : State) : exec (.mulh rd rs1 rs2) s = execMulh rd rs1 rs2 s := rfl
theorem exec_mulhsu {rd rs1 rs2} (s : State) : exec (.mulhsu rd rs1 rs2) s = execMulhsu rd rs1 rs2 s := rfl
theorem exec_mulhu {rd rs1 rs2} (s : State) : exec (.mulhu rd rs1 rs2) s = execMulhu rd rs1 rs2 s := rfl
theorem exec_div {rd rs1 rs2} (s : State) : exec (.div rd rs1 rs2) s = execDiv rd rs1 rs2 s := rfl
theorem exec_divu {rd rs1 rs2} (s : State) : exec (.divu rd rs1 rs2) s = execDivu rd rs1 rs2 s := rfl
theorem exec_rem {rd rs1 rs2} (s : State) : exec (.rem rd rs1 rs2) s = execRem rd rs1 rs2 s := rfl
theorem exec_remu {rd rs1 rs2} (s : State) : exec (.remu rd rs1 rs2) s = execRemu rd rs1 rs2 s := rfl
theorem exec_addiw {rd rs1 imm} (s : State) : exec (.addiw rd rs1 imm) s = execAddiw rd rs1 imm s := rfl
theorem exec_slliw {rd rs1 sh} (s : State) : exec (.slliw rd rs1 sh) s = execSlliw rd rs1 sh s := rfl
theorem exec_srliw {rd rs1 sh} (s : State) : exec (.srliw rd rs1 sh) s = execSrliw rd rs1 sh s := rfl
theorem exec_sraiw {rd rs1 sh} (s : State) : exec (.sraiw rd rs1 sh) s = execSraiw rd rs1 sh s := rfl
theorem exec_addw {rd rs1 rs2} (s : State) : exec (.addw rd rs1 rs2) s = execAddw rd rs1 rs2 s := rfl
theorem exec_sllw {rd rs1 rs2} (s : State) : exec (.sllw rd rs1 rs2) s = execSllw rd rs1 rs2 s := rfl
theorem exec_srlw {rd rs1 rs2} (s : State) : exec (.srlw rd rs1 rs2) s = execSrlw rd rs1 rs2 s := rfl
theorem exec_subw {rd rs1 rs2} (s : State) : exec (.subw rd rs1 rs2) s = execSubw rd rs1 rs2 s := rfl
theorem exec_sraw {rd rs1 rs2} (s : State) : exec (.sraw rd rs1 rs2) s = execSraw rd rs1 rs2 s := rfl
theorem exec_mulw {rd rs1 rs2} (s : State) : exec (.mulw rd rs1 rs2) s = execMulw rd rs1 rs2 s := rfl
theorem exec_divw {rd rs1 rs2} (s : State) : exec (.divw rd rs1 rs2) s = execDivw rd rs1 rs2 s := rfl
theorem exec_divuw {rd rs1 rs2} (s : State) : exec (.divuw rd rs1 rs2) s = execDivuw rd rs1 rs2 s := rfl
theorem exec_remw {rd rs1 rs2} (s : State) : exec (.remw rd rs1 rs2) s = execRemw rd rs1 rs2 s := rfl
theorem exec_remuw {rd rs1 rs2} (s : State) : exec (.remuw rd rs1 rs2) s = execRemuw rd rs1 rs2 s := rfl
theorem exec_andn {rd rs1 rs2} (s : State) : exec (.andn rd rs1 rs2) s = execAndn rd rs1 rs2 s := rfl
theorem exec_rol {rd rs1 rs2} (s : State) : exec (.rol rd rs1 rs2) s = execRol rd rs1 rs2 s := rfl
theorem exec_clz {rd rs1} (s : State) : exec (.clz rd rs1) s = execClz rd rs1 s := rfl
theorem exec_ctz {rd rs1} (s : State) : exec (.ctz rd rs1) s = execCtz rd rs1 s := rfl
theorem exec_cpop {rd rs1} (s : State) : exec (.cpop rd rs1) s = execCpop rd rs1 s := rfl
theorem exec_ror {rd rs1 rs2} (s : State) : exec (.ror rd rs1 rs2) s = execRor rd rs1 rs2 s := rfl
theorem exec_rev8 {rd rs1} (s : State) : exec (.rev8 rd rs1) s = execRev8 rd rs1 s := rfl
theorem exec_bext {rd rs1 rs2} (s : State) : exec (.bext rd rs1 rs2) s = execBext rd rs1 rs2 s := rfl
theorem exec_bexti {rd rs1 sh} (s : State) : exec (.bexti rd rs1 sh) s = execBexti rd rs1 sh s := rfl
theorem exec_rori {rd rs1 sh} (s : State) : exec (.rori rd rs1 sh) s = execRori rd rs1 sh s := rfl
theorem exec_liw {rd imm} (s : State) : exec (.liw rd imm) s = execLiw rd imm s := rfl
theorem exec_flw {rd rs1 imm} (s : State) : exec (.flw rd rs1 imm) s = execFlw rd rs1 imm s := rfl
theorem exec_fld {rd rs1 imm} (s : State) : exec (.fld rd rs1 imm) s = execFld rd rs1 imm s := rfl
theorem exec_fsw {rs2 rs1 imm} (s : State) : exec (.fsw rs2 rs1 imm) s = execFsw rs2 rs1 imm s := rfl
theorem exec_fsd {rs2 rs1 imm} (s : State) : exec (.fsd rs2 rs1 imm) s = execFsd rs2 rs1 imm s := rfl
theorem exec_fadd {fmt rm rd rs1 rs2} (s : State) : exec (.fadd fmt rm rd rs1 rs2) s = execFadd fmt rm rd rs1 rs2 s := rfl
theorem exec_fsub {fmt rm rd rs1 rs2} (s : State) : exec (.fsub fmt rm rd rs1 rs2) s = execFsub fmt rm rd rs1 rs2 s := rfl
theorem exec_fmul {fmt rm rd rs1 rs2} (s : State) : exec (.fmul fmt rm rd rs1 rs2) s = execFmul fmt rm rd rs1 rs2 s := rfl
theorem exec_fdiv {fmt rm rd rs1 rs2} (s : State) : exec (.fdiv fmt rm rd rs1 rs2) s = execFdiv fmt rm rd rs1 rs2 s := rfl
theorem exec_fsqrt {fmt rm rd rs1} (s : State) : exec (.fsqrt fmt rm rd rs1) s = execFsqrt fmt rm rd rs1 s := rfl
theorem exec_fsgnj {fmt rd rs1 rs2} (s : State) : exec (.fsgnj fmt rd rs1 rs2) s = execFsgnj fmt rd rs1 rs2 s := rfl
theorem exec_fsgnjN {fmt rd rs1 rs2} (s : State) : exec (.fsgnjN fmt rd rs1 rs2) s = execFsgnjN fmt rd rs1 rs2 s := rfl
theorem exec_fsgnjX {fmt rd rs1 rs2} (s : State) : exec (.fsgnjX fmt rd rs1 rs2) s = execFsgnjX fmt rd rs1 rs2 s := rfl
theorem exec_fmin {fmt rd rs1 rs2} (s : State) : exec (.fmin fmt rd rs1 rs2) s = execFmin fmt rd rs1 rs2 s := rfl
theorem exec_fmax {fmt rd rs1 rs2} (s : State) : exec (.fmax fmt rd rs1 rs2) s = execFmax fmt rd rs1 rs2 s := rfl
theorem exec_fcmpLe {fmt rd rs1 rs2} (s : State) : exec (.fcmpLe fmt rd rs1 rs2) s = execFcmpLe fmt rd rs1 rs2 s := rfl
theorem exec_fcmpLt {fmt rd rs1 rs2} (s : State) : exec (.fcmpLt fmt rd rs1 rs2) s = execFcmpLt fmt rd rs1 rs2 s := rfl
theorem exec_fcmpEq {fmt rd rs1 rs2} (s : State) : exec (.fcmpEq fmt rd rs1 rs2) s = execFcmpEq fmt rd rs1 rs2 s := rfl
theorem exec_fclass {fmt rd rs1} (s : State) : exec (.fclass fmt rd rs1) s = execFclass fmt rd rs1 s := rfl
theorem exec_fcvtf {fmt rm rd rs1} (s : State) : exec (.fcvtf fmt rm rd rs1) s = execFcvtf fmt rm rd rs1 s := rfl
theorem exec_fcvti {fmt ty rm rd rs1} (s : State) : exec (.fcvti fmt ty rm rd rs1) s = execFcvti fmt ty rm rd rs1 s := rfl
theorem exec_fcvtx {fmt ty rm rd rs1} (s : State) : exec (.fcvtx fmt ty rm rd rs1) s = execFcvtx fmt ty rm rd rs1 s := rfl
theorem exec_fexp2 {rd rs1} (s : State) : exec (.fexp2 rd rs1) s = execFexp2 rd rs1 s := rfl
theorem exec_fmvx {fmt rd rs1} (s : State) : exec (.fmvx fmt rd rs1) s = execFmvx fmt rd rs1 s := rfl
theorem exec_fmvf {fmt rd rs1} (s : State) : exec (.fmvf fmt rd rs1) s = execFmvf fmt rd rs1 s := rfl
theorem exec_fround {fmt rm rd rs1} (s : State) : exec (.fround fmt rm rd rs1) s = execFround fmt rm rd rs1 s := rfl
theorem exec_fmaddF32 {rm rd rs1 rs2 rs3} (s : State) : exec (.fmaddF32 rm rd rs1 rs2 rs3) s = execFmaddF32 rm rd rs1 rs2 rs3 s := rfl
theorem exec_fmaddF64 {rm rd rs1 rs2 rs3} (s : State) : exec (.fmaddF64 rm rd rs1 rs2 rs3) s = execFmaddF64 rm rd rs1 rs2 rs3 s := rfl
theorem exec_fnmaddF32 {rm rd rs1 rs2 rs3} (s : State) : exec (.fnmaddF32 rm rd rs1 rs2 rs3) s = execFnmaddF32 rm rd rs1 rs2 rs3 s := rfl
theorem exec_fnmaddF64 {rm rd rs1 rs2 rs3} (s : State) : exec (.fnmaddF64 rm rd rs1 rs2 rs3) s = execFnmaddF64 rm rd rs1 rs2 rs3 s := rfl
theorem exec_lda {dw scope rd rs1} (s : State) : exec (.lda dw scope rd rs1) s = execLda dw scope rd rs1 s := rfl
theorem exec_stl {dw scope rs2 rs1} (s : State) : exec (.stl dw scope rs2 rs1) s = execStl dw scope rs2 rs1 s := rfl
theorem exec_amoswap {dw ord scope rd rs2 rs1} (s : State) : exec (.amoswap dw ord scope rd rs2 rs1) s = execAmoswap dw ord scope rd rs2 rs1 s := rfl
theorem exec_amoadd {dw ord scope rd rs2 rs1} (s : State) : exec (.amoadd dw ord scope rd rs2 rs1) s = execAmoadd dw ord scope rd rs2 rs1 s := rfl
theorem exec_amoand {dw ord scope rd rs2 rs1} (s : State) : exec (.amoand dw ord scope rd rs2 rs1) s = execAmoand dw ord scope rd rs2 rs1 s := rfl
theorem exec_amoor {dw ord scope rd rs2 rs1} (s : State) : exec (.amoor dw ord scope rd rs2 rs1) s = execAmoor dw ord scope rd rs2 rs1 s := rfl
theorem exec_amoxor {dw ord scope rd rs2 rs1} (s : State) : exec (.amoxor dw ord scope rd rs2 rs1) s = execAmoxor dw ord scope rd rs2 rs1 s := rfl
theorem exec_amomin {dw ord scope rd rs2 rs1} (s : State) : exec (.amomin dw ord scope rd rs2 rs1) s = execAmomin dw ord scope rd rs2 rs1 s := rfl
theorem exec_amomax {dw ord scope rd rs2 rs1} (s : State) : exec (.amomax dw ord scope rd rs2 rs1) s = execAmomax dw ord scope rd rs2 rs1 s := rfl
theorem exec_amominu {dw ord scope rd rs2 rs1} (s : State) : exec (.amominu dw ord scope rd rs2 rs1) s = execAmominu dw ord scope rd rs2 rs1 s := rfl
theorem exec_amomaxu {dw ord scope rd rs2 rs1} (s : State) : exec (.amomaxu dw ord scope rd rs2 rs1) s = execAmomaxu dw ord scope rd rs2 rs1 s := rfl
theorem exec_amocas {dw ord scope rd rs2 rs1} (s : State) : exec (.amocas dw ord scope rd rs2 rs1) s = execAmocas dw ord scope rd rs2 rs1 s := rfl
theorem exec_amofadd {dw ord scope rd rs2 rs1} (s : State) : exec (.amofadd dw ord scope rd rs2 rs1) s = execAmofadd dw ord scope rd rs2 rs1 s := rfl
theorem exec_fence {ord scope} (s : State) : exec (.fence ord scope) s = execFence ord scope s := rfl
theorem exec_barrive {scope rd b rs1} (s : State) : exec (.barrive scope rd b rs1) s = execBarrive scope rd b rs1 s := rfl
theorem exec_barwait {scope b rs1} (s : State) : exec (.barwait scope b rs1) s = execBarwait scope b rs1 s := rfl
theorem exec_sdrain (s : State) : exec (.sdrain) s = execSdrain s := rfl
theorem exec_tlwait {rd tl rs1} (s : State) : exec (.tlwait rd tl rs1) s = execTlwait rd tl rs1 s := rfl
theorem exec_tlread {rd tl} (s : State) : exec (.tlread rd tl) s = execTlread rd tl s := rfl
theorem exec_tlreadT {rd tl} (s : State) : exec (.tlreadT rd tl) s = execTlreadT rd tl s := rfl
theorem exec_msend {rd rs1 rs2} (s : State) : exec (.msend rd rs1 rs2) s = execMsend rd rs1 rs2 s := rfl
theorem exec_mwaitf {rd rt rs1} (s : State) : exec (.mwaitf rd rt rs1) s = execMwaitf rd rt rs1 s := rfl
theorem exec_capdeleg {rd k rs1} (s : State) : exec (.capdeleg rd k rs1) s = execCapdeleg rd k rs1 s := rfl
theorem exec_caprevoke {rs1} (s : State) : exec (.caprevoke rs1) s = execCaprevoke rs1 s := rfl
theorem exec_capcheck {rd k rs1} (s : State) : exec (.capcheck rd k rs1) s = execCapcheck rd k rs1 s := rfl
theorem exec_syscall (s : State) : exec (.syscall) s = execSyscall s := rfl
theorem exec_tret (s : State) : exec (.tret) s = execTret s := rfl
theorem exec_brk (s : State) : exec (.brk) s = execBrk s := rfl
theorem exec_wfe {rd rs1} (s : State) : exec (.wfe rd rs1) s = execWfe rd rs1 s := rfl
theorem exec_yield (s : State) : exec (.yield) s = execYield s := rfl
theorem exec_texit (s : State) : exec (.texit) s = execTexit s := rfl
theorem exec_migrate {rs1} (s : State) : exec (.migrate rs1) s = execMigrate rs1 s := rfl
theorem exec_srrd {rd r} (s : State) : exec (.srrd rd r) s = execSrrd rd r s := rfl
theorem exec_srwr {rd r rs1} (s : State) : exec (.srwr rd r rs1) s = execSrwr rd r rs1 s := rfl
theorem exec_srset {rd r rs1} (s : State) : exec (.srset rd r rs1) s = execSrset rd r rs1 s := rfl
theorem exec_srclr {rd r rs1} (s : State) : exec (.srclr rd r rs1) s = execSrclr rd r rs1 s := rfl
theorem exec_tlbinv {scope rs1 rs2} (s : State) : exec (.tlbinv scope rs1 rs2) s = execTlbinv scope rs1 rs2 s := rfl
theorem exec_lineopIcinv {scope rs1} (s : State) : exec (.lineopIcinv scope rs1) s = execLineopIcinv scope rs1 s := rfl
theorem exec_lineopZero {rs1} (s : State) : exec (.lineopZero rs1) s = execLineopZero rs1 s := rfl
theorem exec_lineopClean {rs1} (s : State) : exec (.lineopClean rs1) s = execLineopClean rs1 s := rfl
theorem exec_pfx {nf sat rm} (s : State) : exec (.pfx nf sat rm) s = execPfx nf sat rm s := rfl
theorem exec_padd {lanes rd rs1 rs2} (s : State) : exec (.padd lanes rd rs1 rs2) s = execPadd lanes rd rs1 rs2 s := rfl
theorem exec_psub {lanes rd rs1 rs2} (s : State) : exec (.psub lanes rd rs1 rs2) s = execPsub lanes rd rs1 rs2 s := rfl
theorem exec_padds {lanes rd rs1 rs2} (s : State) : exec (.padds lanes rd rs1 rs2) s = execPadds lanes rd rs1 rs2 s := rfl
theorem exec_psubs {lanes rd rs1 rs2} (s : State) : exec (.psubs lanes rd rs1 rs2) s = execPsubs lanes rd rs1 rs2 s := rfl
theorem exec_paddus {lanes rd rs1 rs2} (s : State) : exec (.paddus lanes rd rs1 rs2) s = execPaddus lanes rd rs1 rs2 s := rfl
theorem exec_psubus {lanes rd rs1 rs2} (s : State) : exec (.psubus lanes rd rs1 rs2) s = execPsubus lanes rd rs1 rs2 s := rfl
theorem exec_pmul {lanes rd rs1 rs2} (s : State) : exec (.pmul lanes rd rs1 rs2) s = execPmul lanes rd rs1 rs2 s := rfl
theorem exec_pmulq {lanes rd rs1 rs2} (s : State) : exec (.pmulq lanes rd rs1 rs2) s = execPmulq lanes rd rs1 rs2 s := rfl
theorem exec_pmin {lanes rd rs1 rs2} (s : State) : exec (.pmin lanes rd rs1 rs2) s = execPmin lanes rd rs1 rs2 s := rfl
theorem exec_pmax {lanes rd rs1 rs2} (s : State) : exec (.pmax lanes rd rs1 rs2) s = execPmax lanes rd rs1 rs2 s := rfl
theorem exec_psll {lanes rd rs1 rs2} (s : State) : exec (.psll lanes rd rs1 rs2) s = execPsll lanes rd rs1 rs2 s := rfl
theorem exec_psrl {lanes rd rs1 rs2} (s : State) : exec (.psrl lanes rd rs1 rs2) s = execPsrl lanes rd rs1 rs2 s := rfl
theorem exec_psra {lanes rd rs1 rs2} (s : State) : exec (.psra lanes rd rs1 rs2) s = execPsra lanes rd rs1 rs2 s := rfl
theorem exec_pssl {lanes rd rs1 rs2} (s : State) : exec (.pssl lanes rd rs1 rs2) s = execPssl lanes rd rs1 rs2 s := rfl
theorem exec_pavg {lanes rd rs1 rs2} (s : State) : exec (.pavg lanes rd rs1 rs2) s = execPavg lanes rd rs1 rs2 s := rfl
theorem exec_pcvt {src dst rd rs1} (s : State) : exec (.pcvt src dst rd rs1) s = execPcvt src dst rd rs1 s := rfl
theorem exec_talloc {rd t rs1} (s : State) : exec (.talloc rd t rs1) s = execTalloc rd t rs1 s := rfl
theorem exec_tfree {t} (s : State) : exec (.tfree t) s = execTfree t s := rfl
theorem exec_tlockR {t} (s : State) : exec (.tlockR t) s = execTlockR t s := rfl
theorem exec_tlockW {t} (s : State) : exec (.tlockW t) s = execTlockW t s := rfl
theorem exec_tunlock {t} (s : State) : exec (.tunlock t) s = execTunlock t s := rfl
theorem exec_tzero {t} (s : State) : exec (.tzero t) s = execTzero t s := rfl
theorem exec_trdx {rd t rs1} (s : State) : exec (.trdx rd t rs1) s = execTrdx rd t rs1 s := rfl
theorem exec_twrx {t rs1 rv} (s : State) : exec (.twrx t rs1 rv) s = execTwrx t rs1 rv s := rfl
theorem exec_tqueryLo {rd t} (s : State) : exec (.tqueryLo rd t) s = execTqueryLo rd t s := rfl
theorem exec_tqueryHi {rd t} (s : State) : exec (.tqueryHi rd t) s = execTqueryHi rd t s := rfl
theorem exec_tload {rd ta rs1 rs2 tl} (s : State) : exec (.tload rd ta rs1 rs2 tl) s = execTload rd ta rs1 rs2 tl s := rfl
theorem exec_tstore {rd ta rs1 rs2 tl} (s : State) : exec (.tstore rd ta rs1 rs2 tl) s = execTstore rd ta rs1 rs2 tl s := rfl
theorem exec_tcopyT {rd tb ta rs2 tl} (s : State) : exec (.tcopyT rd tb ta rs2 tl) s = execTcopyT rd tb ta rs2 tl s := rfl
theorem exec_tcopyM {rd rdst rs1 rs2 tl} (s : State) : exec (.tcopyM rd rdst rs1 rs2 tl) s = execTcopyM rd rdst rs1 rs2 tl s := rfl
theorem exec_tmma {bank sh za rd ta tb rs1 rs2 tl} (s : State) : exec (.tmma bank sh za rd ta tb rs1 rs2 tl) s = execTmma bank sh za rd ta tb rs1 rs2 tl s := rfl
theorem exec_taccrd {bank rm sat clr rd tb tl} (s : State) : exec (.taccrd bank rm sat clr rd tb tl) s = execTaccrd bank rm sat clr rd tb tl s := rfl
theorem exec_tmma32 {bank rd ta tb rs1 tl} (s : State) : exec (.tmma32 bank rd ta tb rs1 tl) s = execTmma32 bank rd ta tb rs1 tl s := rfl
theorem exec_setvl {rd rs1} (s : State) : exec (.setvl rd rs1) s = execSetvl rd rs1 s := rfl
theorem exec_setvli {rd imm} (s : State) : exec (.setvli rd imm) s = execSetvli rd imm s := rfl
theorem exec_setshape {rd rs1 rs2} (s : State) : exec (.setshape rd rs1 rs2) s = execSetshape rd rs1 rs2 s := rfl
theorem exec_grpset {g rs1 rs2} (s : State) : exec (.grpset g rs1 rs2) s = execGrpset g rs1 rs2 s := rfl
theorem exec_vle {m w vd rs1} (s : State) : exec (.vle m w vd rs1) s = execVle m w vd rs1 s := rfl
theorem exec_vse {m w vs3 rs1} (s : State) : exec (.vse m w vs3 rs1) s = execVse m w vs3 rs1 s := rfl
theorem exec_vlse {m w vd rs1 rs2} (s : State) : exec (.vlse m w vd rs1 rs2) s = execVlse m w vd rs1 rs2 s := rfl
theorem exec_vsse {m w vs3 rs1 rs2} (s : State) : exec (.vsse m w vs3 rs1 rs2) s = execVsse m w vs3 rs1 rs2 s := rfl
theorem exec_vlxe {m w vd rs1 vs2} (s : State) : exec (.vlxe m w vd rs1 vs2) s = execVlxe m w vd rs1 vs2 s := rfl
theorem exec_vsxe {m w vs3 rs1 vs2} (s : State) : exec (.vsxe m w vs3 rs1 vs2) s = execVsxe m w vs3 rs1 vs2 s := rfl
theorem exec_vleff {m w vd rs1} (s : State) : exec (.vleff m w vd rs1) s = execVleff m w vd rs1 s := rfl
theorem exec_vadd {m vd vs2 src} (s : State) : exec (.vadd m vd vs2 src) s = execVadd m vd vs2 src s := rfl
theorem exec_vsub {m vd vs2 src} (s : State) : exec (.vsub m vd vs2 src) s = execVsub m vd vs2 src s := rfl
theorem exec_vrsub {m vd vs2 src} (s : State) : exec (.vrsub m vd vs2 src) s = execVrsub m vd vs2 src s := rfl
theorem exec_vsadd {m vd vs2 src} (s : State) : exec (.vsadd m vd vs2 src) s = execVsadd m vd vs2 src s := rfl
theorem exec_vssub {m vd vs2 src} (s : State) : exec (.vssub m vd vs2 src) s = execVssub m vd vs2 src s := rfl
theorem exec_vsaddu {m vd vs2 src} (s : State) : exec (.vsaddu m vd vs2 src) s = execVsaddu m vd vs2 src s := rfl
theorem exec_vssubu {m vd vs2 src} (s : State) : exec (.vssubu m vd vs2 src) s = execVssubu m vd vs2 src s := rfl
theorem exec_vmul {m vd vs2 src} (s : State) : exec (.vmul m vd vs2 src) s = execVmul m vd vs2 src s := rfl
theorem exec_vmulh {m vd vs2 src} (s : State) : exec (.vmulh m vd vs2 src) s = execVmulh m vd vs2 src s := rfl
theorem exec_vmulhu {m vd vs2 src} (s : State) : exec (.vmulhu m vd vs2 src) s = execVmulhu m vd vs2 src s := rfl
theorem exec_vdiv {m vd vs2 src} (s : State) : exec (.vdiv m vd vs2 src) s = execVdiv m vd vs2 src s := rfl
theorem exec_vdivu {m vd vs2 src} (s : State) : exec (.vdivu m vd vs2 src) s = execVdivu m vd vs2 src s := rfl
theorem exec_vrem {m vd vs2 src} (s : State) : exec (.vrem m vd vs2 src) s = execVrem m vd vs2 src s := rfl
theorem exec_vremu {m vd vs2 src} (s : State) : exec (.vremu m vd vs2 src) s = execVremu m vd vs2 src s := rfl
theorem exec_vmin {m vd vs2 src} (s : State) : exec (.vmin m vd vs2 src) s = execVmin m vd vs2 src s := rfl
theorem exec_vmax {m vd vs2 src} (s : State) : exec (.vmax m vd vs2 src) s = execVmax m vd vs2 src s := rfl
theorem exec_vminu {m vd vs2 src} (s : State) : exec (.vminu m vd vs2 src) s = execVminu m vd vs2 src s := rfl
theorem exec_vmaxu {m vd vs2 src} (s : State) : exec (.vmaxu m vd vs2 src) s = execVmaxu m vd vs2 src s := rfl
theorem exec_vand {m vd vs2 src} (s : State) : exec (.vand m vd vs2 src) s = execVand m vd vs2 src s := rfl
theorem exec_vor {m vd vs2 src} (s : State) : exec (.vor m vd vs2 src) s = execVor m vd vs2 src s := rfl
theorem exec_vxor {m vd vs2 src} (s : State) : exec (.vxor m vd vs2 src) s = execVxor m vd vs2 src s := rfl
theorem exec_vsll {m vd vs2 src} (s : State) : exec (.vsll m vd vs2 src) s = execVsll m vd vs2 src s := rfl
theorem exec_vsrl {m vd vs2 src} (s : State) : exec (.vsrl m vd vs2 src) s = execVsrl m vd vs2 src s := rfl
theorem exec_vsra {m vd vs2 src} (s : State) : exec (.vsra m vd vs2 src) s = execVsra m vd vs2 src s := rfl
theorem exec_vssl {m vd vs2 src} (s : State) : exec (.vssl m vd vs2 src) s = execVssl m vd vs2 src s := rfl
theorem exec_vmseq {m vd vs2 src} (s : State) : exec (.vmseq m vd vs2 src) s = execVmseq m vd vs2 src s := rfl
theorem exec_vmsne {m vd vs2 src} (s : State) : exec (.vmsne m vd vs2 src) s = execVmsne m vd vs2 src s := rfl
theorem exec_vmslt {m vd vs2 src} (s : State) : exec (.vmslt m vd vs2 src) s = execVmslt m vd vs2 src s := rfl
theorem exec_vmsltu {m vd vs2 src} (s : State) : exec (.vmsltu m vd vs2 src) s = execVmsltu m vd vs2 src s := rfl
theorem exec_vmsle {m vd vs2 src} (s : State) : exec (.vmsle m vd vs2 src) s = execVmsle m vd vs2 src s := rfl
theorem exec_vmerge {vd vs2 src} (s : State) : exec (.vmerge vd vs2 src) s = execVmerge vd vs2 src s := rfl
theorem exec_vmv {m vd src} (s : State) : exec (.vmv m vd src) s = execVmv m vd src s := rfl
theorem exec_vfadd {m vd vs2 src} (s : State) : exec (.vfadd m vd vs2 src) s = execVfadd m vd vs2 src s := rfl
theorem exec_vfsub {m vd vs2 src} (s : State) : exec (.vfsub m vd vs2 src) s = execVfsub m vd vs2 src s := rfl
theorem exec_vfmul {m vd vs2 src} (s : State) : exec (.vfmul m vd vs2 src) s = execVfmul m vd vs2 src s := rfl
theorem exec_vfdiv {m vd vs2 src} (s : State) : exec (.vfdiv m vd vs2 src) s = execVfdiv m vd vs2 src s := rfl
theorem exec_vfsqrt {m vd vs2} (s : State) : exec (.vfsqrt m vd vs2) s = execVfsqrt m vd vs2 s := rfl
theorem exec_vfmin {m vd vs2 src} (s : State) : exec (.vfmin m vd vs2 src) s = execVfmin m vd vs2 src s := rfl
theorem exec_vfmax {m vd vs2 src} (s : State) : exec (.vfmax m vd vs2 src) s = execVfmax m vd vs2 src s := rfl
theorem exec_vfma {m vd vs2 src} (s : State) : exec (.vfma m vd vs2 src) s = execVfma m vd vs2 src s := rfl
theorem exec_vfnma {m vd vs2 src} (s : State) : exec (.vfnma m vd vs2 src) s = execVfnma m vd vs2 src s := rfl
theorem exec_vfexp2 {m vd vs2} (s : State) : exec (.vfexp2 m vd vs2) s = execVfexp2 m vd vs2 s := rfl
theorem exec_vmfeq {m vd vs2 src} (s : State) : exec (.vmfeq m vd vs2 src) s = execVmfeq m vd vs2 src s := rfl
theorem exec_vmflt {m vd vs2 src} (s : State) : exec (.vmflt m vd vs2 src) s = execVmflt m vd vs2 src s := rfl
theorem exec_vmfle {m vd vs2 src} (s : State) : exec (.vmfle m vd vs2 src) s = execVmfle m vd vs2 src s := rfl
theorem exec_vfcvtd {m fmt vd vs2} (s : State) : exec (.vfcvtd m fmt vd vs2) s = execVfcvtd m fmt vd vs2 s := rfl
theorem exec_vfcvts {m fmt vd vs2} (s : State) : exec (.vfcvts m fmt vd vs2) s = execVfcvts m fmt vd vs2 s := rfl
theorem exec_vredsum {m vd vs2 vs1} (s : State) : exec (.vredsum m vd vs2 vs1) s = execVredsum m vd vs2 vs1 s := rfl
theorem exec_vredmax {m vd vs2 vs1} (s : State) : exec (.vredmax m vd vs2 vs1) s = execVredmax m vd vs2 vs1 s := rfl
theorem exec_vredmin {m vd vs2 vs1} (s : State) : exec (.vredmin m vd vs2 vs1) s = execVredmin m vd vs2 vs1 s := rfl
theorem exec_vfredsum {m vd vs2 vs1} (s : State) : exec (.vfredsum m vd vs2 vs1) s = execVfredsum m vd vs2 vs1 s := rfl
theorem exec_vfredmax {m vd vs2 vs1} (s : State) : exec (.vfredmax m vd vs2 vs1) s = execVfredmax m vd vs2 vs1 s := rfl
theorem exec_vscan {m vd vs2 vs1} (s : State) : exec (.vscan m vd vs2 vs1) s = execVscan m vd vs2 vs1 s := rfl
theorem exec_vslideup {m vd vs2 rs1} (s : State) : exec (.vslideup m vd vs2 rs1) s = execVslideup m vd vs2 rs1 s := rfl
theorem exec_vslidedown {m vd vs2 rs1} (s : State) : exec (.vslidedown m vd vs2 rs1) s = execVslidedown m vd vs2 rs1 s := rfl
theorem exec_vrgather {m vd vs2 vs1} (s : State) : exec (.vrgather m vd vs2 vs1) s = execVrgather m vd vs2 vs1 s := rfl
theorem exec_vcompress {vd vs2} (s : State) : exec (.vcompress vd vs2) s = execVcompress vd vs2 s := rfl
theorem exec_vextx {rd vs2 rs1} (s : State) : exec (.vextx rd vs2 rs1) s = execVextx rd vs2 rs1 s := rfl
theorem exec_vinsx {vd rs1} (s : State) : exec (.vinsx vd rs1) s = execVinsx vd rs1 s := rfl
theorem exec_vmand {m vd vs2 vs1} (s : State) : exec (.vmand m vd vs2 vs1) s = execVmand m vd vs2 vs1 s := rfl
theorem exec_vmandn {m vd vs2 vs1} (s : State) : exec (.vmandn m vd vs2 vs1) s = execVmandn m vd vs2 vs1 s := rfl
theorem exec_vmor {m vd vs2 vs1} (s : State) : exec (.vmor m vd vs2 vs1) s = execVmor m vd vs2 vs1 s := rfl
theorem exec_vmxor {m vd vs2 vs1} (s : State) : exec (.vmxor m vd vs2 vs1) s = execVmxor m vd vs2 vs1 s := rfl
theorem exec_vmpopc {m rd vs2} (s : State) : exec (.vmpopc m rd vs2) s = execVmpopc m rd vs2 s := rfl
theorem exec_vmfirst {m rd vs2} (s : State) : exec (.vmfirst m rd vs2) s = execVmfirst m rd vs2 s := rfl
theorem exec_vdot4 {m vd vs2 vs1} (s : State) : exec (.vdot4 m vd vs2 vs1) s = execVdot4 m vd vs2 vs1 s := rfl
theorem exec_ldpairw {vd rs1} (s : State) : exec (.ldpairw vd rs1) s = execLdpairw vd rs1 s := rfl
theorem exec_mmodeOn (s : State) : exec (.mmodeOn) s = execMmodeOn s := rfl
theorem exec_mmodeOff (s : State) : exec (.mmodeOff) s = execMmodeOff s := rfl
theorem exec_vopaBf16 {m va vb} (s : State) : exec (.vopaBf16 m va vb) s = execVopaBf16 m va vb s := rfl
theorem exec_vopaF16 {m va vb} (s : State) : exec (.vopaF16 m va vb) s = execVopaF16 m va vb s := rfl
theorem exec_vopaE4m3 {m va vb} (s : State) : exec (.vopaE4m3 m va vb) s = execVopaE4m3 m va vb s := rfl
theorem exec_vopaE5m2 {m va vb} (s : State) : exec (.vopaE5m2 m va vb) s = execVopaE5m2 m va vb s := rfl
theorem exec_vaccz (s : State) : exec (.vaccz) s = execVaccz s := rfl
theorem exec_vsmx {m vd vs2 fa} (s : State) : exec (.vsmx m vd vs2 fa) s = execVsmx m vd vs2 fa s := rfl
theorem exec_vcollSum {f vd vs g} (s : State) : exec (.vcollSum f vd vs g) s = execVcollSum f vd vs g s := rfl
theorem exec_vcollMax {f vd vs g} (s : State) : exec (.vcollMax f vd vs g) s = execVcollMax f vd vs g s := rfl
theorem exec_vcollMin {f vd vs g} (s : State) : exec (.vcollMin f vd vs g) s = execVcollMin f vd vs g s := rfl
theorem exec_vcollSmerge {vd vs g xd} (s : State) : exec (.vcollSmerge vd vs g xd) s = execVcollSmerge vd vs g xd s := rfl
theorem exec_vcollGather {vd vs g} (s : State) : exec (.vcollGather vd vs g) s = execVcollGather vd vs g s := rfl
theorem exec_vcollScatter {vd vs g xr} (s : State) : exec (.vcollScatter vd vs g xr) s = execVcollScatter vd vs g xr s := rfl
theorem exec_vcollBcast {vd vs g xr} (s : State) : exec (.vcollBcast vd vs g xr) s = execVcollBcast vd vs g xr s := rfl
theorem exec_missQueueServe {die} (s : State) : exec (.missQueueServe die) s = execMissQueueServe die s := rfl
theorem exec_contextRecordWrite {ctx dword v} (s : State) : exec (.contextRecordWrite ctx dword v) s = execContextRecordWrite ctx dword v s := rfl
theorem exec_tlbinvComplete {n} (s : State) : exec (.tlbinvComplete n) s = execTlbinvComplete n s := rfl
theorem exec_tlbinvPodTimeout {n pkg} (s : State) : exec (.tlbinvPodTimeout n pkg) s = execTlbinvPodTimeout n pkg s := rfl
theorem exec_podWindowRequest {req} (s : State) : exec (.podWindowRequest req) s = execPodWindowRequest req s := rfl
theorem exec_podWindowResponse {id ans} (s : State) : exec (.podWindowResponse id ans) s = execPodWindowResponse id ans s := rfl
theorem exec_podWindowTimeout {id} (s : State) : exec (.podWindowTimeout id) s = execPodWindowTimeout id s := rfl
theorem exec_keySlotLoad {slot part} (s : State) : exec (.keySlotLoad slot part) s = execKeySlotLoad slot part s := rfl
theorem exec_keySlotUnload {slot} (s : State) : exec (.keySlotUnload slot) s = execKeySlotUnload slot s := rfl
theorem exec_spdmRequest {secured op} (s : State) : exec (.spdmRequest secured op) s = execSpdmRequest secured op s := rfl
theorem exec_tileLockGrant {key} (s : State) : exec (.tileLockGrant key) s = execTileLockGrant key s := rfl
theorem exec_parkResume {t} (s : State) : exec (.parkResume t) s = execParkResume t s := rfl
theorem exec_l1dLineExpiry {core line} (s : State) : exec (.l1dLineExpiry core line) s = execL1dLineExpiry core line s := rfl
theorem exec_writeThroughDelivery {core} (s : State) : exec (.writeThroughDelivery core) s = execWriteThroughDelivery core s := rfl
theorem exec_homeRequest {line} (s : State) : exec (.homeRequest line) s = execHomeRequest line s := rfl
theorem exec_taskRetirement {stand} (s : State) : exec (.taskRetirement stand) s = execTaskRetirement stand s := rfl
theorem exec_patrolScrub {line} (s : State) : exec (.patrolScrub line) s = execPatrolScrub line s := rfl
theorem exec_latentCodeRescrub {line} (s : State) : exec (.latentCodeRescrub line) s = execLatentCodeRescrub line s := rfl
theorem exec_rasbaseWrite {v} (s : State) : exec (.rasbaseWrite v) s = execRasbaseWrite v s := rfl
theorem exec_rasidxWrite {v} (s : State) : exec (.rasidxWrite v) s = execRasidxWrite v s := rfl
theorem exec_dauLoad {t} (s : State) : exec (.dauLoad t) s = execDauLoad t s := rfl
theorem exec_copyRow {cmd} (s : State) : exec (.copyRow cmd) s = execCopyRow cmd s := rfl
theorem exec_arrayOperandRead {cmd k} (s : State) : exec (.arrayOperandRead cmd k) s = execArrayOperandRead cmd k s := rfl
theorem exec_engineCommandComplete {cmd} (s : State) : exec (.engineCommandComplete cmd) s = execEngineCommandComplete cmd s := rfl
theorem exec_heldFaultDelivery {t} (s : State) : exec (.heldFaultDelivery t) s = execHeldFaultDelivery t s := rfl
theorem exec_podTimeSourceChange {lock hold master err} (s : State) : exec (.podTimeSourceChange lock hold master err) s = execPodTimeSourceChange lock hold master err s := rfl
theorem exec_migrationArrival {t} (s : State) : exec (.migrationArrival t) s = execMigrationArrival t s := rfl
theorem exec_streamerQueueServe {t} (s : State) : exec (.streamerQueueServe t) s = execStreamerQueueServe t s := rfl
theorem exec_leaseRegrant {t} (s : State) : exec (.leaseRegrant t) s = execLeaseRegrant t s := rfl
theorem exec_leaseParkedGrant {die quad} (s : State) : exec (.leaseParkedGrant die quad) s = execLeaseParkedGrant die quad s := rfl
theorem exec_mixWindowEnd {t} (s : State) : exec (.mixWindowEnd t) s = execMixWindowEnd t s := rfl
theorem exec_mixMigration {t} (s : State) : exec (.mixMigration t) s = execMixMigration t s := rfl
theorem exec_barrierEpisodeAbandon {key} (s : State) : exec (.barrierEpisodeAbandon key) s = execBarrierEpisodeAbandon key s := rfl
theorem exec_messageArrival {t} (s : State) : exec (.messageArrival t) s = execMessageArrival t s := rfl
theorem exec_spawnStart {t} (s : State) : exec (.spawnStart t) s = execSpawnStart t s := rfl
theorem exec_waitLimitExpiry {t} (s : State) : exec (.waitLimitExpiry t) s = execWaitLimitExpiry t s := rfl
theorem exec_collectiveCombine {key reached} (s : State) : exec (.collectiveCombine key reached) s = execCollectiveCombine key reached s := rfl
theorem exec_buddyCopyDelivery {key rank} (s : State) : exec (.buddyCopyDelivery key rank) s = execBuddyCopyDelivery key rank s := rfl
theorem exec_collectiveResult {t} (s : State) : exec (.collectiveResult t) s = execCollectiveResult t s := rfl
theorem exec_collectiveTimerExpiry {key} (s : State) : exec (.collectiveTimerExpiry key) s = execCollectiveTimerExpiry key s := rfl
theorem exec_collectiveResultTimeout {t} (s : State) : exec (.collectiveResultTimeout t) s = execCollectiveResultTimeout t s := rfl
theorem exec_tailWrite {q v} (s : State) : exec (.tailWrite q v) s = execTailWrite q v s := rfl
theorem exec_launchRecordRead {q} (s : State) : exec (.launchRecordRead q) s = execLaunchRecordRead q s := rfl
theorem exec_dispatch {half} (s : State) : exec (.dispatch half) s = execDispatch half s := rfl
theorem exec_priorityLift {q} (s : State) : exec (.priorityLift q) s = execPriorityLift q s := rfl
theorem exec_notbeforeReached {q} (s : State) : exec (.notbeforeReached q) s = execNotbeforeReached q s := rfl
theorem exec_dispatcherPlace {die} (s : State) : exec (.dispatcherPlace die) s = execDispatcherPlace die s := rfl
theorem exec_contextFreeNotice {core} (s : State) : exec (.contextFreeNotice core) s = execContextFreeNotice core s := rfl
theorem exec_copyNode {q} (s : State) : exec (.copyNode q) s = execCopyNode q s := rfl
theorem exec_signalNode {q} (s : State) : exec (.signalNode q) s = execSignalNode q s := rfl
theorem exec_jobEnd {job} (s : State) : exec (.jobEnd job) s = execJobEnd job s := rfl
theorem exec_budgetExpiry {stand} (s : State) : exec (.budgetExpiry stand) s = execBudgetExpiry stand s := rfl
theorem exec_preload {core} (s : State) : exec (.preload core) s = execPreload core s := rfl
theorem exec_qownWrite {die quad v} (s : State) : exec (.qownWrite die quad v) s = execQownWrite die quad v s := rfl
theorem exec_coreOwnerPass {core} (s : State) : exec (.coreOwnerPass core) s = execCoreOwnerPass core s := rfl
theorem exec_missingFeatureReplace {stand} (s : State) : exec (.missingFeatureReplace stand) s = execMissingFeatureReplace stand s := rfl
theorem exec_supervisorRingResume {part} (s : State) : exec (.supervisorRingResume part) s = execSupervisorRingResume part s := rfl
theorem exec_supervisorInterrupt {part} (s : State) : exec (.supervisorInterrupt part) s = execSupervisorInterrupt part s := rfl
theorem exec_threadReset {part} (s : State) : exec (.threadReset part) s = execThreadReset part s := rfl
theorem exec_standReset {part} (s : State) : exec (.standReset part) s = execStandReset part s := rfl
theorem exec_rerunStand {part} (s : State) : exec (.rerunStand part) s = execRerunStand part s := rfl
theorem exec_resumeStand {part} (s : State) : exec (.resumeStand part) s = execResumeStand part s := rfl
theorem exec_preemptStand {part} (s : State) : exec (.preemptStand part) s = execPreemptStand part s := rfl
theorem exec_gangSwitch {part} (s : State) : exec (.gangSwitch part) s = execGangSwitch part s := rfl
theorem exec_gangPreempt {job} (s : State) : exec (.gangPreempt job) s = execGangPreempt job s := rfl
theorem exec_gangResume {part} (s : State) : exec (.gangResume part) s = execGangResume part s := rfl
theorem exec_queueReset {part} (s : State) : exec (.queueReset part) s = execQueueReset part s := rfl
theorem exec_partitionReset {part byHost} (s : State) : exec (.partitionReset part byHost) s = execPartitionReset part byHost s := rfl
theorem exec_packageReset (s : State) : exec (.packageReset) s = execPackageReset s := rfl
theorem exec_postedStoreResolve {t} (s : State) : exec (.postedStoreResolve t) s = execPostedStoreResolve t s := rfl
theorem exec_impreciseStoreFault {t} (s : State) : exec (.impreciseStoreFault t) s = execImpreciseStoreFault t s := rfl
theorem exec_coreHardwareError {core} (s : State) : exec (.coreHardwareError core) s = execCoreHardwareError core s := rfl
theorem exec_watchdogExpiry {core} (s : State) : exec (.watchdogExpiry core) s = execWatchdogExpiry core s := rfl
theorem exec_stopPointFire {t} (s : State) : exec (.stopPointFire t) s = execStopPointFire t s := rfl
theorem exec_attach {part} (s : State) : exec (.attach part) s = execAttach part s := rfl
theorem exec_detach {part} (s : State) : exec (.detach part) s = execDetach part s := rfl
theorem exec_stop {part} (s : State) : exec (.stop part) s = execStop part s := rfl
theorem exec_cont {part} (s : State) : exec (.cont part) s = execCont part s := rfl
theorem exec_rdreg {part} (s : State) : exec (.rdreg part) s = execRdreg part s := rfl
theorem exec_wrreg {part} (s : State) : exec (.wrreg part) s = execWrreg part s := rfl
theorem exec_rdmem {part} (s : State) : exec (.rdmem part) s = execRdmem part s := rfl
theorem exec_wrmem {part} (s : State) : exec (.wrmem part) s = execWrmem part s := rfl
theorem exec_setsp {part} (s : State) : exec (.setsp part) s = execSetsp part s := rfl
theorem exec_clrsp {part} (s : State) : exec (.clrsp part) s = execClrsp part s := rfl
theorem exec_trace {part} (s : State) : exec (.trace part) s = execTrace part s := rfl
theorem exec_record {part} (s : State) : exec (.record part) s = execRecord part s := rfl
theorem exec_replay {part} (s : State) : exec (.replay part) s = execReplay part s := rfl
theorem exec_samplePeriodExpiry {t} (s : State) : exec (.samplePeriodExpiry t) s = execSamplePeriodExpiry t s := rfl
theorem exec_hostMemAccess {pa n part write} (s : State) : exec (.hostMemAccess pa n part write) s = execHostMemAccess pa n part write s := rfl
theorem exec_flitReplay {port} (s : State) : exec (.flitReplay port) s = execFlitReplay port s := rfl
theorem exec_capacityFailure {unit} (s : State) : exec (.capacityFailure unit) s = execCapacityFailure unit s := rfl
theorem exec_bootStep {n unit passed code} (s : State) : exec (.bootStep n unit passed code) s = execBootStep n unit passed code s := rfl
theorem exec_healthUpdate {die v} (s : State) : exec (.healthUpdate die v) s = execHealthUpdate die v s := rfl
theorem exec_thermalThrottle {die cycles} (s : State) : exec (.thermalThrottle die cycles) s = execThermalThrottle die cycles s := rfl
theorem exec_overtempReset (s : State) : exec (.overtempReset) s = execOvertempReset s := rfl
theorem exec_registerWrite {r v} (s : State) : exec (.registerWrite r v) s = execRegisterWrite r v s := rfl
theorem exec_hostLinkDown {link down} (s : State) : exec (.hostLinkDown link down) s = execHostLinkDown link down s := rfl

end Sys2Proof.Machine
end

