-- ==== Sys2Proof/Laws/Encode.lean ====
section
/-! SUPPORT. What the encoder gives each instruction, one equation per constructor. -/

namespace Sys2Proof
@[simp] theorem encode_lui {rd imm} : encode (.lui rd imm) = encU 0x37 rd imm := rfl
@[simp] theorem encode_auipc {rd imm} : encode (.auipc rd imm) = encU 0x17 rd imm := rfl
@[simp] theorem encode_jal {rd off} : encode (.jal rd off) = encJ rd off := rfl
@[simp] theorem encode_jalr {rd rs1 imm} : encode (.jalr rd rs1 imm) = encI 0x67 0 rd rs1 imm := rfl
@[simp] theorem encode_beq {rs1 rs2 off} : encode (.beq rs1 rs2 off) = encB 0 rs1 rs2 off := rfl
@[simp] theorem encode_bne {rs1 rs2 off} : encode (.bne rs1 rs2 off) = encB 1 rs1 rs2 off := rfl
@[simp] theorem encode_blt {rs1 rs2 off} : encode (.blt rs1 rs2 off) = encB 4 rs1 rs2 off := rfl
@[simp] theorem encode_bge {rs1 rs2 off} : encode (.bge rs1 rs2 off) = encB 5 rs1 rs2 off := rfl
@[simp] theorem encode_bltu {rs1 rs2 off} : encode (.bltu rs1 rs2 off) = encB 6 rs1 rs2 off := rfl
@[simp] theorem encode_bgeu {rs1 rs2 off} : encode (.bgeu rs1 rs2 off) = encB 7 rs1 rs2 off := rfl
@[simp] theorem encode_lb {rd rs1 imm} : encode (.lb rd rs1 imm) = encI 0x03 0 rd rs1 imm := rfl
@[simp] theorem encode_lh {rd rs1 imm} : encode (.lh rd rs1 imm) = encI 0x03 1 rd rs1 imm := rfl
@[simp] theorem encode_lw {rd rs1 imm} : encode (.lw rd rs1 imm) = encI 0x03 2 rd rs1 imm := rfl
@[simp] theorem encode_ld {rd rs1 imm} : encode (.ld rd rs1 imm) = encI 0x03 3 rd rs1 imm := rfl
@[simp] theorem encode_lbu {rd rs1 imm} : encode (.lbu rd rs1 imm) = encI 0x03 4 rd rs1 imm := rfl
@[simp] theorem encode_lhu {rd rs1 imm} : encode (.lhu rd rs1 imm) = encI 0x03 5 rd rs1 imm := rfl
@[simp] theorem encode_lwu {rd rs1 imm} : encode (.lwu rd rs1 imm) = encI 0x03 6 rd rs1 imm := rfl
@[simp] theorem encode_addi {rd rs1 imm} : encode (.addi rd rs1 imm) = encI 0x13 0 rd rs1 imm := rfl
@[simp] theorem encode_slti {rd rs1 imm} : encode (.slti rd rs1 imm) = encI 0x13 2 rd rs1 imm := rfl
@[simp] theorem encode_sltiu {rd rs1 imm} : encode (.sltiu rd rs1 imm) = encI 0x13 3 rd rs1 imm := rfl
@[simp] theorem encode_xori {rd rs1 imm} : encode (.xori rd rs1 imm) = encI 0x13 4 rd rs1 imm := rfl
@[simp] theorem encode_ori {rd rs1 imm} : encode (.ori rd rs1 imm) = encI 0x13 6 rd rs1 imm := rfl
@[simp] theorem encode_andi {rd rs1 imm} : encode (.andi rd rs1 imm) = encI 0x13 7 rd rs1 imm := rfl
@[simp] theorem encode_addiw {rd rs1 imm} : encode (.addiw rd rs1 imm) = encI 0x1B 0 rd rs1 imm := rfl
@[simp] theorem encode_flw {rd rs1 imm} : encode (.flw rd rs1 imm) = encI 0x07 2 rd rs1 imm := rfl
@[simp] theorem encode_fld {rd rs1 imm} : encode (.fld rd rs1 imm) = encI 0x07 3 rd rs1 imm := rfl
@[simp] theorem encode_sb {rs2 rs1 imm} : encode (.sb rs2 rs1 imm) = encS 0x23 0 rs2 rs1 imm := rfl
@[simp] theorem encode_sh {rs2 rs1 imm} : encode (.sh rs2 rs1 imm) = encS 0x23 1 rs2 rs1 imm := rfl
@[simp] theorem encode_sw {rs2 rs1 imm} : encode (.sw rs2 rs1 imm) = encS 0x23 2 rs2 rs1 imm := rfl
@[simp] theorem encode_sd {rs2 rs1 imm} : encode (.sd rs2 rs1 imm) = encS 0x23 3 rs2 rs1 imm := rfl
@[simp] theorem encode_fsw {rs2 rs1 imm} : encode (.fsw rs2 rs1 imm) = encS 0x27 2 rs2 rs1 imm := rfl
@[simp] theorem encode_fsd {rs2 rs1 imm} : encode (.fsd rs2 rs1 imm) = encS 0x27 3 rs2 rs1 imm := rfl
@[simp] theorem encode_slli {rd rs1 sh} : encode (.slli rd rs1 sh) = encSh 1 0 rd rs1 sh := rfl
@[simp] theorem encode_srli {rd rs1 sh} : encode (.srli rd rs1 sh) = encSh 5 0 rd rs1 sh := rfl
@[simp] theorem encode_srai {rd rs1 sh} : encode (.srai rd rs1 sh) = encSh 5 16 rd rs1 sh := rfl
@[simp] theorem encode_bexti {rd rs1 sh} : encode (.bexti rd rs1 sh) = encSh 1 6 rd rs1 sh := rfl
@[simp] theorem encode_rori {rd rs1 sh} : encode (.rori rd rs1 sh) = encSh 5 6 rd rs1 sh := rfl
@[simp] theorem encode_slliw {rd rs1 sh} : encode (.slliw rd rs1 sh) = encR 0x1B 1 0 rd rs1 sh := rfl
@[simp] theorem encode_srliw {rd rs1 sh} : encode (.srliw rd rs1 sh) = encR 0x1B 5 0 rd rs1 sh := rfl
@[simp] theorem encode_sraiw {rd rs1 sh} : encode (.sraiw rd rs1 sh) = encR 0x1B 5 32 rd rs1 sh := rfl
@[simp] theorem encode_add {rd rs1 rs2} : encode (.add rd rs1 rs2) = encR 0x33 0 0 rd rs1 rs2 := rfl
@[simp] theorem encode_sll {rd rs1 rs2} : encode (.sll rd rs1 rs2) = encR 0x33 1 0 rd rs1 rs2 := rfl
@[simp] theorem encode_slt {rd rs1 rs2} : encode (.slt rd rs1 rs2) = encR 0x33 2 0 rd rs1 rs2 := rfl
@[simp] theorem encode_sltu {rd rs1 rs2} : encode (.sltu rd rs1 rs2) = encR 0x33 3 0 rd rs1 rs2 := rfl
@[simp] theorem encode_xor {rd rs1 rs2} : encode (.xor rd rs1 rs2) = encR 0x33 4 0 rd rs1 rs2 := rfl
@[simp] theorem encode_srl {rd rs1 rs2} : encode (.srl rd rs1 rs2) = encR 0x33 5 0 rd rs1 rs2 := rfl
@[simp] theorem encode_or {rd rs1 rs2} : encode (.or rd rs1 rs2) = encR 0x33 6 0 rd rs1 rs2 := rfl
@[simp] theorem encode_and {rd rs1 rs2} : encode (.and rd rs1 rs2) = encR 0x33 7 0 rd rs1 rs2 := rfl
@[simp] theorem encode_sub {rd rs1 rs2} : encode (.sub rd rs1 rs2) = encR 0x33 0 32 rd rs1 rs2 := rfl
@[simp] theorem encode_sra {rd rs1 rs2} : encode (.sra rd rs1 rs2) = encR 0x33 5 32 rd rs1 rs2 := rfl
@[simp] theorem encode_mul {rd rs1 rs2} : encode (.mul rd rs1 rs2) = encR 0x33 0 1 rd rs1 rs2 := rfl
@[simp] theorem encode_mulh {rd rs1 rs2} : encode (.mulh rd rs1 rs2) = encR 0x33 1 1 rd rs1 rs2 := rfl
@[simp] theorem encode_mulhsu {rd rs1 rs2} : encode (.mulhsu rd rs1 rs2) = encR 0x33 2 1 rd rs1 rs2 := rfl
@[simp] theorem encode_mulhu {rd rs1 rs2} : encode (.mulhu rd rs1 rs2) = encR 0x33 3 1 rd rs1 rs2 := rfl
@[simp] theorem encode_div {rd rs1 rs2} : encode (.div rd rs1 rs2) = encR 0x33 4 1 rd rs1 rs2 := rfl
@[simp] theorem encode_divu {rd rs1 rs2} : encode (.divu rd rs1 rs2) = encR 0x33 5 1 rd rs1 rs2 := rfl
@[simp] theorem encode_rem {rd rs1 rs2} : encode (.rem rd rs1 rs2) = encR 0x33 6 1 rd rs1 rs2 := rfl
@[simp] theorem encode_remu {rd rs1 rs2} : encode (.remu rd rs1 rs2) = encR 0x33 7 1 rd rs1 rs2 := rfl
@[simp] theorem encode_addw {rd rs1 rs2} : encode (.addw rd rs1 rs2) = encR 0x3B 0 0 rd rs1 rs2 := rfl
@[simp] theorem encode_sllw {rd rs1 rs2} : encode (.sllw rd rs1 rs2) = encR 0x3B 1 0 rd rs1 rs2 := rfl
@[simp] theorem encode_srlw {rd rs1 rs2} : encode (.srlw rd rs1 rs2) = encR 0x3B 5 0 rd rs1 rs2 := rfl
@[simp] theorem encode_subw {rd rs1 rs2} : encode (.subw rd rs1 rs2) = encR 0x3B 0 32 rd rs1 rs2 := rfl
@[simp] theorem encode_sraw {rd rs1 rs2} : encode (.sraw rd rs1 rs2) = encR 0x3B 5 32 rd rs1 rs2 := rfl
@[simp] theorem encode_mulw {rd rs1 rs2} : encode (.mulw rd rs1 rs2) = encR 0x3B 0 1 rd rs1 rs2 := rfl
@[simp] theorem encode_divw {rd rs1 rs2} : encode (.divw rd rs1 rs2) = encR 0x3B 4 1 rd rs1 rs2 := rfl
@[simp] theorem encode_divuw {rd rs1 rs2} : encode (.divuw rd rs1 rs2) = encR 0x3B 5 1 rd rs1 rs2 := rfl
@[simp] theorem encode_remw {rd rs1 rs2} : encode (.remw rd rs1 rs2) = encR 0x3B 6 1 rd rs1 rs2 := rfl
@[simp] theorem encode_remuw {rd rs1 rs2} : encode (.remuw rd rs1 rs2) = encR 0x3B 7 1 rd rs1 rs2 := rfl
@[simp] theorem encode_andn {rd rs1 rs2} : encode (.andn rd rs1 rs2) = encR 0x33 0 12 rd rs1 rs2 := rfl
@[simp] theorem encode_rol {rd rs1 rs2} : encode (.rol rd rs1 rs2) = encR 0x33 1 12 rd rs1 rs2 := rfl
@[simp] theorem encode_ror {rd rs1 rs2} : encode (.ror rd rs1 rs2) = encR 0x33 5 12 rd rs1 rs2 := rfl
@[simp] theorem encode_bext {rd rs1 rs2} : encode (.bext rd rs1 rs2) = encR 0x33 7 12 rd rs1 rs2 := rfl
@[simp] theorem encode_clz {rd rs1} : encode (.clz rd rs1) = encR 0x33 2 12 rd rs1 0 := rfl
@[simp] theorem encode_ctz {rd rs1} : encode (.ctz rd rs1) = encR 0x33 3 12 rd rs1 0 := rfl
@[simp] theorem encode_cpop {rd rs1} : encode (.cpop rd rs1) = encR 0x33 4 12 rd rs1 0 := rfl
@[simp] theorem encode_rev8 {rd rs1} : encode (.rev8 rd rs1) = encR 0x33 6 12 rd rs1 0 := rfl
@[simp] theorem encode_liw {rd imm} : encode (.liw rd imm) = some (.long ⟨imm.extractLsb' 45 4, imm.extractLsb' 41 4, imm.extractLsb' 33 8, imm.extractLsb' 25 8, imm.extractLsb' 17 8, ⟨imm.extractLsb' 10 7, imm.extractLsb' 5 5, imm.extractLsb' 0 5, 2, rd, 0x3F⟩⟩) := rfl
@[simp] theorem encode_fadd {fmt rm rd rs1 rs2} : encode (.fadd fmt rm rd rs1 rs2) = encFF 0 fmt (rmBits rm) rd rs1 rs2 := rfl
@[simp] theorem encode_fsub {fmt rm rd rs1 rs2} : encode (.fsub fmt rm rd rs1 rs2) = encFF 1 fmt (rmBits rm) rd rs1 rs2 := rfl
@[simp] theorem encode_fmul {fmt rm rd rs1 rs2} : encode (.fmul fmt rm rd rs1 rs2) = encFF 2 fmt (rmBits rm) rd rs1 rs2 := rfl
@[simp] theorem encode_fdiv {fmt rm rd rs1 rs2} : encode (.fdiv fmt rm rd rs1 rs2) = encFF 3 fmt (rmBits rm) rd rs1 rs2 := rfl
@[simp] theorem encode_fsqrt {fmt rm rd rs1} : encode (.fsqrt fmt rm rd rs1) = encFF 4 fmt (rmBits rm) rd rs1 0 := rfl
@[simp] theorem encode_fcvtf {fmt rm rd rs1} : encode (.fcvtf fmt rm rd rs1) = encFF 10 fmt (rmBits rm) rd rs1 0 := rfl
@[simp] theorem encode_fround {fmt rm rd rs1} : encode (.fround fmt rm rd rs1) = encFF 16 fmt (rmBits rm) rd rs1 0 := rfl
@[simp] theorem encode_fsgnj {fmt rd rs1 rs2} : encode (.fsgnj fmt rd rs1 rs2) = encFF 5 fmt 0 rd rs1 rs2 := rfl
@[simp] theorem encode_fsgnjN {fmt rd rs1 rs2} : encode (.fsgnjN fmt rd rs1 rs2) = encFF 5 fmt 1 rd rs1 rs2 := rfl
@[simp] theorem encode_fsgnjX {fmt rd rs1 rs2} : encode (.fsgnjX fmt rd rs1 rs2) = encFF 5 fmt 2 rd rs1 rs2 := rfl
@[simp] theorem encode_fmin {fmt rd rs1 rs2} : encode (.fmin fmt rd rs1 rs2) = encFF 6 fmt 0 rd rs1 rs2 := rfl
@[simp] theorem encode_fmax {fmt rd rs1 rs2} : encode (.fmax fmt rd rs1 rs2) = encFF 7 fmt 0 rd rs1 rs2 := rfl
@[simp] theorem encode_fcmpLe {fmt rd rs1 rs2} : encode (.fcmpLe fmt rd rs1 rs2) = encFF 8 fmt 0 rd rs1 rs2 := rfl
@[simp] theorem encode_fcmpLt {fmt rd rs1 rs2} : encode (.fcmpLt fmt rd rs1 rs2) = encFF 8 fmt 1 rd rs1 rs2 := rfl
@[simp] theorem encode_fcmpEq {fmt rd rs1 rs2} : encode (.fcmpEq fmt rd rs1 rs2) = encFF 8 fmt 2 rd rs1 rs2 := rfl
@[simp] theorem encode_fclass {fmt rd rs1} : encode (.fclass fmt rd rs1) = encFF 9 fmt 0 rd rs1 0 := rfl
@[simp] theorem encode_fmvx {fmt rd rs1} : encode (.fmvx fmt rd rs1) = encFF 14 fmt 0 rd rs1 0 := rfl
@[simp] theorem encode_fmvf {fmt rd rs1} : encode (.fmvf fmt rd rs1) = encFF 15 fmt 0 rd rs1 0 := rfl
@[simp] theorem encode_fcvti {fmt ty rm rd rs1} : encode (.fcvti fmt ty rm rd rs1) = encFF 11 fmt (rmBits rm) rd rs1 (intTyBits ty) := rfl
@[simp] theorem encode_fcvtx {fmt ty rm rd rs1} : encode (.fcvtx fmt ty rm rd rs1) = encFF 12 fmt (rmBits rm) rd rs1 (intTyBits ty) := rfl
@[simp] theorem encode_fexp2 {rd rs1} : encode (.fexp2 rd rs1) = encFF 13 .f32 0 rd rs1 0 := rfl
@[simp] theorem encode_fmaddF32 {rm rd rs1 rs2 rs3} : encode (.fmaddF32 rm rd rs1 rs2 rs3) = encFQ 0 rm rd rs1 rs2 rs3 := rfl
@[simp] theorem encode_fmaddF64 {rm rd rs1 rs2 rs3} : encode (.fmaddF64 rm rd rs1 rs2 rs3) = encFQ 1 rm rd rs1 rs2 rs3 := rfl
@[simp] theorem encode_fnmaddF32 {rm rd rs1 rs2 rs3} : encode (.fnmaddF32 rm rd rs1 rs2 rs3) = encFQ 2 rm rd rs1 rs2 rs3 := rfl
@[simp] theorem encode_fnmaddF64 {rm rd rs1 rs2 rs3} : encode (.fnmaddF64 rm rd rs1 rs2 rs3) = encFQ 3 rm rd rs1 rs2 rs3 := rfl
@[simp] theorem encode_lda {dw sc rd rs1} : encode (.lda dw sc rd rs1) = encAT 0 dw 0 sc rd rs1 0 := rfl
@[simp] theorem encode_stl {dw sc rs2 rs1} : encode (.stl dw sc rs2 rs1) = encAT 1 dw 0 sc 0 rs1 rs2 := rfl
@[simp] theorem encode_amoswap {dw ord sc rd rs2 rs1} : encode (.amoswap dw ord sc rd rs2 rs1) = encAT 2 dw (ordBits ord) sc rd rs1 rs2 := rfl
@[simp] theorem encode_amoadd {dw ord sc rd rs2 rs1} : encode (.amoadd dw ord sc rd rs2 rs1) = encAT 3 dw (ordBits ord) sc rd rs1 rs2 := rfl
@[simp] theorem encode_amoand {dw ord sc rd rs2 rs1} : encode (.amoand dw ord sc rd rs2 rs1) = encAT 4 dw (ordBits ord) sc rd rs1 rs2 := rfl
@[simp] theorem encode_amoor {dw ord sc rd rs2 rs1} : encode (.amoor dw ord sc rd rs2 rs1) = encAT 5 dw (ordBits ord) sc rd rs1 rs2 := rfl
@[simp] theorem encode_amoxor {dw ord sc rd rs2 rs1} : encode (.amoxor dw ord sc rd rs2 rs1) = encAT 6 dw (ordBits ord) sc rd rs1 rs2 := rfl
@[simp] theorem encode_amomin {dw ord sc rd rs2 rs1} : encode (.amomin dw ord sc rd rs2 rs1) = encAT 7 dw (ordBits ord) sc rd rs1 rs2 := rfl
@[simp] theorem encode_amomax {dw ord sc rd rs2 rs1} : encode (.amomax dw ord sc rd rs2 rs1) = encAT 8 dw (ordBits ord) sc rd rs1 rs2 := rfl
@[simp] theorem encode_amominu {dw ord sc rd rs2 rs1} : encode (.amominu dw ord sc rd rs2 rs1) = encAT 9 dw (ordBits ord) sc rd rs1 rs2 := rfl
@[simp] theorem encode_amomaxu {dw ord sc rd rs2 rs1} : encode (.amomaxu dw ord sc rd rs2 rs1) = encAT 10 dw (ordBits ord) sc rd rs1 rs2 := rfl
@[simp] theorem encode_amocas {dw ord sc rd rs2 rs1} : encode (.amocas dw ord sc rd rs2 rs1) = encAT 11 dw (ordBits ord) sc rd rs1 rs2 := rfl
@[simp] theorem encode_amofadd {dw ord sc rd rs2 rs1} : encode (.amofadd dw ord sc rd rs2 rs1) = encAT 12 dw (ordBits ord) sc rd rs1 rs2 := rfl
@[simp] theorem encode_fence {o sc} : encode (.fence o sc) = encFB 4 (fenceOrdBits o) 0 (scopeBits sc) 0 0 := rfl
@[simp] theorem encode_barrive {sc rd b rs1} : encode (.barrive sc rd b rs1) = encFB 5 0 b (scopeBits sc) rd rs1 := rfl
@[simp] theorem encode_barwait {sc b rs1} : encode (.barwait sc b rs1) = encFB 6 0 b (scopeBits sc) 0 rs1 := rfl
@[simp] theorem encode_sdrain : encode (.sdrain) = encFB 7 0 0 0 0 0 := rfl
@[simp] theorem encode_tlwait {rd tl rs1} : encode (.tlwait rd tl rs1) = encSY 6 0 rd rs1 (0#1 ++ tl) := rfl
@[simp] theorem encode_tlread {rd tl} : encode (.tlread rd tl) = encSY 6 1 rd 0 (0#1 ++ tl) := rfl
@[simp] theorem encode_tlreadT {rd tl} : encode (.tlreadT rd tl) = encSY 6 2 rd 0 (0#1 ++ tl) := rfl
@[simp] theorem encode_msend {rd rs1 rs2} : encode (.msend rd rs1 rs2) = encSY 6 8 rd rs1 rs2 := rfl
@[simp] theorem encode_mwaitf {rd rt rs1} : encode (.mwaitf rd rt rs1) = encSY 6 9 rd rs1 rt := rfl
@[simp] theorem encode_capdeleg {rd k rs1} : encode (.capdeleg rd k rs1) = encSY 6 16 rd rs1 (0#1 ++ k) := rfl
@[simp] theorem encode_caprevoke {rs1} : encode (.caprevoke rs1) = encSY 6 17 0 rs1 0 := rfl
@[simp] theorem encode_capcheck {rd k rs1} : encode (.capcheck rd k rs1) = encSY 6 18 rd rs1 (0#1 ++ k) := rfl
@[simp] theorem encode_syscall : encode (.syscall) = encSY 0 1 0 0 0 := rfl
@[simp] theorem encode_tret : encode (.tret) = encSY 0 2 0 0 0 := rfl
@[simp] theorem encode_brk : encode (.brk) = encSY 0 3 0 0 0 := rfl
@[simp] theorem encode_yield : encode (.yield) = encSY 0 5 0 0 0 := rfl
@[simp] theorem encode_texit : encode (.texit) = encSY 0 6 0 0 0 := rfl
@[simp] theorem encode_wfe {rd rs1} : encode (.wfe rd rs1) = encSY 0 4 rd rs1 0 := rfl
@[simp] theorem encode_migrate {rs1} : encode (.migrate rs1) = encSY 0 7 0 rs1 0 := rfl
@[simp] theorem encode_srrd {rd r} : encode (.srrd rd r) = encSR 1 r rd 0 := rfl
@[simp] theorem encode_srwr {rd r rs1} : encode (.srwr rd r rs1) = encSR 2 r rd rs1 := rfl
@[simp] theorem encode_srset {rd r rs1} : encode (.srset rd r rs1) = encSR 3 r rd rs1 := rfl
@[simp] theorem encode_srclr {rd r rs1} : encode (.srclr rd r rs1) = encSR 4 r rd rs1 := rfl
@[simp] theorem encode_tlbinv {sc rs1 rs2} : encode (.tlbinv sc rs1 rs2) = encSY 5 (0#4 ++ scopeBits sc) 0 rs1 rs2 := rfl
@[simp] theorem encode_lineopIcinv {sc rs1} : encode (.lineopIcinv sc rs1) = encSY 5 (1#4 ++ scopeBits sc) 0 rs1 0 := rfl
@[simp] theorem encode_lineopZero {rs1} : encode (.lineopZero rs1) = encSY 5 (1#4 ++ 0#3) 0 rs1 1 := rfl
@[simp] theorem encode_lineopClean {rs1} : encode (.lineopClean rs1) = encSY 5 (1#4 ++ 0#3) 0 rs1 2 := rfl
@[simp] theorem encode_pfx {nf sat rm} : encode (.pfx nf sat rm) = some (.word ⟨0, 0, 0#3 ++ bit nf ++ bit sat, rmBits rm, 0, 0x0B⟩) := rfl
@[simp] theorem encode_padd {l rd rs1 rs2} : encode (.padd l rd rs1 rs2) = encPK 0 l rd rs1 rs2 := rfl
@[simp] theorem encode_psub {l rd rs1 rs2} : encode (.psub l rd rs1 rs2) = encPK 1 l rd rs1 rs2 := rfl
@[simp] theorem encode_padds {l rd rs1 rs2} : encode (.padds l rd rs1 rs2) = encPK 2 l rd rs1 rs2 := rfl
@[simp] theorem encode_psubs {l rd rs1 rs2} : encode (.psubs l rd rs1 rs2) = encPK 3 l rd rs1 rs2 := rfl
@[simp] theorem encode_paddus {l rd rs1 rs2} : encode (.paddus l rd rs1 rs2) = encPK 4 l rd rs1 rs2 := rfl
@[simp] theorem encode_psubus {l rd rs1 rs2} : encode (.psubus l rd rs1 rs2) = encPK 5 l rd rs1 rs2 := rfl
@[simp] theorem encode_pmul {l rd rs1 rs2} : encode (.pmul l rd rs1 rs2) = encPK 6 l rd rs1 rs2 := rfl
@[simp] theorem encode_pmulq {l rd rs1 rs2} : encode (.pmulq l rd rs1 rs2) = encPK 7 l rd rs1 rs2 := rfl
@[simp] theorem encode_pmin {l rd rs1 rs2} : encode (.pmin l rd rs1 rs2) = encPK 8 l rd rs1 rs2 := rfl
@[simp] theorem encode_pmax {l rd rs1 rs2} : encode (.pmax l rd rs1 rs2) = encPK 9 l rd rs1 rs2 := rfl
@[simp] theorem encode_psll {l rd rs1 rs2} : encode (.psll l rd rs1 rs2) = encPK 10 l rd rs1 rs2 := rfl
@[simp] theorem encode_psrl {l rd rs1 rs2} : encode (.psrl l rd rs1 rs2) = encPK 11 l rd rs1 rs2 := rfl
@[simp] theorem encode_psra {l rd rs1 rs2} : encode (.psra l rd rs1 rs2) = encPK 12 l rd rs1 rs2 := rfl
@[simp] theorem encode_pssl {l rd rs1 rs2} : encode (.pssl l rd rs1 rs2) = encPK 13 l rd rs1 rs2 := rfl
@[simp] theorem encode_pavg {l rd rs1 rs2} : encode (.pavg l rd rs1 rs2) = encPK 14 l rd rs1 rs2 := rfl
@[simp] theorem encode_pcvt {s d rd rs1} : encode (.pcvt s d rd rs1) = some (.word ⟨1#3 ++ BitVec.ofNat 4 s.code, BitVec.ofNat 5 d.code, rs1, 0, rd, 0x7B⟩) := rfl
@[simp] theorem encode_talloc {rd t rs1} : encode (.talloc rd t rs1) = encTH 0 t rs1 rd := rfl
@[simp] theorem encode_tfree {t} : encode (.tfree t) = encTH 1 t 0 0 := rfl
@[simp] theorem encode_tlockR {t} : encode (.tlockR t) = encTH 2 t 0 0 := rfl
@[simp] theorem encode_tlockW {t} : encode (.tlockW t) = encTH 3 t 0 0 := rfl
@[simp] theorem encode_tunlock {t} : encode (.tunlock t) = encTH 4 t 0 0 := rfl
@[simp] theorem encode_tzero {t} : encode (.tzero t) = encTH 5 t 0 0 := rfl
@[simp] theorem encode_trdx {rd t rs1} : encode (.trdx rd t rs1) = encTH 6 t rs1 rd := rfl
@[simp] theorem encode_twrx {t rs1 rv} : encode (.twrx t rs1 rv) = encTH 7 t rs1 rv := rfl
@[simp] theorem encode_tqueryLo {rd t} : encode (.tqueryLo rd t) = encTH 8 t 0 rd := rfl
@[simp] theorem encode_tqueryHi {rd t} : encode (.tqueryHi rd t) = encTH 9 t 0 rd := rfl
@[simp] theorem encode_tload {rd ta rs1 rs2 tl} : encode (.tload rd ta rs1 rs2 tl) = encW 0 0 tl 0 0 ta 0 rd rs1 rs2 := rfl
@[simp] theorem encode_tstore {rd ta rs1 rs2 tl} : encode (.tstore rd ta rs1 rs2 tl) = encW 0 1 tl 0 0 ta 0 rd rs1 rs2 := rfl
@[simp] theorem encode_tcopyT {rd tb ta rs2 tl} : encode (.tcopyT rd tb ta rs2 tl) = encW 0 2 tl 0 tb ta 0 rd 0 rs2 := rfl
@[simp] theorem encode_tcopyM {rd rdst rs1 rs2 tl} : encode (.tcopyM rd rdst rs1 rs2 tl) = encW 0 3 tl (0#3 ++ rdst) 0 0 0 rd rs1 rs2 := rfl
@[simp] theorem encode_tmma {bank sh za rd ta tb rs1 rs2 tl} : encode (.tmma bank sh za rd ta tb rs1 rs2 tl) = encW 1 0 tl 0 tb ta (bit bank ++ bit sh ++ bit za ++ 0#4) rd rs1 rs2 := rfl
@[simp] theorem encode_taccrd {bank rm sat clr rd tb tl} : encode (.taccrd bank rm sat clr rd tb tl) = encW 1 1 tl 0 tb 0 (bit bank ++ rmBits rm ++ bit sat ++ bit clr ++ 0#1) rd 0 0 := rfl
@[simp] theorem encode_tmma32 {bank rd ta tb rs1 tl} : encode (.tmma32 bank rd ta tb rs1 tl) = encW 1 2 tl 0 tb ta (bit bank ++ 0#6) rd rs1 0 := rfl
@[simp] theorem encode_setvl {rd rs1} : encode (.setvl rd rs1) = encVM 0 7 false rd rs1 0 := rfl
@[simp] theorem encode_setvli {rd imm} : encode (.setvli rd imm) = encVM 1 7 false rd (imm.extractLsb' 0 5) (imm.extractLsb' 5 5) := rfl
@[simp] theorem encode_setshape {rd rs1 rs2} : encode (.setshape rd rs1 rs2) = encVM 2 7 false rd rs1 rs2 := rfl
@[simp] theorem encode_grpset {g rs1 rs2} : encode (.grpset g rs1 rs2) = encVM 3 7 false (0#2 ++ g) rs1 rs2 := rfl
@[simp] theorem encode_vle {m w vd rs1} : encode (.vle m w vd rs1) = encVM 0 (ewBits w) m vd rs1 0 := rfl
@[simp] theorem encode_vse {m w vd rs1} : encode (.vse m w vd rs1) = encVM 1 (ewBits w) m vd rs1 0 := rfl
@[simp] theorem encode_vleff {m w vd rs1} : encode (.vleff m w vd rs1) = encVM 6 (ewBits w) m vd rs1 0 := rfl
@[simp] theorem encode_vlse {m w vd rs1 r2} : encode (.vlse m w vd rs1 r2) = encVM 2 (ewBits w) m vd rs1 r2 := rfl
@[simp] theorem encode_vsse {m w vd rs1 r2} : encode (.vsse m w vd rs1 r2) = encVM 3 (ewBits w) m vd rs1 r2 := rfl
@[simp] theorem encode_vlxe {m w vd rs1 r2} : encode (.vlxe m w vd rs1 r2) = encVM 4 (ewBits w) m vd rs1 r2 := rfl
@[simp] theorem encode_vsxe {m w vd rs1 r2} : encode (.vsxe m w vd rs1 r2) = encVM 5 (ewBits w) m vd rs1 r2 := rfl
@[simp] theorem encode_vadd {m vd vs2 s} : encode (.vadd m vd vs2 s) = encVI 0 m vd vs2 s := rfl
@[simp] theorem encode_vsub {m vd vs2 s} : encode (.vsub m vd vs2 s) = encVI 1 m vd vs2 s := rfl
@[simp] theorem encode_vrsub {m vd vs2 s} : encode (.vrsub m vd vs2 s) = encVI 2 m vd vs2 s := rfl
@[simp] theorem encode_vsadd {m vd vs2 s} : encode (.vsadd m vd vs2 s) = encVI 3 m vd vs2 s := rfl
@[simp] theorem encode_vssub {m vd vs2 s} : encode (.vssub m vd vs2 s) = encVI 4 m vd vs2 s := rfl
@[simp] theorem encode_vsaddu {m vd vs2 s} : encode (.vsaddu m vd vs2 s) = encVI 5 m vd vs2 s := rfl
@[simp] theorem encode_vssubu {m vd vs2 s} : encode (.vssubu m vd vs2 s) = encVI 6 m vd vs2 s := rfl
@[simp] theorem encode_vmul {m vd vs2 s} : encode (.vmul m vd vs2 s) = encVI 7 m vd vs2 s := rfl
@[simp] theorem encode_vmulh {m vd vs2 s} : encode (.vmulh m vd vs2 s) = encVI 8 m vd vs2 s := rfl
@[simp] theorem encode_vmulhu {m vd vs2 s} : encode (.vmulhu m vd vs2 s) = encVI 9 m vd vs2 s := rfl
@[simp] theorem encode_vdiv {m vd vs2 s} : encode (.vdiv m vd vs2 s) = encVI 10 m vd vs2 s := rfl
@[simp] theorem encode_vdivu {m vd vs2 s} : encode (.vdivu m vd vs2 s) = encVI 11 m vd vs2 s := rfl
@[simp] theorem encode_vrem {m vd vs2 s} : encode (.vrem m vd vs2 s) = encVI 12 m vd vs2 s := rfl
@[simp] theorem encode_vremu {m vd vs2 s} : encode (.vremu m vd vs2 s) = encVI 13 m vd vs2 s := rfl
@[simp] theorem encode_vmin {m vd vs2 s} : encode (.vmin m vd vs2 s) = encVI 14 m vd vs2 s := rfl
@[simp] theorem encode_vmax {m vd vs2 s} : encode (.vmax m vd vs2 s) = encVI 15 m vd vs2 s := rfl
@[simp] theorem encode_vminu {m vd vs2 s} : encode (.vminu m vd vs2 s) = encVI 16 m vd vs2 s := rfl
@[simp] theorem encode_vmaxu {m vd vs2 s} : encode (.vmaxu m vd vs2 s) = encVI 17 m vd vs2 s := rfl
@[simp] theorem encode_vand {m vd vs2 s} : encode (.vand m vd vs2 s) = encVI 18 m vd vs2 s := rfl
@[simp] theorem encode_vor {m vd vs2 s} : encode (.vor m vd vs2 s) = encVI 19 m vd vs2 s := rfl
@[simp] theorem encode_vxor {m vd vs2 s} : encode (.vxor m vd vs2 s) = encVI 20 m vd vs2 s := rfl
@[simp] theorem encode_vsll {m vd vs2 s} : encode (.vsll m vd vs2 s) = encVI 21 m vd vs2 s := rfl
@[simp] theorem encode_vsrl {m vd vs2 s} : encode (.vsrl m vd vs2 s) = encVI 22 m vd vs2 s := rfl
@[simp] theorem encode_vsra {m vd vs2 s} : encode (.vsra m vd vs2 s) = encVI 23 m vd vs2 s := rfl
@[simp] theorem encode_vssl {m vd vs2 s} : encode (.vssl m vd vs2 s) = encVI 24 m vd vs2 s := rfl
@[simp] theorem encode_vmseq {m vd vs2 s} : encode (.vmseq m vd vs2 s) = encVI 25 m vd vs2 s := rfl
@[simp] theorem encode_vmsne {m vd vs2 s} : encode (.vmsne m vd vs2 s) = encVI 26 m vd vs2 s := rfl
@[simp] theorem encode_vmslt {m vd vs2 s} : encode (.vmslt m vd vs2 s) = encVI 27 m vd vs2 s := rfl
@[simp] theorem encode_vmsltu {m vd vs2 s} : encode (.vmsltu m vd vs2 s) = encVI 28 m vd vs2 s := rfl
@[simp] theorem encode_vmsle {m vd vs2 s} : encode (.vmsle m vd vs2 s) = encVI 29 m vd vs2 s := rfl
@[simp] theorem encode_vmerge {vd vs2 s} : encode (.vmerge vd vs2 s) = encVI 30 true vd vs2 s := rfl
@[simp] theorem encode_vmv {m vd s} : encode (.vmv m vd s) = encVI 31 m vd 0 s := rfl
@[simp] theorem encode_vfadd {m vd vs2 s} : encode (.vfadd m vd vs2 s) = encVF 32 m vd vs2 s := rfl
@[simp] theorem encode_vfsub {m vd vs2 s} : encode (.vfsub m vd vs2 s) = encVF 33 m vd vs2 s := rfl
@[simp] theorem encode_vfmul {m vd vs2 s} : encode (.vfmul m vd vs2 s) = encVF 34 m vd vs2 s := rfl
@[simp] theorem encode_vfdiv {m vd vs2 s} : encode (.vfdiv m vd vs2 s) = encVF 35 m vd vs2 s := rfl
@[simp] theorem encode_vfmin {m vd vs2 s} : encode (.vfmin m vd vs2 s) = encVF 37 m vd vs2 s := rfl
@[simp] theorem encode_vfmax {m vd vs2 s} : encode (.vfmax m vd vs2 s) = encVF 38 m vd vs2 s := rfl
@[simp] theorem encode_vfma {m vd vs2 s} : encode (.vfma m vd vs2 s) = encVF 39 m vd vs2 s := rfl
@[simp] theorem encode_vfnma {m vd vs2 s} : encode (.vfnma m vd vs2 s) = encVF 40 m vd vs2 s := rfl
@[simp] theorem encode_vmfeq {m vd vs2 s} : encode (.vmfeq m vd vs2 s) = encVF 42 m vd vs2 s := rfl
@[simp] theorem encode_vmflt {m vd vs2 s} : encode (.vmflt m vd vs2 s) = encVF 43 m vd vs2 s := rfl
@[simp] theorem encode_vmfle {m vd vs2 s} : encode (.vmfle m vd vs2 s) = encVF 44 m vd vs2 s := rfl
@[simp] theorem encode_vfsqrt {m vd vs2} : encode (.vfsqrt m vd vs2) = encVA 0x24 0 m vd vs2 0 := rfl
@[simp] theorem encode_vfexp2 {m vd vs2} : encode (.vfexp2 m vd vs2) = encVA 0x29 0 m vd vs2 0 := rfl
@[simp] theorem encode_vfcvtd {m t vd vs2} : encode (.vfcvtd m t vd vs2) = encVA 0x2D 0 m vd vs2 (BitVec.ofNat 5 t.code) := rfl
@[simp] theorem encode_vfcvts {m t vd vs2} : encode (.vfcvts m t vd vs2) = encVA 0x2E 0 m vd vs2 (BitVec.ofNat 5 t.code) := rfl
@[simp] theorem encode_vredsum {m vd vs2 s1} : encode (.vredsum m vd vs2 s1) = encVA 0 5 m vd vs2 s1 := rfl
@[simp] theorem encode_vredmax {m vd vs2 s1} : encode (.vredmax m vd vs2 s1) = encVA 1 5 m vd vs2 s1 := rfl
@[simp] theorem encode_vredmin {m vd vs2 s1} : encode (.vredmin m vd vs2 s1) = encVA 2 5 m vd vs2 s1 := rfl
@[simp] theorem encode_vfredsum {m vd vs2 s1} : encode (.vfredsum m vd vs2 s1) = encVA 3 5 m vd vs2 s1 := rfl
@[simp] theorem encode_vfredmax {m vd vs2 s1} : encode (.vfredmax m vd vs2 s1) = encVA 4 5 m vd vs2 s1 := rfl
@[simp] theorem encode_vscan {m vd vs2 s1} : encode (.vscan m vd vs2 s1) = encVA 5 5 m vd vs2 s1 := rfl
@[simp] theorem encode_vslideup {m vd vs2 s1} : encode (.vslideup m vd vs2 s1) = encVA 8 5 m vd vs2 s1 := rfl
@[simp] theorem encode_vslidedown {m vd vs2 s1} : encode (.vslidedown m vd vs2 s1) = encVA 9 5 m vd vs2 s1 := rfl
@[simp] theorem encode_vrgather {m vd vs2 s1} : encode (.vrgather m vd vs2 s1) = encVA 10 5 m vd vs2 s1 := rfl
@[simp] theorem encode_vcompress {vd vs2} : encode (.vcompress vd vs2) = encVA 11 5 true vd vs2 0 := rfl
@[simp] theorem encode_vextx {rd vs2 rs1} : encode (.vextx rd vs2 rs1) = encVA 12 5 false rd vs2 rs1 := rfl
@[simp] theorem encode_vinsx {vd rs1} : encode (.vinsx vd rs1) = encVA 13 5 false vd 0 rs1 := rfl
@[simp] theorem encode_vmand {m vd vs2 vs1} : encode (.vmand m vd vs2 vs1) = encVA 0 6 m vd vs2 vs1 := rfl
@[simp] theorem encode_vmandn {m vd vs2 vs1} : encode (.vmandn m vd vs2 vs1) = encVA 1 6 m vd vs2 vs1 := rfl
@[simp] theorem encode_vmor {m vd vs2 vs1} : encode (.vmor m vd vs2 vs1) = encVA 2 6 m vd vs2 vs1 := rfl
@[simp] theorem encode_vmxor {m vd vs2 vs1} : encode (.vmxor m vd vs2 vs1) = encVA 3 6 m vd vs2 vs1 := rfl
@[simp] theorem encode_vmpopc {m rd vs2} : encode (.vmpopc m rd vs2) = encVA 4 6 m rd vs2 0 := rfl
@[simp] theorem encode_vmfirst {m rd vs2} : encode (.vmfirst m rd vs2) = encVA 5 6 m rd vs2 0 := rfl
@[simp] theorem encode_vdot4 {m vd vs2 vs1} : encode (.vdot4 m vd vs2 vs1) = encVA 0x30 0 m vd vs2 vs1 := rfl
@[simp] theorem encode_ldpairw {vd rs1} : encode (.ldpairw vd rs1) = encW 3 0 0 0 0 0 0 vd rs1 0 := rfl
@[simp] theorem encode_mmodeOn : encode (.mmodeOn) = encVA 0 4 false 0 0 0 := rfl
@[simp] theorem encode_mmodeOff : encode (.mmodeOff) = encVA 1 4 false 0 0 0 := rfl
@[simp] theorem encode_vopaBf16 {m va vb} : encode (.vopaBf16 m va vb) = encVA 2 4 m 0 va vb := rfl
@[simp] theorem encode_vopaF16 {m va vb} : encode (.vopaF16 m va vb) = encVA 3 4 m 0 va vb := rfl
@[simp] theorem encode_vopaE4m3 {m va vb} : encode (.vopaE4m3 m va vb) = encVA 4 4 m 0 va vb := rfl
@[simp] theorem encode_vopaE5m2 {m va vb} : encode (.vopaE5m2 m va vb) = encVA 5 4 m 0 va vb := rfl
@[simp] theorem encode_vaccz : encode (.vaccz) = encVA 6 4 false 0 0 0 := rfl
@[simp] theorem encode_vsmx {m vd vs2 fa} : encode (.vsmx m vd vs2 fa) = encVA 8 4 m vd vs2 fa := rfl
@[simp] theorem encode_vcollSum {f vd vs g} : encode (.vcollSum f vd vs g) = encColl 8 f g vd vs 0 := rfl
@[simp] theorem encode_vcollMax {f vd vs g} : encode (.vcollMax f vd vs g) = encColl 9 f g vd vs 0 := rfl
@[simp] theorem encode_vcollMin {f vd vs g} : encode (.vcollMin f vd vs g) = encColl 10 f g vd vs 0 := rfl
@[simp] theorem encode_vcollSmerge {vd vs g xd} : encode (.vcollSmerge vd vs g xd) = encColl 11 false g vd vs xd := rfl
@[simp] theorem encode_vcollGather {vd vs g} : encode (.vcollGather vd vs g) = encColl 12 false g vd vs 0 := rfl
@[simp] theorem encode_vcollScatter {vd vs g xr} : encode (.vcollScatter vd vs g xr) = encColl 13 false g vd vs xr := rfl
@[simp] theorem encode_vcollBcast {vd vs g xr} : encode (.vcollBcast vd vs g xr) = encColl 14 false g vd vs xr := rfl

end Sys2Proof
end

