-- ==== Sys2Proof/Laws/Lines.lean ====
section
/-! SUPPORT. The committed bytes: what the movements of lines between the L2, the LLC and memory leave, and that every operation keeps memory's
canonical form. -/

namespace Sys2Proof.Machine

/-! Masked bytes. -/

/-- Masked bytes from their head and their tail. -/
theorem rising_cons {lo : Option Nat} {k : Nat} {b : Byte} {m : Cells} (h1 : aboveBound lo k) (h3 : risingAbove (some k) m = true) :
    risingAbove lo ((k, b) :: m) = true := by
  simp only [risingAbove, Bool.and_eq_true]
  refine ⟨?_, h3⟩
  cases lo with
  | none => rfl
  | some l => simpa using h1 l rfl

/-- The bound of rising bytes. -/
theorem rising_bound {lo : Option Nat} {k : Nat} {b : Byte} {m : Cells} (h : risingAbove lo ((k, b) :: m) = true) :
    aboveBound lo k ∧ risingAbove (some k) m = true := by
  simp only [risingAbove, Bool.and_eq_true] at h
  refine ⟨?_, h.2⟩
  intro l hl
  subst hl
  simpa using h.1

/-- A lower bound serves as well. -/
theorem rising_weaken {k : Nat} {m : Cells} (lo : Option Nat) (h : risingAbove (some k) m = true) (hk : aboveBound lo (k + 1)) :
    risingAbove lo m = true := by
  cases m with
  | nil => rfl
  | cons c rest =>
    obtain ⟨h1, h3⟩ := rising_bound h
    exact rising_cons (fun l hl => by have := hk l hl; have := h1 k rfl; omega) h3

/-- A byte put under the mask keeps the form. -/
theorem maskPut_above {a : Nat} {b : Byte} : ∀ {m : Cells} {lo : Option Nat}, risingAbove lo m = true → aboveBound lo a →
    risingAbove lo (maskPut m a b) = true := by
  intro m
  induction m with
  | nil => intro lo _ ha; exact rising_cons ha rfl
  | cons c rest ih =>
    intro lo h ha
    obtain ⟨h1, h3⟩ := rising_bound h
    simp only [maskPut]
    split
    · exact rising_cons ha (rising_cons (fun l hl => by cases hl; assumption) h3)
    · split
      · subst_vars
        exact rising_cons h1 h3
      · exact rising_cons h1 (ih h3 fun l hl => by cases hl; omega)

/-- A byte put under the mask keeps the form. -/
theorem maskPut_rising {m : Cells} {a : Nat} {b : Byte} (h : m.rising = true) : (maskPut m a b).rising = true :=
  maskPut_above h fun _ hl => by cases hl

/-- Cells put under the mask keep the form. -/
theorem maskPutAll_rising : ∀ {cs m : Cells}, m.rising = true → (maskPutAll m cs).rising = true := by
  intro cs
  induction cs with
  | nil => intro m h; exact h
  | cons c cs ih => intro m h; exact ih (m := maskPut m c.1 c.2) (maskPut_rising h)

/-- Some of the cells keep the form. -/
theorem rising_filter {p : Host.Cell → Bool} : ∀ {m : Cells} {lo : Option Nat}, risingAbove lo m = true → risingAbove lo (m.filter p) = true := by
  intro m
  induction m with
  | nil => intro lo h; exact h
  | cons c rest ih =>
    intro lo h
    obtain ⟨h1, h3⟩ := rising_bound h
    rw [List.filter_cons]
    split
    · exact rising_cons h1 (ih h3)
    · exact rising_weaken lo (ih h3) fun l hl => by have := h1 l hl; omega

/-- Nothing lies at or below the bound of rising bytes. -/
theorem maskGet_below {a : Nat} : ∀ {m : Cells} {k : Nat}, risingAbove (some k) m = true → a ≤ k → maskGet m a = none := by
  intro m
  induction m with
  | nil => intros; rfl
  | cons c rest ih =>
    intro k h ha
    obtain ⟨h1, h3⟩ := rising_bound h
    have := h1 k rfl
    rw [maskGet, if_neg (by omega)]
    exact ih h3 (by omega)

/-- A masked byte of some of the cells, chosen by address. -/
theorem maskGet_filter {p : Nat → Bool} {m : Cells} (a : Nat) : maskGet (m.filter fun c => p c.1) a = if p a then maskGet m a else none := by
  induction m with
  | nil => simp [maskGet]
  | cons c rest ih =>
    rw [List.filter_cons]
    by_cases hc : p c.1 = true
    · rw [if_pos hc]
      simp only [maskGet, ih]
      by_cases ha : c.1 = a
      · subst ha; simp [hc]
      · simp [ha]
    · rw [if_neg hc, ih]
      simp only [maskGet]
      by_cases ha : c.1 = a
      · subst ha; simp [hc]
      · simp [ha]

/-- Cells put under the mask: the cells' bytes first. -/
theorem maskGet_putAll {a : Nat} : ∀ {cs m : Cells}, cs.rising = true → maskGet (maskPutAll m cs) a = (maskGet cs a).or (maskGet m a) := by
  intro cs
  suffices H : ∀ {lo : Option Nat} {m : Cells}, risingAbove lo cs = true → maskGet (maskPutAll m cs) a = (maskGet cs a).or (maskGet m a) from
    fun m h => H h
  induction cs with
  | nil => intro lo m _; simp [maskPutAll, maskGet]
  | cons c cs ih =>
    intro lo m h
    obtain ⟨_, h3⟩ := rising_bound h
    show maskGet (maskPutAll (maskPut m c.1 c.2) cs) a = _
    rw [ih h3, maskGet_put]
    simp only [maskGet]
    by_cases hc : c.1 = a
    · subst hc
      rw [maskGet_below h3 (Nat.le_refl _)]
      simp
    · have hc' : ¬a = c.1 := fun e => hc e.symm
      simp [hc, hc']

/-- Cells written to memory: the cells' bytes first. -/
theorem cellGet_putAll {d : Byte} {a : Nat} : ∀ {cs m : Cells}, cs.rising = true → m.wf d = true →
    cellGet d (cs.foldl (fun mm c => cellPut d mm c.1 c.2) m) a = (maskGet cs a).getD (cellGet d m a) := by
  intro cs
  suffices H : ∀ {lo : Option Nat} {m : Cells}, risingAbove lo cs = true → m.wf d = true →
      cellGet d (cs.foldl (fun mm c => cellPut d mm c.1 c.2) m) a = (maskGet cs a).getD (cellGet d m a) from fun m h => H h
  induction cs with
  | nil => intro lo m _ _; simp [maskGet]
  | cons c cs ih =>
    intro lo m h hm
    obtain ⟨_, h3⟩ := rising_bound h
    rw [List.foldl_cons, ih h3 (cellPut_wf hm), cellGet_put hm]
    simp only [maskGet]
    by_cases hc : c.1 = a
    · subst hc
      rw [maskGet_below h3 (Nat.le_refl _)]
      simp
    · have hc' : ¬a = c.1 := fun e => hc e.symm
      simp [hc, hc']

/-- Cells written to memory keep the canonical form. -/
theorem cellPutAll_wf {d : Byte} : ∀ {cs m : Cells}, m.wf d = true → (cs.foldl (fun mm c => cellPut d mm c.1 c.2) m).wf d = true := by
  intro cs
  induction cs with
  | nil => intro m h; exact h
  | cons c cs ih => intro m h; exact ih (cellPut_wf h)

/-! Lines. -/

/-- The parts of the canonical form. -/
theorem memory_wf {m : MemSys} : Memory.wf m = true ↔
    m.mem.wf 0 = true ∧ m.llc.rising = true ∧ m.l2d.rising = true ∧ ∀ c ∈ m.llc, regionOf c.1 = 0 := by
  simp [Memory.wf, and_assoc]

/-- An operation that leaves memory, the LLC and the L2's bytes keeps the form. -/
theorem memory_wf_congr {m n : MemSys} (h1 : n.mem = m.mem) (h2 : n.llc = m.llc) (h3 : n.l2d = m.l2d) : Memory.wf n = Memory.wf m := by
  simp [Memory.wf, h1, h2, h3]

/-- The held byte depends on memory, the LLC and the L2's bytes. -/
theorem heldByte_congr {m n : MemSys} (h1 : n.mem = m.mem) (h2 : n.llc = m.llc) (h3 : n.l2d = m.l2d) (a : Nat) : heldByte n a = heldByte m a := by
  simp [heldByte, h1, h2, h3]

/-- The addresses of a line lie in its region. -/
theorem regionOf_line {line a : Nat} (h1 : line * 128 ≤ a) (h2 : a < line * 128 + 128) : regionOf a = regionOf (line * 128) := by
  have h : a / 2 ^ 50 = line * 128 / 2 ^ 50 := by omega
  simp only [regionOf, bitsAt, h]

/-- A list of cells of a range holds no others. -/
theorem mem_cellsIn {m : Cells} {lo n : Nat} {c : Host.Cell} (h : c ∈ cellsIn m lo n) : lo ≤ c.1 ∧ c.1 < lo + n := by
  have := (List.mem_filter.mp h).2
  simpa using this

/-- The cells that a masked put makes are its cell and the old ones. -/
theorem mem_maskPut {m : Cells} {a : Nat} {b : Byte} {c : Host.Cell} (h : c ∈ maskPut m a b) : c = (a, b) ∨ c ∈ m := by
  induction m with
  | nil => left; simpa [maskPut] using h
  | cons d rest ih =>
    simp only [maskPut] at h
    split at h
    · simpa using h
    · split at h
      · rcases List.mem_cons.mp h with h | h
        · exact .inl h
        · exact .inr (List.mem_cons_of_mem _ h)
      · rcases List.mem_cons.mp h with h | h
        · exact .inr (h ▸ List.mem_cons_self)
        · rcases ih h with h | h
          · exact .inl h
          · exact .inr (List.mem_cons_of_mem _ h)

/-- The cells of masked bytes with others put. -/
theorem mem_maskPutAll {c : Host.Cell} : ∀ {cs m : Cells}, c ∈ maskPutAll m cs → c ∈ cs ∨ c ∈ m := by
  intro cs
  induction cs with
  | nil => intro m h; exact .inr h
  | cons d cs ih =>
    intro m h
    rcases ih (m := maskPut m d.1 d.2) h with h | h
    · exact .inl (List.mem_cons_of_mem _ h)
    · rcases mem_maskPut h with h | h
      · exact .inl (h ▸ List.mem_cons_self)
      · exact .inr h

/-- The masked bytes that a region's rule keeps out. -/
theorem maskGet_none {m : Cells} {a : Nat} (h : ∀ c ∈ m, c.1 ≠ a) : maskGet m a = none := by
  induction m with
  | nil => rfl
  | cons c rest ih =>
    rw [maskGet, if_neg (h c List.mem_cons_self)]
    exact ih fun d hd => h d (List.mem_cons_of_mem _ hd)

/-- A masked byte of the cells of a line. -/
theorem maskGet_cellsIn (m : Cells) (lo n a : Nat) : maskGet (cellsIn m lo n) a = if lo ≤ a ∧ a < lo + n then maskGet m a else none := by
  have := maskGet_filter (p := fun k => decide (lo ≤ k) && decide (k < lo + n)) (m := m) a
  simpa [cellsIn] using this

/-- A masked byte of the cells that a line leaves. -/
theorem maskGet_cellsDrop (m : Cells) (lo n a : Nat) : maskGet (cellsDrop m lo n) a = if lo ≤ a ∧ a < lo + n then none else maskGet m a := by
  have := maskGet_filter (p := fun k => decide (k < lo) || decide (lo + n ≤ k)) (m := m) a
  simp only [cellsDrop, Bool.or_eq_true, decide_eq_true_eq] at this ⊢
  rw [this]
  split <;> split <;> first | rfl | omega

/-! Movements. -/

/-- A movement of lines changes where bytes are held, and no byte: what the L2, the LLC and memory do among themselves (R72, R77). -/
structure Moves (m n : MemSys) : Prop where
  wf : Memory.wf m = true → Memory.wf n = true
  held : Memory.wf m = true → ∀ a, heldByte n a = heldByte m a
  lineKey : n.lineKey = m.lineKey
  prov : n.prov = m.prov
  wtq : n.wtq = m.wtq
  ecc : n.ecc = m.ecc
  l1d : n.l1d = m.l1d
  gath : n.gath = m.gath
  posted : n.posted = m.posted
  sfq : n.sfq = m.sfq
  l1i : n.l1i = m.l1i

theorem Moves.refl (m : MemSys) : Moves m m := ⟨id, fun _ _ => rfl, rfl, rfl, rfl, rfl, rfl, rfl, rfl, rfl, rfl⟩

theorem Moves.trans {m n o : MemSys} (h : Moves m n) (g : Moves n o) : Moves m o :=
  ⟨fun w => g.wf (h.wf w), fun w a => by rw [g.held (h.wf w), h.held w], g.lineKey.trans h.lineKey, g.prov.trans h.prov, g.wtq.trans h.wtq,
   g.ecc.trans h.ecc, g.l1d.trans h.l1d, g.gath.trans h.gath, g.posted.trans h.posted, g.sfq.trans h.sfq, g.l1i.trans h.l1i⟩

/-- A change of the lists of copies and of their poison only. -/
theorem Moves.lists (m : MemSys) (l : List L2Line) (k : List Nat) (f : List (Held × Nat)) : Moves m { m with l2 := l, llcl := k, poison := f } :=
  ⟨fun w => by rw [memory_wf_congr (m := m)] <;> first | exact w | rfl, fun _ _ => heldByte_congr rfl rfl rfl _, rfl, rfl, rfl, rfl, rfl, rfl, rfl, rfl, rfl⟩

theorem Moves.l2 (m : MemSys) (l : List L2Line) : Moves m { m with l2 := l } := .lists m l m.llcl m.poison

theorem Moves.llcl (m : MemSys) (k : List Nat) : Moves m { m with llcl := k } := .lists m m.l2 k m.poison

theorem setFlag_moves (m : MemSys) (h : Held) (line : Nat) (bad : Bool) : Moves m (setFlag m h line bad) := .lists m m.l2 m.llcl _

theorem dropFlagsL2_moves (m : MemSys) (line : Nat) : Moves m (dropFlagsL2 m line) := .lists m m.l2 m.llcl _

/-- Movements one after another. -/
theorem Moves.foldl {α : Type} {f : MemSys → α → MemSys} (h : ∀ m x, Moves m (f m x)) : ∀ (l : List α) (m : MemSys), Moves m (l.foldl f m)
  | [], m => .refl m
  | x :: l, m => (h m x).trans (Moves.foldl h l (f m x))

/-- A line's dirty bytes moved from the LLC to memory change no byte. -/
theorem moveLlc_moves (m : MemSys) (line : Nat) : Moves m (moveLlc m line) := by
  refine ⟨?_, ?_, rfl, rfl, rfl, rfl, rfl, rfl, rfl, rfl, rfl⟩
  · intro h
    obtain ⟨h1, h2, h3, h4⟩ := memory_wf.mp h
    exact memory_wf.mpr ⟨cellPutAll_wf h1, rising_filter h2, h3, fun c hc => h4 c (List.mem_filter.mp hc).1⟩
  · intro h a
    obtain ⟨h1, h2, _, _⟩ := memory_wf.mp h
    have hcs : (cellsIn m.llc (line * 128) 128).rising = true := rising_filter h2
    simp only [heldByte, moveLlc, maskGet_cellsDrop, cellGet_putAll hcs h1, maskGet_cellsIn]
    by_cases hr : line * 128 ≤ a ∧ a < line * 128 + 128
    · simp only [if_pos hr]
      cases maskGet m.l2d a <;> cases maskGet m.llc a <;> rfl
    · simp only [if_neg hr]
      cases maskGet m.l2d a <;> cases maskGet m.llc a <;> rfl

/-- A line's bytes moved from an L2 change no byte. -/
theorem moveL2_moves (m : MemSys) (line : Nat) : Moves m (moveL2 m line) := by
  refine ⟨?_, ?_, ?_, ?_, ?_, ?_, ?_, ?_, ?_, ?_, ?_⟩
  · intro h
    obtain ⟨h1, h2, h3, h4⟩ := memory_wf.mp h
    unfold moveL2
    dsimp only
    split
    · rename_i hr
      refine memory_wf.mpr ⟨h1, maskPutAll_rising h2, rising_filter h3, ?_⟩
      intro c hc
      rcases mem_maskPutAll hc with hc | hc
      · have := mem_cellsIn hc
        rw [regionOf_line this.1 this.2]
        exact hr
      · exact h4 c hc
    · exact memory_wf.mpr ⟨cellPutAll_wf h1, h2, rising_filter h3, h4⟩
  · intro h a
    obtain ⟨h1, h2, h3, h4⟩ := memory_wf.mp h
    have hcs : (cellsIn m.l2d (line * 128) 128).rising = true := rising_filter h3
    unfold moveL2
    dsimp only
    split
    · simp only [heldByte, maskGet_cellsDrop, maskGet_putAll hcs, maskGet_cellsIn]
      by_cases hr : line * 128 ≤ a ∧ a < line * 128 + 128
      · simp only [if_pos hr]
        cases maskGet m.l2d a <;> rfl
      · simp only [if_neg hr]
        cases maskGet m.l2d a <;> rfl
    · rename_i hreg
      simp only [heldByte, maskGet_cellsDrop, cellGet_putAll hcs h1, maskGet_cellsIn]
      by_cases hr : line * 128 ≤ a ∧ a < line * 128 + 128
      · have hl : maskGet m.llc a = none := maskGet_none fun c hc e => by
          apply hreg
          rw [← regionOf_line hr.1 hr.2, ← e]
          exact h4 c hc
        simp only [if_pos hr, hl]
        cases maskGet m.l2d a <;> rfl
      · simp only [if_neg hr]
        cases maskGet m.l2d a <;> rfl
  all_goals (unfold moveL2; dsimp only; split <;> rfl)

theorem llcClean_moves (m : MemSys) (line : Nat) : Moves m (llcClean m line) := by
  unfold llcClean
  split
  · exact .refl m
  · exact (setFlag_moves _ _ _ _).trans (moveLlc_moves _ _)

theorem llcEvict_moves (m : MemSys) (line : Nat) : Moves m (llcEvict m line) :=
  ((llcClean_moves m line).trans (setFlag_moves _ _ _ _)).trans (.llcl _ _)

theorem llcTouch_moves (m : MemSys) (line : Nat) : Moves m (llcTouch m line) := by
  unfold llcTouch
  split
  · exact .refl m
  · split
    · exact .llcl _ _
    · exact (Moves.foldl llcEvict_moves _ m).trans (.llcl _ _)

theorem llcRead_moves (m : MemSys) (line : Nat) : Moves m (llcRead m line) := by
  unfold llcRead
  split
  · exact llcTouch_moves m line
  · exact (llcTouch_moves m line).trans (setFlag_moves _ _ _ _)

/-- A write-back moves a line's bytes and changes none (R77). -/
theorem writeBackL2_moves (m : MemSys) (line : Nat) : Moves m (writeBackL2 m line) := by
  unfold writeBackL2
  refine Moves.trans ?_ (moveL2_moves _ line)
  split
  · exact .refl m
  · dsimp only
    split
    · exact (llcTouch_moves m line).trans (setFlag_moves _ _ _ _)
    · exact setFlag_moves _ _ _ _

/-- A clean moves a line to memory and changes no byte (R243). -/
theorem cleanLine_moves (m : MemSys) (line : Nat) : Moves m (cleanLine m line) :=
  ((writeBackL2_moves m line).trans (llcClean_moves _ line)).trans (.l2 _ _)

theorem homeInval_moves (m : MemSys) (line : Nat) : Moves m (homeInval m line) :=
  (((writeBackL2_moves m line).trans (llcRead_moves _ line)).trans (dropFlagsL2_moves _ line)).trans (.l2 _ _)

theorem dirRoom_moves (m : MemSys) (line : Nat) : Moves m (dirRoom m line) := by
  unfold dirRoom
  split
  · exact .refl m
  · exact Moves.foldl homeInval_moves _ m

theorem dropL2_moves (m : MemSys) (die line : Nat) : Moves m (dropL2 m die line) := by
  unfold dropL2
  dsimp only
  refine Moves.trans (Moves.trans ?_ (setFlag_moves _ _ _ _)) (.l2 _ _)
  split
  · exact writeBackL2_moves m line
  · exact .refl m

theorem trimL2_moves (m : MemSys) (die : Nat) : Moves m (trimL2 m die) := Moves.foldl (fun m l => dropL2_moves m die l) _ m

theorem roomL2_moves (m : MemSys) (die line : Nat) : Moves m (roomL2 m die line) :=
  Moves.foldl (fun m (e : L2Line) => dropL2_moves m die e.line) _ m

theorem homeFetch_moves (m : MemSys) (line : Nat) : Moves m (homeFetch m line) :=
  ((writeBackL2_moves m line).trans (dirRoom_moves _ line)).trans (llcRead_moves _ line)

theorem l2Share_moves (m : MemSys) (die line : Nat) : Moves m (l2Share m die line) := by
  unfold l2Share
  split
  · exact .l2 _ _
  · dsimp only
    exact ((((homeFetch_moves m line).trans (.l2 _ _)).trans (roomL2_moves _ _ _)).trans (.l2 _ _)).trans (setFlag_moves _ _ _ _)

theorem l2Own_moves (m : MemSys) (die line : Nat) : Moves m (l2Own m die line) := by
  unfold l2Own
  split
  · exact .l2 _ _
  · dsimp only
    refine Moves.trans ?_ (setFlag_moves _ _ _ _)
    refine Moves.trans ?_ (.l2 _ _)
    refine Moves.trans ?_ (roomL2_moves _ _ _)
    refine Moves.trans ?_ (dropFlagsL2_moves _ _)
    refine Moves.trans ?_ (.l2 _ _)
    split
    · exact .refl m
    · exact homeFetch_moves m line

theorem homeOnly_moves (m : MemSys) (line : Nat) : Moves m (homeOnly m line) := (cleanLine_moves m line).trans (.lists _ _ _ _)

/-- The bytes of a block read alike wherever a movement has put them. -/
theorem Moves.block {m n : MemSys} (h : Moves m n) (w : Memory.wf m = true) (b : Nat) : heldBlock n b = heldBlock m b := by
  simp only [heldBlock, h.held w]

/-- A movement leaves every byte that a reader sees, in every view and under every key. -/
theorem Moves.comm {m n : MemSys} (h : Moves m n) (w : Memory.wf m = true) (key : Option KeyTag) (a : Nat) : commByte n key a = commByte m key a := by
  simp only [commByte, h.held w, h.block w, h.lineKey]

theorem Moves.view {m n : MemSys} (h : Moves m n) (w : Memory.wf m = true) (view : Option Nat) (key : Option KeyTag) (a : Nat) :
    viewByte n view key a = viewByte m view key a := by
  simp only [viewByte, provByte, h.comm w, h.prov]

/-! Writes. -/

/-- An entry set in an association list. -/
theorem look_assoc {κ α : Type} [DecidableEq κ] (l : List (κ × α)) (k k' : κ) (v : α) : look (assoc l k v) k' = if k' = k then some v else look l k' := by
  induction l with
  | nil => by_cases h : k' = k <;> simp [assoc, look, h, eq_comm] <;> intro e <;> exact absurd e.symm h
  | cons c rest ih =>
    simp only [assoc]
    split
    · rename_i hc
      simp only [look]
      by_cases h : k' = k
      · simp [h]
      · have h' : ¬k = k' := fun e => h e.symm
        have h2 : ¬c.1 = k' := by rw [hc]; exact h'
        simp [h, h', h2]
    · rename_i hc
      simp only [look, ih]
      by_cases h : k' = k
      · subst h; simp [hc]
      · simp [h]

/-- A byte put in memory keeps the form. -/
theorem putMem_wf {m : MemSys} {a : Nat} {b : Byte} (h : Memory.wf m = true) : Memory.wf (putMem m a b) = true := by
  obtain ⟨h1, h2, h3, h4⟩ := memory_wf.mp h
  exact memory_wf.mpr ⟨cellPut_wf h1, h2, h3, h4⟩

/-- A byte put in the L2 keeps the form. -/
theorem putL2d_wf {m : MemSys} {a : Nat} {b : Byte} (h : Memory.wf m = true) : Memory.wf (putL2d m a b) = true := by
  obtain ⟨h1, h2, h3, h4⟩ := memory_wf.mp h
  exact memory_wf.mpr ⟨h1, h2, maskPut_rising h3, h4⟩

/-- A byte put in the LLC keeps the form, in region 00. -/
theorem putLlc_wf {m : MemSys} {a : Nat} {b : Byte} (hr : regionOf a = 0) (h : Memory.wf m = true) : Memory.wf (putLlc m a b) = true := by
  obtain ⟨h1, h2, h3, h4⟩ := memory_wf.mp h
  refine memory_wf.mpr ⟨h1, maskPut_rising h2, h3, fun c hc => ?_⟩
  rcases mem_maskPut hc with hc | hc
  · rw [hc]; exact hr
  · exact h4 c hc

/-- A block rekeyed keeps the form. -/
theorem rekeyBlock_wf {m : MemSys} {key : Option KeyTag} {block : Nat} {put : MemSys → Nat → Byte → MemSys}
    (hp : ∀ m a b, blockOf a = block → Memory.wf m = true → Memory.wf (put m a b) = true) (h : Memory.wf m = true) :
    Memory.wf (rekeyBlock m key block put) = true := by
  have hf : ∀ (l : List Nat) (n : MemSys), (∀ o ∈ l, o < 16) → Memory.wf n = true →
      Memory.wf (l.foldl (fun mm o => put mm (block * 16 + o) (commByte m key (block * 16 + o))) n) = true := by
    intro l
    induction l with
    | nil => intro n _ hn; exact hn
    | cons o l ih =>
      intro n hl hn
      have := hl o List.mem_cons_self
      exact ih _ (fun p hp => hl p (List.mem_cons_of_mem _ hp)) (hp _ _ _ (by simp only [blockOf]; omega) hn)
  unfold rekeyBlock
  split
  · exact h
  · dsimp only
    split
    · exact h
    · split
      · exact h
      · exact hf _ _ (fun o ho => List.mem_range.mp ho) h

/-- Committed bytes written keep the form. -/
theorem commWrite_wf {die : Nat} {key : Option KeyTag} : ∀ {cs : Cells} {m : MemSys}, Memory.wf m = true → Memory.wf (commWrite m die key cs) = true := by
  intro cs
  induction cs with
  | nil => intro m h; exact h
  | cons c cs ih =>
    intro m h
    exact ih (putL2d_wf (rekeyBlock_wf (fun _ _ _ _ => putL2d_wf) ((l2Own_moves m die (lineOf c.1)).wf h)))

/-- Bytes written at the home keep the form. -/
theorem homeWrite_wf {key : Option KeyTag} : ∀ {cs : Cells} {m : MemSys}, Memory.wf m = true → Memory.wf (homeWrite m key cs) = true := by
  intro cs
  induction cs with
  | nil => intro m h; exact h
  | cons c cs ih =>
    intro m h
    exact ih (putMem_wf (rekeyBlock_wf (fun _ _ _ _ => putMem_wf) ((homeOnly_moves m (lineOf c.1)).wf h)))

/-- Bytes of region 00 written in the LLC keep the form. -/
theorem llcWrite_wf {key : Option KeyTag} : ∀ {cs : Cells} {m : MemSys}, (∀ c ∈ cs, regionOf c.1 = 0) → Memory.wf m = true →
    Memory.wf (llcWrite m key cs) = true := by
  intro cs
  induction cs with
  | nil => intro m _ h; exact h
  | cons c cs ih =>
    intro m hc h
    have hr := hc c List.mem_cons_self
    have hb : ∀ a, blockOf a = blockOf c.1 → regionOf a = 0 := by
      intro a ha
      rw [← hr]
      simp only [blockOf] at ha
      simp only [regionOf, bitsAt]
      omega
    exact ih (fun d hd => hc d (List.mem_cons_of_mem _ hd))
      (putLlc_wf hr (rekeyBlock_wf (fun _ a _ ha => putLlc_wf (hb a ha)) ((homeInval_moves m (lineOf c.1)).wf h)))

/-- Committed cells of a die keep the form. -/
theorem commitCells_wf {m : MemSys} {die : Nat} {key : Option KeyTag} {cs : Cells} {whole : Bool} (h : Memory.wf m = true) :
    Memory.wf (commitCells m die key cs whole) = true := by
  unfold commitCells
  dsimp only
  split
  · exact (Moves.foldl (fun m l => setFlag_moves m _ l _) _ _).wf (commWrite_wf h)
  · exact commWrite_wf h

/-! What a write leaves. -/

/-- No byte of a line is held in the L2 or the LLC. -/
def Unmasked (m : MemSys) (line : Nat) : Prop := ∀ a, lineOf a = line → maskGet m.l2d a = none ∧ maskGet m.llc a = none

/-- A line's bytes gone from masked bytes. -/
theorem cellsDrop_line (c : Cells) {a line : Nat} (ha : lineOf a = line) : maskGet (cellsDrop c (line * 128) 128) a = none := by
  rw [maskGet_cellsDrop, if_pos]
  simp only [lineOf] at ha
  omega

/-- A move from an L2 leaves none of the line's bytes there. -/
theorem moveL2_l2d (m : MemSys) (line : Nat) : (moveL2 m line).l2d = cellsDrop m.l2d (line * 128) 128 := by unfold moveL2; dsimp only; split <;> rfl

/-- The LLC's bytes of a line moved to memory leave the L2's, and none of the line's in the LLC. -/
theorem llcClean_masks (m : MemSys) (line : Nat) : (llcClean m line).l2d = m.l2d ∧ ∀ a, lineOf a = line → maskGet (llcClean m line).llc a = none := by
  unfold llcClean
  split
  · rename_i h
    refine ⟨rfl, fun a ha => ?_⟩
    have := maskGet_cellsIn m.llc (line * 128) 128 a
    rw [List.isEmpty_iff.mp h, if_pos (by simp only [lineOf] at ha; omega)] at this
    exact this.symm
  · exact ⟨rfl, fun a ha => cellsDrop_line _ ha⟩

/-- After a clean, a line is held in memory alone. -/
theorem cleanLine_unmasked (m : MemSys) (line : Nat) : Unmasked (cleanLine m line) line := by
  obtain ⟨h1, h2⟩ := llcClean_masks (writeBackL2 m line) line
  intro a ha
  refine ⟨?_, h2 a ha⟩
  show maskGet (llcClean (writeBackL2 m line) line).l2d a = none
  rw [h1, writeBackL2, moveL2_l2d]
  exact cellsDrop_line _ ha

/-- The held byte of a line that memory alone holds. -/
theorem heldByte_unmasked {m : MemSys} {a : Nat} (h : Unmasked m (lineOf a)) : heldByte m a = cellGet 0 m.mem a := by
  obtain ⟨h1, h2⟩ := h a rfl
  simp [heldByte, h1, h2]

/-- A byte whose block has the reader's key reads as it is held. -/
theorem commByte_same {n : MemSys} {k : KeyTag} {a : Nat} (h : look n.lineKey (blockOf a) = some k) : commByte n (some k) a = heldByte n a := by
  simp [commByte, h]

/-- Bytes held the same, of a block with the same key, read the same. -/
theorem commByte_congr {m n : MemSys} {key : Option KeyTag} {a : Nat} (hl : look n.lineKey (blockOf a) = look m.lineKey (blockOf a))
    (hh : ∀ x, blockOf x = blockOf a → heldByte n x = heldByte m x) : commByte n key a = commByte m key a := by
  have hb : heldBlock n (blockOf a) = heldBlock m (blockOf a) := by
    unfold heldBlock
    congr 2
    refine List.map_congr_left fun k hk => hh _ ?_
    have := List.mem_range.mp hk
    simp only [blockOf]
    omega
  simp only [commByte, hl, hb, hh a rfl]

/-- A rekeyed block reads, under its writer's key, as before (R34): the invariant says where the block's bytes stand. -/
theorem rekeyBlock_comm {m : MemSys} {key : Option KeyTag} {block : Nat} {put : MemSys → Nat → Byte → MemSys} (I : MemSys → Prop)
    (hI : ∀ l, I m → I { m with lineKey := l })
    (hp : ∀ m a b, I m → blockOf a = block → I (put m a b) ∧ (put m a b).lineKey = m.lineKey ∧ ∀ a', heldByte (put m a b) a' = if a' = a then b else heldByte m a')
    (h : I m) :
    I (rekeyBlock m key block put) ∧ (∀ a, commByte (rekeyBlock m key block put) key a = commByte m key a) ∧
      (∀ k, key = some k → look (rekeyBlock m key block put).lineKey block = some k) := by
  have hblock : ∀ a, blockOf a = block ↔ block * 16 ≤ a ∧ a < block * 16 + 16 := by
    intro a
    simp only [blockOf]
    omega
  unfold rekeyBlock
  split
  · exact ⟨h, fun _ => rfl, fun _ hk => by cases hk⟩
  · rename_i k
    dsimp only
    split
    · rename_i hnone
      refine ⟨hI _ h, fun a => ?_, fun k' hk => by cases hk; simp [look_assoc]⟩
      by_cases ha : blockOf a = block
      · rw [commByte_same (by simp [look_assoc, ha])]
        simp only [commByte, ha, hnone]
        rfl
      · exact commByte_congr (by simp [look_assoc, ha]) fun _ _ => rfl
    · rename_i was hwas
      split
      · rename_i he
        exact ⟨h, fun _ => rfl, fun k' hk => by cases hk; rw [hwas, he]⟩
      · let m0 : MemSys := { m with lineKey := assoc m.lineKey block k }
        have hfold : ∀ (n : Nat), n ≤ 16 → ∀ mf, mf = (List.range n).foldl (fun mm o => put mm (block * 16 + o) (commByte m (some k) (block * 16 + o))) m0 →
            I mf ∧ mf.lineKey = m0.lineKey ∧ ∀ a, heldByte mf a = if block * 16 ≤ a ∧ a < block * 16 + n then commByte m (some k) a else heldByte m0 a := by
          intro n
          induction n with
          | zero =>
            intro _ mf hmf
            subst hmf
            refine ⟨hI _ h, rfl, fun a => ?_⟩
            rw [if_neg (by omega)]
            rfl
          | succ n ih =>
            intro hn mf hmf
            obtain ⟨i1, i2, i3⟩ := ih (by omega) _ rfl
            rw [List.range_succ, List.foldl_append] at hmf
            obtain ⟨p1, p2, p3⟩ := hp _ (block * 16 + n) (commByte m (some k) (block * 16 + n)) i1 ((hblock _).mpr (by omega))
            subst hmf
            refine ⟨p1, p2.trans i2, fun a => ?_⟩
            show heldByte (put _ _ _) a = _
            rw [p3, i3]
            by_cases h1 : a = block * 16 + n
            · rw [if_pos h1, if_pos (by omega), h1]
            · rw [if_neg h1]
              by_cases h2 : block * 16 ≤ a ∧ a < block * 16 + n
              · rw [if_pos h2, if_pos (by omega)]
              · rw [if_neg h2, if_neg (by omega)]
        obtain ⟨f1, f2, f3⟩ := hfold 16 (Nat.le_refl _) _ rfl
        refine ⟨f1, fun a => ?_, fun k' hk => by cases hk; rw [f2]; simp [m0, look_assoc]⟩
        by_cases ha : blockOf a = block
        · rw [commByte_same, f3, if_pos ((hblock a).mp ha)]
          rw [f2, ha]
          simp [m0, look_assoc]
        · refine commByte_congr ?_ fun x hx => ?_
          · rw [f2]
            simp [m0, look_assoc, ha]
          · rw [f3, if_neg (fun e => ha (hx ▸ (hblock x).mpr e))]
            rfl

/-- One byte put in a block that has its writer's key: it reads as written, and every other byte as before. -/
theorem put_comm {n o : MemSys} {key : Option KeyTag} {a : Nat} {b : Byte} (hk : o.lineKey = n.lineKey)
    (hr : ∀ k, key = some k → look n.lineKey (blockOf a) = some k) (hh : ∀ x, heldByte o x = if x = a then b else heldByte n x) (a' : Nat) :
    commByte o key a' = if a' = a then b else commByte n key a' := by
  cases key with
  | none => exact hh a'
  | some k =>
    by_cases hb : blockOf a' = blockOf a
    · rw [commByte_same (by rw [hk, hb]; exact hr k rfl), commByte_same (by rw [hb]; exact hr k rfl)]
      exact hh a'
    · rw [if_neg fun e : a' = a => hb (by rw [e])]
      exact commByte_congr (by rw [hk]) fun x hx => by rw [hh, if_neg fun e : x = a => hb (by rw [← hx, e])]

/-- One byte written at the home: it reads as written under the writer's key, and every other byte reads under that key as before (R32, R34). -/
theorem homeWrite_one {m : MemSys} {key : Option KeyTag} {a : Nat} {b : Byte} (w : Memory.wf m = true) (a' : Nat) :
    commByte (homeWrite m key [(a, b)]) key a' = if a' = a then b else commByte m key a' := by
  have mv := homeOnly_moves m (lineOf a)
  let I : MemSys → Prop := fun n => Memory.wf n = true ∧ Unmasked n (lineOf a)
  have hput : ∀ n x y, I n → blockOf x = blockOf a → I (putMem n x y) ∧ (putMem n x y).lineKey = n.lineKey ∧
      ∀ x', heldByte (putMem n x y) x' = if x' = x then y else heldByte n x' := by
    intro n x y hn hx
    have hl : lineOf x = lineOf a := by simp only [blockOf] at hx; simp only [lineOf]; omega
    refine ⟨⟨putMem_wf hn.1, fun z hz => hn.2 z hz⟩, rfl, fun x' => ?_⟩
    by_cases he : x' = x
    · subst he
      have hun : Unmasked (putMem n x' y) (lineOf x') := by rw [hl]; exact fun z hz => hn.2 z hz
      rw [if_pos rfl, heldByte_unmasked hun]
      exact cellGet_put_same (memory_wf.mp hn.1).1
    · rw [if_neg he]
      simp only [heldByte, putMem, cellGet_put_other he]
  have hm2 : I (homeOnly m (lineOf a)) := ⟨mv.wf w, cleanLine_unmasked m (lineOf a)⟩
  obtain ⟨r1, r2, r3⟩ := rekeyBlock_comm (key := key) (block := blockOf a) I (fun l hh => ⟨hh.1, hh.2⟩) hput hm2
  obtain ⟨_, p2, p3⟩ := hput _ a b r1 rfl
  rw [← mv.comm w key a', ← r2 a']
  exact put_comm p2 r3 p3 a'

/-- Bytes written at the home from an address on, as their writer's key reads them. -/
theorem homeWrite_comm {key : Option KeyTag} {a' : Nat} : ∀ {bs : List Byte} {m : MemSys} {pa : Nat}, Memory.wf m = true →
    commByte (homeWrite m key (cellsAt pa bs)) key a' = if pa ≤ a' ∧ a' < pa + bs.length then bs.getD (a' - pa) 0 else commByte m key a' := by
  intro bs
  induction bs with
  | nil => intro m pa _; rw [List.length_nil, if_neg (by omega)]; rfl
  | cons b bs ih =>
    intro m pa w
    show commByte (homeWrite (homeWrite m key [(pa, b)]) key (cellsAt (pa + 1) bs)) key a' = _
    rw [ih (homeWrite_wf w), homeWrite_one w]
    simp only [List.length_cons]
    by_cases h1 : pa + 1 ≤ a' ∧ a' < pa + 1 + bs.length
    · rw [if_pos h1, if_pos (by omega), show a' - pa = a' - (pa + 1) + 1 by omega]
      rfl
    · rw [if_neg h1]
      by_cases h2 : a' = pa
      · rw [if_pos h2, if_pos (by omega), h2, Nat.sub_self]
        rfl
      · rw [if_neg h2, if_neg (by omega)]

/-- One byte written by a die through its L2 reads as written under the writer's key, and every other as before (R77, R78). -/
theorem commWrite_one {m : MemSys} {die : Nat} {key : Option KeyTag} {a : Nat} {b : Byte} (w : Memory.wf m = true) (a' : Nat) :
    commByte (commWrite m die key [(a, b)]) key a' = if a' = a then b else commByte m key a' := by
  have mv := l2Own_moves m die (lineOf a)
  have hput : ∀ n x y, True → blockOf x = blockOf a → True ∧ (putL2d n x y).lineKey = n.lineKey ∧
      ∀ x', heldByte (putL2d n x y) x' = if x' = x then y else heldByte n x' := by
    intro n x y _ _
    refine ⟨trivial, rfl, fun x' => ?_⟩
    simp only [heldByte, putL2d, maskGet_put]
    by_cases he : x' = x <;> simp [he]
  obtain ⟨_, r2, r3⟩ := rekeyBlock_comm (m := l2Own m die (lineOf a)) (key := key) (block := blockOf a) (put := putL2d) (fun _ => True) (fun _ _ => trivial) hput trivial
  obtain ⟨_, p2, p3⟩ := hput (rekeyBlock (l2Own m die (lineOf a)) key (blockOf a) putL2d) a b trivial rfl
  rw [← mv.comm w key a', ← r2 a']
  exact put_comm p2 r3 p3 a'

/-- Bytes written through an L2 from an address on, as their writer's key reads them. -/
theorem commWrite_comm {die : Nat} {key : Option KeyTag} {a' : Nat} : ∀ {bs : List Byte} {m : MemSys} {pa : Nat}, Memory.wf m = true →
    commByte (commWrite m die key (cellsAt pa bs)) key a' = if pa ≤ a' ∧ a' < pa + bs.length then bs.getD (a' - pa) 0 else commByte m key a' := by
  intro bs
  induction bs with
  | nil => intro m pa _; rw [List.length_nil, if_neg (by omega)]; rfl
  | cons b bs ih =>
    intro m pa w
    show commByte (commWrite (commWrite m die key [(pa, b)]) die key (cellsAt (pa + 1) bs)) key a' = _
    rw [ih (commWrite_wf w), commWrite_one w]
    simp only [List.length_cons]
    by_cases h1 : pa + 1 ≤ a' ∧ a' < pa + 1 + bs.length
    · rw [if_pos h1, if_pos (by omega), show a' - pa = a' - (pa + 1) + 1 by omega]
      rfl
    · rw [if_neg h1]
      by_cases h2 : a' = pa
      · rw [if_pos h2, if_pos (by omega), h2, Nat.sub_self]
        rfl
      · rw [if_neg h2, if_neg (by omega)]

/-- Reset memory has the canonical form. -/
theorem reset_wf : Memory.wf State.reset.ms = true := by decide

end Sys2Proof.Machine
end

