-- ==== Sys2Proof/Tests/Slice0.lean ====
section
/-! SUPPORT. Small tests of the model, and states that meet the hypotheses of its statements. -/

namespace Sys2Proof.Tests

open Sys2Proof.Machine Sys2Proof.Claims

set_option Elab.async false

/-! States. -/

/-- A user page of data at 0x20000, which may be read and written, in the first-level TLB of a core. -/
def dataPage (c : CoreId) : TlbEntry := ⟨.core c, 1, 1, 0x20, 12, 0, ⟨0, 0x20, 0, true, false, true, false, true, true⟩⟩

/-- A thread of a class at its start, with x5 = 0x20000, x6 = 7, x7 = −1 and a page of data at 0x20000. -/
def at_ (c : CoreClass) : State :=
  let s := layInstr State.reset (c, false) []
  { s with th := { s.th with x := ((s.th.x.set 5 0x20000).set 6 7).set 7 (-1) }, xl := { s.xl with tlb := [dataPage (coreOf s.th)] } }

/-- What an access comes to: its one part and the state after it. -/
def partOfRes (r : Res (List Part)) : Xlated :=
  match r with
  | .ok [.here x _ _] _ => x
  | _ => ⟨0, 0, none⟩

/-- The state that a result leaves. -/
def stateOfRes {α : Type} (s : State) (r : Res α) : State :=
  match r with
  | .ok _ s1 => s1
  | .stop _ => s

/-- Whether an access is one part of this package. -/
def isHere (va n : Nat) (r : Res (List Part)) : Bool :=
  match r with
  | .ok [.here _ v m] _ => decide (v = va) && decide (m = n)
  | _ => false

theorem isHere_eq (s : State) (va n : Nat) (r : Res (List Part)) (h : isHere va n r = true) : r = .ok [.here (partOfRes r) va n] (stateOfRes s r) := by
  unfold isHere at h
  split at h
  · simp only [Bool.and_eq_true, decide_eq_true_eq] at h
    obtain ⟨rfl, rfl⟩ := h
    rfl
  · simp at h

/-- The part of an access that keeps its state whatever comes of it. -/
def partOfPair (r : Except (XFault × Nat) (List Part) × State) : Xlated :=
  match r.1 with
  | .ok [.here x _ _] => x
  | _ => ⟨0, 0, none⟩

/-- Whether it is one part of this package. -/
def isHere2 (va n : Nat) (r : Except (XFault × Nat) (List Part) × State) : Bool :=
  match r.1 with
  | .ok [.here _ v m] => decide (v = va) && decide (m = n)
  | _ => false

theorem isHere2_eq (va n : Nat) (r : Except (XFault × Nat) (List Part) × State) (h : isHere2 va n r = true) : r = (.ok [.here (partOfPair r) va n], r.2) := by
  obtain ⟨q, s⟩ := r
  unfold isHere2 at h
  split at h
  · rename_i x v m e
    simp only [Bool.and_eq_true, decide_eq_true_eq] at h
    obtain ⟨rfl, rfl⟩ := h
    subst e
    rfl
  · simp at h

theorem none_all {α : Type} {o : Option α} {p : α → Prop} (h : o = none) : ∀ a, o = some a → p a := by
  intro a e; rw [h] at e; cases e

theorem some_all {α : Type} {o : Option α} {p : α → Prop} (b : α) (h : o = some b) (hp : p b) : ∀ a, o = some a → p a := by
  intro a e; rw [h] at e; cases e; exact hp

/-! Decoding (R186 to R196): the words are written out from the formats, field by field, most significant first. -/

/-- The instruction that a word of n bytes decodes to. -/
noncomputable def decoded (n w : Nat) : Option Instr :=
  match decode (leBytes n w) with
  | .ok i => some i
  | .error _ => none

/-- R format: funct7 0, rs2 2, rs1 1, funct3 0, rd 3, OP. -/
theorem test_word_add : decoded 4 0b0000000_00010_00001_000_00011_0110011 = some (.add 3 1 2) := by decide +kernel

/-- R format, funct7 0100000. -/
theorem test_word_sub : decoded 4 0b0100000_00010_00001_000_00011_0110011 = some (.sub 3 1 2) := by decide +kernel

/-- I format: imm −1, rs1 6, funct3 0, rd 5, OP-IMM. -/
theorem test_word_addi : decoded 4 0b111111111111_00110_000_00101_0010011 = some (.addi 5 6 0xFFF) := by decide +kernel

/-- U format: imm 0x80000, rd 7, LUI. -/
theorem test_word_lui : decoded 4 0b10000000000000000000_00111_0110111 = some (.lui 7 0x80000) := by decide +kernel

/-- B format: offset +8. -/
theorem test_word_beq : decoded 4 0b0000000_00010_00001_000_01000_1100011 = some (.beq 1 2 4) := by decide +kernel

/-- B format: offset −4096, whose bit 12 alone is set. -/
theorem test_word_bne_far : decoded 4 0b1000000_00010_00001_001_00000_1100011 = some (.bne 1 2 0x800) := by decide +kernel

/-- J format: offset +2048, whose bit 11 stands at bit 20 of the word. -/
theorem test_word_jal : decoded 4 0b0_0000000000_1_00000000_00001_1101111 = some (.jal 1 0x400) := by decide +kernel

/-- I format: LD with offset 16. -/
theorem test_word_ld : decoded 4 0b000000010000_01000_011_00111_0000011 = some (.ld 7 8 16) := by decide +kernel

/-- S format: SD with offset −8: bits 11 to 5 and 4 to 0. -/
theorem test_word_sd : decoded 4 0b1111111_00111_01000_011_11000_0100011 = some (.sd 7 8 0xFF8) := by decide +kernel

theorem test_word_fadd : decoded 4 0x023110D3 = some (.fadd .f64 .rne 1 2 3) := by decide +kernel
theorem test_word_amoadd : decoded 4 0x3C53422F = some (.amoadd true .aq .pkg 4 5 6) := by decide +kernel
theorem test_word_tret : decoded 4 0x04000073 = some .tret := by decide +kernel
theorem test_word_padds : decoded 4 0x047302FB = some (.padds .b 5 6 7) := by decide +kernel
theorem test_word_talloc : decoded 4 0x00C372F3 = some (.talloc 5 12 6) := by decide +kernel
theorem test_word_vadd : decoded 4 0x002180D7 = some (.vadd false 1 2 (.vec 3)) := by decide +kernel
theorem test_word_tload : decoded 8 0x02000004007302BF = some (.tload 5 4 6 7 2) := by decide +kernel
theorem test_word_liw : decoded 8 0x00000000000320BF = some (.liw 1 6) := by decide +kernel

/-- Words that the formats do not name: 16 bits, 48 bits, 80 bits, a reserved major, a PFX with bit 20 set. -/
theorem test_word_refused : [decoded 4 0x00000001, decoded 4 0x0000001F, decoded 4 0x0000007F, decoded 4 0x0000006B, decoded 4 0x0010000B] =
    [none, none, none, none, none] := by decide +kernel

/-- The encodings that the chapters work out, the first half. -/
theorem test_words_worked0 : ∀ p ∈ ([
      (decoded 4 0x00500093, .addi 1 0 5), (decoded 4 0x0000F00B, .pfx false true .dsr), (decoded 4 0x3E63C2AF, .amoadd true .aqrl .pkg 5 6 7),
      (decoded 4 0x040012F3, .srrd 5 .time), (decoded 8 0xFFFFFFFFFFFF253F, .liw 10 0x1FFFFFFFFFFFE), (decoded 8 0x080000000000253F, .liw 10 0x100000000000),
      (decoded 4 0x187352B3, .ror 5 6 7), (decoded 4 0x18C35293, .rori 5 6 12), (decoded 4 0x003100D3, .fadd .f32 .dyn 1 2 3),
      (decoded 4 0x68028253, .fexp2 4 5), (decoded 4 0x0803C2AF, .lda true .pkg 5 7), (decoded 4 0xC040400F, .fence .ar .pkg),
      (decoded 4 0x0322D30F, .barrive .quad 6 3 5), (decoded 4 0x0000700F, .sdrain), (decoded 4 0x0094E473, .tlwait 8 9 9),
      (decoded 4 0x01032073, .srwr 0 .rndmode 6), (decoded 4 0x0862D073, .tlbinv .pkg 5 6), (decoded 4 0x1802D073, .lineopIcinv .pkg 5),
      (decoded 4 0x2A8302FB, .pcvt .fp32 .e4m3 5 6), (decoded 4 0x705373F3, .twrx 5 6 7), (decoded 8 0x04000201209412BF, .tmma false false true 5 1 2 8 9 4),
      (decoded 8 0x140003001400133F, .taccrd false .rne false true 6 3 4), (decoded 4 0x000372DB, .setvl 5 6), (decoded 4 0x0005245B, .vle false .e32 8 10)] : List (Option Instr × Instr)), p.1 = some p.2 := by decide +kernel

/-- The encodings that the chapters work out, the second half. -/
theorem test_words_worked1 : ∀ p ∈ ([
      (decoded 4 0x000372DB, .setvl 5 6), (decoded 4 0x0005245B, .vle false .e32 8 10), (decoded 4 0x08B5225B, .vlse false .e32 4 10 11),
      (decoded 4 0x022180D7, .vadd true 1 2 (.vec 3)), (decoded 4 0x9C513257, .vfma false 4 5 (.freg 2)), (decoded 4 0xB44401D7, .vfcvtd false .e4m3 3 4),
      (decoded 4 0x0C115157, .vfredsum false 2 1 2), (decoded 8 0x000000000005323F, .ldpairw 4 10), (decoded 4 0x087372DB, .setshape 5 6 7),
      (decoded 4 0x04004057, .mmodeOff), (decoded 4 0x08114057, .vopaBf16 false 1 2), (decoded 4 0x0A824057, .vopaBf16 true 8 4),
      (decoded 4 0x18004057, .vaccz), (decoded 4 0x204441D7, .vsmx false 3 4 8), (decoded 4 0x22D44757, .vsmx true 14 13 8),
      (decoded 4 0x0C73715B, .grpset 2 6 7), (decoded 8 0xB00000010092923F, .vcollSmerge 4 5 1 9), (decoded 8 0xE00000000001923F, .vcollBcast 4 3 0 0),
      (decoded 4 0x6CCA1057, .vmslt false 0 12 (.xreg 20)), (decoded 4 0x10736473, .msend 8 6 7), (decoded 8 0x09008180207312BF, .tmma false false true 5 0x80 0x81 6 7 9),
      (decoded 8 0x19008400000012BF, .taccrd false .dyn false false 5 0x84 9)] : List (Option Instr × Instr)), p.1 = some p.2 := by decide +kernel

/-! Well-formedness: an ill-formed term for each check, and what the decoder says of its word. -/

/-- Each operand limit refuses a term that breaks it: a barrier number of another scope, two equal destinations of MWAITF, formats that PCVT lacks,
an rs2 beside shadows, a masked destination v0, a destination that is a source, MXFP4 in VFCVT, an odd pair, accumulator rows as sources of VOPA, and an f
triple past f31. -/
theorem test_wf_refuses : ([ Instr.barrive .core 1 63 2, .barwait .pod 63 2, .mwaitf 5 5 6, .pcvt .fp64 .fp32 1 2, .pcvt .fp32 .mxfp4 1 2, .tmma false true false 1 2 3 4 5 6
    , .vle true .e8 0 1, .vlse true .e8 0 1 2, .vlxe true .e8 0 1 2, .vlxe false .e8 3 1 3, .vadd true 0 1 (.vec 2), .vmerge 0 1 (.vec 2), .vmv true 0 (.imm 1)
    , .vfadd true 0 1 (.vec 2), .vfsqrt true 0 1, .vfcvtd false .mxfp4 1 2, .vredsum true 0 1 2, .vslideup false 3 3 1, .vrgather false 3 1 3, .vcompress 3 3
    , .vmand true 0 1 2, .ldpairw 3 1, .ldpairw 0 1, .vopaBf16 false 16 1, .vopaE4m3 false 1 16, .vsmx false 1 2 30 ].map Instr.wf).all (fun b => !b) = true := by decide +kernel

/-- The same limits at their last allowed value. -/
theorem test_wf_allows : ([ Instr.mwaitf 0 0 6, .pcvt .e4m3 .fp32 1 2, .tmma false true false 1 2 3 4 0 6, .vle false .e8 0 1, .vlxe true .e8 3 1 4, .vslideup false 3 4 1
    , .ldpairw 30 1, .vopaBf16 false 15 15, .vsmx false 1 2 29 ].map Instr.wf).all id = true := by decide +kernel

/-! States that meet the hypotheses of the statements, clause by clause. -/

/-- An access of the current thread of a state is one cached part, by evaluation. -/
theorem cached_of (s : State) (a : Acc) (vec : Bool) (va n : Nat)
    (h : (s.ms.posted.all fun p => decide (p.tid ≠ s.th.tid)) = true ∧ isHere va n (threadParts s a vec va n) = true ∧
      (partOfRes (threadParts s a vec va n)).mt = 0 ∧ (partOfRes (threadParts s a vec va n)).pa % 128 + n ≤ 128 ∧
      Memory.wf (stateOfRes s (threadParts s a vec va n)).ms = true) :
    Cached s a vec va n (partOfRes (threadParts s a vec va n)) (stateOfRes s (threadParts s a vec va n)) :=
  ⟨by simpa using h.1, isHere_eq s va n _ h.2.1, h.2.2.1, h.2.2.2.1, h.2.2.2.2⟩

/-- IntegerRegister, MultiplyDivideBits, ControlTransfer, PackedLanes: chain mode is off; targets that are aligned, and that are not; a branch taken, and
not taken. -/
theorem witness_base : Plain (at_ .v) ∧ ((at_ .v).th.pc + ((4#20) ++ 0#1).signExtend 64).toNat % 4 = 0 ∧ ((at_ .v).th.pc + ((1#20) ++ 0#1).signExtend 64).toNat % 4 ≠ 0 ∧
    ((at_ .v).rx 5 + (0#12).signExtend 64 &&& ~~~1#64).toNat % 4 = 0 ∧ ((at_ .v).rx 5 + (2#12).signExtend 64 &&& ~~~1#64).toNat % 4 ≠ 0 ∧
    ((at_ .v).th.pc + ((2#12) ++ 0#1).signExtend 64).toNat % 4 = 0 ∧ ((at_ .v).th.pc + ((1#12) ++ 0#1).signExtend 64).toNat % 4 ≠ 0 ∧
    (at_ .v).rx 5 ≠ (at_ .v).rx 6 ∧ ((at_ .v).rx 7).toInt < ((at_ .v).rx 6).toInt ∧ ((at_ .v).rx 6).toNat < ((at_ .v).rx 7).toNat := by
  and_intros <;> first | decide +kernel | (unfold Plain; decide +kernel)

/-- A V-thread whose traps its own handler takes, with its record in the data page. -/
def handled : State := { at_ .v with th := { (at_ .v).th with thandler := 0x4000, thandlerEn := true, tscratch := 0x800 } }

/-- The data page under another memory type. -/
def typed (mt : Nat) : State := { handled with xl := { handled.xl with tlb := [{ dataPage (coreOf handled.th) with leaf := { (dataPage (coreOf handled.th)).leaf with mt := mt } }] } }

/-- What the translation of the record of a trap comes to. -/
noncomputable def recordParts (s : State) : Except (XFault × Nat) (List Part) × State :=
  partsUnder (withdraw s) (threadWalker (withdraw s) (withdraw s).th) (threadAcc (withdraw s).th .store false) [(0x20000, 64)] []

/-- A cause that its handler takes, with the record's page under MT 00 and under MT 01. -/
theorem witness_TrapInPlace : clsOf handled.th ≠ .t ∧ handled.th.status.hnd = false ∧ handled.th.thandlerEn = true ∧
    0x03 ∉ [0x07, 0x10, 0x11, 0x18, 0x19, 0x1A, 0x1C, 0x20, 0x23] ∧ handled.session handled.th.tid = none ∧ handled.th.tscratch.toNat * 64 = 0x20000 ∧
    recordParts handled = (.ok [.here (partOfPair (recordParts handled)) 0x20000 64], (recordParts handled).2) ∧
    regionOf (partOfPair (recordParts handled)).pa ≠ 2 ∧ (partOfPair (recordParts handled)).mt = 0 ∧
    recordParts (typed 1) = (.ok [.here (partOfPair (recordParts (typed 1))) 0x20000 64], (recordParts (typed 1)).2) ∧
    regionOf (partOfPair (recordParts (typed 1))).pa ≠ 2 ∧ (partOfPair (recordParts (typed 1))).mt ≠ 0 ∧ Memory.wf (recordParts (typed 1)).2.ms = true ∧
    (∀ e ∈ (recordParts (typed 1)).2.ms.wtq, e.core ≠ coreOf (typed 1).th) := by
  and_intros <;> first | (apply isHere2_eq; decide +kernel) | decide +kernel

/-- In a handler, TEPC aligned and not; outside one. -/
theorem witness_TrapReturn : Plain handled ∧ handled.th.status.hnd = false ∧ handled.th.status.priv = false ∧
    (let t : Thread := { handled.th with status := { handled.th.status with hnd := true }, tepc := 0x20000 }
     t.status.hnd = true ∧ t.tepc.toNat % 4 = 0 ∧ ({ t with tepc := 0x20002 } : Thread).tepc.toNat % 4 ≠ 0) ∧
    (let r : TrapReq := { cause := 0xFF, tval := 0, fclass := 15, flevel := 7, vkind := 255 }
     r.cause < 256 ∧ r.cause ≠ 0x0D ∧ r.fclass < 16 ∧ r.flevel < 8 ∧ r.vkind < 256) := by
  and_intros <;> first | decide +kernel | (unfold Plain; decide +kernel)

/-- The last eight bytes of a line: a load by a thread with nothing under way, and of a copy that its core holds. -/
def lineCopy : L1dLine := ⟨coreOf (at_ .v).th, 0x400, some ⟨1, 1⟩, none, List.replicate 128 7, 0, 0, false⟩

/-- A state whose core holds a copy of the data page's first line. -/
def copied : State := { at_ .v with ms := { (at_ .v).ms with l1d := [lineCopy] } }

theorem sound_of (s : State) (pa : Nat) (h : s.ms.ecc = [] ∧ s.ms.poison = []) : Sound s pa := ⟨by simp [h.1], by simp [h.2]⟩

theorem quiet_of (s : State) (h : s.ms.posted = [] ∧ s.ms.sfq = [] ∧ s.ms.wtq = [] ∧ s.provStand s.th.tid.stand = none ∧ s.pod.out = [] ∧ s.session s.th.tid = none) :
    Quiet s := ⟨by simp [h.1], by simp [h.2.1], by simp [h.2.2.1], h.2.2.2.1, by simp [h.2.2.2.2.1], h.2.2.2.2.2⟩

/-- A load's access of n bytes at va, in a state. -/
noncomputable def loadRes (s : State) (vec : Bool) (va n : Nat) : Res (List Part) := threadParts s .load vec va n

/-- The state after the access of a load. -/
noncomputable def loadState (s : State) (vec : Bool) (va n : Nat) : State := stateOfRes s (loadRes s vec va n)

theorem witness_Loads : Plain (at_ .v) ∧ effective (at_ .v) 5 0x78 = 0x20078 ∧
    Cached (at_ .v) .load false 0x20078 8 (partOfRes (loadRes (at_ .v) false 0x20078 8)) (loadState (at_ .v) false 0x20078 8) ∧
    Sound (loadState (at_ .v) false 0x20078 8) 0x20078 ∧ (loadState (at_ .v) false 0x20078 8).ms.wtq = [] ∧ (loadState (at_ .v) false 0x20078 8).ms.gath = [] ∧
    copyOf (loadState (at_ .v) false 0x20078 8) (partOfRes (loadRes (at_ .v) false 0x20078 8)) = none ∧
    clsOf (at_ .v).th ≠ .t ∧ (at_ .v).hasFeat (coreOf (at_ .v).th).die 0 = true := by
  and_intros <;> first | (apply cached_of; decide +kernel) | (apply sound_of; decide +kernel) | decide +kernel | (unfold Plain; decide +kernel)

theorem witness_Loads_copy : Cached copied .load false 0x20078 8 (partOfRes (loadRes copied false 0x20078 8)) (loadState copied false 0x20078 8) ∧
    copyOf (loadState copied false 0x20078 8) (partOfRes (loadRes copied false 0x20078 8)) = some lineCopy ∧ lineCopy.poisoned = false ∧ lineCopy.bytes.length = 128 := by
  and_intros <;> first | (apply cached_of; decide +kernel) | decide +kernel | (unfold Plain; decide +kernel)

/-- A packet of job 1. -/
def packet (c : CoreClass) : Packet :=
  { entry := 0x10000, args := 9, csa := 0x40000, scla := ⟨false, 0⟩, sclb := ⟨false, 0⟩, budget := 0, notbefore := 0, seed := 0, standix := 0, ctx := 1, cls := c
    threads := 1, prio := 3, retries := 1, rnd := .rne, lmin := 0, lpref := 0, fmta := .int8, fmtb := .int8, queue := 16, node := 0, job := 1, serial := some 0
    preload := none, exclude := [], near := none, die := none }

/-- Job 1, of one stand. -/
def job1 : Job :=
  { id := 1, queue := 16, part := 1, ctx := 1, done := 0x20000, csabase := 0x40000, slots := 64, graph := false, total := 1, finished := 0, nextSerial := 1, nodeLeft := []
    touched := [], notbefore := 0, failed := none, missing := [], gang := false, gangSaved := false, gangResume := false, ended := false }

/-- The stand of a thread. -/
def standOf (t : Thread) : Stand :=
  { id := t.tid.stand, packet := packet (clsOf t), part := 1, die := (coreOf t).die, quad := (coreOf t).quad, started := 1, direct := true, st := .live, used := 0, reports := 0
    lastCause := 0, bad := none, badTid := none, lack := none, born := 0, pub := [] }

/-- The thread of a state in a stand of job 1, in direct mode or in provisional mode. -/
def inJob (s : State) (direct : Bool) : State := { s with gl := { s.gl with stands := [{ standOf s.th with direct := direct }], jobs := [job1] } }

/-- A state's thread changed. -/
def onTh (s : State) (f : Thread → Thread) : State := { s with th := f s.th }

/-- A register set. -/
def setX (s : State) (r : Fin 32) (v : Word) : State := onTh s fun t => { t with x := t.x.set r v }

/-- The result of an access and the state after it. -/
noncomputable def accRes (s : State) (a : Acc) (vec : Bool) (va n : Nat) : Res (List Part) := threadParts s a vec va n

/-- The state after an access. -/
noncomputable def accState (s : State) (a : Acc) (vec : Bool) (va n : Nat) : State := stateOfRes s (accRes s a vec va n)

/-- The translation of an access. -/
noncomputable def accX (s : State) (a : Acc) (vec : Bool) (va n : Nat) : Xlated := partOfRes (accRes s a vec va n)

/-- A store at the end of a line, with no task in provisional mode; and with one that has room for the line. -/
theorem witness_Stores : Plain (at_ .v) ∧ clsOf (at_ .v).th ≠ .t ∧ (at_ .v).hasFeat (coreOf (at_ .v).th).die 0 = true ∧
    Cached (at_ .v) .store false (effective (at_ .v) 5 0x78) 8 (accX (at_ .v) .store false 0x20078 8) (accState (at_ .v) .store false 0x20078 8) ∧
    (accState (at_ .v) .store false 0x20078 8).provStand (at_ .v).th.tid.stand = none := by
  and_intros <;> first | (apply cached_of; decide +kernel) | decide +kernel | (unfold Plain; decide +kernel)

/-- A thread whose task is in provisional mode. -/
def provisional : State := inJob (at_ .v) false

theorem witness_Stores_provisional : Cached provisional .store false (effective provisional 5 0) 1 (accX provisional .store false 0x20000 1) (accState provisional .store false 0x20000 1) ∧
    regionOf (accX provisional .store false 0x20000 1).pa = 0 ∧
    ∀ st, (accState provisional .store false 0x20000 1).provStand provisional.th.tid.stand = some st →
      provRoom (accState provisional .store false 0x20000 1) st (lineOf (accX provisional .store false 0x20000 1).pa) = true :=
  ⟨by apply cached_of; decide +kernel, by decide +kernel, some_all { standOf (at_ .v).th with direct := false } (by decide +kernel) (by decide +kernel)⟩

/-- A store fault of the current T-thread. -/
def storeFault : StoreFault := ⟨⟨65535, 0⟩, ⟨6, 0, 0⟩, 1, 0x10000, 3, 0x20000, 8, 0, 1, false⟩

/-- A T-thread with no faulted store, and one with a faulted store. -/
theorem witness_Stores_posted : Plain (at_ .t) ∧ clsOf (at_ .t).th = .t ∧ (∀ f ∈ (at_ .t).ms.sfq, f.tid ≠ (at_ .t).th.tid) ∧
    (let s : State := { at_ .t with ms := { (at_ .t).ms with sfq := [storeFault] } }
     Plain s ∧ clsOf s.th = .t ∧ ∃ f ∈ s.ms.sfq, f.tid = s.th.tid) ∧
    lacksWindow (at_ .t) (coreOf (at_ .t).th).die (pagesOf (effective (at_ .t) 5 0) 8) = false ∧
    (let s : State := setX { at_ .t with un := { (at_ .t).un with lacks := [(6, 10)] } } 5 (BitVec.ofNat 64 (255 * 2 ^ 56))
     Plain s ∧ lacksWindow s (coreOf s.th).die (pagesOf (effective s 5 0) 8) = true) := by
  and_intros <;> first | decide +kernel | (unfold Plain; decide +kernel)

theorem witness_AcquireRelease : Plain (at_ .v) ∧ ((at_ .v).rx 5).toNat % 8 = 0 ∧
    Cached (at_ .v) .load false ((at_ .v).rx 5).toNat 8 (accX (at_ .v) .load false 0x20000 8) (accState (at_ .v) .load false 0x20000 8) ∧
    Sound (accState (at_ .v) .load false 0x20000 8) (accX (at_ .v) .load false 0x20000 8).pa ∧ Quiet (accState (at_ .v) .load false 0x20000 8) ∧
    (accState (at_ .v) .load false 0x20000 8).ms.gath = [] ∧
    copyOf (accState (at_ .v) .load false 0x20000 8) (accX (at_ .v) .load false 0x20000 8) = none ∧
    Cached (at_ .v) .store false ((at_ .v).rx 5).toNat 8 (accX (at_ .v) .store false 0x20000 8) (accState (at_ .v) .store false 0x20000 8) ∧
    Quiet (accState (at_ .v) .store false 0x20000 8) := by
  and_intros <;> first | (apply cached_of; decide +kernel) | (apply sound_of; decide +kernel) | (apply quiet_of; decide +kernel) | decide +kernel | (unfold Plain; decide +kernel)

/-- No write of some bytes is under way: none is tracked, none waits in a queue, and no task holds one. -/
theorem untouched_of (s : State) (pa n : Nat) (h : s.ms.track = [] ∧ s.ms.wtq = [] ∧ s.ms.prov = []) :
    ∀ a, pa ≤ a → a < pa + n → isTracked s.ms a = false ∧ (∀ e ∈ s.ms.wtq, maskGet e.bytes a = none) ∧ ∀ p ∈ s.ms.prov, maskGet p.bytes a = none :=
  fun a _ _ => ⟨by simp [isTracked, h.1], by simp [h.2.1], by simp [h.2.2]⟩

theorem witness_Atomics : Plain (at_ .v) ∧ ((at_ .v).rx 5).toNat % 8 = 0 ∧ (∀ p ∈ (at_ .v).ms.posted, p.tid ≠ (at_ .v).th.tid) ∧
    threadParts (at_ .v) .atomic false ((at_ .v).rx 5).toNat 8 = .ok [.here (accX (at_ .v) .atomic false 0x20000 8) ((at_ .v).rx 5).toNat 8] (accState (at_ .v) .atomic false 0x20000 8) ∧
    (accX (at_ .v) .atomic false 0x20000 8).pa % 128 + 8 ≤ 128 ∧ Memory.wf (accState (at_ .v) .atomic false 0x20000 8).ms = true ∧
    Sound (accState (at_ .v) .atomic false 0x20000 8) (accX (at_ .v) .atomic false 0x20000 8).pa ∧ Quiet (accState (at_ .v) .atomic false 0x20000 8) ∧
    ∀ ord, Finds (releasedFor (accState (at_ .v) .atomic false 0x20000 8) ord .pkg) (accX (at_ .v) .atomic false 0x20000 8) 8 .pkg 0 := by
  and_intros <;> first | (apply isHere_eq; decide +kernel) | (intro ord; cases ord <;> exact ⟨by decide, Or.inl ⟨untouched_of _ _ _ (by decide +kernel), by decide +kernel⟩⟩) | (apply sound_of; decide +kernel) | (apply quiet_of; decide +kernel) | decide +kernel | (unfold Plain; decide +kernel)

/-- The data page's first word, which the thread's own read-modify-write has set to 5. -/
def recorded : State :=
  { at_ .v with ms := { (at_ .v).ms with trackNext := 1, track := (List.range 8).map fun i =>
      { id := 0, pa := 0x20000 + i, byte := if i = 0 then 5 else 0, by_ := ⟨(at_ .v).clk.pkg, ⟨65535, 0⟩, coreOf (at_ .v).th, .core⟩, chain := true, base := 0x20000, size := 8,
        before := [], known := [⟨65535, 0⟩], met := [⟨65535, 0⟩], prov := none, early := false, shown := false, task := false, cycle := 0 } } }

theorem witness_Atomics_recorded : Finds recorded ⟨0x20000, 0, some ⟨1, 1⟩⟩ 8 .pkg 5 := ⟨by decide, Or.inr (by decide +kernel)⟩

theorem witness_FencesComplete : Plain (at_ .v) ∧ (∀ p ∈ (at_ .v).ms.posted, p.tid ≠ (at_ .v).th.tid) ∧ (∀ f ∈ (at_ .v).ms.sfq, f.tid ≠ (at_ .v).th.tid) ∧
    (∀ o ∈ (at_ .v).pod.out, o.tid ≠ (at_ .v).th.tid) ∧ (∀ e ∈ (at_ .v).ms.ecc, e.prov ≠ some (at_ .v).th.tid.stand) ∧ Quiet (at_ .v) := by
  and_intros <;> first | (apply quiet_of; decide +kernel) | decide +kernel | (unfold Plain; decide +kernel)

/-- A barrier of the package scope, number 3, of the context of `at_`. -/
def bar (n : Option Nat) (arrived : List Tid) (a : Option Abandoned) : Barrier := ⟨⟨.pkg 1, .pkg, 3⟩, 4, n, arrived.length, arrived, 0, a⟩

/-- A thread beside a barrier. -/
def atBarrier (b : Barrier) : State := { at_ .v with un := { (at_ .v).un with barriers := [b] } }

/-- A first arrival, a last one, one that disagrees, one that waits for the next episode. -/
theorem witness_Barriers : Plain (atBarrier (bar none [] none)) ∧ Quiet (atBarrier (bar none [] none)) ∧
    (let b := (atBarrier (bar none [] none)).barrier ⟨barSpace (at_ .v) .pkg, .pkg, 3⟩
     b.abandoned = none ∧ (at_ .v).th.tid ∉ b.arrived ∧ b.n = none) ∧
    (let b := (atBarrier (bar (some 7) [⟨1, 0⟩] none)).barrier ⟨barSpace (at_ .v) .pkg, .pkg, 3⟩
     b.abandoned = none ∧ (at_ .v).th.tid ∉ b.arrived ∧ b.n = some (((at_ .v).rx 6).toNat % 2 ^ 16)) ∧
    (let b := (atBarrier (bar (some 8) [⟨1, 0⟩] none)).barrier ⟨barSpace (at_ .v) .pkg, .pkg, 3⟩
     (at_ .v).th.tid ∉ b.arrived ∧ b.n = some 8 ∧ 8 ≠ ((at_ .v).rx 6).toNat % 2 ^ 16) ∧
    (at_ .v).th.tid ∈ ((atBarrier (bar (some 8) [⟨65535, 0⟩] none)).barrier ⟨barSpace (at_ .v) .pkg, .pkg, 3⟩).arrived := by
  and_intros <;> first | (apply quiet_of; decide +kernel) | decide +kernel | (unfold Plain; decide +kernel)

/-- Waits for a past episode, for the open one, and for the abandoned one. -/
theorem witness_Barriers_wait : (let b := (setX (atBarrier (bar none [] none)) 6 3).barrier ⟨.pkg 1, .pkg, 3⟩
     b.abandoned = none ∧ ((setX (at_ .v) 6 3).rx 6).toNat < b.ep) ∧
    (let b := (setX (atBarrier (bar none [] none)) 6 4).barrier ⟨.pkg 1, .pkg, 3⟩
     b.abandoned = none ∧ b.ep ≤ ((setX (at_ .v) 6 4).rx 6).toNat) ∧
    (let b := (atBarrier (bar none [] (some ⟨3, [], 1⟩))).barrier ⟨.pkg 1, .pkg, 3⟩
     b.abandoned = some ⟨3, [], 1⟩ ∧ (⟨3, [], 1⟩ : Abandoned).episode = ((setX (at_ .v) 6 3).rx 6).toNat) := by
  and_intros <;> decide +kernel

/-- A counter that has reached the value awaited, and one that has not. -/
theorem witness_Timelines : Plain (at_ .v) ∧ (at_ .v).session (at_ .v).th.tid = none ∧ spaceOf (at_ .v) (at_ .v).th (tlLevel 15) = some (.die 1 2) ∧
    (∀ c ∈ (at_ .v).un.cmds, c.tid ≠ (at_ .v).th.tid ∨ c.key ≠ ⟨.die 1 2, 15⟩ ∨ c.held = none) ∧
    ((at_ .v).rx 0).toNat ≤ ((at_ .v).tl ⟨.die 1 2, 15⟩).val ∧ ((at_ .v).tl ⟨.die 1 2, 15⟩).val < ((at_ .v).rx 6).toNat := by
  and_intros <;> first | decide +kernel | (unfold Plain; decide +kernel)

/-- Another thread of the same partition, with a queue of n messages. -/
def receiver (n : Nat) : Thread := { (at_ .c).th with tid := ⟨1, 0⟩, rxq := List.replicate n ⟨1, ⟨2, 0⟩, []⟩ }

/-- A thread that sends to a receiver: x5 names it. -/
def sender (n : Nat) : State := setX { at_ .v with others := [receiver n] } 5 0x10000

/-- No receiver, a full one, and one with room for one message more. -/
theorem witness_Messages : Plain (sender 16) ∧ Quiet (sender 16) ∧ gangStopped (sender 16) = false ∧ ((sender 16).rx 5).toNat.testBit 63 = false ∧
    threadOfWord (sender 16) (((sender 16).rx 6).toNat % 2 ^ 32) = none ∧
    threadOfWord (sender 16) (((sender 16).rx 5).toNat % 2 ^ 32) = some (receiver 16) ∧
    (sender 16).partOf (receiver 16).ctx = (sender 16).partOf (sender 16).th.ctx ∧ 16 ≤ queuedFor (sender 16) (receiver 16) ∧
    threadOfWord (sender 15) (((sender 15).rx 5).toNat % 2 ^ 32) = some (receiver 15) ∧ queuedFor (sender 15) (receiver 15) < 16 := by
  and_intros <;> first | (apply quiet_of; decide +kernel) | decide +kernel | (unfold Plain; decide +kernel)

/-- A limit that has run out, a message in the queue, and neither. -/
theorem witness_Messages_wait : (let s := onTh (at_ .v) fun t => { t with expired := true }
     Plain s ∧ s.session s.th.tid = none ∧ s.th.expired = true) ∧
    (let s := onTh (at_ .v) fun t => { t with rxq := [⟨9, ⟨2, 0⟩, []⟩] }
     s.th.expired = false ∧ s.th.rxq = ⟨9, ⟨2, 0⟩, []⟩ :: [] ∧ (⟨2, 0⟩ : Tid) ≠ noSender) ∧ (at_ .v).th.expired = false ∧ (at_ .v).th.rxq = [] := by
  and_intros <;> first | decide +kernel | (unfold Plain; decide +kernel)

/-- A thread of a stand that spawns on a core: x5 names the core. -/
def spawner (die quad core : Nat) : State := setX (inJob (at_ .v) true) 5 (BitVec.ofNat 64 (2 ^ 63 + die * 2 ^ 17 + quad * 2 ^ 10 + core * 2 ^ 8))

/-- Another quad, another die; a core that has failed; a core with a free place. -/
theorem witness_Spawns : Plain (spawner 2 1 0) ∧ Quiet (spawner 2 1 0) ∧ gangStopped (spawner 2 1 0) = false ∧ ((spawner 2 1 0).rx 5).toNat.testBit 63 = true ∧
    (spawner 2 1 0).stand? (spawner 2 1 0).th.tid.stand = some (standOf (at_ .v).th) ∧ ((spawner 2 1 0).rx 5).toNat / 2 ^ 10 % 128 ≠ (standOf (at_ .v).th).quad ∧
    ((spawner 3 0 0).rx 5).toNat / 2 ^ 17 % 32 ≠ (standOf (at_ .v).th).die ∧
    (let s := spawner 2 0 3
     ((s.rx 5).toNat / 2 ^ 17 % 32, (s.rx 5).toNat / 2 ^ 10 % 128, (s.rx 5).toNat / 2 ^ 8 % 4) = (2, 0, 3) ∧ standCount s 65535 < 16 ∧ freeIndex s 65535 = some 1 ∧
       s.job? 1 = some job1 ∧ 1 < job1.slots ∧ spawnPlace s ⟨2, 0, 3⟩ 1 = some ⟨⟨2, 0, 3⟩, 0⟩ ∧
       spawnPlace { s with un := { s.un with out := [⟨2, 0, 3⟩] } } ⟨2, 0, 3⟩ 1 = none) := by
  and_intros <;> first | (apply quiet_of; decide +kernel) | decide +kernel | (unfold Plain; decide +kernel)

/-- Threads of each class, with no debug session. -/
theorem witness_SystemRegisters : (∀ c ∈ [CoreClass.c, .v, .t], (at_ c).th.status.chain = false ∧ (at_ c).session (at_ c).th.tid = none ∧ clsOf (at_ c).th = c) ∧
    (at_ .v).th.place = some ⟨⟨2, 0, 0⟩, 0⟩ := by
  and_intros <;> decide +kernel

/-- User code, an address that is not aligned, a write of CHAIN, a code of no format, and read-only registers of a V-thread and of a T-thread. -/
theorem witness_NamedCauses : (∀ r ∈ [SReg.vl, .lease, .mshape], (r ∈ [SReg.vl, .lease, .mshape] → clsOf (at_ .v).th = .v) ∧ (r = .tileshape → clsOf (at_ .v).th = .t)) ∧
    (SReg.tileshape ∉ [SReg.vl, .lease, .mshape] ∧ clsOf (at_ .t).th = .t ∧ clsOf (at_ .c).th = .c ∧ (5 : Reg) ≠ 0) ∧ (at_ .v).th.status.priv = false ∧ ((at_ .v).rx 6).toNat % 4 ≠ 0 ∧ ((setX (at_ .v) 5 4).rx 5).getLsbD 2 = true ∧
    ((setX (at_ .v) 5 13).rx 5).toNat % 16 ∈ [13, 14, 15] ∧ ((setX (at_ .v) 5 15).rx 5).toNat % 16 ∈ [13, 14, 15] := by
  and_intros <;> decide +kernel

/-- Values for STATUS, FMTA and each of the others; a VCFG at its limits; h registers with no write in progress. -/
theorem witness_SystemRegisterWrites : (let v : Word := (at_ .v).rx 6
     (SReg.tcause, v) ∈ writtenField (at_ .v) v ∧ v.toNat % 16 < 13 ∧ (5 : Reg) ≠ 0) ∧ ((setX (at_ .v) 5 0x20).rx 5).getLsbD 2 = false ∧
    ((setX (at_ .v) 5 12).rx 5).toNat % 16 < 13 ∧
    (let v : Word := (setX (at_ .v) 5 0x202014).rx 5
     v.toNat / 4 % 8 < 6 ∧ v.toNat / 2 ^ 8 % 64 ≤ v.toNat / 2 ^ 16 % 64 ∧ v.toNat / 2 ^ 16 % 64 ≤ 32 ∧ (at_ .v).th.status.mm = false) ∧
    (6 ≤ ((setX (at_ .v) 5 0x18).rx 5).toNat / 4 % 8 ∧ ((setX (at_ .v) 5 0x010200).rx 5).toNat / 2 ^ 16 % 64 < ((setX (at_ .v) 5 0x010200).rx 5).toNat / 2 ^ 8 % 64 ∧
      32 < ((setX (at_ .v) 5 0x210000).rx 5).toNat / 2 ^ 16 % 64) ∧
    (let s := onTh (at_ .v) fun t => { t with status := { t.status with mm := true } }
     s.th.status.mm = true ∧ ((setX s 5 0).rx 5).toNat % 4 = s.th.vec.sew.code ∧ ((setX s 5 0).rx 5).toNat / 2 ^ 8 % 64 = s.th.vec.lmin ∧
       ((setX s 5 0).rx 5).toNat / 2 ^ 16 % 64 = s.th.vec.lpref ∧ ((setX s 5 3).rx 5).toNat % 4 ≠ s.th.vec.sew.code) ∧
    (∀ x ∈ (at_ .t).un.hregs, x.cycle ≤ (at_ .t).dieCycle 6) := by
  and_intros <;> decide +kernel

/-- A capability entry of partition 1. -/
def entry (ix parent : Nat) (rights : BitVec 8) : CapEntry := ⟨1, ix, 5, true, parent, rights, false, 1, 0⟩

/-- A thread whose context holds the token of entry 2 in k3, in a table with n entries. -/
def holder (n : Nat) : State :=
  { at_ .v with db := { (at_ .v).db with caps := (List.range n).map fun i => entry i 0 0x3F, kregs := [⟨1, 3, 0x500000002⟩] } }

/-- An invalid token; a valid one; a target that is not enabled, and one of another partition; room for an entry; a token that is held. -/
theorem witness_Capabilities : Plain (holder 3) ∧ capOf (holder 3) 1 (kReg (holder 3) 1 0) = none ∧ capOf (holder 3) 1 (kReg (holder 3) 1 3) = some (entry 2 0 0x3F) ∧
    ((holder 3).ctxRec (((setX (holder 3) 5 0x200000000).rx 5).toNat / 2 ^ 32 % 2 ^ 12)).en = false ∧
    (let s : State := setX { holder 3 with xl := { (holder 3).xl with ctxs := (holder 3).xl.ctxs ++ [(2, ⟨true, 3, 1, 9⟩)] } } 5 0x200000000
     (s.ctxRec 2).en = true ∧ s.partOf (((s.rx 5).toNat) / 2 ^ 32 % 2 ^ 12) ≠ s.partOf (activeCtx s s.th)) ∧
    ((holder 3).ctxRec (((setX (holder 3) 5 0x100000000).rx 5).toNat / 2 ^ 32 % 2 ^ 12)).en = true ∧ (holder 3).partOf 1 = (holder 3).partOf (activeCtx (holder 3) (holder 3).th) ∧
    capAt (holder 3) 1 3 = none ∧ 3 < 4096 ∧ capOf (holder 3) 1 ((setX (holder 3) 5 7).rx 5) = none ∧
    (let s : State := { holder 3 with db := { (holder 3).db with kregs := [⟨2, 3, 0x500000002⟩] } }
     capOf s 1 ((setX s 5 0x500000002).rx 5) = some (entry 2 0 0x3F) ∧ capHeld s 1 1 (entry 2 0 0x3F) = false) ∧
    capOf (holder 3) 1 ((setX (holder 3) 5 0x500000002).rx 5) = some (entry 2 0 0x3F) ∧ capHeld (holder 3) 1 1 (entry 2 0 0x3F) = true ∧ (holder 3).db.sessions = [] := by
  and_intros <;> first | decide +kernel | (unfold Plain; decide +kernel)

theorem capAt_full (s : State) (part i : Nat) (h : ∃ e ∈ s.db.caps, e.part = part ∧ e.index = i ∧ e.used = true) : (capAt s part i).isSome = true := by
  obtain ⟨e, he, h1, h2, h3⟩ := h
  unfold capAt
  rw [List.find?_isSome]
  exact ⟨e, he, by simp [h1, h2, h3]⟩

theorem holder_full (n i : Nat) (h : i < n) : (capAt (holder n) 1 i).isSome = true :=
  capAt_full _ _ _ ⟨entry i 0 0x3F, List.mem_map.2 ⟨i, List.mem_range.2 h, rfl⟩, rfl, rfl, rfl⟩

/-- A table that is full. -/
theorem witness_Capabilities_full : capOf (holder 4096) 1 (kReg (holder 4096) 1 3) = some (entry 2 0 0x3F) ∧ ((holder 4096).ctxRec (((setX (holder 4096) 5 0x100000000).rx 5).toNat / 2 ^ 32 % 2 ^ 12)).en = true ∧
    (∀ i < 4096, (capAt (holder 4096) 1 i).isSome = true) :=
  ⟨by decide +kernel, by decide +kernel, holder_full 4096⟩

/-- A message that waits, a limit that has run out, neither, and no request. -/
theorem witness_WaitsAndYields : (onTh (at_ .v) fun t => { t with rxq := [⟨9, ⟨2, 0⟩, []⟩] }).th.rxq ≠ [] ∧
    (let t := (onTh (at_ .v) fun t => { t with expired := true }).th
     t.rxq = [] ∧ t.expired = true) ∧ (at_ .v).th.rxq = [] ∧ (at_ .v).th.expired = false ∧ (at_ .v).th.req.preempt = false := by
  and_intros <;> decide +kernel

theorem witness_ThreadExit : Plain (inJob (at_ .v) true) ∧ Quiet (inJob (at_ .v) true) ∧ (inJob (at_ .v) true).th.run = .running ∧ (inJob (at_ .v) true).th.status.hnd = false ∧
    (inJob (at_ .v) true).th.status.priv = false ∧ (∀ st, (inJob (at_ .v) true).stand? (inJob (at_ .v) true).th.tid.stand = some st → st.bad = none) ∧
    (∀ c ∈ (inJob (at_ .v) true).un.cmds, c.tid ≠ (inJob (at_ .v) true).th.tid ∨ c.held = none) := by
  and_intros <;> first
    | (apply quiet_of; decide +kernel)
    | (apply some_all (standOf (at_ .v).th) <;> decide +kernel)
    | decide +kernel
    | (unfold Plain; decide +kernel)

/-- A tile of int8 elements at die level, handle 240. -/
def tile (readers : List LockHolder) (writer : Option Tid) (queue : List (Tid × Bool)) : Tile :=
  { key := ⟨.die 1 2, 240⟩, fmt := .int8, rows := 4, cols := 8, othr := 0, ostand := 65535, store := .pinned 2, part := 1, base := 0, hcore := 0, readers := readers
    writer := writer, queue := queue, bytes := [], bad := [] }

/-- A thread beside tiles. -/
def withTiles (s : State) (ks : List Tile) : State := { s with un := { s.un with tiles := ks } }

/-- The thread's own name. -/
def me : Tid := ⟨65535, 0⟩

/-- The page of data mapped by the tables too, with V, R, W, U, A and D, and the class-state area in it. -/
def withArea (s : State) : State :=
  { onTh s fun t => { t with csa := 0x20000 } with ms := { s.ms with mem := cellWrite s.ms.mem 0x5100 8 (0x20000 + 128 + 64 + 16 + 4 + 2 + 1) } }

/-- A V-thread whose partition owns a C-core. -/
def beside : State := setX { withArea (at_ .v) with un := { (at_ .v).un with owner := [(⟨0, 0, 0⟩, 1)] }, regs10 := assoc (at_ .v).regs10 (.qown 0 0) 1 } 5 0

/-- What the write of its class state comes to, as a thread moves to a class. -/
noncomputable def besideWrite (c : CoreClass) (s : State) : Except (XFault × Nat) Unit × State :=
  let s0 := showOwn (s.advance 4)
  csaWrite s0 s0.th (spillParts s0 s0.th (decide (c = .t)))

/-- Whether an access is performed. -/
def isOk {ε α σ : Type} (r : Except ε α × σ) : Bool :=
  match r.1 with
  | .ok _ => true
  | .error _ => false

theorem isOk_eq {ε σ : Type} (r : Except ε Unit × σ) (h : isOk r = true) : r = (.ok (), r.2) := by
  obtain ⟨q, s⟩ := r
  cases q with
  | ok u => rfl
  | error e => simp [isOk] at h

/-- A C-thread whose partition owns no T-core. -/
def unowned : State := setX (withArea (at_ .c)) 5 2

/-- The write of its portable context as it joins the streamer queue. -/
noncomputable def queuedWrite : Except (XFault × Nat) Unit × State :=
  let u := (besideWrite .t unowned).2
  csaWrite u u.th [(0x300, wordsBytes (portable { u.th with vspill := u.th.vspill || clsOf unowned.th == .v } 0 (clsOf unowned.th) .t))]

/-- A core-level tile of `me`, and one of another thread. -/
def coreTile (h : Nat) (who : Tid) : Tile := { tile [] none [] with key := ⟨.core 65535 ⟨2, 0, 0⟩, h⟩, othr := who.index, ostand := who.stand }

theorem ties_of (s : State) (k : Tile) (h : s.un.tiles = [k]) (hk : ties s k) : ∃ q ∈ s.un.tiles, ties s q := ⟨k, by rw [h]; exact List.mem_singleton.2 rfl, hk⟩

theorem untied_of (s : State) (h : s.un.tiles = []) : ∀ k ∈ s.un.tiles, ¬ties s k := by simp [h]

/-- A core-level tile owned, a tile locked, and neither. -/
theorem witness_Migrates_ties : (∃ k ∈ (withTiles beside [coreTile 9 me]).un.tiles, ties (withTiles beside [coreTile 9 me]) k) ∧
    (∃ k ∈ (withTiles beside [tile [.thread me] none []]).un.tiles, ties (withTiles beside [tile [.thread me] none []]) k) ∧
    (∀ k ∈ beside.un.tiles, ¬ties beside k) ∧ ∀ k ∈ unowned.un.tiles, ¬ties unowned k :=
  ⟨ties_of _ (coreTile 9 me) (by decide +kernel) (Or.inl ⟨⟨65535, ⟨2, 0, 0⟩, by decide +kernel⟩, by decide +kernel, by decide +kernel⟩),
    ties_of _ (tile [.thread me] none []) (by decide +kernel) (Or.inr (Or.inr (by decide +kernel))), untied_of _ (by decide +kernel), untied_of _ (by decide +kernel)⟩

/-- The writes of class state are performed. -/
theorem witness_Migrates_writes : besideWrite .c beside = (.ok (), (besideWrite .c beside).2) ∧ besideWrite .t unowned = (.ok (), (besideWrite .t unowned).2) ∧
    queuedWrite = (.ok (), queuedWrite.2) :=
  ⟨isOk_eq _ (by decide +kernel), isOk_eq _ (by decide +kernel), isOk_eq _ (by decide +kernel)⟩

/-- Code 3, its own class; chain mode; a move for which a place is free, and for which none is. -/
theorem witness_Migrates : Plain (at_ .v) ∧ ((setX (at_ .v) 5 3).rx 5).toNat % 4 = 3 ∧ ((setX (at_ .v) 5 1).rx 5).toNat % 4 = (clsOf (at_ .v).th).code ∧
    CoreClass.c.code = (beside.rx 5).toNat % 4 ∧ CoreClass.c ≠ clsOf beside.th ∧
    (onTh beside fun t => { t with status := { t.status with chain := true } }).th.status.chain = true ∧
    Plain beside ∧ Quiet beside ∧
    nearest beside.clk.blend (beside.th.place.getD ⟨coreOf beside.th, 0⟩).at_
      (candidates (besideWrite .c beside).2 (beside.partOf beside.th.ctx) beside.th.vec.grant [.c]) = some ⟨⟨0, 0, 0⟩, 0⟩ ∧
    Plain unowned ∧ Quiet unowned ∧ CoreClass.t.code = (unowned.rx 5).toNat % 4 ∧ CoreClass.t ≠ clsOf unowned.th ∧
    nearest unowned.clk.blend (unowned.th.place.getD ⟨coreOf unowned.th, 0⟩).at_
      (candidates (besideWrite .t unowned).2 (unowned.partOf unowned.th.ctx) (unowned.th.owed.getD 0) [.t]) = none := by
  and_intros <;> first
    | (apply quiet_of; decide +kernel)
    | decide +kernel
    | (unfold Plain; decide +kernel)

/-- A register of f set. -/
def setF (s : State) (r : Fin 32) (v : Word) : State := onTh s fun t => { t with f := t.f.set r v }

/-- FP operands of each kind: a signalling NaN, numbers, an infinity, a number that converts. -/
theorem witness_FloatToInteger : FpReady (at_ .v) ∧ (fp64.value (fpBits .f64 (readF (setF (at_ .v) 1 0x7FF0000000000001).th 1))).isNan = true ∧
    (fp64.value (fpBits .f64 (readF (at_ .v).th 1))).isNan = false ∧ fp64.value (fpBits .f64 (readF (setF (at_ .v) 1 0xFFF0000000000000).th 1)) = .inf true ∧
    roundInt (roundingInForce (at_ .v) .rtz 0) (fp64.value (fpBits .f64 (readF (setF (at_ .v) 1 0x4000000000000000).th 1))) = some (2, false) ∧
    roundInt (roundingInForce (at_ .v) .rtz 0) (fp64.value (fpBits .f64 (readF (setF (at_ .v) 1 0x43F0000000000000).th 1))) = some (2 ^ 64, false) := by
  and_intros <;> first | decide +kernel | (unfold Plain; decide +kernel)

/-- Whether a value is finite. -/
def isNum (v : Val) : Bool :=
  match v with
  | .num .. => true
  | _ => false

/-- The largest FP32 value is one; half a unit past one rounds to even, in RTZ, RDN and RUP too. -/
theorem witness_Rounding : 0x7F7FFFFF < 2 ^ fp32.width ∧ (fp32.value 0x7F7FFFFF).isNan = false ∧
    (∀ m ∈ [Rm.rne, .rtz, .rdn, .rup], isNum (fp32.value (roundTo fp32 ⟨m, false, 0, 0⟩ (.num false 0x1000001 (-24))).1) = true) ∧
    isNum (fp32.value 0x3F800000) = true ∧ 0x1000001 ≠ 0 := by
  and_intros <;> decide +kernel

/-- Four V-threads of a stand on the quad's four V-fronts, in chain mode, the current one on a core given; the queue behind it and the one before it. -/
def chained (core : Nat) (up down : List Word) : State :=
  let s := onTh (at_ .v) fun t => { t with place := some ⟨⟨2, 0, core⟩, 0⟩, status := { t.status with chain := true } }
  let mate := fun (k : Nat) => { s.th with tid := ⟨65535, k + 1⟩, place := some (⟨⟨2, 0, k⟩, 0⟩ : Place) }
  { s with others := ((List.range 4).filter fun k => decide (k ≠ core)).map mate
           un := { s.un with chains := [⟨⟨2, 0, core - 1⟩, 0, up⟩, ⟨⟨2, 0, core⟩, 0, down⟩] } }

/-- Queues that are empty, that hold a dword, that are full and that have room for one; the first and the last core; a neighbour that is not in chain mode. -/
theorem witness_ChainMode : (chained 1 [] []).th.status.chain = true ∧ (chained 1 [] []).th.place = some ⟨⟨2, 0, 1⟩, 0⟩ ∧
    chainPartner (chained 1 [] []) 65535 ⟨⟨2, 0, 0⟩, 0⟩ = true ∧ chainItems (chained 1 [] []) ⟨2, 0, 0⟩ 0 = [] ∧ chainItems (chained 1 [5] []) ⟨2, 0, 0⟩ 0 = 5 :: [] ∧
    chainPartner (chained 2 [] []) 65535 ⟨⟨2, 0, 3⟩, 0⟩ = true ∧ 8 ≤ (chainItems (chained 2 [] (List.replicate 8 1)) ⟨2, 0, 2⟩ 0).length ∧
    (chainItems (chained 2 [] (List.replicate 7 1)) ⟨2, 0, 2⟩ 0).length < 8 ∧ (chained 0 [] []).th.place = some ⟨⟨2, 0, 0⟩, 0⟩ ∧ (chained 3 [] []).th.place = some ⟨⟨2, 0, 3⟩, 0⟩ ∧
    chainPartner { chained 1 [] [] with others := [] } 65535 ⟨⟨2, 0, 0⟩, 0⟩ = false ∧ chainPartner { chained 1 [] [] with others := [] } 65535 ⟨⟨2, 0, 2⟩, 0⟩ = false ∧
    chainEnded { chained 1 [] [] with others := [] } 65535 ⟨⟨2, 0, 0⟩, 0⟩ = false ∧
    (let s : State := { chained 1 [] [] with others := [], un := { (chained 1 [] []).un with chainLeft := [(⟨⟨2, 0, 0⟩, 0⟩, 65535)] } }
     chainEnded s 65535 ⟨⟨2, 0, 0⟩, 0⟩ = true ∧ s.th.status.chain = true ∧ chainItems s ⟨2, 0, 0⟩ 0 = []) := by
  and_intros <;> decide +kernel

/-- A supervisor thread on a C-core, with x5 a target dword. -/
def supervisor (d : Word) (inv : List Inval) : State :=
  let s := layInstr State.reset (.c, true) []
  setX { s with xl := { s.xl with inv := inv } } 5 d

/-- What a TLBINV of a kind asks of other packages. -/
def ask1 : InvAsk := ⟨1, .tlbinv 0 1, 0⟩

/-- A target dword: KIND, DIE, QUAD, CORE and the rest. -/
def target (kind die quad core rest : Nat) : Word := BitVec.ofNat 64 (kind * 2 ^ 44 + die * 2 ^ 32 + quad * 2 ^ 18 + core * 2 ^ 16 + rest)

/-- User code; bad targets: kind 3, reserved bits, a quad past the last, a die that the blend lacks, an M-die with a quad and below package scope; good targets of
each kind, one of them an M-die; an invalidation that is done, and one that failed. -/
theorem witness_TlbInvalidation : (at_ .c).th.status.priv = false ∧ (supervisor 0 []).th.status.priv = true ∧ Plain (supervisor 0 []) ∧
    (∀ i ∈ (supervisor 0 []).xl.inv, i.tid ≠ (supervisor 0 []).th.tid) ∧ 3 ≤ ((supervisor (target 3 0 0 0 0) []).rx 5).toNat / 2 ^ 44 % 16 ∧
    ((supervisor (target 0 0 0 0 (2 ^ 37)) []).rx 5).toNat / 2 ^ 37 % 2 ^ 7 ≠ 0 ∧ ((supervisor (target 0 0 0 0 (2 ^ 31)) []).rx 5).toNat / 2 ^ 25 % 2 ^ 7 ≠ 0 ∧
    ((supervisor 1 []).rx 5).toNat % 2 ^ 16 ≠ 0 ∧
    (let d := ((supervisor (target 0 2 127 0 0) []).rx 5).toNat
     d / 2 ^ 32 % 32 ∈ computeDies (at_ .c).clk.blend ∧ quadsOf (classOfDie (d / 2 ^ 32 % 32)) ≤ d / 2 ^ 18 % 128) ∧
    (let d := ((supervisor (target 0 31 0 0 0) []).rx 5).toNat
     d / 2 ^ 32 % 32 ∉ computeDies (at_ .c).clk.blend ∧ d / 2 ^ 32 % 32 ∉ dies (at_ .c).clk.blend) ∧
    (let d := ((supervisor (target 0 14 1 0 0) []).rx 5).toNat
     d / 2 ^ 32 % 32 ∉ computeDies (at_ .c).clk.blend ∧ d / 2 ^ 18 % 128 ≠ 0 ∧ Scope.die.code < 4) ∧
    (∀ k < 3, badDword (supervisor (target k 2 0 3 0) []) .core ((supervisor (target k 2 0 3 0) []).rx 5) = false ∧ ((supervisor (target k 2 0 3 0) []).rx 5).toNat / 2 ^ 44 % 16 = k) ∧
    badDword (supervisor (target 0 14 0 0 0) []) .pkg ((supervisor (target 0 14 0 0 0) []).rx 5) = false ∧
    badDword (supervisor (target 0 14 0 0 0) []) .die ((supervisor (target 0 14 0 0 0) []).rx 5) = true ∧
    (let i : Inval := ⟨0, me, none, 0, none, true⟩
     (supervisor 0 [i]).xl.inv.find? (fun j => decide (j.tid = (supervisor 0 [i]).th.tid)) = some i ∧ i.done = true ∧ i.failed = none) ∧
    (let i : Inval := ⟨0, me, some ask1, 0, some 3, true⟩
     (supervisor 0 [i]).xl.inv.find? (fun j => decide (j.tid = (supervisor 0 [i]).th.tid)) = some i ∧ i.done = true ∧ i.failed = some 3) := by
  and_intros <;> first | decide +kernel | (unfold Plain; decide +kernel)

/-- The parts of a translation, the state that it leaves and its trap, if it has one. -/
def partOfCut (r : Cut) : Xlated :=
  match r with
  | .ok [.here x _ _] _ => x
  | _ => ⟨0, 0, none⟩

def stateOfCut (s : State) (r : Cut) : State :=
  match r with
  | .ok _ s1 | .trap _ _ s1 => s1
  | .stop _ => s

def trapOfCut (r : Cut) : TrapReq :=
  match r with
  | .trap q _ _ => q
  | _ => { cause := 0 }

/-- Whether a translation gives one part of this package. -/
def isHereCut (va n : Nat) (r : Cut) : Bool :=
  match r with
  | .ok [.here _ v m] _ => decide (v = va) && decide (m = n)
  | _ => false

theorem isHereCut_eq (s : State) (va n : Nat) (r : Cut) (h : isHereCut va n r = true) : r = .ok [.here (partOfCut r) va n] (stateOfCut s r) := by
  unfold isHereCut at h
  split at h
  · simp only [Bool.and_eq_true, decide_eq_true_eq] at h
    obtain ⟨rfl, rfl⟩ := h
    rfl
  · simp at h

/-- Whether a translation traps at its first page. -/
def isTrapCut (r : Cut) : Bool :=
  match r with
  | .trap _ [] _ => true
  | _ => false

theorem isTrapCut_eq (s : State) (r : Cut) (h : isTrapCut r = true) : r = .trap (trapOfCut r) [] (stateOfCut s r) := by
  unfold isTrapCut at h
  split at h
  · rfl
  · simp at h

/-- The translation of LINEOP in the data page. -/
noncomputable def lineRes (a : Acc) : Cut := translateParts (at_ .v) (threadWalker (at_ .v) (at_ .v).th) (threadAcc (at_ .v).th a false) [(0x20000, 1)] []

theorem witness_LineOperations : Plain (at_ .v) ∧ (∀ p ∈ (at_ .v).ms.posted, p.tid ≠ (at_ .v).th.tid) ∧ (∀ f ∈ (at_ .v).ms.sfq, f.tid ≠ (at_ .v).th.tid) ∧
    lineRes .code = .ok [.here (partOfCut (lineRes .code)) 0x20000 1] (stateOfCut (at_ .v) (lineRes .code)) ∧ (partOfCut (lineRes .code)).mt = 0 ∧
    lineRes .load = .ok [.here (partOfCut (lineRes .load)) 0x20000 1] (stateOfCut (at_ .v) (lineRes .load)) ∧ (partOfCut (lineRes .load)).mt = 0 ∧
    Memory.wf (stateOfCut (at_ .v) (lineRes .load)).ms = true ∧ (∀ e ∈ (stateOfCut (at_ .v) (lineRes .load)).ms.wtq, e.core ≠ coreOf (at_ .v).th) ∧ clsOf (at_ .v).th ≠ .t ∧
    Cached (at_ .v) .store false (((at_ .v).rx 5).toNat / 128 * 128) 128 (accX (at_ .v) .store false 0x20000 128) (accState (at_ .v) .store false 0x20000 128) ∧
    (accState (at_ .v) .store false 0x20000 128).provStand (at_ .v).th.tid.stand = none ∧ (∀ i ∈ (at_ .v).xl.inv, i.tid ≠ (at_ .v).th.tid) ∧
    (∀ i ∈ (stateOfCut (at_ .v) (lineRes .code)).xl.inv, i.tid ≠ (at_ .v).th.tid) ∧
    (let i : Inval := ⟨0, me, some ⟨1, .line 0, 0x20000⟩, 0, none, true⟩
     (supervisor 0 [i]).xl.inv.find? (fun j => decide (j.tid = (supervisor 0 [i]).th.tid)) = some i ∧ i.done = true ∧ i.failed = none) ∧
    (let i : Inval := ⟨0, me, some ⟨1, .line 0, 0x20000⟩, 0, some 3, true⟩
     (supervisor 0 [i]).xl.inv.find? (fun j => decide (j.tid = (supervisor 0 [i]).th.tid)) = some i ∧ i.done = true ∧ i.failed = some 3) := by
  and_intros <;> first | (apply isHereCut_eq; decide +kernel) | (apply cached_of; decide +kernel) | decide +kernel | (unfold Plain; decide +kernel)

theorem names_of (s : State) (h : Handle) (k : Tile) (hs : spaceOf s s.th (handleLevel h.toNat) = some k.key.space) (ht : s.tile? ⟨k.key.space, h.toNat⟩ = some k)
    (hk : k.key.handle = h.toNat) : Names s h k := ⟨k.key.space, hs, ht, by rw [← hk]⟩

/-- A thread outside its stand's quad. -/
def strayed : State := { at_ .v with gl := { (at_ .v).gl with stands := [{ standOf (at_ .v).th with quad := 1 }] } }

/-- Rows of 2,048 bytes and of one element more; a handle in use; a tile with no command on it, and with one; no tile; a quad-level handle out of reach. -/
theorem witness_TileAllocation : spaceOf (at_ .v) (at_ .v).th (handleLevel 240) = some (.die 1 2) ∧
    (let w := ((setX (at_ .v) 5 0x1000003FF).rx 5).toNat
     Fmt.ofCode (w / 2 ^ 32 % 16) = some .uint8 ∧ (((w % 2 ^ 11 + 1) * Fmt.uint8.width + 7) / 8 ≤ 2048)) ∧
    (let w := ((setX (at_ .v) 5 0x4000003FF).rx 5).toNat
     Fmt.ofCode (w / 2 ^ 32 % 16) = some .fp64 ∧ 2048 < ((w % 2 ^ 11 + 1) * Fmt.fp64.width + 7) / 8) ∧
    (withTiles (at_ .v) [tile [] none []]).tile? ⟨.die 1 2, 240⟩ = some (tile [] none []) ∧ pendOf (withTiles (at_ .v) [tile [] none []]) ⟨.die 1 2, 240⟩ = 0 ∧
    Names (withTiles (at_ .v) [tile [] none []]) 240 (tile [] none []) ∧ (tile [] none []).rows - 1 < 1024 ∧ (tile [] none []).cols - 1 < 2048 ∧
    pitchOf .int8 8 < 64 ∧ (tile [] none []).othr < 64 ∧ (tile [] none []).nstr < 2048 ∧ (tile [] none []).base < 2 ^ 17 ∧
    (at_ .v).tile? ⟨.die 1 2, 240⟩ = none ∧ spaceOf strayed strayed.th (handleLevel 200) = none := by
  and_intros <;> first | (apply names_of <;> decide +kernel) | decide +kernel

/-- A lock that is granted, one that waits, one held as a writer and as a reader, none held, and the oldest request of a queue. -/
theorem witness_TileUse : (∀ k ∈ [tile [] none [], tile [.thread ⟨1, 0⟩] none [(⟨2, 0⟩, true)], tile [] (some ⟨1, 0⟩) [], tile [] (some me) [], tile [.thread me] none []],
      (∀ q ∈ k.queue, q.1 ≠ me) ∧ (withTiles (at_ .v) [k]).tile? ⟨.die 1 2, 240⟩ = some k ∧ k.key = ⟨.die 1 2, 240⟩ ∧
        ((withTiles (at_ .v) [k]).un.tiles.filter fun u => u.recorded me).length < 4) ∧
    Names (withTiles (at_ .v) [tile [] (some me) []]) 240 (tile [] (some me) []) ∧ (tile (List.replicate 62 (.thread ⟨1, 0⟩)) none []).readers.length < 63 ∧
    (let k := tile [.thread me] none []
     me ∉ [⟨1, 0⟩] ∧ k.writer ≠ some me ∧ LockHolder.thread me ∈ k.readers ∧ (withTiles (at_ .v) [k]).tile? ⟨.die 1 2, 240⟩ = some k) ∧
    (let k := tile (List.replicate 63 (.thread ⟨1, 0⟩)) none []
     63 ≤ k.readers.length ∧ LockHolder.thread me ∉ k.readers ∧ k.readers ≠ [] ∧ (withTiles (at_ .v) [k]).tile? ⟨.die 1 2, 240⟩ = some k) ∧
    (let s := withTiles (at_ .v) (tile [] none [] :: (List.range 4).map fun i => { tile [] (some me) [] with key := ⟨.die 1 2, 241 + i⟩ })
     s.tile? ⟨.die 1 2, 240⟩ = some (tile [] none []) ∧ 4 ≤ (s.un.tiles.filter fun u => u.recorded me).length) ∧
    (let q := tile [] none [(me, true)]
     let s := onTh (withTiles (at_ .v) [q]) fun t => { t with run := .parked (.lock q.key) }
     s.tile? q.key = some q ∧ q.queue = (s.th.tid, true) :: [] ∧ s.th.run = .parked (.lock q.key) ∧ q.writer = none ∧ q.readers = []) ∧
    (let k := tile [] none []
     ((setX (at_ .v) 5 0x30007).rx 5).toNat / 2 ^ 16 % 2 ^ 10 < k.rows ∧ ((setX (at_ .v) 5 0x30007).rx 5).toNat % 2 ^ 11 < k.cols ∧ k.bytes.wf 0 = true ∧ k.bad = [] ∧
       k.rows ≤ ((setX (at_ .v) 5 0x40007).rx 5).toNat / 2 ^ 16 % 2 ^ 10 ∧ k.cols ≤ ((setX (at_ .v) 5 0x30008).rx 5).toNat % 2 ^ 11) := by
  and_intros <;> first | (apply names_of <;> decide +kernel) | decide +kernel

/-- A tile of 64 by 64 elements with a handle given. -/
def square (h : Nat) (f : Fmt) : Tile := { tile [] none [] with key := ⟨.die 1 6, h⟩, fmt := f, rows := 64, cols := 64, store := .pinned 6 }

/-- A T-thread beside four square tiles: two operands and two scales. -/
def beforeArray (f : Fmt) : State :=
  setX (setX (withTiles (at_ .t) [square 240 f, square 241 f, square 242 .uint8, square 243 .uint8]) 5 64) 6 0x3F3F2

/-- The window of 64 rows of 64 elements. -/
def window64 : Word := BitVec.ofNat 64 (63 * 2 ^ 52 + 63 * 2 ^ 42)

/-- A die without the pod window, with a copy that begins there. -/
def unwindowed : State := setX { beforeArray .int8 with un := { (beforeArray .int8).un with lacks := [(6, 10)] } } 5 (BitVec.ofNat 64 (255 * 2 ^ 56))

theorem witness_CommandAcceptance_window : Plain unwindowed ∧ RowsReach (beforeArray .int8) [64] (windowOfWord window64) ∧
    ¬RowsReach unwindowed [(unwindowed.rx 5).toNat] ⟨1, 1, 0, 0⟩ ∧ Counter unwindowed 15 ⟨.die 1 6, 15⟩ :=
  ⟨by unfold Plain; decide +kernel, Or.inl (by decide +kernel), by unfold RowsReach; decide +kernel, ⟨.die 1 6, by decide +kernel, by decide +kernel, by decide +kernel⟩⟩

/-- Commands with room, a tile that takes their window, and an engine that is full. -/
theorem witness_CommandAcceptance : Counter (beforeArray .int8) 15 ⟨.die 1 6, 15⟩ ∧ Names (beforeArray .int8) 240 (square 240 .int8) ∧ Names (beforeArray .int8) 241 (square 241 .int8) ∧
    Within (windowOfWord window64) (square 240 .int8) ∧ (square 240 .int8).writer = none ∧ (square 240 .int8).readers = [] ∧
    RoomFor (beforeArray .int8) (.tload ⟨.die 1 6, 240⟩ 64 (windowOfWord window64)) ∧ RoomFor (beforeArray .int8) (.tstore ⟨.die 1 6, 240⟩ 64 (windowOfWord window64)) ∧
    RoomFor (beforeArray .int8) (.tcopyT ⟨.die 1 6, 240⟩ ⟨.die 1 6, 241⟩ (windowOfWord window64)) ∧ engineOpen (beforeArray .int8) false (beforeArray .int8).th = true ∧
    RoomFor (beforeArray .int8) (.taccrd false ⟨.die 1 6, 241⟩ .rne false 0 false) ∧ (square 241 .int8).fmt ≠ .mxfp4 := by
  and_intros <;> first
    | exact ⟨.die 1 6, by decide +kernel, by decide +kernel, by decide +kernel⟩
    | (apply names_of <;> decide +kernel)
    | exact ⟨by decide +kernel, by decide +kernel⟩
    | decide +kernel

/-- A command of the current thread's copy engine. -/
def copyCmd (id : Nat) (op : CmdOp) : Cmd :=
  { id := id, tid := me, ctx := 1, priv := false, core := ⟨6, 0, 0⟩, key := ⟨.die 1 6, 15⟩, tln := 15, seq := id + 1, op := op, pc := 0x10000, prog := 0, held := none, toRead := []
    captured := [], poisoned := false, pod := [], row := none, accepted := 0, orphan := none, ghosts := [], know := [] }

/-- A state with commands. -/
def withCmds (s : State) (cs : List Cmd) : State := { s with un := { s.un with cmds := cs } }

/-- A copy engine that is full, and one that another thread waits for. -/
theorem witness_CommandAcceptance_full :
    (let s := withCmds (beforeArray .int8) ((List.range 64).map fun i => copyCmd i (.tcopyM 0 0 ⟨1, 1, 0, 0⟩))
     engineOpen s false s.th = false) ∧
    (let s : State := { beforeArray .int8 with others := [{ (at_ .t).th with tid := ⟨1, 0⟩, run := .parked (.engine false) }], un := { (beforeArray .int8).un with engineQ := [⟨⟨1, 0⟩, false, coreOf (at_ .t).th⟩] } }
     engineOpen s false s.th = false) := by
  and_intros <;> decide +kernel

/-- K of 0 and above 2,048; a TMMA with two scales whose operands are in order at K = 64; the same for LNS6 without scales and for FP32 at full rate. -/
theorem witness_CommandAcceptance_matrix : clsOf (beforeArray .e4m3).th = .t ∧ Names (beforeArray .e4m3) 242 (square 242 .uint8) ∧ Names (beforeArray .e4m3) 243 (square 243 .uint8) ∧
    (let x := ((beforeArray .e4m3).rx 6).toNat
     x.testBit 16 = true ∧ x.testBit 17 = true ∧ ((beforeArray .e4m3).rx 6).extractLsb' 0 8 = 242 ∧ ((beforeArray .e4m3).rx 6).extractLsb' 8 8 = 243) ∧
    ((beforeArray .e4m3).rx 0).toNat = 0 ∧ 2048 < ((setX (beforeArray .e4m3) 5 2049).rx 5).toNat ∧
    pairKind .e4m3 .e4m3 true = some .fp32 ∧ (beforeArray .e4m3).hasFeat 6 (pairFeat .e4m3 .e4m3) = true ∧ isWide .e4m3 = false ∧
    (square 242 .uint8).fmt = .uint8 ∧ (64 + 31) / 32 ≤ (square 242 .uint8).cols ∧ .fp32 = kindAfter (beforeArray .e4m3) ⟨6, 0, 0⟩ false ∧
    engineOpen (beforeArray .e4m3) true (beforeArray .e4m3).th = true ∧ (beforeArray .fp32).hasFeat 6 9 = true ∧ (square 240 .fp32).fmt = .fp32 ∧
    ((setX (beforeArray .lns6) 6 0).rx 6).toNat.testBit 16 = false ∧ pairKind .lns6 .lns6 false = some .lns := by
  and_intros <;> first | (apply names_of <;> decide +kernel) | decide +kernel

/-- A V-thread with one cluster, a SEW and a VL, whose partition may have every cluster of its quad. -/
def vec (w : Ew) (vl : Nat) : State :=
  (onTh (at_ .v) fun t => { t with vec := { t.vec with sew := w, vl := vl, grant := 1, lmin := 1, lpref := 4 } }).setReg10 (.vquota 2 0 1) 32

/-- A vector state changed. -/
def onVec (s : State) (f : VecState → VecState) : State := onTh s fun t => { t with vec := f t.vec }

theorem vecReady_of (n : Nat) (s : State) (h : s.th.status.chain = false ∧ clsOf s.th = .v ∧ s.hasFeat (coreOf s.th).die n = true ∧ s.session s.th.tid = none) :
    VecReady n s := h

/-- Clusters that are free, too few of them, matrix mode, a pin, and group registers that are in order and not. -/
theorem witness_VectorConfiguration : VecReady 1 (vec .e32 4) ∧ (vec .e32 4).th.vec.stripEn = false ∧ (vec .e32 4).un.leaseQ = [] ∧
    (vec .e32 4).th.vec.lmin ≤ min (poolOf (vec .e32 4) 2 0) (quotaOf (vec .e32 4) 2 0 ((vec .e32 4).partOf 1)) ∧ (vec .e32 4).th.status.mm = false ∧
    (vec .e32 4).th.vec.lmin ≤ (vec .e32 4).th.vec.grant + leaseFree (vec .e32 4) ∧ (vec .e32 4).th.vec.pin = false ∧
    (let s : State := onVec { vec .e32 4 with others := [(onTh (onVec (vec .e32 4) fun v => { v with grant := 32 }) fun t => { t with tid := ⟨1, 0⟩ }).th] } fun v => { v with grant := 0 }
     s.th.vec.grant + leaseFree s < s.th.vec.lmin) ∧
    (onTh (vec .e32 4) fun t => { t with status := { t.status with mm := true } }).th.status.mm = true ∧ (onVec (vec .e32 4) fun v => { v with pin := true }).th.vec.pin = true ∧
    badGroup ((vec .e32 4).rx 0) ((setX (vec .e32 4) 6 0x8000).rx 6) = true ∧ badGroup ((vec .e32 4).rx 0) ((setX (vec .e32 4) 6 0x7000).rx 6) = false := by
  and_intros <;> first | decide +kernel | (unfold Plain; decide +kernel)

theorem writable_of (s : State) (vd : Reg) (h : (s.th.status.mm = false ∨ vd.toNat < 16) ∧ (readV s.th vd).bytes.wf 0 = true) : Writable s vd := h

/-- The trap of a result, and the state after it. -/
def trapOfRes {α : Type} (s : State) (r : Res α) : TrapReq × State :=
  match r with
  | .stop (.trap q s1) => (q, s1)
  | _ => ({ cause := 0 }, s)

/-- Whether a result is a trap. -/
def isTrap {α : Type} (r : Res α) : Bool :=
  match r with
  | .stop (.trap ..) => true
  | _ => false

theorem isTrap_eq {α : Type} (s : State) (r : Res α) (h : isTrap r = true) : r = .stop (.trap (trapOfRes s r).1 (trapOfRes s r).2) := by
  unfold isTrap at h
  split at h
  · rfl
  · simp at h

/-- A state in which a vector memory instruction issues. -/
def issued (s : State) : State := vmemIssue s

/-- No active element; one, at the base and as the last of a line; a first active element on a page that is not mapped. -/
theorem witness_VectorMemory : VecReady 1 (vec .e32 1) ∧ Writable (vec .e32 1) 2 ∧ (vec .e32 1).th.dauAhead = [] ∧ worked (vec .e32 0) false = [] ∧ worked (vec .e32 1) false = [0] ∧
    Cached (issued (vec .e32 1)) .load true ((vec .e32 1).rx 5 + BitVec.ofNat 64 (0 * 4)).toNat 4 (accX (issued (vec .e32 1)) .load true 0x20000 4) (accState (issued (vec .e32 1)) .load true 0x20000 4) ∧
    Sound (accState (issued (vec .e32 1)) .load true 0x20000 4) (accX (issued (vec .e32 1)) .load true 0x20000 4).pa ∧ (accState (issued (vec .e32 1)) .load true 0x20000 4).ms.wtq = [] ∧
    (accState (issued (vec .e32 1)) .load true 0x20000 4).ms.gath = [] ∧ copyOf (accState (issued (vec .e32 1)) .load true 0x20000 4) (accX (issued (vec .e32 1)) .load true 0x20000 4) = none ∧
    worked (onVec (vec .e32 32) fun v => { v with veidx := 31 }) false = [31] ∧ ((vec .e32 32).rx 5 + BitVec.ofNat 64 (31 * 4)).toNat = 0x2007C ∧
    Cached (issued (vec .e32 1)) .load true 0x2007C 4 (accX (issued (vec .e32 1)) .load true 0x2007C 4) (accState (issued (vec .e32 1)) .load true 0x2007C 4) ∧
    Cached (issued (vec .e32 1)) .store true 0x20000 4 (accX (issued (vec .e32 1)) .store true 0x20000 4) (accState (issued (vec .e32 1)) .store true 0x20000 4) ∧
    (accState (issued (vec .e32 1)) .store true 0x20000 4).provStand me.stand = none ∧ Quiet (accState (issued (vec .e32 1)) .store true 0x20000 4) ∧ (vec .e32 1).th.vec.scope.code ≤ 1 ∧
    2 ≤ (onVec (vec .e32 1) fun v => { v with scope := .quad }).th.vec.scope.code ∧
    threadParts (issued (setX (vec .e32 1) 5 0x30000)) .load true 0x30000 4 = .stop (.trap (trapOfRes (vec .e32 1) (accRes (issued (setX (vec .e32 1) 5 0x30000)) .load true 0x30000 4)).1
      (trapOfRes (vec .e32 1) (accRes (issued (setX (vec .e32 1) 5 0x30000)) .load true 0x30000 4)).2) ∧
    threadParts (issued (setX (vec .e32 1) 5 0x30000)) .store true 0x30000 4 = .stop (.trap (trapOfRes (vec .e32 1) (accRes (issued (setX (vec .e32 1) 5 0x30000)) .store true 0x30000 4)).1
      (trapOfRes (vec .e32 1) (accRes (issued (setX (vec .e32 1) 5 0x30000)) .store true 0x30000 4)).2) := by
  and_intros <;> first
    | (apply cached_of; decide +kernel)
    | (apply sound_of; decide +kernel)
    | (apply quiet_of; decide +kernel)
    | (apply isTrap_eq; decide +kernel)
    | decide +kernel
    | (unfold Plain; decide +kernel)

/-- VectorIntegers, VectorFloats, VectorReductions: a destination that may be written; each SEW; VEIDX that is 0 and not; formats as wide as the native one
and wider; mask elements that are all clear, and one that is set. -/
theorem witness_VectorForms : VecReady 1 (vec .e32 4) ∧ Writable (vec .e32 4) 2 ∧ Writable (vec .e32 4) 3 ∧ (vec .e8 4).th.vec.sew = .e8 ∧ (vec .e16 4).th.vec.sew = .e16 ∧
    (vec .e64 4).th.vec.sew = .e64 ∧ Fmt.fp32.width ≤ Fmt.fp32.width ∧ Fmt.fp32.width < Fmt.fp64.width ∧ (onVec (vec .e32 4) fun v => { v with veidx := 1 }).th.vec.veidx ≠ 0 ∧
    (let s := onVec (vec .e32 4) fun v => { v with veidx := 1 }
     VecReady 1 s ∧ Writable s 2 ∧ Writable s 3 ∧ s.hasFeat (coreOf s.th).die 9 = true) ∧
    (vec .e32 4).th.vec.veidx = 0 ∧ (vec .e32 4).th.vec.grant ≠ 0 ∧ nativeFmt (vec .e32 4).th ≠ none ∧ (vec .e32 4).hasFeat 2 9 = true ∧ (vec .e32 0).th.vec.vl = 0 ∧
    (vec .e32 1).th.vec.vl = 1 ∧ (∀ j < 4, (getElem (vec .e32 4).th 1 j).testBit 0 = false) ∧
    (let s := onTh (vec .e32 4) fun t => writeV t 1 ((readV t 1).setElem 8 32 3 1)
     works s false 3 = true ∧ (getElem s.th 1 3).testBit 0 = true ∧ ∀ i < 3, works s false i = true → (getElem s.th 1 i).testBit 0 = false) := by
  and_intros <;> first | decide +kernel | (unfold Plain; decide +kernel)

/-- The two element loads of LDPAIR.W at x5. -/
noncomputable def pairRes : Res (List Byte) := elemBytes (issued (vec .e32 1)) 0x20000 4 0 none

/-- The bytes of a result. -/
def bytesOfRes (r : Res (List Byte)) : List Byte :=
  match r with
  | .ok bs _ => bs
  | .stop _ => []

/-- Whether a result is bytes. -/
def isBytes (r : Res (List Byte)) : Bool :=
  match r with
  | .ok .. => true
  | .stop _ => false

theorem isBytes_eq (s : State) (r : Res (List Byte)) (h : isBytes r = true) : r = .ok (bytesOfRes r) (stateOfRes s r) := by
  unfold isBytes at h
  split at h
  · rfl
  · simp at h

/-- The second of them. -/
noncomputable def pairRes2 : Res (List Byte) := elemBytes (stateOfRes (vec .e32 1) pairRes) 0x20004 4 0 none

theorem witness_VectorReductions_pair : (vec .e32 1).th.vec.vl = 1 ∧ elemBytes (vmemIssue (vec .e32 1)) ((vec .e32 1).rx 5).toNat 4 0 none = .ok (bytesOfRes pairRes) (stateOfRes (vec .e32 1) pairRes) ∧
    elemBytes (stateOfRes (vec .e32 1) pairRes) ((vec .e32 1).rx 5 + 4).toNat 4 0 none = .ok (bytesOfRes pairRes2) (stateOfRes (vec .e32 1) pairRes2) ∧
    (stateOfRes (vec .e32 1) pairRes).th = (vec .e32 1).th ∧ (stateOfRes (vec .e32 1) pairRes2).th = (vec .e32 1).th ∧ (bytesOfRes pairRes).length = 4 ∧
    (bytesOfRes pairRes2).length = 4 := by
  and_intros <;> first | (apply isBytes_eq; decide +kernel) | decide +kernel

/-- A thread with a shape, in matrix mode or not. -/
def shaped (mm : Bool) : State := onTh (onVec (vec .e32 8) fun v => { v with rows := 8, cols := 512, pin := true }) fun t => { t with status := { t.status with mm := mm } }

/-- No shape; a shape of 512 columns, in matrix mode and outside it; sources below v16 whose images are in canonical form. -/
theorem witness_MatrixMode : VecReady 1 (vec .e32 4) ∧ (vec .e32 4).th.status.mm = false ∧ (vec .e32 4).th.vec.cols = 0 ∧ (shaped true).th.status.mm = true ∧
    (shaped false).th.vec.cols ≠ 0 ∧ (shaped true).th.vec.cols ≤ 512 ∧ (shaped true).th.vec.sew = .e32 ∧ (shaped true).th.vec.veidx = 0 ∧
    (shaped true).hasFeat 2 2 = true ∧ (shaped true).hasFeat 2 3 = true ∧ (15 : Reg).toNat < 16 ∧ (∀ k : Fin 32, ((shaped true).th.vec.v.get k).bytes.wf 0 = true) ∧
    lanesOfThread (shaped true).th = 8 ∧ Writable (shaped true) 15 := by
  and_intros <;> first | decide +kernel | (unfold Plain; decide +kernel)

/-- A member whose token is not valid, and one whose token is, with operands in order for each operation at its limits. -/
theorem witness_CollectiveIssue : VecReady 8 (vec .e32 4) ∧ Writable (vec .e32 4) 2 ∧ (vec .e32 4).th.vec.veidx = 0 ∧ (vec .e32 4).th.vec.sew = .e32 ∧
    (2 : Nat) ≠ 0 ∧ (vec .e32 4).th.vec.vl % (2 + 2) = 0 ∧ 0 + 1 ≤ 1 ∧ 1 * (vec .e32 256).th.vec.vl ≤ vlmaxOf (vec .e32 256).th ∧ ((vec .e32 4).rx 0).toNat < 0 + 1 ∧
    capOf (vec .e32 4) ((vec .e32 4).partOf 1) (kReg (vec .e32 4) 1 0) = none ∧
    (let s : State := { vec .e32 4 with db := { (vec .e32 4).db with caps := [entry 2 0 0x3F], kregs := [⟨1, 0, 0x500000002⟩] } }
     capOf s (s.partOf 1) (kReg s 1 0) ≠ none ∧ s.coll? ⟨jobidOf s 1, 0, 0⟩ = none) := by
  and_intros <;> first | decide +kernel | (unfold Plain; decide +kernel)

/-! Events. -/

/-- A store of two bytes in the queue of the V-core of `at_`. -/
def queued (prov : Option Nat) : WtStore := ⟨⟨2, 0, 0⟩, me, cellsAt 0x2007E [1, 2], some ⟨1, 1⟩, prov, false, 0⟩

/-- A state with a queue of stores. -/
def withQueue (s : State) (q : List WtStore) : State := { s with ms := { s.ms with wtq := q } }

/-- An empty queue, a committed store and a provisional one at the end of a line; errors off; a latent line. -/
theorem witness_CacheAndErrorEvents : (at_ .v).ms.wtq.find? (fun e => decide (e.core = ⟨2, 0, 0⟩)) = none ∧
    (withQueue (at_ .v) [queued none]).ms.wtq.find? (fun e => decide (e.core = ⟨2, 0, 0⟩)) = some (queued none) ∧ (queued none).bytes = cellsAt 0x2007E [1, 2] ∧
    Memory.wf (withQueue (at_ .v) [queued none]).ms = true ∧
    (withQueue provisional [queued (some 65535)]).ms.wtq.find? (fun e => decide (e.core = ⟨2, 0, 0⟩)) = some (queued (some 65535)) ∧
    provisional.stand? 65535 = some { standOf (at_ .v).th with direct := false } ∧
    (withQueue (at_ .v) [queued none]).ms.wtq.find? (fun e => decide (e.prov = none) && e.bytes.any fun c => decide (lineOf c.1 = 0x400)) = some (queued none) ∧
    RasOff (at_ .v) ∧
    (let s : State := { at_ .v with ms := { (at_ .v).ms with latent := [⟨⟨2, 0, 0⟩, 0x400, 0⟩] } }
     (∃ l ∈ s.ms.latent, l.line = 0x400) ∧ s.ms.ecc = [] ∧ s.ms.poison = []) := by
  and_intros <;> first | decide +kernel | (unfold RasOff; decide +kernel)

/-- A V-thread at a VLE32 of v2 at x5 whose first element the DAU has not loaded. -/
def before : State :=
  let s := vec .e32 2
  onTh { s with ms := { s.ms with mem := cellPutList 0 s.ms.mem 0x10000 (leBytes 4 0x0002A15B) } } fun t => { t with dauPc := t.pc }

/-- The word that it fetches. -/
noncomputable def wordOf : Res (BitVec 32) := fetchWord before before.th.pc.toNat

/-- The value and the state of a fetch. -/
def wordRes (s : State) (r : Res (BitVec 32)) : BitVec 32 × State :=
  match r with
  | .ok w s1 => (w, s1)
  | .stop _ => (0, s)

/-- Whether a fetch gives a word. -/
def isWord (r : Res (BitVec 32)) : Bool :=
  match r with
  | .ok .. => true
  | .stop _ => false

theorem isWord_eq (s : State) (r : Res (BitVec 32)) (h : isWord r = true) : r = .ok (wordRes s r).1 (wordRes s r).2 := by
  unfold isWord at h
  split at h
  · rfl
  · simp at h

/-- The bytes of element 0. -/
noncomputable def early : Res (List Byte) := elemBytes (wordRes before wordOf).2 0x20000 4 0 none

theorem witness_CacheAndErrorEvents_dau : before.th.run = .running ∧ clsOf before.th = .v ∧ before.th.status.chain = false ∧
    fetchWord before before.th.pc.toNat = .ok (wordRes before wordOf).1 (wordRes before wordOf).2 ∧ (wordRes before wordOf).2.th = before.th ∧
    (match dauForm (wordRes before wordOf).1.toNat with
     | some (m, n, addr, g) => !m && decide (n * 8 = 32) && decide (addr (wordRes before wordOf).2 0 = 0x20000) && (g (wordRes before wordOf).2).isNone
     | none => false) = true ∧
    before.th.vec.sew.bits = 32 ∧ before.th.dauPc = before.th.pc ∧ works before false 0 = true ∧ look before.th.dauAhead 0 = none ∧
    elemBytes (wordRes before wordOf).2 0x20000 4 0 none = .ok (bytesOfRes early) (stateOfRes (wordRes before wordOf).2 early) ∧
    (stateOfRes (wordRes before wordOf).2 early).th = before.th := by
  and_intros <;> first | (apply isWord_eq; decide +kernel) | (apply isBytes_eq; decide +kernel) | decide +kernel

/-- A state with translation changed. -/
def onXl (s : State) (f : Xlate → Xlate) : State := { s with xl := f s.xl }

/-- A miss that waits; a context whose JOBID another has, and one whose it has not; invalidations that wait, and one too long; key requests at the last slot and
the last partition. -/
theorem witness_TranslationEvents : (let q : Miss := ⟨2, me, some 0, 1, 0x20000, false⟩
     (onXl (at_ .v) fun x => { x with missQ := [q] }).xl.missQ.find? (fun q => decide (q.die = 2) && !q.served) = some q ∧ q.cmd ≠ none) ∧
    (let q : Miss := ⟨2, me, none, 1, 0x20000, false⟩
     let s := onTh (onXl (at_ .v) fun x => { x with missQ := [q] }) fun t => { t with run := .parked .missQueue }
     s.xl.missQ.find? (fun q => decide (q.die = 2) && !q.served) = some q ∧ q.cmd = none ∧ walksInFlight s 2 < 256 ∧ WaitsIn s q.tid .missQueue) ∧
    (∃ e ∈ (at_ .v).xl.ctxs, e.1 ≠ 2 ∧ e.2.en = true ∧ e.2.jobid = 1) ∧ (¬∃ e ∈ (at_ .v).xl.ctxs, e.1 ≠ 2 ∧ e.2.en = true ∧ e.2.jobid = 7) ∧
    (let i : Inval := ⟨5, me, some ask1, 0, none, false⟩
     let s := onTh (onXl (at_ .v) fun x => { x with inv := [i] }) fun t => { t with run := .parked (.tlbinv 5) }
     s.xl.inv.find? (fun i => decide (i.id = 5) && !i.done) = some i ∧ WaitsIn s i.tid (.tlbinv 5) ∧ i.ask ≠ none ∧ s.clk.time < i.sinceNs + 200000 ∧
       i.sinceNs + 200000 ≤ ({ s with clk := { s.clk with time := 200000 } } : State).clk.time ∧ 1023 ≠ s.clk.pkg) ∧
    (let s : State := { at_ .v with pf := { (at_ .v).pf with keyReqs := [.loadKey 2047 15, .unloadKey 2047] } }
     s.pf.keyReqs.contains (.loadKey 2047 15) = true ∧ s.pf.keyReqs.contains (.unloadKey 2047) = true ∧ s.pf.keyReqs.contains (.loadKey 2046 15) = false) := by
  and_intros <;> first | (refine ⟨?_, ?_⟩ <;> decide +kernel) | decide +kernel

/-- A state whose misses use every walker of the die: posted stores to 256 regions of 2 MiB. -/
def busyWalkers : State :=
  { onXl (at_ .t) fun x => { x with missQ := [⟨6, me, none, 1, 0x20000, false⟩] } with
    ms := { (at_ .t).ms with posted := (List.range 256).map fun i => ⟨me, ⟨6, 0, 0⟩, 1, (i + 1) * 2 ^ 21, [1], 0x10000, i, false, false, [], [], 0⟩ } }

theorem witness_TranslationEvents_full : busyWalkers.xl.missQ.find? (fun q => decide (q.die = 6) && !q.served) = some ⟨6, me, none, 1, 0x20000, false⟩ ∧
    256 ≤ walksInFlight busyWalkers 6 := by
  and_intros <;> decide +kernel

/-- A package with a change of the scheduler's state. -/
def onGl (s : State) (f : Glade → Glade) : State := { s with gl := f s.gl }

/-- A tile copy of one row, at its start. -/
def rowCopy : Cmd := copyCmd 0 (.tcopyT ⟨.die 1 6, 240⟩ ⟨.die 1 6, 241⟩ ⟨1, 64, 63, 0⟩)

/-- A held fault. -/
def fault : HeldFault := ⟨0x0F, 0x20000, 7, 0, false, [], false⟩

/-- A row that is due, and a command that is held, done, next on its counter or ahead of it. -/
theorem witness_EngineEvents : (let s := withCmds (beforeArray .int8) [rowCopy]
     s.cmd? 0 = some rowCopy ∧ rowCopy.op.win = some ⟨1, 64, 63, 0⟩ ∧ s.tile? ⟨.die 1 6, 240⟩ = some (square 240 .int8) ∧ s.tile? ⟨.die 1 6, 241⟩ = some (square 241 .int8) ∧
       (square 241 .int8).bytes.wf 0 = true ∧ Within ⟨1, 64, 63, 0⟩ (square 241 .int8) ∧ rowCopy.held = none ∧ rowCopy.prog < 1 ∧ (∀ p ∈ s.ms.posted, p.tid ≠ rowCopy.tid) ∧
       rowBlocked s rowCopy ⟨1, 64, 63, 0⟩ = false ∧ (∀ e ∈ s.ms.wtq, e.core ≠ rowCopy.core) ∧ s.db.sessions = [] ∧ rowCopy.ghosts = []) ∧
    ({ rowCopy with held := some fault } : Cmd).held.isSome = true ∧ 1 ≤ ({ rowCopy with prog := 1 } : Cmd).prog ∧
    (let s := withCmds (beforeArray .int8) [rowCopy]
     rowCopy.seq = (s.tl rowCopy.key).val + 1 ∧ (s.tl rowCopy.key).ahead = [] ∧ (s.tl rowCopy.key).val + 1 < ({ rowCopy with seq := 2 } : Cmd).seq ∧
       (s.tl rowCopy.key).val + 1 ∉ (s.tl rowCopy.key).ahead) ∧
    (let s := onTh (withCmds (beforeArray .int8) [rowCopy]) fun t => { t with run := .parked (.timeline rowCopy.key 1) }
     s.th.run = .parked (.timeline rowCopy.key 1) ∧ 1 ≤ rowCopy.seq ∧ s.th.waitStamp = none) ∧
    (∀ u ∈ (withCmds (beforeArray .int8) [rowCopy]).threads, u.run = .running) ∧
    (let s := onTh (withCmds (beforeArray .int8) [{ rowCopy with held := some fault }]) fun t => { t with thandlerEn := true, tscratch := 0x800 }
     stoppable s.th = true ∧ stopPointAt s true = none ∧ dueStoreFault s = none ∧ s.th.run ≠ .ended ∧ dueHeld s = some ({ rowCopy with held := some fault }, fault) ∧
       standHalted s s.th.tid.stand = false ∧ (takeTrap s (heldTrap { rowCopy with held := some fault } fault)).th.run ≠ .ended ∧
       (takeTrap s (heldTrap { rowCopy with held := some fault } fault)).th.tid = s.th.tid) ∧
    (let s := onGl (at_ .v) fun g => { g with stands := [{ standOf (at_ .v).th with st := .escalated }] }
     standHalted s s.th.tid.stand = true ∧ s.th.run ≠ .ended) ∧
    dueHeld (withCmds (beforeArray .int8) [rowCopy]) = none := by
  and_intros <;> decide +kernel

/-- A matrix command of the current thread. -/
def matrixCmd (op : CmdOp) (toRead : List TileKey) : Cmd := { copyCmd 0 op with toRead := toRead }

/-- An operand that is due; a TACCRD; a TMMA that starts a bank and one that adds to a bank of its KIND; a TMMA32; all with their operands read. -/
theorem witness_EngineEvents_array : (let c := matrixCmd (.tmma false ⟨.die 1 6, 240⟩ ⟨.die 1 6, 241⟩ .int8 .int8 none none 64 true) [⟨.die 1 6, 240⟩]
     let s := onTh (withCmds (beforeArray .int8) [c]) fun t => { t with run := .parked (.arrayRead 0) }
     s.cmd? 0 = some c ∧ c.readable 0 = some ⟨.die 1 6, 240⟩ ∧ s.un.cmds.find? (fun d => d.op.matrix && decide (d.core = c.core)) = some c ∧
       s.tile? ⟨.die 1 6, 240⟩ = some (square 240 .int8) ∧ (square 240 .int8).bad = [] ∧ WaitsIn s c.tid (.arrayRead 0) ∧ c.op.kind = some .int32 ∧ c.poisoned = false) ∧
    (∀ op ∈ [CmdOp.taccrd false ⟨.die 1 6, 241⟩ .rne false 0 true, .tmma false ⟨.die 1 6, 240⟩ ⟨.die 1 6, 241⟩ .e4m3 .e4m3 none none 64 false, .tmma32 false ⟨.die 1 6, 240⟩ ⟨.die 1 6, 241⟩ 64],
      (matrixCmd op []).toRead = [] ∧ (matrixCmd op []).ghosts = [] ∧ (withCmds (beforeArray .fp32) [matrixCmd op []]).un.cmds.find? (fun d => d.op.matrix && decide (d.core = ⟨6, 0, 0⟩)) = some (matrixCmd op [])) ∧
    (∀ l ∈ [[⟨.die 1 6, 240⟩, ⟨.die 1 6, 241⟩], [(⟨.die 1 6, 241⟩ : TileKey)]],
      let c := matrixCmd (.tmma32 false ⟨.die 1 6, 240⟩ ⟨.die 1 6, 241⟩ 64) l
      (c.readable 0).isSome = true ∧ c.readable 0 = l.head? ∧ (withCmds (beforeArray .fp32) [c]).cmd? 0 = some c) ∧
    ((beforeArray .e4m3).bank ⟨6, 0, 0⟩ false).kind = .fp32 ∧ 64 ≤ (square 241 .int8).rows ∧ 64 ≤ (square 241 .int8).cols ∧ (square 241 .int8).bytes.wf 0 = true := by
  and_intros <;> first | (refine ⟨?_, ?_⟩ <;> decide +kernel) | decide +kernel

/-- A window of two rows of 64 elements, of which one has been performed. -/
def win2 : CopyWin := ⟨2, 64, 0, 128⟩

/-- A command of two rows at its second row, beside the tiles. -/
def rowCmd (op : CmdOp) : Cmd := { copyCmd 0 op with prog := 1 }

/-- A state with it. -/
def rowState (op : CmdOp) : State := withCmds (withArea (beforeArray .int8)) [rowCmd op]

/-- What a row's translation comes to: its one part. -/
def partOfRow (r : Row (List Part)) : Xlated :=
  match r with
  | .ok [.here x _ _] _ => x
  | _ => ⟨0, 0, none⟩

/-- The state that a row leaves. -/
def stateOfRow {α : Type} (s : State) (r : Row α) : State :=
  match r with
  | .ok _ s1 | .fault _ s1 | .wait s1 => s1

/-- Whether a row's translation is one part of this package, with what the access needs of the state. -/
def rowLands (un : Units) (va n : Nat) (r : Row (List Part)) : Bool :=
  match r with
  | .ok [.here _ v m] s1 => decide (v = va) && decide (m = n) && decide (s1.un = un) && s1.ms.ecc.isEmpty && s1.ms.poison.isEmpty && Memory.wf s1.ms && (s1.stand? 65535).isNone
  | _ => false

theorem rowLands_eq (s : State) (un : Units) (va n : Nat) (r : Row (List Part)) (h : rowLands un va n r = true) : r = .ok [.here (partOfRow r) va n] (stateOfRow s r) := by
  unfold rowLands at h
  split at h
  · simp only [Bool.and_eq_true, decide_eq_true_eq] at h
    obtain ⟨⟨⟨⟨⟨⟨rfl, rfl⟩, -⟩, -⟩, -⟩, -⟩, -⟩ := h
    rfl
  · simp at h

/-- The TLOAD, TSTORE and TCOPY.m of the data page, and a TLOAD of a page that is not mapped. -/
def rowLoad (base : Nat) : CmdOp := .tload ⟨.die 1 6, 240⟩ base win2
def rowStore : CmdOp := .tstore ⟨.die 1 6, 240⟩ 0x20000 win2
def rowMove : CmdOp := .tcopyM 0x20400 0x20000 win2

/-- Their source rows. -/
noncomputable def storeSource : Row (List Byte) := rowSource (rowState rowStore) (rowCmd rowStore) (tileRow (rowState rowStore) (rowCmd rowStore) ⟨.die 1 6, 240⟩ 1 64)
noncomputable def moveSource : Row (List Byte) := rowSource (rowState rowMove) (rowCmd rowMove) (memRow (rowState rowMove) (rowCmd rowMove) 0x20480 64)

/-- A second row of each command, in the data page, and one that faults there. -/
theorem witness_CopyRows : (∀ op ∈ [rowLoad 0x20000, rowStore, rowMove], (rowState op).cmd? 0 = some (rowCmd op) ∧ (rowCmd op).op.win = some win2 ∧ (rowCmd op).held = none ∧
      (rowCmd op).orphan = none ∧ (rowCmd op).ghosts = [] ∧ (rowCmd op).prog < win2.nr ∧ 0 < win2.nc ∧ (∀ p ∈ (rowState op).ms.posted, p.tid ≠ me) ∧ (rowCmd op).row = none ∧
      (∀ e ∈ (rowState op).ms.wtq, e.core ≠ (rowCmd op).core) ∧ rowBlocked (rowState op) (rowCmd op) win2 = false ∧ (rowCmd op).view (rowState op) = none) ∧
    (rowState rowStore).tile? ⟨.die 1 6, 240⟩ = some (square 240 .int8) ∧ (square 240 .int8).bytes.wf 0 = true ∧ (square 240 .int8).bad = [] ∧ Within win2 (square 240 .int8) ∧
    rowLands (rowState (rowLoad 0x20000)).un 0x20080 64 (rowParts (rowState (rowLoad 0x20000)) (rowCmd (rowLoad 0x20000)) .load 0x20080 64) = true ∧
    rowLands (stateOfRow (rowState rowStore) storeSource).un 0x20080 64 (rowParts (stateOfRow (rowState rowStore) storeSource) (rowCmd rowStore) .store 0x20080 64) = true ∧
    rowLands (rowState rowMove).un 0x20480 64 (rowParts (rowState rowMove) (rowCmd rowMove) .load 0x20480 64) = true ∧
    rowLands (stateOfRow (rowState rowMove) moveSource).un 0x20080 64 (rowParts (stateOfRow (rowState rowMove) moveSource) (rowCmd rowMove) .store 0x20080 64) = true ∧
    (match performRow (rowState (rowLoad 0x30000)) (rowCmd (rowLoad 0x30000)) win2 with
     | .fault h s1 => decide (h = ⟨0x0F, 0x30080, 2, 0, false, [], false⟩ ∧ s1.un.cmds = (rowState (rowLoad 0x30000)).un.cmds) && (s1.getThread me).isSome
     | _ => false) = true ∧
    (rowCmd (rowLoad 0x30000)).seq ≠ 0 ∧ bitsAt 0x30080 56 8 = 0 ∧
    (match translateOn (rowState (rowLoad 0x30000)) 6 me (some 0) (coreWalker 1 ⟨6, 0, 0⟩ me) ⟨.load, false, true⟩ 0x30080 with
     | some (.error (.cls 2 0), _) => true
     | _ => false) = true := by
  and_intros <;> first | decide +kernel | exact ⟨by decide +kernel, by decide +kernel⟩

/-- A request of package 3 under the job of context 1, at an offset. -/
def asked (offset : Nat) (op : PodOp) : PodReq := ⟨3, 9, 1, offset, op, plainAt .pkg, me, ⟨2, 0, 0⟩⟩

/-- The translation of a request of eight bytes. -/
noncomputable def askedRes (s : State) (offset : Nat) (a : Acc) : Except (XFault × Nat) (List Part) × State :=
  partsUnder s ⟨1, some remoteTlb, none, none, (remoteTid 3 me).word⟩ ⟨a, false, false⟩ (pageCuts 2 (offset % 2 ^ 46) 8) []

/-- The tables with the page of data, and a page of region 10 at 0x21000. -/
def served : State :=
  let s := withArea (at_ .v)
  { s with ms := { s.ms with mem := cellWrite s.ms.mem 0x5108 8 (2 ^ 51 + 2 ^ 9 + 128 + 64 + 16 + 4 + 2 + 1) } }

/-- Whether a translation succeeds, in one part, with what the access needs of the state. -/
def landed (r : Except (XFault × Nat) (List Part) × State) (va n : Nat) : Bool :=
  match r with
  | (.ok [.here x v m], s1) => decide (regionOf x.pa ≠ 2) && decide (v = va) && decide (m = n) && Memory.wf s1.ms && decide (s1.ms.ecc = []) && decide (s1.ms.poison = []) && decide (s1.pod = served.pod)
  | _ => false

/-- What a translation is refused with, and at which address. -/
def refused (r : Except (XFault × Nat) (List Part) × State) : Option (XFault × Nat) :=
  match r with
  | (.error f, s1) => if s1.pod = served.pod then some f else none
  | _ => none

/-- An unknown job; a known one, with an access that is refused, one that meets a poisoned table, and one that is performed. -/
theorem witness_PodWindow : served.xl.ctxs.find? (fun e => e.2.en && decide (e.2.jobid.toNat = 7)) = none ∧
    served.xl.ctxs.find? (fun e => e.2.en && decide (e.2.jobid.toNat = (asked 0x20000 (.load 8)).jobid)) = some (1, ⟨true, 1, 1, 1⟩) ∧
    requestAccess (asked 0x20000 (.load 8)) = some (⟨.load, false, false⟩, 8) ∧ requestAccess (asked 0x20000 (.store 8 5)) = some (⟨.store, false, false⟩, 8) ∧
    landed (askedRes served 0x20000 .load) 0x20000 8 = true ∧ landed (askedRes served 0x20000 .store) 0x20000 8 = true ∧
    refused (askedRes served 0x30000 .load) = some (.cls 2 0, 0x30000) ∧
    refused (askedRes { served with ms := { served.ms with poison := [(.hbm, 0xA2)] } } 0x20000 .load) = some (.poison, 0x20000) := by
  and_intros <;> decide +kernel

/-- A request of the current thread that has no answer. -/
def sent : PodOut := ⟨4, 3, me, none, 0x20000, 0, 1, .load 8, plainAt .pkg, 0, none, false⟩

/-- A thread that waits for its answer. -/
def waiting : State :=
  onTh { at_ .v with pod := { (at_ .v).pod with out := [sent] } } fun t => { t with run := .parked (.pod 4), pod := [⟨4, 0x20000, .load 8, none⟩] }

theorem witness_PodWindow_answers : (at_ .v).pod.out.find? (fun o => decide (o.id = 4)) = none ∧ waiting.pod.out.find? (fun o => decide (o.id = 4)) = some sent ∧ sent.cmd = none ∧
    sent.posted = none ∧ sent.strip = false ∧ WaitsIn waiting sent.tid (.pod 4) ∧ (⟨4, 0x20000, .load 8, none⟩ : PodPending) ∈ waiting.th.pod ∧ waiting.clk.time < sent.sentNs + 200000 ∧
    sent.sentNs + 200000 ≤ ({ waiting with clk := { waiting.clk with time := 200000 } } : State).clk.time := by
  and_intros <;> first | (refine ⟨?_, ?_⟩ <;> decide +kernel) | decide +kernel

/-- A state whose time has come to t. -/
def atTime (s : State) (t : Nat) : State := { s with clk := { s.clk with time := t } }

/-- A state whose cycle has come to n. -/
def atCycle (s : State) (n : Nat) : State := { s with clk := { s.clk with cycle := n } }

/-- A thread that waits. -/
def parked (s : State) (w : Wait) : State := onTh s fun t => { t with run := .parked w }

/-- Waits whose condition has cleared, one of each kind, and waits whose condition has not. -/
theorem witness_WaitEvents : (parked (at_ .v) (.timeline ⟨.die 1 2, 15⟩ 0)).th.run ≠ .ended ∧ 0 ≤ ((at_ .v).tl ⟨.die 1 2, 15⟩).val ∧
    (onTh (at_ .v) fun t => { t with rxq := [⟨9, ⟨2, 0⟩, []⟩] }).th.rxq ≠ [] ∧ engineOpen (at_ .v) false (at_ .v).th = true ∧ pendOf (at_ .v) ⟨.die 1 2, 240⟩ < 1 ∧
    (at_ .v).tile? ⟨.die 1 2, 240⟩ = none ∧ (at_ .v).cmd? 0 = none ∧ (parked (at_ .v) (.mwaitf none)).th.rxq = [] ∧ ((at_ .v).tl ⟨.die 1 2, 15⟩).val < 1 ∧
    (∀ c ∈ (at_ .v).un.cmds, c.held = none) ∧ (parked (at_ .v) (.wfe (some 8))).dieCycle 2 < 8 ∧ 8 ≤ (atCycle (at_ .v) 8).dieCycle 2 := by
  and_intros <;> decide +kernel

/-- An episode that has one arrival less than it needs. -/
def shortBar : Barrier := bar (some 2) [⟨1, 0⟩] none

/-- The time before and at 200 µs after the latest arrival, beside it and waiting on it. -/
theorem witness_WaitEvents_abandon : (atBarrier shortBar).un.barriers.find? (fun c => decide (c.key = shortBar.key)) = some shortBar ∧ shortBar.n = some 2 ∧
    ¬shortBar.key.scope.code < 4 ∧ (atTime (atBarrier shortBar) 199999).clk.time < shortBar.lastNs + 200000 ∧
    shortBar.lastNs + 200000 ≤ (atTime (atBarrier shortBar) 200000).clk.time ∧ (∀ o ∈ (atBarrier shortBar).others, o.run ≠ .parked (.barrier shortBar.key shortBar.ep)) ∧
    (atBarrier shortBar).th.run ≠ .parked (.barrier shortBar.key shortBar.ep) ∧
    (let s := onTh (parked (atTime (atBarrier shortBar) 200000) (.barrier shortBar.key shortBar.ep)) fun t => { t with thandlerEn := true, tscratch := 0x800 }
     let t := takeTrap (s.setBarrier { shortBar with ep := 5, n := none, count := 0, arrived := [], abandoned := some ⟨4, [⟨1, 0⟩], 1⟩ })
       { cause := 0x24, vkind := 1, tval := BitVec.ofNat 64 (4 % 2 ^ 48 * 2 ^ 16 + 4 * 2 ^ 8 + 3) }
     standHalted s s.th.tid.stand = false ∧ t.th.run ≠ .ended ∧ t.th.tid = s.th.tid) := by
  and_intros <;> decide +kernel

/-- A spawn not yet started. -/
def spawn : SpawnReq := ⟨⟨65535, 1⟩, ⟨⟨2, 0, 1⟩, 0⟩, 0x20000, me, 2, 0x50000, []⟩

/-- A thread on its way to a C-core, whose class-state area is mapped. -/
def moving : State := onTh (withArea (at_ .v)) fun t => { t with place := none, run := .transit 0 ⟨⟨2, 0, 0⟩, 0⟩ (some ⟨⟨0, 0, 0⟩, 0⟩) }

/-- What its arrival restores. -/
def arrived : Option State :=
  match restoreClass { moving with th := { moving.th with place := some ⟨⟨0, 0, 0⟩, 0⟩, run := .running } } with
  | (.ok _, s) => some s
  | (.error _, _) => none

/-- A message on its way, a spawn, and an arrival. -/
theorem witness_WaitEvents_arrivals : (let s : State := { at_ .v with gl := { (at_ .v).gl with flights := [⟨me, ⟨9, ⟨2, 0⟩, []⟩⟩] } }
     s.gl.flights.find? (fun f => decide (f.to_ = s.th.tid)) = some ⟨me, ⟨9, ⟨2, 0⟩, []⟩⟩ ∧ s.th.run = .running) ∧ (at_ .v).gl.flights = [] ∧ (at_ .v).gl.notices = [] ∧
    (let s : State := { inJob (at_ .v) true with gl := { (inJob (at_ .v) true).gl with spawns := [spawn] } }
     s.gl.spawns.find? (fun p => decide (p.tid = spawn.tid)) = some spawn ∧ s.stand? spawn.tid.stand = some (standOf (at_ .v).th)) ∧
    moving.th.run = .transit 0 ⟨⟨2, 0, 0⟩, 0⟩ (some ⟨⟨0, 0, 0⟩, 0⟩) ∧ coreClass ⟨0, 0, 0⟩ ≠ .v ∧
    (match arrived with
     | some s1 => decide (s1.th.run = .running ∧ s1.th.tid = moving.th.tid ∧ s1.th.place = some ⟨⟨0, 0, 0⟩, 0⟩ ∧ s1.th.supPending = none ∧ (s1.stand? moving.th.tid.stand).isNone)
     | none => false) = true := by
  and_intros <;> decide +kernel

/-- A thread in the streamer queue, for which a place is free. -/
def streaming : State :=
  let s := onTh beside fun t => { t with place := none, run := .transit 0 ⟨⟨2, 0, 0⟩, 0⟩ none }
  { s with gl := { s.gl with streamQ := [⟨me, 1, [.c], ⟨⟨2, 0, 0⟩, 0⟩, 0⟩] } }

/-- A V-thread that waits for two clusters that it gave up. -/
def owing (reserved : Nat) (others : List Thread) : State :=
  let s := parked (vec .e32 1) .regrant
  { onTh s fun t => { t with owed := some 2 } with others := others, un := { s.un with leaseQ := [⟨2, 0, me, 2, 2, 2, reserved, true⟩] } }

/-- Another thread of the quad with every cluster. -/
def greedy : Thread := { (onVec (vec .e32 4) fun v => { v with grant := 32 }).th with tid := ⟨1, 0⟩ }

/-- A place; clusters that are all free, and none; windows that have ended and not; counts with a majority and without; moves that are asked for. -/
theorem witness_PlacementEvents : streaming.gl.streamQ.find? (fun r => decide (r.tid = streaming.th.tid)) = some ⟨me, 1, [.c], ⟨⟨2, 0, 0⟩, 0⟩, 0⟩ ∧
    streaming.gl.streamQ.find? (fun r => decide (r.part = 1) && (queuedPlace streaming r).isSome) = some ⟨me, 1, [.c], ⟨⟨2, 0, 0⟩, 0⟩, 0⟩ ∧
    queuedPlace streaming ⟨me, 1, [.c], ⟨⟨2, 0, 0⟩, 0⟩, 0⟩ = some ⟨⟨0, 0, 0⟩, 0⟩ ∧ streaming.db.sessions = [] ∧
    isOk (csaWrite { streaming with gl := { streaming.gl with streamQ := [] } } streaming.th
      [(0x300, leBytes 8 ((portable streaming.th 0 (coreClass ⟨2, 0, 0⟩) (coreClass ⟨0, 0, 0⟩)).headD 0).toNat)]) = true ∧
    (owing 0 []).th.owed = some 2 ∧ awaitsGrant (owing 0 []).th = true ∧ (owing 0 []).stand? me.stand = none ∧
    leaseOf (owing 0 []) me ≠ none ∧ leaseOf (reserveFree (owing 0 []) 2 0) me = some ⟨2, 0, me, 2, 2, 2, 2, true⟩ ∧
    leaseOf (reserveFree (owing 0 [greedy]) 2 0) me = some ⟨2, 0, me, 2, 2, 2, 0, true⟩ ∧
    (let s : State := { parked (vec .e32 1) .lease with un := { (vec .e32 1).un with leaseQ := [⟨2, 0, me, 1, 4, 0, 1, false⟩] } }
     ∃ q ∈ (reserveFree s 2 0).un.leaseQ, q.die = 2 ∧ q.quad = 0 ∧ q.regrant = false ∧ q.lmin ≤ q.reserved ∧ q.tid = s.th.tid) ∧
    mixClass (onTh (at_ .v) fun t => { t with mixN := 3, mixC := 2 }).th = some .c ∧ mixClass (onTh (at_ .v) fun t => { t with mixN := 2, mixC := 1 }).th = none ∧
    (atCycle (at_ .v) 65535).dieCycle 2 / 65536 ≤ (at_ .v).th.mixWin ∧ (at_ .v).th.mixWin < (atCycle (at_ .v) 65536).dieCycle 2 / 65536 := by
  and_intros <;> decide +kernel

/-- A thread that is to move on its measured mix. -/
def mixed (s : State) (c : CoreClass) : State := onTh s fun t => { t with req := { t.req with mixTo := some c } }

/-- What its move comes to. -/
def mixDone : Option State :=
  let s := mixed beside .c
  match startMigration { withdraw s with th := { (withdraw s).th with req := { s.th.req with mixTo := none } } } 0 [.c] with
  | .done t => some t
  | _ => none

/-- At no boundary; at one, to its own class and to another. -/
theorem witness_PlacementEvents_mix : (mixed (at_ .v) .v).th.req.mixTo = some .v ∧ stoppable (parked (mixed (at_ .v) .v) (.arrayRead 0)).th = false ∧
    stoppable (mixed (at_ .v) .v).th = true ∧ standHalted (mixed (at_ .v) .v) 65535 = false ∧ earlierItem (mixed (at_ .v) .v) 6 = false ∧ clsOf (mixed (at_ .v) .v).th = .v ∧
    clsOf (mixed beside .c).th ≠ .c ∧ (mixed beside .c).th.status.nomig = false ∧ stoppable (mixed beside .c).th = true ∧ earlierItem (mixed beside .c) 6 = false ∧
    (match mixDone with | some t => decide (t.th.run ≠ .ended ∧ t.th.tid = me) | none => false) = true := by
  and_intros <;> decide +kernel

/-- A contribution of a rank. -/
def part (rank pkg : Nat) : Contribution := ⟨rank, pkg, .sum, .e32, false, 2, 0, 0, [1, 2], 2, 0, true, 200000⟩

/-- An instance of two members, of which rank 0 has been heard and waits here. -/
def inst (fin : Option CollEnd) (copies : List BuddyCopy) : Instance :=
  { key := ⟨1, 0, 0⟩, count := 2, tree := 0, useBuddy := true, tmoNs := 200000, startNs := 0, sent := [], got := [part 0 0], copies := copies, fin := fin, late := [], waiting := [(me, 0, 2, 0)] }

/-- A member that waits in it. -/
def member (i : Instance) : State :=
  let s := onTh (parked (vec .e32 2) (.collective ⟨1, 0, 0⟩ 2 0)) fun t => { t with thandlerEn := true, tscratch := 0x800 }
  { s with pod := { s.pod with colls := [i] } }

/-- A contribution that is the last, one that disagrees; a result; a failure; times before and at the timer's and the member's limits; a silent rank with a copy
at its buddy, and without. -/
theorem witness_CollectiveEvents : (member (inst none [])).coll? ⟨1, 0, 0⟩ = some (inst none []) ∧ (inst none []).waiting ≠ [] ∧
    (part 1 3).pkg ≠ (member (inst none [])).clk.pkg ∧ (∀ g ∈ (inst none []).got, g.rank ≠ (part 1 3).rank) ∧ (∀ g ∈ (inst none []).got, disagree g (part 1 3) = false) ∧
    (∀ r < (inst none []).count, ((inst none []).got ++ [part 1 3]).find? (fun g => decide (g.rank = r)) ≠ none) ∧
    (∃ g ∈ (inst none []).got, disagree g { part 1 3 with root := 1 } = true) ∧ (part 1 0).pkg = (member (inst none [])).clk.pkg ∧ part 1 0 ∉ (inst none []).sent ∧
    (part 1 3).useBuddy = true ∧ (∀ e ∈ (inst none []).copies, e.rank ≠ (part 1 3).rank) ∧ standHalted (member (inst none [])) me.stand = false ∧
    (∃ r < ({ inst none [] with count := 3 } : Instance).count, ((inst none []).got ++ [part 1 3]).find? (fun g => decide (g.rank = r)) = none) ∧
    (inst none []).waiting.find? (fun w => decide (w.1 = (member (inst none [])).th.tid)) = some (me, 0, 2, 0) ∧ (member (inst none [])).th.status.chain = false ∧
    (readV (member (inst none [])).th 2).bytes.wf 0 = true ∧ (inst (some (.result [part 0 0, part 1 3])) []).fin = some (.result [part 0 0, part 1 3]) ∧
    (let gone := leaveColl (member (inst (some (.failed 1 1)) [])) ⟨1, 0, 0⟩ me
     let t := takeTrap gone { cause := 0x24, tval := BitVec.ofNat 64 (1 % 65536 * 2 ^ 16 + 1 * 2 ^ 8 + 0), vkind := 2 }
     t.th.run ≠ .ended ∧ t.th.tid = me) ∧
    (let s := atTime (member (inst none [])) 300000
     let late := s.th.collIssued + 200000 * 2 ^ (s.th.vec.g.get 0).tmo.toNat + 100000
     late ≤ s.clk.time ∧ (atTime (member (inst none [])) 299999).clk.time < late ∧
       (let t := takeTrap (leaveColl s ⟨1, 0, 0⟩ me) { cause := 0x24, tval := BitVec.ofNat 64 (0xFFFF % 65536 * 2 ^ 16 + 2 * 2 ^ 8 + 0), vkind := 2 }
        t.th.run ≠ .ended ∧ t.th.tid = me)) ∧
    (atTime (member (inst none [])) 199999).clk.time < (inst none []).startNs + (inst none []).tmoNs ∧
    (inst none []).startNs + (inst none []).tmoNs ≤ (atTime (member (inst none [])) 200000).clk.time ∧
    1 ∈ (inst none []).silent ∧ (inst none []).standIn 1 = none ∧ (∀ q ∈ (inst none []).silent, 1 ≤ q) ∧
    (let i := inst none [⟨1, 0, { part 1 3 with root := 1 }, some 4⟩]
     i.silent = [1] ∧ i.standIn 1 = some { part 1 3 with root := 1 } ∧ (i.got ++ i.silent.filterMap i.standIn).head? = some (part 0 0) ∧
       disagree (part 0 0) { part 1 3 with root := 1 } = true ∧ disagree (part 0 0) (part 1 3) = false) ∧
    (let i : Instance := { inst (some (.result [part 0 0, part 1 3])) [] with got := [part 0 0, part 1 3], late := [part 1 3] }
     (member i).coll? ⟨1, 0, 0⟩ = some i ∧ part 1 3 ∈ i.late ∧ (part 1 3).pkg ≠ (member i).clk.pkg ∧ i.fin ≠ none ∧ ∃ g ∈ i.got, g.rank = (part 1 3).rank) ∧
    (let i := inst none [⟨1, 0, part 1 3, some 4⟩]
     i.silent = [1] ∧ i.standIn 1 = some (part 1 3) ∧ (part 1 3).rank = 1) ∧
    ([part 0 0, part 1 3].head? = some (part 0 0) ∧ ([part 0 0, part 1 3].all fun q => q.elems.all fun x => decide (x < 2 ^ 32)) = true ∧ 1 < (part 0 0).vl ∧
      ({ part 0 0 with op := .bcast } : Contribution).op = .bcast) := by
  and_intros <;> decide +kernel

/-- A region-10 register set. -/
def reg (s : State) (r : Reg10) (v : Word) : State := s.setReg10 r v

/-- A batch record of one V-thread at 0x10000 in context 1, with its completion record at 0x20000 (R312). -/
def batch : List Nat :=
  [ 0x14C52 + 2 ^ 43 + 2 ^ 50 + 1 * 2 ^ 31 + 2 * 2 ^ 37, 0x10000, 8, 0, 1, 0, 0, 0, 0x40000, 0x20000, 1 ]

/-- Queue 16, enabled, of 16 slots at 0x30000, with one record, of given words. -/
def queueWith (ws : List Nat) : State :=
  let s := reg (reg (reg (withArea (at_ .v)) (.qbase 16) 0x30000) (.qctl 16) 0xB000000100000000) (.qptr 16) 1
  { s with ms := { s.ms with mem := cellPutList 0 s.ms.mem 0x30000 (ws.flatMap (leBytes 8)) } }

/-- The words of the record as Glade reads them. -/
def recordWords (s : State) : List Word := wordsOf 32 ((List.range 256).map fun k => viewByte s.ms none (some ⟨1, 1⟩) (0x30000 + k))

/-- A TAIL that takes a record back, and one that adds one; a queue without a key, one disabled, one empty; a record that is accepted, one that is rejected and
whose completion record is written, and is not; one that is poisoned. -/
theorem witness_QueueEvents : (let s := reg (queueWith batch) (.qptr 16) 2
     (1 % 16 + 16 - 0 % 16) % 16 < (2 % 16 + 16 - 0 % 16) % 16 ∧ field (s.reg10 (.qptr 16)) 15 0 = 2 ∧ field (s.reg10 (.qbase 16)) 3 0 + 4 = 4) ∧
    defaultKey (queueWith batch) 0 = none ∧ ((reg (queueWith batch) (.qctl 16) 0).reg10 (.qctl 16)).getLsbD 63 = false ∧
    defaultKey (queueWith batch) (16 / 16) = some ⟨1, 1⟩ ∧ ((queueWith batch).reg10 (.qctl 16)).getLsbD 63 = true ∧
    field ((queueWith batch).reg10 (.qptr 16)) 31 16 ≠ field ((queueWith batch).reg10 (.qptr 16)) 15 0 ∧ readyCount ((queueWith batch).queue 16).ready < 64 ∧
    (queueWith batch).ms.ecc = [] ∧ isPoisoned (queueWith batch).ms none (lineOf 0x30000) = false ∧ isPoisoned (queueWith batch).ms none (lineOf 0x30000 + 1) = false ∧
    (let s : State := { queueWith batch with ms := { (queueWith batch).ms with poison := [(.hbm, 0x600)] } }
     RasOff s ∧ isPoisoned s.ms none (lineOf 0x30000) = true ∧ s.ms.ecc = []) ∧
    (let s1 := (queueWith batch).setReg10 (.qptr 16) (setFld ((queueWith batch).reg10 (.qptr 16)) 31 16 ((0 + 1) % 16))
     recordReason s1 1 (recordWords (queueWith batch)) = none) ∧ Memory.wf (queueWith batch).ms = true ∧
    (rfld (recordWords (queueWith batch)) 6 63 0 ≤ (queueWith batch).clk.time) ∧
    (let late := batch.set 6 9
     recordReason (queueWith late) 1 (recordWords (queueWith late)) = none ∧ (queueWith late).clk.time < ((recordWords (queueWith late)).getD 6 0).toNat) ∧ recordReason (queueWith batch) 1 (recordWords (queueWith batch)) = none ∧
    field ((recordWords (queueWith batch)).getD 0 0) 23 20 = 0 ∧ recordReason (queueWith []) 1 (recordWords (queueWith [])) = some 1 ∧
    (writeDone (queueWith []) 1 0x20000 1 1).1 = true ∧ (writeDone (queueWith []) 0 0 1 1).1 = false := by
  and_intros <;> first | decide +kernel | (unfold RasOff; decide +kernel)

/-- A queue whose head is n stands of job 1's packet. -/
def readyQ (n since : Nat) (deferred : List Ready) : QueueSt := ⟨16, if n = 0 then [] else [.stands { packet .v with serial := none } n], 0, since, 0, deferred⟩

/-- A package with that queue, its job, time that is locked, and V-quads that its partition may use. -/
def scheduling (q : QueueSt) : State :=
  let s := reg (reg (at_ .v) (.vquota 2 0 1) 32) (.qctl 16) 0xB000000100000000
  { s with clk := { s.clk with lock := true, cycle := 2 ^ 20 }, gl := { s.gl with queues := [q], jobs := [job1] } }

/-- A task that has waited 2^20 cycles, one that has not; a packet before its time and at it; a dispatch that the deficit covers; a packet that is placed, and one
that no quad takes. -/
theorem witness_QueueEvents_dispatch : (let s1 := deferAll (scheduling (readyQ 2 0 []))
     (eligible s1 (s1.queue 16)).isSome = true ∧ (s1.queue 16).lift < field ((scheduling (readyQ 2 0 [])).reg10 (.qctl 16)) 61 60 ∧
       (s1.queue 16).since + ((s1.queue 16).lift + 1) * 2 ^ 20 ≤ (scheduling (readyQ 2 0 [])).clk.cycle) ∧
    (let s1 := deferAll (scheduling (readyQ 2 1 []))
     (scheduling (readyQ 2 1 [])).clk.cycle < (s1.queue 16).since + ((s1.queue 16).lift + 1) * 2 ^ 20) ∧
    (let p := { packet .v with notbefore := 5 }
     let q : QueueSt := ⟨16, [.stands p 1], 0, 0, 0, []⟩
     ((scheduling q).queue 16).ready = [.stands p 1] ∧ (scheduling q).clk.time < p.notbefore) ∧
    (let p := { packet .v with notbefore := 5 }
     ((scheduling (readyQ 0 0 [.stands p 1])).queue 16).deferred = [.stands p 1]) ∧
    (let p := { packet .v with notbefore := 5 }
     (scheduling (readyQ 0 0 [.stands p 1])).clk.time < p.notbefore ∧ p.notbefore ≤ (atTime (scheduling (readyQ 0 0 [.stands p 1])) 5).clk.time) ∧
    (let s := scheduling (readyQ 2 0 [])
     s.gl.queues = [readyQ 2 0 []] ∧ (readyQ 2 0 []).queue / 128 = 0 ∧ (readyQ 2 0 []).deferred = [] ∧ (packet .v).notbefore ≤ s.clk.time ∧ s.clk.lock = true ∧
       s.job? 1 = some job1 ∧ job1.failed = none ∧ job1.gang = false ∧ chooseDie s { packet .v with serial := none } = some 2 ∧ 1 ≤ (readyQ 2 0 []).deficit + field (s.reg10 (.qctl 16)) 47 32 ∧ s.gl.turn = []) ∧
    (let e : Placed := ⟨2, packet .v, false⟩
     let s : State := { scheduling (readyQ 0 0 []) with gl := { (scheduling (readyQ 0 0 [])).gl with placed := [e] } }
     nextPlaced s 2 = some e ∧ e.waiting = false ∧ chooseQuad s e.packet 2 = some 0 ∧ freeStandId s = some 0 ∧ nextPlaced s 3 = none ∧ chooseQuad s { e.packet with threads := 17 } 2 = none) := by
  and_intros <;> decide +kernel

/-- An address in package 3's part of the pod window. -/
def farWord : Word := BitVec.ofNat 64 (255 * 2 ^ 56 + 3 * 2 ^ 46 + 0x20000)

/-- A package with a job and a link that is up. -/
def linked : State := reg (inJob (at_ .v) true) (.hport 0) 0x8000000000000000

/-- A job that is not done, one that is, one that has failed; a stand that is not done, one that is, in both modes; nodes that run, that do not, and that fault. -/
theorem witness_JobEvents : (inJob (at_ .v) true).job? 1 = some job1 ∧ job1.failed = none ∧ job1.finished < job1.total ∧
    (let j : Job := { job1 with finished := 1 }
     j.failed = none ∧ j.total ≤ j.finished) ∧
    (let j : Job := { job1 with failed := some (5, 7) }
     let s : State := { at_ .v with gl := { (at_ .v).gl with jobs := [j] } }
     s.job? 1 = some j ∧ jobBusy s 1 = false) ∧
    standThreads (inJob (at_ .v) true) 65535 ≠ [] ∧ (∃ o ∈ waiting.pod.out, o.tid.stand = 65535) ∧
    (let s := onTh (inJob (at_ .v) false) fun t => { t with run := .ended }
     s.stand? 65535 = some { standOf (at_ .v).th with direct := false } ∧ standThreads s 65535 = [] ∧ (∀ p ∈ s.gl.spawns, p.tid.stand ≠ 65535) ∧
       (∀ c ∈ s.un.cmds, c.tid.stand = 65535 → c.orphan ≠ none) ∧ (∀ o ∈ s.pod.out, o.tid.stand ≠ 65535) ∧ job1.graph = false ∧ job1.gangResume = false ∧ (∀ e ∈ s.ms.wtq, e.prov ≠ some 65535) ∧
       (∀ e ∈ s.ms.ecc, e.prov ≠ some 65535) ∧ Memory.wf s.ms = true) ∧
    (let p : ProvTask := ⟨65535, 2, [(0x20000, 9)], [(0x400, ⟨1, 1⟩)], []⟩
     let s := onTh { inJob (at_ .v) false with ms := { (at_ .v).ms with prov := [p] } } fun t => { t with run := .ended }
     s.provOf 65535 = some p ∧ p.bytes.rising = true ∧ lineOf 0x20000 = 0x400 ∧ maskGet p.bytes 0x20000 = some 9 ∧ Memory.wf s.ms = true) := by
  and_intros <;> decide +kernel

/-- A completion record that is written at once, and one that waits for another package. -/
theorem witness_JobEvents_done : gladeWaits (writeDone (acts (withArea (inJob (at_ .v) true)) (.done 1)) 1 0x20000 0 0).2 = false := by decide +kernel

theorem witness_JobEvents_done_form : Memory.wf (writeDone (acts (withArea (inJob (at_ .v) true)) (.done 1)) 1 0x20000 0 0).2.ms = true := by decide +kernel

theorem witness_JobEvents_done_far : gladeWaits (writeDone (acts linked (.done 1)) 1 farWord 0 0).2 = true := by decide +kernel

/-- A queue whose head is a node. -/
def nodeQ (r : Ready) (lock : Bool) : State :=
  let s := withArea (at_ .v)
  { s with clk := { s.clk with lock := lock }, gl := { s.gl with queues := [⟨16, [r], 0, 0, 0, []⟩], jobs := [{ job1 with graph := true }] } }

/-- It, as its node is performed. -/
def nodeActs (r : Ready) : State := (acts (nodeQ r true) (.node 1 0)).setQueue { (nodeQ r true).queue 16 with ready := [], since := (nodeQ r true).clk.cycle, lift := 0 }

theorem witness_JobEvents_nodes : ((nodeQ (.copy 1 0 0x20000 0x20010 1) true).queue 16).ready = .copy 1 0 0x20000 0x20010 1 :: [] ∧
    (nodeQ (.copy 1 0 0x20000 0x20010 1) true).job? 1 = some { job1 with graph := true } ∧ jobRuns (nodeQ (.copy 1 0 0x20000 0x20010 1) false) 1 = false ∧
    jobRuns (nodeQ (.copy 1 0 0x20000 0x20010 1) true) 1 = true ∧ (copyBytes 1 0x20000 0x20010 1 (nodeActs (.copy 1 0 0x20000 0x20010 1))).1 = true := by
  refine ⟨?_, ?_, ?_, ?_, ?_⟩ <;> decide +kernel

/-- The copy does not wait; one to another package does. -/
theorem witness_JobEvents_node_here : gladeWaits (finishNode (copyBytes 1 0x20000 0x20010 1 (nodeActs (.copy 1 0 0x20000 0x20010 1))).2 1 0 none
    (startKnow (nodeQ (.copy 1 0 0x20000 0x20010 1) true) 1 0)) = false := by decide +kernel

theorem witness_JobEvents_node_far :
    gladeWaits (copyBytes 1 0x20000 farWord.toNat 1 (reg (nodeActs (.copy 1 0 0x20000 farWord.toNat 1)) (.hport 0) 0x8000000000000000)).2 = true := by decide +kernel

theorem witness_JobEvents_node_faults : (copyBytes 1 0x30000 0x20010 1 (nodeActs (.copy 1 0 0x30000 0x20010 1))).1 = false ∧
    (copyBytes 1 0x30000 0x20010 1 (nodeActs (.copy 1 0 0x30000 0x20010 1))).2.job? 1 = some { job1 with graph := true } ∧
    (gladeWrite (nodeActs (.signal 1 0 0x20000 5)) 1 0x20000 5 .pod).1 = true ∧ gladeWaits (gladeWrite (nodeActs (.signal 1 0 0x20000 5)) 1 0x20000 5 .pod).2 = false ∧
    (gladeWrite (nodeActs (.signal 1 0 0x30000 5)) 1 0x30000 5 .pod).1 = false ∧
    (gladeWrite (nodeActs (.signal 1 0 0x30000 5)) 1 0x30000 5 .pod).2.job? 1 = some { job1 with graph := true } ∧
    gladeWaits (gladeWrite (reg (nodeActs (.signal 1 0 farWord.toNat 5)) (.hport 0) 0x8000000000000000) 1 farWord.toNat 5 .pod).2 = true := by
  refine ⟨?_, ?_, ?_, ?_, ?_, ?_, ?_⟩ <;> decide +kernel

/-- A T-core that serves partition 1. -/
def ownedT : State := reg { at_ .t with un := { (at_ .t).un with owner := [(⟨6, 0, 0⟩, 1)] } } (.qown 6 0) 1

/-- A freed core with its sender; budgets run out and not; a packet to preload; owners that may be written and not; a core whose owner is to change; a feature that
some die has, and that none has. -/
theorem witness_SchedulerEvents : (at_ .v).gl.freed.contains ⟨2, 0, 1⟩ = false ∧
    (let s := onGl (at_ .v) fun g => { g with freed := [⟨2, 0, 1⟩], refused := [(⟨2, 0, 1⟩, me)] }
     ⟨2, 0, 1⟩ ∈ s.gl.freed ∧ s.gl.stands = [] ∧ s.gl.preloads = [] ∧ s.gl.refused = [(⟨2, 0, 1⟩, s.th.tid)] ∧ queuedFor s s.th < 16 ∧ s.th.run = .running) ∧
    (let st : Stand := { standOf (at_ .v).th with packet := { packet .v with budget := 10 }, used := 10 }
     let s := onGl (at_ .v) fun g => { g with stands := [st] }
     s.stand? 65535 = some st ∧ standThreads s 65535 ≠ [] ∧ st.st = .live ∧ st.packet.budget ≠ 0 ∧ st.packet.budget ≤ st.used ∧ s.th.tid.stand = 65535 ∧ ({ st with used := 9 } : Stand).used < 10) ∧
    classOfDie 2 = .v ∧ 14 ∉ computeDies .j14 ∧ quadsOf (classOfDie 0) ≤ 255 ∧ classOfDie 0 ≠ .v ∧ 0 ∈ computeDies (at_ .v).clk.blend ∧ 0 < quadsOf (classOfDie 0) := by
  and_intros <;> decide +kernel

theorem witness_SchedulerEvents_preload :
    (let e : Placed := ⟨6, packet .t, true⟩
     let s := onGl ownedT fun g => { g with placed := [e] }
     nextPlaced s 6 = some e ∧ s.threads.find? (fun t => decide (t.run ≠ .ended) && decide ((t.place.map (·.at_)) = some ⟨6, 0, 0⟩)) = some s.th ∧ coreClass ⟨6, 0, 0⟩ = .t ∧
       freeStandId s = some 0 ∧ engineRoom s false ⟨6, 0, 0⟩ = true ∧
       serves s ⟨6, 0, 0⟩ (e.packet.queue / 16) = true ∧ e.packet.exclude.contains ⟨6, 0, 0⟩ = false ∧
       e.packet.threads ≤ (((standThreads s 65535).filter fun w => onQuad w 6 0).filterMap (·.place)).length ∧ missingOf s e.packet = [] ∧ (∀ p ∈ s.gl.preloads, p.core ≠ ⟨6, 0, 0⟩) ∧
       e.packet.preload = none ∧ ({ e with waiting := false } : Placed).waiting = false) ∧
    (let e : PreloadSlot := ⟨⟨6, 0, 0⟩, packet .t, 0, none, []⟩
     let s := onGl ownedT fun g => { g with preloads := [e], jobs := [job1] }
     let places := quadPlaces { s with gl := { s.gl with preloads := s.gl.preloads.erase e } } e.packet (e.packet.queue / 16) 6 0
     e ∈ s.gl.preloads ∧ (∀ p ∈ s.gl.preloads, p.core = ⟨6, 0, 0⟩ → p = e) ∧ (∀ c ∈ s.un.cmds, c.tid.stand ≠ e.stand) ∧ e.packet.threads = 1 ∧
       (s.job? e.packet.job).any (·.gang) = false ∧ places.find? (fun p => decide (p.at_ = ⟨6, 0, 0⟩)) = some ⟨⟨6, 0, 0⟩, 0⟩) ∧
    (let e : PreloadSlot := ⟨⟨6, 0, 0⟩, packet .t, 0, none, []⟩
     ∀ p ∈ quadPlaces (onGl (at_ .t) fun g => { g with jobs := [job1] }) e.packet (e.packet.queue / 16) 6 0, p.at_ ≠ ⟨6, 0, 0⟩) ∧
    (let s := reg (at_ .v) (.qown 6 0) 1
     coreClass ⟨6, 0, 0⟩ ≠ .v ∧ coreExists s.clk.blend ⟨6, 0, 0⟩ = true ∧ ownerOf s ⟨6, 0, 0⟩ ≠ field (s.reg10 (.qown 6 0)) 3 0 ∧ ownerHolds s ⟨6, 0, 0⟩ = false) ∧
    ownerOf ownedT ⟨6, 0, 0⟩ = field (ownedT.reg10 (.qown 6 0)) 3 0 := by
  and_intros <;> decide +kernel

theorem witness_SchedulerEvents_feature :
    (let st : Stand := { standOf (at_ .v).th with lack := some (.feat 0) }
     let s : State := { onGl (at_ .v) (fun g => { g with stands := [st], jobs := [job1] }) with un := { (at_ .v).un with lacks := [(2, 0)] } }
     s.stand? 65535 = some st ∧ s.db.sessions = [] ∧ s.job? st.packet.job = some job1 ∧ job1.missing = [] ∧ job1.failed = none ∧ job1.gangResume = false ∧
       ∃ d ∈ computeDies s.clk.blend, s.hasFeat d 0 = true) ∧
    (let s : State := { at_ .v with un := { (at_ .v).un with lacks := (List.range 26).map fun d => (d, 0) } }
     ¬∃ d ∈ computeDies s.clk.blend, s.hasFeat d 0 = true) := by
  and_intros <;> decide +kernel

/-- A report that waits for partition 1's ring. -/
def report : Report := ⟨1, none, 4, List.replicate 8 7⟩

/-- A package whose partition 1 has a ring of 64 records at 0x20000, at a write and a read index. -/
def ring (w r : Nat) (reports : List Report) : State :=
  onGl (reg (reg (at_ .c) (.svring 1) 0x8000000000020000) (.svidx 1) (BitVec.ofNat 64 (65535 * 2 ^ 48 + 2 ^ 20 + r * 2 ^ 10 + w))) fun g => { g with reports := reports }

/-- No report; a ring that is full, and one that takes the record, at its last index. -/
theorem witness_SupervisorEvents : (at_ .c).gl.reports = [] ∧ (∀ t ∈ (at_ .c).threads, t.run ≠ .parked .ring) ∧ (ring 63 0 [report]).gl.reports = [report] ∧
    report.words.length = 8 ∧ (∀ t ∈ (ring 63 0 [report]).threads, t.run ≠ .parked .ring) ∧ Memory.wf (ring 63 0 [report]).ms = true ∧
    ((ring 63 0 [report]).reg10 (.svring 1)).getLsbD 63 = true ∧ defaultKey (ring 63 0 [report]) 1 = some ⟨1, 1⟩ ∧ (ring 63 0 [report]).gl.raised = [] ∧
    2 ^ (field ((ring 63 0 [report]).reg10 (.svring 1)) 2 0 + 6) = 64 ∧
    (field ((ring 63 0 [report]).reg10 (.svidx 1)) 9 0 + 1) % 64 = field ((ring 63 0 [report]).reg10 (.svidx 1)) 19 10 % 64 ∧
    (field ((ring 63 1 [report]).reg10 (.svidx 1)) 9 0 + 1) % 64 ≠ field ((ring 63 1 [report]).reg10 (.svidx 1)) 19 10 % 64 ∧
    (let s := onGl (ring 63 1 [{ report with stand := some (65535, 1) }]) fun g => { g with stands := [standOf (at_ .c).th] }
     s.stand? 65535 = some (standOf (at_ .c).th) ∧ some (65535, 1) ≠ some ((standOf (at_ .c).th).id, (standOf (at_ .c).th).born)) ∧
    (let r : Report := { report with stand := some (65535, 0) }
     let s := onGl (ring 63 1 [r]) fun g => { g with stands := [standOf (at_ .c).th] }
     s.gl.reports = [r] ∧ s.stand? 65535 = some (standOf (at_ .c).th) ∧ Memory.wf s.ms = true) := by
  and_intros <;> decide +kernel

/-- A thread that waits for the ring with a record of its own. -/
def ringWaiter : State := onTh (ring 0 0 []) fun t => { t with run := .parked .ring, supPending := some ⟨false, none, none, List.replicate 8 7⟩ }

/-- The thread that SVIDX.THR names, with and without 0x23 raised; no such thread. -/
theorem witness_SupervisorEvents_interrupt : ringWaiter.others = [] ∧ ringWaiter.th.run = .parked .ring ∧ ringWaiter.partOf ringWaiter.th.ctx = 1 ∧
    ringWaiter.th.supPending = some ⟨false, none, none, List.replicate 8 7⟩ ∧ ringWaiter.gl.reports = [] ∧
    (finishSup ringWaiter ⟨false, none, none, List.replicate 8 7⟩).th.run ≠ .ended ∧
    (finishSup ringWaiter ⟨false, none, none, List.replicate 8 7⟩).th.tid = ringWaiter.th.tid ∧
    threadOfWord (at_ .c) (field ((at_ .c).reg10 (.svidx 1)) 63 32) = none ∧
    threadOfWord (ring 0 0 []) (field ((ring 0 0 []).reg10 (.svidx 1)) 63 32) = some (ring 0 0 []).th ∧ (ring 0 0 []).th.tid.word = field ((ring 0 0 []).reg10 (.svidx 1)) 63 32 ∧
    stoppable (ring 0 0 []).th = true ∧ standHalted (ring 0 0 []) 65535 = false ∧ earlierItem (ring 0 0 []) 5 = false ∧ clsOf (ring 0 0 []).th = .c ∧
    (ring 0 0 []).th.status.priv = false ∧ (ring 0 0 []).th.status.hnd = false ∧ look (ring 0 0 []).gl.raised 1 = none ∧
    (let s := reg (onGl (ring 0 0 []) fun g => { g with raised := [(1, 3)] }) (.svhnd 1) 0x10001
     let t := takeTrap { s with gl := { s.gl with raised := unassoc s.gl.raised 1 } } { cause := 0x23, tval := BitVec.ofNat 64 3 }
     look s.gl.raised 1 = some 3 ∧ t.th.run ≠ .ended ∧ t.th.tid = s.th.tid) := by
  and_intros <;> decide +kernel

/-- A posted store of the T-thread at an address. -/
def post (va : Nat) : Posted := ⟨me, ⟨6, 0, 0⟩, 1, va, [1, 2, 3, 4], 0x10000, 0, false, false, [], [], 0⟩

/-- A T-thread with a handler and posted stores. -/
def posting (ps : List Posted) : State := onTh { at_ .t with ms := { (at_ .t).ms with posted := ps } } fun t => { t with thandlerEn := true, tscratch := 0x800 }

/-- The translation of a posted store. -/
noncomputable def postRes (va : Nat) : Cut :=
  translateParts (posting [post va]) (coreWalker 1 ⟨6, 0, 0⟩ me) ⟨.store, false, false⟩ (pagesOf va 4) []

/-- A store at the end of a line, one that faults; an entry that is due. -/
theorem witness_SupervisorEvents_stores : (∀ p ∈ (posting []).ms.posted, p.tid ≠ (posting []).th.tid) ∧ (posting []).th.run ≠ .ended ∧
    (posting [post 0x2007C]).ms.posted.find? (fun p => decide (p.tid = me)) = some (post 0x2007C) ∧
    postRes 0x2007C = .ok [.here (partOfCut (postRes 0x2007C)) 0x2007C 4] (stateOfCut (posting []) (postRes 0x2007C)) ∧ (partOfCut (postRes 0x2007C)).mt = 0 ∧
    (partOfCut (postRes 0x2007C)).pa % 128 + 4 ≤ 128 ∧ Memory.wf (stateOfCut (posting []) (postRes 0x2007C)).ms = true ∧
    (stateOfCut (posting []) (postRes 0x2007C)).provStand me.stand = none ∧ (stateOfCut (posting []) (postRes 0x2007C)).th = (posting [post 0x2007C]).th ∧
    postRes 0x30000 = .trap (trapOfCut (postRes 0x30000)) [] (stateOfCut (posting []) (postRes 0x30000)) ∧
    (trapOfCut (postRes 0x30000)).cause ≠ 0x10 ∧ (stateOfCut (posting []) (postRes 0x30000)).th = (posting [post 0x30000]).th ∧
    dueStoreFault (posting []) = none ∧
    (let f : StoreFault := { storeFault with now := true }
     let s : State := { posting [] with ms := { (posting []).ms with sfq := [f] } }
     dueStoreFault s = some f ∧ stoppable s.th = true ∧ standHalted s 65535 = false ∧ earlierItem s 2 = false ∧ (takeStoreFault s f).th.run ≠ .ended ∧
       (takeStoreFault s f).th.tid = s.th.tid) := by
  and_intros <;> first | (apply isHereCut_eq; decide +kernel) | (apply isTrapCut_eq; decide +kernel) | decide +kernel

/-- A core that does not exist; one that no thread holds; one that the current thread holds, whose task may be run again. -/
theorem witness_SupervisorEvents_core : coreExists (at_ .v).clk.blend ⟨22, 0, 0⟩ = false ∧ coreExists (at_ .v).clk.blend ⟨0, 0, 0⟩ = true ∧
    (at_ .v).un.out.contains ⟨0, 0, 0⟩ = false ∧ (at_ .v).gl.preloads = [] ∧ (∀ t ∈ (at_ .v).threads, holdsCore t ⟨0, 0, 0⟩ = false) ∧
    (inJob (at_ .v) false).others = [] ∧ holdsCore (inJob (at_ .v) false).th ⟨2, 0, 0⟩ = true ∧
    (inJob (at_ .v) false).stand? 65535 = some { standOf (at_ .v).th with direct := false } ∧ (standOf (at_ .v).th).packet.retries ≠ 0 ∧ (inJob (at_ .v) false).db.sessions = [] ∧
    (inJob (at_ .v) false).job? 1 = some job1 ∧ job1.failed = none ∧
    coreExists (inJob (at_ .v) false).clk.blend ⟨2, 0, 0⟩ = true ∧ (inJob (at_ .v) false).un.out.contains ⟨2, 0, 0⟩ = false := by
  and_intros <;> decide +kernel

/-- SVCMD of partition 1, busy with an operation, for stand 65535 and thread 0 of it, context 1 and queue 16. -/
def command (op : Nat) (s : State) : State :=
  let w := BitVec.ofNat 64 (op * 2 ^ 60 + 2 ^ 56 + 1 * 2 ^ 44 + 16 * 2 ^ 36 + 65535 * 2 ^ 16)
  onGl (reg s (.svcmd 1) w) fun g => { g with svCmd := assoc g.svCmd 1 w }

/-- The thread's stand in a state of its own. -/
def inSt (st : StandSt) (direct : Bool) : State := onGl (inJob (at_ .v) direct) fun g => { g with stands := g.stands.map fun q => { q with st := st } }

/-- Every operation while it is busy; stands that are live, saved, escalated; the names that a command does not find. -/
theorem witness_SupervisorCommands : (∀ op ∈ [1, 2, 3, 4, 5, 6, 7, 8, 9],
      field ((command op (inSt .live true)).reg10 (.svcmd 1)) 59 56 = 1 ∧ field ((look (command op (inSt .live true)).gl.svCmd 1).getD 0) 63 60 = op ∧
        look (command op (inSt .live true)).gl.svCmd 1 = some ((command op (inSt .live true)).reg10 (.svcmd 1))) ∧
    look (at_ .v).gl.svCmd 1 = none ∧ (inSt .live true).ms.posted = [] ∧ (inSt .live true).th.tid = ⟨field ((command 1 (inSt .live true)).reg10 (.svcmd 1)) 31 16, 0⟩ ∧
    (inSt .live true).th.run ≠ .ended ∧ (inSt .live true).partOf 1 = 1 ∧ (inSt .live true).db.sessions = [] ∧
    (∀ st ∈ [StandSt.live, .saved, .escalated], ((inSt st false).stand? 65535).isSome = true ∧ (((inSt st false).stand? 65535).filter fun q => decide (q.part = 1)).isSome = true) ∧
    (inSt .live true).job? 1 = some job1 ∧ job1.failed = none ∧ (at_ .v).stand? 65535 = none ∧ (at_ .v).getThread ⟨3, 0⟩ = none ∧ jobsOf (at_ .v) 1 1 = [] ∧ 17 / 16 = 1 ∧
    jobsOf (inSt .live true) 1 1 ≠ [] ∧ (∀ t ∈ standThreads (inSt .saved true) 65535, t.run = .running ∧ t.place ≠ none ∧ awaitsGrant t = false) ∧ job1.gangResume = false ∧
    (inSt .live true).th.run = .running := by
  and_intros <;> decide +kernel

/-- A job that a gang switch stops: not yet, with a send on its way, with none, and saved. -/
theorem witness_SupervisorCommands_gang : job1.gang = false ∧
    (let j : Job := { job1 with gang := true }
     let s := onGl (inSt .live true) fun g => { g with jobs := [j] }
     s.job? j.id = some j ∧ j.gang = true ∧ j.gangSaved = false ∧ sendsInFlight s j.id = 0 ∧ sendsInFlight (onTh s fun t => { t with sendsOut := 1 }) j.id ≠ 0 ∧
       s.gl.stands = [standOf (at_ .v).th] ∧ (standOf (at_ .v).th).packet.job = j.id ∧ s.gl.jobs = [j] ∧ j.part = 1 ∧ j.ctx = 1) ∧
    (let j : Job := { job1 with gang := true, gangSaved := true }
     let s := onGl (inSt .live true) fun g => { g with jobs := [j] }
     s.job? j.id = some j ∧ ∀ st ∈ s.gl.stands, st.packet.job = j.id → st.st ≠ .saved ∧ st.st ≠ .resuming) := by
  and_intros <;> decide +kernel

/-- A command of the debug ring: its dwords. -/
def commandWords (op : Nat) (d3 d4 d5 : Nat) : List Nat := [op, 0x500000002, 0xFFFF0000, d3, d4, d5, 0, 1]

/-- A package whose partition 1 has a debug ring at 0x30000 with a command in slot 1, by a tool that holds entry 2. -/
def debuggedOn (s0 : State) (run : Run) (ws : List Nat) (sess : List Session) : State :=
  let s := reg s0 (.dbgring 1) 0x8000000000030000
  let s1 : State := { s with ms := { s.ms with mem := cellPutList 0 s.ms.mem 0x30000 ((([2, 1, 0, 0, 0, 0, 0, 0] : List Nat) ++ ws).flatMap (leBytes 8)) }
                             db := { s.db with caps := [entry 2 0 0xFF], sessions := sess } }
  onTh s1 fun t => { t with run := run }

/-- The same about the V-thread that holds the token. -/
def debugged (run : Run) (ws : List Nat) (sess : List Session) : State := debuggedOn (withArea (holder 3)) run ws sess

/-- The command at HEAD. -/
def headCmd (s : State) : Option DbgCmd := dbgNext s 1

/-- Whether the command at HEAD has an operation and passes the checks for the current thread. -/
def passes (s : State) (op : Nat) : Bool :=
  match dbgNext s 1 with
  | some c => decide (c.op = op) && decide (c.part = 1) && decide (1 ≤ c.slot) && (match dbgCheck s c with | .ok (_, t) => decide (t = s.th) | .error _ => false)
  | none => false

/-- The STAT that the checks refuse the command at HEAD with. -/
def refusal (s : State) : Option Nat :=
  match dbgNext s 1 with
  | some c => (match dbgCheck s c with | .ok _ => none | .error n => some n)
  | none => none

/-- A session of the tool on the current thread. -/
def session1 : Session := ⟨me, 1, 2, true, [], none, none, none, 0, false⟩

/-- No command; each command that the checks pass, on a thread that runs and one that is stopped; commands that they refuse; register selectors. -/
theorem witness_DebugCommands : dbgNext (at_ .v) 1 = none ∧ (∀ op ∈ [2, 3, 4, 5, 6, 7, 8, 9, 10, 11, 12, 13], passes (debugged .running (commandWords op 0 0 0) [session1]) op = true) ∧
    passes (debugged .running (commandWords 1 0 0 0) []) 1 = true ∧ passes (debugged .stopped (commandWords 5 0 0 0) [session1]) 5 = true ∧
    refusal (debugged .running (commandWords 0 0 0 0) [session1]) = some 4 ∧ refusal (debugged .running (commandWords 14 0 0 0) [session1]) = some 4 ∧
    refusal (debugged .running [3, 0, 0xFFFF0000, 0, 0, 0, 0, 1] [session1]) = some 2 ∧ (debugged .running (commandWords 5 0 0 0) [session1]).db.busy = [] ∧
    Memory.wf (debugged .running (commandWords 5 0 0 0) [session1]).ms = true ∧ (debugged .stopped (commandWords 5 0 0 0) []).others = [] ∧
    dbgSelect 0x50000 0 .v = none ∧ dbgSelect 31 0 .v = some (.x 31) ∧ dbgSelect 0x40000 0 .v = some .pc := by
  and_intros <;> decide +kernel

/-- A STOP in progress. -/
def stopping (run : Run) (reached : Bool) : State :=
  let s := debugged run (commandWords 3 0 0 0) [session1]
  { s with db := { s.db with busy := [⟨1, me, 1, reached⟩] } }

/-- A thread of the streamer queue, stopped there. -/
def stoppedQueued (op : Nat) : State :=
  onGl (debugged .stopped (commandWords op 0 0 0) [session1]) fun g => { g with streamQ := [⟨me, 1, [.c], ⟨⟨2, 0, 0⟩, 0⟩, 7⟩] }

/-- STOP and CONT of a thread in the streamer queue; a STOP in progress whose thread is not Stopped yet, is Stopped, and has been. -/
theorem witness_DebugCommands_stop : passes (debugged (.transit 7 ⟨⟨2, 0, 0⟩, 0⟩ none) (commandWords 3 0 0 0) [session1]) 3 = true ∧ passes (stoppedQueued 4) 4 = true ∧
    (stoppedQueued 4).others = [] ∧ (stoppedQueued 4).th.run = .stopped ∧
    ((stoppedQueued 4).gl.streamQ.find? fun q => decide (q.tid = me)) = some ⟨me, 1, [.c], ⟨⟨2, 0, 0⟩, 0⟩, 7⟩ ∧ look (debugged .running (commandWords 5 0 0 0) [session1]).gl.asks (.debug 1) = none ∧
    (∀ p ∈ [(Run.running, false), (.running, true), (.stopped, false)], dbgNext (stopping p.1 p.2) 1 ≠ none ∧
      (stopping p.1 p.2).db.busy.find? (fun b => decide (b.part = 1)) = some ⟨1, me, 1, p.2⟩ ∧ (stopping p.1 p.2).th.run ≠ .ended ∧ (stopping p.1 p.2).session me ≠ none) := by
  and_intros <;> decide +kernel

/-- A T-thread with two posted stores, the first to another package. -/
def postedFirst : State :=
  let s := reg { withArea (at_ .t) with db := { (at_ .t).db with kregs := (holder 3).db.kregs } } (.hport 0) 0x8000000000000000
  let far : Posted := ⟨me, ⟨6, 0, 0⟩, 1, (255 * 2 ^ 56 + 3 * 2 ^ 46 + 0x20000 : Nat), [1, 2, 3, 4], 0x10000, 0, false, false, [], [], 0⟩
  debuggedOn { s with ms := { s.ms with posted := [far, { far with va := 0x20000, issue := 1 }] } } .running (commandWords 7 0x20000 8 0) [session1]

/-- What its posted stores come to: none waits to be accepted, or one does. -/
def resolves (r : Eff) : Option Bool :=
  match r with
  | .done u => if u.th.tid = me ∧ u.th.run ≠ .ended then some true else none
  | .park _ u => if u.th.tid = me ∧ u.th.run ≠ .ended then some false else none
  | _ => none

theorem witness_DebugCommands_posted : resolves (resolvePosted (debugged .running (commandWords 7 0x20000 8 0) [session1])) = some true ∧ passes postedFirst 7 = true ∧
    resolves (resolvePosted postedFirst) = some false := by
  and_intros <;> decide +kernel

/-- Loads and stores of the debug engine in the page of data; rings and logs that can be written and read; the entry's rights. -/
theorem witness_DebugCommands_memory : (match dbgLoad (acts (debugged .running (commandWords 7 0x20000 8 0) [session1]) (.debug 1)) 0x20000 8 with
      | (.ok _, u) => decide (u.th.tid = me ∧ u.th.run ≠ .ended) && !gladeWaits u | _ => false) = true ∧
    (match dbgStore (acts (debugged .running (commandWords 8 0x20000 8 5) [session1]) (.debug 1)) 0x20000 (leBytes 8 5) with
      | (.ok _, u) => decide (u.th.tid = me ∧ u.th.run ≠ .ended) && !gladeWaits u | _ => false) = true ∧
    (match dbgNext (debugged .running (commandWords 11 0x20000 0 0) [session1]) 1 with
      | some c => (match dbgRing (debugged .running (commandWords 11 0x20000 0 0) [session1]) c with | (.ok _, _) => true | _ => false) | none => false) = true ∧
    (match readUnder (debugged .running (commandWords 13 0x20000 0 0) [session1]) 1 0 0x20000 8 with | (.ok _, _) => true | _ => false) = true ∧
    (entry 2 0 0xFF).rights.getLsbD 5 = true ∧ (entry 2 0 0x1F).rights.getLsbD 5 = false ∧
    (onTh (at_ .v) fun t => { t with profctl := 0x10 }).th.profctl.getLsbD 4 = true ∧ (at_ .v).th.profctl.getLsbD 4 = false := by
  refine ⟨?_, ?_, ?_, ?_, ?_, ?_, ?_, ?_⟩ <;> decide +kernel

/-- The same in another package, which is waited for. -/
theorem witness_DebugCommands_far : (match dbgLoad (acts (reg (debugged .running (commandWords 7 0 8 0) [session1]) (.hport 0) 0x8000000000000000) (.debug 1)) farWord.toNat 8 with
      | (.ok _, u) => decide (u.th.tid = me ∧ u.th.run ≠ .ended) && gladeWaits u | _ => false) = true ∧
    (match dbgStore (acts (reg (debugged .running (commandWords 8 0 8 5) [session1]) (.hport 0) 0x8000000000000000) (.debug 1)) farWord.toNat (leBytes 8 5) with
      | (.ok _, u) => decide (u.th.tid = me ∧ u.th.run ≠ .ended) && gladeWaits u | _ => false) = true := by
  refine ⟨?_, ?_⟩ <;> decide +kernel

/-- A thread that is traced with samples, with a stop point at its pc, at a cycle. -/
def traced (cycle : Nat) : State :=
  let p : StopPoint := ⟨0, 0x10000, 0xFFFF, 2, false⟩
  let s := debugged .running (commandWords 3 0 0 0) [{ session1 with points := [p], trace := some ⟨0x20000, 127, 1, 0, 0⟩ }]
  onTh (atCycle s cycle) fun t => { t with profctl := 0x10, thandlerEn := true, tscratch := 0x800 }

/-- A stop point at the pc; a sample before its period and at it. -/
theorem witness_DebugCommands_points : (at_ .v).th.run = .running ∧ stoppable (at_ .v).th = true ∧ standHalted (at_ .v) 65535 = false ∧ stopPointAt (at_ .v) false = none ∧ stopPointAt (traced 0) false ≠ none ∧
    ((traced 1023).session me).isSome = true ∧ (traced 0).th.place = some ⟨⟨2, 0, 0⟩, 0⟩ ∧ (traced 1023).dieCycle 2 < 0 + 2 ^ (field (traced 0).th.profctl 12 8 + 10) ∧
    0 + 2 ^ (field (traced 0).th.profctl 12 8 + 10) ≤ (traced 1024).dieCycle 2 ∧ (traced 0).th.profctl.getLsbD 4 = true ∧ session1.profile = true ∧
    (traceOut (traced 1024) me ⟨0x20000, 127, 1, 0, 0⟩ [5 * 2 ^ 56 + me.word, 0x10000, (classIdWord ⟨⟨2, 0, 0⟩, 0⟩).toNat, 0]).1 = true := by
  and_intros <;> decide +kernel

/-- Firmware that runs, and a step that is the firmware's; a cluster gone; hours of pod time. -/
theorem witness_PlatformEvents_boot : firmwareRuns (at_ .v) = false ∧
    (let s : State := { at_ .v with pf := { (at_ .v).pf with bootLog := [⟨(at_ .v).pf.startCount, 0x01, .package, 0, 0, 0, 0⟩] } }
     firmwareRuns s = true ∧ s.pf.bootStopped = false ∧ (∀ e ∈ s.pf.bootLog, e.start = s.pf.startCount → e.step = 0xF0 ∨ e.step ≤ 0x50) ∧ bootTries s 0x50 .package = [] ∧
       bootUnitOk s 0x50 .package = true ∧ (0x50, Unit_.package) ∉ s.pf.retrying ∧ (∃ e ∈ s.pf.bootLog, e.start = s.pf.startCount ∧ e.step ≠ 0xF0 ∧ 0x00 < e.step)) ∧
    bootUnitOk (at_ .v) 0x01 .package = true ∧ bootUnitOk (at_ .v) 0x02 .package = false ∧
    (let s : State := { at_ .v with un := { (at_ .v).un with removed := [(2, 0, 31)] } }
     s.un.removed.Nodup ∧ (2, 0, 31) ∈ s.un.removed ∧ (2, 0, 30) ∉ s.un.removed) ∧
    (atTime (at_ .v) 3599999999999).clk.time / 3600000000000 ≤ (look (at_ .v).pf.healthHour 2).getD 0 ∧
    (look (at_ .v).pf.healthHour 2).getD 0 < (atTime (at_ .v) 3600000000000).clk.time / 3600000000000 ∧ 2 ∈ dies (at_ .v).clk.blend := by
  and_intros <;> decide +kernel

/-- A partition without a key and one with; the last byte of HBM; a port that is up; a boot step that is due; the limits of links, clusters and registers. -/
theorem witness_PlatformEvents : defaultKey (at_ .v) 2 = none ∧ defaultKey (at_ .v) 1 = some ⟨1, 1⟩ ∧ inHbm (at_ .v) (2 ^ 40 - 1) 1 = true ∧ Memory.wf (at_ .v).ms = true ∧
    (at_ .v).ms.ecc = [] ∧ (at_ .v).ms.poison = [] ∧ ((at_ .v).reg10 (.hport 47)).getLsbD 63 = false ∧
    ((reg (at_ .v) (.hport 47) 0x8000000000000000).reg10 (.hport 47)).getLsbD 63 = true ∧ (at_ .v).pf.bootStopped = false ∧ (at_ .v).pf.bootLog = [] ∧
    bootTries (at_ .v) 0x50 .package = [] ∧ bootUnitOk (at_ .v) 0x50 .package = true ∧ (0x50, Unit_.package) ∉ (at_ .v).pf.retrying ∧
    2 ∈ computeDies (at_ .v).clk.blend ∧ classOfDie 2 = .v ∧ 21 ∈ dies (at_ .v).clk.blend ∧ (look (at_ .v).clk.stopped 2).getD 0 ≤ (at_ .v).clk.cycle ∧ (at_ .v).gl.streamQ = [] ∧ (at_ .v).ms.wtq = [] ∧
    (at_ .v).db.sessions = [] ∧ regExists (at_ .v) (.qctl 256) = false ∧ (∀ r ∈ [Reg10.defkey 15, .qbase 255, .vquota 2 0 15, .svhnd 15, .pinq 2 15, .rasbase, .timestat, .diehlth 21, .keyslot 2047],
      regExists (at_ .v) r = true) ∧ field ((command 1 (at_ .v)).reg10 (.svcmd 1)) 59 56 = 1 ∧ field ((at_ .v).reg10 (.svcmd 1)) 59 56 ≠ 1 ∧ field (0x9000000000000000 : Word) 63 60 ≠ 0 ∧
    field (0x0FFFFFFFFFFFFFFF : Word) 63 60 = 0 ∧ 10 ≤ field (0xA000000000000000 : Word) 63 60 := by
  and_intros <;> decide +kernel

/-! The step. -/

/-- A prefix with a successor, and without. -/
theorem witness_StepRunsDecoded_prefix : (onTh (at_ .v) fun t => { t with succ := some (.fadd .f64 .dyn 1 2 3) }).th.succ = some (.fadd .f64 .dyn 1 2 3) ∧ (at_ .v).th.succ = none := by
  and_intros <;> decide +kernel

/-- A thread at instruction bytes, with the turn. -/
def turned (c : CoreClass) (bs : List Byte) : State := { layInstr State.reset (c, false) bs with turns := [⟨1, 1, .thread me⟩] }

/-- The state in which it fetches. -/
def atTurn (c : CoreClass) (bs : List Byte) : State := passTime { turned c bs with turns := [] } none 1 1

/-- A fetch that gives bytes. -/
def isFetch (r : Res (List Byte)) (bs : List Byte) : Bool :=
  match r with
  | .ok b _ => decide (b = bs)
  | .stop _ => false

/-- On each class of core: a thread that runs, in an issue turn, with nothing due, whose bytes are fetched; bytes that decode, that do not, and a prefix with its
successor. -/
theorem witness_StepRunsDecoded : ∀ c ∈ [CoreClass.c, .v, .t], (atTurn c (leBytes 4 0x002081B3)).switchTo me = some (atTurn c (leBytes 4 0x002081B3)) ∧
    (atTurn c (leBytes 4 0x002081B3)).th.run = .running ∧ issueTurn (atTurn c (leBytes 4 0x002081B3)) = true ∧ standHalted (atTurn c (leBytes 4 0x002081B3)) 65535 = false ∧
    (atTurn c (leBytes 4 0x002081B3)).ms.posted = [] ∧ awaitsGrant (atTurn c (leBytes 4 0x002081B3)).th = false ∧
    (let u := useTurn (atTurn c (leBytes 4 0x002081B3))
     boundary u (nextWhole u) (nextMicro u) = none ∧ isFetch (fetchInstr u 0x10000) (leBytes 4 0x002081B3) = true) := by
  decide +kernel

/-- A T-core's slot whose cycle has not come, and a V-front that has issued in the cycle. -/
theorem witness_StepRunsDecoded_turns : (let s := atCycle (atTurn .t []) 3
     s.switchTo me = some s ∧ s.th.place = some ⟨⟨6, 0, 0⟩, 1⟩ ∧ coreClass ⟨6, 0, 0⟩ = .t ∧ s.dieCycle 6 % 16 ≠ 1) ∧
    (let s := useTurn (atTurn .v [])
     s.switchTo me = some s ∧ s.th.place = some ⟨⟨2, 0, 0⟩, 0⟩ ∧ coreClass ⟨2, 0, 0⟩ ≠ .c ∧ look s.un.turns ⟨2, 0, 0⟩ = some (0, s.dieCycle 2)) := by
  and_intros <;> decide +kernel

theorem witness_StepRunsDecoded_bytes : decoded 4 0x002081B3 = some (.add 3 1 2) ∧ isPrefix (.add 3 1 2) = false ∧ decoded 4 0x0000006B = none ∧
    decoded 4 0x0001000B = some (.pfx true false .dyn) ∧
    isFetch (fetchInstr (atTurn .v (leBytes 4 0x0001000B ++ leBytes 4 0x023110D3)) 0x10004) (leBytes 4 0x023110D3) = true ∧
    successorOf (leBytes 4 0x023110D3) = some (.fadd .f64 .rne 1 2 3) ∧ successorOf (leBytes 4 0x0000006B) = none := by
  and_intros <;> decide +kernel

/-- StepKeepsMemory, StepKeepsImages: memory with bytes in each store, and images with elements, in their forms. -/
theorem witness_StepKeeps : Memory.wf (queueWith batch).ms = true ∧ Memory.wf (withQueue (at_ .v) [queued none]).ms = true ∧
    (∀ r : Reg, (readV (onTh (vec .e32 4) fun t => writeV t 1 ((readV t 1).setElem 8 32 3 1)).th r).bytes.wf 0 = true) ∧ (shaped true).th.vec.cols ≤ 512 ∧
    ((withTiles (at_ .v) [(tile [] none []).put 1 1 5]).un.tiles.all fun k => k.bytes.wf 0) = true := by
  and_intros <;> decide +kernel

/-- The encoder and the decoder on an instruction with its operands at their limits. -/
theorem witness_DecodeEncode : (Instr.sd 31 30 0x800).wf = true ∧ (encode (.sd 31 30 0x800)).isSome = true ∧ (encode (.tload 31 255 31 31 63)).isSome = true ∧
    decoded 4 0x002081B3 = some (.add 3 1 2) := by
  and_intros <;> decide +kernel


/-! One step each, on the corners that the specification works out or that its sentence fixes by hand calculation. -/

/-- What a register holds after an instruction. -/
noncomputable def xr (i : Instr) (s : State) (r : Reg) : Option Word :=
  match exec i s with
  | .next t => some (t.rx r)
  | _ => none

/-- What a reading of the next state gives. -/
noncomputable def look? {α : Type} (i : Instr) (s : State) (f : State → α) : Option α :=
  match exec i s with
  | .next t => some (f t)
  | _ => none

/-- x5 and x6 set. -/
def two (a b : Word) : State := setX (setX (at_ .v) 5 a) 6 b

/-- f1 and f2 set. -/
def twoF (a b : Word) : State := setF (setF (at_ .v) 1 a) 2 b

/-- Eight bytes at 0x20000. -/
def data (s : State) (w : Nat) : State := { s with ms := { s.ms with mem := cellPutList 0 s.ms.mem 0x20000 (leBytes 8 w) } }

/-- R215: integer arithmetic wraps; R152: x0 stays 0; a word result is extended from bit 31. -/
theorem test_integer : xr (.addi 3 7 2) (at_ .v) 3 = some 1 ∧ xr (.addi 0 7 2) (at_ .v) 0 = some 0 ∧ xr (.sub 3 0 6) (at_ .v) 3 = some (-7) ∧
    xr (.addw 3 5 6) (two 0x7FFFFFFF 1) 3 = some 0xFFFFFFFF80000000 ∧ xr (.sltu 3 6 7) (at_ .v) 3 = some 1 ∧ xr (.slt 3 6 7) (at_ .v) 3 = some 0 ∧
    xr (.sraw 3 5 6) (two 0x80000000 33) 3 = some 0xFFFFFFFFC0000000 ∧ xr (.sll 3 5 6) (two 1 65) 3 = some 2 ∧ xr (.lui 3 0x80000) (at_ .v) 3 = some 0xFFFFFFFF80000000 ∧
    xr (.auipc 3 1) (at_ .v) 3 = some 0x11000 ∧ xr (.liw 3 0x1000000000000) (at_ .v) 3 = some 0xFFFF000000000000 := by
  and_intros <;> decide +kernel

/-- R216: division by zero and the overflow of the most negative number; R215: the high products. -/
theorem test_divide : xr (.div 3 6 0) (at_ .v) 3 = some (-1) ∧ xr (.rem 3 6 0) (at_ .v) 3 = some 7 ∧ xr (.div 3 5 6) (two 0x8000000000000000 (-1)) 3 = some 0x8000000000000000 ∧
    xr (.rem 3 5 6) (two 0x8000000000000000 (-1)) 3 = some 0 ∧ xr (.div 3 5 6) (two (-7) 2) 3 = some (-3) ∧ xr (.rem 3 5 6) (two (-7) 2) 3 = some (-1) ∧
    xr (.divuw 3 5 0) (at_ .v) 3 = some (-1) ∧ xr (.mulh 3 5 6) (two (-1) (-1)) 3 = some 0 ∧ xr (.mulhu 3 5 6) (two (-1) (-1)) 3 = some (-2) ∧
    xr (.mulhsu 3 5 6) (two (-1) (-1)) 3 = some (-1) := by
  and_intros <;> decide +kernel

/-- R217: the bit operations at their ends. -/
theorem test_bits : xr (.clz 3 0) (at_ .v) 3 = some 64 ∧ xr (.ctz 3 5) (two 8 0) 3 = some 3 ∧ xr (.cpop 3 7) (at_ .v) 3 = some 64 ∧ xr (.rev8 3 6) (at_ .v) 3 = some 0x0700000000000000 ∧
    xr (.rol 3 5 6) (two 0x8000000000000001 1) 3 = some 3 ∧ xr (.ror 3 5 6) (two 1 1) 3 = some 0x8000000000000000 ∧ xr (.andn 3 7 6) (at_ .v) 3 = some (-8) := by
  and_intros <;> decide +kernel

/-- R215: branches and jumps, PC-relative; JALR clears bit 0 and reads its base before it links. -/
theorem test_control : look? (.blt 7 6 8) (at_ .v) (·.th.pc) = some 0x10010 ∧ look? (.bltu 7 6 8) (at_ .v) (·.th.pc) = some 0x10004 ∧
    look? (.jal 1 0xFFFFE) (at_ .v) (·.th.pc) = some 0xFFFC ∧ xr (.jal 1 0xFFFFE) (at_ .v) 1 = some 0x10004 ∧
    look? (.jalr 5 5 5) (at_ .v) (·.th.pc) = some 0x20004 ∧ xr (.jalr 5 5 5) (at_ .v) 5 = some 0x10004 := by
  and_intros <;> decide +kernel

/-- R215: loads extend, bytes are little-endian, and a store writes its low bytes alone. -/
theorem test_memory : xr (.lb 3 5 0) (data (at_ .v) 0x8887868584838281) 3 = some 0xFFFFFFFFFFFFFF81 ∧ xr (.lhu 3 5 1) (data (at_ .v) 0x8887868584838281) 3 = some 0x8382 ∧
    xr (.lw 3 5 4) (data (at_ .v) 0x8887868584838281) 3 = some 0xFFFFFFFF88878685 ∧
    (match exec (.sh 7 5 1) (data (at_ .v) 0x8887868584838281) with | .next t => xr (.ld 3 5 0) t 3 | _ => none) = some 0x8887868584FFFF81 := by
  and_intros <;> decide +kernel

/-- What a doubleword at 0x20000 and x3 come to after an atomic with x3 its destination, x6 its source and x5 the address. -/
noncomputable def rmw (i : Instr) (old src rd : Word) : Option Word × Option Word :=
  let s := setX (setX (data (at_ .v) old.toNat) 6 src) 3 rd
  (match exec i s with | .next t => xr (.ld 4 5 0) t 4 | _ => none, xr i s 3)

/-- R226's table of cases. -/
theorem test_atomics : rmw (.amoadd false .none .pkg 3 6 5) 0x7FFFFFFF 1 0 = (some 0x80000000, some 0x7FFFFFFF) ∧
    rmw (.amominu false .none .pkg 3 6 5) 0x80000000 1 0 = (some 1, some 0xFFFFFFFF80000000) ∧
    rmw (.amomin false .none .pkg 3 6 5) 0x80000000 1 0 = (some 0x80000000, some 0xFFFFFFFF80000000) ∧
    rmw (.amocas true .none .pkg 3 6 5) 0x10 0x20 0x10 = (some 0x20, some 0x10) ∧ rmw (.amocas true .none .pkg 3 6 5) 0x11 0x20 0x10 = (some 0x11, some 0x11) ∧
    rmw (.amofadd false .none .pkg 3 6 5) 0x3F800000 0x33800000 0 = (some 0x3F800000, some 0x3F800000) := by
  and_intros <;> decide +kernel

/-- R226's last case: a word at an address ≡ 2 mod 4 takes 0x0C with the address in TVAL. -/
theorem test_atomic_misaligned : look? (.amoadd false .none .pkg 3 6 5) (setX handled 5 0x20002) (fun t => (t.th.tcause.toNat % 256, t.th.tval, t.th.pc)) =
    some (0x0C, 0x20002, 0x10000) := by decide +kernel

/-- f3 and FFLAGS after an instruction. -/
noncomputable def fr (i : Instr) (s : State) : Option (Word × BitVec 5) := look? i s fun t => (readF t.th 3, t.th.fflags)

/-- R221, R173: +∞ − +∞; 1 + 2^−53 rounded up; division by zero; minimumNumber of the zeros; a NaN beside a number. -/
theorem test_fp : fr (.fsub .f64 .rne 3 1 2) (twoF 0x7FF0000000000000 0x7FF0000000000000) = some (0x7FF8000000000000, 16) ∧
    fr (.fadd .f64 .rup 3 1 2) (twoF 0x3FF0000000000000 0x3CA0000000000000) = some (0x3FF0000000000001, 1) ∧
    fr (.fadd .f64 .rne 3 1 2) (twoF 0x3FF0000000000000 0x3CA0000000000000) = some (0x3FF0000000000000, 1) ∧
    fr (.fdiv .f64 .rne 3 1 2) (twoF 0xBFF0000000000000 0) = some (0xFFF0000000000000, 8) ∧ fr (.fmin .f64 3 1 2) (twoF 0 0x8000000000000000) = some (0x8000000000000000, 0) ∧
    fr (.fmax .f64 3 1 2) (twoF 0x7FF8000000000000 0x3FF0000000000000) = some (0x3FF0000000000000, 0) ∧
    fr (.fsqrt .f64 .rne 3 1) (twoF 0x4010000000000000 0) = some (0x4000000000000000, 0) ∧
    fr (.fmaddF64 .rne 3 1 2 4) (twoF 0x7FF0000000000000 0) = some (0x7FF8000000000000, 16) ∧
    fr (.fsgnjN .f64 3 1 2) (twoF 0x3FF0000000000000 0x7FF0000000000001) = some (0xBFF0000000000000, 0) := by
  and_intros <;> decide +kernel

/-- R221, R222: comparisons, classes and conversions to and from integers. -/
theorem test_fp_integer : xr (.fcmpLe .f64 3 1 2) (twoF 0x8000000000000000 0) 3 = some 1 ∧ look? (.fcmpLt .f64 3 1 2) (twoF 0x7FF8000000000000 0) (fun t => (t.rx 3, t.th.fflags)) = some (0, 16) ∧
    look? (.fcmpEq .f64 3 1 2) (twoF 0x7FF8000000000000 0) (fun t => (t.rx 3, t.th.fflags)) = some (0, 0) ∧ xr (.fclass .f64 3 1) (twoF 0x8000000000000000 0) 3 = some 8 ∧
    xr (.fclass .f64 3 1) (twoF 0x7FF0000000000001 0) 3 = some 256 ∧ look? (.fcvti .f64 .s32 .rtz 3 1) (twoF 0xBFF8000000000000 0) (fun t => (t.rx 3, t.th.fflags)) = some (-1, 1) ∧
    look? (.fcvti .f64 .u32 .rtz 3 1) (twoF 0xBFF0000000000000 0) (fun t => (t.rx 3, t.th.fflags)) = some (0, 16) ∧
    fr (.fcvtx .f64 .s64 .rne 3 7) (at_ .v) = some (0xBFF0000000000000, 0) := by
  and_intros <;> decide +kernel

/-- R181's values. -/
theorem test_exp2 : (List.map (fun x => (exp2cr x).1) [0x40400000, 0x3F000000, 0xBF800000, 0xC3150000, 0xC3158000]) = [0x41000000, 0x3FB504F3, 0x3F000000, 1, 1] := by
  decide +kernel

/-- R176: under DSR a fraction of 2^−17 never rounds away, and one of 2^−16 does where the hash is 0, as for seed 0 and element 0. -/
theorem test_dsr : fr (.fcvtf .f32 .dsr 3 1) (twoF 0x3FF0000000001000 0) = some (0xFFFFFFFF3F800000, 1) ∧
    fr (.fcvtf .f32 .dsr 3 1) (twoF 0x3FF0000000002000 0) = some (0xFFFFFFFF3F800001, 1) := by
  and_intros <;> decide +kernel

/-- The packed examples of R248. -/
theorem test_packed : xr (.padds .b 3 5 6) (two 0x70 0x20) 3 = some 0x7F ∧ xr (.paddus .b 3 5 6) (two 0xF0 0x20) 3 = some 0xFF ∧ xr (.psubus .b 3 5 6) (two 0x10 0x20) 3 = some 0 ∧
    xr (.pmulq .h 3 5 6) (two 0x8000 0x8000) 3 = some 0x7FFF ∧ xr (.pmulq .h 3 5 6) (two 0x4000 3) 3 = some 2 ∧ xr (.pavg .b 3 5 6) (two 0xFD03 0xFC04) 3 = some 0xFC04 ∧
    xr (.pcvt .fp32 .bf16 3 5) (two 0xBF8080003F808000 0) 3 = some 0xBF803F80 ∧ xr (.pcvt .fp32 .e4m3 3 5) (two 0x43FA0000 0) 3 = some 0x7F ∧
    xr (.pcvt .fp32 .e4m3 3 5) (two 0x3E99999A 0) 3 = some 0x2A := by
  and_intros <;> decide +kernel

/-- The shift examples of R185, in packed lanes and in x. -/
theorem test_shifts : xr (.psra .b 3 5 6) (two 0x96 3) 3 = some 0xF2 ∧ xr (.psra .b 3 5 6) (two 0x96 8) 3 = some 0xFF ∧ xr (.psrl .b 3 5 6) (two 0x96 8) 3 = some 0 ∧
    xr (.pssl .b 3 5 6) (two 0x96 200) 3 = some 0x80 ∧ xr (.psll .h 3 5 6) (two 0x4001 0x101) 3 = some 0x8002 ∧ xr (.pssl .h 3 5 6) (two 0x4001 0x101) 3 = some 0x7FFF ∧
    xr (.pssl .w 3 5 6) (two 0 40) 3 = some 0 ∧ xr (.sll 3 5 6) (two 0x80 67) 3 = some 0x400 := by
  and_intros <;> decide +kernel

/-- A vector thread with v1.e[0..3] and v2.e[0..3] at SEW 32. -/
def lanes4 (a b : List Nat) : State :=
  onTh (vec .e32 4) fun t => (List.range 4).foldl (fun u i => putElem (putElem u 1 i (a.getD i 0)) 2 i (b.getD i 0)) t

/-- v3.e[0..3]. -/
noncomputable def vr (i : Instr) (s : State) : Option (List Nat) := look? i s fun t => (List.range 4).map (getElem t.th 3)

/-- R280 to R292 by hand; vs2 comes first in a subtraction. -/
theorem test_vector : vr (.vsub false 3 1 (.vec 2)) (lanes4 [5, 0, 7, 1] [1, 1, 2, 1]) = some [4, 0xFFFFFFFF, 5, 0] ∧
    vr (.vadd true 3 1 (.imm 31)) (onTh (lanes4 [5, 0, 7, 1] []) fun t => putElem t 0 2 1) = some [0, 0, 6, 0] ∧
    vr (.vsaddu false 3 1 (.vec 2)) (lanes4 [0xFFFFFFFF, 1, 0, 0] [1, 1, 0, 0]) = some [0xFFFFFFFF, 2, 0, 0] ∧
    vr (.vdivu false 3 1 (.vec 2)) (lanes4 [7, 7, 0, 9] [2, 0, 0, 3]) = some [3, 0xFFFFFFFF, 0xFFFFFFFF, 3] ∧
    vr (.vssl false 3 1 (.vec 2)) (lanes4 [0x80000000, 0, 1, 2] [32, 40, 31, 1]) = some [0x80000000, 0, 0x7FFFFFFF, 4] := by
  and_intros <;> decide +kernel

/-- R285's rows, and its flags. -/
theorem test_vector_convert : look? (.vfcvtd false .e4m3 3 1) (lanes4 [0x3E99999A] []) (fun t => (getElem t.th 3 0, t.th.fflags)) = some (0x2A, 1) ∧
    look? (.vfcvts false .e5m2 3 1) (lanes4 [0x1234567C] []) (fun t => (getElem t.th 3 0, t.th.fflags)) = some (0x7F800000, 0) ∧
    look? (.vfcvts false .int4 3 1) (lanes4 [0xF] []) (fun t => (getElem t.th 3 0, t.th.fflags)) = some (0xBF800000, 0) := by
  and_intros <;> decide +kernel

/-- R287's reduction of FP32 in the element tree, under a mask. -/
theorem test_reduction : look? (.vfredsum true 3 1 2) (onTh (vec .e32 5) fun t => [(0, 0x4B800000, 1), (1, 0x3F800000, 1), (2, 0x41000000, 0), (3, 0x3F800000, 1), (4, 0x3F800000, 1)].foldl
      (fun u (i, a, m) => putElem (putElem u 1 i a) 0 i m) t) (fun t => getElem t.th 3 0) = some 0x4B800001 := by decide +kernel

/-- R241: a register write returns the old value; a write of mode 0 to RNDMODE stores 1 (R172); FFLAGS keeps five bits. -/
theorem test_system_registers : look? (.srwr 3 .rndmode 0) (at_ .v) (fun t => t.th.rndmode) = some .rne ∧ look? (.srwr 3 .fflags 7) (at_ .v) (fun t => (t.rx 3, t.th.fflags)) = some (0, 31) ∧
    look? (.srset 3 .dsrseed 6) (at_ .v) (fun t => t.th.dsrseed) = some 7 := by
  and_intros <;> decide +kernel

/-- R238: in a handler, TRET goes to TEPC with HND and PRIV clear. -/
theorem test_tret : look? .tret (onTh (at_ .v) fun t => { t with status := { t.status with hnd := true }, tepc := 0x12340 }) (fun t => (t.th.pc, t.th.status.hnd, t.th.status.priv)) =
    some (0x12340, false, false) := by decide +kernel

/-- R255: an element written and read back; INT8 is extended with its sign. -/
theorem test_tile_element : (match exec (.twrx 240 5 7) (setX (withTiles (at_ .v) [tile [] none []]) 5 0x30007) with
    | .next t => xr (.trdx 3 240 5) t 3 | _ => none) = some (-1) := by decide +kernel

/-- One step from the state after reset with a word at the pc (R186): ADDI x5, x0, −1 (0xFFF00293). -/
theorem test_step : (match step (State.reset.withFetchWord 32 0xFFF00293) with | .next t => some (t.rx 5) | _ => none) = some (-1) := by decide +kernel

end Sys2Proof.Tests
end

