-- ==== Sys2Proof/Proofs/Frames.lean ====
section
/-! Which registers and bytes the ends of an instruction leave as they were. -/

namespace Sys2Proof.Machine

open Sys2Proof.Claims

/-- Memory that differs in no field that holds bytes, or says under which key, reads the same (R34, R80). -/
theorem keptBytes_of_fields {s t : State} (hmem : t.ms.mem = s.ms.mem) (hllc : t.ms.llc = s.ms.llc) (hl2 : t.ms.l2d = s.ms.l2d)
    (hkey : t.ms.lineKey = s.ms.lineKey) (hprov : t.ms.prov = s.ms.prov) : KeptBytes s t := by
  intro view key a
  have hheld : ∀ b, heldByte t.ms b = heldByte s.ms b := heldByte_congr hmem hllc hl2
  simp only [viewByte, provByte, commByte, heldBlock, hheld, hkey, hprov]

/-- An instruction that completes after changes outside its thread's registers leaves every register. -/
theorem keptRegs_finished {s u : State} (n : Nat) (plain : Plain s) (hth : u.th = s.th) (hsys : ∀ r, readSys u u.th r = readSys s s.th r) :
    KeptRegs s (countIssue (u.advance n)) [] [] [] [] where
  x _ _ := readX_congr (by simp [hth]) (by simpa [hth, Plain] using plain) plain _
  f _ _ := by simp [readF, hth]
  v _ _ := by simp [readV, hth]
  sys r _ := (readSys_finished u n r).trans (hsys r)
  groups := by simp [hth]

/-- The pc after an instruction of n bytes that completes. -/
theorem pc_finished {s u : State} (n : Nat) (hth : u.th = s.th) : (countIssue (u.advance n)).th.pc = pcAfter n s := by
  simp [hth, pcAfter, instrBytes]

/-- A thread that parks keeps every register. -/
theorem keptRegs_parked {s u : State} (w : Wait) (plain : Plain s) (hth : u.th = s.th) (hsys : ∀ r, readSys u u.th r = readSys s s.th r) :
    KeptRegs s (u.onTh fun t => { t with run := .parked w, chainIn := none, chainOut := none }) [] [] [] [] where
  x _ _ := readX_congr (by simp [hth]) (by simpa [hth, Plain] using plain) plain _
  f _ _ := by simp [readF, hth]
  v _ _ := by simp [readV, hth]
  sys r _ := by
    rw [← hsys r]
    cases r <;> rfl
  groups := by simp [hth]

end Sys2Proof.Machine
end

