-- ==== Sys2Proof/Proofs/Tlbinv.lean ====
section
/-! TLBINV (R39 to R42): what it checks, what it removes at once, and how it ends. -/

namespace Sys2Proof.Machine

open Sys2Proof.Claims

/-! The frame that waits for other packages. -/

/-- With nothing of its thread under way, an instruction that acts on other packages begins (R42). -/
theorem overPod_begins {size : Nat} {ask : Option InvAsk} {s : State} {k : State → Res Unit} (h : ∀ i ∈ s.xl.inv, i.tid ≠ s.th.tid) :
    overPod size ask s k = (k s).andThen fun _ s1 =>
      .park (.tlbinv ((s1.xl.inv.map (·.id + 1)).foldl max 0))
        { s1 with xl := { s1.xl with inv := s1.xl.inv ++ [⟨(s1.xl.inv.map (·.id + 1)).foldl max 0, s1.th.tid, ask, s1.clk.time, none, false⟩] } } := by
  have hnone : (s.xl.inv.find? fun i => decide (i.tid = s.th.tid)) = none := List.find?_eq_none.mpr fun i hi => by simp [h i hi]
  simp only [overPod, hnone]

/-- Once it is done it completes (R42). -/
theorem overPod_completes {size : Nat} {ask : Option InvAsk} {s : State} {k : State → Res Unit} {i : Inval}
    (h : s.xl.inv.find? (fun j => decide (j.tid = s.th.tid)) = some i) (hdone : i.done = true) (hok : i.failed = none) :
    overPod size ask s k = .done (State.advance { s with xl := { s.xl with inv := s.xl.inv.erase i } } size) := by
  simp [overPod, h, hdone, hok]

/-- Once a package has failed to acknowledge it, it takes 0x24 with that package (R42). -/
theorem overPod_fails {size : Nat} {ask : Option InvAsk} {s : State} {k : State → Res Unit} {i : Inval} {p : Nat}
    (h : s.xl.inv.find? (fun j => decide (j.tid = s.th.tid)) = some i) (hdone : i.done = true) (hbad : i.failed = some p) :
    overPod size ask s k = .trap { cause := 0x24, tval := BitVec.ofNat 64 p, vkind := 3 } { s with xl := { s.xl with inv := s.xl.inv.erase i } } := by
  simp [overPod, h, hdone, hbad]

/-! What is removed. -/

/-- R40, R75: what a KIND removes of what was filled through a page of a context. -/
def kindRemoves (d : Word) (va c p page bits : Nat) (global : Bool) : Prop :=
  if fld d 47 44 = 0 then (c = fld d 63 52 ∨ (global = true ∧ p = fld d 51 48)) ∧ va / 2 ^ bits = page
  else if fld d 47 44 = 1 then c = fld d 63 52 ∧ global = false else p = fld d 51 48

/-- R40: a TLB entry goes as its KIND says. -/
theorem invRemoves_iff (d : Word) (va : Nat) (e : TlbEntry) : invRemoves d va e = true ↔ kindRemoves d va e.ctx e.part e.vpage e.sbits e.leaf.global := by
  unfold invRemoves kindRemoves
  split
  · simp_all only [Bool.and_eq_true, Bool.or_eq_true, decide_eq_true_eq, if_true]
  · simp_all only [Bool.and_eq_true, Bool.not_eq_true', decide_eq_true_eq, Nat.one_ne_zero, if_false, if_true]
  · rename_i h0 h1
    rw [if_neg h0, if_neg h1, decide_eq_true_eq]

/-- R75: an instruction line goes by the page through which it was filled. -/
theorem invDropsCode_iff (s : State) (d : Word) (va : Nat) (l : L1iLine) :
    invDropsCode s d va l = true ↔ kindRemoves d va l.ctx (s.partOf l.ctx) l.page l.sbits l.global := by
  unfold invDropsCode kindRemoves
  split
  · simp_all only [Bool.and_eq_true, Bool.or_eq_true, decide_eq_true_eq, if_true]
  · simp_all only [Bool.and_eq_true, Bool.not_eq_true', decide_eq_true_eq, Nat.one_ne_zero, if_false, if_true]
  · rename_i h0 h1
    rw [if_neg h0, if_neg h1, decide_eq_true_eq]

/-- R39: a reserved KIND, a nonzero reserved field, or a place that the blend or the scope does not have makes a target bad. -/
theorem badDword_of_bad {s : State} {scope : Scope} {d : Word}
    (h : 3 ≤ d.toNat / 2 ^ 44 % 16 ∨ d.toNat / 2 ^ 37 % 2 ^ 7 ≠ 0 ∨ d.toNat / 2 ^ 25 % 2 ^ 7 ≠ 0 ∨ d.toNat % 2 ^ 16 ≠ 0 ∨
      ((dwordCore d).die ∈ computeDies s.clk.blend ∧ quadsOf (classOfDie (dwordCore d).die) ≤ (dwordCore d).quad) ∨
      ((dwordCore d).die ∉ computeDies s.clk.blend ∧
        ((dwordCore d).die ∉ dies s.clk.blend ∨ (dwordCore d).quad ≠ 0 ∨ (dwordCore d).core ≠ 0 ∨ scope.code < 4))) : badDword s scope d = true := by
  have hlow : fld d 15 0 = d.toNat % 2 ^ 16 := by simp [fld, bitsAt]
  simp only [badDword, Bool.or_eq_true, decide_eq_true_eq, hlow]
  rcases h with h | h | h | h | ⟨hdie, hquad⟩ | ⟨hdie, h⟩
  · exact .inl (.inl (.inl (.inl h)))
  · exact .inl (.inl (.inl (.inr h)))
  · exact .inl (.inl (.inr h))
  · exact .inl (.inr h)
  · right
    simp [hdie, hquad]
  · right
    rw [if_neg (by simpa using hdie)]
    rcases h with h | h | h | h
    · simp [h]
    · simp [h]
    · simp [h]
    · simp [Nat.not_le.mpr h]

/-! The instruction. -/

/-- The outcome of a TLBINV in supervisor code with chain mode off: that of its wait for other packages. -/
theorem tlbinv_outcome {s : State} {scope : Scope} {rs1 rs2 : Reg} (plain : Plain s) (priv : s.th.status.priv = true) :
    exec (.tlbinv scope rs1 rs2) s = settle (overPod 4 (tlbinvAsk s scope (s.rx rs2) (tlbinvVa s (s.rx rs1))) s fun s1 =>
      if badDword s1 scope (s.rx rs2) then .stop (.trap { cause := 0x03, tval := s.rx rs2, vkind := 2 } s1)
      else .ok () (invalidate s1 scope (s.rx rs2) (tlbinvVa s (s.rx rs1)))) := by
  rw [exec_tlbinv, execTlbinv, issue_priv plain priv]

/-- A TLBINV in user code is a privileged instruction (R154). -/
theorem tlbinv_user {s : State} {scope : Scope} {rs1 rs2 : Reg} (user : s.th.status.priv = false) :
    Traps (.tlbinv scope rs1 rs2) s { cause := 0x05, tval := s.th.ibits } := by
  simp [Traps, exec_tlbinv, execTlbinv, issue, admitted, user, trapOf]

/-- R39: a bad target is an illegal instruction, with nothing removed. -/
theorem tlbinv_bad {s : State} {scope : Scope} {rs1 rs2 : Reg} (plain : Plain s) (priv : s.th.status.priv = true) (idle : ∀ i ∈ s.xl.inv, i.tid ≠ s.th.tid)
    (bad : badDword s scope (s.rx rs2) = true) : Traps (.tlbinv scope rs1 rs2) s { cause := 0x03, tval := s.rx rs2, vkind := 2 } := by
  rw [Traps, tlbinv_outcome plain priv, overPod_begins idle, if_pos bad, Res.andThen_stop, settle_trap]

/-- An invalidation in progress, at its beginning (R42). -/
def newInval (s : State) (ask : Option InvAsk) : Inval := ⟨(s.xl.inv.map (·.id + 1)).foldl max 0, s.th.tid, ask, s.clk.time, none, false⟩

/-- A state with an invalidation in progress, its thread parked. -/
def awaitInval (s : State) (i : Inval) : State :=
  State.onTh { s with xl := { s.xl with inv := s.xl.inv ++ [i] } } fun t => { t with run := .parked (.tlbinv i.id), chainIn := none, chainOut := none }

/-- A TLBINV with a good target: its entries and lines go at once, and the thread waits (R39, R40, R42). -/
theorem tlbinv_good {s : State} {scope : Scope} {rs1 rs2 : Reg} (plain : Plain s) (priv : s.th.status.priv = true) (idle : ∀ i ∈ s.xl.inv, i.tid ≠ s.th.tid)
    (good : badDword s scope (s.rx rs2) = false) :
    let d := s.rx rs2
    let va := tlbinvVa s (s.rx rs1)
    exec (.tlbinv scope rs1 rs2) s = .next (awaitInval (invalidate s scope d va) (newInval s (tlbinvAsk s scope d va))) := by
  rw [tlbinv_outcome plain priv, overPod_begins idle, if_neg (by simp [good])]
  rfl

end Sys2Proof.Machine

open Sys2Proof Sys2Proof.Machine Sys2Proof.Claims

/-- Settles O28: the cases of the instruction, in user code, of a bad target, of a good one, and at its end. -/
theorem tlbInvalidation : Obligations.TlbInvalidation := by
  intro s scope rs1 rs2 plain d kind ctx part at_ va removes
  refine ⟨tlbinv_user, fun priv idle => ⟨fun h => ?_, tlbinv_bad plain priv idle, fun good => ?_⟩, fun priv i hi hdone => ⟨fun hok => ?_, fun p hbad => ?_⟩⟩
  · have hbad : badDword s scope d = true := badDword_of_bad h
    exact ⟨hbad, tlbinv_bad plain priv idle hbad⟩
  · refine ⟨_, _, tlbinv_good plain priv idle good, rfl, rfl, ?_, ?_, ?_, ?_, ?_, ?_, ?_⟩
    · exact keptRegs_parked _ plain rfl fun r => by cases r <;> rfl
    · exact keptBytes_of_fields rfl rfl rfl rfl rfl
    · exact ⟨newInval s (tlbinvAsk s scope d va), List.mem_append_right _ (List.mem_singleton_self _), rfl, rfl, rfl⟩
    · intro e
      show e ∈ s.xl.tlb.filter _ ↔ _
      rw [List.mem_filter, Bool.not_eq_true', ← Bool.not_eq_true, Bool.and_eq_true, invRemoves_iff]
      rfl
    · intro e
      show e ∈ s.xl.wcache.filter _ ↔ _
      rw [List.mem_filter, Bool.not_eq_true', ← Bool.not_eq_true, Bool.and_eq_true, decide_eq_true_eq]
      rfl
    · intro l
      show l ∈ s.ms.l1i.filter _ ↔ _
      rw [List.mem_filter, Bool.not_eq_true', ← Bool.not_eq_true, Bool.and_eq_true, invDropsCode_iff]
      rfl
    · intro l
      show l ∈ s.ms.l1d.filter _ ↔ _
      rw [List.mem_filter, Bool.not_eq_true']
      rfl
  · let u : State := { s with xl := { s.xl with inv := s.xl.inv.erase i } }
    refine ⟨countIssue (u.advance 4), ?_, pc_finished 4 rfl, keptRegs_finished 4 plain rfl fun r => by cases r <;> rfl, fun _ _ _ => rfl, rfl, rfl⟩
    rw [tlbinv_outcome plain priv, overPod_completes hi hdone hok, settle_done]
  · rw [tlbinv_outcome plain priv, overPod_fails hi hdone hbad, settle_trap]
end

