-- ==== Sys2Proof/Proofs/Lists.lean ====
section
/-! Association lists and lists with each value once. -/

namespace Sys2Proof.Machine

/-- A list with each value once has the values of the list. -/
theorem mem_uniq {α : Type} [DecidableEq α] {a : α} : ∀ {l : List α}, a ∈ uniq l ↔ a ∈ l := by
  intro l
  induction l with
  | nil => rfl
  | cons b l ih =>
    rw [uniq]
    split
    · rename_i hb
      have hmem : b ∈ l := List.contains_iff_mem.mp hb
      rw [ih, List.mem_cons]
      exact ⟨.inr, fun h => h.elim (fun e => e ▸ hmem) id⟩
    · rw [List.mem_cons, List.mem_cons, ih]

/-- An entry taken out of an association list. -/
theorem look_unassoc {κ α : Type} [DecidableEq κ] (l : List (κ × α)) (k k' : κ) : look (unassoc l k) k' = if k' = k then none else look l k' := by
  induction l with
  | nil => simp [unassoc, look]
  | cons c rest ih =>
    rw [unassoc] at ih ⊢
    by_cases hc : c.1 = k
    · rw [List.filter_cons_of_neg (by simpa using hc), ih, look]
      by_cases hk : k' = k
      · rw [if_pos hk, if_pos hk]
      · rw [if_neg hk, if_neg hk, if_neg (by rw [hc]; exact Ne.symm hk)]
    · rw [List.filter_cons_of_pos (by simpa using hc), look, look, ih]
      by_cases hk : k' = k
      · rw [if_pos hk, if_neg (by rw [hk]; exact hc), if_pos hk]
      · rw [if_neg hk, if_neg hk]

/-- The first of a list that satisfies a test is the first that satisfies it with another that it satisfies too. -/
theorem find?_and {α : Type} {p q : α → Bool} {a : α} : ∀ {l : List α}, l.find? p = some a → q a = true → l.find? (fun b => p b && q b) = some a := by
  intro l
  induction l with
  | nil => intro h _; cases h
  | cons b l ih =>
    intro h hq
    by_cases hb : p b = true
    · rw [List.find?_cons_of_pos hb] at h
      cases h
      rw [List.find?_cons_of_pos (by simp [hb, hq])]
    · rw [List.find?_cons_of_neg hb] at h
      rw [List.find?_cons_of_neg (by simp [hb]), ih h hq]

end Sys2Proof.Machine
end

