-- ==== Sys2Proof/Proofs/Queues.lean ====
section
/-! Write-through queues delivered (R73): what is left of them, and that nothing outside memory changes. -/

namespace Sys2Proof.Machine

/-- A committed write leaves the write-through queues. -/
theorem rekeyBlock_wtq (m : MemSys) (key : Option KeyTag) (block : Nat) {put : MemSys → Nat → Byte → MemSys} (hput : ∀ m a b, (put m a b).wtq = m.wtq) :
    (rekeyBlock m key block put).wtq = m.wtq := by
  unfold rekeyBlock
  split
  · rfl
  · dsimp only
    split
    · rfl
    · split
      · rfl
      · exact List.foldlRecOn (motive := fun n : MemSys => n.wtq = m.wtq) _ _ rfl fun n hn o _ => (hput n _ _).trans hn

theorem commWrite_wtq {die : Nat} {key : Option KeyTag} : ∀ (cs : Cells) (m : MemSys), (commWrite m die key cs).wtq = m.wtq := by
  intro cs
  induction cs with
  | nil => intro m; rfl
  | cons c cs ih =>
    intro m
    have hkeyed := rekeyBlock_wtq (l2Own m die (lineOf c.1)) key (blockOf c.1) (put := putL2d) fun _ _ _ => rfl
    exact (ih _).trans (hkeyed.trans (l2Own_moves m die (lineOf c.1)).wtq)

theorem commitCells_wtq (m : MemSys) (die : Nat) (key : Option KeyTag) (cs : Cells) (whole : Bool) : (commitCells m die key cs whole).wtq = m.wtq := by
  unfold commitCells
  dsimp only
  split
  · exact (Moves.foldl (fun m l => setFlag_moves m _ l _) _ _).wtq.trans (commWrite_wtq cs m)
  · exact commWrite_wtq cs m

/-- A provisional write leaves the write-through queues. -/
theorem provMerge_wtq (m : MemSys) (stand die : Nat) (key : KeyTag) (cs : Cells) (whole : Bool) : (provMerge m stand die key cs whole).wtq = m.wtq :=
  (trimL2_moves _ _).wtq

/-- A store delivered changes memory alone, and leaves its queue (R73). -/
theorem deliverStore_form (s : State) (e : WtStore) : ∃ m, deliverStore s e = { s with ms := m } ∧ m.wtq = s.ms.wtq.erase e := by
  unfold deliverStore
  dsimp only
  split
  · split
    · exact ⟨_, rfl, rfl⟩
    · split
      · exact ⟨_, rfl, commitCells_wtq _ _ _ _ _⟩
      · exact ⟨_, rfl, provMerge_wtq _ _ _ _ _ _⟩
  · exact ⟨_, rfl, commitCells_wtq _ _ _ _ _⟩

/-- How often an element is left once some have been taken out in turn. -/
theorem count_foldl_erase {α : Type} [BEq α] [LawfulBEq α] (a : α) : ∀ (l q : List α), (l.foldl List.erase q).count a = q.count a - l.count a
  | [], _ => rfl
  | b :: l, q => by
    rw [List.foldl_cons, count_foldl_erase a l, List.count_erase, List.count_cons, Nat.sub_sub, Nat.add_comm]

/-- Stores delivered in turn change memory alone, and leave their queues. -/
theorem deliverStores_form : ∀ (l : List WtStore) (s : State), ∃ m, l.foldl deliverStore s = { s with ms := m } ∧ m.wtq = l.foldl List.erase s.ms.wtq
  | [], s => ⟨s.ms, rfl, rfl⟩
  | e :: l, s => by
    obtain ⟨m, hm, hwtq⟩ := deliverStore_form s e
    obtain ⟨n, hn, hwtq'⟩ := deliverStores_form l { s with ms := m }
    exact ⟨n, by rw [List.foldl_cons, hm, hn], by rw [hwtq', List.foldl_cons, ← hwtq]⟩

/-- A core's queue delivered: memory alone changes, and of the queued stores only others' are left (R73). -/
theorem drainCore_form (s : State) (c : CoreId) : ∃ m, drainCore s c = { s with ms := m } ∧ ∀ e ∈ m.wtq, e ∈ s.ms.wtq ∧ e.core ≠ c := by
  obtain ⟨m, hm, hwtq⟩ := deliverStores_form (s.ms.wtq.filter fun e => decide (e.core = c)) s
  refine ⟨m, hm, fun e he => ?_⟩
  rw [hwtq] at he
  have hcount := List.count_pos_iff.mpr he
  rw [count_foldl_erase] at hcount
  refine ⟨List.count_pos_iff.mp (by omega), fun hc => ?_⟩
  rw [List.count_filter (by simpa using hc)] at hcount
  omega

/-- The queue of a core that has none is left alone. -/
theorem drainCore_idle {s : State} {c : CoreId} (h : ∀ e ∈ s.ms.wtq, e.core ≠ c) : drainCore s c = s := by
  have : (s.ms.wtq.filter fun e => decide (e.core = c)) = [] := List.filter_eq_nil_iff.mpr fun e he => by simpa using h e he
  rw [drainCore, this, List.foldl_nil]

/-- The queues of some cores delivered. -/
theorem drainCores_form : ∀ (cs : List CoreId) (s : State), ∃ m, cs.foldl drainCore s = { s with ms := m } ∧ ∀ e ∈ m.wtq, e ∈ s.ms.wtq ∧ e.core ∉ cs
  | [], s => ⟨s.ms, rfl, fun e he => ⟨he, List.not_mem_nil⟩⟩
  | c :: cs, s => by
    obtain ⟨m, hm, hleft⟩ := drainCore_form s c
    obtain ⟨n, hn, hleft'⟩ := drainCores_form cs { s with ms := m }
    refine ⟨n, by rw [List.foldl_cons, hm, hn], fun e he => ?_⟩
    obtain ⟨hmem, hcs⟩ := hleft' e he
    obtain ⟨hs, hc⟩ := hleft e hmem
    exact ⟨hs, by simp [hc, hcs]⟩

/-- Every queue delivered: memory alone changes, and no store is left (R42). -/
theorem drainAll_form (s : State) : ∃ m, drainAll s = { s with ms := m } ∧ m.wtq = [] := by
  obtain ⟨m, hm, hleft⟩ := drainCores_form (uniq (s.ms.wtq.map (·.core))) s
  refine ⟨m, hm, List.eq_nil_iff_forall_not_mem.mpr fun e he => ?_⟩
  obtain ⟨hmem, hcore⟩ := hleft e he
  exact hcore (mem_uniq.mpr (List.mem_map_of_mem hmem))

/-- With no store queued, nothing is delivered. -/
theorem drainAll_idle {s : State} (h : s.ms.wtq = []) : drainAll s = s := by rw [drainAll, h]; rfl

end Sys2Proof.Machine
end

