-- ==== Sys2Proof/Proofs/XlateEvents.lean ====
section
/-! Events of translation: the miss queue (R37), context records (R21), the ends of a TLBINV (R42) and key slots (R34). -/

namespace Sys2Proof.Machine

open Sys2Proof.Claims

/-! Threads that go on. -/

/-- The thread that waits in a way that a wake ends runs, with nothing else of it changed. -/
theorem wake_waiting {s : State} {t : Tid} {w : Wait} {p : Wait → Bool} (h : WaitsIn s t w) (hp : p w = true) :
    (wake s t p).th = { s.th with run := .running } := by
  obtain ⟨htid, hrun⟩ := h
  simp [wake, htid, hrun, hp]

@[simp] theorem wake_ms (s : State) (t : Tid) (p : Wait → Bool) : (wake s t p).ms = s.ms := rfl
@[simp] theorem wake_xl (s : State) (t : Tid) (p : Wait → Bool) : (wake s t p).xl = s.xl := rfl
@[simp] theorem wake_un (s : State) (t : Tid) (p : Wait → Bool) : (wake s t p).un = s.un := rfl
@[simp] theorem wake_pod (s : State) (t : Tid) (p : Wait → Bool) : (wake s t p).pod = s.pod := rfl

/-! Misses. -/

/-- The miss queue with a walker given to one of its misses. -/
def giveWalker (s : State) (q : Miss) : State :=
  { s with xl := { s.xl with missQ := s.xl.missQ.map fun r => if r = q then { r with served := true } else r } }

/-- With a walker free, the oldest miss is given it, and its thread or its command goes on (R37). -/
theorem missQueueServe_next {s : State} {die : Nat} {q : Miss} (h : s.xl.missQ.find? (fun q => decide (q.die = die) && !q.served) = some q)
    (free : walksInFlight s die < 256) :
    exec (.missQueueServe die) s = .next (if q.cmd.isSome then giveWalker s q else wake (giveWalker s q) q.tid fun w => w == .missQueue) := by
  simp only [exec_missQueueServe, execMissQueueServe, h, if_neg (Nat.not_le.mpr free)]
  rfl

/-- The miss is then served. -/
theorem giveWalker_served {s : State} {q : Miss} (hq : q ∈ s.xl.missQ) : { q with served := true } ∈ (giveWalker s q).xl.missQ :=
  List.mem_map.mpr ⟨q, hq, if_pos rfl⟩

/-- Every other miss stays as it is. -/
theorem giveWalker_others {s : State} {q r : Miss} (hr : r ∈ s.xl.missQ) (hne : r ≠ q) : r ∈ (giveWalker s q).xl.missQ :=
  List.mem_map.mpr ⟨r, hr, if_neg hne⟩

/-- With every walker of the die busy, no miss is served (R37). -/
theorem missQueueServe_busy {s : State} {die : Nat} (busy : 256 ≤ walksInFlight s die) : exec (.missQueueServe die) s = .next s := by
  rw [exec_missQueueServe, execMissQueueServe]
  split
  · rfl
  · rw [if_pos busy]

/-! Context records. -/

/-- A context's record after its entry is set; one that is zero is not listed. -/
theorem ctxRec_set (s : State) (ctx c : Nat) (r : CtxRec) :
    (look (if r = CtxRec.zero then unassoc s.xl.ctxs ctx else assoc s.xl.ctxs ctx r) c).getD CtxRec.zero = if c = ctx then r else s.ctxRec c := by
  by_cases hz : r = CtxRec.zero
  · rw [if_pos hz, look_unassoc, State.ctxRec]
    split
    · exact hz.symm
    · rfl
  · rw [if_neg hz, look_assoc, State.ctxRec]
    split <;> rfl

/-- The records after a dword of one is written: EN is stored as 0 while another enabled context has the JOBID (R21). -/
theorem contextWrite_ctxRec (s : State) (ctx dword c : Nat) (v : Word) :
    (contextWrite s ctx dword v).ctxRec c =
      if c = ctx then
        (if s.xl.ctxs.any fun e => decide (e.1 ≠ ctx) && e.2.en && decide (e.2.jobid = ((s.ctxRec ctx).put dword v).jobid) then
          { (s.ctxRec ctx).put dword v with en := false } else (s.ctxRec ctx).put dword v)
      else s.ctxRec c :=
  ctxRec_set s ctx c _

/-- The fields that a dword of a context record sets (R21). -/
theorem ctxRec_put (r : CtxRec) (dword : BitVec 2) (v : Word) :
    r.put dword.toNat v = if dword = 0 then { r with en := v.getLsbD 63, part := v.extractLsb' 52 4, root := v.extractLsb' 12 40 }
      else if dword = 1 then { r with jobid := v.extractLsb' 0 32 } else r := by
  by_cases h0 : dword = 0
  · subst h0
    rfl
  · by_cases h1 : dword = 1
    · subst h1
      rfl
    · rw [if_neg h0, if_neg h1]
      unfold CtxRec.put
      split
      · rename_i h
        exact absurd (BitVec.eq_of_toNat_eq h) h0
      · rename_i h
        exact absurd (BitVec.eq_of_toNat_eq h) h1
      · rfl

/-- The clash that the write looks for: another enabled context with the JOBID. -/
theorem jobidClash_iff (s : State) (ctx : Nat) (r : CtxRec) :
    (s.xl.ctxs.any fun e => decide (e.1 ≠ ctx) && e.2.en && decide (e.2.jobid = r.jobid)) = true ↔
      ∃ e ∈ s.xl.ctxs, e.1 ≠ ctx ∧ e.2.en = true ∧ e.2.jobid = r.jobid := by
  simp only [List.any_eq_true, Bool.and_eq_true, decide_eq_true_eq, and_assoc]

/-! The ends of a TLBINV. -/

section
variable {s : State} {n pkg : Nat} {i : Inval} (hi : s.xl.inv.find? (fun i => decide (i.id = n) && !i.done) = some i)
include hi

/-- An invalidation found by its number has that number. -/
theorem inval_id : i.id = n := by
  have := List.find?_some hi
  simp only [Bool.and_eq_true, decide_eq_true_eq] at this
  exact this.1

/-- A TLBINV whose packages have all acknowledged ends. -/
theorem tlbinvComplete_next : exec (.tlbinvComplete n) s = .next (endInval (drainAll s) i none) := by
  simp only [exec_tlbinvComplete, execTlbinvComplete, hi]

/-- Before 200 microseconds have passed, no package has been silent for too long. -/
theorem tlbinvPodTimeout_early (ask : i.ask ≠ none) (early : s.clk.time < i.sinceNs + 200000) : exec (.tlbinvPodTimeout n pkg) s = .next s := by
  have hfind := find?_and (q := fun i => i.ask.isSome) hi (by simpa [Option.isSome_iff_ne_none] using ask)
  simp only [exec_tlbinvPodTimeout, execTlbinvPodTimeout, hfind]
  rw [if_neg fun h => absurd h.1 (Nat.not_le.mpr early)]

/-- Then a TLBINV fails on another package that has been silent. -/
theorem tlbinvPodTimeout_late (ask : i.ask ≠ none) (late : i.sinceNs + 200000 ≤ s.clk.time) (hother : pkg ≠ s.clk.pkg) (hpkg : pkg < 1024) :
    exec (.tlbinvPodTimeout n pkg) s = .next (endInval (drainAll s) i (some pkg)) := by
  have hfind := find?_and (q := fun i => i.ask.isSome) hi (by simpa [Option.isSome_iff_ne_none] using ask)
  simp only [exec_tlbinvPodTimeout, execTlbinvPodTimeout, hfind]
  rw [if_pos ⟨late, hother⟩, Nat.mod_eq_of_lt hpkg]

end

/-- A TLBINV ended: its queues are delivered, it is marked with how it ended, and its thread goes on (R42). -/
theorem endInval_drained {s : State} {i : Inval} (hi : i ∈ s.xl.inv) (failed : Option Nat) :
    let t := endInval (drainAll s) i failed
    t.ms.wtq = [] ∧ (s.ms.wtq = [] → t.ms = s.ms) ∧ t.xl.tlb = s.xl.tlb ∧ { i with done := true, failed := failed } ∈ t.xl.inv ∧
      (WaitsIn s i.tid (.tlbinv i.id) → t.th = { s.th with run := .running }) := by
  obtain ⟨m, hm, hwtq⟩ := drainAll_form s
  refine ⟨?_, fun hidle => ?_, ?_, ?_, fun hwait => ?_⟩
  · rw [hm]
    exact hwtq
  · rw [drainAll_idle hidle]
    rfl
  · rw [hm]
    rfl
  · rw [hm]
    exact List.mem_map.mpr ⟨i, hi, if_pos rfl⟩
  · rw [hm]
    exact wake_waiting (s := { s with ms := m, xl := _ }) hwait (beq_self_eq_true _)

/-! Key slots. -/

/-- A slot flushed: memory alone changes, with no first-level data left and no instruction line under the slot (R34, R71, R74). -/
theorem flushSlot_form (s : State) (slot : Nat) : ∃ m, flushSlot s slot = { s with ms := m } ∧ m.l1d = [] ∧ m.gath = [] ∧
    ∀ l ∈ m.l1i, ∀ k, l.key = some k → k.slot ≠ slot := by
  unfold flushSlot
  dsimp only
  generalize hs1 : List.foldl drainCore s _ = s1
  obtain ⟨m, hm, _⟩ := drainCores_form _ s
  rw [hm] at hs1
  subst hs1
  refine ⟨_, rfl, rfl, rfl, fun l hl k hk => ?_⟩
  have := (List.mem_filter.mp hl).2
  simpa [hk] using this

/-- A key slot loaded: its request is served, its caches are flushed, and it holds a new generation of the part's key (R34). -/
theorem keySlotLoad_next {s : State} {slot part : Nat} (hreq : s.pf.keyReqs.contains (.loadKey slot part) = true) (hslot : slot < 2048) (hpart : part < 16) :
    ∃ m, exec (.keySlotLoad slot part) s = .next { serveKeyReq s (.loadKey slot part) with
        ms := m, xl := { s.xl with keys := assoc s.xl.keys slot ⟨part, s.xl.keyGen + 1⟩, keyGen := s.xl.keyGen + 1 } } ∧
      m.l1d = [] ∧ m.gath = [] ∧ ∀ l ∈ m.l1i, ∀ k, l.key = some k → k.slot ≠ slot := by
  obtain ⟨m, hm, hflushed⟩ := flushSlot_form (serveKeyReq s (.loadKey slot part)) slot
  refine ⟨m, ?_, hflushed⟩
  rw [exec_keySlotLoad, execKeySlotLoad, if_neg (by rw [hreq]; simp [hslot, hpart]), hm]
  rfl

/-- A key slot unloaded: its request is served, its caches are flushed, and it holds no key (R34). -/
theorem keySlotUnload_next {s : State} {slot : Nat} (hreq : s.pf.keyReqs.contains (.unloadKey slot) = true) :
    ∃ m, exec (.keySlotUnload slot) s = .next { serveKeyReq s (.unloadKey slot) with ms := m, xl := { s.xl with keys := unassoc s.xl.keys slot } } ∧
      m.l1d = [] ∧ m.gath = [] ∧ ∀ l ∈ m.l1i, ∀ k, l.key = some k → k.slot ≠ slot := by
  obtain ⟨m, hm, hflushed⟩ := flushSlot_form (serveKeyReq s (.unloadKey slot)) slot
  refine ⟨m, ?_, hflushed⟩
  rw [exec_keySlotUnload, execKeySlotUnload, if_neg (by rw [hreq]; simp), hm]
  rfl

end Sys2Proof.Machine

open Sys2Proof Sys2Proof.Machine Sys2Proof.Claims

/-- Settles O41: one event after another, each by what it does to the queues, the records and the slots. -/
theorem translationEvents : Obligations.TranslationEvents := by
  intro s die n pkg slot part ctx dword v
  refine ⟨fun q hq => ⟨missQueueServe_busy, fun free => ?_⟩, ?_, fun i hi => ?_, fun hno => ?_, fun hreq hslot hpart => ?_, fun hreq => ?_⟩
  · have hmem : q ∈ s.xl.missQ := List.mem_of_find?_eq_some hq
    refine ⟨_, missQueueServe_next hq free, ?_⟩
    by_cases hcmd : q.cmd = none
    · rw [if_neg (by simp [hcmd])]
      exact ⟨rfl, giveWalker_served hmem, fun _ => giveWalker_others, fun _ hwait => wake_waiting (s := giveWalker s q) hwait rfl, fun h => absurd hcmd h⟩
    · rw [if_pos (Option.isSome_iff_ne_none.mpr hcmd)]
      exact ⟨rfl, giveWalker_served hmem, fun _ => giveWalker_others, fun h => absurd h hcmd, fun _ => rfl⟩
  · intro old r clash
    have hput : old.put dword.toNat v = r := ctxRec_put old dword v
    refine ⟨contextWrite s ctx.toNat dword.toNat v, rfl, ⟨rfl, rfl, fun _ _ _ => rfl⟩, fun h => ?_, fun h => ?_, fun c hc => ?_, rfl⟩
    · rw [contextWrite_ctxRec, if_pos rfl, hput, if_pos ((jobidClash_iff s _ r).mpr h)]
    · rw [contextWrite_ctxRec, if_pos rfl, hput, if_neg (mt (jobidClash_iff s _ r).mp h)]
    · rw [contextWrite_ctxRec, if_neg hc]
  · obtain rfl := inval_id hi
    have hmem : i ∈ s.xl.inv := List.mem_of_find?_eq_some hi
    refine ⟨⟨_, tlbinvComplete_next hi, endInval_drained hmem none⟩, fun ask => ⟨tlbinvPodTimeout_early hi ask, fun late hother hpkg => ?_⟩⟩
    obtain ⟨hwtq, -, htlb, hinv, hth⟩ := endInval_drained hmem (some pkg)
    exact ⟨_, tlbinvPodTimeout_late hi ask late hother hpkg, hwtq, htlb, hinv, hth⟩
  · rw [exec_keySlotLoad, execKeySlotLoad, if_pos (by rw [hno]; rfl)]
  · obtain ⟨m, hexec, hflushed⟩ := keySlotLoad_next hreq hslot hpart
    exact ⟨_, hexec, rfl, rfl, (look_assoc _ _ _ _).trans (if_pos rfl), rfl, fun k hk => (look_assoc _ _ _ _).trans (if_neg hk), hflushed⟩
  · obtain ⟨m, hexec, hflushed⟩ := keySlotUnload_next hreq
    exact ⟨_, hexec, rfl, rfl, (look_unassoc _ _ _).trans (if_pos rfl), fun k hk => (look_unassoc _ _ _).trans (if_neg hk), hflushed⟩
end

