-- ==== Sys2Proof/Proofs/Written.lean ====
section
/-! Bytes written at a physical address, piece by piece, as their writer's key reads them. -/

namespace Sys2Proof.Machine

/-! The order of writes, which no reader sees. -/

/-- Memory with another order of the writes of its bytes, and other release sides: every byte is as it was. -/
def Reordered (m n : MemSys) : Prop := ∃ track next carriers, n = { m with track := track, trackNext := next, carriers := carriers }

theorem Reordered.refl (m : MemSys) : Reordered m m := ⟨m.track, m.trackNext, m.carriers, rfl⟩

theorem Reordered.trans {m n o : MemSys} (h : Reordered m n) (g : Reordered n o) : Reordered m o := by
  obtain ⟨_, _, _, rfl⟩ := h
  obtain ⟨_, _, _, rfl⟩ := g
  exact ⟨_, _, _, rfl⟩

theorem Reordered.foldl {α : Type} {f : MemSys → α → MemSys} (h : ∀ m x, Reordered m (f m x)) : ∀ (l : List α) (m : MemSys), Reordered m (l.foldl f m)
  | [], m => .refl m
  | x :: l, m => (h m x).trans (Reordered.foldl h l (f m x))

/-- A reordering moves no byte. -/
theorem Reordered.moves {m n : MemSys} (h : Reordered m n) : Moves m n := by
  obtain ⟨_, _, _, rfl⟩ := h
  exact ⟨id, fun _ _ => rfl, rfl, rfl, rfl, rfl, rfl, rfl, rfl, rfl, rfl⟩

theorem addWrite_reordered (m : MemSys) (w : ByteWrite) (after : Nat → List Nat) (cs : Cells) : Reordered m (addWrite m w after cs) := by
  unfold addWrite
  dsimp only
  split
  · exact .refl m
  · exact ⟨_, _, _, rfl⟩

theorem addCarrier_reordered (m : MemSys) (c : Carrier) : Reordered m (addCarrier m c) := by
  unfold addCarrier
  split
  · exact .refl m
  · exact ⟨_, _, _, rfl⟩

theorem plainWrite_reordered (m : MemSys) (by_ : RmwBy) (know : List Nat) (early : Bool) (prov : Option Nat) (now : Nat → Nat) (cs : Cells) :
    Reordered m (plainWrite m by_ know early prov now cs) := by
  unfold plainWrite
  dsimp only
  refine Reordered.trans ?_ (Reordered.foldl (fun m c => addCarrier_reordered m _) _ _)
  split
  · exact .refl m
  · exact addWrite_reordered m _ _ _

theorem engineTrack_reordered (m : MemSys) (by_ : RmwBy) (know : List Nat) (prov : Option Nat) (now : Nat → Nat) (cs : Cells) :
    Reordered m (engineTrack m by_ know prov now cs) := by
  unfold engineTrack
  split
  · exact .refl m
  · exact addWrite_reordered m _ _ _

theorem releaseTrack_reordered (m : MemSys) (by_ : RmwBy) (prov : Option Nat) (at_ : SyncAt) : Reordered m (releaseTrack m by_ prov at_) := by
  unfold releaseTrack
  split
  · exact .refl m
  · exact addCarrier_reordered m _

theorem learn_reordered (m : MemSys) (t : Tid) (ids : List Nat) : Reordered m (learn m t ids) := by
  unfold learn
  split
  · exact .refl m
  · exact ⟨_, _, _, rfl⟩

theorem hearRead_reordered (m : MemSys) (by_ : RmwBy) (acquire : Bool) (cs : Cells) : Reordered m (hearRead m by_ acquire cs) := by
  have hhear : ∀ (n : MemSys) t p, Reordered n (hear n t p) := fun n t p => ⟨_, _, _, rfl⟩
  unfold hearRead
  refine Reordered.trans ?_ (hhear _ _ _)
  split
  · exact learn_reordered _ _ _
  · exact .refl _

theorem readTrack_reordered (m : MemSys) (by_ : RmwBy) (acquire : Bool) (now : Nat → Nat) (cs : Cells) : Reordered m (readTrack m by_ acquire now cs) := by
  unfold readTrack
  split
  · exact .refl m
  · refine Reordered.trans ?_ (hearRead_reordered _ _ _ _)
    exact ⟨_, _, _, rfl⟩

/-! A range written. -/

/-- Some bytes written from an address on under a key: the range reads as written, and every other byte as before. -/
structure Writes (m : MemSys) (key : Option KeyTag) (pa : Nat) (bs : List Byte) (n : MemSys) : Prop where
  wf : Memory.wf n = true
  byte : ∀ a, commByte n key a = if pa ≤ a ∧ a < pa + bs.length then bs.getD (a - pa) 0 else commByte m key a

theorem Writes.nil {m : MemSys} {key : Option KeyTag} {pa : Nat} (w : Memory.wf m = true) : Writes m key pa [] m :=
  ⟨w, fun a => by rw [List.length_nil, if_neg (by omega)]⟩

/-- One range written after another that it follows. -/
theorem Writes.append {m n o : MemSys} {key : Option KeyTag} {pa : Nat} {bs cs : List Byte} (h : Writes m key pa bs n) (g : Writes n key (pa + bs.length) cs o) :
    Writes m key pa (bs ++ cs) o := by
  refine ⟨g.wf, fun a => ?_⟩
  rw [g.byte, h.byte, List.length_append]
  by_cases hcs : pa + bs.length ≤ a ∧ a < pa + bs.length + cs.length
  · rw [if_pos hcs, if_pos (by omega), List.getD_eq_getElem?_getD, List.getD_eq_getElem?_getD, List.getElem?_append_right (by omega), Nat.sub_sub]
  · rw [if_neg hcs]
    by_cases hbs : pa ≤ a ∧ a < pa + bs.length
    · rw [if_pos hbs, if_pos (by omega), List.getD_eq_getElem?_getD, List.getD_eq_getElem?_getD, List.getElem?_append_left (by omega)]
    · rw [if_neg hbs, if_neg (by omega)]

/-- A write between movements that change no byte. -/
theorem Writes.between {m m' n n' : MemSys} {key : Option KeyTag} {pa : Nat} {bs : List Byte} (w : Memory.wf m = true) (before : Moves m m')
    (h : Writes m' key pa bs n) (after : Moves n n') : Writes m key pa bs n' :=
  ⟨after.wf h.wf, fun a => by rw [after.comm h.wf, h.byte, before.comm w]⟩

theorem homeWrite_writes {m : MemSys} (key : Option KeyTag) (pa : Nat) (bs : List Byte) (w : Memory.wf m = true) :
    Writes m key pa bs (homeWrite m key (cellsAt pa bs)) := ⟨homeWrite_wf w, fun _ => homeWrite_comm w⟩

theorem homeWriteWhole_writes {m : MemSys} (key : Option KeyTag) (pa : Nat) (bs : List Byte) (w : Memory.wf m = true) :
    Writes m key pa bs (homeWriteWhole m key (cellsAt pa bs)) :=
  (homeWrite_writes key pa bs w).between w (.refl m) (Moves.foldl (fun m l => setFlag_moves m _ l _) _ _)

theorem commitCells_writes {m : MemSys} (die : Nat) (key : Option KeyTag) (pa : Nat) (bs : List Byte) (whole : Bool) (w : Memory.wf m = true) :
    Writes m key pa bs (commitCells m die key (cellsAt pa bs) whole) := by
  have h : Writes m key pa bs (commWrite m die key (cellsAt pa bs)) := ⟨commWrite_wf w, fun _ => commWrite_comm w⟩
  unfold commitCells
  dsimp only
  split
  · exact h.between w (.refl m) (Moves.foldl (fun m l => setFlag_moves m _ l _) _ _)
  · exact h

/-! The LLC (R77, R132). -/

/-- What the LLC does to its lines leaves the L2's bytes. -/
theorem llcTouch_l2d (m : MemSys) (line : Nat) : (llcTouch m line).l2d = m.l2d := by
  have hevict : ∀ (l : List Nat) (n : MemSys), (l.foldl llcEvict n).l2d = n.l2d := by
    intro l
    induction l with
    | nil => intro n; rfl
    | cons x l ih => intro n; exact (ih (llcEvict n x)).trans (llcClean_masks n x).1
  unfold llcTouch
  split
  · rfl
  · split
    · rfl
    · exact hevict _ _

theorem llcRead_l2d (m : MemSys) (line : Nat) : (llcRead m line).l2d = m.l2d := by
  unfold llcRead
  split <;> exact llcTouch_l2d m line

/-- After the home has invalidated a line's copies, no L2 holds a byte of it. -/
theorem homeInval_masks (m : MemSys) {line a : Nat} (ha : lineOf a = line) : maskGet (homeInval m line).l2d a = none := by
  show maskGet (llcRead (writeBackL2 m line) line).l2d a = none
  rw [llcRead_l2d, writeBackL2, moveL2_l2d]
  exact cellsDrop_line _ ha

/-- One byte of region 00 written at the home into the LLC reads as written under the writer's key, and every other as before (R34, R77). -/
theorem llcWrite_one {m : MemSys} {key : Option KeyTag} {a : Nat} {b : Byte} (w : Memory.wf m = true) (hr : regionOf a = 0) (a' : Nat) :
    commByte (llcWrite m key [(a, b)]) key a' = if a' = a then b else commByte m key a' := by
  have mv := homeInval_moves m (lineOf a)
  let I : MemSys → Prop := fun n => Memory.wf n = true ∧ ∀ z, lineOf z = lineOf a → maskGet n.l2d z = none
  have hput : ∀ n x y, I n → blockOf x = blockOf a → I (putLlc n x y) ∧ (putLlc n x y).lineKey = n.lineKey ∧
      ∀ x', heldByte (putLlc n x y) x' = if x' = x then y else heldByte n x' := by
    intro n x y hn hx
    have hline : lineOf x = lineOf a := by simp only [blockOf] at hx; simp only [lineOf]; omega
    have hreg : regionOf x = 0 := by
      rw [← hr]
      simp only [blockOf] at hx
      simp only [regionOf, bitsAt]
      omega
    refine ⟨⟨putLlc_wf hreg hn.1, hn.2⟩, rfl, fun x' => ?_⟩
    by_cases he : x' = x
    · subst he
      simp [heldByte, putLlc, maskGet_put, hn.2 x' hline]
    · simp [heldByte, putLlc, maskGet_put, he]
  have hstart : I (homeInval m (lineOf a)) := ⟨mv.wf w, fun z hz => homeInval_masks m hz⟩
  obtain ⟨hkeyed, hsame, hkey⟩ := rekeyBlock_comm (key := key) (block := blockOf a) I (fun l h => ⟨h.1, h.2⟩) hput hstart
  obtain ⟨_, hlineKey, hheld⟩ := hput _ a b hkeyed rfl
  rw [← mv.comm w key a', ← hsame a']
  exact put_comm hlineKey hkey hheld a'

theorem llcWrite_writes (key : Option KeyTag) : ∀ (bs : List Byte) {m : MemSys} {pa : Nat}, Memory.wf m = true → (∀ k < bs.length, regionOf (pa + k) = 0) →
    Writes m key pa bs (llcWrite m key (cellsAt pa bs)) := by
  intro bs
  induction bs with
  | nil => intro m pa w _; exact .nil w
  | cons b bs ih =>
    intro m pa w hr
    have h0 : regionOf pa = 0 := hr 0 (by simp)
    have hone : Writes m key pa [b] (llcWrite m key [(pa, b)]) := by
      refine ⟨llcWrite_wf (fun c hc => by rw [List.mem_singleton.mp hc]; exact h0) w, fun a => ?_⟩
      rw [llcWrite_one w h0, List.length_singleton]
      by_cases he : a = pa
      · rw [if_pos he, if_pos (by omega), he, Nat.sub_self]
        rfl
      · rw [if_neg he, if_neg (by omega)]
    refine hone.append (ih hone.wf fun k hk => ?_)
    rw [List.length_singleton, Nat.add_assoc]
    exact hr (1 + k) (by simp; omega)

/-! Pieces within lines. -/

/-- The pieces within lines of a run of bytes, with fuel for all of them, written at the home are the run written. -/
theorem homePieces_writes (key : Option KeyTag) : ∀ (f : Nat) {m : MemSys} {pa : Nat} {bs : List Byte}, Memory.wf m = true →
    (bs.length ≠ 0 → pa % 128 + bs.length ≤ 128 * f) → Writes m key pa bs (homePieces m key (rowLines f pa bs.length) bs) := by
  have hempty : ∀ {m : MemSys} {pa : Nat} {bs : List Byte}, Memory.wf m = true → bs.length = 0 → Writes m key pa bs m := fun w h => by
    rw [List.length_eq_zero_iff.mp h]
    exact .nil w
  intro f
  induction f with
  | zero => exact fun w hf => hempty w (by omega)
  | succ f ih =>
    intro m pa bs w hf
    rw [rowLines]
    split
    · exact hempty w ‹_›
    · rename_i h0
      have hfuel := hf h0
      generalize hn : min bs.length (128 - pa % 128) = n
      have hlen : (bs.take n).length = n := by rw [List.length_take]; omega
      rw [homePieces]
      generalize hm' : (if n = 128 then homeWriteWhole m key (cellsAt pa (bs.take n)) else homeWrite m key (cellsAt pa (bs.take n))) = m'
      have hpiece : Writes m key pa (bs.take n) m' := by
        rw [← hm']
        split
        · exact homeWriteWhole_writes key pa _ w
        · exact homeWrite_writes key pa _ w
      have hrest := ih (m := m') (pa := pa + n) (bs := bs.drop n) hpiece.wf (by rw [List.length_drop]; omega)
      rw [List.length_drop] at hrest
      have := hpiece.append (by rw [hlen]; exact hrest)
      rwa [List.take_append_drop] at this

/-- The little-endian bytes of a number. -/
theorem leBytes_getD : ∀ (n v k : Nat), k < n → (leBytes n v).getD k 0 = BitVec.ofNat 8 (v / 2 ^ (8 * k))
  | 0, _, _, h => absurd h (Nat.not_lt_zero _)
  | n + 1, v, 0, _ => by simp [leBytes]
  | n + 1, v, k + 1, h => by
    rw [leBytes, List.getD_cons_succ, leBytes_getD n _ k (by omega), Nat.div_div_eq_div_mul, show 8 * (k + 1) = 8 + 8 * k by omega, Nat.pow_add]

end Sys2Proof.Machine
end

