-- ==== Sys2Proof/Proofs/SoundReads.lean ====
section
/-! Reads of memory in which no error waits and no copy is poisoned (R87, R88). -/

namespace Sys2Proof.Machine

open Sys2Proof.Claims

/-! Errors. -/

/-- With no error in memory, an access finds none. -/
theorem eccTouch_sound {s : State} (h : s.ms.ecc = []) (die : Option Nat) (line : Nat) : eccTouch s die line = s := by
  have hat : ∀ held l, eccAt s held l = s := fun held l => by simp [eccAt, h]
  simp [eccTouch, h, hat]

theorem eccTouches_sound {s : State} (h : s.ms.ecc = []) (die : Option Nat) (lines : List Nat) : lines.foldl (fun s l => eccTouch s die l) s = s := by
  induction lines with
  | nil => rfl
  | cons l lines ih => rw [List.foldl_cons, eccTouch_sound h, ih]

/-! Poison. -/

theorem flagged_sound {m : MemSys} (h : m.poison = []) (held : Held) (line : Nat) : flagged m held line = false := by simp [flagged, h]

/-- Poison cleared where there is none. -/
theorem setFlag_sound {m : MemSys} {held : Held} {line : Nat} {bad : Bool} (h : m.poison = []) (hbad : bad = false) : (setFlag m held line bad).poison = [] := by
  simp [setFlag, h, hbad]

/-- Memory with no poison has none after movements that add none. -/
theorem foldl_sound {α : Type} {f : MemSys → α → MemSys} (h : ∀ m x, m.poison = [] → (f m x).poison = []) : ∀ (l : List α) {m : MemSys}, m.poison = [] →
    (l.foldl f m).poison = []
  | [], _, hm => hm
  | x :: l, m, hm => foldl_sound h l (h m x hm)

theorem llcClean_sound {m : MemSys} {line : Nat} (h : m.poison = []) : (llcClean m line).poison = [] := by
  unfold llcClean
  split
  · exact h
  · exact setFlag_sound h (flagged_sound h _ _)

theorem llcTouch_sound {m : MemSys} {line : Nat} (h : m.poison = []) : (llcTouch m line).poison = [] := by
  unfold llcTouch
  split
  · exact h
  · split
    · exact h
    · exact foldl_sound (f := llcEvict) (fun n x hn => setFlag_sound (llcClean_sound hn) rfl) _ h

theorem llcRead_sound {m : MemSys} {line : Nat} (h : m.poison = []) : (llcRead m line).poison = [] := by
  unfold llcRead
  split
  · exact llcTouch_sound h
  · exact setFlag_sound (llcTouch_sound h) (flagged_sound h _ _)

theorem moveL2_poison (m : MemSys) (line : Nat) : (moveL2 m line).poison = m.poison := by unfold moveL2; dsimp only; split <;> rfl

theorem writeBackL2_sound {m : MemSys} {line : Nat} (h : m.poison = []) : (writeBackL2 m line).poison = [] := by
  rw [writeBackL2, moveL2_poison]
  split
  · exact h
  · dsimp only
    split
    · exact setFlag_sound (llcTouch_sound h) (flagged_sound h _ _)
    · exact setFlag_sound h (flagged_sound h _ _)

theorem homeServe_sound {m : MemSys} {line : Nat} (h : m.poison = []) : (homeServe m line).poison = [] := llcRead_sound (writeBackL2_sound h)

/-- A line served at its home changes no byte (R77, R132). -/
theorem homeServe_moves (m : MemSys) (line : Nat) : Moves m (homeServe m line) := ((writeBackL2_moves m line).trans (llcRead_moves _ line)).trans (.l2 _ _)

/-! Ranges. -/

/-- The bytes of a range in a view. -/
theorem viewBytes_eq_map (m : MemSys) (view : Option Nat) (key : Option KeyTag) : ∀ (n pa : Nat),
    viewBytes m view key pa n = (List.range n).map fun k => viewByte m view key (pa + k)
  | 0, _ => rfl
  | n + 1, pa => by
    rw [viewBytes, viewBytes_eq_map m view key n, List.range_succ_eq_map, List.map_cons, List.map_map]
    refine congrArg _ (List.map_congr_left fun k _ => ?_)
    show viewByte m view key (pa + 1 + k) = viewByte m view key (pa + (k + 1))
    rw [Nat.add_right_comm, Nat.add_assoc]

/-- With no poison, no byte of a range is poisoned. -/
theorem poisonedAt_sound {s : State} (h : s.ms.poison = []) (die : Option Nat) (view : Option Nat) (pa n : Nat) : poisonedAt s die view pa n = none := by
  simp [poisonedAt, isPoisoned, flagged_sound h]

/-- A range read in sound memory gives its bytes and changes nothing. -/
theorem readRange_sound {s : State} (hecc : s.ms.ecc = []) (hpoison : s.ms.poison = []) (die : Option Nat) (view : Option Nat) (x : Xlated) (n : Nat) :
    readRange s die view x n = (.ok (viewBytes s.ms view x.key x.pa n), s) := by
  simp only [readRange, eccTouches_sound hecc, poisonedAt_sound hpoison]

end Sys2Proof.Machine
end

