-- ==== Sys2Proof/Proofs/OnePage.lean ====
section
/-! Accesses that lie in one page: what a translation in one part says of their addresses (R23, R44). -/

namespace Sys2Proof.Machine

/-- A leaf that is passed gives the address that it was asked for. -/
theorem checkLeaf_pa {s : State} {part : Nat} {l : Leaf} {k : Access} {pa : Nat} {x : Xlated} (h : checkLeaf s part l k pa = .ok x) : x.pa = pa := by
  unfold checkLeaf at h
  split at h
  · cases h
  · split at h
    · cases h
    · split at h
      · cases h
      · split at h
        · cases h
        · split at h
          · cases h
          · cases h
            rfl

/-- A physical address is a frame's and the offset in a page of some size. -/
def InFrame (va pa : Nat) : Prop := ∃ frame bits, pa = frame * 4096 + va % 2 ^ bits

theorem tlbHit_frame {s : State} {at_ : TlbAt} {ctx : Nat} {k : Access} {va : Nat} {e : TlbEntry} {x : Xlated} (h : tlbHit s at_ ctx k va = some (e, x)) :
    InFrame va x.pa := by
  unfold tlbHit at h
  dsimp only at h
  split at h
  · cases h
  · split at h
    · cases h
    · split at h
      · rename_i hx
        cases h
        exact ⟨_, _, checkLeaf_pa hx⟩
      · cases h

theorem walk_frame {s s1 : State} {w : Walker} {k : Access} {va : Nat} {x : Xlated} (h : walk s w k va = (.ok x, s1)) : InFrame va x.pa := by
  unfold walk at h
  dsimp only at h
  split at h
  · cases h
  · split at h
    · cases h
    · split at h
      · cases h
      · split at h
        · cases h
        · rename_i hx
          cases h
          exact ⟨_, _, checkLeaf_pa hx⟩

/-- A local address translated keeps its offset in its page (R23). -/
theorem translateLocal_frame {s s1 : State} {w : Walker} {k : Access} {va : Nat} {x : Xlated} (h : translateLocal s w k va = (.ok x, s1)) : InFrame va x.pa := by
  unfold translateLocal at h
  split at h
  · rename_i hfirst
    cases h
    obtain ⟨_, _, hhit⟩ := Option.bind_eq_some_iff.mp hfirst
    exact tlbHit_frame hhit
  · split at h
    · rename_i hsecond
      cases h
      obtain ⟨_, _, hhit⟩ := Option.bind_eq_some_iff.mp hsecond
      exact tlbHit_frame hhit
    · exact walk_frame h

/-- Bytes within a page of 4 KiB by their virtual address are so by their physical one. -/
theorem InFrame.fits {va pa n : Nat} (h : InFrame va pa) (hn : va % 4096 + n ≤ 4096) : pa % 4096 + n ≤ 4096 := by
  obtain ⟨frame, bits, rfl⟩ := h
  suffices hle : va % 2 ^ bits % 4096 ≤ va % 4096 by omega
  rcases Nat.le_total 12 bits with hb | hb
  · exact Nat.le_of_eq (Nat.mod_mod_of_dvd va (Nat.pow_dvd_pow 2 hb : 2 ^ 12 ∣ 2 ^ bits))
  · calc va % 2 ^ bits % 4096 ≤ va % 2 ^ bits := Nat.mod_le _ _
      _ = va % 4096 % 2 ^ bits := (Nat.mod_mod_of_dvd va (Nat.pow_dvd_pow 2 hb : 2 ^ bits ∣ 2 ^ 12)).symm
      _ ≤ va % 4096 := Nat.mod_le _ _

/-- The bytes of a page lie in one region (R18). -/
theorem regionOf_page {pa n k : Nat} (h : pa % 4096 + n ≤ 4096) (hk : k < n) : regionOf (pa + k) = regionOf pa := by
  have hpage : (pa + k) / 2 ^ 50 = pa / 2 ^ 50 := by omega
  simp only [regionOf, bitsAt, hpage]

/-- Parts are translated after those before them. -/
theorem partsUnder_prefix {w : Walker} {k : Access} : ∀ {cuts : List (Nat × Nat)} {s s1 : State} {acc ps : List Part}, partsUnder s w k cuts acc = (.ok ps, s1) →
    ∃ qs, ps = acc.reverse ++ qs := by
  intro cuts
  induction cuts with
  | nil =>
    intro s s1 acc ps h
    cases h
    exact ⟨[], (List.append_nil _).symm⟩
  | cons c cuts ih =>
    have hstep : ∀ {s s1 : State} {acc ps : List Part} {p : Part}, partsUnder s w k cuts (p :: acc) = (.ok ps, s1) → ∃ qs, ps = acc.reverse ++ qs := by
      intro s s1 acc ps p h
      obtain ⟨qs, hqs⟩ := ih h
      exact ⟨p :: qs, by rw [hqs, List.reverse_cons, List.append_assoc]; rfl⟩
    intro s s1 acc ps h
    unfold partsUnder at h
    split at h
    · cases h
    · split at h
      · exact hstep h
      · cases h
    · split at h
      · cases h
      · exact hstep h

/-- An access of the device at a local address that comes to one part lies in one page, where that part is. -/
theorem partsUnder_onePage {s s1 : State} {w : Walker} {k : Access} {va n : Nat} {x : Xlated} (hva : va < 2 ^ 56)
    (h : partsUnder s w k (pageCuts (n / 4096 + 2) va n) [] = (.ok [.here x va n], s1)) : x.pa % 4096 + n ≤ 4096 := by
  have hlocal : resolveVa s k va = .ok (.localTo va) := by
    rw [resolveVa, if_pos]
    simp only [bitsAt]
    omega
  rw [pageCuts] at h
  split at h
  · rename_i hroom
    split at h
    · cases h
    · simp only [partsUnder, hlocal] at h
      split at h
      · cases h
      · rename_i ht
        cases h
        exact (translateLocal_frame ht).fits (by omega)
  · rename_i hroom
    exfalso
    simp only [partsUnder, hlocal] at h
    split at h
    · cases h
    · obtain ⟨qs, hqs⟩ := partsUnder_prefix h
      injection hqs with hhead
      injection hhead
      omega

end Sys2Proof.Machine
end

