-- ==== Sys2Proof/Proofs/PodWindow.lean ====
section
/-! Requests of other packages and the answers to this package's (R38, R132, R133). -/

namespace Sys2Proof.Machine

open Sys2Proof.Claims

/-! Requests. -/

/-- A request answered (R133). -/
def answerPod (req : PodReq) (a : PodAns) (s : State) : State := { s with pod := { s.pod with replies := s.pod.replies ++ [⟨req.src, req.id, a⟩] } }

/-- The walker of a request under a context (log 32). -/
def podWalker (ctx : Nat) (req : PodReq) : Walker := ⟨ctx, some remoteTlb, none, none, (remoteTid req.src req.tid).word⟩

/-- A request under a job that no enabled context has (R38). -/
theorem podWindowRequest_unknown {s : State} {req : PodReq} (h : (s.xl.ctxs.find? fun e => e.2.en && decide (e.2.jobid.toNat = req.jobid)) = none) :
    exec (.podWindowRequest req) s = .next (answerPod req (.fault 0x5 0 0) s) := by
  simp only [exec_podWindowRequest, execPodWindowRequest, h]
  rfl

/-- The answer of a request that makes an access, by what its translation comes to (R132). -/
def answerAccess (req : PodReq) (ctx : Nat) (r : Except (XFault × Nat) (List Part) × State) : State :=
  match r with
  | (.error (.cls c l, a), s1) => answerPod req (.fault c l (a - req.offset % 2 ^ 46)) s1
  | (.error (.poison, _), s1) => answerPod req (.poison 0) s1
  | (.ok ps, s1) => answerPod req (performRequest s1 ctx req ps).1 (performRequest s1 ctx req ps).2

/-- A request that makes an access is translated in full under its job's context, and answered (R132). -/
theorem podWindowRequest_access {s : State} {req : PodReq} {e : Nat × CtxRec} {k : Access} {n : Nat}
    (h : (s.xl.ctxs.find? fun e => e.2.en && decide (e.2.jobid.toNat = req.jobid)) = some e) (hk : requestAccess req = some (k, n)) :
    exec (.podWindowRequest req) s =
      .next (answerAccess req e.1 (partsUnder s (podWalker e.1 req) k (pageCuts (n / 4096 + 2) (req.offset % 2 ^ 46) n) [])) := by
  simp only [exec_podWindowRequest, execPodWindowRequest, h, hk]
  unfold requestAccess at hk
  split
  · rename_i hop
    rw [hop] at hk
    cases hk
  · rename_i hop
    rw [hop] at hk
    cases hk
  · rename_i hnone _ _
    cases hnone
  · rename_i hsome _ _
    cases hsome
    generalize hres : partsUnder s _ k _ [] = res
    rw [show partsUnder s (podWalker e.1 req) k (pageCuts (n / 4096 + 2) (req.offset % 2 ^ 46) n) [] = res from hres]
    obtain ⟨⟨⟨_ | _, a⟩⟩ | ps, s1⟩ := res <;> rfl

/-- A store of another package performed at its home: the range holds its bytes, and every other byte is as it was (R77, R132). -/
theorem servedWrite_here {s : State} {req : PodReq} {x : Xlated} {va n : Nat} {bs : List Byte} (wf : Memory.wf s.ms = true) (hreg : regionOf x.pa ≠ 2)
    (hpage : x.pa % 4096 + n ≤ 4096) (hn : bs.length = n) :
    ∃ m, servedWrite s req [.here x va n] bs = { s with ms := m } ∧ Writes s.ms x.key x.pa bs m := by
  subst hn
  have hnoted := (plainWrite_reordered s.ms (requestBy req) (knownTo s.ms (requestBy req).tid) false none s.dieCycle (cellsAt x.pa bs)).moves
  simp only [servedWrite, if_neg hreg, List.take_length]
  refine ⟨_, rfl, ?_⟩
  split
  · rename_i hllc
    have hzero : ∀ k < bs.length, regionOf (x.pa + k) = 0 := fun k hk => (regionOf_page hpage hk).trans hllc.2
    exact (llcWrite_writes x.key bs (hnoted.wf wf) hzero).between wf hnoted (Moves.foldl (fun m p => setFlag_moves m _ _ _) _ _)
  · exact (homePieces_writes x.key 34 (hnoted.wf wf) (by omega)).between wf hnoted (.refl _)

/-- A release that a request makes moves no byte (R101). -/
theorem servedRelease_form (s : State) (req : PodReq) (cs : Cells) : ∃ m, servedRelease s req cs = { s with ms := m } ∧ Reordered s.ms m := by
  unfold servedRelease
  split
  · exact ⟨_, rfl, releaseTrack_reordered _ _ _ _⟩
  · exact ⟨_, rfl, .refl _⟩

/-- A store of another package in one page is performed, and answered with 0. -/
theorem performRequest_store {s : State} {ctx : Nat} {req : PodReq} {x : Xlated} {va n v : Nat} (hop : req.op = .store n v) (wf : Memory.wf s.ms = true)
    (hreg : regionOf x.pa ≠ 2) (hpage : x.pa % 4096 + n ≤ 4096) :
    ∃ m, performRequest s ctx req [.here x va n] = (.value 0, { s with ms := m }) ∧ Writes s.ms x.key x.pa (leBytes n v) m := by
  obtain ⟨m, hm, hwrites⟩ := servedWrite_here (req := req) (va := va) wf hreg hpage (leBytes_length n v)
  obtain ⟨m', hm', hnoted⟩ := servedRelease_form { s with ms := m } req (partCells [.here x va n] (leBytes n v))
  refine ⟨m', ?_, hwrites.between wf (.refl _) hnoted.moves⟩
  simp only [performRequest, hop, hm, hm']

/-- A read of sound memory at its home gives the bytes of its range, and changes none (R132). -/
theorem servedBytes_here {s : State} {x : Xlated} {va n : Nat} (wf : Memory.wf s.ms = true) (hreg : regionOf x.pa ≠ 2) (hecc : s.ms.ecc = [])
    (hpoison : s.ms.poison = []) :
    ∃ m, servedBytes s [.here x va n] [] = (.ok ((List.range n).map fun k => viewByte s.ms none x.key (x.pa + k)), { s with ms := m }) ∧ Moves s.ms m := by
  have read : ∀ m, Moves s.ms m → m.poison = [] → readRange { s with ms := m } none none x n =
      (.ok ((List.range n).map fun k => viewByte s.ms none x.key (x.pa + k)), { s with ms := m }) := by
    intro m hm hpm
    rw [readRange_sound (hm.ecc.trans hecc) hpm, viewBytes_eq_map]
    simp only [hm.view wf]
  by_cases hmt : x.mt = 0
  · have hm := Moves.foldl homeServe_moves (uniq ((List.range n).map fun k => lineOf (x.pa + k))) s.ms
    have hpm := foldl_sound (f := homeServe) (fun _ _ => homeServe_sound) (uniq ((List.range n).map fun k => lineOf (x.pa + k))) hpoison
    refine ⟨_, ?_, hm⟩
    simp only [servedBytes, if_neg hreg, eccTouches_sound hecc, List.nil_append, if_pos hmt, read _ hm hpm]
  · have hread : readRange s none none x n = _ := read s.ms (.refl _) hpoison
    refine ⟨s.ms, ?_, .refl _⟩
    simp only [servedBytes, if_neg hreg, eccTouches_sound hecc, List.nil_append, if_neg hmt, hread]

/-- A load of another package from sound memory is answered with the bytes of its range, and changes none. -/
theorem performRequest_load {s : State} {ctx : Nat} {req : PodReq} {x : Xlated} {va n : Nat} (hop : req.op = .load n) (wf : Memory.wf s.ms = true)
    (hreg : regionOf x.pa ≠ 2) (hecc : s.ms.ecc = []) (hpoison : s.ms.poison = []) :
    ∃ m, performRequest s ctx req [.here x va n] = (.value (leNat ((List.range n).map fun k => viewByte s.ms none x.key (x.pa + k))), { s with ms := m }) ∧
      Moves s.ms m := by
  obtain ⟨m, hm, hmoves⟩ := servedBytes_here (va := va) (n := n) wf hreg hecc hpoison
  refine ⟨_, ?_, hmoves.trans (readTrack_reordered m (requestBy req) req.how.aq (State.dieCycle { s with ms := m })
    (partCells [.here x va n] ((List.range n).map fun k => viewByte s.ms none x.key (x.pa + k)))).moves⟩
  simp only [performRequest, hop, hm]

/-! Answers. -/

/-- The answers of a thread's requests with one of them come. -/
def answerIn (id : Nat) (ans : PodAns) (l : List PodPending) : List PodPending := l.map fun p => if p.id = id then { p with answer := some ans } else p

/-- A request of a waiting thread's instruction over with an answer: the answer is noted, and the thread goes on (R133). -/
theorem requestOver_instruction {s : State} {o : PodOut} {ans : PodAns} (hcmd : o.cmd = none) (hposted : o.posted = none) (hstrip : o.strip = false)
    (hwait : WaitsIn s o.tid (.pod o.id)) :
    let t := requestOver s o ans
    t.th.run = .running ∧ t.th.pod = answerIn o.id ans s.th.pod ∧ t.ms = s.ms ∧ t.pod.out = s.pod.out.filter fun q => decide (q.id ≠ o.id) := by
  obtain ⟨htid, hrun⟩ := hwait
  simp [requestOver, hcmd, hposted, hstrip, wake, htid, hrun, answerIn]

end Sys2Proof.Machine

open Sys2Proof Sys2Proof.Machine Sys2Proof.Claims

/-- Settles O43: a request by what its translation comes to, then the two ways in which this package's own request ends. -/
theorem podWindow : Obligations.PodWindow := by
  intro s s1 req id ans answered found
  refine ⟨fun h => ⟨_, podWindowRequest_unknown h, ⟨rfl, rfl, fun _ _ _ => rfl⟩, rfl⟩, ?_, fun h => ?_, ?_⟩
  · intro e k n hfound haccess hpod va who res
    have hexec : exec (.podWindowRequest req) s = .next (answerAccess req e.1 res) := podWindowRequest_access hfound haccess
    have hanswer : ∀ (m : MemSys) (a : PodAns), answered (answerPod req a { s1 with ms := m }) a := fun m a => by
      show s1.pod.replies ++ _ = _
      rw [hpod]
    refine ⟨fun c l a hres => ?_, fun a hres => ?_, fun x v hres hreg hop hn wf => ?_, fun x hres hreg hop hecc hpoison wf => ?_⟩
    · exact ⟨answerPod req (.fault c l (a - va)) s1, by rw [hexec, hres]; rfl, rfl, rfl, hanswer s1.ms _⟩
    · exact ⟨answerPod req (.poison 0) s1, by rw [hexec, hres]; rfl, rfl, rfl, hanswer s1.ms _⟩
    · have hpage := partsUnder_onePage (show va < 2 ^ 56 from Nat.lt_trans (Nat.mod_lt _ (by decide)) (by decide)) hres
      obtain ⟨m, hm, hwrites⟩ := performRequest_store (ctx := e.1) (va := va) hop wf hreg hpage
      refine ⟨answerPod req (.value 0) { s1 with ms := m }, ?_, rfl, hanswer m _, fun a => ?_⟩
      · rw [hexec, hres, answerAccess, hm]
      · show commByte m x.key a = _
        rw [hwrites.byte, leBytes_length]
        split
        · exact leBytes_getD _ _ _ (by omega)
        · rfl
    · obtain ⟨m, hm, hmoves⟩ := performRequest_load (ctx := e.1) (va := va) hop wf hreg hecc hpoison
      refine ⟨answerPod req _ { s1 with ms := m }, ?_, rfl, hmoves.view wf, hanswer m _⟩
      rw [hexec, hres, answerAccess, hm]
  · simp only [exec_podWindowResponse, execPodWindowResponse, exec_podWindowTimeout, execPodWindowTimeout, h, and_self]
  · intro o p ho hcmd hposted hstrip hwait hp hpid ends
    have hid : o.id = id := by simpa using List.find?_some ho
    subst hid
    have hends : ∀ a, ends (requestOver s o a) a := by
      intro a
      obtain ⟨hrun, hpods, hms, hout⟩ := requestOver_instruction (ans := a) hcmd hposted hstrip hwait
      refine ⟨hrun, ?_, hms, fun q hq => ?_⟩
      · rw [hpods]
        exact List.mem_map.mpr ⟨p, hp, if_pos hpid⟩
      · rw [hout] at hq
        simpa using (List.mem_filter.mp hq).2
    refine ⟨⟨_, ?_, hends ans⟩, fun early => ?_, fun late => ⟨_, ?_, hends _⟩⟩
    · simp only [exec_podWindowResponse, execPodWindowResponse, ho]
    · simp only [exec_podWindowTimeout, execPodWindowTimeout, ho]
      rw [if_neg (Nat.not_le.mpr early)]
    · simp only [exec_podWindowTimeout, execPodWindowTimeout, ho]
      rw [if_pos late]
end

