-- ==== Sys2Proof/Proofs/CopyRows.lean ====
section
/-! O60. The last clause of CopyRows bounds a window's columns nowhere. A row longer than the address space has pages in the pod window too, and a die
without the pod window refuses such a row before its first page is translated. -/

namespace Sys2Proof.Machine

/-- The cuts of a range that starts at a page and lies below 2^64 hold each of its pages. -/
theorem pageCuts_page : ∀ (f va n i : Nat), va % 4096 = 0 → i < f → i * 4096 < n → va + i * 4096 < 2 ^ 64 → ∃ m, (va + i * 4096, m) ∈ pageCuts f va n := by
  intro f
  induction f with
  | zero => intro va n i _ hi; omega
  | succ f ih =>
    intro va n i hva hi hn hlt
    have hroom : 4096 - va % 4096 = 4096 := by omega
    rw [pageCuts, hroom]
    cases i with
    | zero =>
      by_cases hle : n ≤ 4096
      · have h0 : n ≠ 0 := by omega
        exact ⟨n, by simp [hle, h0]⟩
      · exact ⟨4096, by simp [hle]⟩
    | succ i =>
      have hle : ¬ n ≤ 4096 := by omega
      have hbelow : va + 4096 < 2 ^ 64 := by omega
      have hat : va + (i + 1) * 4096 = va + 4096 + i * 4096 := by omega
      have hrest : i * 4096 < n - 4096 := Nat.lt_sub_of_add_lt (by omega)
      have hpage : (va + 4096) % 4096 = 0 := by rw [Nat.add_mod_right, hva]
      obtain ⟨m, hm⟩ := ih (va + 4096) (n - 4096) i hpage (Nat.lt_of_succ_lt_succ hi) hrest (hat ▸ hlt)
      exact ⟨m, by rw [if_neg hle, Nat.mod_eq_of_lt hbelow, hat]; exact List.mem_cons_of_mem _ hm⟩

/-- A row that a page of the pod window is part of is refused on a die without the pod window, whatever its other pages are. -/
theorem rowParts_of_pod_page {s : State} {c : Cmd} {a : Acc} {va n i : Nat} (hfeat : s.hasFeat c.core.die 10 = false) (hva : va % 4096 = 0)
    (hn : i * 4096 < n) (hlt : va + i * 4096 < 2 ^ 64) (hpod : bitsAt (va + i * 4096) 56 8 = 255) : ∃ v, rowParts s c a va n = .fault (heldBy (.cls 0x6 0) v) s := by
  obtain ⟨m, hm⟩ := pageCuts_page (n / 4096 + 2) va n i hva (by omega) hn hlt
  unfold rowParts
  simp only
  split
  · next p _ => exact ⟨p.1, rfl⟩
  · next hnone => exact absurd (List.find?_eq_none.mp hnone _ hm) (by simp [hpod, hfeat])

/-- A TLOAD whose row's memory is refused is refused. -/
theorem performRow_tload_fault {s : State} {c : Cmd} {w : CopyWin} {key : TileKey} {base : Nat} {k : Tile} {h : HeldFault} {s1 : State}
    (hop : c.op = .tload key base w) (ht : tileFor s c key = some k)
    (hparts : rowParts s c .load (((base : Int) + (c.prog : Int) * w.stride) % 2 ^ 64).toNat (rowBytes k.fmt w.nc) = .fault h s1) :
    performRow s c w = .fault h s1 := by
  unfold performRow
  simp only [hop, ht]
  unfold memRow
  simp only [hparts, Row.bind]

/-- A window of one row as long as the address space. -/
def endlessWin : CopyWin := ⟨1, 2 ^ 64, 0, 0⟩

/-- A tile of bytes pinned in T-die 6. -/
def endlessTile : Tile :=
  { key := ⟨.die 1 6, 240⟩, fmt := .int8, rows := 64, cols := 64, othr := 0, ostand := 65535, store := .pinned 6, part := 1, base := 0, hcore := 0
    readers := [], writer := none, queue := [], bytes := [], bad := [] }

/-- The TLOAD of the window from address 0 into the tile, in context 1. -/
def endlessLoad : Cmd :=
  { id := 0, tid := ⟨65535, 0⟩, ctx := 1, priv := false, core := ⟨6, 0, 0⟩, key := ⟨.die 1 6, 15⟩, tln := 15, seq := 1
    op := .tload ⟨.die 1 6, 240⟩ 0 endlessWin, pc := 0x10000, prog := 0, held := none, toRead := [], captured := [], poisoned := false, pod := [], row := none
    accepted := 0, orphan := none, ghosts := [], know := [] }

/-- A package after its reset, whose die 6 lacks the pod window, with the tile and the TLOAD: no context is enabled. -/
def endlessState : State :=
  { State.reset with un := { Units.reset with cmds := [endlessLoad], tiles := [endlessTile], lacks := [(6, 10)] } }

/-- Whether an access is refused because its context is not enabled: class 2 at level 4. -/
def contextRefused (r : Option (Except XFault Xlated × State)) : Bool :=
  match r with
  | some (.error (.cls 2 4), _) => true
  | _ => false

theorem contextRefused_eq {r : Option (Except XFault Xlated × State)} (h : contextRefused r = true) : ∃ s1, r = some (.error (.cls 2 4), s1) := by
  unfold contextRefused at h
  split at h
  · next s1 => exact ⟨s1, rfl⟩
  · cases h

/-- The row's first page is refused: its context is not enabled. -/
theorem endlessState_translation : ∃ s1, translateOn endlessState 6 ⟨65535, 0⟩ (some 0) (coreWalker 1 ⟨6, 0, 0⟩ ⟨65535, 0⟩) ⟨.load, false, true⟩ 0 =
    some (.error (.cls 2 4), s1) :=
  contextRefused_eq (by decide)

/-- The row is refused with class 6, for its lowest page in the pod window. -/
theorem endlessState_row : ∃ v, performRow endlessState endlessLoad endlessWin = .fault (heldBy (.cls 0x6 0) v) endlessState := by
  have hrow : rowBytes endlessTile.fmt endlessWin.nc = 2 ^ 64 := by decide
  obtain ⟨v, hv⟩ := rowParts_of_pod_page (s := endlessState) (c := endlessLoad) (a := .load) (va := 0) (n := 2 ^ 64) (i := 255 * 2 ^ 44)
    (by decide) (by decide) (by decide) (by decide) (by decide)
  refine ⟨v, performRow_tload_fault (k := endlessTile) (base := 0) rfl (by decide) ?_⟩
  rw [hrow]
  exact hv

end Sys2Proof.Machine

open Sys2Proof Sys2Proof.Machine Sys2Proof.Claims

/-- Refutes O60: its last clause says that a TLOAD whose row's first page is refused is held with that page's class and level, and bounds the row's
columns nowhere. A row of 2^64 bytes from address 0, of a context that is not enabled (class 2, level 4), has pages of the pod window too, and on a die
without the pod window the model holds the row with class 6 for the lowest of those. A window that a command can come with has at most 2,048 columns and
does not reach so far. -/
theorem not_copyRows : ¬ Obligations.CopyRows := by
  unfold Obligations.CopyRows
  intro h
  obtain ⟨s1, hx⟩ := endlessState_translation
  obtain ⟨v, hrow⟩ := endlessState_row
  obtain ⟨-, -, -, -, hclause⟩ := h endlessState 0 endlessLoad endlessWin (by decide) rfl rfl rfl rfl (by decide) (by decide)
    (by decide) (by decide) (by decide)
  have hclaim := hclause ⟨.die 1 6, 240⟩ 0 endlessTile 2 4 s1 rfl (by decide) (by decide) hx
  rw [hrow] at hclaim
  obtain ⟨hheld, -⟩ := Row.fault.inj hclaim
  have hclass : 6 = 2 := congrArg HeldFault.fclass hheld
  exact absurd hclass (by decide)
end

