-- ==== Sys2Proof/Proofs/BinaryFormats.lean ====
section
/-! The finite values of a binary format, in the form that its patterns give them, and their patterns (R165, R166). -/

namespace Sys2Proof.Machine

/-- What every format of R165 and R166 has: two exponent bits and one fraction bit, or more. -/
structure BinFmt.Sane (f : BinFmt) : Prop where
  eb : 2 ≤ f.eb
  fb : 1 ≤ f.fb

/-- The formats of R165 and R166. -/
theorem BinFmt.sane_of_mem {f : BinFmt} (h : f ∈ [fp64, fp32, fp16, bf16, e4m3, e5m2]) : f.Sane := by
  simp only [List.mem_cons, List.not_mem_nil, or_false] at h
  rcases h with rfl | rfl | rfl | rfl | rfl | rfl <;> exact ⟨by decide, by decide⟩

/-- The powers of two that the fields of a pattern have, each twice a smaller one. -/
theorem BinFmt.Sane.powers {f : BinFmt} (h : f.Sane) :
    2 ^ (f.fb + 1) = 2 * 2 ^ f.fb ∧ 2 ^ f.eb = 2 * 2 ^ (f.eb - 1) ∧ 2 ≤ 2 ^ f.fb ∧ 2 ≤ 2 ^ (f.eb - 1) := by
  obtain ⟨heb, hfb⟩ := h
  refine ⟨Nat.pow_succ', ?_, Nat.pow_le_pow_right (n := 2) (by decide) hfb, Nat.pow_le_pow_right (n := 2) (i := 1) (by decide) (by omega)⟩
  rw [← Nat.pow_succ', Nat.succ_eq_add_one, Nat.sub_add_cancel (by omega)]

/-- The weight of the significand's top bit is even. -/
theorem BinFmt.Sane.two_dvd {f : BinFmt} (h : f.Sane) : 2 ∣ 2 ^ f.fb := Nat.pow_dvd_pow (m := 1) 2 h.fb

/-- The bias and the range of a format, for omega. -/
theorem BinFmt.range (f : BinFmt) : f.bias = ((2 ^ (f.eb - 1) : Nat) : Int) - 1 ∧ f.emin = 1 - f.bias ∧
    (f.hasInf = true ∧ f.emax = f.bias ∧ f.maxSig = 2 ^ (f.fb + 1) - 1 ∨ f.hasInf = false ∧ f.emax = f.bias + 1 ∧ f.maxSig = 2 ^ (f.fb + 1) - 2) := by
  refine ⟨by rw [BinFmt.bias, Int.natCast_pow]; rfl, rfl, ?_⟩
  rw [BinFmt.emax, BinFmt.maxSig]
  cases f.hasInf
  · exact .inr ⟨rfl, rfl, rfl⟩
  · exact .inl ⟨rfl, rfl, rfl⟩

/-- A finite value m × 2^e in the form that a format's patterns give it: a significand of fb + 1 bits, its top bit set above the least exponent. -/
structure BinFmt.Canonical (f : BinFmt) (m : Nat) (e : Int) : Prop where
  low : f.emin - f.fb ≤ e
  small : m < 2 ^ (f.fb + 1)
  normal : 2 ^ f.fb ≤ m ∨ e = f.emin - f.fb
  high : e + f.fb ≤ f.emax
  top : e + f.fb = f.emax → m ≤ f.maxSig

/-- The exponent and fraction fields of a canonical value. -/
def BinFmt.magBits (f : BinFmt) (m : Nat) (e : Int) : Nat := if m < 2 ^ f.fb then m else (e + f.fb + f.bias).toNat * 2 ^ f.fb + (m - 2 ^ f.fb)

/-- A value of the least exponent with its top bit clear is canonical: a zero or a subnormal. -/
theorem BinFmt.canonical_subnormal {f : BinFmt} (sane : f.Sane) {fr : Nat} (hfr : fr < 2 ^ f.fb) : f.Canonical fr (f.emin - f.fb) := by
  obtain ⟨hfb, -, hfb2, heb2⟩ := sane.powers
  obtain ⟨hbias, hemin, hmax⟩ := f.range
  exact ⟨by omega, by omega, .inr rfl, by omega, by omega⟩

/-- What an exponent field and a fraction give is canonical, unless they are those of an infinity or of a NaN. -/
theorem BinFmt.canonical_normal {f : BinFmt} (sane : f.Sane) {ex fr : Nat} (hfr : fr < 2 ^ f.fb) (hpos : 1 ≤ ex) (hex : ex < 2 ^ f.eb)
    (hnum : ex = 2 ^ f.eb - 1 → f.hasInf = false ∧ fr ≠ 2 ^ f.fb - 1) : f.Canonical (2 ^ f.fb + fr) ((ex : Int) - f.bias - f.fb) := by
  obtain ⟨hfb, heb, hfb2, heb2⟩ := sane.powers
  obtain ⟨hbias, hemin, hmax⟩ := f.range
  have hlast : ex = 2 ^ f.eb - 1 → f.emax = f.bias + 1 ∧ f.maxSig = 2 ^ (f.fb + 1) - 2 ∧ fr ≠ 2 ^ f.fb - 1 := fun h => by
    obtain ⟨hinf, hne⟩ := hnum h
    rw [hinf] at hmax
    simpa [hne] using hmax
  exact ⟨by omega, by omega, .inl (by omega), by omega, by omega⟩

/-- The fields of a normal value. -/
theorem BinFmt.magBits_normal (f : BinFmt) (ex fr : Nat) : f.magBits (2 ^ f.fb + fr) ((ex : Int) - f.bias - f.fb) = ex * 2 ^ f.fb + fr := by
  have hexp : ((ex : Int) - f.bias - f.fb + f.fb + f.bias).toNat = ex := by omega
  rw [BinFmt.magBits, if_neg (by omega), hexp, Nat.add_sub_cancel_left]

/-- The fields of a pattern. -/
theorem BinFmt.signed_fields {f : BinFmt} (neg : Bool) {ex fr : Nat} (hex : ex < 2 ^ f.eb) (hfr : fr < 2 ^ f.fb) :
    f.signed neg (ex * 2 ^ f.fb + fr) / 2 ^ (f.eb + f.fb) % 2 = neg.toNat ∧ f.signed neg (ex * 2 ^ f.fb + fr) / 2 ^ f.fb % 2 ^ f.eb = ex ∧
      f.signed neg (ex * 2 ^ f.fb + fr) % 2 ^ f.fb = fr := by
  have hform : f.signed neg (ex * 2 ^ f.fb + fr) = fr + 2 ^ f.fb * (ex + 2 ^ f.eb * neg.toNat) := by
    cases neg <;> simp [BinFmt.signed, Nat.pow_add] <;> grind
  have hdiv : f.signed neg (ex * 2 ^ f.fb + fr) / 2 ^ f.fb = ex + 2 ^ f.eb * neg.toNat := by
    rw [hform, Nat.add_mul_div_left _ _ (Nat.two_pow_pos _), Nat.div_eq_of_lt hfr, Nat.zero_add]
  refine ⟨?_, ?_, ?_⟩
  · rw [Nat.add_comm f.eb, Nat.pow_add, ← Nat.div_div_eq_div_mul, hdiv, Nat.add_mul_div_left _ _ (Nat.two_pow_pos _), Nat.div_eq_of_lt hex]
    cases neg <;> rfl
  · rw [hdiv, Nat.add_mul_mod_self_left, Nat.mod_eq_of_lt hex]
  · rw [hform, Nat.add_mul_mod_self_left, Nat.mod_eq_of_lt hfr]

/-- A pattern of the format is made of its fields. -/
theorem BinFmt.eq_signed {f : BinFmt} {bits : Nat} (h : bits < 2 ^ f.width) :
    bits = f.signed (decide (bits / 2 ^ (f.eb + f.fb) % 2 = 1)) (bits / 2 ^ f.fb % 2 ^ f.eb * 2 ^ f.fb + bits % 2 ^ f.fb) := by
  have hsign : bits / 2 ^ (f.eb + f.fb) < 2 := by
    rw [Nat.div_lt_iff_lt_mul (Nat.two_pow_pos _), ← Nat.pow_succ']
    exact h
  have hfr := Nat.div_add_mod bits (2 ^ f.fb)
  have hex := Nat.div_add_mod (bits / 2 ^ f.fb) (2 ^ f.eb)
  rw [Nat.div_div_eq_div_mul, ← Nat.pow_add, Nat.add_comm f.fb] at hex
  generalize bits / 2 ^ (f.eb + f.fb) = sign at hex hsign
  rw [BinFmt.signed, Nat.mod_eq_of_lt hsign]
  rcases (by omega : sign = 0 ∨ sign = 1) with rfl | rfl
  · simp only [Nat.zero_ne_one, decide_false, Bool.false_eq_true, if_false]
    grind
  · simp only [decide_true, if_true, Nat.pow_add]
    grind

/-- A finite pattern's value is canonical, and the pattern is its sign and its fields. -/
theorem BinFmt.value_num {f : BinFmt} (sane : f.Sane) {bits : Nat} {n : Bool} {m : Nat} {e : Int} (h : f.value bits = .num n m e) :
    f.Canonical m e ∧ (bits < 2 ^ f.width → bits = f.signed n (f.magBits m e)) := by
  have hbits := BinFmt.eq_signed (f := f) (bits := bits)
  have hex : bits / 2 ^ f.fb % 2 ^ f.eb < 2 ^ f.eb := Nat.mod_lt _ (Nat.two_pow_pos _)
  have hfr : bits % 2 ^ f.fb < 2 ^ f.fb := Nat.mod_lt _ (Nat.two_pow_pos _)
  simp only [BinFmt.value] at h
  generalize decide (bits / 2 ^ (f.eb + f.fb) % 2 = 1) = sign at h hbits
  generalize bits / 2 ^ f.fb % 2 ^ f.eb = ex at h hbits hex
  generalize bits % 2 ^ f.fb = fr at h hbits hfr
  split at h
  · rename_i hlast
    have := sane.powers
    split at h
    · split at h <;> cases h
    · rename_i hinf
      split at h
      · cases h
      · rename_i hne
        cases h
        rw [BinFmt.magBits_normal]
        exact ⟨BinFmt.canonical_normal sane hfr (by omega) hex fun _ => ⟨by simpa using hinf, hne⟩, hbits⟩
  · rename_i hlast
    split at h
    · rename_i hzero
      cases h
      rw [hzero, Nat.zero_mul, Nat.zero_add] at hbits
      exact ⟨BinFmt.canonical_subnormal sane hfr, by rwa [BinFmt.magBits, if_pos hfr]⟩
    · cases h
      rw [BinFmt.magBits_normal]
      exact ⟨BinFmt.canonical_normal sane hfr (by omega) hex fun h => absurd h hlast, hbits⟩

/-- Only a format that has infinities gives one, and the pattern is that of the infinity. -/
theorem BinFmt.value_inf {f : BinFmt} {bits : Nat} {n : Bool} (h : f.value bits = .inf n) :
    f.hasInf = true ∧ (bits < 2 ^ f.width → bits = f.infBits n) := by
  have hbits := BinFmt.eq_signed (f := f) (bits := bits)
  simp only [BinFmt.value] at h
  generalize decide (bits / 2 ^ (f.eb + f.fb) % 2 = 1) = sign at h hbits
  split at h
  · rename_i hlast
    split at h
    · rename_i hinf
      split at h
      · rename_i hfr
        cases h
        rw [hlast, hfr, Nat.add_zero] at hbits
        exact ⟨hinf, hbits⟩
      · cases h
    · split at h <;> cases h
  · split at h <;> cases h

/-- The fraction bits of a finite pattern are the low bits of its significand. -/
theorem BinFmt.value_num_low {f : BinFmt} {bits : Nat} {n : Bool} {m : Nat} {e : Int} (h : f.value bits = .num n m e) :
    m % 2 ^ f.fb = bits % 2 ^ f.fb := by
  simp only [BinFmt.value] at h
  split at h
  · split at h
    · split at h <;> cases h
    · split at h <;> cases h
      rw [Nat.add_mod_left, Nat.mod_mod]
  · split at h <;> cases h
    · rw [Nat.mod_mod]
    · rw [Nat.add_mod_left, Nat.mod_mod]

/-- The value of a canonical value's pattern. -/
theorem BinFmt.Canonical.value {f : BinFmt} (sane : f.Sane) {m : Nat} {e : Int} (h : f.Canonical m e) (n : Bool) :
    f.value (f.signed n (f.magBits m e)) = .num n m e := by
  obtain ⟨hfb, heb, hfb2, heb2⟩ := sane.powers
  obtain ⟨hbias, hemin, hmax⟩ := f.range
  obtain ⟨low, small, normal, high, top⟩ := h
  have hsign : decide (n.toNat = 1) = n := by cases n <;> rfl
  by_cases hsub : m < 2 ^ f.fb
  · obtain ⟨hs, hx, hf⟩ := BinFmt.signed_fields (f := f) n (ex := 0) (by omega) hsub
    rw [Nat.zero_mul, Nat.zero_add] at hs hx hf
    rw [BinFmt.magBits, if_pos hsub]
    simp only [BinFmt.value, hs, hx, hf, hsign]
    rw [if_neg (by omega), if_pos trivial]
    congr
    omega
  · obtain ⟨ex, hex⟩ : ∃ ex : Nat, e = ex - f.bias - f.fb := ⟨(e + f.fb + f.bias).toNat, by omega⟩
    obtain ⟨fr, rfl⟩ : ∃ fr, m = 2 ^ f.fb + fr := ⟨m - 2 ^ f.fb, by omega⟩
    subst hex
    obtain ⟨hs, hx, hf⟩ := BinFmt.signed_fields (f := f) n (ex := ex) (fr := fr) (by omega) (by omega)
    rw [BinFmt.magBits_normal]
    simp only [BinFmt.value, hs, hx, hf, hsign]
    by_cases hlast : ex = 2 ^ f.eb - 1
    · obtain ⟨hinf, hemax, hsig⟩ : f.hasInf = false ∧ f.emax = f.bias + 1 ∧ f.maxSig = 2 ^ (f.fb + 1) - 2 := by
        rcases hmax with ⟨_, hemax, _⟩ | hmax
        · omega
        · exact hmax
      have := top (by omega)
      rw [if_pos hlast, hinf, if_neg (by decide), if_neg (by omega)]
    · rw [if_neg hlast, if_neg (by omega)]

end Sys2Proof.Machine
end

