-- ==== Sys2Proof/Proofs/Rounding.lean ====
section
/-! O24. What rounding a magnitude to a multiple of a power of two gives, and what rounding a value to a format gives (R174, R175). Magnitudes are
compared as whole numbers, in units of a power of two below them. -/

namespace Sys2Proof.Machine

/-! Bit lengths and powers. -/

/-- A number lies between the powers of two at its bit length. -/
theorem bitLen_bounds {m : Nat} (hm : m ≠ 0) : ∃ k, bitLen m = k + 1 ∧ 2 ^ k ≤ m ∧ m < 2 ^ (k + 1) :=
  ⟨m.log2, if_neg hm, Nat.log2_self_le hm, Nat.lt_log2_self⟩

/-- The bit length of a number between two powers of two. -/
theorem bitLen_eq {m k : Nat} (hlow : 2 ^ k ≤ m) (hhigh : m < 2 ^ (k + 1)) : bitLen m = k + 1 := by
  have hm : m ≠ 0 := by have := Nat.two_pow_pos k; omega
  rw [bitLen, if_neg hm, (Nat.log2_eq_iff hm).mpr ⟨hlow, hhigh⟩]

/-- The bit length of a number below a power of two. -/
theorem bitLen_le {m k : Nat} (h : m < 2 ^ k) : bitLen m ≤ k := by
  unfold bitLen
  split
  · exact Nat.zero_le _
  · rename_i hm
    exact (Nat.log2_lt hm).mpr h

/-- A power of two with k added to its exponent. -/
theorem two_pow_toNat_add {a b : Int} (k : Nat) (ha : 0 ≤ a) (h : b = a + k) : 2 ^ b.toNat = 2 ^ k * 2 ^ a.toNat := by
  rw [← Nat.pow_add]
  congr 1
  omega

/-! Rounding a magnitude. -/

/-- How roundMag chooses, with the magnitude and its quantum in units of 2^u: the lower multiple, or where it rounds away, the next. -/
theorem roundMag_split (r : Rounding) (neg : Bool) (m : Nat) {e q u : Int} (he : u ≤ e) (hq : u ≤ q) : ∃ lo rem d k,
    0 < k ∧ rem < 2 ^ d ∧ 2 ^ (q - u).toNat = 2 ^ d * k ∧ m * 2 ^ (e - u).toNat = lo * 2 ^ (q - u).toNat + rem * k ∧
    (roundMag r neg m e q).1 = if rem = 0 then lo else if roundsAway r neg lo rem d then lo + 1 else lo := by
  unfold roundMag
  split
  · rename_i hqe
    refine ⟨m * 2 ^ (e - q).toNat, 0, 0, 2 ^ (q - u).toNat, Nat.two_pow_pos _, Nat.one_pos, by simp, ?_, by simp⟩
    rw [two_pow_toNat_add (a := q - u) (e - q).toNat (by omega) (by omega), Nat.zero_mul, Nat.add_zero, Nat.mul_assoc]
  · refine ⟨m / 2 ^ (q - e).toNat, m % 2 ^ (q - e).toNat, (q - e).toNat, 2 ^ (e - u).toNat, Nat.two_pow_pos _,
      Nat.mod_lt _ (Nat.two_pow_pos _), ?_, ?_, ?_⟩
    · exact two_pow_toNat_add (q - e).toNat (by omega) (by omega)
    · rw [two_pow_toNat_add (a := e - u) (b := q - u) (q - e).toNat (by omega) (by omega), ← Nat.mul_assoc, ← Nat.add_mul, Nat.mul_comm (m / _),
        Nat.div_add_mod]
    · simp only
      split
      · rfl
      · split <;> rfl

/-- A rounded magnitude is less than one quantum away. -/
theorem roundMag_within (r : Rounding) (neg : Bool) (m : Nat) {e q u : Int} (he : u ≤ e) (hq : u ≤ q) :
    m * 2 ^ (e - u).toNat < (roundMag r neg m e q).1 * 2 ^ (q - u).toNat + 2 ^ (q - u).toNat ∧
    (roundMag r neg m e q).1 * 2 ^ (q - u).toNat < m * 2 ^ (e - u).toNat + 2 ^ (q - u).toNat := by
  obtain ⟨lo, rem, d, k, hk, hrem, hquantum, hmag, hsig⟩ := roundMag_split r neg m he hq
  have hlt : rem * k < 2 ^ d * k := Nat.mul_lt_mul_of_pos_right hrem hk
  have hpos : 0 < 2 ^ (q - u).toNat := Nat.two_pow_pos _
  rw [hmag, hsig]
  split
  · simp_all
  · rename_i hne
    have hlow : 0 < rem * k := Nat.mul_pos (Nat.pos_of_ne_zero hne) hk
    split
    · rw [Nat.add_mul]; omega
    · omega

/-! Rounding to a format. -/

/-- The exponent of the last place of a value rounded to a format (R174). -/
def BinFmt.quantum (f : BinFmt) (m : Nat) (e : Int) : Int := max (e + bitLen m - 1) f.emin - f.fb

/-- Where a value lies among the quanta that it is rounded to. -/
theorem BinFmt.quantum_bounds {f : BinFmt} {m : Nat} {e u : Int} (hm : m ≠ 0) (he : u ≤ e) (hq : u ≤ f.quantum m e) :
    f.emin - f.fb ≤ f.quantum m e ∧ m * 2 ^ (e - u).toNat < 2 ^ (f.fb + 1) * 2 ^ (f.quantum m e - u).toNat ∧
    (2 ^ f.fb * 2 ^ (f.quantum m e - u).toNat ≤ m * 2 ^ (e - u).toNat ∨ f.quantum m e = f.emin - f.fb) := by
  obtain ⟨k, hlen, hlow, hhigh⟩ := bitLen_bounds hm
  have hdef : f.quantum m e = max (e + k) f.emin - f.fb := by rw [BinFmt.quantum, hlen]; congr 2; omega
  generalize f.quantum m e = q at hdef hq
  refine ⟨by omega, ?_, ?_⟩
  · calc m * 2 ^ (e - u).toNat < 2 ^ (k + 1) * 2 ^ (e - u).toNat := Nat.mul_lt_mul_of_pos_right hhigh (Nat.two_pow_pos _)
      _ = 2 ^ (k + 1 + (e - u).toNat) := (Nat.pow_add ..).symm
      _ ≤ 2 ^ (f.fb + 1 + (q - u).toNat) := Nat.pow_le_pow_right (by decide) (by omega)
      _ = 2 ^ (f.fb + 1) * 2 ^ (q - u).toNat := Nat.pow_add ..
  · by_cases hsub : e + k < f.emin
    · exact .inr (by omega)
    · left
      calc 2 ^ f.fb * 2 ^ (q - u).toNat = 2 ^ (f.fb + (q - u).toNat) := (Nat.pow_add ..).symm
        _ = 2 ^ (k + (e - u).toNat) := by congr 1; omega
        _ = 2 ^ k * 2 ^ (e - u).toNat := Nat.pow_add ..
        _ ≤ m * 2 ^ (e - u).toNat := Nat.mul_le_mul_right _ hlow

/-- A rounded significand has at most fb + 1 bits, or is the next power of two, and has its top bit set above the least exponent. -/
theorem BinFmt.sig_bounds (f : BinFmt) (r : Rounding) (neg : Bool) {m : Nat} (e : Int) (hm : m ≠ 0) :
    (roundMag r neg m e (f.quantum m e)).1 ≤ 2 ^ (f.fb + 1) ∧
    (2 ^ f.fb ≤ (roundMag r neg m e (f.quantum m e)).1 ∨ f.quantum m e = f.emin - f.fb) := by
  obtain ⟨u, he, hq⟩ : ∃ u, u ≤ e ∧ u ≤ f.quantum m e := ⟨min e (f.quantum m e), by omega, by omega⟩
  obtain ⟨hlow, hhigh⟩ := roundMag_within r neg m he hq
  obtain ⟨-, hsmall, hnormal⟩ := BinFmt.quantum_bounds hm he hq
  generalize (roundMag r neg m e (f.quantum m e)).1 = sig at hlow hhigh
  rw [← Nat.succ_mul] at hlow
  refine ⟨Nat.le_of_lt_succ (Nat.lt_of_mul_lt_mul_right (a := 2 ^ (f.quantum m e - u).toNat) ?_), hnormal.imp_left fun h => ?_⟩
  · rw [Nat.succ_mul]
    omega
  · exact Nat.le_of_lt_succ (Nat.lt_of_mul_lt_mul_right (Nat.lt_of_le_of_lt h hlow))

/-! What a rounded significand comes to. -/

/-- A rounded value lies above the largest finite one (R175). -/
def BinFmt.Above (f : BinFmt) (sig : Nat) (q : Int) : Prop :=
  sig ≠ 0 ∧ (f.emax < q + bitLen sig - 1 ∨ (q + bitLen sig - 1 = f.emax ∧ f.maxSig < sig ∧ bitLen sig = f.fb + 1))

/-- What follows from it: the significand has its top bit set, and is at least the largest one with as many quanta or more. -/
structure BinFmt.PastMax (f : BinFmt) (sig : Nat) (q : Int) : Prop where
  normal : 2 ^ f.fb ≤ sig
  high : f.emax - f.fb ≤ q
  top : q = f.emax - f.fb → f.maxSig ≤ sig

/-- The rounded value as its format holds it: the significand itself, or the next power of two carried. -/
def BinFmt.Holds (f : BinFmt) (sig : Nat) (q : Int) (m : Nat) (e : Int) : Prop :=
  m = sig ∧ e = q ∨ sig = 2 ^ (f.fb + 1) ∧ m = 2 ^ f.fb ∧ e = q + 1

/-- A canonical value is not above. -/
theorem BinFmt.Canonical.not_above {f : BinFmt} (sane : f.Sane) {sig : Nat} {q : Int} (h : f.Canonical sig q) : ¬f.Above sig q := by
  obtain ⟨-, -, hfb2, heb2⟩ := sane.powers
  obtain ⟨hbias, hemin, hmax⟩ := f.range
  obtain ⟨low, small, normal, high, top⟩ := h
  rintro ⟨-, habove⟩
  have := bitLen_le small
  by_cases hsub : 2 ^ f.fb ≤ sig
  · rw [bitLen_eq hsub small] at habove
    omega
  · have := bitLen_le (Nat.lt_of_not_le hsub)
    omega

/-- Nor is a significand that carries to a canonical value. -/
theorem BinFmt.Canonical.carry_not_above {f : BinFmt} {q : Int} (h : f.Canonical (2 ^ f.fb) (q + 1)) : ¬f.Above (2 ^ (f.fb + 1)) q := by
  obtain ⟨low, small, normal, high, top⟩ := h
  rintro ⟨-, habove⟩
  rw [bitLen_eq (Nat.le_refl _) (Nat.pow_lt_pow_succ (by decide))] at habove
  omega

/-- A rounded significand is canonical, or carries to a canonical value, or is above. -/
theorem BinFmt.canonical_or_above {f : BinFmt} (sane : f.Sane) {sig : Nat} {q : Int} (hsig : sig ≤ 2 ^ (f.fb + 1)) (hlow : f.emin - f.fb ≤ q)
    (hnormal : 2 ^ f.fb ≤ sig ∨ q = f.emin - f.fb) :
    f.Canonical sig q ∨ (sig = 2 ^ (f.fb + 1) ∧ f.Canonical (2 ^ f.fb) (q + 1)) ∨
    (f.Above sig q ∧ f.PastMax sig q) := by
  obtain ⟨hfb, -, hfb2, heb2⟩ := sane.powers
  obtain ⟨hbias, hemin, hmax⟩ := f.range
  by_cases hcarry : sig = 2 ^ (f.fb + 1)
  · have hlen : bitLen sig = f.fb + 1 + 1 := bitLen_eq (by omega) (by rw [Nat.pow_succ]; omega)
    by_cases hhigh : q + 1 + f.fb ≤ f.emax
    · exact .inr (.inl ⟨hcarry, by omega, by omega, .inl (Nat.le_refl _), hhigh, by omega⟩)
    · exact .inr (.inr ⟨⟨by omega, .inl (by omega)⟩, ⟨by omega, by omega, by omega⟩⟩)
  · by_cases hhigh : q + f.fb ≤ f.emax ∧ (q + f.fb = f.emax → sig ≤ f.maxSig)
    · exact .inl ⟨hlow, by omega, hnormal, hhigh.1, hhigh.2⟩
    · have hnorm : 2 ^ f.fb ≤ sig := by omega
      have hlen : bitLen sig = f.fb + 1 := bitLen_eq hnorm (by omega)
      exact .inr (.inr ⟨⟨by omega, by omega⟩, ⟨hnorm, by omega, by omega⟩⟩)

/-! The largest finite value, the infinities and the NaN of an overflow. -/

/-- The largest finite value is canonical. -/
theorem BinFmt.canonical_max {f : BinFmt} (sane : f.Sane) : f.Canonical f.maxSig (f.emax - f.fb) := by
  obtain ⟨hfb, -, hfb2, heb2⟩ := sane.powers
  obtain ⟨hbias, hemin, hmax⟩ := f.range
  exact ⟨by omega, by omega, .inl (by omega), by omega, fun _ => Nat.le_refl _⟩

/-- Its pattern. -/
theorem BinFmt.maxBits_eq {f : BinFmt} (sane : f.Sane) (neg : Bool) : f.maxBits neg = f.signed neg (f.magBits f.maxSig (f.emax - f.fb)) := by
  obtain ⟨hfb, heb, hfb2, heb2⟩ := sane.powers
  obtain ⟨hbias, hemin, hmax⟩ := f.range
  have htop : 4 * 2 ^ f.fb ≤ 2 ^ f.eb * 2 ^ f.fb := Nat.mul_le_mul_right _ (by omega)
  have hsig : ¬f.maxSig < 2 ^ f.fb := by omega
  rw [BinFmt.maxBits, BinFmt.magBits, if_neg hsig]
  congr 1
  rcases hmax with ⟨hinf, hemax, hsig⟩ | ⟨hinf, hemax, hsig⟩
  · have hexp : (f.emax - f.fb + f.fb + f.bias).toNat = 2 ^ f.eb - 2 := by omega
    rw [hexp, hsig, if_pos hinf, Nat.sub_mul, Nat.sub_mul]
    omega
  · have hexp : (f.emax - f.fb + f.fb + f.bias).toNat = 2 ^ f.eb - 1 := by omega
    rw [hexp, hsig, hinf, if_neg Bool.false_ne_true, Nat.sub_mul, Nat.pow_add]
    omega

/-- The value of the largest finite pattern. -/
theorem BinFmt.value_maxBits {f : BinFmt} (sane : f.Sane) (neg : Bool) : f.value (f.maxBits neg) = .num neg f.maxSig (f.emax - f.fb) := by
  rw [BinFmt.maxBits_eq sane, (BinFmt.canonical_max sane).value sane]

/-- The pattern of an infinity is one, in a format that has them. -/
theorem BinFmt.value_infBits {f : BinFmt} (hinf : f.hasInf = true) (neg : Bool) : f.value (f.infBits neg) = .inf neg := by
  have hpos := Nat.two_pow_pos f.eb
  obtain ⟨hs, hx, hf⟩ := BinFmt.signed_fields (f := f) neg (ex := 2 ^ f.eb - 1) (fr := 0) (by omega) (Nat.two_pow_pos _)
  rw [Nat.add_zero] at hs hx hf
  simp only [BinFmt.infBits, BinFmt.value, hs, hx, hf, hinf, if_true]
  cases neg <;> rfl

/-- The canonical NaN of a format without infinities is a NaN. -/
theorem BinFmt.value_canonicalNan {f : BinFmt} (hinf : f.hasInf = false) : f.value f.canonicalNan = .nan false := by
  have hpos := Nat.two_pow_pos f.eb
  have hpos' := Nat.two_pow_pos f.fb
  obtain ⟨hs, hx, hf⟩ := BinFmt.signed_fields (f := f) false (ex := 2 ^ f.eb - 1) (fr := 2 ^ f.fb - 1) (by omega) (by omega)
  have hnan : f.canonicalNan = f.signed false ((2 ^ f.eb - 1) * 2 ^ f.fb + (2 ^ f.fb - 1)) := by
    have htop : 2 ^ f.fb ≤ 2 ^ f.eb * 2 ^ f.fb := Nat.le_mul_of_pos_left _ hpos
    rw [BinFmt.canonicalNan, BinFmt.signed, hinf, if_neg Bool.false_ne_true, if_neg Bool.false_ne_true, Nat.sub_mul, Nat.pow_add]
    omega
  rw [hnan]
  simp only [BinFmt.value, hx, hf, hinf, if_true, Bool.false_eq_true, if_false]

/-! Rounding a value. -/

/-- What an overflow leaves (R175). -/
def BinFmt.overflowBits (f : BinFmt) (r : Rounding) (neg away : Bool) : Nat :=
  if overflowFinite r neg away then f.maxBits neg else if f.hasInf then f.infBits neg else f.canonicalNan

section
variable {f : BinFmt} (sane : f.Sane) (r : Rounding) (neg : Bool) {m : Nat} {e : Int} (hm : m ≠ 0) {sig : Nat} {inexact away : Bool}
  (hround : roundMag r neg m e (f.quantum m e) = (sig, inexact, away))
include hm hround

/-- A value that rounds above the largest finite one. -/
theorem roundTo_above (h : f.Above sig (f.quantum m e)) : (roundTo f r (.num neg m e)).1 = f.overflowBits r neg away := by
  unfold BinFmt.Above at h
  unfold BinFmt.quantum at hround h
  simp only [roundTo, if_neg hm, hround]
  rw [if_pos h]
  rfl

/-- A value that rounds to the next power of two. -/
theorem roundTo_carry (hsig : sig = 2 ^ (f.fb + 1)) (h : f.Canonical (2 ^ f.fb) (f.quantum m e + 1)) :
    (roundTo f r (.num neg m e)).1 = f.signed neg (f.magBits (2 ^ f.fb) (f.quantum m e + 1)) := by
  have hnot := hsig ▸ h.carry_not_above
  have hlen : bitLen sig = f.fb + 1 + 1 := bitLen_eq (Nat.le_of_eq hsig.symm) (hsig ▸ Nat.pow_lt_pow_succ (by decide))
  have hlt : ¬sig < 2 ^ f.fb := by rw [hsig, Nat.pow_succ]; omega
  rw [BinFmt.magBits, if_neg (Nat.lt_irrefl _), Nat.sub_self, Nat.add_zero]
  unfold BinFmt.Above at hnot
  unfold BinFmt.quantum at hround hnot
  simp only [roundTo, if_neg hm, hround, if_neg hnot, if_neg hlt, if_pos hlen]
  rfl

include sane

/-- A value that rounds to a canonical one. -/
theorem roundTo_canonical (h : f.Canonical sig (f.quantum m e)) :
    ∃ tiny, roundTo f r (.num neg m e) = (f.signed neg (f.magBits sig (f.quantum m e)), flagIf inexact flagNX ||| flagIf (inexact && tiny) flagUF) := by
  have hnot := h.not_above sane
  have hlen : ¬bitLen sig = f.fb + 2 := by have := bitLen_le h.small; omega
  unfold BinFmt.Above at hnot
  unfold BinFmt.quantum at hround hnot
  simp only [roundTo, if_neg hm, hround, if_neg hnot, if_neg hlen]
  exact ⟨_, rfl⟩

end

/-- What a finite result is: the rounded value, or the largest finite value where the value rounds above it. -/
theorem roundTo_num {f : BinFmt} (sane : f.Sane) {r : Rounding} {neg n inexact away : Bool} {m sig : Nat} {e : Int} (hm : m ≠ 0)
    (hround : roundMag r neg m e (f.quantum m e) = (sig, inexact, away)) {m' : Nat} {e' : Int} (h : f.value (roundTo f r (.num neg m e)).1 = .num n m' e') :
    n = neg ∧ (f.Holds sig (f.quantum m e) m' e' ∨
      (overflowFinite r neg away = true ∧ m' = f.maxSig ∧ e' = f.emax - f.fb ∧ f.PastMax sig (f.quantum m e))) := by
  obtain ⟨hle, hnormal⟩ := f.sig_bounds r neg e hm
  rw [hround] at hle hnormal
  obtain ⟨hlow, -, -⟩ := BinFmt.quantum_bounds (f := f) (u := min e (f.quantum m e)) (e := e) hm (by omega) (by omega)
  rcases BinFmt.canonical_or_above sane hle hlow hnormal with hcan | ⟨hcarry, hcan⟩ | ⟨habove, htop⟩
  · obtain ⟨tiny, hbits⟩ := roundTo_canonical sane r neg hm hround hcan
    rw [hbits, hcan.value sane] at h
    cases h
    exact ⟨rfl, .inl (.inl ⟨rfl, rfl⟩)⟩
  · rw [roundTo_carry r neg hm hround hcarry hcan, hcan.value sane] at h
    cases h
    exact ⟨rfl, .inl (.inr ⟨hcarry, rfl, rfl⟩)⟩
  · rw [roundTo_above r neg hm hround habove, BinFmt.overflowBits] at h
    split at h
    · rename_i hfinite
      rw [BinFmt.value_maxBits sane] at h
      cases h
      exact ⟨rfl, .inr ⟨hfinite, rfl, rfl, htop⟩⟩
    · split at h
      · rename_i hinf
        rw [BinFmt.value_infBits hinf] at h
        cases h
      · rename_i hinf
        rw [BinFmt.value_canonicalNan (by simpa using hinf)] at h
        cases h

/-- A canonical value rounds to itself, exactly. -/
theorem BinFmt.Canonical.roundTo_self {f : BinFmt} (sane : f.Sane) {m : Nat} {e : Int} (h : f.Canonical m e) (r : Rounding) (neg : Bool) :
    roundTo f r (.num neg m e) = (f.signed neg (f.magBits m e), 0) := by
  by_cases hm : m = 0
  · rw [hm, BinFmt.magBits, if_pos (Nat.two_pow_pos _)]
    rfl
  · obtain ⟨k, hlen, hklow, hkhigh⟩ := bitLen_bounds hm
    have hk : k < f.fb + 1 := (Nat.pow_lt_pow_iff_right (by decide)).mp (Nat.lt_of_le_of_lt hklow h.small)
    have hnormal : f.fb ≤ k ∨ e = f.emin - f.fb := h.normal.imp_left fun hn =>
      Nat.le_of_lt_succ ((Nat.pow_lt_pow_iff_right (by decide)).mp (Nat.lt_of_le_of_lt hn hkhigh))
    have hlow := h.low
    have hq : f.quantum m e = e := by rw [BinFmt.quantum, hlen]; omega
    have hround : roundMag r neg m e (f.quantum m e) = (m, false, false) := by rw [hq, roundMag, if_pos (Int.le_refl _)]; simp
    obtain ⟨tiny, hbits⟩ := roundTo_canonical sane r neg hm hround (hq.symm ▸ h)
    rw [hbits, hq]
    simp [flagIf]

end Sys2Proof.Machine

open Sys2Proof Sys2Proof.Machine Sys2Proof.Claims

/-- Settles O24: an infinity by the format's own, a finite value as its canonical form rounds to itself. -/
theorem representableExact : Obligations.RepresentableExact := by
  intro f hf r bits hbits hnan
  have sane := BinFmt.sane_of_mem hf
  cases hv : f.value bits with
  | nan s => rw [hv] at hnan; cases hnan
  | inf neg =>
    obtain ⟨hinf, hpat⟩ := BinFmt.value_inf hv
    rw [roundTo, if_pos hinf, ← hpat hbits]
  | num neg m e =>
    obtain ⟨hcan, hpat⟩ := BinFmt.value_num sane hv
    rw [hcan.roundTo_self sane, ← hpat hbits]
end

