-- ==== Sys2Proof/Proofs/NearestValue.lean ====
section
/-! O25. The rounded value is the nearest of the format's, or lies on the mode's side (R171, R174). -/

namespace Sys2Proof.Machine

/-! The multiple that a mode takes. -/

section
variable (r : Rounding) (neg : Bool) (m : Nat) {e q u : Int} (he : u ≤ e) (hq : u ≤ q)
include he hq

/-- A mode that does not round away gives a magnitude not above. -/
theorem roundMag_le (hmode : ∀ lo rem d, roundsAway r neg lo rem d = false) :
    (roundMag r neg m e q).1 * 2 ^ (q - u).toNat ≤ m * 2 ^ (e - u).toNat := by
  obtain ⟨lo, rem, d, k, hk, hrem, hquantum, hmag, hsig⟩ := roundMag_split r neg m he hq
  rw [hmag, hsig, hmode, if_neg Bool.false_ne_true, ite_self]
  exact Nat.le_add_right _ _

/-- A mode that rounds away gives a magnitude not below. -/
theorem le_roundMag (hmode : ∀ lo rem d, roundsAway r neg lo rem d = true) :
    m * 2 ^ (e - u).toNat ≤ (roundMag r neg m e q).1 * 2 ^ (q - u).toNat := by
  obtain ⟨lo, rem, d, k, hk, hrem, hquantum, hmag, hsig⟩ := roundMag_split r neg m he hq
  have hlt : rem * k < 2 ^ d * k := Nat.mul_lt_mul_of_pos_right hrem hk
  rw [hmag, hsig, hmode, if_pos rfl]
  split
  · simp_all
  · rw [Nat.add_mul]; omega

end

/-- sig quanta are as near to a magnitude as a multiple of the quantum can be, the even one of two. -/
structure Nearest (x quantum sig : Nat) : Prop where
  le : 2 * x ≤ 2 * (sig * quantum) + quantum
  ge : 2 * (sig * quantum) ≤ 2 * x + quantum
  tie : 2 * x = 2 * (sig * quantum) + quantum ∨ 2 * (sig * quantum) = 2 * x + quantum → sig % 2 = 0

/-- RNE gives the nearest multiple. -/
theorem roundMag_nearest {r : Rounding} (hmode : r.mode = .rne) (neg : Bool) (m : Nat) {e q u : Int} (he : u ≤ e) (hq : u ≤ q) :
    Nearest (m * 2 ^ (e - u).toNat) (2 ^ (q - u).toNat) (roundMag r neg m e q).1 := by
  obtain ⟨lo, rem, d, k, hk, hrem, hquantum, hmag, hsig⟩ := roundMag_split r neg m he hq
  have haway : roundsAway r neg lo rem d = (decide (2 ^ d < 2 * rem) || (decide (2 ^ d = 2 * rem) && decide (lo % 2 = 1))) := by rw [roundsAway, hmode]
  have hlt : rem * k < 2 ^ d * k := Nat.mul_lt_mul_of_pos_right hrem hk
  rw [hmag, hsig, hquantum]
  rcases Nat.lt_trichotomy (2 * rem) (2 ^ d) with hhalf | hhalf | hhalf
  · have hk2 : 2 * (rem * k) < 2 ^ d * k := by rw [← Nat.mul_assoc]; exact Nat.mul_lt_mul_of_pos_right hhalf hk
    have hlow : roundsAway r neg lo rem d = false := by rw [haway]; simp; omega
    rw [hlow, if_neg Bool.false_ne_true, ite_self]
    exact ⟨by omega, by omega, by omega⟩
  · have hk2 : 2 * (rem * k) = 2 ^ d * k := by rw [← Nat.mul_assoc, hhalf]
    have hpos := Nat.two_pow_pos d
    have hodd : roundsAway r neg lo rem d = decide (lo % 2 = 1) := by rw [haway]; simp [hhalf]
    rw [if_neg (by omega), hodd]
    by_cases hlo : lo % 2 = 1
    · rw [if_pos (by simpa using hlo)]
      exact ⟨by rw [Nat.add_mul]; omega, by rw [Nat.add_mul]; omega, by omega⟩
    · rw [if_neg (by simpa using hlo)]
      exact ⟨by omega, by omega, by omega⟩
  · have hk2 : 2 ^ d * k < 2 * (rem * k) := by rw [← Nat.mul_assoc]; exact Nat.mul_lt_mul_of_pos_right hhalf hk
    have hhigh : roundsAway r neg lo rem d = true := by rw [haway]; simp [hhalf]
    rw [if_neg (by omega), if_pos hhigh]
    exact ⟨by rw [Nat.add_mul]; omega, by rw [Nat.add_mul]; omega, by rw [Nat.add_mul]; omega⟩

/-- No multiple of the quantum is nearer, and of two as near the even one is taken. -/
theorem Nearest.multiple {x quantum sig : Nat} (h : Nearest x quantum sig) (k : Int) :
    ((x : Int) - (sig * quantum : Nat)).natAbs ≤ ((x : Int) - k * quantum).natAbs ∧
    (((x : Int) - (sig * quantum : Nat)).natAbs = ((x : Int) - k * quantum).natAbs → k * quantum ≠ (sig * quantum : Nat) → sig % 2 = 0) := by
  obtain ⟨le, ge, tie⟩ := h
  rcases Int.lt_trichotomy k sig with hlt | rfl | hlt
  · have hk : (k + 1) * quantum ≤ (sig : Int) * quantum := Int.mul_le_mul_of_nonneg_right (by omega) (by omega)
    rw [Int.add_mul, ← Int.natCast_mul] at hk
    omega
  · rw [← Int.natCast_mul]
    exact ⟨Nat.le_refl _, fun _ hne => absurd rfl hne⟩
  · have hk : ((sig : Int) + 1) * quantum ≤ k * quantum := Int.mul_le_mul_of_nonneg_right (by omega) (by omega)
    rw [Int.add_mul, ← Int.natCast_mul] at hk
    omega

/-! Distances. -/

/-- A number with a sign. -/
def withSign (neg : Bool) (a : Nat) : Int := if neg then -(a : Int) else a

/-- Distances in units of 2^u, by the magnitudes in those units. -/
theorem claimsApart_eq (u : Int) (n1 : Bool) (m1 : Nat) (e1 : Int) (n2 : Bool) (m2 : Nat) (e2 : Int) :
    Claims.apart u n1 m1 e1 n2 m2 e2 = (withSign n1 (m1 * 2 ^ (e1 - u).toNat) - withSign n2 (m2 * 2 ^ (e2 - u).toNat)).natAbs := by
  simp only [Claims.apart, withSign, Int.natCast_mul, Int.natCast_pow]
  rfl

/-- The magnitude of a number with a sign. -/
theorem natAbs_withSign (n : Bool) (a : Nat) : (withSign n a).natAbs = a := by
  cases n <;> simp [withSign]

/-- A product with a sign. -/
theorem withSign_mul (n : Bool) (a b : Nat) : withSign n (a * b) = withSign n a * b := by
  cases n
  · exact Int.natCast_mul a b
  · exact (congrArg (- ·) (Int.natCast_mul a b)).trans (Int.neg_mul ..).symm

/-- Numbers of one sign are ordered as their magnitudes, or the other way. -/
theorem withSign_le {n : Bool} {a b : Nat} (h : if n then b ≤ a else a ≤ b) : withSign n a ≤ withSign n b := by
  cases n <;> simp [withSign] at * <;> omega

/-- A distance seen from the first value's side. -/
theorem natAbs_withSign_sub (n1 n2 : Bool) (a b : Nat) : (withSign n1 a - withSign n2 b).natAbs = ((a : Int) - withSign (n1 != n2) b).natAbs := by
  cases n1 <;> cases n2 <;> simp [withSign] <;> omega

/-- A finite value of a format is a whole number of the quanta that a value is rounded to, or it lies below 2^fb of them, and the value does not. -/
theorem BinFmt.Canonical.multiple_or_below {f : BinFmt} {m' : Nat} {e' : Int} (h : f.Canonical m' e') {m : Nat} {e u : Int} (hm : m ≠ 0) (he : u ≤ e)
    (hq : u ≤ f.quantum m e) (he' : u ≤ e') : (∃ k, m' * 2 ^ (e' - u).toNat = k * 2 ^ (f.quantum m e - u).toNat) ∨
    (m' * 2 ^ (e' - u).toNat < 2 ^ f.fb * 2 ^ (f.quantum m e - u).toNat ∧ 2 ^ f.fb * 2 ^ (f.quantum m e - u).toNat ≤ m * 2 ^ (e - u).toNat) := by
  obtain ⟨-, -, hnormal⟩ := BinFmt.quantum_bounds hm he hq
  generalize f.quantum m e = q at hq hnormal
  by_cases hle : q ≤ e'
  · left
    refine ⟨m' * 2 ^ (e' - q).toNat, ?_⟩
    rw [Nat.mul_assoc, two_pow_toNat_add (a := q - u) (e' - q).toNat (by omega) (by omega)]
  · have hlow := h.low
    have hbelow : 2 ^ (f.fb + 1) * 2 ^ (e' - u).toNat ≤ 2 ^ f.fb * 2 ^ (q - u).toNat := by
      rw [← Nat.pow_add, ← Nat.pow_add]
      exact Nat.pow_le_pow_right (by decide) (by omega)
    exact .inr ⟨Nat.lt_of_lt_of_le (Nat.mul_lt_mul_of_pos_right h.small (Nat.two_pow_pos _)) hbelow, hnormal.resolve_right (by omega)⟩

/-- Nothing that is a whole number of quanta, or lies below one that the value does not, is nearer than the nearest multiple. -/
theorem Nearest.le_apart {x quantum sig p y : Nat} (h : Nearest x quantum sig) (hy : (∃ k, y = k * quantum) ∨ (y < p * quantum ∧ p * quantum ≤ x))
    (n : Bool) :
    ((x : Int) - (sig * quantum : Nat)).natAbs ≤ ((x : Int) - withSign n y).natAbs ∧
    (((x : Int) - (sig * quantum : Nat)).natAbs = ((x : Int) - withSign n y).natAbs → withSign n y ≠ (sig * quantum : Nat) → sig % 2 = 0) := by
  rcases hy with ⟨k, rfl⟩ | ⟨hlt, hle⟩
  · rw [withSign_mul]
    exact h.multiple _
  · obtain ⟨hnear, -⟩ := h.multiple p
    rw [← Int.natCast_mul] at hnear
    have hsign : withSign n y ≤ y := by unfold withSign; split <;> omega
    omega

/-! Rounded values in units of 2^u. -/

/-- A significand that carries to the next power of two was rounded. -/
theorem BinFmt.lt_quantum_of_carry {f : BinFmt} {r : Rounding} {neg : Bool} {m : Nat} {e : Int} (hm : m ≠ 0)
    (h : (roundMag r neg m e (f.quantum m e)).1 = 2 ^ (f.fb + 1)) : e < f.quantum m e := by
  apply Int.lt_of_not_ge
  intro hle
  obtain ⟨-, hsmall, -⟩ := BinFmt.quantum_bounds hm hle (Int.le_refl _)
  rw [roundMag, if_pos hle] at h
  simp only at h
  rw [h, Int.sub_self] at hsmall
  simp at hsmall

/-- The magnitude of a rounded value in units of 2^u. -/
theorem BinFmt.Holds.scaled {f : BinFmt} {r : Rounding} {neg inexact away : Bool} {m sig m' : Nat} {e e' u : Int} (h : f.Holds sig (f.quantum m e) m' e')
    (hm : m ≠ 0) (hround : roundMag r neg m e (f.quantum m e) = (sig, inexact, away)) (he : u ≤ e) (he' : u ≤ e') :
    u ≤ f.quantum m e ∧ m' * 2 ^ (e' - u).toNat = sig * 2 ^ (f.quantum m e - u).toNat := by
  rcases h with ⟨rfl, rfl⟩ | ⟨hcarry, rfl, rfl⟩
  · exact ⟨he', rfl⟩
  · have hlt := BinFmt.lt_quantum_of_carry hm ((congrArg Prod.fst hround).trans hcarry)
    refine ⟨by omega, ?_⟩
    rw [two_pow_toNat_add (a := f.quantum m e - u) 1 (by omega) (by omega), ← Nat.mul_assoc, ← Nat.pow_add, hcarry]

/-- The largest finite value is not above what rounds above it. -/
theorem BinFmt.PastMax.scaled {f : BinFmt} (sane : f.Sane) {sig : Nat} {q u : Int} (h : f.PastMax sig q) (hu : u ≤ f.emax - f.fb) :
    f.maxSig * 2 ^ (f.emax - f.fb - u).toNat ≤ sig * 2 ^ (q - u).toNat := by
  obtain ⟨normal, high, top⟩ := h
  by_cases heq : q = f.emax - f.fb
  · rw [heq]
    exact Nat.mul_le_mul_right _ (top heq)
  · have hmax : f.maxSig ≤ 2 ^ (f.fb + 1) := Nat.le_of_lt (BinFmt.canonical_max sane).small
    calc f.maxSig * 2 ^ (f.emax - f.fb - u).toNat ≤ 2 ^ (f.fb + 1) * 2 ^ (f.emax - f.fb - u).toNat := Nat.mul_le_mul_right _ hmax
      _ = 2 ^ (f.fb + 1 + (f.emax - f.fb - u).toNat) := (Nat.pow_add ..).symm
      _ ≤ 2 ^ (f.fb + (q - u).toNat) := Nat.pow_le_pow_right (by decide) (by omega)
      _ = 2 ^ f.fb * 2 ^ (q - u).toNat := Nat.pow_add ..
      _ ≤ sig * 2 ^ (q - u).toNat := Nat.mul_le_mul_right _ normal

section
variable {f : BinFmt} (sane : f.Sane) {r : Rounding} {neg n : Bool} {m m' : Nat} {e e' u : Int} (hm : m ≠ 0)
  (hv : f.value (roundTo f r (.num neg m e)).1 = .num n m' e') (he : u ≤ e) (he' : u ≤ e')
include sane hm hv he he'

/-- Under RNE a finite result is the nearest of a format's values, and of two as near the even one (R174). -/
theorem roundTo_nearest (hmode : r.mode = .rne) (hsat : r.sat = false) {n2 : Bool} {m2 : Nat} {e2 : Int} (h2 : f.Canonical m2 e2) (he2 : u ≤ e2) :
    Claims.apart u neg m e n m' e' ≤ Claims.apart u neg m e n2 m2 e2 ∧
    (Claims.apart u neg m e n m' e' = Claims.apart u neg m e n2 m2 e2 → Claims.apart u n m' e' n2 m2 e2 ≠ 0 → m' % 2 = 0) := by
  rcases hround : roundMag r neg m e (f.quantum m e) with ⟨sig, inexact, away⟩
  obtain ⟨rfl, hfit | ⟨hfinite, -⟩⟩ := roundTo_num sane hm hround hv
  · obtain ⟨hq, hscaled⟩ := hfit.scaled hm hround he he'
    have hnearest := roundMag_nearest hmode n m he hq
    simp only [hround] at hnearest
    obtain ⟨hle, htie⟩ := hnearest.le_apart (h2.multiple_or_below hm he hq he2) (n != n2)
    have heven : sig % 2 = 0 → m' % 2 = 0 := by
      rcases hfit with ⟨rfl, -⟩ | ⟨-, rfl, -⟩
      · exact id
      · exact fun _ => Nat.mod_eq_zero_of_dvd sane.two_dvd
    have hself : withSign (n != n) (m' * 2 ^ (e' - u).toNat) = (m' * 2 ^ (e' - u).toNat : Nat) := by cases n <;> rfl
    rw [claimsApart_eq, claimsApart_eq, claimsApart_eq, natAbs_withSign_sub, natAbs_withSign_sub, natAbs_withSign_sub, hself, hscaled]
    exact ⟨hle, fun heq hne => heven (htie heq fun hsame => hne (by omega))⟩
  · rw [overflowFinite, hsat, hmode] at hfinite
    cases hfinite

/-- Under a mode that does not round away, a finite result's magnitude is not above the value's. -/
theorem roundTo_toward (hmode : ∀ lo rem d, roundsAway r neg lo rem d = false) : n = neg ∧ m' * 2 ^ (e' - u).toNat ≤ m * 2 ^ (e - u).toNat := by
  rcases hround : roundMag r neg m e (f.quantum m e) with ⟨sig, inexact, away⟩
  have hle := fun hq : u ≤ f.quantum m e => roundMag_le r neg m he hq hmode
  rw [hround] at hle
  obtain ⟨hn, hfit | ⟨-, rfl, rfl, hpast⟩⟩ := roundTo_num sane hm hround hv
  · obtain ⟨hq, hscaled⟩ := hfit.scaled hm hround he he'
    exact ⟨hn, hscaled ▸ hle hq⟩
  · exact ⟨hn, Nat.le_trans (hpast.scaled sane he') (hle (Int.le_trans he' hpast.high))⟩

/-- Under a mode that rounds away, and past the largest finite value too, it is not below. -/
theorem roundTo_outward (hmode : ∀ lo rem d, roundsAway r neg lo rem d = true) (hover : ∀ away, overflowFinite r neg away = false) :
    n = neg ∧ m * 2 ^ (e - u).toNat ≤ m' * 2 ^ (e' - u).toNat := by
  rcases hround : roundMag r neg m e (f.quantum m e) with ⟨sig, inexact, away⟩
  obtain ⟨hn, hfit | ⟨hfinite, -⟩⟩ := roundTo_num sane hm hround hv
  · obtain ⟨hq, hscaled⟩ := hfit.scaled hm hround he he'
    have hle := le_roundMag r neg m he hq hmode
    rw [hround] at hle
    exact ⟨hn, hscaled ▸ hle⟩
  · rw [hover] at hfinite
    cases hfinite

end

end Sys2Proof.Machine

open Sys2Proof Sys2Proof.Machine Sys2Proof.Claims

/-- Settles O25: under RNE by the nearest multiple of the quantum, under the directed modes by the side on which the multiple lies. -/
theorem roundsToNearest : Obligations.RoundsToNearest := by
  intro f hf mode seed idx neg mag e n1 m1 e1 hmag bits hv
  have sane := BinFmt.sane_of_mem hf
  refine ⟨fun hmode other n2 m2 e2 u hother he he1 he2 => ?_, fun u he he1 => ?_⟩
  · obtain ⟨hcan, -⟩ := BinFmt.value_num sane hother
    obtain ⟨hle, htie⟩ := roundTo_nearest sane hmag hv he he1 hmode rfl (n2 := n2) hcan he2
    have hlow := BinFmt.value_num_low hv
    have hparity : bits % 2 = m1 % 2 := by rw [← Nat.mod_mod_of_dvd bits sane.two_dvd, ← hlow, Nat.mod_mod_of_dvd m1 sane.two_dvd]
    exact ⟨hle, fun heq hne => hparity.trans (htie heq hne)⟩
  · intro x y
    have hx : x = withSign neg (mag * 2 ^ (e - u).toNat) := (withSign_mul ..).symm ▸ rfl
    have hy : y = withSign n1 (m1 * 2 ^ (e1 - u).toNat) := (withSign_mul ..).symm ▸ rfl
    rw [hx, hy]
    refine ⟨?_, ?_, ?_⟩
    · rintro rfl
      obtain ⟨rfl, hle⟩ := roundTo_toward sane hmag hv he he1 fun _ _ _ => rfl
      rwa [natAbs_withSign, natAbs_withSign]
    · rintro rfl
      cases neg
      · obtain ⟨rfl, hle⟩ := roundTo_toward sane hmag hv he he1 fun _ _ _ => rfl
        exact withSign_le hle
      · obtain ⟨rfl, hle⟩ := roundTo_outward sane hmag hv he he1 (fun _ _ _ => rfl) fun _ => rfl
        exact withSign_le hle
    · rintro rfl
      cases neg
      · obtain ⟨rfl, hle⟩ := roundTo_outward sane hmag hv he he1 (fun _ _ _ => rfl) fun _ => rfl
        exact withSign_le hle
      · obtain ⟨rfl, hle⟩ := roundTo_toward sane hmag hv he he1 fun _ _ _ => rfl
        exact withSign_le hle
end

