-- ==== Sys2Proof/Proofs/RegisterWrites.lean ====
section
/-! O1. Instructions that write one register and complete: what they keep, and what the register instructions of the base set write (R215 to R218). -/

namespace Sys2Proof.Machine

open Sys2Proof.Claims

/-- The end of an instruction keeps what its effect kept, with chain mode off. -/
theorem kept_finished {s u : State} {xs fs vs : List Reg} {srs : List SReg} (n : Nat) (plain : Plain u) (h : Kept s u xs fs vs srs) :
    Kept s (countIssue (u.advance n)) xs fs vs srs where
  x r hr := (readX_congr (by simp) (by simpa [Plain] using plain) plain r).trans (h.x r hr)
  f r hr := Eq.trans (by simp [readF]) (h.f r hr)
  v r hr := Eq.trans (by simp [readV]) (h.v r hr)
  sys r hr := (readSys_finished u n r).trans (h.sys r hr)
  groups := Eq.trans (by simp) h.groups
  bytes := h.bytes
  rest := by
    have hrest := h.rest
    generalize u.th = t at hrest
    subst hrest
    rfl

/-- x[rd] after the end of an instruction, with chain mode off. -/
theorem rx_finished {u : State} (n : Nat) (plain : Plain u) (r : Reg) : (countIssue (u.advance n)).rx r = u.rx r :=
  readX_congr (by simp) (by simpa [Plain] using plain) plain r

/-- A write of x[rd] keeps everything else, with chain mode off. -/
theorem kept_wx {s : State} (plain : Plain s) (rd : Reg) (v : Word) : Kept s (s.wx rd v) [rd] [] [] [] where
  x r hr := by
    have hne : r ≠ rd := by simpa using hr
    rw [State.rx, State.wx_th, readX_writeX _ _ _ _ plain, if_neg hne, State.rx, readX_plain plain]
    split <;> rfl
  f r _ := by simp [readF]
  v r _ := by simp [readV]
  sys r _ := readSys_wx s rd v r
  groups := by simp
  bytes _ _ _ := rfl
  rest := rfl

/-- An instruction of any class that does no more than write x[rd] and complete, with chain mode off. -/
theorem writesX_of_effect {i : Instr} {s : State} {n : Nat} {srcs : List Reg} {rd : Reg} {f : State → Word} {v : Word} (plain : Plain s)
    (h : exec i s = settle (issue .any [] srcs [rd] s fun u => finishOp n (u.wx rd (f u)))) (hv : f s = v) : WritesX i s n rd v := by
  have hplain : Plain (s.wx rd v) := by simpa [Plain] using plain
  rw [issue_any plain, finishOp_done, settle_done, hv] at h
  refine ⟨_, h, ?_, by simp [pcAfter, instrBytes], kept_finished n hplain (kept_wx plain rd v)⟩
  rw [rx_finished n hplain, State.rx, State.wx_th, readX_writeX _ _ _ _ plain, if_pos rfl]

/-! The functions of the base set. -/

/-- The word of a signed comparison. -/
theorem flagWord_slt (a b : Word) : flagWord (a.slt b) = if a.toInt < b.toInt then 1 else 0 := by
  simp [flagWord, BitVec.slt]

/-- The word of an unsigned comparison. -/
theorem flagWord_ult (a b : Word) : flagWord (a.ult b) = if a.toNat < b.toNat then 1 else 0 := by
  simp [flagWord, BitVec.ult]

/-- A 32-bit sum is the low part of the sum. -/
theorem on32_add (a b : Word) : on32 (fun x y => x + y) a b = ((a + b).truncate 32).signExtend 64 := by
  rw [on32, BitVec.truncate_eq_setWidth, BitVec.truncate_eq_setWidth, BitVec.truncate_eq_setWidth, BitVec.setWidth_add _ _ (by decide)]

/-- A 32-bit difference is the low part of the difference. -/
theorem on32_sub (a b : Word) : on32 (fun x y => x - y) a b = ((a - b).truncate 32).signExtend 64 := by
  rw [on32]
  congr 1
  apply BitVec.eq_of_toNat_eq
  simp only [BitVec.truncate_eq_setWidth, BitVec.toNat_sub, BitVec.toNat_setWidth]
  omega

/-- A 32-bit shift takes its amount modulo 32 (R184). -/
theorem low_amount (b : Word) : (b.truncate 32 : BitVec 32).toNat % 32 = b.toNat % 32 := by
  rw [BitVec.truncate_eq_setWidth, BitVec.toNat_setWidth]
  omega

end Sys2Proof.Machine

open Sys2Proof Sys2Proof.Machine Sys2Proof.Claims

/-- Settles O1: each instruction by its effect, and by what its function comes to where that is said otherwise. -/
theorem integerRegister : Obligations.IntegerRegister := by
  intro s rd rs1 rs2 imm up sh sw long plain a b c lo sx
  refine ⟨?_, writesX_of_effect plain (exec_liw s) rfl⟩
  simp only [List.forall_mem_cons]
  refine ⟨?lui, ?auipc, ?addi, ?slti, ?sltiu, ?xori, ?ori, ?andi, ?slli, ?srli, ?srai, ?add, ?sub, ?slt, ?sltu, ?xor, ?or, ?and, ?sll, ?srl, ?sra,
    ?addiw, ?addw, ?subw, ?slliw, ?srliw, ?sraiw, ?sllw, ?srlw, ?sraw, ?andn, ?rol, ?ror, ?rori, ?bext, ?bexti, fun _ h => absurd h List.not_mem_nil⟩
  case lui => exact writesX_of_effect plain (exec_lui s) rfl
  case auipc => exact writesX_of_effect plain (exec_auipc s) rfl
  case addi => exact writesX_of_effect plain (exec_addi s) rfl
  case slti => exact writesX_of_effect plain (exec_slti s) (flagWord_slt a c)
  case sltiu => exact writesX_of_effect plain (exec_sltiu s) (flagWord_ult a c)
  case xori => exact writesX_of_effect plain (exec_xori s) rfl
  case ori => exact writesX_of_effect plain (exec_ori s) rfl
  case andi => exact writesX_of_effect plain (exec_andi s) rfl
  case slli => exact writesX_of_effect plain (exec_slli s) rfl
  case srli => exact writesX_of_effect plain (exec_srli s) rfl
  case srai => exact writesX_of_effect plain (exec_srai s) rfl
  case add => exact writesX_of_effect plain (exec_add s) rfl
  case sub => exact writesX_of_effect plain (exec_sub s) rfl
  case slt => exact writesX_of_effect plain (exec_slt s) (flagWord_slt a b)
  case sltu => exact writesX_of_effect plain (exec_sltu s) (flagWord_ult a b)
  case xor => exact writesX_of_effect plain (exec_xor s) rfl
  case or => exact writesX_of_effect plain (exec_or s) rfl
  case and => exact writesX_of_effect plain (exec_and s) rfl
  case sll => exact writesX_of_effect plain (exec_sll s) rfl
  case srl => exact writesX_of_effect plain (exec_srl s) rfl
  case sra => exact writesX_of_effect plain (exec_sra s) rfl
  case addiw => exact writesX_of_effect plain (exec_addiw s) rfl
  case addw => exact writesX_of_effect plain (exec_addw s) (on32_add a b)
  case subw => exact writesX_of_effect plain (exec_subw s) (on32_sub a b)
  case slliw => exact writesX_of_effect plain (exec_slliw s) rfl
  case srliw => exact writesX_of_effect plain (exec_srliw s) rfl
  case sraiw => exact writesX_of_effect plain (exec_sraiw s) rfl
  case sllw => exact writesX_of_effect plain (exec_sllw s) (congrArg (fun k => sx (lo a <<< k)) (low_amount b))
  case srlw => exact writesX_of_effect plain (exec_srlw s) (congrArg (fun k => sx (lo a >>> k)) (low_amount b))
  case sraw => exact writesX_of_effect plain (exec_sraw s) (congrArg (fun k => sx ((lo a).sshiftRight k)) (low_amount b))
  case andn => exact writesX_of_effect plain (exec_andn s) rfl
  case rol => exact writesX_of_effect plain (exec_rol s) rfl
  case ror => exact writesX_of_effect plain (exec_ror s) rfl
  case rori => exact writesX_of_effect plain (exec_rori s) rfl
  case bext => exact writesX_of_effect plain (exec_bext s) rfl
  case bexti => exact writesX_of_effect plain (exec_bexti s) rfl
end

