-- ==== Sys2Proof/Proofs/ScalarFloat.lean ====
section
/-! O22. The FP instructions that write an f register (R171, R173, R219 to R224): their frame, the rounding in force, and each instruction's result. -/

namespace Sys2Proof.Machine

open Sys2Proof.Claims

/-! Flags and the frame. -/

/-- FFLAGS after flags accrue (R171, R173). -/
theorem accrueOp_fflags (s : State) (fl : FpFlags) : (accrueOp s.th fl).fflags = flagsAfter s fl := by
  have haccrue : (accrue s.th fl).fflags = s.th.fflags ||| fl := by
    unfold accrue
    split
    · rename_i h
      simp [h]
    · rfl
  unfold accrueOp flagsAfter suppressed
  cases s.th.pfx with
  | none => exact haccrue
  | some p =>
    show (if p.nf then s.th else accrue s.th fl).fflags = if p.nf then s.th.fflags else s.th.fflags ||| fl
    split
    · rfl
    · exact haccrue

/-- A state with flags accrued and f[rd] written. -/
def writtenF (s : State) (rd : Reg) (w : Word) (fl : FpFlags) : State := s.onTh fun t => writeF (accrueOp t fl) rd w

/-- STATUS after it: FPV is set (R141). -/
theorem writtenF_status (s : State) (rd : Reg) (w : Word) (fl : FpFlags) : (writtenF s rd w fl).th.status = { s.th.status with fpv := true } := by
  obtain ⟨flags, fpv, h⟩ := accrueOp_form s.th fl
  rw [writtenF, State.onTh_th, h]
  rfl

/-- A write of f[rd] with flags accrued keeps everything but FFLAGS and STATUS. -/
theorem kept_writtenF {s : State} (plain : Plain s) (rd : Reg) (w : Word) (fl : FpFlags) :
    Kept s (writtenF s rd w fl) [] [rd] [] [.fflags, .status] where
  x r _ := readX_congr (by simp [writtenF]) (by rw [writtenF_status]; exact plain) plain r
  f r hr := by
    have hne : r ≠ rd := by simpa using hr
    rw [writtenF, State.onTh_th, readF_writeF, if_neg hne]
    simp [readF]
  v r _ := by simp [writtenF, readV]
  sys r hr := by
    obtain ⟨flags, fpv, h⟩ := accrueOp_form s.th fl
    rw [writtenF, State.onTh_th, h]
    cases r
    case fflags => simp at hr
    case status => simp at hr
    all_goals rfl
  groups := by simp [writtenF]
  bytes _ _ _ := rfl
  rest := rfl

/-- An FP instruction that does no more than write f[rd], accrue flags and complete. -/
theorem writesF_of_effect {i : Instr} {s : State} {srcs : List Reg} {fmt : FpFmt} {rd : Reg} {e : State → Nat × FpFlags} {w : Word} {fl : FpFlags}
    (ready : FpReady s) (h : exec i s = fpIssue srcs [] s fun u => writeFp fmt rd (e u) u) (hw : fpWord fmt (e s).1 = w) (hfl : (e s).2 = fl) :
    WritesF i s rd w fl := by
  obtain ⟨plain, hclass, hfeat⟩ := ready
  have hplain : Plain (writtenF s rd w fl) := by rw [Plain, writtenF_status]; exact plain
  have hnext : exec i s = .next (countIssue ((writtenF s rd w fl).advance 4)) := by
    rw [h, fpIssue, issue_fp plain hclass hfeat, writeFp, finishOp_done, settle_done, hw, hfl]
    rfl
  refine ⟨_, hnext, ?_, ?_, ?_, ?_, kept_finished 4 hplain (kept_writtenF plain rd w fl)⟩
  · have hread : readF (writtenF s rd w fl).th rd = w := by rw [writtenF, State.onTh_th, readF_writeF, if_pos rfl]
    exact Eq.trans (by simp [readF]) hread
  · rw [← accrueOp_fflags]
    simp [writtenF]
  · rw [← writtenF_status s rd w fl]
    simp
  · simp [writtenF, pcAfter, instrBytes]

/-! Rounding in force. -/

/-- The mode in force (R171). -/
theorem effRm_eq (s : State) (rm : Rm) : effRm s.th rm = modeInForce s rm := by
  unfold effRm modeInForce
  cases s.th.pfx with
  | none => simp
  | some p =>
    by_cases hp : p.rm = .dyn <;> simp [hp]

/-- The rounding in force (R171, R176). -/
theorem roundingOf_eq (s : State) (rm : Rm) : roundingOf s.th rm false 0 = roundingInForce s rm 0 := by
  rw [roundingOf, effRm_eq, effSat, roundingInForce]
  cases s.th.pfx <;> rfl

/-- An instruction with a rounding field writes its exact result rounded once (R224). -/
theorem writesF_rounded {i : Instr} {s : State} {fmt : FpFmt} {rm : Rm} {rd : Reg} {e : Thread → Rm → Exact} {x : Exact} (ready : FpReady s)
    (h : exec i s = fpRounded fmt rm rd e s) (hx : e s.th (modeInForce s rm) = x) :
    WritesF i s rd (fpWord fmt (roundTo (binFmt fmt) (roundingInForce s rm 0) x.1).1) ((roundTo (binFmt fmt) (roundingInForce s rm 0) x.1).2 ||| x.2) := by
  subst hx
  have hround : finish (binFmt fmt) (roundingOf s.th rm false 0) (e s.th (roundingOf s.th rm false 0).mode) =
      finish (binFmt fmt) (roundingInForce s rm 0) (e s.th (modeInForce s rm)) := by rw [roundingOf_eq]; rfl
  exact writesF_of_effect ready h (by rw [hround]; rfl) (by rw [hround]; rfl)

/-! Operands and results that need no rounding. -/

/-- An operand's bits are a pattern of its format (R219). -/
theorem fpBits_lt (fmt : FpFmt) (w : Word) : fpBits fmt w < 2 ^ (binFmt fmt).width := by
  cases fmt with
  | f64 => exact w.isLt
  | f32 =>
    show (if w.toNat / 2 ^ 32 = 0xFFFFFFFF then w.toNat % 2 ^ 32 else fp32.canonicalNan) < 2 ^ 32
    split
    · exact Nat.mod_lt _ (by decide)
    · decide

/-- An operand that is no NaN rounds to its own pattern with no flag (R174). -/
theorem roundTo_operand {fmt : FpFmt} {w : Word} (h : ((binFmt fmt).value (fpBits fmt w)).isNan = false) :
    (roundTo (binFmt fmt) rne ((binFmt fmt).value (fpBits fmt w))).2 = 0 := by
  have hmem : binFmt fmt ∈ [fp64, fp32, fp16, bf16, e4m3, e5m2] := by cases fmt <;> simp [binFmt]
  rw [representableExact _ hmem rne _ (fpBits_lt fmt w) h]

/-- minimumNumber gives one of its operands, which is no NaN, or a quiet NaN (R221). -/
theorem fpMin_cases (a b : Val) : (fpMin a b).1 = .nan false ∨ (fpMin a b).1 = a ∧ a.isNan = false ∨ (fpMin a b).1 = b ∧ b.isNan = false := by
  unfold fpMin
  cases a.isNan <;> cases b.isNan <;> cases fpLessSigned b a <;> simp

/-- So does maximumNumber. -/
theorem fpMax_cases (a b : Val) : (fpMax a b).1 = .nan false ∨ (fpMax a b).1 = a ∧ a.isNan = false ∨ (fpMax a b).1 = b ∧ b.isNan = false := by
  unfold fpMax
  cases a.isNan <;> cases b.isNan <;> cases fpLessSigned a b <;> simp

/-- An instruction with no rounding field whose exact result is an operand or a quiet NaN writes it, with the result's own flags. -/
theorem writesF_exact {i : Instr} {s : State} {fmt : FpFmt} {rd rs1 rs2 : Reg} {e : Thread → Exact} {x : Exact} (ready : FpReady s)
    (h : exec i s = fpExact fmt rd e s) (hx : e s.th = x)
    (hcases : x.1 = .nan false ∨ x.1 = fpOperand s.th fmt rs1 ∧ (fpOperand s.th fmt rs1).isNan = false ∨
      x.1 = fpOperand s.th fmt rs2 ∧ (fpOperand s.th fmt rs2).isNan = false) :
    WritesF i s rd (fpWord fmt (roundTo (binFmt fmt) rne x.1).1) x.2 := by
  subst hx
  have hflags : (roundTo (binFmt fmt) rne (e s.th).1).2 = 0 := by
    rcases hcases with hnan | ⟨heq, hnan⟩ | ⟨heq, hnan⟩
    · rw [hnan]
      rfl
    · rw [heq]
      exact roundTo_operand hnan
    · rw [heq]
      exact roundTo_operand hnan
  refine writesF_of_effect ready h rfl ?_
  show (roundTo (binFmt fmt) rne (e s.th).1).2 ||| (e s.th).2 = (e s.th).2
  rw [hflags]
  simp

/-! Integers and words. -/

/-- A 32-bit number read as two's complement. -/
theorem toSigned_low (w : Word) : toSigned 32 w.toNat = ((w.truncate 32 : BitVec 32).toInt) := by
  rw [toSigned, BitVec.toInt, BitVec.truncate_eq_setWidth, BitVec.toNat_setWidth]
  split <;> split <;> omega

/-- The word of an FP32 move: the low 32 bits, boxed (R219, R221). -/
theorem fpWord_f32_low (w : Word) : fpWord .f32 w.toNat = 0xFFFFFFFF#32 ++ (w.truncate 32 : BitVec 32) := by
  apply BitVec.eq_of_toNat_eq
  have hlt : w.toNat % 2 ^ 32 < 2 ^ 32 := Nat.mod_lt _ (by decide)
  rw [fpWord, BitVec.toNat_ofNat, BitVec.toNat_append, BitVec.truncate_eq_setWidth, BitVec.toNat_setWidth, ← Nat.shiftLeft_add_eq_or_of_lt hlt,
    Nat.shiftLeft_eq]
  simp only [BitVec.toNat_ofNat]
  omega

end Sys2Proof.Machine

open Sys2Proof Sys2Proof.Machine Sys2Proof.Claims

/-- Settles O22: the rounded instructions by their exact results, minimum and maximum by their operands, and the rest by what they write. -/
theorem floatArithmetic : Obligations.FloatArithmetic := by
  intro s fmt ty rm rd rs1 rs2 rs3 ready m r v a b int
  refine ⟨?_, ?_, ?_, ?_, writesF_of_effect ready (exec_fexp2 s) rfl rfl, ?_, ?_⟩
  · simp only [List.forall_mem_cons]
    refine ⟨?fadd, ?fsub, ?fmul, ?fdiv, ?fsqrt, ?toF32, ?toF64, ?fcvtx, ?fmadd32, ?fmadd64, ?fnmadd32, ?fnmadd64, fun _ h => absurd h List.not_mem_nil⟩
    case fadd => exact writesF_rounded ready (exec_fadd s) rfl
    case fsub => exact writesF_rounded ready (exec_fsub s) rfl
    case fmul => exact writesF_rounded ready (exec_fmul s) rfl
    case fdiv => exact writesF_rounded ready (exec_fdiv s) rfl
    case fsqrt => exact writesF_rounded ready (exec_fsqrt s) rfl
    case toF32 => exact writesF_rounded ready (exec_fcvtf s) rfl
    case toF64 => exact writesF_rounded ready (exec_fcvtf s) rfl
    case fcvtx =>
      have hint : wordInt ty (s.rx rs1) = int := by
        cases ty
        case s32 => exact toSigned_low _
        all_goals rfl
      have hround : roundTo (binFmt fmt) (roundingOf s.th rm false 0) (.ofInt (wordInt ty (s.rx rs1))) = roundTo (binFmt fmt) r (.ofInt int) := by
        rw [roundingOf_eq, hint]
      exact writesF_of_effect ready (exec_fcvtx s) (congrArg (fpWord fmt ·.1) hround) ((congrArg (·.2) hround).trans (by simp))
    case fmadd32 => exact writesF_rounded ready (exec_fmaddF32 s) rfl
    case fmadd64 => exact writesF_rounded ready (exec_fmaddF64 s) rfl
    case fnmadd32 => exact writesF_rounded ready (exec_fnmaddF32 s) rfl
    case fnmadd64 => exact writesF_rounded ready (exec_fnmaddF64 s) rfl
  · simp only [List.forall_mem_cons]
    refine ⟨?fmin, ?fmax, fun _ h => absurd h List.not_mem_nil⟩
    case fmin => exact writesF_exact ready (exec_fmin s) rfl (fpMin_cases a b)
    case fmax => exact writesF_exact ready (exec_fmax s) rfl (fpMax_cases a b)
  · intro n x y
    simp only [List.forall_mem_cons]
    refine ⟨?fsgnj, ?fsgnjN, ?fsgnjX, fun _ h => absurd h List.not_mem_nil⟩
    case fsgnj => exact writesF_of_effect ready (exec_fsgnj s) rfl rfl
    case fsgnjN => exact writesF_of_effect ready (exec_fsgnjN s) rfl rfl
    case fsgnjX => exact writesF_of_effect ready (exec_fsgnjX s) rfl rfl
  · have hround : fpRoundIntegral (binFmt fmt) (roundingOf s.th rm false 0) a = fpRoundIntegral (binFmt fmt) r a := by rw [roundingOf_eq]
    exact writesF_of_effect ready (exec_fround s) (congrArg (fpWord fmt ·.1) hround) (congrArg (·.2) hround)
  · exact writesF_of_effect ready (exec_fmvf s) (BitVec.ofNat_toNat ..) rfl
  · exact writesF_of_effect ready (exec_fmvf s) (fpWord_f32_low _) rfl
end
